-- ==== Sys2Proof/Word.lean ====
section
/-!
DEFINITION. Word.lean: the word types of the Zalrirex Z9 (R8, R9, R36) and the sparse tables in which State keeps
things that are many and mostly at their reset value.
-/

namespace Sys2Proof

/-- One byte of memory. -/
abbrev Byte := BitVec 8

/-- One 32-bit lane slot of a value-store entry (R32), or a 32-bit word. -/
abbrev Word := BitVec 32

/-- A 64-bit scalar register (R9). -/
abbrev DWord := BitVec 64

/-- A 52-bit virtual or physical address (R9, R243). -/
abbrev Addr := BitVec 52

/-- A mask with one bit per lane; bit i is lane i (R9). -/
abbrev Mask := BitVec 32

/-- The 32 lane slots of one value-store entry (R16). -/
abbrev Lanes := Vector (BitVec 32) 32

/-- A sparse table: pairs of a key and a value, keys strictly rising. A key not listed has the default value. -/
abbrev Tab (α : Type) := List (Nat × α)

end Sys2Proof
end

