-- ==== Sys2Proof/Config.lean ====
section
/-!
DEFINITION. Config.lean: what the spec leaves to the part, the firmware or chance: constants with no body, so that a
statement about them holds whatever they are (log 11).
-/

namespace Sys2Proof.Config

open Sys2Proof

/-- The 64 key bytes that the random bit generator gives for its n-th filling (GEN, R359). A free value. -/
opaque freeKey : Nat → BitVec 512

/-- A count of clocks of one agent at its n-th reading (R5: stamps of R308, R341, R344). A free value. -/
opaque freeStamp : Nat → BitVec 64

/-- The fields of a time account, in nanoseconds (R345, R346): the n-th account, field k. A free value. -/
opaque freeTime : Nat → Nat → BitVec 64

/-- The predictive-failure threshold that the firmware loads for a KIND (R320). -/
opaque errThreshold : BitVec 8 → Nat

/-- The fused device identifier (R358). -/
opaque deviceId : BitVec 64

/-- Byte k of the identity public key (R358). -/
opaque identityByte : Nat → BitVec 8

/-- Byte k of the Falcon-1024 signature made at the n-th report over a 64-byte digest (R358). A free value: the private
key is a fused secret and the signature is randomised. -/
opaque signatureByte : Nat → List (BitVec 8) → Nat → BitVec 8

/-- The base that lane l of an instruction shows in the n-th trace record where the name that holds it cannot be read
(R343). A free value. -/
opaque freeLane : Nat → Nat → BitVec 64

/-- The n-th choice that the spec leaves open: among the causes that R205 names for a failure of which it states none (a
mismatch or a malformed group of ECOLL, R202), and of the line that leaves a full L1 (R247). A free value. -/
opaque freePick : Nat → Nat

end Sys2Proof.Config
end

