-- ==== Sys2Proof/Syntax.lean ====
section
/-!
DEFINITION. Syntax.lean: every row of spec/opcode_table.json as one constructor of `Instr`. The first 128 are the
instructions of the Krytust set, with the fields of R38, R46 and R48 as arguments; the others are the happenings
of the device's other agents, with what the spec leaves to those agents as arguments.
-/

namespace Sys2Proof

/-- The TYPE codes of R49, in code order. -/
inductive Ty where
  | i8 | i16 | i32 | i64 | n8 | n16 | n32 | n64
  | f32 | bf16 | f16 | e4m3 | e5m2 | e2m1 | bf16x2 | f16x2
  deriving DecidableEq, Repr

/-- Bits 7:0 of the common word (R38): predicate, datapath, switch marker and length. -/
structure Head where
  neg : Bool
  msk : BitVec 3
  uni : Bool
  sw  : Bool
  len : BitVec 2
  deriving DecidableEq, Repr

/-- The operand fields of R38 and the bits after the common word (R44, R46). `ext` is 0 in the 64-bit form, IMM32
zero-extended in the 96-bit form, and bits 127:64 in the 128-bit form. -/
structure Ops where
  head : Head
  dst  : BitVec 8
  cnt  : BitVec 4
  sa   : BitVec 8
  sb   : BitVec 8
  sc   : BitVec 8
  ext  : BitVec 64
  deriving DecidableEq, Repr

/-- FN layout T (R48). -/
structure FnT where
  sub : BitVec 4
  mg  : Bool
  md  : BitVec 3
  ty  : Ty
  deriving DecidableEq, Repr

/-- FN layout M (R48, R51). -/
structure FnM where
  sub   : BitVec 3
  ord   : BitVec 2
  scope : BitVec 3
  ty    : Ty
  deriving DecidableEq, Repr

/-- FN layout E (R48). -/
structure FnE where
  sub : BitVec 4
  op  : BitVec 4
  ty  : Ty
  deriving DecidableEq, Repr

/-- The FN field by layout (R48). -/
inductive Fn where
  | t (f : FnT)
  | m (f : FnM)
  | e (f : FnE)
  | n (k : BitVec 12)
  | z
  deriving DecidableEq, Repr

/-- An item of crew state that can hold an uncorrectable error (R305, KIND 0x0A). -/
inductive RegItem where
  | scalar (r : Nat)
  | mask (k : Nat)
  | stack (depth : Nat)
  | name (code : Nat)
  deriving DecidableEq, Repr

/-- Where a detector finds an uncorrectable error (R305, R403). -/
inductive ErrLoc where
  | slot (core entry lane : Nat)      -- value store
  | word (pa : Nat)                   -- scratchpad, accumulator memory or B-stack word, by its window address
  | array (core : Nat)                -- matrix array: the residue check of the oldest queued step failed twice
  | line (pa : Nat)                   -- an L2 or HBM line, delivered poisoned (R312)
  | check (pa : Nat) (entry exit : BitVec 4)   -- an end-to-end check mismatch (R316)
  | sync (pa : Nat)                   -- a sync engine line (R178)
  | crew (c : Nat) (item : RegItem)   -- crew state
  deriving DecidableEq, Repr

/-- The forms of AtomicOp that the host may send (R387). -/
inductive HostAtom where
  | fetchAdd (b : BitVec 64)
  | swap (b : BitVec 64)
  | cas (cmp new : BitVec 64)
  deriving DecidableEq, Repr

/-- An inbound request of a peer device (R396). -/
inductive PeerReq where
  | read (n : Nat)
  | write (bytes : List Byte)
  | atom (op : BitVec 3) (ty : Ty) (b : BitVec 64)
  | cas (ty : Ty) (cmp new : BitVec 64)
  deriving DecidableEq, Repr

/-- What an NVMe controller asks of this device's HBM (R394). -/
inductive DmaReq where
  | read (n : Nat)
  | write (bytes : List Byte)
  deriving DecidableEq, Repr

/-- What one storage root port offers the boot chain (R353): a namespace with LBAs of 4,096 bytes, its boot directory and
the bytes of the three stages; `none` where a read fails. -/
structure BootPort where
  usable    : Bool
  directory : Option (List Byte)
  stage1    : Option (List Byte)
  stage2    : Option (List Byte)
  stage3    : Option (List Byte)
  deriving DecidableEq, Repr

/-- One constructor per row of spec/opcode_table.json. -/
inductive Instr where
  -- control flow and counted values (R80)
  | nop (x : Ops)
  | bra (x : Ops)
  | brx (x : Ops)
  | dvg (x : Ops)
  | cvg (x : Ops)
  | call (x : Ops)
  | ret (x : Ops)
  | exit (x : Ops)
  | loop (x : Ops)
  | ppt (k : BitVec 12) (x : Ops)
  | mov (x : Ops)
  | movi (x : Ops)
  | sel (x : Ops)
  | drop (x : Ops)
  | dropk (k : BitVec 12) (x : Ops)
  | keep (k : BitVec 12) (x : Ops)
  | openName (x : Ops)
  | claim (x : Ops)
  | cede (x : Ops)
  | poolq (x : Ops)
  | csrr (k : BitVec 12) (x : Ops)
  | csrw (k : BitVec 12) (x : Ops)
  | evwait (k : BitVec 12) (x : Ops)
  | trap (k : BitVec 12) (x : Ops)
  | eret (x : Ops)
  | bkpt (x : Ops)
  | sigchk (x : Ops)
  | sigrst (x : Ops)
  -- integer, float, conversion and cross-lane instructions (R111)
  | iadd (f : FnT) (x : Ops)
  | isub (f : FnT) (x : Ops)
  | imul (f : FnT) (x : Ops)
  | imulh (f : FnT) (x : Ops)
  | imad (f : FnT) (x : Ops)
  | idiv (f : FnT) (x : Ops)
  | irem (f : FnT) (x : Ops)
  | imin (f : FnT) (x : Ops)
  | imax (f : FnT) (x : Ops)
  | iabs (f : FnT) (x : Ops)
  | ineg (f : FnT) (x : Ops)
  | icmp (f : FnT) (x : Ops)
  | iaddc (f : FnT) (x : Ops)
  | lea (f : FnT) (x : Ops)
  | andB (f : FnT) (x : Ops)
  | orB (f : FnT) (x : Ops)
  | xorB (f : FnT) (x : Ops)
  | andnB (f : FnT) (x : Ops)
  | notB (f : FnT) (x : Ops)
  | shl (f : FnT) (x : Ops)
  | shr (f : FnT) (x : Ops)
  | sar (f : FnT) (x : Ops)
  | rot (f : FnT) (x : Ops)
  | popc (f : FnT) (x : Ops)
  | clz (f : FnT) (x : Ops)
  | brev (f : FnT) (x : Ops)
  | bfx (f : FnT) (x : Ops)
  | bfi (f : FnT) (x : Ops)
  | fadd (f : FnT) (x : Ops)
  | fsub (f : FnT) (x : Ops)
  | fmul (f : FnT) (x : Ops)
  | ffma (f : FnT) (x : Ops)
  | fmin (f : FnT) (x : Ops)
  | fmax (f : FnT) (x : Ops)
  | fcmp (f : FnT) (x : Ops)
  | frcp (f : FnT) (x : Ops)
  | frsq (f : FnT) (x : Ops)
  | fsqrt (f : FnT) (x : Ops)
  | fexp2 (f : FnT) (x : Ops)
  | flog2 (f : FnT) (x : Ops)
  | ftanh (f : FnT) (x : Ops)
  | fclass (f : FnT) (x : Ops)
  | hadd (f : FnT) (x : Ops)
  | hmul (f : FnT) (x : Ops)
  | hfma (f : FnT) (x : Ops)
  | cvt (f : FnT) (x : Ops)
  | qnt (f : FnT) (x : Ops)
  | dqnt (f : FnT) (x : Ops)
  | pack (f : FnT) (x : Ops)
  | unpk (f : FnT) (x : Ops)
  | shfl (f : FnT) (x : Ops)
  | vote (f : FnT) (x : Ops)
  | lred (f : FnT) (x : Ops)
  | lscan (f : FnT) (x : Ops)
  | matchLanes (f : FnT) (x : Ops)
  | lane (f : FnT) (x : Ops)
  -- matrix and select instructions (R138)
  | aclaim (x : Ops)
  | afree (x : Ops)
  | azero (x : Ops)
  | mma (x : Ops)
  | ald (x : Ops)
  | ast (x : Ops)
  | ard (f : FnT) (x : Ops)
  | awr (f : FnT) (x : Ops)
  | ascl (x : Ops)
  | astat (k : BitVec 12) (x : Ops)
  | selk (k : BitVec 12) (x : Ops)
  -- memory access, atomics and barriers (R157)
  | ld (f : FnM) (x : Ops)
  | st (f : FnM) (x : Ops)
  | lds (f : FnM) (x : Ops)
  | sts (f : FnM) (x : Ops)
  | pref (f : FnM) (x : Ops)
  | pmap (x : Ops)
  | tlbinv (f : FnM) (x : Ops)
  | atom (f : FnM) (x : Ops)
  | cas (f : FnM) (x : Ops)
  | red (f : FnM) (x : Ops)
  | atoms (f : FnM) (x : Ops)
  | fence (f : FnM) (x : Ops)
  | bar (f : FnM) (x : Ops)
  | bara (f : FnM) (x : Ops)
  | barw (f : FnM) (x : Ops)
  -- bins, engines, launch and steward instructions (R186)
  | susp (x : Ops)
  | wake (x : Ops)
  | resume (x : Ops)
  | binq (k : BitVec 12) (x : Ops)
  | ecpy (f : FnE) (x : Ops)
  | egath (f : FnE) (x : Ops)
  | escat (f : FnE) (x : Ops)
  | ecoll (f : FnE) (x : Ops)
  | fork (f : FnE) (x : Ops)
  | rdv (f : FnE) (x : Ops)
  | tlwait (f : FnE) (x : Ops)
  | tlq (f : FnE) (x : Ops)
  | deq (x : Ops)
  | enq (x : Ops)
  | launch (x : Ops)
  | ljoin (x : Ops)
  | kzero (x : Ops)
  | scrub (x : Ops)
  | ctxfree (x : Ops)
  -- happenings of crews, memory and the matrix array
  | takeTrap (c : Nat) (cause : BitVec 8) (addr : DWord) (lanes : Mask)
  | memoryAccessPerformed (c a : Nat) (lanes : Mask)
  | loadDataArrival (a : Nat)
  | windowWrite (c : Nat) (a : Nat × Mask)  -- an access and the lanes of it
  | windowRead (c : Nat) (a : Nat × Mask)
  | translationWalkComplete (c a : Nat)
  | matrixInstructionComplete (core : Nat)
  | crewRetire (c : Nat)
  | gangRetire (g : Nat)
  | gridEnd (l : Nat)
  | crewEvict (core : Nat)
  | crewRestore (c slot : Nat)
  | automaticResume (g bin : Nat)
  | resumedCrewBind (c : Nat)
  | engineCommandComplete (k : Nat)
  | engineRecordComplete (k : Nat)
  | collectiveMatch (ks : List Nat) (remote : List (Nat × List Byte)) (fails : Bool)
  | pmapComplete (c : Nat)
  | tlbinvComplete (c : Nat)
  | kzeroComplete (slot : BitVec 7)
  | gangKill (g : Nat) (cause : BitVec 8) (addr : DWord)
  | gangRelaunch (l gid core : Nat)
  | gangSwapIn (g : Nat)
  -- happenings of the queues, the headframe and the dispatcher
  | hoistRound
  | packetNop (q : Nat)
  | packetLaunch (q : Nat)
  | packetSignal (q : Nat)
  | packetWait (q : Nat)
  | waitPacketComplete (q u : Nat)
  | packetEvent (q : Nat)
  | launchAdmit (l : Nat × List (Nat × Nat))  -- a launch, and the slots by core that are reserved for it
  | gangPlace (l : Nat) (cores : List Nat)
  | qtail (q : Nat) (v : DWord)
  | qstatHalt (q : Nat) (halt : Bool)
  | ctxpreReqSet (ctx : Nat) (deadline : BitVec 32)
  | ctxpreReqClear (ctx : Nat)
  | softDeadlineExpiry (ctx : Nat)
  | hardStop (ctx : Nat)
  | contextRestore (ctx : Nat)
  | ctxroot (ctx : Nat) (v : DWord)
  | evraise (ctx : Nat) (v : DWord)
  -- happenings of the mailbox service, the sampler and the trace
  | dbgbell (ctx : Nat)
  | dbgmbox (ctx : Nat) (v : DWord)
  | ping (ctx : Nat)
  | rdstate (ctx : Nat)
  | rdname (ctx : Nat)
  | wrname (ctx : Nat)
  | dropname (ctx : Nat)
  | rdscal (ctx : Nat)
  | wrscal (ctx : Nat)
  | wrcsr (ctx : Nat)
  | cont (ctx : Nat)
  | rdmem (ctx : Nat)
  | stopNotice (c : Nat)
  | sample (core : Nat)
  | smpcfg (core : Nat) (v : DWord)
  -- happenings of the security block
  | gen (slot : BitVec 7)
  | load (slot : BitVec 7)
  | zero (slot : BitVec 7)
  | stage
  | commit
  | abort
  | attctlGo (v : DWord)
  | minsvnset (v : DWord)
  | ctxasgGo (v : DWord)
  | scrubPieceComplete (fails : Bool)
  -- happenings of the ratio arbiter
  | arbtabLoad (v : DWord × Nat)     -- the register's value, and the temperature that the sensors give
  | pwrcap (v : DWord)
  | grantDeferTimeout
  | grantMoveComplete
  | temperatureSample (t : Nat)
  | uvstepStep (die dom : Nat) (v : BitVec 3)
  | uvstepRev (die dom : Nat)
  -- happenings of the reliability engine
  | correctedError (kind : BitVec 8) (inst : BitVec 16) (addr : DWord × List (BitVec 8 × BitVec 16 × DWord))
    -- the address, and the errors of other instances at the same moment
  | uncorrectableError (kind : BitVec 8) (inst : BitVec 16) (loc : ErrLoc)
  | rateWindowExpiry
  | errstatOvfClear
  | poisonclr (die : Nat) (v : DWord)
  | promoteRange (ctx va : Nat) (big : Bool) (target : Nat) (interfered : Bool)
  -- happenings of the host, peers, storage and reset
  | hostRead (pa n : Nat)
  | hostWrite (pa : Nat) (bytes : List Byte)
  | hostAtomic (pa size : Nat) (op : HostAtom)
  | peerRequest (l pa : Nat) (req : PeerReq)
  | requestTimeout (c a : Nat)
  | linkDown (l : Nat × List Nat)    -- the link, and the engine commands that had a request on it
  | hostLinkDown
  | storageDoorbell (port pair : Nat) (v : DWord)
  | deviceReset (ports : List BootPort)
  | registerWrite (off size : Nat) (v : DWord)
  | storageDma (port pa : Nat) (req : DmaReq)
  | linkTrained (l : Nat) (peer : BitVec 16)
  | waitPollFailure (q u : Nat)
  | ontimeTick
  deriving DecidableEq, Repr

end Sys2Proof
end

