-- ==== Sys2Proof/Machine/Bits.lean ====
section
/-!
DEFINITION. Machine/Bits.lean: sparse tables, byte order, bit fields, and the codes of R49.
-/

namespace Sys2Proof

/-- The value stored under key `k`, if any. -/
def Tab.at? {α : Type} : Tab α → Nat → Option α
  | [], _ => none
  | (i, v) :: t, k => if i = k then some v else Tab.at? t k

/-- The value stored under key `k`, or the default `d`. -/
def Tab.getD {α : Type} (t : Tab α) (k : Nat) (d : α) : α := (Tab.at? t k).getD d

/-- Store `v` under key `k`, keeping the keys strictly rising. -/
def Tab.put {α : Type} : Tab α → Nat → α → Tab α
  | [], k, v => [(k, v)]
  | (i, w) :: t, k, v =>
    if k < i then (k, v) :: (i, w) :: t
    else if k = i then (k, v) :: t
    else (i, w) :: Tab.put t k v

/-- Remove key `k`. -/
def Tab.del {α : Type} (t : Tab α) (k : Nat) : Tab α := t.filter fun p => p.1 != k

/-- Replace every value by `f key value`. -/
def Tab.mapV {α : Type} (t : Tab α) (f : Nat → α → α) : Tab α := t.map fun p => (p.1, f p.1 p.2)

/-- The keys whose value satisfies `p`, in rising order. -/
def Tab.keysWhere {α : Type} (t : Tab α) (p : Nat → α → Bool) : List Nat :=
  (t.filter fun q => p q.1 q.2).map Prod.fst

/-- The first key whose value satisfies `p`. -/
def Tab.findKey? {α : Type} (t : Tab α) (p : Nat → α → Bool) : Option Nat :=
  (t.find? fun q => p q.1 q.2).map Prod.fst

/-- The lowest number below `n`, from `i` on, that is not a key of the table (R15). -/
def Tab.firstFree {α : Type} (t : Tab α) : Nat → Nat → Option Nat
  | 0, _ => none
  | fuel + 1, i => if (Tab.at? t i).isNone then some i else Tab.firstFree t fuel (i + 1)

/-- One bit of a Nat. -/
def bitOf (x i : Nat) : Bool := x.testBit i

/-- Bits hi:lo of a 64-bit value as a Nat (R8). -/
def fld (x : DWord) (hi lo : Nat) : Nat := (x.toNat >>> lo) % 2 ^ (hi + 1 - lo)

/-- `v` placed at bit `lo` of a 64-bit value, cut to `w` bits. -/
def put (v lo w : Nat) : DWord := BitVec.ofNat 64 ((v % 2 ^ w) <<< lo)

/-- A Bool as a number. -/
def b2n (b : Bool) : Nat := if b then 1 else 0

/-- The `n` low bytes of `v`, lowest address first (R36). -/
def bytesLE : Nat → Nat → List Byte
  | 0, _ => []
  | n + 1, v => BitVec.ofNat 8 v :: bytesLE n (v >>> 8)

/-- The number whose little-endian bytes are given. -/
def ofBytesLE : List Byte → Nat
  | [] => 0
  | b :: bs => b.toNat + 256 * ofBytesLE bs

/-- Two's complement reading of the low `w` bits of `v`. -/
def signedOf (w v : Nat) : Int :=
  let u := v % 2 ^ w
  if 0 < w ∧ 2 ^ (w - 1) ≤ u then (u : Int) - (2 ^ w : Nat) else (u : Int)

/-- The low `w` bits of an integer, as a Nat. -/
def wrapTo (w : Nat) (v : Int) : Nat := (v % ((2 ^ w : Nat) : Int)).toNat

/-- Sign extension of the low `w` bits of `v` to 64 bits. -/
def sext64 (w v : Nat) : DWord := BitVec.ofInt 64 (signedOf w v)

/-- An integer clamped to lo..hi. -/
def clampI (lo hi v : Int) : Int := if v < lo then lo else if hi < v then hi else v

/-- The number of one bits among the low `n` bits. -/
def popcountN : Nat → Nat → Nat
  | 0, _ => 0
  | n + 1, v => v % 2 + popcountN n (v / 2)

/-- The lanes 0 to 31. -/
def allLanes : List (Fin 32) := List.finRange 32

/-- The lanes of a mask, ascending. -/
def lanesOf (m : Mask) : List (Fin 32) := allLanes.filter fun l => m[l]

/-- The mask with the lanes that satisfy `p`. -/
def maskOf (p : Fin 32 → Bool) : Mask :=
  allLanes.foldl (fun m l => if p l then m ||| (1#32 <<< l.val) else m) 0#32

/-- The number of lanes in a mask. -/
def maskCount (m : Mask) : Nat := (lanesOf m).length

/-- The mask of the single lane `l`. -/
def laneBit (l : Nat) : Mask := 1#32 <<< l

/-- `List.foldl` that stops at the first `none`. -/
def foldOpt {α β : Type} (f : α → β → Option α) : α → List β → Option α
  | a, [] => some a
  | a, b :: bs => match f a b with
    | none => none
    | some a' => foldOpt f a' bs

/-- TYPE code of a type (R49). -/
def Ty.code : Ty → BitVec 4
  | .i8 => 0 | .i16 => 1 | .i32 => 2 | .i64 => 3 | .n8 => 4 | .n16 => 5 | .n32 => 6 | .n64 => 7
  | .f32 => 8 | .bf16 => 9 | .f16 => 10 | .e4m3 => 11 | .e5m2 => 12 | .e2m1 => 13 | .bf16x2 => 14 | .f16x2 => 15

/-- The type of a TYPE code (R49). -/
def Ty.ofCode (c : BitVec 4) : Ty :=
  match c.toNat with
  | 0 => .i8 | 1 => .i16 | 2 => .i32 | 3 => .i64 | 4 => .n8 | 5 => .n16 | 6 => .n32 | 7 => .n64
  | 8 => .f32 | 9 => .bf16 | 10 => .f16 | 11 => .e4m3 | 12 => .e5m2 | 13 => .e2m1 | 14 => .bf16x2 | _ => .f16x2

/-- The 64-bit types, whose vector operands are pairs (R113). -/
def Ty.wide (t : Ty) : Bool := t == .i64 || t == .n64

/-- The integer types (R60). -/
def Ty.isInt (t : Ty) : Bool := t.code.toNat < 8

/-- The signed integer types. -/
def Ty.isSigned (t : Ty) : Bool := t.code.toNat < 4

/-- Width in bits of a value of the type; the width of the whole slot for packed pairs. -/
def Ty.width : Ty → Nat
  | .i8 | .n8 | .e4m3 | .e5m2 => 8
  | .i16 | .n16 | .bf16 | .f16 => 16
  | .i32 | .n32 | .f32 | .bf16x2 | .f16x2 => 32
  | .i64 | .n64 => 64
  | .e2m1 => 4

end Sys2Proof
end

