-- ==== Sys2Proof/Machine/Mem.lean ====
section
/-!
DEFINITION. Machine/Mem.lean: the physical memory of R243 as a list of cells in one canonical form: addresses strictly
rising, no cell equal to what an unlisted address reads as.
-/

namespace Sys2Proof

/-- The physical address space of R243, on-chip windows included: (address, byte) pairs. -/
abbrev Memory := List (Nat × BitVec 8)

/-- What an address that nothing has written reads as. DESIGN CHOICE: 0; the spec gives memory no contents at
power-on (log 1). -/
def Memory.blank : Byte := 0#8

/-- The byte at address `a`. -/
def Memory.get : Memory → Nat → Byte
  | [], _ => Memory.blank
  | (i, b) :: m, a => if i = a then b else Memory.get m a

/-- Store one byte; storing the blank value removes the cell. -/
def Memory.set : Memory → Nat → Byte → Memory
  | [], a, b => if b = Memory.blank then [] else [(a, b)]
  | (i, c) :: m, a, b =>
    if a < i then (if b = Memory.blank then (i, c) :: m else (a, b) :: (i, c) :: m)
    else if a = i then (if b = Memory.blank then m else (a, b) :: m)
    else (i, c) :: Memory.set m a b

/-- The `n` bytes from address `a` on. -/
def Memory.read (m : Memory) (a : Nat) : Nat → List Byte
  | 0 => []
  | n + 1 => m.get a :: Memory.read m (a + 1) n

/-- Store bytes from address `a` on. -/
def Memory.write (m : Memory) (a : Nat) : List Byte → Memory
  | [] => m
  | b :: bs => Memory.write (m.set a b) (a + 1) bs

/-- The little-endian number in `n` bytes at `a`. -/
def Memory.readNat (m : Memory) (a n : Nat) : Nat := ofBytesLE (m.read a n)

/-- Store the low `n` bytes of `v` at `a`, little-endian. -/
def Memory.writeNat (m : Memory) (a n v : Nat) : Memory := m.write a (bytesLE n v)

/-- Every byte of the range becomes blank. -/
def Memory.clear (m : Memory) (lo n : Nat) : Memory := m.filter fun c => !(decide (lo ≤ c.1) && decide (c.1 < lo + n))

/-- The cells of a range, with addresses relative to its start. -/
def Memory.slice (m : Memory) (lo n : Nat) : Memory :=
  (m.filter fun c => decide (lo ≤ c.1) && decide (c.1 < lo + n)).map fun c => (c.1 - lo, c.2)

/-- The range becomes the given slice. -/
def Memory.unslice (m : Memory) (lo n : Nat) (cells : Memory) : Memory :=
  cells.foldl (fun m c => m.set (lo + c.1) c.2) (m.clear lo n)

/-- The canonical form, from a lower bound on. -/
def Memory.wfFrom : Nat → Memory → Bool
  | _, [] => true
  | lo, (i, b) :: m => decide (lo ≤ i) && b != Memory.blank && Memory.wfFrom (i + 1) m

/-- The canonical form: addresses strictly rising, no blank cell. -/
def Memory.wf (m : Memory) : Bool := Memory.wfFrom 0 m

end Sys2Proof
end

