-- ==== Sys2Proof/Machine/State.lean ====
section
/-!
DEFINITION. Machine/State.lean: everything the spec gives the machine, as plain data, and the machine right after
reset. Many things of one kind (crews, cores, contexts, queues) stand in sparse tables; a key not listed has the reset
value. What is the model's own and not the spec's is said at its field.
-/

namespace Sys2Proof.Machine

open Sys2Proof

/-- Why a step stops without a next state. -/
inductive Fault where
  /-- Raised by a crew instruction executed while no crew is issuing. The default order of happenings never does
  this. Safe. -/
  | noCrew
  deriving DecidableEq, Repr

/-- Why a step is refused. -/
inductive Refusal where
  /-- Raised by the dispatch for an instruction that has no meaning in the model yet. Safe. -/
  | notModelled (mnemonic : String)
  deriving DecidableEq, Repr

/-- The trap causes of R25 that the device raises by name; `raw` is an ECAUSE code. -/
abbrev Cause := BitVec 8

/-! ## Value store -/

/-- The states of a value-store entry (R16); an entry not listed is free. -/
inductive EState where
  | bound | pending | opened | leased | released
  deriving DecidableEq, Repr

/-- One owned entry of a core's value store (R16). -/
structure Entry where
  st    : EState
  crew  : Nat          -- key of the owning crew
  gang  : Nat          -- its gang, for linger(g) of R14
  lanes : Lanes
  fill  : Mask         -- fill mask of an open entry (R17)
  bad   : Mask         -- slots that hold an uncorrectable error (R310)
  birth : Nat          -- sequence number of the allocating instruction (R21)
  rel   : Nat          -- sequence number of the releasing instruction (R20)
  tag   : Nat          -- pending: 2 * access + half; leased: engine command; open: 0, or its old number + 1 from its return
                       -- until the arrival log has been replayed
  gone  : Bool         -- its name was dropped while the entry was pending (R17)
  deriving DecidableEq, Repr

/-- A binding of the name table (R9): entry index and count, 15 for pinned. -/
structure Binding where
  entry : Nat
  count : Nat
  deriving DecidableEq, Repr

/-! ## Crews -/

/-- The kinds of reconvergence-stack entry (R82). -/
inductive StackKind where
  | join | deferred
  deriving DecidableEq, Repr

/-- One entry of the reconvergence stack (R82). -/
structure StackEntry where
  kind : StackKind
  pc   : Addr
  mask : Mask
  deriving DecidableEq, Repr

/-- The crew state that the checkpoint covers (R18). -/
structure Arch where
  pc     : Addr
  act    : Mask
  stack  : List StackEntry       -- top first
  names  : Tab Binding
  scal   : Vector DWord 63
  masks  : Vector Mask 7         -- m1 to m7
  tiles  : Tab Nat               -- handle to physical tile
  sig    : Word
  floor  : Nat
  bb     : Mask
  lt     : BitVec 8
  deriving DecidableEq, Repr

/-- A checkpoint: the covered state and the sequence number of the instruction it stands before (R18). -/
structure Snap where
  arch : Arch
  seq  : Nat
  deriving DecidableEq, Repr

/-- One trap register set (R23, R24). -/
structure TrapSet where
  epc   : Addr
  efpc  : Addr
  act   : Bool
  prv   : BitVec 2
  code  : BitVec 8
  eaddr : DWord
  em7   : Mask
  deriving DecidableEq, Repr

/-- What a memory access does (R163, R164, R177). -/
inductive AccKind where
  | load
  | store
  | rmw (op : Nat)      -- sub-op of R54; 7 is CAS
  deriving DecidableEq, Repr

/-- Where the value of a load or atomic goes. -/
inductive Dest where
  | none                       -- discard, or nothing to return
  | name (n : Nat) (pair : Bool)
  | scalar (r : Nat)
  deriving DecidableEq, Repr

/-- Where one lane's bytes lie: physical address and key slot of the translation (R254, R262). -/
structure Place where
  pa  : Nat
  key : Nat
  deriving DecidableEq, Repr

/-- One memory instruction whose lanes are not all performed (R18). -/
structure Access where
  id    : Nat
  snap  : Snap                 -- the state immediately before the instruction
  pc    : Addr
  opc   : Nat                  -- primary opcode
  kind  : AccKind
  ty    : Ty
  size  : Nat
  ord   : BitVec 2
  scope : BitVec 3
  spad  : Bool                 -- addressed by scratchpad offset
  priv  : BitVec 2
  lanes : Mask                 -- effective mask; lane 0 alone for a scalar form
  addr  : Tab Nat              -- address or offset of each lane
  datB  : Tab Nat              -- data, or compare value, of each lane
  datC  : Tab Nat              -- new value of CAS
  place : Option (Tab Place)   -- after translation
  done  : Mask                 -- lanes performed
  value : Tab Nat              -- values read
  bad   : Mask                 -- lanes whose value is marked uncorrectable (R312)
  dest  : Dest
  slots : List Nat             -- lines for which it took miss slots at issue (R249)
  exempt : Bool                -- its instruction is not matched (R325)
  deriving DecidableEq, Repr

/-- Data on its way to a destination (R163): every lane performed, the binding outstanding. -/
structure Arrival where
  crew  : Nat
  ty    : Ty
  dest  : Dest
  lanes : Mask
  value : Tab Nat
  bad   : Mask
  slots : List Nat             -- miss slots held until it has arrived (R249); a PREF has no more than these
  deriving DecidableEq, Repr

/-- Why a crew does not issue (R35, R339). -/
inductive Park where
  | switch                     -- a switch marker (R91)
  | scalar (a : Nat)           -- a scalar result (R165)
  | checkpoint                 -- an instruction that waits for the checkpoint (R19, R55)
  | alloc (need : Nat)         -- ALLOC-WAIT
  | claim (k : Nat)            -- CLAIM-WAIT on CLAIM
  | tile                       -- CLAIM-WAIT on ACLAIM (R142)
  | barrier (level n : Nat) (arrived : Bool)
  | matrix
  | engine (ws : List (Nat × Nat))  -- engines and numbers that it waits for
  | queue (addr : Nat)
  | join (handle : Nat)
  | bin (b need : Nat)         -- overflow slots of a bin
  | resume
  | event (i : Nat)
  | debug
  | pmap (va attr : Nat)
  | tlbinv (page : Option Nat)
  | cede
  | kzero (slot : Nat)
  | bind                       -- a resumed crew's frame bindings (R192)
  | slots (bank : Bool) (lines : List Nat)  -- miss slots for these lines, or a bank's quota (R250)
  deriving DecidableEq, Repr

/-- Events counted for a tensor id (R76). -/
structure Stat where
  sat   : Nat
  flush : Nat
  nan   : Nat
  deriving DecidableEq, Repr

/-- Counts that wait for the checkpoint (R78). -/
structure StatDue where
  seq  : Nat
  tid  : Nat
  stat : Stat
  deriving DecidableEq, Repr

/-- The saved contents of a range of on-chip memory, with its marked words (R403): offsets, and word numbers from the
start of the range. -/
structure Image where
  cells : Memory
  bad   : List Nat
  deriving DecidableEq, Repr

/-- The frame image that a resumed crew binds (R192): name, count and lanes. -/
structure FrameName where
  name  : Nat
  count : Nat
  lanes : Lanes
  deriving DecidableEq, Repr

/-- EVSNAP (R102, R108), with the PC of the waiting EVWAIT. -/
structure EvSnap where
  pc    : Addr
  index : Nat
  count : Nat
  deriving DecidableEq, Repr

/-- The number that the engine instruction at a PC took when it was last issued (R323). -/
structure EngMark where
  pc   : Addr
  kind : Nat
  n    : Nat
  deriving DecidableEq, Repr

/-- Where a crew stands. -/
inductive Home where
  | slot (core slot : Nat)     -- resident
  | evicted (core : Nat)       -- evicted, its gang resident (R99)
  | saved                      -- saved with its gang (R287, R210)
  deriving DecidableEq, Repr

/-- One crew (R9, R102). -/
structure Crew where
  gang    : Nat                -- key of its gang
  index   : Nat                -- crew index within the gang (R276)
  home    : Home
  arch    : Arch
  dead    : Mask
  age     : DWord
  priv    : BitVec 2
  setU    : TrapSet
  setS    : TrapSet
  setW    : TrapSet
  deadsrc : Bool
  bkpc    : Vector Addr 8
  bken    : BitVec 8
  halt    : Bool
  stepOn  : Bool
  evsnap  : Option EvSnap
  park    : Option Park
  seq     : Nat                -- sequence number of the next instruction
  acc     : List Access        -- unperformed accesses, oldest first
  ipc     : Addr               -- the PC of the instruction being issued (model's own)
  hold    : Bool               -- the instruction being issued makes an access (model's own)
  stats   : List StatDue
  stepDue : Option Mask        -- a STEP trap waits for the checkpoint (R326): EADDR
  exempt  : Bool               -- the next instruction is not matched (R325)
  empty   : Bool               -- mask and stack empty: waits to retire (R86)
  waitEvt : Option DWord       -- what a parked DEQ received (R208)
  barSeen : Tab Nat            -- last arrival phase per barrier, level * 16 + number (R180)
  down    : BitVec 3           -- PEERDOWN owed at gang, district and grid level (R181)
  marks   : List RegItem       -- uncorrectable errors in crew state (R305)
  image   : Tab Entry          -- spilled entries by old entry number (R99)
  tileImg : Tab (Image × Option Nat) -- spilled tiles by old physical tile: contents, releasing instruction (R99)
  frame   : List FrameName     -- frame names still to bind (R192)
  eng     : List EngMark       -- the commands it issued, the last at each PC
  notice  : Option Bool        -- a STOP notice is owed (R335); `true`: since a restore (R329)
  atHalt  : Tab EState         -- states at its halt of the names that were not bound then (R329)
  stopAt  : Bool               -- stopped after a PPT by a hard pre-emption (R101)
  area    : Nat                -- the number of its part of the context's spill area (the model's own)
  stamp   : List Byte          -- its image as the device wrote it into the spill area (R286)
  deriving DecidableEq, Repr

/-! ## Gangs -/

/-- One declared bin (R188). -/
structure Bin where
  auto   : Bool
  ready  : Bool
  ovcnt  : Nat
  occ    : Mask
  toff   : Nat
  width  : Nat
  thresh : Nat
  spc    : Addr
  fdp    : Addr
  ovp    : Nat
  rcnt   : DWord
  deriving DecidableEq, Repr

/-- A failed engine command not yet reported (R205). -/
structure EngFail where
  n     : Nat
  cause : Cause
  eaddr : Nat
  line  : Option Nat           -- the physical address in HBM that it failed on (R108)
  deriving DecidableEq, Repr

/-- One timeline (R196). -/
structure Timeline where
  issued : Nat
  done   : Nat
  ahead  : List Nat            -- completed numbers above `done`
  fails  : List EngFail        -- by number
  deriving DecidableEq, Repr

/-- One scratchpad watchpoint (R327). -/
structure Watch where
  base  : BitVec 19
  lim   : BitVec 19
  lanes : Mask
  wr    : Bool
  rd    : Bool
  deriving DecidableEq, Repr

/-- Where a gang stands. -/
inductive GangHome where
  | core                       -- resident
  | swapped                    -- left its core under LJOIN (R210)
  | saved                      -- saved by a hard stop (R287)
  | frozen (left : List Nat)   -- killed, scratchpad frozen until these crews have returned (R183) and its engine
                               -- commands are complete (R313)
  deriving DecidableEq, Repr

/-- One gang (R13). -/
structure Gang where
  grid   : Nat                 -- key of its grid
  gid    : Nat                 -- GANGID
  ctx    : Nat
  home   : GangHome
  core   : Nat
  spad   : Nat                 -- scratchpad base, bytes
  spLen  : Nat                 -- scratchpad length, bytes
  bins   : Tab Bin
  phases : Vector Nat 16
  cede   : Nat
  watch  : Vector Watch 4
  wphit  : DWord
  vslim  : Nat                 -- L(g), 0 replaced by 4,096
  tileRes : Nat                -- AT(g)
  priv   : BitVec 2
  copy   : Timeline
  gather : Timeline
  coll   : Timeline
  stats  : Tab Stat
  image  : Image               -- saved scratchpad (R287)
  area   : Nat                 -- the number of its part of the context's spill area (the model's own)
  stamp  : List Byte           -- its image as the device wrote it into the spill area (R286)
  back   : Option Nat          -- it waits to come back since this number (R210, R288)
  deriving DecidableEq, Repr

/-! ## Cores -/

/-- A bind record (R276). -/
structure Slot where
  state : Nat                  -- 1 reserved, 2 occupied, 3 held
  ctx   : Nat
  lid   : Nat
  gid   : Nat
  index : Nat
  crew  : Option Nat           -- key of the occupant
  deriving DecidableEq, Repr

/-- A tile that is not free (R141, R143). -/
structure Tile where
  crew : Nat
  rel  : Option Nat            -- released by this instruction of its crew
  deriving DecidableEq, Repr

/-- What the matrix array performs (R149). -/
inductive MatKind where
  | mma (a b : Nat) (fmt : DWord)
  | ald (off : Nat)
  | ast (off : Nat)
  | ascl (a b : Lanes)
  | selk (off k : Nat)
  | azero
  deriving DecidableEq, Repr

/-- An issued matrix instruction (R149). -/
structure MatOp where
  crew  : Nat
  gang  : Nat
  seq   : Nat
  pc    : Addr
  tile  : Nat                  -- physical tile
  lanes : Mask
  kind  : MatKind
  early : Tab (Nat × Bool)     -- memory words that the array has read ahead of the rest (R156): by word number, the value
                               -- and whether it is marked
  did   : List Nat             -- scratchpad words that it has written ahead of the rest (R156)
  deriving DecidableEq, Repr

/-- A line of an L1 (R247): 128 plaintext bytes and the key slot it is tagged with (R262). -/
structure Line where
  key   : Nat
  bytes : List Byte
  deriving DecidableEq, Repr

/-- A translation held by a TLB (R255). -/
structure TlbEntry where
  ctx   : Nat
  va    : Nat                  -- base of the page
  size  : Nat                  -- bytes
  frame : Nat
  key   : Nat
  user  : Bool
  fetch : Bool
  write : Bool
  deriving DecidableEq, Repr

/-- A sampler or trace unit (R337, R343). -/
structure Sampler where
  ctx   : BitVec 16
  slot  : BitVec 4
  rot   : Bool
  en    : Bool
  per   : BitVec 32
  base  : Nat
  log2n : Nat
  head  : DWord
  tail  : DWord
  drop  : DWord
  empty : DWord
  n     : Nat                  -- samples since EN was set (R338)
  deriving DecidableEq, Repr

/-- One core (R13). -/
structure Core where
  vs     : Tab Entry
  seqc   : Nat                 -- 56-bit sequence counter (R12)
  slots  : Tab Slot
  tiles  : Tab Tile
  mats   : List MatOp          -- oldest first
  lines  : Tab Line            -- L1, by line number
  tlb    : List TlbEntry       -- newest first
  last   : Vector Nat 4        -- slot within the quadrant that issued last (R282)
  smp    : Sampler
  trc    : Sampler
  canary : Tab Nat             -- by KIND (R317): ONCE, CHK, UE, CE in bits 8, 2, 1, 0
  deriving DecidableEq, Repr

/-! ## Contexts, launches, queues and engines -/

/-- A mailbox request being served (R331). -/
structure MbReq where
  op   : Nat
  seq  : Nat
  crew : Nat
  zeros : Bool                 -- the header's bits that must be zero are zero
  body : List Byte
  deriving DecidableEq, Repr

/-- The saved B-stack of one core (R289). -/
structure BSave where
  core  : Nat
  cells : Image
  stamp : List Byte            -- its image as the device wrote it into the spill area (R286)
  deriving DecidableEq, Repr

/-- One context (R13, R390). -/
structure Ctx where
  root     : Nat               -- ROOT, physical address
  promote  : Bool
  rootDue  : Option DWord      -- a write of CTXROOT that has not taken effect (R251)
  prot     : Bool
  priv     : BitVec 2
  launched : Bool              -- it has had its first launch (R390)
  pre      : BitVec 2          -- CTXPRE.STATE
  req      : Bool
  deadline : BitVec 32
  restore  : Option Nat        -- a restore was requested (R283); the number orders the requests (R288)
  spill    : Nat
  alog     : Nat
  alogN    : Nat
  logHead  : Nat               -- records replayed so far (R290)
  logTail  : Nat               -- records appended so far
  mbox     : Nat
  mbSeq    : BitVec 32         -- SEQ last served
  mbNtc    : BitVec 32         -- notices written
  mbReq    : Option MbReq
  keyslot  : BitVec 7
  evecU    : Addr
  evecS    : Addr
  evecW    : Addr
  events   : Tab Nat           -- occurrences per event
  poison   : List Nat          -- lines on which it has trapped POISON (R108)
  bsaves   : List BSave
  zeroised : Bool              -- its key slot was zeroised since it last ran (R214)
  deriving DecidableEq, Repr

/-- A started packet that has not completed (R266). -/
structure Packet where
  unit : Nat
  opc  : Nat
  addr : Nat
  val  : Nat
  grid : Option Nat            -- a LAUNCH's grid
  halt : Bool                  -- its access failed after its start (R267)
  deriving DecidableEq, Repr

/-- One queue (R263). -/
structure Queue where
  base  : Nat
  ctx   : Nat
  log2n : Nat
  en    : Bool
  head  : DWord
  tail  : DWord
  halt  : Bool
  index : Nat
  code  : Nat
  open_ : List Packet
  deriving DecidableEq, Repr

/-- Where a launch stands (R275, R279). -/
inductive GridState where
  | waiting | admitted | running | ended
  deriving DecidableEq, Repr

/-- One launch (R270 to R279). -/
structure Grid where
  ctx     : Nat
  record  : List Byte          -- 256 bytes
  binTab  : List Byte          -- bin table as read at the checks (R271): 512 bytes
  parent  : Option Nat
  pool    : Option Nat         -- pool slot of a child
  queue   : Option Nat
  unit    : Nat
  lid     : Nat
  priv    : BitVec 2
  state   : GridState
  next    : Nat                -- GANGID of the next gang to place
  due     : List Nat           -- killed gangs to be placed again (R279)
  kills   : Nat
  orphan  : Bool
  cause   : Cause
  orph    : Mask
  unrep   : Nat
  grant0  : Option DWord
  changes : Nat
  again   : Nat                -- gangs relaunched
  totals  : Tab Stat
  phases  : Vector Nat 4
  groups  : Tab (Vector Nat 8) -- district barrier phases by group
  dists   : Tab Nat            -- the district of each group that has been placed (R279, R314)
  bcores  : List Nat           -- cores whose B-stack holds its image (R278)
  deriving DecidableEq, Repr

/-- A slot of the pending pool (R209, R280). -/
structure PoolSlot where
  gen    : BitVec 32
  grid   : Option Nat          -- the child that occupies it
  parent : Nat
  done   : Bool
  status : Nat
  cause  : Cause
  joined : Bool
  deriving DecidableEq, Repr

/-- A DEQ that waits (R208). -/
structure Waiter where
  crew  : Nat
  va    : Nat
  pa    : Nat
  key   : Nat
  lanes : Mask                 -- the effective mask of its DEQ
  deriving DecidableEq, Repr

/-- What an engine command does (R198 to R203). -/
inductive CmdKind where
  | nothing                                       -- an empty effective mask (R197)
  | ecpy (kind : Nat) (ty : Ty) (va len sb sc : Nat)
  | egathName (ty : Ty) (addr : Tab Nat) (n count : Nat)
  | egathRow (addr : Tab Nat) (rb off : Nat)
  | escatName (ty : Ty) (addr : Tab Nat) (data : Lanes)
  | escatRow (addr : Tab Nat) (rb off : Nat)
  | ecoll (fn op : Nat) (ty : Ty) (va count group root : Nat)
  | put (va : Nat) (data : List Byte)             -- the result of an ECOLL that has met its match (R202)
  | fork (addr count next : Nat) (mask : Mask)
  deriving DecidableEq, Repr

/-- An issued engine command (R196, R197). -/
structure Cmd where
  gang  : Nat
  grid  : Nat
  crew  : Nat
  ctx   : Nat
  priv  : BitVec 2
  core  : Nat
  engine : Nat                 -- 0 copy, 1 gather, 2 coll
  n     : Nat
  pc    : Addr
  crewid : BitVec 14
  what  : CmdKind
  tile  : Option Nat           -- leased physical tile
  range : List (Nat × Nat)     -- leased scratchpad ranges: gang-relative offset and length
  isOver : Bool                -- complete; it stays until its timeline passes it (R197)
  result : Lanes               -- what its leased name receives
  begun : Option (CmdKind × Option Nat) -- the record that its program has reached and begun, with its tile (R203)
  did   : List Nat             -- parts that it has performed ahead of the rest (R205, R401)
  saved : Option Image         -- its leased tile, where its crew was killed while evicted (R313)
  deriving DecidableEq, Repr

/-! ## Arbiter, reliability, security, links -/

/-- A grant (R373). -/
structure Grant where
  isOver : Bool
  tband : BitVec 3
  cap   : BitVec 16
  cost  : BitVec 16
  net   : BitVec 4
  mem   : BitVec 4
  vec   : BitVec 4
  mat   : BitVec 4
  deriving DecidableEq, Repr

/-- A grant on its way, with its cause (R380). -/
structure GrantDue where
  grant : Grant
  cause : BitVec 4
  deriving DecidableEq, Repr

/-- The ratio arbiter (R373 to R384). -/
structure Arb where
  grant : Grant
  cause : BitVec 4             -- RATIOEV.CAUSE
  cap   : BitVec 12            -- PWRCAP
  table : Option (List Byte)   -- 2,048 bytes
  tabAddr : Nat
  tabErr : Bool
  ceil  : Vector Nat 4
  band  : Nat
  temp  : BitVec 8
  pend  : Option GrantDue      -- waits for a placement
  move  : Option GrantDue      -- domains are moving
  queue : List (Nat × Bool)    -- causes that arose during a move, and whether each takes effect at once (R382)
  deriving DecidableEq, Repr

/-- A lifetime record (R319). -/
structure Life where
  ue      : Nat
  revoked : Bool
  ceil    : BitVec 4
  hist    : Tab Nat            -- corrected errors by 8 * step + band
  deriving DecidableEq, Repr

/-- UVSTEPc of one voltage domain (R390). -/
structure Uv where
  step : BitVec 3
  rev  : Bool
  deriving DecidableEq, Repr

/-- The reliability engine (R306, R319, R320). -/
structure Rel where
  base  : Nat
  log2n : BitVec 5
  en    : Bool
  tail  : DWord
  head  : DWord
  ovf   : Bool
  drops : Nat
  window : Tab Nat             -- corrected errors of a unit in the current rate window, by unit key
  life  : Tab Life             -- by unit key
  ontime : Nat                 -- ONTIME, the same in every lifetime record
  uv    : Tab Uv               -- by 4 * die + domain
  canary : Tab Nat             -- units outside the cores, by unit key (R317)
  deriving DecidableEq, Repr

/-- One key slot (R359). -/
structure KeySlot where
  state : BitVec 2             -- 0 EMPTY, 1 READY, 2 ZEROISED
  data  : List Byte
  tweak : List Byte
  gen   : Bool                 -- filled by GEN
  zero  : Nat                  -- tick of the last zeroisation
  deriving DecidableEq, Repr

/-- A resource of R361 that is not FREE: OWNED by a context, or RELEASING. -/
inductive Res where
  | core (k : Nat)
  | granule (core g : Nat)
  | frame (f : Nat)
  deriving DecidableEq, Repr

structure ResOwn where
  res   : Res
  owner : Option Nat           -- none: RELEASING
  deriving DecidableEq, Repr

/-- The scrub engine and its registers (R213, R364). -/
structure Scrub where
  list  : List (Nat × Nat)     -- base and length
  prog  : DWord
  total : DWord
  idx   : BitVec 12
  rsm   : Bool
  state : BitVec 2
  start : Nat                  -- tick at which the scrub started
  past  : List (Nat × Nat × Nat) -- ranges that finished scrubs counted: base, length, start
  deriving DecidableEq, Repr

/-- A firmware version: VERSION and SVN (R354). -/
structure Version where
  ver : BitVec 32
  svn : BitVec 32
  deriving DecidableEq, Repr

/-- The security block (R353 to R365). -/
structure Sec where
  port   : BitVec 2
  code   : BitVec 8
  boot   : BitVec 4            -- BOOTSTAT.STATE
  minsvn : DWord
  rootdig : List Byte
  meas   : Vector (List Byte) 4
  smeas  : List Byte
  fwimg  : Nat
  fwErr  : BitVec 8
  hstage : BitVec 2
  fwState : BitVec 2
  run2   : Version             -- running stage 2
  run3   : Version
  staged : Version
  nonce  : List Byte
  attAddr : Nat
  attDone : Bool
  kcSlot : BitVec 7
  kcStat : BitVec 8
  kcZero : BitVec 7            -- the slot whose zeroisation STATUS 1 waits for
  keyData : List Byte
  slots  : Tab KeySlot
  zeroing : List Nat           -- slots whose zeroisation is under way
  asgAddr : Nat
  asgCtx : BitVec 16
  asgCount : BitVec 13
  asgRes : BitVec 2
  owned  : List ResOwn
  scrub  : Scrub
  ltsel  : BitVec 19
  deriving DecidableEq, Repr

/-- LNKSTAT of one link (R395). -/
structure Link where
  peer  : BitVec 16
  downs : BitVec 8
  up    : Bool
  deriving DecidableEq, Repr

/-- The links of the device (R392, R395). -/
structure Net where
  id    : BitVec 10
  key   : BitVec 7
  links : Tab Link
  route : Tab (BitVec 18)
  host  : Bool                 -- the host link is up
  deriving DecidableEq, Repr

/-- One NVMe queue pair register (R394). -/
structure Pair where
  sq : BitVec 16
  cq : BitVec 16
  size : BitVec 32
  sqPa : Nat
  cqPa : Nat
  deriving DecidableEq, Repr

/-- The storage root ports (R394). -/
structure Store where
  pairs : Tab Pair             -- by 128 * port + pair
  sel   : Tab DWord            -- ring selector by port
  deriving DecidableEq, Repr

/-- The answer to the last request of the host or a peer (R387 to R391). -/
inductive Resp where
  | none
  | data (bytes : List Byte) (poisoned : Bool)
  | done
  | abort                      -- Completer Abort
  | unsupported                -- Unsupported Request
  deriving DecidableEq, Repr

/-- What happens next, in the order of the agenda (the model's own, log 10). -/
inductive Pending where
  | issue (core quad : Nat)    -- a quadrant's vector clock
  | event (i : Instr)          -- a happening of the opcode table
  | memWrite (pa : Nat) (bytes : List Byte)   -- the host or a peer writes its own memory
  | tlbDrop (core i : Nat)     -- a core TLB loses a translation
  | lineDrop (core line : Nat) -- an L1 loses a line
  | poolRefill (die : Nat) (frames : List Nat)
  | outLine (line : Nat) (bad : Bool)  -- requests to a line of host or peer memory begin, or cease, to meet R392
  | barRead (off size : Nat)   -- the host reads BAR0 (R388)
  | queuePair (port pair : Nat) (p : Pair)  -- the firmware creates an I/O queue pair (R393)
  | cmdPart (k i : Nat)        -- an engine command performs one part of its accesses ahead of the rest (R205, R401)
  | collMeet (ks : List Nat) (remote : List (Nat × List Byte)) -- ranks meet; their results are still to be written (R202)
  | matRead (core word : Nat)  -- the matrix array reads one word ahead of the rest (R156)
  | matWrite (core word : Nat) -- it writes one scratchpad word ahead of the rest (R156)
  deriving DecidableEq, Repr

/-- The whole machine. -/
structure State where
  mem    : Memory              -- every physical address of R243
  poison : List Nat            -- poisoned lines of HBM, by line number (R312)
  sliceBad : Tab Nat           -- of those, the lines whose bad data an L2 slice held, with its INST (R402)
  syncBad : List Nat           -- poisoned sync-engine lines (R178)
  badWord : List Nat           -- marked words of on-chip memory, by word number (R403)
  outBad : List Nat            -- the model's own: lines of host and peer memory whose requests meet R392
  crews  : Tab Crew
  gangs  : Tab Gang
  grids  : Tab Grid
  cores  : Tab Core
  ctxs   : Tab Ctx
  evAll  : Tab Nat             -- occurrences of events that were raised in every context (R108)
  queues : Tab Queue
  pool   : Tab PoolSlot
  poolQ  : List Nat            -- children in the order they were placed (R280)
  arrive : Tab Arrival
  waits  : List Waiter         -- in order of arrival at the sync engines
  cmds   : Tab Cmd
  lltlb  : Tab (List TlbEntry) -- last-level TLB of each die
  frames : Tab (List Nat)      -- page pool of each die, frame addresses
  round  : Nat                 -- the hoist core's round counter (R268)
  arb    : Arb
  rel    : Rel
  sec    : Sec
  net    : Net
  store  : Store
  agenda : List Pending        -- the model's own: what happens next (log 10)
  cur    : Option Nat          -- the model's own: the crew that issues
  turn   : Nat                 -- the model's own: the quadrant served next
  tick   : Nat                 -- the model's own: free values are applied to it (log 11)
  nextId : Nat                 -- the model's own: the next key
  resp   : Resp                -- the model's own: the last answer to the host or a peer
  deriving DecidableEq, Repr

/-! ## Reset values -/

def Sampler.reset : Sampler :=
  { ctx := 0, slot := 0, rot := false, en := false, per := 0, base := 0, log2n := 0, head := 0, tail := 0, drop := 0,
    empty := 0, n := 0 }

/-- A core after reset (R12, R16; `last`: DESIGN CHOICE 15, log 3). -/
def Core.reset : Core :=
  { vs := [], seqc := 0, slots := [], tiles := [], mats := [], lines := [], tlb := [], last := Vector.replicate 4 15,
    smp := Sampler.reset, trc := Sampler.reset, canary := [] }

/-- A context after reset (R390). -/
def Ctx.reset : Ctx :=
  { root := 0, promote := false, rootDue := none, prot := false, priv := 0, launched := false, pre := 0, req := false, deadline := 0,
    restore := none, spill := 0, alog := 0, alogN := 0, logHead := 0, logTail := 0, mbox := 0, mbSeq := 0, mbNtc := 0,
    mbReq := none, keyslot := 0, evecU := 0, evecS := 0, evecW := 0, events := [], poison := [], bsaves := [],
    zeroised := false }

/-- A queue after reset (R263). -/
def Queue.reset : Queue :=
  { base := 0, ctx := 0, log2n := 0, en := false, head := 0, tail := 0, halt := false, index := 0, code := 0, open_ := [] }

/-- The floor grant (R373, R376). -/
def Grant.floor : Grant :=
  { isOver := false, tband := 0, cap := 900, cost := 0, net := 4, mem := 4, vec := 4, mat := 4 }

/-- The arbiter after reset (R373 to R384). -/
def Arb.reset : Arb :=
  { grant := Grant.floor, cause := 0, cap := 900, table := none, tabAddr := 0, tabErr := false,
    ceil := #v[12, 10, 8, 8], band := 0, temp := 0, pend := none, move := none, queue := [] }

/-- A lifetime record of a new part (always-on: DESIGN CHOICE, log 5). -/
def Life.fresh : Life := { ue := 0, revoked := false, ceil := 0, hist := [] }

def Uv.reset : Uv := { step := 0, rev := false }

/-- The reliability engine after reset (R306). -/
def Rel.reset : Rel :=
  { base := 0, log2n := 0, en := false, tail := 0, head := 0, ovf := false, drops := 0, window := [], life := [],
    ontime := 0,
    uv := [], canary := [] }

def KeySlot.reset : KeySlot := { state := 0, data := [], tweak := [], gen := false, zero := 0 }

/-- The scrub engine of a part on which no scrub has run (R366). -/
def Scrub.reset : Scrub :=
  { list := [], prog := 0, total := 0, idx := 0, rsm := false, state := 0, start := 0, past := [] }

/-- The security block after reset (R355 to R359; fuses: DESIGN CHOICE 0, log 8). -/
def Sec.reset : Sec :=
  { port := 0, code := 0, boot := 0, minsvn := 0, rootdig := List.replicate 64 0#8,
    meas := Vector.replicate 4 (List.replicate 64 0#8), smeas := List.replicate 64 0#8, fwimg := 0, fwErr := 0,
    hstage := 0, fwState := 0, run2 := ⟨0, 0⟩, run3 := ⟨0, 0⟩, staged := ⟨0, 0⟩, nonce := List.replicate 64 0#8,
    attAddr := 0, attDone := false, kcSlot := 0, kcStat := 0, kcZero := 0, keyData := List.replicate 64 0#8, slots := [],
    zeroing := [], asgAddr := 0, asgCtx := 0, asgCount := 0, asgRes := 0, owned := [], scrub := Scrub.reset, ltsel := 0 }

def Link.reset : Link := { peer := 0, downs := 0, up := false }

/-- The links after reset (R395; the host link up: DESIGN CHOICE, log 9). -/
def Net.reset : Net := { id := 0x3FF, key := 0, links := [], route := [], host := true }

def Pair.reset : Pair := { sq := 0, cq := 0, size := 0, sqPa := 0, cqPa := 0 }

/-- The machine right after reset: nothing runs, every table holds only reset values. -/
def State.reset : State :=
  { mem := [], poison := [], sliceBad := [], syncBad := [], badWord := [], outBad := [], crews := [], gangs := [], grids := [], cores := [],
    ctxs := [],
    evAll := [], queues := [], pool := [], poolQ := [], arrive := [], waits := [], cmds := [], lltlb := [], frames := [],
    round := 0, arb := Arb.reset, rel := Rel.reset, sec := Sec.reset, net := Net.reset,
    store := { pairs := [], sel := [] }, agenda := [], cur := none, turn := 0, tick := 0, nextId := 0, resp := .none }

end Sys2Proof.Machine
end

