-- ==== Sys2Proof/Machine/Access.lean ====
section
/-!
DEFINITION. Machine/Access.lean: reading and replacing the parts of State by their keys, and the identities that the
spec derives from them (R12, R28, R244, R245).
-/

namespace Sys2Proof.Machine

open Sys2Proof

/-- The spec does not let a happening occur in the state as it is: the happening is passed over, and nothing changes
(log 10). -/
def State.passOver (s : State) : Host.Outcome State Fault Refusal := .next s

def State.core (s : State) (k : Nat) : Core := Tab.getD s.cores k Core.reset
def State.setCore (s : State) (k : Nat) (c : Core) : State := { s with cores := Tab.put s.cores k c }
def State.ctx (s : State) (c : Nat) : Ctx := Tab.getD s.ctxs c Ctx.reset
def State.setCtx (s : State) (c : Nat) (x : Ctx) : State := { s with ctxs := Tab.put s.ctxs c x }
def State.queue (s : State) (q : Nat) : Queue := Tab.getD s.queues q Queue.reset
def State.setQueue (s : State) (q : Nat) (x : Queue) : State := { s with queues := Tab.put s.queues q x }
def State.crew? (s : State) (c : Nat) : Option Crew := Tab.at? s.crews c
def State.setCrew (s : State) (c : Nat) (x : Crew) : State := { s with crews := Tab.put s.crews c x }
def State.gang? (s : State) (g : Nat) : Option Gang := Tab.at? s.gangs g
def State.setGang (s : State) (g : Nat) (x : Gang) : State := { s with gangs := Tab.put s.gangs g x }
def State.grid? (s : State) (l : Nat) : Option Grid := Tab.at? s.grids l
def State.setGrid (s : State) (l : Nat) (x : Grid) : State := { s with grids := Tab.put s.grids l x }

/-- Change one crew, if it exists. -/
def State.modCrew (s : State) (c : Nat) (f : Crew → Crew) : State :=
  match s.crew? c with
  | some x => s.setCrew c (f x)
  | none => s

/-- Change one gang, if it exists. -/
def State.modGang (s : State) (g : Nat) (f : Gang → Gang) : State :=
  match s.gang? g with
  | some x => s.setGang g (f x)
  | none => s

/-- Change one grid, if it exists. -/
def State.modGrid (s : State) (l : Nat) (f : Grid → Grid) : State :=
  match s.grid? l with
  | some x => s.setGrid l (f x)
  | none => s

def State.modCore (s : State) (k : Nat) (f : Core → Core) : State := s.setCore k (f (s.core k))
def State.modCtx (s : State) (c : Nat) (f : Ctx → Ctx) : State := s.setCtx c (f (s.ctx c))
def State.modQueue (s : State) (q : Nat) (f : Queue → Queue) : State := s.setQueue q (f (s.queue q))

/-- A fresh key. -/
def State.fresh (s : State) : Nat × State := (s.nextId, { s with nextId := s.nextId + 1 })

/-- The core of a crew: where it stands, or stood when its gang was saved. -/
def State.coreOf (s : State) (x : Crew) : Nat :=
  match x.home with
  | .slot k _ => k
  | .evicted k => k
  | .saved => match s.gang? x.gang with
    | some g => g.core
    | none => 0

/-- The crew stands in a slot. -/
def Crew.resident (x : Crew) : Bool :=
  match x.home with
  | .slot _ _ => true
  | _ => false

/-- CREWID of a slot of a core (R28). -/
def crewIdOf (core slot : Nat) : Nat := (core / 48) * 4096 + (core % 48) * 64 + slot

/-- CREWID of a crew; an absent crew keeps its core with slot 0. -/
def State.crewId (s : State) (x : Crew) : Nat :=
  match x.home with
  | .slot k sl => crewIdOf k sl
  | _ => crewIdOf (s.coreOf x) 0

/-- Die of a core (R1). -/
def dieOf (core : Nat) : Nat := core / 48

/-- District of a core within the device: eight cores each (R198). -/
def districtOf (core : Nat) : Nat := core / 8

/-- Put `x` into a list sorted by `le`, before every element that it does not exceed. -/
def insertBy {α : Type} (le : α → α → Bool) (x : α) : List α → List α
  | [] => [x]
  | y :: ys => if le x y then x :: y :: ys else y :: insertBy le x ys

/-- A list in the order `le`; elements that are equal in it keep their order. -/
def sortBy {α : Type} (le : α → α → Bool) (l : List α) : List α := l.foldr (insertBy le) []

/-- Keys of the resident crews of a core. -/
def State.residents (s : State) (core : Nat) : List Nat :=
  Tab.keysWhere s.crews fun _ x => match x.home with
    | .slot k _ => k == core
    | _ => false

/-- Keys of a gang's live crews, resident or not (R179). -/
def State.crewsOf (s : State) (g : Nat) : List Nat := Tab.keysWhere s.crews fun _ x => x.gang == g

/-- Keys of the gangs that a core holds (R13). -/
def State.gangsOn (s : State) (core : Nat) : List Nat :=
  Tab.keysWhere s.gangs fun _ g => g.core == core && g.home == .core

/-- The context of a crew. -/
def State.ctxOf (s : State) (x : Crew) : Nat :=
  match s.gang? x.gang with
  | some g => g.ctx
  | none => 0

/-- Base of the on-chip windows (R245). -/
def winBase : Nat := 0x000FF00000000000

/-- The window of core k (R245). -/
def winOf (core : Nat) : Nat := winBase + 0x800000 * core

/-- Window addresses of the scratchpad, a tile, the value store and the B-stack (R245). -/
def spadPa (core off : Nat) : Nat := winOf core + off
def tilePa (core t : Nat) : Nat := 0x100000 + 0x8000 * t + winOf core
def entryPa (core e : Nat) : Nat := 0x200000 + 128 * e + winOf core
def bstackPa (core off : Nat) : Nat := 0x400000 + off + winOf core

/-- Byte k of a launch record as part of a little-endian field: bits hi:lo of the 8-byte word at `byte`. -/
def recField (r : List Byte) (byte hi lo : Nat) : Nat :=
  (ofBytesLE ((r.drop byte).take 8) / 2 ^ lo) % 2 ^ (hi + 1 - lo)

/-- RATIOGRANT (R373). -/
def Grant.word (g : Grant) : DWord :=
  put (b2n g.isOver) 52 1 ||| put g.tband.toNat 48 3 ||| put g.cap.toNat 32 16 ||| put g.cost.toNat 16 16
    ||| put g.net.toNat 12 4 ||| put g.mem.toNat 8 4 ||| put g.vec.toNat 4 4 ||| put g.mat.toNat 0 4

/-- A ZEROISED slot that no context holds becomes EMPTY (R360). -/
def State.tidySlot (s : State) (slot : Nat) : State :=
  let k := Tab.getD s.sec.slots slot KeySlot.reset
  if k.state = 2 && !(s.ctxs.any fun p => p.2.keyslot.toNat == slot) then
    { s with sec := { s.sec with slots := Tab.put s.sec.slots slot { k with state := 0, gen := false } } }
  else s

/-- KEYSLOT of a context is written (R27, R359, R390). -/
def State.setKeyslot (s : State) (ctx : Nat) (v : BitVec 7) : State :=
  let old := (s.ctx ctx).keyslot
  if old = v then s
  else (s.modCtx ctx fun x => { x with keyslot := v, zeroised := false }).tidySlot old.toNat

end Sys2Proof.Machine
end

