-- ==== Sys2Proof/Machine/Err.lean ====
section
/-!
DEFINITION. Machine/Err.lean: events (R108) and the error ring of the reliability engine (R305 to R309, R402).
-/

namespace Sys2Proof.Machine

open Sys2Proof

/-- One occurrence of event `i` in a context (R108). -/
def State.raise (s : State) (ctx i : Nat) : State :=
  s.modCtx ctx fun x => { x with events := Tab.put x.events i ((Tab.getD x.events i 0 + 1) % 2 ^ 64) }

/-- The count of an event in a context (R108): its own occurrences and those raised in every context. -/
def State.eventCount (s : State) (ctx i : Nat) : Nat :=
  (Tab.getD (s.ctx ctx).events i 0 + Tab.getD s.evAll i 0) % 2 ^ 64

/-- One occurrence of event `i` in every context (R108). -/
def State.raiseAll (s : State) (i : Nat) : State :=
  { s with evAll := Tab.put s.evAll i ((Tab.getD s.evAll i 0 + 1) % 2 ^ 64) }

/-- The unit instance of R305: die and index within the die. -/
def instOf (die index : Nat) : Nat := die * 4096 + index

/-- The INST of a core's unit. -/
def coreInst (core : Nat) : Nat := instOf (core / 48) (core % 48)

/-- The key of a unit instance: KIND and INST. -/
def unitKey (kind inst : Nat) : Nat := kind * 65536 + inst

/-- The clock domain of a unit's voltage domain, by KIND (R2, R320): 0 matrix, 1 vector, 2 memory, 3 network. DESIGN CHOICE
for what R2 does not name: the host link, the storage ports and the links are in network, crew state in vector (log 15). -/
def kindDomain (kind : Nat) : Option Nat :=
  match kind with
  | 0x01 | 0x02 | 0x06 | 0x0A => some 1
  | 0x03 | 0x04 | 0x05 => some 0
  | 0x07 | 0x08 | 0x09 => some 2
  | 0x0B | 0x0C | 0x0D => some 3
  | _ => none

/-- UVSTEPc of a voltage domain (R390): STEP reads 0 while REV is 1. -/
def State.uvStep (s : State) (die dom : Nat) : Nat :=
  let u := Tab.getD s.rel.uv (4 * die + dom) Uv.reset
  if u.rev then 0 else u.step.toNat

/-- The undervolt step of the unit's voltage domain; 0 where the record names no unit (R308). -/
def State.unitStep (s : State) (kind inst : Nat) : Nat :=
  match kindDomain kind with
  | some d => s.uvStep (inst / 4096 % 8) d
  | none => 0

/-- Bytes of a stack that are populated (R243). -/
def stackBytes : Nat := 80000000000

/-- The range lies wholly in populated HBM of one stack (R243). -/
def hbmOk (pa n : Nat) : Bool :=
  decide (pa / 0x2000000000 < 12) && decide (pa % 0x2000000000 + n ≤ stackBytes)

/-- A line of HBM that overlaps the range is poisoned, in HBM or in its sync engine (R178, R312). -/
def State.badLines (s : State) (pa n : Nat) : Bool :=
  (s.poison ++ s.syncBad).any fun l => decide (128 * l < pa + n) && decide (pa < 128 * l + 128)

/-- The frame that holds a physical address is FREE (R361). -/
def State.frameFree (s : State) (pa : Nat) : Bool := !(s.sec.owned.any fun o => o.res == .frame (pa / 65536))

/-- The HBM stack's INST (R244, R305). -/
def stackInst (pa : Nat) : Nat := let st := pa / 0x2000000000; instOf (st / 3) (st % 3)

/-- What a caller says of an error record (R308). -/
structure Rec where
  ctx    : Option Nat
  cls    : Nat
  can    : Bool
  kind   : Nat
  inst   : Nat
  crew   : Nat
  pc     : Nat
  eseq   : Nat
  addr   : Nat
  mask   : Nat
  cause  : Nat
  detail : Nat
  deriving DecidableEq, Repr

/-- A record of a class and unit, every other field 0. -/
def Rec.of (ctx : Option Nat) (cls kind inst : Nat) : Rec :=
  { ctx := ctx, cls := cls, can := false, kind := kind, inst := inst, crew := 0, pc := 0, eseq := 0, addr := 0, mask := 0,
    cause := 0, detail := 0 }

/-- The 64 bytes of a record (R308). A record that names a protected context carries 0 in PC, ESEQ, ADDR and MASK
(R362). -/
def State.recBytes (s : State) (r : Rec) : List Byte :=
  let prot := match r.ctx with
    | some c => (s.ctx c).prot
    | none => false
  let hide (v : Nat) : Nat := if prot then 0 else v
  let ctx := match r.ctx with
    | some c => c
    | none => 0xFFFF
  bytesLE 8 (ctx * 2 ^ 48 + r.cls * 2 ^ 40 + b2n r.can * 2 ^ 32 + s.rel.tail.toNat % 2 ^ 32)
    ++ bytesLE 8 (r.kind * 2 ^ 56 + r.inst * 2 ^ 40 + r.crew)
    ++ bytesLE 8 (hide r.pc)
    ++ bytesLE 8 (hide r.eseq)
    ++ bytesLE 8 (hide r.addr)
    ++ bytesLE 8 (r.cause * 2 ^ 32 + hide r.mask)
    ++ bytesLE 8 (Config.freeStamp s.tick).toNat
    ++ bytesLE 8 (Tab.getD s.rel.window (unitKey r.kind r.inst) 0 % 2 ^ 32 * 2 ^ 32 + r.detail * 2 ^ 16
        + s.arb.band * 2 ^ 8 + s.unitStep r.kind r.inst)

/-- The ring can take a record (R307). -/
def Rel.open_ (r : Rel) : Bool :=
  r.en && decide (4 ≤ r.log2n.toNat) && decide (r.log2n.toNat ≤ 16) && hbmOk r.base (64 * 2 ^ r.log2n.toNat)
    && decide ((r.tail - r.head).toNat < 2 ^ r.log2n.toNat)

/-- Write an error record, or drop it; raise event 1 in the context named (R307). -/
def State.record (s : State) (r : Rec) : State :=
  let e := s.rel
  let s1 :=
    if e.open_ then
      { s with mem := s.mem.write (e.base + 64 * (e.tail.toNat % 2 ^ e.log2n.toNat)) (s.recBytes r),
               rel := { e with tail := e.tail + 1 } }
    else { s with rel := { e with ovf := true, drops := min (e.drops + 1) (2 ^ 32 - 1) } }
  let s2 := { s1 with tick := s1.tick + 1 }
  match r.ctx with
  | some c => s2.raise c 1
  | none => s2

/-- Write error records in order. -/
def State.records (s : State) (rs : List Rec) : State := rs.foldl State.record s

end Sys2Proof.Machine
end

