-- ==== Sys2Proof/Machine/Record.lean ====
section
/-!
DEFINITION. Machine/Record.lean: the fields of a launch record (R270).
-/

namespace Sys2Proof.Machine

open Sys2Proof

/-! ## Fields of a launch record (R270) -/

def recTag (r : List Byte) : Nat := recField r 0 63 16
def recEntry (r : List Byte) : Nat := recField r 8 51 0
def recGroup (r : List Byte) : Nat := recField r 16 56 53
def recCrews (r : List Byte) : Nat := recField r 16 52 48 + 1
/-- Gangs of the grid. -/
def recGangs (r : List Byte) : Nat := (recField r 16 15 0 + 1) * (recField r 16 31 16 + 1) * (recField r 16 47 32 + 1)
/-- L(g): 0 stands for 4,096 (R94). -/
def recLimit (r : List Byte) : Nat := let v := recField r 24 12 0; if v = 0 then 4096 else v
/-- Scratchpad of a gang in granules of 256 bytes. -/
def recSpad (r : List Byte) : Nat := recField r 24 23 13
def recTiles (r : List Byte) : Nat := recField r 24 27 24
def recPrio (r : List Byte) : Nat := recField r 24 31 28
def recCor (r : List Byte) : Bool := recField r 24 32 32 == 1
def recIdem (r : List Byte) : Bool := recField r 24 33 33 == 1
def recPersist (r : List Byte) : Bool := recField r 24 34 34 == 1
def recPriv (r : List Byte) : Nat := recField r 24 36 35
def recReq (r : List Byte) (d : Nat) : Nat := recField r 32 (4 * d + 3) (4 * d)
def recWgt (r : List Byte) (d : Nat) : Nat := recField r 32 (4 * d + 19) (4 * d + 16)
def recSdata (r : List Byte) : Nat := recField r 40 51 0
def recSdlen (r : List Byte) : Nat := recField r 48 31 0
def recBslen (r : List Byte) : Nat := recField r 48 63 32
def recBstack (r : List Byte) : Nat := recField r 56 51 0
def recStats (r : List Byte) : Nat := recField r 64 51 0
def recBinTab (r : List Byte) : Nat := recField r 72 51 0
def recBinMask (r : List Byte) : Nat := recField r 80 31 0
def recCompl (r : List Byte) : Nat := recField r 88 51 0
/-- FLOOR of crew i. -/
def recFloor (r : List Byte) (i : Nat) : Nat := recField r (128 + 2 * i) 12 0
/-- Sum of the floors of a gang. -/
def recFloors (r : List Byte) : Nat := ((List.range (recCrews r)).map (recFloor r)).sum
/-- Address and value of dependence j (R272). -/
def recDep (r : List Byte) (j : Nat) : Nat × Nat := (recField r (192 + 16 * j) 51 0, recField r (200 + 16 * j) 63 0)

end Sys2Proof.Machine
end

