-- ==== Sys2Proof/Machine/Arbiter.lean ====
section
/-!
DEFINITION. Machine/Arbiter.lean: the ratio arbiter (R373 to R385, R398) and its happenings.
-/

namespace Sys2Proof.Machine

open Sys2Proof

/-! ## The power table (R375, R376) -/

/-- A 16-bit value of a table. -/
def tab16 (t : List Byte) (i : Nat) : Nat := ofBytesLE ((t.drop i).take 2)

/-- STATIC, LIMIT, DISC and E of band b. -/
def tabStatic (t : List Byte) (b : Nat) : Nat := tab16 t (256 * b)
def tabLimit (t : List Byte) (b : Nat) : Nat := tab16 t (256 * b + 2)
def tabDisc (t : List Byte) (b d : Nat) : Nat := (t.getD (256 * b + 4 + d) 0#8).toNat
def tabE (t : List Byte) (b d r : Nat) : Nat := tab16 t (256 * b + 64 + 32 * d + 2 * r)

/-- Highest ratio of each clock domain (R2). -/
def ratioTop (d : Nat) : Nat :=
  match d with
  | 0 => 12
  | 1 => 10
  | _ => 8

/-- Byte i of a band must be zero. -/
def mustBeZero (i : Nat) : Bool :=
  if i < 8 then false
  else if i < 64 ∨ 192 ≤ i then true
  else
    let d := (i - 64) / 32
    let r := (i - 64) % 32 / 2
    decide (r < 4) || decide (ratioTop d < r)

/-- The arbiter accepts the table (R376). -/
def tableOk (t : List Byte) : Bool :=
  t.length == 2048
    && (List.range 8).all (fun b => ((List.range 256).all fun i => !mustBeZero i || t.getD (256 * b + i) 0#8 == 0#8)
      && (List.range 4).all fun d => decide (tabDisc t b d ≤ 36))
    && (List.range 6).all fun b => decide (tabLimit t b < tabLimit t (b + 1))

/-! ## The cost of a vector (R378) -/

/-- s_d: the lowest undervolt step among the voltage domains of a clock domain (R320, R378). -/
def State.stepOf (s : State) (d : Nat) : Nat :=
  let dies := if d < 2 then [0, 1, 2, 3] else [0, 1, 2, 3, 4]
  (dies.map fun k => s.uvStep k d).foldl min 7

/-- cost(G) in a band; `none` where the band forbids an entry. -/
def State.cost (s : State) (t : List Byte) (b : Nat) (v : Nat → Nat) : Option Nat :=
  let es := (List.range 4).map fun d => tabE t b d (v d)
  if es.contains 0xFFFF then none
  else some (tabStatic t b
    + ((List.range 4).map fun d => tabE t b d (v d) * (256 - tabDisc t b d * s.stepOf d) / 256).sum)

/-! ## Choosing the grant (R379) -/

/-- The running launches: admitted, not complete, their context not saved. -/
def State.running (s : State) : List Grid :=
  (s.grids.filter fun p => (p.2.state == .admitted || p.2.state == .running) && (s.ctx p.2.ctx).pre != 3).map Prod.snd

/-- Distance of two numbers. -/
def apartBy (a b : Nat) : Nat := (a - b) + (b - a)

/-- Weights summed per domain and requested ratio, so that the distance is a table look-up. -/
def wants (ls : List Grid) (d : Nat) : List (Nat × Nat) :=
  (ls.map fun l => (recReq l.record d, recWgt l.record d)).filter fun p => p.1 != 0

/-- D of a ratio in one domain. -/
def distOf (ws : List (Nat × Nat)) (g : Nat) : Nat := (ws.map fun p => p.2 * apartBy g p.1).sum

/-- A ratio vector: matrix, vector, memory, network. -/
structure Vec where
  m  : Nat
  v  : Nat
  me : Nat
  n  : Nat
  deriving DecidableEq, Repr

def Vec.at (g : Vec) (d : Nat) : Nat :=
  match d with
  | 0 => g.m
  | 1 => g.v
  | 2 => g.me
  | _ => g.n

def Vec.floor : Vec := ⟨4, 4, 4, 4⟩

/-- G above B: matrix first, then vector, memory, network. -/
def Vec.above (g b : Vec) : Bool :=
  if g.m ≠ b.m then decide (b.m < g.m)
  else if g.v ≠ b.v then decide (b.v < g.v)
  else if g.me ≠ b.me then decide (b.me < g.me)
  else decide (b.n < g.n)

/-- Every vector within the ceilings, in rising order. -/
def vectors (ceil : Nat → Nat) : List Vec :=
  let r (d : Nat) : List Nat := (List.range (ceil d + 1)).filter fun x => decide (4 ≤ x)
  ((r 0).map fun m => ((r 1).map fun v => ((r 2).map fun me => (r 3).map fun n => (⟨m, v, me, n⟩ : Vec)).flatten).flatten).flatten

/-- One candidate against the best so far. -/
def better (cost : Vec → Option Nat) (dist : Vec → Nat) (cap : Nat) (best : Option (Vec × Nat)) (g : Vec) :
    Option (Vec × Nat) :=
  match cost g with
  | none => best
  | some c =>
    if cap < c then best
    else match best with
      | none => some (g, dist g)
      | some (b, db) => if dist g < db ∨ (dist g = db ∧ g.above b) then some (g, dist g) else best

/-- choose() of R379: the vector, and OVER. -/
def State.choose (s : State) (t : List Byte) : Vec × Bool :=
  let ls := s.running
  let ws := [wants ls 0, wants ls 1, wants ls 2, wants ls 3]
  let dist (g : Vec) : Nat := ((List.range 4).map fun d => distOf (ws.getD d []) (g.at d)).sum
  match (vectors fun d => s.arb.ceil.toList.getD d 4).foldl
      (better (fun g => s.cost t s.arb.band g.at) dist s.arb.cap.toNat) none with
  | some (g, _) => (g, false)
  | none => (Vec.floor, true)

/-- COST of a granted vector (R373). -/
def State.costField (s : State) (t : List Byte) (g : Vec) : Nat :=
  match s.cost t s.arb.band g.at with
  | some c => min c 0xFFFF
  | none => 0xFFFF

/-- A grant as RATIOGRANT will hold it. -/
def State.grantOf (s : State) (t : List Byte) (g : Vec) (isOver : Bool) : Grant :=
  { isOver := isOver, tband := BitVec.ofNat 3 s.arb.band, cap := s.arb.cap.setWidth 16, cost := BitVec.ofNat 16 (s.costField t g),
    net := BitVec.ofNat 4 g.n, mem := BitVec.ofNat 4 g.me, vec := BitVec.ofNat 4 g.v, mat := BitVec.ofNat 4 g.m }

/-- The ratio vector and OVER are those in force: no grant change (R380). -/
def Grant.same (a b : Grant) : Bool :=
  a.isOver == b.isOver && a.net == b.net && a.mem == b.mem && a.vec == b.vec && a.mat == b.mat

/-- At 105 °C or more the floor vector is granted whatever the table says (R398). -/
def Arb.hot (a : Arb) : Bool := decide (105 ≤ a.temp.toNat)

/-- The grant that an evaluation finds. -/
def State.found (s : State) (t : List Byte) : Grant :=
  let r := s.choose t
  s.grantOf t (if s.arb.hot then Vec.floor else r.1) r.2

/-- ARBITER_EVALUATION (R379, R380, R382): gathered while a move is under way; before the first table nothing is
granted. A pending grant is replaced. A grant at the thermal limit has cause 4 (R398). -/
def State.evaluate (s : State) (cause : Nat) (now : Bool) : State :=
  match s.arb.table with
  | none => s
  | some t =>
    if s.arb.move.isSome then { s with arb := { s.arb with queue := s.arb.queue ++ [(cause, now)] } }
    else
      let g := s.found t
      if g.same s.arb.grant then { s with arb := { s.arb with pend := none } }
      else
        let due : GrantDue := { grant := g, cause := BitVec.ofNat 4 (if s.arb.hot then 4 else cause) }
        if now then { s with arb := { s.arb with pend := none, move := some due } }
        else { s with arb := { s.arb with pend := some due } }

/-! ## A grant takes effect (R381) -/

/-- Every domain runs at its new ratio: RATIOGRANT, RATIOEV, event 0, and CHANGES of the grids whose GRANT0 is fixed. -/
def State.applyGrant (s : State) (d : GrantDue) : State :=
  let s1 := { s with
    arb := { s.arb with grant := d.grant, cause := d.cause },
    grids := Tab.mapV s.grids fun _ (l : Grid) =>
      if l.grant0.isSome && l.state != GridState.ended then { l with changes := l.changes + 1 } else l }
  s1.raiseAll 0

/-- The lowest code of a list. -/
def lowestCode (l : List Nat) : Nat := l.foldl min 15

/-- The causes gathered during a move become one evaluation (R382). -/
def State.gathered (s : State) : State :=
  match s.arb.queue with
  | [] => s
  | q =>
    let sure := (q.filter fun p => p.2).map Prod.fst
    let s1 := { s with arb := { s.arb with queue := [] } }
    s1.evaluate (if sure.isEmpty then lowestCode (q.map Prod.fst) else lowestCode sure) (!sure.isEmpty)

/-- The grant that waits for a placement takes effect at it, before the gang's first crew issues (R380). -/
def State.grantAtPlacement (s : State) : State :=
  match s.arb.pend with
  | none => s
  | some d => { s with arb := { s.arb with pend := none } }.applyGrant d

/-- GRANT_MOVE_COMPLETE (R381). -/
def execGrantMoveComplete (s : State) : Host.Outcome State Fault Refusal :=
  match s.arb.move with
  | none => s.passOver
  | some d => .next ({ s with arb := { s.arb with move := none } }.applyGrant d).gathered

/-- GRANT_DEFER_TIMEOUT (R380): no placement came; the pending grant takes effect. -/
def execGrantDeferTimeout (s : State) : Host.Outcome State Fault Refusal :=
  match s.arb.pend with
  | none => s.passOver
  | some d => .next { s with arb := { s.arb with pend := none, move := some d } }

/-- PWRCAP (R383): a write outside 900 to 2,600 is ignored; a change raises event 2 and evaluates. -/
def execPwrcap (v : DWord) (s : State) : Host.Outcome State Fault Refusal :=
  let c := fld v 11 0
  if c < 900 ∨ 2600 < c ∨ c = s.arb.cap.toNat then .next s
  else
    let old := s.arb.cap.toNat
    let s1 := ({ s with arb := { s.arb with cap := BitVec.ofNat 12 c } }).raiseAll 2
    .next (s1.evaluate 3 (decide (c < old)))

/-- The lowest band below `n` whose limit admits the temperature, less `k` degrees. -/
def bandFor (t : List Byte) (temp k n : Nat) : Option Nat :=
  (List.range n).find? fun b => decide (temp + k ≤ tabLimit t b)

/-- The lowest band that admits a temperature, or 7. -/
def riseBand (t : List Byte) (temp : Nat) : Nat := (bandFor t temp 0 7).getD 7

/-- The band after a reading (R377). -/
def nextBand (t : List Byte) (band temp : Nat) : Nat :=
  let up := riseBand t temp
  if band < up then up else (bandFor t temp 3 band).getD band

/-- TEMPERATURE_SAMPLE (R377, R384, R398): a change of band, or of the thermal limit, evaluates. -/
def execTemperatureSample (t : Nat) (s : State) : Host.Outcome State Fault Refusal :=
  let wasHot := s.arb.hot
  let temp := min t 255
  let s1 := { s with arb := { s.arb with temp := BitVec.ofNat 8 temp } }
  match s.arb.table with
  | none => .next s1
  | some tab =>
    let b := nextBand tab s.arb.band temp
    let s2 := { s1 with arb := { s1.arb with band := b } }
    if b = s.arb.band ∧ wasHot = s2.arb.hot then .next s2
    else .next (s2.evaluate 4 (decide (s.arb.band < b) || (s2.arb.hot && !wasHot)))

/-- ARBTAB_LOAD (R376, R377): the table at ADDR is copied or refused. Where it is accepted, the arbiter reads the sensors at
once. The headframe firmware writes the register, once it runs (R353). DESIGN CHOICE: a table outside this device's HBM, in a frame that
is not FREE, or on a poisoned line is refused (log 27). -/
def execArbtabLoad (v : DWord × Nat) (s : State) : Host.Outcome State Fault Refusal :=
  let addr := fld v.1 51 11 * 2048
  let s1 := { s with arb := { s.arb with tabAddr := addr } }
  if s.sec.boot ≠ 3 then s.passOver
  else if !v.1[0] then .next s1
  else
    let tab := s.mem.read addr 2048
    let temp := min v.2 255
    if hbmOk addr 2048 && s.frameFree addr && !s.badLines addr 2048 && tableOk tab then
      let s2 := { s1 with arb := { s1.arb with
        table := some tab, tabErr := false, temp := BitVec.ofNat 8 temp, band := riseBand tab temp } }
      .next (s2.evaluate 7 true)
    else .next { s1 with arb := { s1.arb with tabErr := true } }

/-! ## Undervolt steps (R320, R390) -/

def State.uv (s : State) (die dom : Nat) : Uv := Tab.getD s.rel.uv (4 * die + dom) Uv.reset

def State.setUv (s : State) (die dom : Nat) (u : Uv) : State :=
  { s with rel := { s.rel with uv := Tab.put s.rel.uv (4 * die + dom) u } }

/-- The voltage domain exists: one per clock domain on a compute die, memory and network on the I/O die (R320). -/
def uvExists (die dom : Nat) : Bool :=
  (decide (die < 4) && decide (dom < 4)) || (die == 4 && (dom == 2 || dom == 3))

/-- A change of the steps evaluates where it changes an s_d (R380). -/
def State.afterStep (s old : State) : State :=
  if (List.range 4).all fun d => s.stepOf d == old.stepOf d then s else s.evaluate 5 true

/-- UVSTEP_STEP (R390): system software writes STEP; ignored while the step is revoked. -/
def execUvstepStep (die dom : Nat) (v : BitVec 3) (s : State) : Host.Outcome State Fault Refusal :=
  let u := s.uv die dom
  if !(uvExists die dom) then s.passOver
  else if u.rev then .next s
  else .next ((s.setUv die dom { u with step := v }).afterStep s)

/-- UVSTEP_REV (R390): writing 1 to REV re-enables the step. -/
def execUvstepRev (die dom : Nat) (s : State) : Host.Outcome State Fault Refusal :=
  let u := s.uv die dom
  if !(uvExists die dom) then s.passOver
  else .next ((s.setUv die dom { u with rev := false }).afterStep s)

end Sys2Proof.Machine
end

