-- ==== Sys2Proof/Machine/Num.lean ====
section
/-!
DEFINITION. Machine/Num.lean: the number formats, exact values, rounding and block scales of spec/03 (R34, R60 to
R71). Arithmetic is done on exact rationals and rounded once.
-/

namespace Sys2Proof.Num

open Sys2Proof

/-- The value of a float: NaN, an infinity, a zero with its sign, or the exact nonzero rational n / d. -/
inductive FVal where
  | nan
  | inf (neg : Bool)
  | zero (neg : Bool)
  | num (n : Int) (d : Nat)
  deriving DecidableEq, Repr

/-- Rounding modes (R50, R64). -/
inductive RMode where
  | rn | rz | rm | rp | rna
  deriving DecidableEq, Repr

/-- The rounding mode of a MOD code (R50). -/
def RMode.ofMod (m : BitVec 3) : RMode :=
  match m.toNat with
  | 0 => .rn | 1 => .rz | 2 => .rm | 3 => .rp | _ => .rna

/-- An IEEE-style format by its exponent bits, fraction bits and bias (R61). -/
structure Fmt where
  eb : Nat
  mb : Nat
  bias : Nat
  deriving DecidableEq, Repr

def f32 : Fmt := ⟨8, 23, 127⟩
def bf16 : Fmt := ⟨8, 7, 127⟩
def f16 : Fmt := ⟨5, 10, 15⟩

/-- The code of +infinity, without its sign. -/
def Fmt.infCode (F : Fmt) : Nat := (2 ^ F.eb - 1) * 2 ^ F.mb

/-- The canonical NaN (R61). -/
def Fmt.nanCode (F : Fmt) : Nat := F.infCode + 2 ^ (F.mb - 1)

/-- The sign bit. -/
def Fmt.signBit (F : Fmt) : Nat := 2 ^ (F.eb + F.mb)

/-- A code with the given sign and magnitude code. -/
def Fmt.withSign (F : Fmt) (neg : Bool) (c : Nat) : Nat := if neg then c + F.signBit else c

/-- m * 2^e as a value; zero keeps the sign given. -/
def scaled (neg : Bool) (m : Nat) (e : Int) : FVal :=
  if m = 0 then .zero neg
  else
    let n : Int := if neg then -(m : Int) else (m : Int)
    if 0 ≤ e then .num (n * ((2 ^ e.toNat : Nat) : Int)) 1 else .num n (2 ^ (-e).toNat)

/-- The exact value n / d, with +0 for zero. -/
def ofRat (n : Int) (d : Nat) : FVal := if n = 0 then .zero false else .num n d

/-- The value of an integer. -/
def ofInt (n : Int) : FVal := ofRat n 1

/-- The value of a code of an IEEE-style format (R61). -/
def Fmt.value (F : Fmt) (bits : Nat) : FVal :=
  let c := bits % F.signBit
  let neg := bits / F.signBit % 2 = 1
  let e := c / 2 ^ F.mb
  let m := c % 2 ^ F.mb
  if e = 2 ^ F.eb - 1 then (if m = 0 then .inf neg else .nan)
  else if e = 0 then scaled neg m (1 - (F.bias : Int) - F.mb)
  else scaled neg (2 ^ F.mb + m) ((e : Int) - F.bias - F.mb)

/-- Rounding of the nonnegative rational num / den to an integer, for a number of the given sign (R64). -/
def roundMag (mode : RMode) (neg : Bool) (num den : Nat) : Nat :=
  let q := num / den
  let r := num % den
  let up : Bool := match mode with
    | .rn => decide (den < 2 * r) || (decide (2 * r = den) && decide (q % 2 = 1))
    | .rna => decide (den ≤ 2 * r)
    | .rz => false
    | .rm => neg && decide (r ≠ 0)
    | .rp => !neg && decide (r ≠ 0)
  if up then q + 1 else q

/-- floor (log2 (num / den)) for positive num and den. -/
def log2Rat (num den : Nat) : Int :=
  let l : Int := (Nat.log2 num : Int) - (Nat.log2 den : Int)
  if 0 ≤ l then (if den * 2 ^ l.toNat ≤ num then l else l - 1)
  else (if den ≤ num * 2 ^ (-l).toNat then l else l - 1)

/-- num / den divided by 2^k, as a rational. -/
def unscale (num den : Nat) (k : Int) : Nat × Nat :=
  if 0 ≤ k then (num, den * 2 ^ k.toNat) else (num * 2 ^ (-k).toNat, den)

/-- The exact value rounded into an IEEE-style format (R34, R64), and whether it overflowed. -/
def Fmt.roundO (F : Fmt) (mode : RMode) (v : FVal) : Nat × Bool :=
  match v with
  | .nan => (F.nanCode, false)
  | .inf neg => (F.withSign neg F.infCode, false)
  | .zero neg => (F.withSign neg 0, false)
  | .num n d =>
    let neg := decide (n < 0)
    let a := n.natAbs
    let low : Int := 1 - (F.bias : Int) - F.mb
    let k := max low (log2Rat a d - F.mb)
    let r := unscale a d k
    let m := roundMag mode neg r.1 r.2
    let code := (k - low).toNat * 2 ^ F.mb + m
    if F.infCode ≤ code then
      let toInf := match mode with
        | .rn | .rna => true
        | .rz => false
        | .rm => neg
        | .rp => !neg
      (F.withSign neg (if toInf then F.infCode else F.infCode - 1), true)
    else (F.withSign neg code, false)

/-- The exact value rounded into an IEEE-style format. -/
def Fmt.round (F : Fmt) (mode : RMode) (v : FVal) : Nat := (F.roundO mode v).1

/-! ### Arithmetic on exact values (R62, IEEE 754-2019) -/

def FVal.isNaN : FVal → Bool
  | .nan => true
  | _ => false

def FVal.isInf : FVal → Bool
  | .inf _ => true
  | _ => false

def FVal.isZero : FVal → Bool
  | .zero _ => true
  | _ => false

def FVal.neg : FVal → FVal
  | .nan => .nan
  | .inf s => .inf (!s)
  | .zero s => .zero (!s)
  | .num n d => .num (-n) d

/-- The sign of a value that is no NaN. -/
def FVal.isNeg : FVal → Bool
  | .nan => false
  | .inf s => s
  | .zero s => s
  | .num n _ => decide (n < 0)

/-- An exact sum; a sum of opposite numbers is +0, or -0 when rounding toward -infinity. -/
def FVal.add (mode : RMode) (a b : FVal) : FVal :=
  match a, b with
  | .nan, _ => .nan
  | _, .nan => .nan
  | .inf s, .inf t => if s = t then .inf s else .nan
  | .inf s, _ => .inf s
  | _, .inf t => .inf t
  | .zero s, .zero t => if s = t then .zero s else .zero (mode == .rm)
  | .zero _, y => y
  | x, .zero _ => x
  | .num n d, .num n' d' =>
    let m := n * (d' : Int) + n' * (d : Int)
    if m = 0 then .zero (mode == .rm) else .num m (d * d')

/-- An exact product. -/
def FVal.mul (a b : FVal) : FVal :=
  match a, b with
  | .nan, _ => .nan
  | _, .nan => .nan
  | .inf s, .inf t => .inf (s != t)
  | .inf _, .zero _ => .nan
  | .zero _, .inf _ => .nan
  | .inf s, .num n _ => .inf (s != decide (n < 0))
  | .num n _, .inf t => .inf (decide (n < 0) != t)
  | .zero s, .zero t => .zero (s != t)
  | .zero s, .num n _ => .zero (s != decide (n < 0))
  | .num n _, .zero t => .zero (decide (n < 0) != t)
  | .num n d, .num n' d' => .num (n * n') (d * d')

/-- Exact comparison of values that are no NaN; zeros are equal. -/
def FVal.lt (a b : FVal) : Bool :=
  match a, b with
  | .nan, _ => false
  | _, .nan => false
  | .inf s, .inf t => s && !t
  | .inf s, _ => s
  | _, .inf t => !t
  | .zero _, .zero _ => false
  | .zero _, .num n _ => decide (0 < n)
  | .num n _, .zero _ => decide (n < 0)
  | .num n d, .num n' d' => decide (n * (d' : Int) < n' * (d : Int))

def FVal.eqv (a b : FVal) : Bool := !a.isNaN && !b.isNaN && !a.lt b && !b.lt a

/-- The integer square root, bit by bit from bit `k - 1` down. -/
def isqrtGo (n : Nat) : Nat → Nat → Nat
  | 0, r => r
  | k + 1, r =>
    let r' := r + 2 ^ k
    isqrtGo n k (if r' * r' ≤ n then r' else r)

def isqrt (n : Nat) : Nat := isqrtGo n (Nat.log2 n / 2 + 1) 0

/-- The square root of num / den, kept to 2^-160 with a last bit that is 1 when the root is inexact, so that every
later rounding to 24 bits is the rounding of the exact root. -/
def sqrtRat (num den : Nat) : FVal :=
  let s := num * 2 ^ 320 / den
  let q := isqrt s
  let exact := q * q * den = num * 2 ^ 320
  .num ((2 * q + (if exact then 0 else 1) : Nat) : Int) (2 ^ 161)

/-- The square root (R121). -/
def FVal.sqrt : FVal → FVal
  | .nan => .nan
  | .inf s => if s then .nan else .inf false
  | .zero s => .zero s
  | .num n d => if n < 0 then .nan else sqrtRat n.toNat d

/-- The reciprocal (R123). -/
def FVal.recip : FVal → FVal
  | .nan => .nan
  | .inf s => .zero s
  | .zero s => .inf s
  | .num n d => if n < 0 then .num (-(d : Int)) n.natAbs else .num (d : Int) n.natAbs

/-- 1 / sqrt (R123). -/
def FVal.rsqrt : FVal → FVal
  | .nan => .nan
  | .inf s => if s then .nan else .zero false
  | .zero s => .inf s
  | .num n d => if n < 0 then .nan else sqrtRat d n.toNat

/-! ### Correctly rounded transcendental functions (R123)

Each function is enclosed between two rationals; the enclosure is narrowed until both ends round to one FP32 value. -/

/-- Fixed-point exp of u / 2^p for u at most 2^p: the Taylor sum of `k` further terms from term `t` number `i`. -/
def expTerms (p u : Nat) : Nat → Nat → Nat → Nat → Nat
  | 0, _, _, acc => acc
  | k + 1, i, t, acc =>
    let t' := t * u / 2 ^ p / i
    expTerms p u k (i + 1) t' (acc + t')

/-- exp of u / 2^p in units of 2^-p, at most `p + 8` units below the exact value. -/
def expFix (p u : Nat) : Nat := expTerms p u p 1 (2 ^ p) (2 ^ p)

/-- The sum of z^(2i+1) / (2i+1) in units of 2^-p. `w` is z squared, `t` the current odd power. -/
def atanhTerms (p w : Nat) : Nat → Nat → Nat → Nat → Nat
  | 0, _, _, acc => acc
  | k + 1, i, t, acc => atanhTerms p w k (i + 2) (t * w / 2 ^ p) (acc + t / i)

/-- atanh of z / 2^p, for z at most 2^p / 3, in units of 2^-p, at most `2 * p` units below the exact value. -/
def atanhFix (p z : Nat) : Nat := atanhTerms p (z * z / 2 ^ p) p 1 z 0

/-- ln 2 in units of 2^-p, from below. -/
def ln2Fix (p : Nat) : Nat := 2 * atanhFix p (2 ^ p / 3)

/-- Width in units that covers every error of the fixed-point sums above. -/
def slack (p : Nat) : Nat := 64 * p

/-- An enclosure of 2^x for x = n / d no integer. -/
def exp2Encl (p : Nat) (n : Int) (d : Nat) : FVal × FVal :=
  let i := n / (d : Int)
  let fnum := (n % (d : Int)).toNat
  let u := fnum * ln2Fix p / d
  let y := expFix p u
  let lo := y
  let hi := y + slack p
  if 0 ≤ i then (.num ((lo * 2 ^ i.toNat : Nat) : Int) (2 ^ p), .num ((hi * 2 ^ i.toNat : Nat) : Int) (2 ^ p))
  else (.num (lo : Int) (2 ^ (p + (-i).toNat)), .num (hi : Int) (2 ^ (p + (-i).toNat)))

/-- An enclosure of log2 x for x = n / d > 0 no power of two. -/
def log2Encl (p : Nat) (n d : Nat) : FVal × FVal :=
  let e := log2Rat n d
  let m := unscale n d e           -- m.1 / m.2 in [1, 2)
  let z := (m.1 - m.2) * 2 ^ p / (m.1 + m.2)
  let lnm := 2 * atanhFix p z
  let l2 := ln2Fix p
  let lo := lnm * 2 ^ p / (l2 + slack p)
  let hi := (lnm + slack p) * 2 ^ p / l2 + 1
  let off := e * ((2 ^ p : Nat) : Int)
  (ofRat (off + (lo : Int)) (2 ^ p), ofRat (off + (hi : Int)) (2 ^ p))

/-- An enclosure of tanh x for x = n / d > 0. -/
def tanhEncl (p : Nat) (n d : Nat) : FVal × FVal :=
  if n * 2 ^ 12 < d then
    -- x - x^3 / 3 < tanh x < x
    (.num (((3 * n * d * d : Nat) : Int) - ((n * n * n : Nat) : Int)) (3 * d * d * d), .num (n : Int) d)
  else
    -- B = exp (2x) = (exp (x / 16)) ^ 32
    let u := n * 2 ^ p / (16 * d)
    let b0 := expFix p u
    let sq (v : Nat) : Nat := v * v / 2 ^ p
    let sqUp (v : Nat) : Nat := v * v / 2 ^ p + 1
    let lo := sq (sq (sq (sq (sq b0))))
    let hi := sqUp (sqUp (sqUp (sqUp (sqUp (b0 + slack p)))))
    (.num ((lo - 2 ^ p : Nat) : Int) (lo + 2 ^ p), .num ((hi - 2 ^ p : Nat) : Int) (hi + 2 ^ p))

/-- The FP32 value to which an enclosed number rounds, the enclosure narrowed as often as needed. -/
def roundEncl (encl : Nat → FVal × FVal) : Nat → Nat → Nat
  | 0, p => f32.round .rn (encl p).1
  | fuel + 1, p =>
    let e := encl p
    let a := f32.round .rn e.1
    let b := f32.round .rn e.2
    if a = b then a else roundEncl encl fuel (2 * p)

/-- FEXP2 (R123). -/
def exp2Bits (v : FVal) : Nat :=
  match v with
  | .nan => f32.nanCode
  | .inf s => if s then 0 else f32.infCode
  | .zero _ => f32.round .rn (.num 1 1)
  | .num n d =>
    if 256 * (d : Int) ≤ n then f32.infCode
    else if n ≤ -256 * (d : Int) then 0
    else if n % (d : Int) = 0 then f32.round .rn (scaled false 1 (n / (d : Int)))
    else roundEncl (fun p => exp2Encl p n d) 4 160

/-- FLOG2 (R123). -/
def log2Bits (v : FVal) : Nat :=
  match v with
  | .nan => f32.nanCode
  | .inf s => if s then f32.nanCode else f32.infCode
  | .zero _ => f32.withSign true f32.infCode
  | .num n d =>
    if n < 0 then f32.nanCode
    else
      let e := log2Rat n.toNat d
      let m := unscale n.toNat d e
      if m.1 = m.2 then f32.round .rn (ofInt e)
      else roundEncl (fun p => log2Encl p n.toNat d) 4 160

/-- FTANH (R123). -/
def tanhBits (v : FVal) : Nat :=
  match v with
  | .nan => f32.nanCode
  | .inf s => f32.round .rn (.num (if s then -1 else 1) 1)
  | .zero s => f32.withSign s 0
  | .num n d =>
    if 10 * d ≤ n.natAbs then f32.round .rn (.num (if n < 0 then -1 else 1) 1)
    else f32.withSign (decide (n < 0)) (roundEncl (fun p => tanhEncl p n.natAbs d) 4 160)

/-! ### Narrow formats (R65 to R69) -/

/-- A narrow float: exponent bits, mantissa bits, bias and the code of the largest finite value (R66, R68). -/
structure Narrow where
  eb : Nat
  mb : Nat
  bias : Nat
  maxCode : Nat
  maxVal : Nat
  deriving DecidableEq, Repr

def e2m1 : Narrow := ⟨2, 1, 1, 7, 6⟩
def e4m3 : Narrow := ⟨4, 3, 7, 0x7E, 448⟩
def e5m2 : Narrow := ⟨5, 2, 15, 0x7B, 57344⟩

/-- The narrow format of a type. -/
def narrowOf (t : Ty) : Narrow :=
  match t with
  | .e2m1 => e2m1
  | .e5m2 => e5m2
  | _ => e4m3

/-- The sign bit of a narrow code. -/
def Narrow.signBit (F : Narrow) : Nat := 2 ^ (F.eb + F.mb)

/-- The value of a narrow code (R66, R68). -/
def Narrow.value (F : Narrow) (code : Nat) : FVal :=
  let c := code % F.signBit
  let neg := code / F.signBit % 2 = 1
  if c = 0 ∧ ¬ neg then .zero false
  else if F.maxCode < c then
    (if F = e5m2 ∧ c = 0x7C then .inf neg else .nan)
  else scaled neg (2 ^ F.mb + c % 2 ^ F.mb) ((c / 2 ^ F.mb : Nat) - (F.bias : Int) - F.mb)

/-- The three kinds of counted event (R76). -/
structure Events where
  sat : Bool := false
  flush : Bool := false
  nan : Bool := false
  deriving DecidableEq, Repr

/-- The magnitude code of num / den (positive) rounded over the target set of R65, unbounded above; 0 is the zero
code. For a negative number the magnitude code 0 of the smallest value is reported as `minNeg`. -/
inductive NarrowRes where
  | zero
  | code (c : Nat)
  deriving DecidableEq, Repr

def Narrow.roundMagnitude (F : Narrow) (mode : RMode) (neg : Bool) (num den : Nat) : NarrowRes :=
  -- the smallest magnitude of this sign: code 1 for positive numbers, code 0x80 for negative ones
  let minM := if neg then 2 ^ F.mb else 2 ^ F.mb + 1
  let minDen := 2 ^ (F.bias + F.mb)
  if num * minDen < minM * den then
    let up : Bool := match mode with
      | .rn => decide (minM * den < 2 * num * minDen)
      | .rna => decide (minM * den ≤ 2 * num * minDen)
      | .rz => false
      | .rm => neg
      | .rp => !neg
    if up then .code (minM - 2 ^ F.mb) else .zero
  else
    let k := log2Rat num den - F.mb
    let r := unscale num den k
    let m := roundMag mode neg r.1 r.2
    .code ((k + F.mb + F.bias).toNat * 2 ^ F.mb + m - 2 ^ F.mb)

/-- `to_narrow` of R69: the code and the events it counts. -/
def Narrow.ofVal (F : Narrow) (mode : RMode) (v : FVal) : Nat × Events :=
  let sgn (neg : Bool) (c : Nat) : Nat := if neg then c + F.signBit else c
  match v with
  | .nan => ((if F = e2m1 then 0 else 0x7F), { nan := true })
  | .inf s => if F = e5m2 then (sgn s 0x7C, {}) else (sgn s F.maxCode, { sat := true })
  | .zero _ => (0, {})
  | .num n d =>
    let neg := decide (n < 0)
    match F.roundMagnitude mode neg n.natAbs d with
    | .zero => (0, { flush := true })
    | .code c => if F.maxCode < c then (sgn neg F.maxCode, { sat := true }) else (sgn neg c, {})

/-! ### Block scales and quantisation (R67, R70, R71) -/

/-- The value of an E3M5 code, in units of 2^-9 (R67). -/
def e3m5Units (code : Nat) : Nat := if code = 0 then 0 else (32 + code % 32) * 2 ^ (code / 32)

/-- The value of an E3M5 code. -/
def e3m5 (code : Nat) : FVal := ofRat (e3m5Units code : Int) 512

/-- |x| as a rational, for finite x. -/
def FVal.absRat : FVal → Nat × Nat
  | .num n d => (n.natAbs, d)
  | _ => (0, 1)

/-- The larger of two nonnegative rationals. -/
def maxRat (a b : Nat × Nat) : Nat × Nat := if a.1 * b.2 < b.1 * a.2 then b else a

/-- The scale of a block (R70, steps 1 to 3). -/
def blockScale (F : Narrow) (xs : List FVal) : Nat :=
  let amax := (xs.filter fun x => !x.isNaN && !x.isInf).foldl (fun m x => maxRat m x.absRat) (0, 1)
  if amax.1 = 0 then (if xs.all FVal.isZero then 0 else 1)
  else
    -- amax / s <= max, that is amax * 512 <= max * units
    match (List.range 256).find? fun c => c ≠ 0 && amax.1 * 512 ≤ F.maxVal * e3m5Units c * amax.2 with
    | some c => c
    | none => 0xFF

/-- x / s for a nonzero scale code, exact (R70, step 4). -/
def divScale (x : FVal) (s : Nat) : FVal :=
  match x with
  | .num n d => .num (n * 512) (d * e3m5Units s)
  | v => v

/-- The code and events of one element of a block with scale `s` (R70, steps 4 and 5). -/
def quantOne (F : Narrow) (mode : RMode) (s : Nat) (x : FVal) : Nat × Events :=
  if s = 0 then (0, { nan := x.isNaN }) else F.ofVal mode (divScale x s)

/-- Dequantisation to FP32 (R71). The zero code is a +0. -/
def dequant (F : Narrow) (q s : Nat) : Nat :=
  f32.round .rn ((F.value q).mul (if s = 0 then .zero false else e3m5 s))

/-! ### Types -/

/-- The IEEE-style format of a type. -/
def fmtOf (t : Ty) : Fmt :=
  match t with
  | .bf16 | .bf16x2 => bf16
  | .f16 | .f16x2 => f16
  | _ => f32

/-- The narrow types. -/
def isNarrow (t : Ty) : Bool := t == .e2m1 || t == .e4m3 || t == .e5m2

/-- The exact value of a source of a scalar element type, taken from the low bits of `v` (R60, R61, R66, R68). -/
def valueOf (t : Ty) (v : Nat) : FVal :=
  if t.isInt then ofInt (if t.isSigned then signedOf t.width v else ((v % 2 ^ t.width : Nat) : Int))
  else if isNarrow t then (narrowOf t).value (v % 2 ^ t.width)
  else (fmtOf t).value (v % 2 ^ t.width)

end Sys2Proof.Num
end

