-- ==== Sys2Proof/Machine/Alu.lean ====
section
/-!
DEFINITION. Machine/Alu.lean: what the instructions of classes 2 to 7 compute from the values of one lane, or of all
lanes for the cross-lane ones (R115 to R137), as functions on bit patterns.
-/

namespace Sys2Proof.Alu

open Sys2Proof Sys2Proof.Num

/-! ### Integer arithmetic (R115 to R120) -/

/-- The integer that a bit pattern stands for under a type (R60). -/
def valI (t : Ty) (v : Nat) : Int := if t.isSigned then signedOf t.width v else ((v % 2 ^ t.width : Nat) : Int)

/-- The range of a type (R115). -/
def loI (t : Ty) : Int := if t.isSigned then -((2 ^ (t.width - 1) : Nat) : Int) else 0
def hiI (t : Ty) : Int := if t.isSigned then ((2 ^ (t.width - 1) : Nat) : Int) - 1 else ((2 ^ t.width : Nat) : Int) - 1

/-- An exact result reduced, or clamped under `.sat` (R115). -/
def fitI (t : Ty) (sat : Bool) (r : Int) : Nat := wrapTo t.width (if sat then clampI (loI t) (hiI t) r else r)

/-- `.sat` is MOD 1 (R50). -/
def isSat (f : FnT) : Bool := f.md == 1

def iadd (f : FnT) (a b : Nat) : Nat := fitI f.ty (isSat f) (valI f.ty a + valI f.ty b)
def isub (f : FnT) (a b : Nat) : Nat := fitI f.ty (isSat f) (valI f.ty a - valI f.ty b)
def imul (f : FnT) (a b : Nat) : Nat := fitI f.ty (isSat f) (valI f.ty a * valI f.ty b)
def imulh (f : FnT) (a b : Nat) : Nat := wrapTo f.ty.width (valI f.ty a * valI f.ty b / ((2 ^ f.ty.width : Nat) : Int))
def imad (f : FnT) (a b c : Nat) : Nat := fitI f.ty (isSat f) (valI f.ty a * valI f.ty b + valI f.ty c)

/-- Division truncates toward zero; by zero it gives all ones (R116). -/
def idiv (f : FnT) (a b : Nat) : Nat :=
  if b % 2 ^ f.ty.width = 0 then 2 ^ f.ty.width - 1
  else fitI f.ty (isSat f) (Int.tdiv (valI f.ty a) (valI f.ty b))

/-- The remainder has the sign of the dividend; by zero it is the dividend (R116). -/
def irem (f : FnT) (a b : Nat) : Nat :=
  if b % 2 ^ f.ty.width = 0 then a % 2 ^ f.ty.width
  else wrapTo f.ty.width (Int.tmod (valI f.ty a) (valI f.ty b))

def imin (f : FnT) (a b : Nat) : Nat := wrapTo f.ty.width (min (valI f.ty a) (valI f.ty b))
def imax (f : FnT) (a b : Nat) : Nat := wrapTo f.ty.width (max (valI f.ty a) (valI f.ty b))
def iabs (f : FnT) (a : Nat) : Nat := fitI f.ty (isSat f) ((valI f.ty a).natAbs : Int)
def ineg (f : FnT) (a : Nat) : Nat := fitI f.ty (isSat f) (-valI f.ty a)

/-- The conditions of ICMP (R118, R54). -/
def icmp (f : FnT) (a b : Nat) : Bool :=
  let x := valI f.ty a
  let y := valI f.ty b
  match f.sub.toNat with
  | 0 => decide (x = y)
  | 1 => decide (x ≠ y)
  | 2 => decide (x < y)
  | 3 => decide (x ≤ y)
  | 4 => decide (y < x)
  | _ => decide (y ≤ x)

/-- The 33-bit value of IADDC (R119). -/
def iaddc (a b c : Nat) : Nat := a % 2 ^ 32 + b % 2 ^ 32 + c % 2

/-- LEA (R120): `b` is sign-extended from 32 bits, or whole in the 128-bit form. -/
def lea (whole : Bool) (a b c : Nat) : Nat :=
  wrapTo 64 ((a : Int) + (if whole then signedOf 64 b else signedOf 32 b) * ((c % 2 ^ 32 : Nat) : Int))

def andN (f : FnT) (a b : Nat) : Nat := (a &&& b) % 2 ^ f.ty.width
def orN (f : FnT) (a b : Nat) : Nat := (a ||| b) % 2 ^ f.ty.width
def xorN (f : FnT) (a b : Nat) : Nat := (a ^^^ b) % 2 ^ f.ty.width
def notN (f : FnT) (a : Nat) : Nat := 2 ^ f.ty.width - 1 - a % 2 ^ f.ty.width
def andnN (f : FnT) (a b : Nat) : Nat := (a &&& notN f b) % 2 ^ f.ty.width

/-- Shifts (R117): the count is bits 7:0 of b. -/
def shl (f : FnT) (a b : Nat) : Nat :=
  let n := b % 256
  if f.ty.width ≤ n then 0 else (a <<< n) % 2 ^ f.ty.width
def shr (f : FnT) (a b : Nat) : Nat :=
  let n := b % 256
  if f.ty.width ≤ n then 0 else (a % 2 ^ f.ty.width) >>> n
def sar (f : FnT) (a b : Nat) : Nat :=
  let n := min (b % 256) f.ty.width
  wrapTo f.ty.width (signedOf f.ty.width a / ((2 ^ n : Nat) : Int))
def rot (f : FnT) (a b : Nat) : Nat :=
  let w := f.ty.width
  let n := b % 256 % w
  let v := a % 2 ^ w
  ((v <<< n) ||| (v >>> (w - n))) % 2 ^ w

def popc (f : FnT) (a : Nat) : Nat := popcountN f.ty.width (a % 2 ^ f.ty.width)

/-- The number of zero bits above the highest one bit within w (R115). -/
def clz (f : FnT) (a : Nat) : Nat :=
  let v := a % 2 ^ f.ty.width
  if v = 0 then f.ty.width else f.ty.width - 1 - Nat.log2 v

def brev (f : FnT) (a : Nat) : Nat :=
  (List.range f.ty.width).foldl (fun r i => r + (if a.testBit i then 2 ^ (f.ty.width - 1 - i) else 0)) 0

/-- BFX (R117): position and length stand in bits 7:0 and 15:8 of the spec. -/
def bfx (f : FnT) (a spec : Nat) : Nat :=
  let w := f.ty.width
  let p := spec % 256
  let ln := min (spec / 256 % 256) w
  if ln = 0 then 0
  else
    -- bits at or above w read as 0, or as the sign bit
    let wide : Int := valI f.ty a
    let field := wrapTo ln (wide / ((2 ^ p : Nat) : Int))
    if f.ty.isSigned then wrapTo w (signedOf ln field) else field % 2 ^ w

/-- BFI (R117): the spec is source c. -/
def bfi (f : FnT) (a b spec : Nat) : Nat :=
  let w := f.ty.width
  let p := spec % 256
  let ln := spec / 256 % 256
  let v := a % 2 ^ w
  let hole := ((2 ^ ln - 1) <<< p) % 2 ^ w
  let field := ((b % 2 ^ w % 2 ^ ln) <<< p) % 2 ^ w
  (v - (v &&& hole)) ||| field

/-! ### FP32 and packed arithmetic (R121 to R125) -/

def modeOf (f : FnT) : RMode := RMode.ofMod f.md

def faddE (F : Fmt) (m : RMode) (a b : Nat) : Nat := F.round m (FVal.add m (F.value a) (F.value b))
def fsubE (F : Fmt) (m : RMode) (a b : Nat) : Nat := F.round m (FVal.add m (F.value a) (F.value b).neg)
def fmulE (F : Fmt) (m : RMode) (a b : Nat) : Nat := F.round m (FVal.mul (F.value a) (F.value b))
def ffmaE (F : Fmt) (m : RMode) (a b c : Nat) : Nat :=
  F.round m (FVal.add m (FVal.mul (F.value a) (F.value b)) (F.value c))

/-- -0 orders below +0 (R122). -/
def floatLt (a b : Nat) : Bool :=
  let x := f32.value a
  let y := f32.value b
  x.lt y || (x.isZero && y.isZero && x.isNeg && !y.isNeg)

def fmin (a b : Nat) : Nat :=
  if (f32.value a).isNaN && (f32.value b).isNaN then 0x7FC00000
  else if (f32.value a).isNaN then b % 2 ^ 32
  else if (f32.value b).isNaN then a % 2 ^ 32
  else if floatLt b a then b % 2 ^ 32 else a % 2 ^ 32

def fmax (a b : Nat) : Nat :=
  if (f32.value a).isNaN && (f32.value b).isNaN then 0x7FC00000
  else if (f32.value a).isNaN then b % 2 ^ 32
  else if (f32.value b).isNaN then a % 2 ^ 32
  else if floatLt a b then b % 2 ^ 32 else a % 2 ^ 32

/-- The conditions of FCMP (R122). -/
def fcmp (f : FnT) (a b : Nat) : Bool :=
  let x := f32.value a
  let y := f32.value b
  let un := x.isNaN || y.isNaN
  match f.sub.toNat with
  | 0 => x.eqv y
  | 1 => un || !(x.eqv y)
  | 2 => x.lt y
  | 3 => !un && !(y.lt x)
  | 4 => y.lt x
  | 5 => !un && !(x.lt y)
  | 6 => !un
  | _ => un

def frcp (a : Nat) : Nat := f32.round .rn (f32.value a).recip
def frsq (a : Nat) : Nat := f32.round .rn (f32.value a).rsqrt
def fsqrt (m : RMode) (a : Nat) : Nat := f32.round m (f32.value a).sqrt
def fexp2 (a : Nat) : Nat := exp2Bits (f32.value a)
def flog2 (a : Nat) : Nat := log2Bits (f32.value a)
def ftanh (a : Nat) : Nat := tanhBits (f32.value a)

/-- FCLASS (R124): one bit. -/
def fclass (t : Ty) (a : Nat) : Nat :=
  let F := fmtOf t
  let v := a % 2 ^ (1 + F.eb + F.mb)
  let neg := v.testBit (F.eb + F.mb)
  let e := v / 2 ^ F.mb % 2 ^ F.eb
  let m := v % 2 ^ F.mb
  let k :=
    if e = 2 ^ F.eb - 1 then
      (if m = 0 then (if neg then 0 else 7) else if m.testBit (F.mb - 1) then 9 else 8)
    else if e = 0 then
      (if m = 0 then (if neg then 3 else 4) else (if neg then 2 else 5))
    else (if neg then 1 else 6)
  2 ^ k

/-- An operation on `.bf16` and `.f16` elements, or on both elements of a packed pair (R125, R63). -/
def packed (t : Ty) (op : Fmt → Nat → Nat → Nat → Nat) (a b c : Nat) : Nat :=
  let F := fmtOf t
  let lo (v : Nat) := v % 65536
  let hi (v : Nat) := v / 65536 % 65536
  if t == .bf16x2 || t == .f16x2 then op F (lo a) (lo b) (lo c) + 65536 * op F (hi a) (hi b) (hi c)
  else op F (lo a) (lo b) (lo c)

/-! ### Conversion (R126, R127) -/

/-- n / d toward zero. -/
def truncRat (n : Int) (d : Nat) : Int := Int.tdiv n (d : Int)

/-- CVT of one element: the bits of the result and the events it counts (R76, R127). -/
def cvt (src dst : Ty) (md : BitVec 3) (v : Nat) : Nat × Events :=
  let x := valueOf src v
  let m := RMode.ofMod md
  if src == dst && !src.isInt then
    if x.isNaN then ((if isNarrow dst then (if dst == .e2m1 then 0 else 0x7F) else (fmtOf dst).nanCode), { nan := true })
    else (v % 2 ^ src.width, {})
  else if dst.isInt then
    if src.isInt then
      let n := valI src v
      let r := fitI dst (md == 1) n
      (r, { sat := md == 1 && decide (clampI (loI dst) (hiI dst) n ≠ n), flush := decide (n ≠ 0 ∧ r = 0) })
    else
      match x with
      | .nan => (0, { nan := true })
      | .inf s => ((if md == 1 then wrapTo dst.width (if s then loI dst else hiI dst) else 0), { sat := true })
      | .zero _ => (0, {})
      | .num n d =>
        let t := truncRat n d
        let r := fitI dst (md == 1) t
        (r, { sat := md == 1 && decide (clampI (loI dst) (hiI dst) t ≠ t), flush := decide (r = 0) })
  else if isNarrow dst then (narrowOf dst).ofVal m x
  else
    let r := (fmtOf dst).roundO m x
    let zero := r.1 % 2 ^ ((fmtOf dst).eb + (fmtOf dst).mb) = 0
    (r.1, { sat := r.2, flush := decide zero && !x.isZero && !x.isNaN && !x.isInf, nan := x.isNaN })

/-! ### Reductions (R136) -/

/-- An exact float sum of inputs, rounded once (R136): opposite infinities and NaN give NaN; an exact zero is -0 only
when every input is -0. -/
def sumF32 (m : RMode) (vs : List Nat) : Nat :=
  let xs := vs.map f32.value
  if xs.any FVal.isNaN then 0x7FC00000
  else
    let s := xs.foldl (fun a x => FVal.add .rn a x) (.zero true)
    match s with
    | .zero _ => if xs.all fun x => x.isZero && x.isNeg then (if vs.isEmpty then 0 else 0x80000000) else 0
    | y => f32.round m y

/-- The identity of an operation (R136). -/
def identity (t : Ty) (op : Nat) : Nat :=
  if t == .f32 then
    match op with
    | 0 => 0
    | 1 => 0x7F800000
    | _ => 0xFF800000
  else match op with
    | 1 => wrapTo t.width (hiI t)
    | 2 => wrapTo t.width (loI t)
    | 3 => 2 ^ t.width - 1
    | _ => 0

/-- The combination of values in order (R136); `[]` gives the identity. -/
def combine (f : FnT) (vs : List Nat) : Nat :=
  let op := f.sub.toNat % 8
  let t := f.ty
  match vs with
  | [] => identity t op
  | v :: rest =>
    if t == .f32 then
      match op with
      | 0 => sumF32 (modeOf f) vs
      | 1 => rest.foldl fmin (fmin v v)
      | _ => rest.foldl fmax (fmax v v)
    else match op with
      | 0 => fitI t (isSat f) ((vs.map (valI t)).sum)
      | 1 => wrapTo t.width ((rest.map (valI t)).foldl min (valI t v))
      | 2 => wrapTo t.width ((rest.map (valI t)).foldl max (valI t v))
      | 3 => (rest.foldl (· &&& ·) v) % 2 ^ t.width
      | 4 => (rest.foldl (· ||| ·) v) % 2 ^ t.width
      | _ => (rest.foldl (· ^^^ ·) v) % 2 ^ t.width

end Sys2Proof.Alu
end

