-- ==== Sys2Proof/Machine/Format.lean ====
section
/-!
DEFINITION. Machine/Format.lean: which field values make an instruction, by opcode (R39 to R54, R80, R81, R111, R112,
R138, R139, R157 to R159, R186, R187). Everything else traps ILLOP (R40, R55). Checks of operand VALUES, which are
known only at issue, are made by the meanings.
-/

namespace Sys2Proof.Format

open Sys2Proof

/-- What the destination fields may hold (R41). -/
inductive DKind where
  | none | vec | vecCount | scal | mask | tile
  deriving DecidableEq, Repr

/-- What a source field may hold (R39, R43). -/
inductive SKind where
  | zero | any | vec | scal | tile | bin
  deriving DecidableEq, Repr

/-- When a predicate is allowed (R81, R112, R139, R159, R187). -/
inductive PKind where
  | never | always | vecOnly
  deriving DecidableEq, Repr

/-- One row of the encoding tables. -/
structure Row where
  lens : List (BitVec 2)
  d    : List DKind
  a    : SKind
  b    : SKind
  c    : SKind
  pred : PKind
  deriving DecidableEq, Repr

/-- The destination fields have kind `k` (R41). -/
def DKind.ok (k : DKind) (x : Ops) : Bool :=
  match k with
  | .none => x.dst == 0 && x.cnt == 0 && !x.head.uni
  | .vec => !x.head.uni && ((x.cnt != 0 && x.dst < 0xC0#8) || (x.cnt == 0 && x.dst == 0))
  | .vecCount => !x.head.uni && x.cnt != 0 && x.dst < 0xC0#8
  | .scal => x.head.uni && x.cnt == 0 && 0xC0#8 ≤ x.dst
  | .mask => !x.head.uni && x.cnt == 0 && 1#8 ≤ x.dst && x.dst ≤ 7#8
  | .tile => !x.head.uni && x.cnt == 0 && x.dst ≤ 7#8

/-- A source field has kind `k`. -/
def SKind.ok (k : SKind) (v : BitVec 8) : Bool :=
  match k with
  | .zero => v == 0
  | .any => true
  | .vec => v < 0xC0#8
  | .scal => 0xC0#8 ≤ v
  | .tile => v ≤ 7#8
  | .bin => v ≤ 31#8

/-- The predicate fields are allowed (R11). -/
def PKind.ok (k : PKind) (h : Head) : Bool :=
  !(h.msk == 0 && h.neg) &&
    (h.msk == 0 || match k with
      | .never => false
      | .always => true
      | .vecOnly => !h.uni)

def L64 : List (BitVec 2) := [0]
def L96 : List (BitVec 2) := [1]
def L128 : List (BitVec 2) := [2]
def L64_96 : List (BitVec 2) := [0, 1]

/-- Per-lane destinations: a vector name, the discard or a scalar (R112). -/
def dVS : List DKind := [.vec, .scal]

/-- The row of each opcode. Immediate forms of layout T make SB zero; `aluOk` checks that. -/
def row : Nat → Option Row
  | 0x00 => some ⟨L64, [.none], .zero, .zero, .zero, .always⟩
  | 0x01 => some ⟨L96, [.none], .zero, .zero, .zero, .always⟩
  | 0x02 => some ⟨L64, [.none], .scal, .zero, .zero, .always⟩
  | 0x03 => some ⟨L96, [.none], .zero, .zero, .zero, .never⟩
  | 0x04 => some ⟨L64, [.none], .zero, .zero, .zero, .never⟩
  | 0x05 => some ⟨L96, [.scal], .zero, .zero, .zero, .never⟩
  | 0x06 => some ⟨L64, [.none], .scal, .zero, .zero, .never⟩
  | 0x07 => some ⟨L64, [.none], .zero, .zero, .zero, .always⟩
  | 0x08 => some ⟨L96, [.scal], .scal, .zero, .zero, .never⟩
  | 0x09 => some ⟨L64, [.none], .zero, .zero, .zero, .never⟩
  | 0x10 => some ⟨L64, dVS, .any, .zero, .zero, .vecOnly⟩
  | 0x11 => some ⟨[1, 2], dVS, .zero, .zero, .zero, .vecOnly⟩
  | 0x12 => some ⟨L64, dVS, .any, .any, .any, .vecOnly⟩
  | 0x13 => some ⟨L64, [.none], .vec, .zero, .zero, .never⟩
  | 0x14 => some ⟨L64, [.none], .vec, .zero, .zero, .never⟩
  | 0x15 => some ⟨L64, [.none], .vec, .zero, .zero, .never⟩
  | 0x16 => some ⟨L64, [.vecCount], .scal, .zero, .zero, .never⟩
  | 0x17 => some ⟨L64_96, [.none], .any, .zero, .zero, .never⟩
  | 0x18 => some ⟨L64_96, [.none], .any, .zero, .zero, .never⟩
  | 0x19 => some ⟨L64, [.scal], .zero, .zero, .zero, .never⟩
  | 0x1A => some ⟨L64, dVS, .zero, .zero, .zero, .vecOnly⟩
  | 0x1B => some ⟨L64, [.none], .scal, .zero, .zero, .never⟩
  | 0xE4 => some ⟨L64, [.scal], .zero, .zero, .zero, .never⟩
  | 0xF0 => some ⟨L64, [.none], .zero, .zero, .zero, .always⟩
  | 0xF1 => some ⟨L64, [.none], .zero, .zero, .zero, .never⟩
  | 0xF2 => some ⟨L64, [.none], .zero, .zero, .zero, .always⟩
  | 0xF3 => some ⟨L96, [.none], .zero, .zero, .zero, .never⟩
  | 0xF4 => some ⟨L96, [.none], .zero, .zero, .zero, .never⟩
  -- matrix and select (R138)
  | 0x80 => some ⟨L64, [.tile], .zero, .zero, .zero, .never⟩
  | 0x81 => some ⟨L64, [.tile], .zero, .zero, .zero, .never⟩
  | 0x82 => some ⟨L64, [.tile], .zero, .zero, .zero, .always⟩
  | 0x83 => some ⟨L128, [.tile], .scal, .scal, .zero, .always⟩
  | 0x84 => some ⟨L64, [.tile], .scal, .zero, .zero, .always⟩
  | 0x85 => some ⟨L64, [.none], .tile, .scal, .zero, .always⟩
  | 0x86 => some ⟨L64, [.vec], .tile, .scal, .zero, .always⟩
  | 0x87 => some ⟨L64, [.tile], .any, .scal, .zero, .always⟩
  | 0x88 => some ⟨L64, [.tile], .any, .any, .zero, .always⟩
  | 0x89 => some ⟨L64, [.scal], .zero, .zero, .zero, .never⟩
  | 0x90 => some ⟨L64, [.none], .tile, .scal, .zero, .always⟩
  -- memory (R157)
  | 0xA0 => some ⟨L64_96, dVS, .any, .zero, .zero, .vecOnly⟩
  | 0xA1 => some ⟨L64_96, [.none], .any, .any, .zero, .always⟩
  | 0xA2 => some ⟨L64_96, dVS, .any, .zero, .zero, .vecOnly⟩
  | 0xA3 => some ⟨L64_96, [.none], .any, .any, .zero, .always⟩
  | 0xA4 => some ⟨L64_96, [.none], .any, .zero, .zero, .always⟩
  | 0xA5 => some ⟨L64, [.scal], .scal, .scal, .zero, .never⟩
  | 0xA6 => some ⟨L64, [.none], .any, .zero, .zero, .never⟩
  | 0xB0 => some ⟨L64_96, dVS, .any, .any, .zero, .vecOnly⟩
  | 0xB1 => some ⟨L64_96, dVS, .any, .any, .any, .vecOnly⟩
  | 0xB2 => some ⟨L64_96, [.none], .any, .any, .zero, .always⟩
  | 0xB3 => some ⟨L64_96, dVS, .any, .any, .zero, .vecOnly⟩
  | 0xB4 => some ⟨L64, [.none], .zero, .zero, .zero, .never⟩
  | 0xB5 => some ⟨L64, [.scal], .zero, .zero, .zero, .never⟩
  | 0xB6 => some ⟨L64, [.none], .zero, .zero, .zero, .never⟩
  | 0xB7 => some ⟨L64, [.scal], .zero, .zero, .zero, .never⟩
  -- bins, engines, launch, steward (R186)
  | 0xC0 => some ⟨L96, [.none], .bin, .zero, .zero, .always⟩
  | 0xC1 => some ⟨L64, [.none], .bin, .zero, .zero, .never⟩
  | 0xC2 => some ⟨L64, [.scal], .bin, .zero, .zero, .never⟩
  | 0xC3 => some ⟨L64, [.scal], .bin, .zero, .zero, .never⟩
  | 0xD0 => some ⟨L128, [.scal], .scal, .scal, .scal, .never⟩
  | 0xD1 => some ⟨L128, [.scal], .vec, .scal, .any, .always⟩
  | 0xD2 => some ⟨L128, [.scal], .vec, .scal, .any, .always⟩
  | 0xD3 => some ⟨L128, [.scal], .scal, .scal, .scal, .never⟩
  | 0xD4 => some ⟨L64, [.scal], .scal, .scal, .zero, .never⟩
  | 0xD5 => some ⟨L64, [.none], .scal, .scal, .scal, .never⟩
  | 0xD6 => some ⟨L64, [.none], .scal, .zero, .zero, .never⟩
  | 0xD7 => some ⟨L64, [.scal], .zero, .zero, .zero, .never⟩
  | 0xE0 => some ⟨L64, [.scal], .scal, .zero, .zero, .never⟩
  | 0xE1 => some ⟨L64, [.scal], .scal, .scal, .zero, .never⟩
  | 0xE2 => some ⟨L64, [.scal], .scal, .zero, .zero, .never⟩
  | 0xE3 => some ⟨L64, [.scal], .scal, .zero, .zero, .never⟩
  | 0xF5 => some ⟨L64, [.none], .scal, .zero, .zero, .never⟩
  | 0xF6 => some ⟨L64, [.scal], .scal, .scal, .zero, .never⟩
  | 0xF7 => some ⟨L64, [.scal], .scal, .zero, .zero, .never⟩
  | _ => none

/-- The row of the fields that every opcode outside layout T of classes 2 to 7 is checked against. -/
def Row.ok (r : Row) (x : Ops) : Bool :=
  r.lens.contains x.head.len && r.d.any (fun k => k.ok x) && r.a.ok x.sa && r.b.ok x.sb && r.c.ok x.sc
    && r.pred.ok x.head

/-- A vector operand code that names a pair is even (R113). -/
def evenIf (wide : Bool) (v : BitVec 8) : Bool := !(wide && v < 0xC0#8 && v[0])

/-- Sets of types named in R111. -/
def tyI (t : Ty) : Bool := t.isInt
def tyH (t : Ty) : Bool := t == .bf16 || t == .f16 || t == .bf16x2 || t == .f16x2
def tyW (t : Ty) : Bool :=
  t == .i8 || t == .i16 || t == .n8 || t == .n16 || t == .bf16 || t == .f16 || t == .e4m3 || t == .e5m2 || t == .e2m1
def tyNarrow (t : Ty) : Bool := t == .e4m3 || t == .e5m2 || t == .e2m1

/-- What R111 and R112 say of one opcode of classes 2 to 7. `b`, `c`: the field is a source. `imm`: a 96-bit form
exists. -/
structure Alu where
  ty  : Ty → Bool
  md  : FnT → Bool
  sub : FnT → Bool
  a   : SKind
  b   : SKind
  c   : SKind
  d   : List DKind
  imm : Bool          -- a 96-bit form exists (R44, R53)
  imm64 : Bool        -- a 128-bit form exists for 64-bit types
  vecUni : Bool       -- a vector source is legal with UNI = 1 (R42)
  mergeable : Bool

def mdLe (n : Nat) (f : FnT) : Bool := f.md.toNat ≤ n
def sub0 (f : FnT) : Bool := f.sub == 0
def md0 (f : FnT) : Bool := f.md == 0
def subLe (n : Nat) (f : FnT) : Bool := f.sub.toNat ≤ n
def tyF (t : Ty) : Bool := t == .f32

/-- MOD of LRED and LSCAN (R136): `.add` saturates for integers and rounds for FP32; the others take MOD 0. -/
def mdRed (f : FnT) : Bool :=
  if f.sub == 0 || f.sub == 8 then (if f.ty == .f32 then mdLe 4 f else mdLe 1 f) else md0 f

/-- Sub-ops of LRED by type (R111). -/
def subRed (f : FnT) : Bool :=
  let k := f.sub.toNat % 8
  if f.ty == .f32 then k ≤ 2 else k ≤ 5

def tyRed (t : Ty) : Bool := t == .i32 || t == .i64 || t == .n32 || t == .n64 || t == .f32

def intBin (md : FnT → Bool) : Alu := ⟨tyI, md, sub0, .any, .any, .zero, dVS, true, true, false, true⟩
def intTri (md : FnT → Bool) : Alu := ⟨tyI, md, sub0, .any, .any, .any, dVS, true, true, false, false⟩
def intUn (md : FnT → Bool) : Alu := ⟨tyI, md, sub0, .any, .zero, .zero, dVS, false, false, false, true⟩
def fltBin (md : FnT → Bool) : Alu := ⟨tyF, md, sub0, .any, .any, .zero, dVS, true, false, false, true⟩
def fltUn (md : FnT → Bool) : Alu := ⟨tyF, md, sub0, .any, .zero, .zero, dVS, false, false, false, true⟩

/-- The table of R111, with the destinations of R112. -/
def alu : Nat → Option Alu
  | 0x20 | 0x21 | 0x22 | 0x25 => some (intBin (mdLe 1))
  | 0x23 | 0x26 | 0x27 | 0x28 => some (intBin md0)
  | 0x24 => some (intTri (mdLe 1))
  | 0x29 | 0x2A => some (intUn (mdLe 1))
  | 0x2B => some ⟨tyI, md0, subLe 5, .any, .any, .zero, [.vec, .scal, .mask], true, true, false, true⟩
  | 0x2C => some ⟨(· == .n32), md0, sub0, .any, .any, .any, dVS, true, false, false, false⟩
  | 0x2D => some ⟨(· == .n64), md0, sub0, .any, .any, .any, dVS, true, true, false, false⟩
  | 0x30 | 0x31 | 0x32 | 0x33 => some (intBin md0)
  | 0x34 => some (intUn md0)
  | 0x35 | 0x36 | 0x37 | 0x38 => some (intBin md0)
  | 0x39 | 0x3A | 0x3B => some (intUn md0)
  | 0x3C => some (intBin md0)
  | 0x3D => some (intTri md0)
  | 0x40 | 0x41 | 0x42 => some (fltBin (mdLe 4))
  | 0x43 => some ⟨tyF, mdLe 4, sub0, .any, .any, .any, dVS, true, false, false, false⟩
  | 0x44 | 0x45 => some (fltBin md0)
  | 0x46 => some ⟨tyF, md0, subLe 7, .any, .any, .zero, [.vec, .scal, .mask], true, false, false, true⟩
  | 0x47 | 0x48 => some (fltUn md0)
  | 0x49 => some (fltUn (mdLe 4))
  | 0x4A | 0x4B | 0x4C => some (fltUn md0)
  | 0x4D => some ⟨fun t => t == .f32 || t == .bf16 || t == .f16, md0, sub0, .any, .zero, .zero, dVS, false, false, false, true⟩
  | 0x50 | 0x51 => some ⟨tyH, mdLe 4, sub0, .any, .any, .zero, dVS, true, false, false, true⟩
  | 0x52 => some ⟨tyH, mdLe 4, sub0, .any, .any, .any, dVS, true, false, false, false⟩
  | 0x60 => some ⟨fun t => t.code.toNat ≤ 13, fun f => if f.ty.isInt then mdLe 1 f else mdLe 4 f, subLe 13,
      .any, .scal, .zero, [.vec], false, false, false, true⟩
  | 0x61 => some ⟨tyNarrow, mdLe 4, fun f => f.sub != 0 && subLe 3 f, .any, .scal, .zero, [.vec], false, false, false, true⟩
  | 0x62 => some ⟨tyNarrow, md0, fun f => f.sub != 0 && subLe 3 f, .any, .zero, .zero, [.vec], false, false, false, true⟩
  | 0x63 | 0x64 => some ⟨tyW, md0, sub0, .any, .zero, .zero, [.vec], false, false, false, false⟩
  | 0x70 => some ⟨fun _ => true, md0, subLe 3, .any, .any, .zero, [.vec], true, false, false, false⟩
  | 0x71 => some ⟨fun t => t == .n32 || t == .n64, md0, fun f => subLe 3 f && (f.ty == .n32 || f.sub == 3),
      .any, .zero, .zero, [.vec, .scal, .mask], false, false, true, false⟩
  | 0x72 => some ⟨tyRed, mdRed, fun f => f.sub.toNat ≤ 5 && subRed f, .any, .zero, .zero, dVS, false, false, true, false⟩
  | 0x73 => some ⟨tyRed, mdRed, fun f => (f.sub.toNat ≤ 5 || (8 ≤ f.sub.toNat && f.sub.toNat ≤ 13)) && subRed f,
      .any, .zero, .zero, [.vec], false, false, false, false⟩
  | 0x74 => some ⟨fun t => t == .n32 || t == .n64, md0, subLe 1, .any, .zero, .zero, [.vec], false, false, false, false⟩
  | 0x75 => some ⟨fun _ => true, md0, subLe 1, .any, .scal, .any, dVS, true, false, true, false⟩
  | _ => none

/-- The result of the instruction is a pair when its destination is a vector name (R113, R118, R119, R134, R135). -/
def pairResult (opc : Nat) (f : FnT) : Bool :=
  if opc == 0x2B || opc == 0x46 || opc == 0x71 || opc == 0x74 then false
  else if opc == 0x2C then true
  else f.ty.wide

/-- Source b of the instruction is a pair when it is a vector name. -/
def pairB (opc : Nat) (f : FnT) : Bool :=
  if opc == 0x2D || opc == 0x70 || opc == 0x75 then false else f.ty.wide

/-- Source a of the instruction is a pair when it is a vector name (CVT's source type stands in SUB). -/
def pairA (opc : Nat) (f : FnT) : Bool := if opc == 0x60 then (Ty.ofCode f.sub).wide else f.ty.wide

/-- Source c of the instruction is a pair when it is a vector name. -/
def pairC (opc : Nat) (f : FnT) : Bool := if opc == 0x2D then false else f.ty.wide

/-- Layout T, classes 2 to 7 (R48, R50, R53, R54, R111, R112). -/
def aluOk (opc : Nat) (f : FnT) (x : Ops) : Bool :=
  match alu opc with
  | none => false
  | some r =>
    let imm := x.head.len != 0
    let lane := opc == 0x75
    -- lengths
    (x.head.len == 0 || (x.head.len == 1 && r.imm) || (x.head.len == 2 && r.imm64 && f.ty.wide))
    && r.ty f.ty && r.md f && r.sub f
    && PKind.always.ok x.head
    -- destination
    && r.d.any (fun k => k.ok x)
    && (!(opc == 0x71 && DKind.mask.ok x && f.sub != 2) || DKind.vec.ok x)
    && (x.cnt == 0 || evenIf (pairResult opc f) x.dst)
    -- sources
    && r.a.ok x.sa && evenIf (pairA opc f) x.sa
    && (if imm then x.sb == 0 else r.b.ok x.sb && evenIf (pairB opc f) x.sb)
    && (if f.mg then r.mergeable && r.c == .zero && SKind.vec.ok x.sc && !x.head.uni && x.cnt != 0 && !f.ty.wide
        else if lane then
          (if f.sub == 0 then x.sc == 0 else evenIf f.ty.wide x.sc)
        else r.c.ok x.sc && evenIf (pairC opc f) x.sc)
    -- LANE.put: vector destination and scalar value (R137)
    && (!(lane && f.sub == 1) || (!x.head.uni && SKind.scal.ok x.sa))
    -- SHFL and LANE immediates (R44)
    && (!((opc == 0x70 || lane) && imm) || x.ext.toNat < 32)
    -- vector sources on the scalar datapath (R42)
    && (!x.head.uni || r.vecUni || (SKind.scal.ok x.sa || r.a == .zero)
        && (imm || r.b == .zero || SKind.scal.ok x.sb) && (r.c == .zero || SKind.scal.ok x.sc))

/-- The format block of MMA (R47). -/
def mmaOk (ext : DWord) : Bool :=
  let afmt := fld ext 1 0
  let bfmt := fld ext 3 2
  let blk := fld ext 5 4
  let asc := fld ext 18 6
  let bsc := fld ext 31 19
  let cls (k : Nat) : Nat := if k = 0 then 0 else if k = 3 then 2 else 1
  fld ext 55 45 == 0 && cls afmt == cls bfmt
    && (afmt != 0 || blk == 1) && (afmt != 3 || blk == 0)
    && (blk != 0 || (asc == 0 && bsc == 0))

/-- ARD and AWR (R138): TYPE, MOD, SUB and MG. -/
def tileMoveOk (opc : Nat) (f : FnT) : Bool :=
  (f.ty == .f32 || tyH f.ty) && f.sub == 0 && !f.mg
    && (if opc == 0x86 && f.ty != .f32 then mdLe 4 f else md0 f)

/-- Types of plain accesses (R158). -/
def tyMem (t : Ty) : Bool := t != .e2m1

/-- Types of global atomics by sub-op (R158): 0 to 2 and 6 take FP32, 3 to 5 do not. -/
def tyAtom (sub : Nat) (t : Ty) : Bool :=
  t == .i32 || t == .i64 || t == .n32 || t == .n64 || (t == .f32 && (sub ≤ 2 || sub == 6))

/-- Layout M fields by opcode (R51, R54, R157, R158, R159). -/
def memOk (opc : Nat) (f : FnM) (x : Ops) : Bool :=
  let ord := f.ord.toNat
  let sc := f.scope.toNat
  let sub := f.sub.toNat
  let globalBase := evenIf true x.sa
  let scalarForm (srcs : Bool) : Bool := !x.head.uni || (SKind.scal.ok x.sa && srcs)
  let dstPair := x.cnt == 0 || evenIf f.ty.wide x.dst
  sc ≤ 4 &&
  match opc with
  | 0xA0 => sub == 0 && tyMem f.ty && ord ≤ 1 && (ord != 0 || sc == 0) && globalBase && scalarForm true && dstPair
  | 0xA2 => sub == 0 && tyMem f.ty && ord ≤ 1 && (ord != 0 || sc == 0) && scalarForm true && dstPair
  | 0xA1 => sub == 0 && tyMem f.ty && (ord == 0 || ord == 2) && (ord != 0 || sc == 0) && globalBase
      && evenIf f.ty.wide x.sb
  | 0xA3 => sub == 0 && tyMem f.ty && (ord == 0 || ord == 2) && (ord != 0 || sc == 0) && evenIf f.ty.wide x.sb
  | 0xA4 => sub ≤ 1 && ord == 0 && sc == 0 && f.ty == .i8 && globalBase
  | 0xA6 => sub ≤ 1 && ord == 0 && sc == 0 && f.ty == .i8 && (if sub == 0 then SKind.scal.ok x.sa else x.sa == 0)
  | 0xB0 => sub ≤ 6 && tyAtom sub f.ty && globalBase && scalarForm (SKind.scal.ok x.sb) && dstPair && evenIf f.ty.wide x.sb
  | 0xB1 => sub == 0 && tyAtom 6 f.ty && globalBase && scalarForm (SKind.scal.ok x.sb && SKind.scal.ok x.sc) && dstPair
      && evenIf f.ty.wide x.sb && evenIf f.ty.wide x.sc
  | 0xB2 => sub ≤ 5 && tyAtom sub f.ty && (ord == 0 || ord == 2) && globalBase && evenIf f.ty.wide x.sb
  | 0xB3 => sub ≤ 6 && tyAtom sub f.ty && !f.ty.wide && scalarForm (SKind.scal.ok x.sb) && dstPair
  | 0xB4 => sub == 0 && 1 ≤ ord && f.ty == .i8
  | 0xB5 | 0xB6 | 0xB7 => sub == 0 && ord == 0 &&
      (match sc with
       | 1 => true
       | 2 => f.ty.code.toNat ≤ 7
       | 3 => f.ty.code.toNat ≤ 3
       | _ => false)
  | _ => false

/-- Element types of the name forms of EGATH and ESCAT (R201). -/
def tyGather (t : Ty) : Bool :=
  t == .i8 || t == .i16 || t == .i32 || t == .n8 || t == .n16 || t == .n32 || t == .f32 || t == .bf16 || t == .f16

/-- Layout E fields by opcode (R54, R186, R198, R199, R201, R202). -/
def engOk (opc : Nat) (f : FnE) (x : Ops) : Bool :=
  let xf := fld x.ext 63 52
  let sub := f.sub.toNat
  let op := f.op.toNat
  match opc with
  | 0xD0 => sub == 0 && op == 0 && xf ≤ 5 &&
      (if xf == 1 then f.ty == .n8 || f.ty == .bf16 || tyNarrow f.ty else f.ty == .i8)
  | 0xD1 => sub == 0 && op == 0 &&
      (if xf / 256 != 0 then xf % 256 < 0xC0 && x.sc == 0 && tyGather f.ty
       else xf == 0 && SKind.scal.ok x.sc && f.ty == .n8)
  | 0xD2 => sub == 0 && op == 0 && xf == 0 && (if SKind.vec.ok x.sc then tyGather f.ty else f.ty == .n8)
  | 0xD3 => xf == 0 && sub ≤ 4 && (if sub == 1 || sub == 3 then op == 0 else op ≤ 2)
      && (f.ty == .i32 || f.ty == .n32 || f.ty == .f32 || f.ty == .bf16)
  | 0xD4 | 0xD6 | 0xD7 => sub ≤ 2 && op == 0 && f.ty == .i8
  | 0xD5 => sub == 0 && op == 0 && f.ty == .i8
  | _ => false

/-- The numbers of the system register index (R27). -/
def csrKnown (k : Nat) : Bool :=
  k ≤ 0x00A || k == 0x010 || k == 0x011 || (0x020 ≤ k && k ≤ 0x022)
    || (0x030 ≤ k && k ≤ 0x035) || (0x038 ≤ k && k ≤ 0x03D) || (0x040 ≤ k && k ≤ 0x045)
    || (0x050 ≤ k && k ≤ 0x058) || (0x060 ≤ k && k ≤ 0x06C)

/-- The registers that have a write level (R27). -/
def csrWritable (k : Nat) : Bool :=
  csrKnown k && !(k ≤ 0x007 || k == 0x00A || k == 0x010 || k == 0x011 || k == 0x021)

/-- Layout N numbers by opcode (R54). -/
def numOk (opc : Nat) (k : Nat) : Bool :=
  match opc with
  | 0x09 => k ≤ 255
  | 0x14 | 0x15 => 1 ≤ k && k ≤ 14
  | 0x1A => csrKnown k
  | 0x1B => csrWritable k
  | 0x89 => k / 256 ≤ 2
  | 0x90 => 1 ≤ k && k ≤ 64
  | 0xC3 => k ≤ 5
  | 0xE4 => k ≤ 63
  | 0xF0 => k ≤ 127
  | _ => false

/-- A PC-relative offset is a multiple of 4 (R45). -/
def offsetOk (x : Ops) : Bool := x.ext.toNat % 4 == 0

/-- Layout Z opcodes: the rules beside the row (R80, R81, R44, R45). -/
def plainOk (opc : Nat) (x : Ops) : Bool :=
  match opc with
  | 0x01 | 0x03 | 0x05 | 0xC0 => offsetOk x
  | 0x08 => offsetOk x && x.sa == x.dst
  | 0x10 => !x.head.uni || SKind.scal.ok x.sa
  | 0x11 => !(x.head.len == 2) || x.head.uni
  | 0x12 => !x.head.uni || (SKind.scal.ok x.sa && SKind.scal.ok x.sb && SKind.scal.ok x.sc)
  | 0x17 | 0x18 => if x.head.len == 0 then SKind.scal.ok x.sa else x.sa == 0 && x.ext.toNat ≤ 4096
  | 0x83 => mmaOk x.ext
  | _ => true

/-- The bits after the common word that the form does not have are 0. -/
def extOk (x : Ops) : Bool :=
  (x.head.len != 0 || x.ext == 0) && (x.head.len != 1 || x.ext.toNat < 2 ^ 32) && x.head.len != 3

/-- The layout of an opcode (R48): 0 for Z, 1 for T, 2 for M, 3 for E, 4 for N. -/
def layout (opc : Nat) : Nat :=
  if (alu opc).isSome || opc == 0x86 || opc == 0x87 then 1
  else if (0xA0 ≤ opc && opc ≤ 0xA4) || opc == 0xA6 || (0xB0 ≤ opc && opc ≤ 0xB7) then 2
  else if 0xD0 ≤ opc && opc ≤ 0xD7 then 3
  else if opc == 0x09 || opc == 0x14 || opc == 0x15 || opc == 0x1A || opc == 0x1B || opc == 0x89 || opc == 0x90
    || opc == 0xC3 || opc == 0xE4 || opc == 0xF0 then 4
  else 0

/-- The fields of an instruction with primary opcode `opc` are those of an instruction (R40, R53, R54, R55). -/
def legal (opc : Nat) (fn : Fn) (x : Ops) : Bool :=
  extOk x &&
  match fn with
  | .t f => if opc == 0x86 || opc == 0x87 then tileMoveOk opc f && ((row opc).any fun r => r.ok x) else aluOk opc f x
  | .m f => memOk opc f x && ((row opc).any fun r => r.ok x)
  | .e f => engOk opc f x && ((row opc).any fun r => r.ok x)
  | .n k => numOk opc k.toNat && ((row opc).any fun r => r.ok x)
  | .z => layout opc == 0 && plainOk opc x && ((row opc).any fun r => r.ok x)

end Sys2Proof.Format

namespace Sys2Proof

/-- The opcode, FN field and operand fields of an instruction (R52); `none` for a happening. -/
def Instr.parts : Instr → Option (Nat × Fn × Ops)
  | .nop x => some (0x00, .z, x)
  | .bra x => some (0x01, .z, x)
  | .brx x => some (0x02, .z, x)
  | .dvg x => some (0x03, .z, x)
  | .cvg x => some (0x04, .z, x)
  | .call x => some (0x05, .z, x)
  | .ret x => some (0x06, .z, x)
  | .exit x => some (0x07, .z, x)
  | .loop x => some (0x08, .z, x)
  | .ppt k x => some (0x09, .n k, x)
  | .mov x => some (0x10, .z, x)
  | .movi x => some (0x11, .z, x)
  | .sel x => some (0x12, .z, x)
  | .drop x => some (0x13, .z, x)
  | .dropk k x => some (0x14, .n k, x)
  | .keep k x => some (0x15, .n k, x)
  | .openName x => some (0x16, .z, x)
  | .claim x => some (0x17, .z, x)
  | .cede x => some (0x18, .z, x)
  | .poolq x => some (0x19, .z, x)
  | .csrr k x => some (0x1A, .n k, x)
  | .csrw k x => some (0x1B, .n k, x)
  | .evwait k x => some (0xE4, .n k, x)
  | .trap k x => some (0xF0, .n k, x)
  | .eret x => some (0xF1, .z, x)
  | .bkpt x => some (0xF2, .z, x)
  | .sigchk x => some (0xF3, .z, x)
  | .sigrst x => some (0xF4, .z, x)
  | .iadd f x => some (0x20, .t f, x)
  | .isub f x => some (0x21, .t f, x)
  | .imul f x => some (0x22, .t f, x)
  | .imulh f x => some (0x23, .t f, x)
  | .imad f x => some (0x24, .t f, x)
  | .idiv f x => some (0x25, .t f, x)
  | .irem f x => some (0x26, .t f, x)
  | .imin f x => some (0x27, .t f, x)
  | .imax f x => some (0x28, .t f, x)
  | .iabs f x => some (0x29, .t f, x)
  | .ineg f x => some (0x2A, .t f, x)
  | .icmp f x => some (0x2B, .t f, x)
  | .iaddc f x => some (0x2C, .t f, x)
  | .lea f x => some (0x2D, .t f, x)
  | .andB f x => some (0x30, .t f, x)
  | .orB f x => some (0x31, .t f, x)
  | .xorB f x => some (0x32, .t f, x)
  | .andnB f x => some (0x33, .t f, x)
  | .notB f x => some (0x34, .t f, x)
  | .shl f x => some (0x35, .t f, x)
  | .shr f x => some (0x36, .t f, x)
  | .sar f x => some (0x37, .t f, x)
  | .rot f x => some (0x38, .t f, x)
  | .popc f x => some (0x39, .t f, x)
  | .clz f x => some (0x3A, .t f, x)
  | .brev f x => some (0x3B, .t f, x)
  | .bfx f x => some (0x3C, .t f, x)
  | .bfi f x => some (0x3D, .t f, x)
  | .fadd f x => some (0x40, .t f, x)
  | .fsub f x => some (0x41, .t f, x)
  | .fmul f x => some (0x42, .t f, x)
  | .ffma f x => some (0x43, .t f, x)
  | .fmin f x => some (0x44, .t f, x)
  | .fmax f x => some (0x45, .t f, x)
  | .fcmp f x => some (0x46, .t f, x)
  | .frcp f x => some (0x47, .t f, x)
  | .frsq f x => some (0x48, .t f, x)
  | .fsqrt f x => some (0x49, .t f, x)
  | .fexp2 f x => some (0x4A, .t f, x)
  | .flog2 f x => some (0x4B, .t f, x)
  | .ftanh f x => some (0x4C, .t f, x)
  | .fclass f x => some (0x4D, .t f, x)
  | .hadd f x => some (0x50, .t f, x)
  | .hmul f x => some (0x51, .t f, x)
  | .hfma f x => some (0x52, .t f, x)
  | .cvt f x => some (0x60, .t f, x)
  | .qnt f x => some (0x61, .t f, x)
  | .dqnt f x => some (0x62, .t f, x)
  | .pack f x => some (0x63, .t f, x)
  | .unpk f x => some (0x64, .t f, x)
  | .shfl f x => some (0x70, .t f, x)
  | .vote f x => some (0x71, .t f, x)
  | .lred f x => some (0x72, .t f, x)
  | .lscan f x => some (0x73, .t f, x)
  | .matchLanes f x => some (0x74, .t f, x)
  | .lane f x => some (0x75, .t f, x)
  | .aclaim x => some (0x80, .z, x)
  | .afree x => some (0x81, .z, x)
  | .azero x => some (0x82, .z, x)
  | .mma x => some (0x83, .z, x)
  | .ald x => some (0x84, .z, x)
  | .ast x => some (0x85, .z, x)
  | .ard f x => some (0x86, .t f, x)
  | .awr f x => some (0x87, .t f, x)
  | .ascl x => some (0x88, .z, x)
  | .astat k x => some (0x89, .n k, x)
  | .selk k x => some (0x90, .n k, x)
  | .ld f x => some (0xA0, .m f, x)
  | .st f x => some (0xA1, .m f, x)
  | .lds f x => some (0xA2, .m f, x)
  | .sts f x => some (0xA3, .m f, x)
  | .pref f x => some (0xA4, .m f, x)
  | .pmap x => some (0xA5, .z, x)
  | .tlbinv f x => some (0xA6, .m f, x)
  | .atom f x => some (0xB0, .m f, x)
  | .cas f x => some (0xB1, .m f, x)
  | .red f x => some (0xB2, .m f, x)
  | .atoms f x => some (0xB3, .m f, x)
  | .fence f x => some (0xB4, .m f, x)
  | .bar f x => some (0xB5, .m f, x)
  | .bara f x => some (0xB6, .m f, x)
  | .barw f x => some (0xB7, .m f, x)
  | .susp x => some (0xC0, .z, x)
  | .wake x => some (0xC1, .z, x)
  | .resume x => some (0xC2, .z, x)
  | .binq k x => some (0xC3, .n k, x)
  | .ecpy f x => some (0xD0, .e f, x)
  | .egath f x => some (0xD1, .e f, x)
  | .escat f x => some (0xD2, .e f, x)
  | .ecoll f x => some (0xD3, .e f, x)
  | .fork f x => some (0xD4, .e f, x)
  | .rdv f x => some (0xD5, .e f, x)
  | .tlwait f x => some (0xD6, .e f, x)
  | .tlq f x => some (0xD7, .e f, x)
  | .deq x => some (0xE0, .z, x)
  | .enq x => some (0xE1, .z, x)
  | .launch x => some (0xE2, .z, x)
  | .ljoin x => some (0xE3, .z, x)
  | .kzero x => some (0xF5, .z, x)
  | .scrub x => some (0xF6, .z, x)
  | .ctxfree x => some (0xF7, .z, x)
  | _ => none

/-- The ranges of a happening's arguments: context and queue numbers (R263, R390), dies and domains (R320), ports and
pairs (R394), links (R395), sizes (R387, R388). -/
def Instr.argsOk : Instr → Bool
  | .packetNop q | .packetLaunch q | .packetSignal q | .packetWait q | .packetEvent q | .qtail q _ | .qstatHalt q _ => q < 1024
  | .waitPacketComplete q _ | .waitPollFailure q _ => q < 1024
  | .ctxpreReqSet c _ | .ctxpreReqClear c | .softDeadlineExpiry c | .hardStop c | .contextRestore c | .ctxroot c _
  | .evraise c _ | .dbgbell c | .dbgmbox c _ | .ping c | .rdstate c | .rdname c | .wrname c | .dropname c | .rdscal c
  | .wrscal c | .wrcsr c | .cont c | .rdmem c => c < 65536
  | .sample core | .smpcfg core _ | .matrixInstructionComplete core | .crewEvict core => core < 192
  | .crewRestore _ slot => slot < 64
  | .automaticResume _ bin => bin < 32
  | .uvstepStep die dom _ | .uvstepRev die dom => die < 5 && dom < 4
  | .poisonclr die _ => die < 4
  | .hostRead _ n => 1 ≤ n && n ≤ 4096
  | .hostWrite _ bytes => 1 ≤ bytes.length && bytes.length ≤ 512
  | .hostAtomic _ size _ => 1 ≤ size && size ≤ 16
  | .linkDown (l, _) | .linkTrained l _ | .peerRequest l _ _ => l < 18
  | .storageDoorbell port pair _ => port < 4 && 1 ≤ pair && pair ≤ 64
  | .storageDma port _ _ => port < 4
  | .registerWrite off size _ => off < 67108864 && 1 ≤ size
  | .gangPlace _ cores => cores.all fun k => k < 192
  | .deviceReset ports => ports.length ≤ 4
  | _ => true

end Sys2Proof
end

