-- ==== Sys2Proof/Machine/Canary.lean ====
section
/-!
DEFINITION. Machine/Canary.lean: canary masks (R317, R318) and the rings of the sampler and the trace (R337, R342).
-/

namespace Sys2Proof.Machine

open Sys2Proof

/-- A unit that belongs to a core (R317). -/
def coreKind (kind : Nat) : Bool := (decide (1 ≤ kind) && decide (kind ≤ 6)) || kind == 0x0A

/-- The core of an INST that names one. -/
def instCore (inst : Nat) : Nat := inst / 4096 % 8 * 48 + inst % 4096

/-- The CANARY register of a unit (R317). -/
def State.canaryOf (s : State) (kind inst : Nat) : Nat :=
  if coreKind kind then Tab.getD (s.core (instCore inst)).canary kind 0
  else Tab.getD s.rel.canary (unitKey kind inst) 0

/-- Write the CANARY register of a unit: bits 8, 2, 1 and 0. -/
def State.setCanary (s : State) (kind inst v : Nat) : State :=
  let w := v &&& 0x107
  if coreKind kind then s.modCore (instCore inst) fun k => { k with canary := Tab.put k.canary kind w }
  else { s with rel := { s.rel with canary := Tab.put s.rel.canary (unitKey kind inst) w } }

/-- CLASS of an uncorrectable error of a unit (R305, R309); none where the unit has no such outcome. -/
def ueClass (kind : Nat) : Option Nat :=
  match kind with
  | 0x01 => some 0x02
  | 0x02 | 0x03 | 0x04 | 0x05 | 0x0A => some 0x03
  | 0x07 | 0x09 | 0x0B | 0x0D => some 0x05
  | 0x08 => some 0x04
  | _ => none

/-- A detection in a unit reports what its canary asks for, and changes nothing else (R318). DESIGN CHOICE: CREW, PC, MASK and DETAIL
of its records are 0, but for the exit point in the record of a check made there (log 104). `exit`: the exit point of a
check made there, and the die's INST for its record. -/
def State.canaryHit (s : State) (ctx : Option Nat) (kind inst addr : Nat) (exit : Option (Nat × Nat)) : State :=
  let v := s.canaryOf kind inst
  if v % 8 = 0 then s
  else
    let s1 := if v.testBit 0 then s.record { Rec.of ctx 0x01 kind inst with can := true, addr := addr } else s
    let s2 := if v.testBit 1 then (match ueClass kind with
        | some cl => s1.record { Rec.of ctx cl kind inst with can := true, addr := addr }
        | none => s1) else s1
    let s3 := if v.testBit 2 then (match exit with
        | some (pt, die) => s2.record { Rec.of ctx 0x06 0x0E (instOf die 0) with
            can := true, addr := addr, detail := pt * 16 }
        | none => s2) else s2
    let fired := v.testBit 0 || (v.testBit 1 && (ueClass kind).isSome) || (v.testBit 2 && exit.isSome)
    if v.testBit 8 && fired then s3.setCanary kind inst 0x100 else s3

/-- A unit whose detector an access passes: KIND, INST and, at an exit point of R316, that point and its die. -/
abbrev Passed := Nat × Nat × Option (Nat × Nat)

/-- An access to address `addr` passes units. -/
def State.passUnits (s : State) (ctx : Option Nat) (addr : Nat) (us : List Passed) : State :=
  us.foldl (fun t u => t.canaryHit ctx u.1 u.2.1 addr u.2.2) s

/-- A sampler or trace ring that can be written (R342). -/
def Sampler.valid (r : Sampler) : Bool :=
  r.en && decide (7 ≤ r.log2n) && decide (r.log2n ≤ 20) && hbmOk r.base (32 * 2 ^ r.log2n)

/-- Write the units of a record from unit `t` on. -/
def ringWrite (m : Memory) (base n t : Nat) : Nat → List Byte → Memory
  | 0, _ => m
  | k + 1, bs => ringWrite (m.write (base + 32 * (t % 2 ^ n)) (bs.take 32)) base n (t + 1) k (bs.drop 32)

/-- Put a record of whole units into a ring: written, dropped whole, or neither (R342). -/
def ringPut (m : Memory) (r : Sampler) (bytes : List Byte) : Memory × Sampler :=
  let units := bytes.length / 32
  if !r.en || !(decide (7 ≤ r.log2n) && decide (r.log2n ≤ 20)) then (m, r)
  else if !r.valid || 2 ^ r.log2n < (r.tail - r.head).toNat + units then (m, { r with drop := r.drop + 1 })
  else (ringWrite m r.base r.log2n r.tail.toNat units bytes, { r with tail := r.tail + BitVec.ofNat 64 units })

/-- The unit observes the context: its own, or every one but the protected (R337, R362). -/
def State.observes (s : State) (r : Sampler) (ctx : Nat) : Bool :=
  (r.ctx.toNat == 0xFFFF || r.ctx.toNat == ctx) && !(s.ctx ctx).prot

end Sys2Proof.Machine
end

