-- ==== Sys2Proof/Machine/Aes.lean ====
section
/-!
DEFINITION. Machine/Aes.lean: AES-256-XTS over one 64-byte line, the memory encryption of R262. AES-256 is the block
cipher of FIPS 197 and XTS the mode of IEEE 1619, which R262 names.
-/

namespace Sys2Proof.Aes

open Sys2Proof

/-- Multiplication by x in GF(2^8). -/
def xtime (a : Byte) : Byte := (a <<< 1) ^^^ (if a[7] then 0x1B#8 else 0#8)

/-- Multiplication in GF(2^8), `n` bits of the second factor. -/
def gmulAux : Nat → Byte → Nat → Byte
  | 0, _, _ => 0#8
  | n + 1, a, b => (if b % 2 = 1 then a else 0#8) ^^^ gmulAux n (xtime a) (b / 2)

/-- Multiplication in GF(2^8). -/
def gmul (a b : Byte) : Byte := gmulAux 8 a b.toNat

/-- The inverse in GF(2^8), a^254; 0 for 0. -/
def ginv (a : Byte) : Byte :=
  let a2 := gmul a a
  let a4 := gmul a2 a2
  let a8 := gmul a4 a4
  let a16 := gmul a8 a8
  let a32 := gmul a16 a16
  let a64 := gmul a32 a32
  let a128 := gmul a64 a64
  gmul a2 (gmul a4 (gmul a8 (gmul a16 (gmul a32 (gmul a64 a128)))))

/-- The S-box. -/
def sbox (a : Byte) : Byte :=
  let b := ginv a
  b ^^^ b.rotateLeft 1 ^^^ b.rotateLeft 2 ^^^ b.rotateLeft 3 ^^^ b.rotateLeft 4 ^^^ 0x63#8

/-- The inverse S-box. -/
def invSbox (a : Byte) : Byte :=
  let b := a ^^^ 0x63#8
  ginv (b.rotateLeft 1 ^^^ b.rotateLeft 3 ^^^ b.rotateLeft 6)

/-- Byte `i` of a list; 0 past its end. -/
def nth (s : List Byte) (i : Nat) : Byte := s.getD i 0#8

def xorBytes (a b : List Byte) : List Byte := List.zipWith (· ^^^ ·) a b

/-- Key words, in order of their making; the list is kept latest first. `i` counts the words made. -/
def expandAux : Nat → Nat → Byte → List (List Byte) → List (List Byte)
  | 0, _, _, ws => ws.reverse
  | n + 1, i, rc, ws =>
    let prev := ws.getD 0 []
    let old := ws.getD 7 []
    let t :=
      if i % 8 = 0 then
        (sbox (nth prev 1) ^^^ rc) :: [sbox (nth prev 2), sbox (nth prev 3), sbox (nth prev 0)]
      else if i % 8 = 4 then prev.map sbox
      else prev
    expandAux n (i + 1) (if i % 8 = 0 then xtime rc else rc) (xorBytes old t :: ws)

/-- The list in pieces of `k`. -/
def chunks {α : Type} (k : Nat) : Nat → List α → List (List α)
  | 0, _ => []
  | n + 1, l => l.take k :: chunks k n (l.drop k)

/-- The 15 round keys of a 32-byte key. -/
def roundKeys (key : List Byte) : List (List Byte) :=
  let ws := expandAux 52 8 1#8 (chunks 4 8 key).reverse
  (chunks 4 15 ws).map List.flatten

/-- ShiftRows: byte r + 4c comes from r + 4(c + r). -/
def shiftRows (s : List Byte) : List Byte := (List.range 16).map fun i => nth s (i % 4 + 4 * ((i / 4 + i % 4) % 4))

def invShiftRows (s : List Byte) : List Byte := (List.range 16).map fun i => nth s (i % 4 + 4 * ((i / 4 + 4 - i % 4) % 4))

/-- Each column times the circulant of `k0 k1 k2 k3`. -/
def mixWith (k0 k1 k2 k3 : Byte) (s : List Byte) : List Byte :=
  (List.range 16).map fun i =>
    let c := 4 * (i / 4)
    let r := i % 4
    gmul k0 (nth s (c + r)) ^^^ gmul k1 (nth s (c + (r + 1) % 4)) ^^^ gmul k2 (nth s (c + (r + 2) % 4))
      ^^^ gmul k3 (nth s (c + (r + 3) % 4))

def encRounds : List (List Byte) → List Byte → List Byte
  | [], s => s
  | [k], s => xorBytes (shiftRows (s.map sbox)) k
  | k :: ks, s => encRounds ks (xorBytes (mixWith 2#8 3#8 1#8 1#8 (shiftRows (s.map sbox))) k)

/-- AES-256 encryption of one block under expanded round keys. -/
def encBlock (rks : List (List Byte)) (s : List Byte) : List Byte :=
  match rks with
  | [] => s
  | k :: ks => encRounds ks (xorBytes s k)

/-- The rounds backwards: the list holds the round keys from the last to the first. -/
def decRounds : List (List Byte) → List Byte → List Byte
  | [], s => s
  | [k], s => xorBytes ((invShiftRows s).map invSbox) k
  | k :: ks, s => decRounds ks (mixWith 14#8 11#8 13#8 9#8 (xorBytes ((invShiftRows s).map invSbox) k))

/-- AES-256 decryption of one block under expanded round keys. -/
def decBlock (rks : List (List Byte)) (s : List Byte) : List Byte :=
  match rks.reverse with
  | [] => s
  | k :: ks => decRounds ks (xorBytes s k)

/-- The tweak of the next block of a data unit: times x in GF(2^128), little-endian. -/
def nextTweak (t : Nat) : Nat :=
  let u := (t * 2) % 2 ^ 128
  if t / 2 ^ 127 % 2 = 1 then u ^^^ 0x87 else u

/-- Run a block function over the blocks of a line, each whitened with its tweak. -/
def xtsBlocks (f : List Byte → List Byte) : Nat → List (List Byte) → List Byte
  | _, [] => []
  | t, b :: bs =>
    let tb := bytesLE 16 t
    xorBytes (f (xorBytes b tb)) tb ++ xtsBlocks f (nextTweak t) bs

/-- The first tweak of the line with number `line` (R262: physical address bits 51:6). -/
def firstTweak (tweakKey : List Byte) (line : Nat) : Nat :=
  ofBytesLE (encBlock (roundKeys tweakKey) (bytesLE 16 line))

/-- XTS encryption of a 64-byte line. -/
def xtsEnc (dataKey tweakKey : List Byte) (line : Nat) (bytes : List Byte) : List Byte :=
  let rks := roundKeys dataKey
  xtsBlocks (encBlock rks) (firstTweak tweakKey line) (chunks 16 4 bytes)

/-- XTS decryption of a 64-byte line. -/
def xtsDec (dataKey tweakKey : List Byte) (line : Nat) (bytes : List Byte) : List Byte :=
  let rks := roundKeys dataKey
  xtsBlocks (decBlock rks) (firstTweak tweakKey line) (chunks 16 4 bytes)

end Sys2Proof.Aes
end

