-- ==== Sys2Proof/Machine/Phys.lean ====
section
/-!
DEFINITION. Machine/Phys.lean: the physical map (R243), memory encryption (R262, R360), poisoned lines (R312), marks on
on-chip words (R403), and the L1 (R247).
-/

namespace Sys2Proof.Machine

open Sys2Proof

/-- The regions of the physical map (R243). -/
inductive Region where
  | hbm
  | host
  | peer (p : Nat)
  | window (core off : Nat)
  | hole
  deriving DecidableEq, Repr

/-- The region of a physical address (R243). -/
def regionOf (pa : Nat) : Region :=
  if pa < 0x18000000000 then (if hbmOk pa 1 then .hbm else .hole)
  else if pa < 0x4000000000000 then .hole
  else if pa < 0x8000000000000 then .host
  else if pa < winBase then .peer ((pa - 0x8000000000000) / 0x20000000000)
  else if pa < winBase + 0x60000000 then .window ((pa - winBase) / 0x800000) ((pa - winBase) % 0x800000)
  else .hole

/-- A virtual or physical address lies in the on-chip window region (R245). -/
def inWindow (a : Nat) : Bool := decide (winBase ≤ a) && decide (a < winBase + 0x60000000)

/-- The die whose HBM holds a line (R244). -/
def hbmDie (pa : Nat) : Nat := pa / 0x2000000000 / 3

/-- The two keys of a READY slot (R359). -/
def State.keys? (s : State) (slot : Nat) : Option (List Byte × List Byte) :=
  let k := Tab.getD s.sec.slots slot KeySlot.reset
  if k.state = 1 then some (k.data, k.tweak) else none

/-- The plaintext of the 64-byte line that holds `pa`, under a key slot (R262). -/
def State.plainLine (s : State) (data tweak : List Byte) (line : Nat) : List Byte :=
  Aes.xtsDec data tweak line (s.mem.read (64 * line) 64)

/-- Bytes of HBM or host memory through key slot `key`: slot 0 is plaintext, a slot that is not READY reads zero
(R262, R360). -/
def State.readKey (s : State) (key pa n : Nat) : List Byte :=
  if key = 0 then s.mem.read pa n
  else match s.keys? key with
    | none => List.replicate n 0#8
    | some (d, t) =>
      let lo := pa / 64
      let lines := (pa + n - 1) / 64 + 1 - lo
      let all := ((List.range lines).map fun i => s.plainLine d t (lo + i)).flatten
      (all.drop (pa % 64)).take n

/-- Replace the bytes of a list from position `i` on. -/
def patch (old : List Byte) (i : Nat) (new : List Byte) : List Byte :=
  old.take i ++ new ++ old.drop (i + new.length)

/-- The memory after bytes are stored through keys, line by line. -/
def writeLines (d t : List Byte) : Nat → Memory → Nat → List Byte → Memory
  | 0, m, _, _ => m
  | n + 1, m, pa, bs =>
    if bs.isEmpty then m
    else
      let line := pa / 64
      let room := 64 - pa % 64
      let plain := Aes.xtsDec d t line (m.read (64 * line) 64)
      let m' := m.write (64 * line) (Aes.xtsEnc d t line (patch plain (pa % 64) (bs.take room)))
      writeLines d t n m' (pa + room) (bs.drop room)

/-- The lines of HBM that a write covers whole lose their poison (R312). -/
def State.unpoison (s : State) (pa n : Nat) : State :=
  let whole (l : Nat) : Bool := decide (pa ≤ 128 * l) && decide (128 * l + 128 ≤ pa + n)
  { s with poison := s.poison.filter fun l => !(whole l), sliceBad := s.sliceBad.filter fun p => !(whole p.1) }

/-- Store bytes to HBM or host memory through key slot `key`. A slot that is not READY discards them, and no mark of
poison goes (R262, R360). -/
def State.writeKey (s : State) (key pa : Nat) (bs : List Byte) : State :=
  if key = 0 then { s.unpoison pa bs.length with mem := s.mem.write pa bs }
  else match s.keys? key with
    | none => s
    | some (d, t) => { s.unpoison pa bs.length with mem := writeLines d t (bs.length / 64 + 2) s.mem pa bs }

/-- A line that overlaps the range is poisoned (R312). -/
def State.poisoned (s : State) (pa n : Nat) : Bool :=
  s.poison.any fun l => decide (128 * l < pa + n) && decide (pa < 128 * l + 128)

/-- A sync-engine line that overlaps the range is poisoned (R178). -/
def State.syncPoisoned (s : State) (pa n : Nat) : Bool :=
  s.syncBad.any fun l => decide (128 * l < pa + n) && decide (pa < 128 * l + 128)

/-- A key slot encrypts or is slot 0: an access through any other reads zero and writes nothing (R360). -/
def State.keyLive (s : State) (key : Nat) : Bool := key == 0 || (s.keys? key).isSome

/-- An access through a key slot meets a poisoned line; through one that is not READY it reads zero without a fault (R312,
R360). -/
def State.badFor (s : State) (key pa n : Nat) : Bool := s.keyLive key && s.poisoned pa n

/-- An access through a key slot meets a poisoned line of a sync engine (R178, R360). -/
def State.syncFor (s : State) (key pa n : Nat) : Bool := s.keyLive key && s.syncPoisoned pa n

/-- The lowest address of a range that lies in one of the units `us` of `size` bytes; its start where none does. -/
def firstIn (us : List Nat) (size pa n : Nat) : Nat :=
  match (us.filter fun u => decide (size * u < pa + n) && decide (pa < size * u + size)).map fun u => max pa (size * u) with
  | [] => pa
  | a :: t => t.foldl min a

/-- The address of the first bad data that an access to HBM meets: in a poisoned line, or in one of a sync engine. -/
def State.firstBad (s : State) (pa n : Nat) : Nat := firstIn (s.poison ++ s.syncBad) 128 pa n

/-! ## On-chip memory (scratchpad, accumulator memory, B-stack) -/

/-- A word that overlaps the range is marked (R403). -/
def State.marked (s : State) (pa n : Nat) : Bool :=
  s.badWord.any fun w => decide (4 * w < pa + n) && decide (pa < 4 * w + 4)

/-- A write of the range merges into a marked word that it does not cover (R403). -/
def State.mergesMarked (s : State) (pa n : Nat) : Bool :=
  s.badWord.any fun w => decide (4 * w < pa + n) && decide (pa < 4 * w + 4)
    && !(decide (pa ≤ 4 * w) && decide (4 * w + 4 ≤ pa + n))

/-- The address of the first bad data in a range of on-chip memory. -/
def State.firstMark (s : State) (pa n : Nat) : Nat := firstIn s.badWord 4 pa n

/-- Store on-chip bytes; marked words that are covered lose their marks (R403). -/
def State.writeChip (s : State) (pa : Nat) (bs : List Byte) : State :=
  { s with mem := s.mem.write pa bs,
           badWord := s.badWord.filter fun w => !(decide (pa ≤ 4 * w) && decide (4 * w + 4 ≤ pa + bs.length)) }

/-- Set a range of on-chip memory to zero. -/
def State.clearChip (s : State) (pa n : Nat) : State :=
  { s with mem := s.mem.clear pa n,
           badWord := s.badWord.filter fun w => !(decide (pa ≤ 4 * w) && decide (4 * w + 4 ≤ pa + n)) }

/-- A 32-bit word of on-chip memory. -/
def State.word (s : State) (pa : Nat) : Nat := s.mem.readNat pa 4

/-! ## The L1 (R247) -/

/-- Every line of a core's L1 leaves it. -/
def State.flushL1 (s : State) (core : Nat) : State := s.modCore core fun c => { c with lines := [] }

/-- One line leaves a core's L1. -/
def State.dropLine (s : State) (core pa : Nat) : State :=
  s.modCore core fun c => { c with lines := Tab.del c.lines (pa / 128) }

/-- The lines of a range leave a core's L1. -/
def State.dropLines (s : State) (core pa n : Nat) : State :=
  s.modCore core fun c => { c with lines := c.lines.filter fun l =>
    !(decide (pa < 128 * l.1 + 128) && decide (128 * l.1 < pa + n)) }

/-- What an acquire at a scope does to the L1 of its core: `.dist` and wider empty it (R247). -/
def State.acquireL1 (s : State) (core scope : Nat) : State := if 2 ≤ scope then s.flushL1 core else s

/-- Lines that an L1 of 128 KiB holds (R1). -/
def l1Lines : Nat := 1024

/-- A line comes into an L1. From a full one another line leaves: which, the spec does not say, so `pick` is a free value
(log 2). -/
def lineIn (lines : Tab Line) (pick n : Nat) (l : Line) : Tab Line :=
  if (Tab.at? lines n).isSome || lines.length < l1Lines then Tab.put lines n l
  else Tab.put (lines.eraseIdx (pick % lines.length)) n l

/-- A core's L1 fetches the line of an address under a key slot (R247). -/
def State.fetchLine (s : State) (core key pa : Nat) : State :=
  let n := pa / 128
  let l : Line := { key := key, bytes := s.readKey key (128 * n) 128 }
  { s.modCore core (fun c => { c with lines := lineIn c.lines (Config.freePick s.tick) n l }) with tick := s.tick + 1 }

/-- The bytes that a plain load of HBM returns, and the L1 after it: a line that is present under the same key slot
serves it, any other is fetched and kept. Through a slot that is not READY every byte is 0, and nothing is kept (R360). -/
def State.loadCached (s : State) (core key pa n : Nat) : List Byte × State :=
  if !(s.keyLive key) then (List.replicate n 0#8, s)
  else match Tab.at? (s.core core).lines (pa / 128) with
    | some l =>
      if l.key = key then ((l.bytes.drop (pa % 128)).take n, s) else (s.readKey key pa n, s.fetchLine core key pa)
    | none => (s.readKey key pa n, s.fetchLine core key pa)

/-- Store through the L1 of a core: its copy is updated when it is tagged with the same slot, and dropped otherwise. The
copy takes the whole aligned words of 8 bytes that the store meets, so that no later load finds one in part (R170). A slot
that is not READY discards the store (R360). -/
def State.storeThrough (s : State) (core key pa : Nat) (bs : List Byte) : State :=
  if !(s.keyLive key) then s
  else
    let s' := s.writeKey key pa bs
    let line := pa / 128
    let lo := pa / 8 * 8
    let now := s'.readKey key lo ((pa + bs.length + 7) / 8 * 8 - lo)
    match Tab.at? (s'.core core).lines line with
    | some l =>
      s'.modCore core fun c =>
        { c with lines := if l.key = key then Tab.put c.lines line { l with bytes := patch l.bytes (lo % 128) now }
                          else Tab.del c.lines line }
    | none => s'

end Sys2Proof.Machine
end

