-- ==== Sys2Proof/Machine/Walk.lean ====
section
/-!
DEFINITION. Machine/Walk.lean: translation (R245, R251 to R256, R262, R362, R363).
-/

namespace Sys2Proof.Machine

open Sys2Proof

/-! Cause codes (R25). -/
def cIllop : Cause := 0x01
def cFetchAlign : Cause := 0x02
def cNameFault : Cause := 0x03
def cNameLive : Cause := 0x04
def cPendRead : Cause := 0x05
def cLease : Cause := 0x06
def cVsExhaust : Cause := 0x07
def cFrameFault : Cause := 0x08
def cMemFault : Cause := 0x09
def cProt : Cause := 0x0A
def cAlign : Cause := 0x0B
def cBkpt : Cause := 0x10
def cStep : Cause := 0x11
def cWatch : Cause := 0x12
def cSigFault : Cause := 0x13
def cPoison : Cause := 0x14
def cBinOrphan : Cause := 0x15
def cScrubErr : Cause := 0x16

/-- What an access wants of a page (R254); stores, atomics and RED write. -/
inductive Way where
  | read | write | fetch
  deriving DecidableEq, Repr

/-- Outcomes of a translation. -/
inductive Xlat where
  | ok (p : Place)
  | fault (c : Cause)
  | poison                  -- a page table entry in a poisoned line (R312)
  deriving DecidableEq, Repr

/-- Outcomes of a walk. -/
inductive Walk where
  | entry (e : TlbEntry)
  | fault (c : Cause)
  | poison
  deriving DecidableEq, Repr

/-- The owner of a resource, if it is not FREE (R361). -/
def State.ownerOf (s : State) (r : Res) : Option (Option Nat) :=
  (s.sec.owned.find? fun o => o.res == r).map ResOwn.owner

/-- The key slot under which an agent that uses no page table entry reaches a byte of HBM for a context: slot 0 in a FREE
frame (R370), else the context's (R262). -/
def State.walkKey (s : State) (ctx pa : Nat) : Nat :=
  match s.ownerOf (.frame (pa / 65536)) with
  | none => 0
  | some _ => (s.ctx ctx).keyslot.toNat

/-- The frame that holds a byte of HBM is RELEASING: the scrub engine alone reaches it (R363). -/
def State.releasing (s : State) (pa : Nat) : Bool := s.ownerOf (.frame (pa / 65536)) == some none

/-- A page table entry (R256, R262, R370); `none` from a poisoned line. DESIGN CHOICE: in a RELEASING frame a walk finds V = 0
(log 92). -/
def State.readPte (s : State) (ctx pa : Nat) : Option DWord :=
  if s.releasing pa then some 0
  else if s.badFor (s.walkKey ctx pa) pa 8 then none
  else some (BitVec.ofNat 64 (ofBytesLE (s.readKey (s.walkKey ctx pa) pa 8)))

/-- Bits 51:16 of an entry as an address. -/
def pteAddr (e : DWord) : Nat := fld e 51 16 * 65536

/-- A table entry names the next table, or why it does not (R252). -/
def tableNext (e : DWord) : Except Cause Nat :=
  if fld e 0 0 = 0 then .error cMemFault
  else if fld e 63 52 ≠ 0 ∨ fld e 15 1 ≠ 0 then .error cMemFault
  else if !(hbmOk (pteAddr e) 65536) then .error cMemFault
  else .ok (pteAddr e)

/-- Bytes of a page by its SIZE code (R253). -/
def pageBytes (size : Nat) : Nat :=
  match size with
  | 0 => 0x10000
  | 1 => 0x200000
  | _ => 0x2000000

/-- A leaf entry gives a translation of `va`, or a fault (R253, R254). MIG is set on no page while the promotion engine
is not working on it but by software, and a promotion here is one step. -/
def leafEntry (ctx va : Nat) (e : DWord) : Except Cause TlbEntry :=
  let size := fld e 5 4
  let bytes := pageBytes size
  let frame := pteAddr e
  if fld e 0 0 = 0 then .error cMemFault
  else if fld e 63 52 ≠ 0 ∨ fld e 6 6 ≠ 0 ∨ size = 3 ∨ frame % bytes ≠ 0 then .error cMemFault
  else match regionOf frame with
    | .hole => .error cMemFault
    | .window _ _ => .error cMemFault
    | _ =>
      if fld e 7 7 = 1 then .error cMemFault
      else .ok { ctx := ctx, va := va / bytes * bytes, size := bytes, frame := frame, key := fld e 15 9,
                 user := fld e 3 3 == 1, fetch := fld e 2 2 == 1, write := fld e 1 1 == 1 }

/-- Physical address of the root entry, middle entry and leaf entry of a virtual address (R252). -/
def rootIx (va : Nat) : Nat := va / 2 ^ 42 % 1024
def midIx (va : Nat) : Nat := va / 2 ^ 29 % 8192
def leafIx (va : Nat) : Nat := va / 2 ^ 16 % 8192

/-- A walk of three levels (R252). The address of the leaf entry is given too. -/
def State.walkTo (s : State) (ctx va : Nat) : Except (Option Cause) Nat :=
  let root := (s.ctx ctx).root
  if !(hbmOk root 8192) then .error (some cMemFault)
  else match s.readPte ctx (root + 8 * rootIx va) with
    | none => .error none
    | some e1 => match tableNext e1 with
      | .error c => .error (some c)
      | .ok mid => match s.readPte ctx (mid + 8 * midIx va) with
        | none => .error none
        | some e2 => match tableNext e2 with
          | .error c => .error (some c)
          | .ok leaf => .ok (leaf + 8 * leafIx va)

/-- A whole walk (R252 to R254). -/
def State.walk (s : State) (ctx va : Nat) : Walk :=
  match s.walkTo ctx va with
  | .error none => .poison
  | .error (some c) => .fault c
  | .ok pa => match s.readPte ctx pa with
    | none => .poison
    | some e => match leafEntry ctx va e with
      | .error c => .fault c
      | .ok t => .entry t

/-- A TLB's entry for an address of a context. -/
def tlbFind (es : List TlbEntry) (ctx va : Nat) : Option TlbEntry :=
  es.find? fun e => e.ctx == ctx && decide (e.va ≤ va) && decide (va < e.va + e.size)

/-- The frame that holds a physical address may be used by the context (R254, R362, R363). -/
def State.frameOk (s : State) (ctx pa : Nat) : Bool :=
  match s.ownerOf (.frame (pa / 65536)) with
  | some (some c) => c == ctx
  | some none => false
  | none => !(s.ctx ctx).prot

/-- The key slot of a frame that no page table entry names: its owner's, or 0 (R262, R370); `none` for a RELEASING frame. -/
def State.frameKey (s : State) (pa : Nat) : Option Nat :=
  match s.ownerOf (.frame (pa / 65536)) with
  | none => some 0
  | some none => none
  | some (some c) => some (s.ctx c).keyslot.toNat

/-- A context other than `ctx`, one that satisfies `p`, holds the slot (R359). -/
def State.slotShared (s : State) (ctx slot : Nat) (p : Ctx → Bool) : Bool :=
  s.ctxs.any fun q => q.1 != ctx && q.2.keyslot.toNat == slot && p q.2

/-- The context's own slot assignment keeps the rules of R359: a protected context holds a slot that GEN filled and that
no other context holds; no other context holds such a slot. -/
def State.slotRules (s : State) (ctx : Nat) : Bool :=
  let x := s.ctx ctx
  let k := x.keyslot.toNat
  if x.prot then k != 0 && (Tab.getD s.sec.slots k KeySlot.reset).gen && !(s.slotShared ctx k fun _ => true)
  else k == 0 || !(s.slotShared ctx k Ctx.prot)

/-- The KEY of a page is allowed (R262). -/
def State.keyOk (s : State) (ctx key : Nat) (r : Region) : Bool :=
  let x := s.ctx ctx
  s.slotRules ctx &&
  match r with
  | .peer _ => key == 0
  | _ => if x.prot then key == x.keyslot.toNat else key == 0 || key == x.keyslot.toNat

/-- The checks that follow the walk, in the order of R254, for `n` bytes at `va`. -/
def State.checkEntry (s : State) (ctx : Nat) (priv : BitVec 2) (way : Way) (va n : Nat) (e : TlbEntry) : Xlat :=
  let pa := e.frame + (va - e.va)
  if (way == .write && !e.write) || (way == .fetch && !e.fetch) || (priv == 0 && !e.user) then .fault cProt
  else if !(s.keyOk ctx e.key (regionOf e.frame)) || !(s.frameOk ctx e.frame) || !(s.frameOk ctx pa) then .fault cProt
  else match regionOf pa with
    | .hbm => if hbmOk pa n then .ok { pa := pa, key := e.key } else .fault cMemFault
    | .hole => .fault cMemFault
    | .window _ _ => .fault cMemFault
    | _ => .ok { pa := pa, key := e.key }

/-- Capacity of a core TLB and of a last-level TLB (R255). What leaves a full TLB: the oldest entry. DESIGN CHOICE
(log 2). -/
def tlbKeep (cap : Nat) (e : TlbEntry) (es : List TlbEntry) : List TlbEntry := (e :: es).take cap

/-- Put a translation into the TLB of a core and the last-level TLB of its die (R255). -/
def State.fillTlb (s : State) (core : Option Nat) (die : Nat) (e : TlbEntry) : State :=
  let s1 := match core with
    | some k => s.modCore k fun c => { c with tlb := tlbKeep 64 e c.tlb }
    | none => s
  { s1 with lltlb := Tab.put s1.lltlb die (tlbKeep 16384 e (Tab.getD s1.lltlb die [])) }

/-- The translation of an address that a core TLB or the last-level TLB of a die holds (R255). -/
def State.tlbHit (s : State) (core : Option Nat) (die ctx va : Nat) : Option TlbEntry :=
  match core.bind fun k => tlbFind (s.core k).tlb ctx va with
  | some e => some e
  | none => tlbFind (Tab.getD s.lltlb die []) ctx va

/-- Translate `n` bytes at `va` for a context (R254, R255). `core`: the core whose TLB is used, `none` for an engine. -/
def State.translate (s : State) (core : Option Nat) (die ctx : Nat) (priv : BitVec 2) (way : Way) (va n : Nat) :
    Xlat × State :=
  if inWindow va then (.ok { pa := va, key := 0 }, s)
  else match s.tlbHit core die ctx va with
  | some e => (s.checkEntry ctx priv way va n e, s)
  | none => match s.walk ctx va with
    | .fault c => (.fault c, s)
    | .poison => (.poison, s)
    | .entry e => match s.checkEntry ctx priv way va n e with
      | .ok p => (.ok p, s.fillTlb core die e)
      | r => (r, s)

/-- The core's memories serve the context: no other owns the core, and it is not RELEASING (R362, R363). -/
def State.coreServes (s : State) (ctx core : Nat) : Bool :=
  match s.ownerOf (.core core) with
  | none => true
  | some o => o == some ctx

/-- The context has a gang resident on the core (R246). -/
def State.ctxOnCore (s : State) (ctx core : Nat) : Bool :=
  (s.gangsOn core).any fun g => match s.gang? g with
    | some x => x.ctx == ctx
    | none => false

/-- An on-chip window as an agent that is no crew reaches it (R245, R246): the B-stack of a core that holds a gang of the
context. DESIGN CHOICE: it has no gang, so no scratchpad, and is below steward level there (log 76). -/
def State.sysWindow (s : State) (ctx va n : Nat) : Xlat :=
  let k := (va - winBase) / 0x800000
  let off := (va - winBase) % 0x800000
  if 0x400000 ≤ off ∧ off + n ≤ 0x800000 then
    (if s.coreServes ctx k && s.ctxOnCore ctx k then .ok ⟨va, 0⟩ else .fault cProt)
  else if 0x100000 ≤ off ∧ off + n ≤ 0x140000 then .fault cProt
  else .fault cMemFault

/-- Translation by an agent of the device that has no TLB of its own: the hoist core, the headframe, the mailbox
service (R245, R263, R270, R330). It acts at steward level. -/
def State.translateSys (s : State) (ctx : Nat) (way : Way) (va n : Nat) : Xlat :=
  if inWindow va then s.sysWindow ctx va n
  else match s.walk ctx va with
    | .fault c => .fault c
    | .poison => .poison
    | .entry e => s.checkEntry ctx 2 way va n e

/-- The place under the key slot of the context that owns the page (R262): a peer's pages have slot 0. -/
def State.ownPlace (s : State) (ctx : Nat) (p : Place) : Place :=
  match regionOf p.pa with
  | .hbm => { p with key := (s.ctx ctx).keyslot.toNat }
  | .host => { p with key := (s.ctx ctx).keyslot.toNat }
  | _ => p

/-- A request to host or peer memory can leave the device (R392, R396, R397). -/
def State.reachable (s : State) (r : Region) : Bool :=
  match r with
  | .host => s.net.host
  | .peer p =>
    decide (s.net.id.toNat < 1016) &&
    (List.range 18).any fun l => (Tab.getD s.net.route p 0#18).getLsbD l && (Tab.getD s.net.links l Link.reset).up
  | _ => true

/-- Physical offset within a peer's own map of an address in its window (R243, R396). -/
def peerOff (pa : Nat) : Nat := (pa - 0x8000000000000) % 0x20000000000

/-- A request of this device for `n` bytes is answered with success: it can leave the device, a peer finds it in its
populated HBM (R396), and no answer of R392 stands against its lines. -/
def State.answers (s : State) (pa n : Nat) : Bool :=
  let r := regionOf pa
  let outBad := s.outBad.any fun l => decide (128 * l < pa + n) && decide (pa < 128 * l + 128)
  match r with
  | .host => s.reachable r && !outBad
  | .peer _ => s.reachable r && hbmOk (peerOff pa) n && !outBad
  | _ => true

/-- The link that carries a request: its KIND and INST (R396, R402). -/
def State.linkOf (s : State) (r : Region) : Nat × Nat :=
  match r with
  | .peer p =>
    let l := ((List.range 18).find? fun l =>
      (Tab.getD s.net.route p 0#18).getLsbD l && (Tab.getD s.net.links l Link.reset).up).getD 0
    (0x0D, instOf 4 l)
  | _ => (0x0B, instOf 4 0)

/-- Translations that satisfy `p` leave every TLB of the device (R185, R251). -/
def State.purgeTlb (s : State) (p : TlbEntry → Bool) : State :=
  { s with cores := Tab.mapV s.cores fun _ c => { c with tlb := c.tlb.filter fun e => !p e },
           lltlb := Tab.mapV s.lltlb fun _ es => es.filter fun e => !p e }

/-- A record of CLASS 0x05 for a request that met R392, with its line; `b` says whose request it was (R309, R323). -/
def State.linkRecord (s : State) (b : Rec) (r : Region) (pa : Nat) : State :=
  let l := s.linkOf r
  s.record { b with cls := 0x05, kind := l.1, inst := l.2, addr := pa / 128 * 128 }

/-- The address of the first line of a range whose request is not answered with success. -/
def State.firstOut (s : State) (pa n : Nat) : Nat :=
  let starts := (List.range (n / 128 + 2)).map fun i => max pa (128 * (pa / 128 + i))
  (starts.find? fun a => decide (a < pa + n) && !(s.answers a 1)).getD pa

/-- The KIND and INST of the unit that holds a poisoned line of HBM: the L2 slice that held its bad data, or the HBM stack
(R402). -/
def State.lineUnit (s : State) (pa : Nat) : Nat × Nat :=
  match Tab.at? s.sliceBad (pa / 128) with
  | some i => (0x07, i)
  | none => (0x09, stackInst pa)

/-- The KIND and INST of the unit that delivered bad data from a physical address: what holds its line, or the link (R392). -/
def State.badUnit (s : State) (pa : Nat) : Nat × Nat :=
  match regionOf pa with
  | .host => s.linkOf .host
  | .peer p => s.linkOf (.peer p)
  | _ => s.lineUnit pa

/-- The physical addresses of the page table entries that a walk of `va` reads (R252). -/
def State.walkPath (s : State) (ctx va : Nat) : List Nat :=
  let a1 := (s.ctx ctx).root + 8 * rootIx va
  a1 :: match s.readPte ctx a1 with
  | none => []
  | some e1 => match tableNext e1 with
    | .error _ => []
    | .ok mid =>
      let a2 := mid + 8 * midIx va
      a2 :: match s.readPte ctx a2 with
      | none => []
      | some e2 => match tableNext e2 with
        | .error _ => []
        | .ok leaf => [leaf + 8 * leafIx va]

/-- The physical address of the poisoned page table entry that a walk of `va` meets. -/
def State.badPte (s : State) (ctx va : Nat) : Nat := (s.walkPath ctx va).getLastD 0

/-! ## Canaries met on the way (R317, R318) -/

/-- The units beyond the core and the L2 that an access to a physical address passes: its HBM stack, or the link. -/
def State.farUnits (s : State) (pa : Nat) (writes : Bool) : List Passed :=
  match regionOf pa with
  | .hbm => [(0x09, stackInst pa, none)]
  | .host => [(0x0B, instOf 4 0, none)]
  | .peer p => [(0x0D, (s.linkOf (.peer p)).2, if writes then some (3, 4) else none)]
  | _ => []

/-- A walk reads its entries. -/
def State.passWalk (s : State) (ctx va : Nat) : State :=
  if inWindow va then s
  else (s.walkPath ctx va).foldl (fun t a => t.passUnits (some ctx) a (t.farUnits a false)) s

/-- The device's own agents access a range: the walk, and the units that hold it. -/
def State.passSys (s : State) (ctx : Nat) (way : Way) (va n : Nat) : State :=
  let t := s.passWalk ctx va
  match t.translateSys ctx way va n with
  | .ok p => t.passUnits (some ctx) p.pa (t.farUnits p.pa (way == .write))
  | _ => t

/-- Translation for the device's own agents; `own`: under the key slot of the context and not the entry's (R262: ring,
arrival log and spill area). -/
def State.xlatSys (s : State) (own : Bool) (ctx : Nat) (way : Way) (va n : Nat) : Xlat :=
  match s.translateSys ctx way va n with
  | .ok p => .ok (if own then s.ownPlace ctx p else p)
  | r => r

/-- Read bytes for an agent of the device that has no TLB: `none` with the cause where the read fails, POISON for bad
data or a request that meets R392. -/
def State.readSys (s : State) (own : Bool) (ctx va n : Nat) : Except Cause (List Byte) :=
  match s.xlatSys own ctx .read va n with
  | .fault c => .error c
  | .poison => .error cPoison
  | .ok p =>
    if !(s.answers p.pa n) then .error cPoison
    else if s.badFor p.key p.pa n || s.syncFor p.key p.pa n || (inWindow p.pa && s.marked p.pa n) then .error cPoison
    else .ok (s.readKey p.key p.pa n)

/-- The bytes of a range that may cross pages, read as `readSys` reads, in pieces that cross none. -/
def readPieces (s : State) (ctx : Nat) : Nat → Nat → Nat → Except (Cause × Nat) (List Byte)
  | 0, _, _ => .ok []
  | fuel + 1, va, n =>
    if n = 0 then .ok []
    else
      let k := min n (0x10000 - va % 0x10000)
      match s.readSys false ctx va k with
      | .error c => .error (c, va)
      | .ok bs => match readPieces s ctx fuel (va + k) (n - k) with
        | .error c => .error c
        | .ok rest => .ok (bs ++ rest)

/-- Read any range of a context's memory for the device's own agents. -/
def State.readRange (s : State) (ctx va n : Nat) : Except (Cause × Nat) (List Byte) :=
  readPieces s ctx (n / 0x10000 + 2) va n

/-- Store bytes that cross no page for the device's own agents. -/
def State.writeSys (s : State) (own : Bool) (ctx va : Nat) (bs : List Byte) : Except Cause State :=
  let n := bs.length
  match s.xlatSys own ctx .write va n with
  | .fault c => .error c
  | .poison => .error cPoison
  | .ok p =>
    if !(s.answers p.pa n) then .error cPoison
    else if inWindow p.pa then .ok (s.writeChip p.pa bs)
    else if s.syncFor p.key p.pa n then .error cPoison
    else if s.badFor p.key p.pa n && n < 128 then .error cPoison
    else .ok (s.writeKey p.key p.pa bs)

/-- A request of the device's own agents meets R392. -/
def State.unanswered (s : State) (ctx : Nat) (way : Way) (va n : Nat) : Bool :=
  match s.translateSys ctx way va n with
  | .ok p => !(s.answers p.pa n)
  | _ => false

/-- An access of the device's own agents that failed: the record of R392 where its request met that rule. -/
def State.noteSys (s : State) (ctx : Nat) (way : Way) (va n : Nat) : State :=
  match s.translateSys ctx way va n with
  | .ok p => if s.answers p.pa n then s else s.linkRecord (Rec.of (some ctx) 0 0 0) (regionOf p.pa) (s.firstOut p.pa n)
  | _ => s

/-- The physical address of the bad data that a read of the device's own agents met: a page table entry, or the first
bad line of the range. -/
def State.badSys (s : State) (ctx va n : Nat) : Nat :=
  match s.translateSys ctx .read va n with
  | .ok p =>
    if s.answers p.pa n then s.firstBad p.pa n else s.firstOut p.pa n
  | _ => s.badPte ctx va

end Sys2Proof.Machine
end

