-- ==== Sys2Proof/Machine/Spill.lean ====
section
/-!
DEFINITION. Machine/Spill.lean: mapping a page from a page pool (R184, R258), and the spill area: where its images lie, and
how the device writes and reads them (R82, R99, R286, R287).
-/

namespace Sys2Proof.Machine

open Sys2Proof

/-! ## Mapping a page (R184) -/

/-- Every L1 line of a range of memory is dropped. -/
def State.dropRange (s : State) (pa n : Nat) : State :=
  { s with cores := Tab.mapV s.cores fun _ c =>
      { c with lines := c.lines.filter fun l => !(decide (pa < 128 * l.1 + 128) && decide (128 * l.1 < pa + n)) } }

/-- Every byte of a frame reads 0 through a key slot (R184). -/
def State.zeroFrame (s : State) (key frame : Nat) : State :=
  let s1 := s.dropRange frame 65536
  if key = 0 then { s1.unpoison frame 65536 with mem := s1.mem.clear frame 65536 }
  else s1.writeKey key frame (List.replicate 65536 0#8)

/-- What a walk finds on its way to the leaf entry. -/
inductive Level where
  | next (pa : Nat)          -- base of the next table
  | absent
  | malformed
  | poison (pa : Nat)
  deriving DecidableEq, Repr

/-- The table that an entry names. -/
def State.levelAt (s : State) (ctx pa : Nat) : Level :=
  match s.readPte ctx pa with
  | none => .poison pa
  | some e =>
    if fld e 0 0 = 0 then .absent
    else match tableNext e with
      | .ok t => if s.releasing t then .malformed else .next t
      | .error _ => .malformed

/-- The page pool of a die (R258). -/
def State.poolOf (s : State) (die : Nat) : List Nat := Tab.getD s.frames die []

def State.setPool (s : State) (die : Nat) (l : List Nat) : State := { s with frames := Tab.put s.frames die l }

/-- Write a page table entry as a walk reads it (R262, R370). -/
def State.writePte (s : State) (ctx pa v : Nat) : State :=
  (s.dropRange pa 8).writeKey (s.walkKey ctx pa) pa (bytesLE 8 v)

/-- Outcome of mapping a page. -/
inductive MapRes where
  | mapped (s : State) (frame : Nat)
  | present (frame : Nat)
  | empty                    -- the pool does not hold the frames needed
  | malformed                -- the root or a table is malformed: the spec states no result
  | poison (pa : Nat)
  deriving DecidableEq, Repr

/-- Take the frames of a new page and of the tables that its walk lacks, `mid` and `leaf` where they exist, and write the
entries. The page reads 0 through the context's key slot, the tables as walks read them. DESIGN CHOICE: missing tables come
from the same pool (log 28). -/
def State.mapNew (s : State) (ctx die va attr : Nat) (mid leaf : Option Nat) : MapRes :=
  let key := (s.ctx ctx).keyslot.toNat
  let root := (s.ctx ctx).root
  let need := 1 + (if mid.isNone then 1 else 0) + (if leaf.isNone then 1 else 0)
  let pool := (s.poolOf die).filter fun f => s.ownerOf (.frame (f / 65536)) != some none
  if pool.length < need then .empty
  else
    let fs := pool.take need
    let frame := fs.headD 0
    let rest := fs.drop 1
    let s0 := (s.setPool die ((s.poolOf die).filter fun f => !fs.contains f)).zeroFrame key frame
    let s1 := rest.foldl (fun t f => t.zeroFrame (t.walkKey ctx f) f) s0
    let m := mid.getD (rest.headD 0)
    let l := leaf.getD (rest.getLastD 0)
    let s2 := if mid.isNone then s1.writePte ctx (root + 8 * rootIx va) (m + 1) else s1
    let s3 := if leaf.isNone then s2.writePte ctx (m + 8 * midIx va) (l + 1) else s2
    .mapped (s3.writePte ctx (l + 8 * leafIx va) (frame + 512 * key + 2 * attr + 1)) frame

/-- The frame of 64 KiB that a present leaf entry gives an address: for a larger page the one that holds it. -/
def leafFrame (e : DWord) (va : Nat) : Nat :=
  let bytes := pageBytes (fld e 5 4)
  pteAddr e + (if fld e 5 4 = 3 then 0 else va % bytes / 65536 * 65536)

/-- Map the page of 64 KiB that holds `va`, with attribute bits W, X, U, unless a present entry covers it. -/
def State.mapPage (s : State) (ctx die va attr : Nat) : MapRes :=
  let root := (s.ctx ctx).root
  if !(hbmOk root 8192) || s.releasing root then .malformed
  else match s.levelAt ctx (root + 8 * rootIx va) with
    | .poison p => .poison p
    | .malformed => .malformed
    | .absent => s.mapNew ctx die va attr none none
    | .next mid => match s.levelAt ctx (mid + 8 * midIx va) with
      | .poison p => .poison p
      | .malformed => .malformed
      | .absent => s.mapNew ctx die va attr (some mid) none
      | .next leaf => match s.readPte ctx (leaf + 8 * leafIx va) with
        | none => .poison (leaf + 8 * leafIx va)
        | some e => if fld e 0 0 = 1 then .present (leafFrame e va) else s.mapNew ctx die va attr (some mid) (some leaf)

/-! ## The spill area (R286) -/

/-! The image format is the device's own: DESIGN CHOICE (log 29). The B-stack of core k has 8 MiB at k * 8 MiB; the crews
and gangs of the context have 8 MiB each after those, by their area numbers. -/

/-- Where the B-stack of a core is saved. -/
def bstackVa (base core : Nat) : Nat := base + 0x800000 * core

/-- Where the image of a crew or gang lies. -/
def areaVa (base area : Nat) : Nat := base + 0x800000 * (192 + area)

/-- Where the stack entry of number `n` from the bottom lies, beyond the 32 in the crew (R82). -/
def stackVa (base area n : Nat) : Nat := areaVa base area + 0x400000 + 16 * n

/-- A stack entry as 16 bytes. -/
def StackEntry.bytes (e : StackEntry) : List Byte :=
  bytesLE 8 e.pc.toNat ++ bytesLE 4 e.mask.toNat ++ bytesLE 4 (match e.kind with
    | .join => 0
    | .deferred => 1)

/-- The area number of a new crew or gang of a context: the lowest that none has. -/
def State.freeArea (s : State) (ctx : Nat) : Nat :=
  let gs := s.gangs.filterMap fun p => if p.2.ctx = ctx then some p.2.area else none
  let cs := s.crews.filterMap fun p => if s.ctxOf p.2 = ctx then some p.2.area else none
  let used := gs ++ cs
  ((List.range (used.length + 1)).find? fun i => !used.contains i).getD 0

/-- The page of a spilled image, mapped on first touch from the pool of the core's die (R286). -/
def State.spillPage (s : State) (ctx core va : Nat) : Option State :=
  match s.mapPage ctx (dieOf core) va 1 with
  | .mapped t _ => some t
  | .present _ => some s
  | _ => none

/-- Write bytes into the spill area, page by page; an error where that fails, with what the failure leaves: the pages before,
and the record of a request that meets R392 (R286). -/
def spillPieces (ctx core : Nat) : Nat → State → Nat → List Byte → Except State State
  | 0, s, _, bs => if bs.isEmpty then .ok s else .error s
  | fuel + 1, s, va, bs =>
    if bs.isEmpty then .ok s
    else
      let k := min bs.length (0x10000 - va % 0x10000)
      match s.spillPage ctx core va with
      | none => .error s
      | some t => match t.writeSys true ctx va (bs.take k) with
        | .ok u => spillPieces ctx core fuel u (va + k) (bs.drop k)
        | .error _ => .error (t.noteSys ctx .write va k)

/-- Write bytes into the spill area of a context; an error: the spill failed. -/
def State.spillWrite (s : State) (ctx core va : Nat) (bs : List Byte) : Except State State :=
  if 2 ^ 52 < va + bs.length then .error s else spillPieces ctx core (bs.length / 0x10000 + 2) s va bs

/-- The bytes that the device wrote are found there again (R286). -/
def spillSame (s : State) (ctx : Nat) : Nat → Nat → List Byte → Bool
  | 0, _, bs => bs.isEmpty
  | fuel + 1, va, bs =>
    if bs.isEmpty then true
    else
      let k := min bs.length (0x10000 - va % 0x10000)
      (match s.readSys true ctx va k with
        | .ok b => b == bs.take k
        | .error _ => false) && spillSame s ctx fuel (va + k) (bs.drop k)

/-- No other agent has altered the image of `bs` at `va` (R286). -/
def State.spillIntact (s : State) (ctx va : Nat) (bs : List Byte) : Bool :=
  spillSame s ctx (bs.length / 0x10000 + 2) va bs

/-- The first page of a range that cannot be read for the device, and what is left of the range there. -/
def spillUnread (s : State) (ctx : Nat) : Nat → Nat → Nat → Option (Nat × Nat)
  | 0, _, _ => none
  | fuel + 1, va, n =>
    if n = 0 then none
    else
      let k := min n (0x10000 - va % 0x10000)
      match s.readSys true ctx va k with
      | .ok _ => spillUnread s ctx fuel (va + k) (n - k)
      | .error _ => some (va, k)

/-- The device reads an image of `n` bytes back: a request that meets R392 leaves its record (log 61). -/
def State.noteImage (s : State) (ctx va n : Nat) : State :=
  match spillUnread s ctx (n / 0x10000 + 2) va n with
  | none => s
  | some p => s.noteSys ctx .read p.1 p.2

/-! ## Images (R99, R286, R287) -/

/-- The contents and marks of a range. -/
def State.takeImage (s : State) (pa n : Nat) : Image :=
  { cells := s.mem.slice pa n,
    bad := (s.badWord.filter fun w => decide (pa ≤ 4 * w) && decide (4 * w < pa + n)).map fun w => w - pa / 4 }

/-- Put an image back, marks included. -/
def State.putImage (s : State) (pa n : Nat) (i : Image) : State :=
  let t := s.clearChip pa n
  { t with mem := t.mem.unslice pa n i.cells, badWord := t.badWord ++ i.bad.map fun w => w + pa / 4 }

def Image.zero : Image := { cells := [], bad := [] }

/-- An image as the device writes it: the lines of 64 bytes that are not all zero or hold a marked word, each with its
number and the marks of its 16 words. -/
def Image.bytes (i : Image) : List Byte :=
  let lines := (i.cells.map (fun (c : Nat × Byte) => c.1 / 64) ++ i.bad.map (· / 16)).eraseDups
  let marks (n : Nat) : Nat := ((List.range 16).map fun w => b2n (i.bad.contains (16 * n + w)) * 2 ^ w).sum
  bytesLE 4 lines.length ++ (lines.map fun n => bytesLE 2 n ++ bytesLE 2 (marks n) ++ i.cells.read (64 * n) 64).flatten

/-- The code of an entry's state in an image. -/
def EState.code (e : EState) : Nat :=
  match e with
  | .bound => 0
  | .pending => 1
  | .opened => 2
  | .leased => 3
  | .released => 4

/-- A spilled entry, with its number and state. -/
def entryBytes (n : Nat) (e : Entry) : List Byte :=
  bytesLE 2 n ++ bytesLE 1 e.st.code ++ bytesLE 1 (b2n e.gone) ++ bytesLE 4 e.fill.toNat ++ bytesLE 4 e.bad.toNat
    ++ bytesLE 4 e.tag ++ (e.lanes.toList.map fun w => bytesLE 4 w.toNat).flatten

def TrapSet.bytes (t : TrapSet) : List Byte :=
  bytesLE 8 t.epc.toNat ++ bytesLE 8 t.efpc.toNat ++ bytesLE 1 (b2n t.act) ++ bytesLE 1 t.prv.toNat
    ++ bytesLE 2 t.code.toNat ++ bytesLE 8 t.eaddr.toNat ++ bytesLE 4 t.em7.toNat

/-- The covered state of R18; of the stack the entries that stand in the crew. -/
def Arch.bytes (a : Arch) : List Byte :=
  bytesLE 8 a.pc.toNat ++ bytesLE 4 a.act.toNat ++ bytesLE 4 a.bb.toNat ++ bytesLE 4 a.sig.toNat ++ bytesLE 2 a.floor
    ++ bytesLE 2 a.lt.toNat ++ (a.scal.toList.map fun v => bytesLE 8 v.toNat).flatten
    ++ (a.masks.toList.map fun v => bytesLE 4 v.toNat).flatten
    ++ bytesLE 2 a.stack.length ++ ((a.stack.take 32).map StackEntry.bytes).flatten
    ++ bytesLE 2 a.names.length ++ (a.names.map fun p => bytesLE 1 p.1 ++ bytesLE 2 p.2.entry ++ bytesLE 1 p.2.count).flatten
    ++ bytesLE 2 a.tiles.length ++ (a.tiles.map fun p => bytesLE 1 p.1 ++ bytesLE 1 p.2).flatten

/-- The image of a crew that has left its core: the state of R9 and R102, its entries and its tiles. -/
def Crew.bytes (x : Crew) : List Byte :=
  x.arch.bytes ++ bytesLE 4 x.dead.toNat ++ bytesLE 8 x.age.toNat ++ bytesLE 1 x.priv.toNat ++ bytesLE 1 (b2n x.deadsrc)
    ++ x.setU.bytes ++ x.setS.bytes ++ x.setW.bytes
    ++ (x.bkpc.toList.map fun v => bytesLE 8 v.toNat).flatten ++ bytesLE 1 x.bken.toNat ++ bytesLE 1 (b2n x.halt)
    ++ bytesLE 1 (b2n x.stepOn)
    ++ (match x.evsnap with
      | some e => bytesLE 8 e.pc.toNat ++ bytesLE 1 e.index ++ bytesLE 8 e.count
      | none => [])
    ++ bytesLE 2 x.image.length ++ (x.image.map fun p => entryBytes p.1 p.2).flatten
    ++ (x.tileImg.map fun p => bytesLE 1 p.1 ++ p.2.1.bytes).flatten

/-- A declared bin's header. -/
def Bin.bytes (b : Bin) : List Byte :=
  bytesLE 1 (b2n b.auto + 2 * b2n b.ready) ++ bytesLE 8 b.ovcnt ++ bytesLE 4 b.occ.toNat ++ bytesLE 4 b.toff ++ bytesLE 1 b.width
    ++ bytesLE 1 b.thresh ++ bytesLE 8 b.spc.toNat ++ bytesLE 8 b.fdp.toNat ++ bytesLE 8 b.ovp ++ bytesLE 8 b.rcnt.toNat

/-- The image of a gang that has left its core: the gang state of R13 with bins, barrier phases, timelines and statistics,
and its scratchpad. -/
def Gang.bytes (g : Gang) : List Byte :=
  let line (t : Timeline) : List Byte := bytesLE 8 t.issued ++ bytesLE 8 t.done
  bytesLE 8 g.gid ++ bytesLE 2 g.cede ++ (g.phases.toList.map (bytesLE 4)).flatten ++ bytesLE 8 g.wphit.toNat
    ++ (g.watch.toList.map fun w => bytesLE 4 w.base.toNat ++ bytesLE 4 w.lim.toNat ++ bytesLE 4 w.lanes.toNat
      ++ bytesLE 1 (b2n w.wr + 2 * b2n w.rd)).flatten
    ++ line g.copy ++ line g.gather ++ line g.coll
    ++ (g.stats.map fun p => bytesLE 1 p.1 ++ bytesLE 8 p.2.sat ++ bytesLE 8 p.2.flush ++ bytesLE 8 p.2.nan).flatten
    ++ (g.bins.map fun p => bytesLE 1 p.1 ++ p.2.bytes).flatten ++ g.image.bytes

/-- The image of a crew is written into its part of the spill area; an error where that fails. -/
def State.spillCrew (s : State) (c : Nat) : Except State State :=
  match s.crew? c with
  | none => .ok s
  | some x =>
    let ctx := s.ctxOf x
    (s.spillWrite ctx (s.coreOf x) (areaVa (s.ctx ctx).spill x.area) x.bytes).map fun t =>
      t.modCrew c fun y => { y with stamp := x.bytes }

/-- The images of crews are written, one after the other. -/
def spillCrews : List Nat → State → Except State State
  | [], s => .ok s
  | c :: cs, s => match s.spillCrew c with
    | .error t => .error t
    | .ok t => spillCrews cs t

/-- The image of a gang is written, and those of the crews that left with it. -/
def State.spillGang (s : State) (gk : Nat) (cs : List Nat) : Except State State :=
  match s.gang? gk with
  | none => .ok s
  | some g => match s.spillWrite g.ctx g.core (areaVa (s.ctx g.ctx).spill g.area) g.bytes with
    | .error t => .error t
    | .ok t => spillCrews cs (t.modGang gk fun y => { y with stamp := g.bytes })

/-- The whole B-stack of a core is saved for a context (R289); an error where the spill fails. -/
def State.saveBstack (s : State) (ctx core : Nat) : Except State State :=
  let i := s.takeImage (bstackPa core 0) 0x400000
  (s.spillWrite ctx core (bstackVa (s.ctx ctx).spill core) i.bytes).map fun t => t.modCtx ctx fun k =>
    { k with bsaves := (k.bsaves.filter fun b => b.core != core) ++ [{ core := core, cells := i, stamp := i.bytes }] }

/-- No other agent has altered the image of a gang. -/
def State.gangIntact (s : State) (g : Gang) : Bool :=
  s.spillIntact g.ctx (areaVa (s.ctx g.ctx).spill g.area) g.stamp

/-- No other agent has altered the image of a core's B-stack. -/
def State.bstackIntact (s : State) (ctx core : Nat) : Bool :=
  (s.ctx ctx).bsaves.all fun b => b.core != core || s.spillIntact ctx (bstackVa (s.ctx ctx).spill core) b.stamp

/-- No other agent has altered the image of a crew. -/
def State.crewIntact (s : State) (x : Crew) : Bool :=
  s.spillIntact (s.ctxOf x) (areaVa (s.ctx (s.ctxOf x)).spill x.area) x.stamp

/-- The images of a gang, of a core's B-stack and of a crew are read back. -/
def State.noteGangImage (s : State) (g : Gang) : State :=
  s.noteImage g.ctx (areaVa (s.ctx g.ctx).spill g.area) g.stamp.length

def State.noteBstack (s : State) (ctx core : Nat) : State :=
  ((s.ctx ctx).bsaves.filter fun b => b.core == core).foldl
    (fun t b => t.noteImage ctx (bstackVa (t.ctx ctx).spill core) b.stamp.length) s

def State.noteCrewImage (s : State) (x : Crew) : State :=
  s.noteImage (s.ctxOf x) (areaVa (s.ctx (s.ctxOf x)).spill x.area) x.stamp.length

end Sys2Proof.Machine
end

