-- ==== Sys2Proof/Machine/Ops.lean ====
section
/-!
DEFINITION. Machine/Ops.lean: the named operations over crews, names, value-store entries, barriers and memory that the
meanings share; taking a trap (R23), its return (R110), and the kill of a gang (R313).
-/

namespace Sys2Proof.Machine

open Sys2Proof

/-- Why an instruction stops before its end. -/
inductive Stop where
  | trap (cause : Cause) (addr : Nat) (lanes : Option Mask)   -- `none`: the effective mask (R23)
  | park (p : Park)
  | kill (kind inst addr : Nat)                               -- a consumed uncorrectable error (R305)
  | spill                                                     -- the spill area takes no more (R286)
  | gone                                                      -- the crew does not exist
  deriving DecidableEq, Repr

/-- The effects of an instruction: a state that is changed, and an early stop that keeps it. -/
abbrev M := EStateM Stop State

/-! ## Crew access -/

def getS : M State := fun s => .ok s s
def setS (s : State) : M Unit := fun _ => .ok () s
def modS (f : State → State) : M Unit := fun s => .ok () (f s)
def stop {α : Type} (k : Stop) : M α := fun s => .error k s

/-- The crew with key `c`. -/
def crewM (c : Nat) : M Crew := fun s =>
  match s.crew? c with
  | some x => .ok x s
  | none => .error .gone s

def modC (c : Nat) (f : Crew → Crew) : M Unit := modS fun s => s.modCrew c f
def modA (c : Nat) (f : Arch → Arch) : M Unit := modC c fun x => { x with arch := f x.arch }

/-- The gang of a crew. -/
def gangM (c : Nat) : M Gang := fun s =>
  match (s.crew? c).bind fun x => s.gang? x.gang with
  | some g => .ok g s
  | none => .error .gone s

/-- Raise a cause with EADDR 0 and the effective mask (R35). DEDUCED: an ILLOP for an operand's value, of a predicated SUSP,
EGATH or ESCAT, too gives m7 the effective mask of R23, not the ACTMASK of R55 (log 95). -/
def fault {α : Type} (cause : Cause) : M α := stop (.trap cause 0 none)

/-- Raise a cause with an address and lanes. -/
def faultAt {α : Type} (cause : Cause) (addr : Nat) (lanes : Mask) : M α := stop (.trap cause addr (some lanes))

/-- Raise `cause` unless `p` holds. -/
def check (p : Bool) (cause : Cause) : M Unit := if p then pure () else fault cause

def park {α : Type} (p : Park) : M α := stop (.park p)

/-- The INST of crew-state errors: the crew's core (R305). -/
def State.crewInst (s : State) (c : Nat) : Nat :=
  match s.crew? c with
  | some x => coreInst (s.coreOf x)
  | none => 0

/-- An item of crew state is used; a mark on it is consumed and kills the gang (R305, R403). -/
def useItem (c : Nat) (i : RegItem) : M Unit := do
  let x ← crewM c
  if x.marks.contains i then
    let s ← getS
    stop (.kill 0x0A (s.crewInst c) 0)

/-- An item of crew state is written whole; its mark goes (R403). -/
def Crew.heal (x : Crew) (i : RegItem) : Crew := { x with marks := x.marks.filter fun j => j != i }

/-! ## Scalars and masks (R9, R11) -/

/-- s0 to s62; s63 reads 0. -/
def Arch.scalar (a : Arch) (r : Nat) : DWord := if h : r < 63 then a.scal[r] else 0#64

/-- A write to s63 is discarded. -/
def Arch.setScalar (a : Arch) (r : Nat) (v : DWord) : Arch :=
  if h : r < 63 then { a with scal := a.scal.set r v } else a

/-- m0 reads ACTMASK. -/
def Arch.mask (a : Arch) (k : Nat) : Mask := if h : 1 ≤ k ∧ k ≤ 7 then a.masks[k - 1] else a.act

/-- m0 is not writable. -/
def Arch.setMask (a : Arch) (k : Nat) (v : Mask) : Arch :=
  if h : 1 ≤ k ∧ k ≤ 7 then { a with masks := a.masks.set (k - 1) v } else a

/-- The scalar of an operand code 0xC0 to 0xFF (R39). -/
def scalarNo (code : BitVec 8) : Nat := code.toNat - 0xC0

def readScalar (c : Nat) (code : BitVec 8) : M DWord := do
  useItem c (.scalar (scalarNo code))
  let x ← crewM c
  pure (x.arch.scalar (scalarNo code))

def writeScalar (c : Nat) (code : BitVec 8) (v : DWord) : M Unit :=
  modC c fun x => { x.heal (.scalar (scalarNo code)) with arch := x.arch.setScalar (scalarNo code) v }

def writeMask (c k : Nat) (v : Mask) : M Unit :=
  modC c fun x => { x.heal (.mask k) with arch := x.arch.setMask k v }

/-- The effective mask (R29) of a crew. -/
def Arch.emask (a : Arch) (h : Head) : Mask :=
  if h.msk = 0 then a.act
  else a.act &&& (if h.neg then ~~~ a.mask h.msk.toNat else a.mask h.msk.toNat)

def emask (c : Nat) (h : Head) : M Mask := do
  if h.msk ≠ 0 then useItem c (.mask h.msk.toNat)
  let x ← crewM c
  pure (x.arch.emask h)

/-! ## Dead lanes (R10, R310) -/

/-- Take lanes out of every mask of the checkpointed state (R10, R102). -/
def Arch.without (a : Arch) (dead : Mask) : Arch :=
  { a with act := a.act &&& ~~~ dead, bb := a.bb &&& ~~~ dead,
           stack := a.stack.map fun e => { e with mask := e.mask &&& ~~~ dead } }

/-- Kill lanes of a crew. -/
def Crew.killLanes (x : Crew) (m : Mask) : Crew := { x with dead := x.dead ||| m, arch := x.arch.without m }

/-! ## Entries of the value store -/

/-- held(c) of R14. -/
def heldOf (vs : Tab Entry) (c : Nat) : Nat := (vs.filter fun p => p.2.crew == c).length

/-- Entries of a crew in states bound, pending, open and leased (R94). -/
def needOf (vs : Tab Entry) (c : Nat) : Nat := (vs.filter fun p => p.2.crew == c && p.2.st != .released).length

/-- Entries whose crew has retired: linger of R14, all of the core or of one gang. -/
def State.linger (s : State) (core : Nat) (p : Entry → Bool) : Nat :=
  ((s.core core).vs.filter fun q => (s.crew? q.2.crew).isNone && p q.2).length

/-- max(FLOOR, held) of one resident crew. -/
def State.reserve (s : State) (core c : Nat) : Nat :=
  match s.crew? c with
  | some x => max x.arch.floor (heldOf (s.core core).vs c)
  | none => 0

/-- The cede pools of a core's gangs. -/
def State.cedes (s : State) (core : Nat) : Nat :=
  ((s.gangsOn core).map fun g => match s.gang? g with
    | some x => x.cede
    | none => 0).sum

/-- The free pool of a core (R14). -/
def State.freePool (s : State) (core : Nat) : Int :=
  4096 - ((s.residents core).map fun c => s.reserve core c).sum - s.cedes core - s.linger core fun _ => true

/-- total(g) of R94. -/
def State.gangTotal (s : State) (core g : Nat) : Nat :=
  (((s.residents core).filter fun c => match s.crew? c with
      | some x => x.gang == g
      | none => false).map fun c => s.reserve core c).sum
    + (match s.gang? g with
      | some x => x.cede
      | none => 0)
    + s.linger core fun e => e.gang == g

/-- avail(c) of R94. -/
def State.avail (s : State) (x : Crew) : Int :=
  let core := s.coreOf x
  match s.gang? x.gang with
  | some g => min (s.freePool core) ((g.vslim : Int) - s.gangTotal core x.gang)
  | none => 0

/-- The most entries that one crew of a gang may need: L(g), and never more than the 4,096 of a core (R25, R94). -/
def Gang.needLimit (g : Gang) : Nat := min 4096 g.vslim

/-- release(E) of R30: a mark at once where the checkpoint is older, otherwise the entry becomes free (R20). -/
def releaseEntry (x : Crew) (vs : Tab Entry) (e : Nat) : Tab Entry :=
  if x.acc.isEmpty && !x.hold then Tab.del vs e
  else match Tab.at? vs e with
    | some en => Tab.put vs e { en with st := .released, rel := x.seq }
    | none => vs

def modVs (c : Nat) (f : Tab Entry → Tab Entry) : M Unit := do
  let x ← crewM c
  modS fun s => s.modCore (s.coreOf x) fun k => { k with vs := f k.vs }

def vsM (c : Nat) : M (Tab Entry) := do
  let x ← crewM c
  let s ← getS
  pure (s.core (s.coreOf x)).vs

/-- The binding of a name and its entry, without reading (NAMEFAULT for an unbound name). -/
def lookup (c n : Nat) : M (Binding × Entry) := do
  useItem c (.name n)
  let x ← crewM c
  let vs ← vsM c
  match Tab.at? x.arch.names n with
  | none => fault cNameFault
  | some b => match Tab.at? vs b.entry with
    | none => fault cNameFault
    | some e => pure (b, e)

def setName (c n : Nat) (b : Binding) : M Unit := modA c fun a => { a with names := Tab.put a.names n b }
def unbind (c n : Nat) : M Unit := modA c fun a => { a with names := Tab.del a.names n }

/-- The state checks of `read` (R30). -/
def checkReadable (e : Entry) : M Unit :=
  match e.st with
  | .leased => fault cLease
  | .pending => fault cPendRead
  | .opened => fault cPendRead
  | _ => pure ()

/-- ESEQ for the instruction at a PC: the number that it took as an issued engine instruction, or 0 (R323). -/
def Crew.eseqAt (x : Crew) (pc : Addr) : Nat :=
  match x.eng.find? fun m => m.pc == pc with
  | some m => m.n
  | none => 0

/-- The instruction at a PC is not issued yet: what it took when it was issued before is no longer its number. -/
def Crew.dropEseq (x : Crew) (pc : Addr) : Crew := { x with eng := x.eng.filter fun m => m.pc != pc }

/-- Lanes whose bad slots an instruction consumes are killed, with one record (R310). -/
def consume (c e : Nat) (en : Entry) (use : Mask) : M Unit := do
  let x ← crewM c
  let m := en.bad &&& use &&& ~~~ x.dead
  if m ≠ 0 then
    modC c fun y => y.killLanes m
    modS fun s => s.record { Rec.of (some (s.ctxOf x)) 0x02 0x01 (coreInst (s.coreOf x)) with
      crew := s.crewId x, pc := x.ipc.toNat, eseq := x.eseqAt x.ipc, addr := e, mask := m.toNat }

/-- One count of a name is consumed; the last one unbinds it and releases its entry (R30). -/
def consumeCount (c n : Nat) (b : Binding) : M Unit := do
  if b.count ≠ 15 then
    if b.count ≤ 1 then
      let x ← crewM c
      unbind c n
      modVs c fun vs => releaseEntry x vs b.entry
    else setName c n { b with count := b.count - 1 }

/-- read(N) of R30; `use` are the lanes whose slots the instruction consumes (R310). -/
def readName (c n : Nat) (use : Mask) : M Lanes := do
  let (b, e) ← lookup c n
  checkReadable e
  consume c b.entry e use
  consumeCount c n b
  pure e.lanes

/-- The first free entry number (R15). -/
def freeEntry (vs : Tab Entry) : Option Nat := Tab.firstFree vs 4096 0

/-- One entry of alloc(N, C) (R31): the crew parks, asking for `k` entries, where it has no room (R94). -/
def allocOne (c count : Nat) (st : EState) (k n : Nat) : M Nat := do
  let s ← getS
  let y ← crewM c
  let vs ← vsM c
  if heldOf vs c ≥ y.arch.floor ∧ s.avail y ≤ 0 then park (.alloc k)
  match freeEntry vs with
  | none => park (.alloc k)
  | some e =>
    modVs c fun t => Tab.put t e
      { st := st, crew := c, gang := y.gang, lanes := Vector.replicate 32 0#32, fill := 0,
        bad := 0, birth := y.seq, rel := 0, tag := 0, gone := false }
    modC c fun z => { z.heal (.name n) with arch := { z.arch with names := Tab.put z.arch.names n ⟨e, count⟩ } }
    pure e

/-- alloc(N, C) of R31 for the names of `ns`, in order; a count of 0 is the caller's. Every name is tested for
NAMELIVE, then the need against its limit (R25, R94), then the space for each entry. Nothing is kept while the crew parks. -/
def allocNames (c : Nat) (ns : List Nat) (count : Nat) (st : EState) : M (List Nat) := do
  let x ← crewM c
  ns.forM fun n => check (Tab.at? x.arch.names n).isNone cNameLive
  let g ← gangM c
  let vs0 ← vsM c
  check (decide (needOf vs0 c + ns.length ≤ g.needLimit)) cVsExhaust
  ns.mapM (allocOne c count st ns.length)

/-- Set the lanes of an entry: the next `write` replaces all 32 slots and their marks (R32, R403). -/
def putLanes (c e : Nat) (v : Lanes) : M Unit :=
  modVs c fun vs => match Tab.at? vs e with
    | some en => Tab.put vs e { en with lanes := v, bad := 0 }
    | none => vs

/-- Lanes of a mask keep their value, the others take `old`. -/
def selLanes (m : Mask) (v old : Lanes) : Lanes := Vector.ofFn fun i => if m[i] then v[i] else old[i]

def zeroLanes : Lanes := Vector.replicate 32 0#32

/-- write(N, C, VAL, M) of R32. -/
def writeName (c n count : Nat) (v : Lanes) (m : Mask) : M Unit := do
  if count ≠ 0 then
    let es ← allocNames c [n] count .bound
    for e in es do putLanes c e (selLanes m v zeroLanes)

/-- Both members of a pair (R113): the even name holds bits 31:0. -/
def writePair (c n count : Nat) (lo hi : Lanes) (m : Mask) : M Unit := do
  if count ≠ 0 then
    let es ← allocNames c [n, n + 1] count .bound
    match es with
    | [e0, e1] =>
      putLanes c e0 (selLanes m lo zeroLanes)
      putLanes c e1 (selLanes m hi zeroLanes)
    | _ => pure ()

/-- write_mg of R90: other lanes take the merge source. -/
def writeMerge (c n count : Nat) (v : Lanes) (m : Mask) (old : Lanes) : M Unit := do
  if count ≠ 0 then
    let es ← allocNames c [n] count .bound
    for e in es do putLanes c e (selLanes m v old)

/-- drop(N) of R33, with R17 for a pending or open entry. -/
def dropName (c n : Nat) : M Unit := do
  let (b, e) ← lookup c n
  let x ← crewM c
  match e.st with
  | .leased => fault cLease
  | .pending =>
    unbind c n
    modVs c fun vs => Tab.put vs b.entry { e with gone := true, rel := x.seq }
  | .opened =>
    unbind c n
    modVs c fun vs => Tab.del vs b.entry
  | _ =>
    unbind c n
    modVs c fun vs => releaseEntry x vs b.entry

/-! ## Signature (R103 to R106) -/

/-- One bit of the fold (R103). -/
def foldBit (sig : Word) (b : Bool) : Word :=
  let t := sig[0] ^^ b
  let u := sig >>> 1
  if t then u ^^^ 0x82F63B78#32 else u

/-- fold(W): 64 bits, least significant first. -/
def foldWord (sig : Word) (w : DWord) : Word := (List.range 64).foldl (fun g i => foldBit g (w.getLsbD i)) sig

/-- A handler is active: the ACT bit of any trap register set is 1 (R106, R324). -/
def Crew.anyAct (x : Crew) : Bool := x.setU.act || x.setS.act || x.setW.act

/-- block_entry(P) (R104, R106). -/
def Crew.blockEntry (x : Crew) (p : Addr) : Crew :=
  if x.anyAct then x
  else { x with arch := { x.arch with
    bb := x.arch.act,
    sig := foldWord 0xFFFFFFFF#32 (BitVec.ofNat 64 (3 + (p.toNat / 4 % 2 ^ 32) * 2 ^ 32)) } }

/-- The instruction word of R104: bits 15:0 of the instruction, and ACTMASK xor BBMASK. -/
def instrWord (opc : Nat) (h : Head) (act bb : Mask) : DWord :=
  BitVec.ofNat 64 (opc * 256 + b2n h.neg * 128 + h.msk.toNat * 16 + b2n h.uni * 8 + b2n h.sw * 4 + h.len.toNat
    + (act ^^^ bb).toNat * 2 ^ 32)

/-- Fold an issued instruction (R104, R106). -/
def Crew.foldInstr (x : Crew) (opc : Nat) (h : Head) : Crew :=
  if x.anyAct then x
  else { x with arch := { x.arch with sig := foldWord x.arch.sig (instrWord opc h x.arch.act x.arch.bb) } }

/-! ## Reconvergence stack (R82 to R84) -/

/-- pop() of R84 for a crew whose PC already stands after the instruction: the popped entry's PC is a block entry; with
an empty stack and an empty mask the crew waits to retire (R86). -/
def Crew.popStack (x : Crew) : List StackEntry → Crew
  | [] => if x.arch.act = 0 then { x with empty := true, arch := { x.arch with stack := [] } }
          else { x with arch := { x.arch with stack := [] } }
  | e :: es =>
    if e.mask = 0 then Crew.popStack x es
    else Crew.blockEntry { x with arch := { x.arch with stack := es, act := e.mask, pc := e.pc } } e.pc

/-- How many entries a pop takes: those with an empty mask, and the first other one (R84). -/
def popDepth : List StackEntry → Nat
  | [] => 0
  | e :: es => if e.mask = 0 then popDepth es + 1 else 1

/-- The stack items that a pop uses hold no uncorrectable error, else the gang is killed (R403). -/
def useStack (c : Nat) : M Unit := do
  let x ← crewM c
  (List.range (popDepth x.arch.stack)).forM fun k => useItem c (.stack (x.arch.stack.length - 1 - k))

def pop (c : Nat) : M Unit := do
  useStack c
  modC c fun y => y.popStack y.arch.stack

/-- The crew's stack holds 32 entries: its oldest one there goes to the spill area before another is pushed (R82, R286).
The model keeps it in State too, and a pop takes that copy (log 29). An error: the write failed. -/
def State.spillPush (s : State) (x : Crew) : Except State State :=
  match x.arch.stack[31]? with
  | none => .ok s
  | some e => s.spillWrite (s.ctxOf x) (s.coreOf x)
      (stackVa (s.ctx (s.ctxOf x)).spill x.area (x.arch.stack.length - 32)) e.bytes

/-- `State.spillPush` of the issuing crew; where it fails, its gang is killed. -/
def spillEntry (x : Crew) : M Unit := do
  let s ← getS
  match s.spillPush x with
  | .ok t => setS t
  | .error t => do
    setS t
    stop .spill

/-- Push an entry; a total depth beyond 1,024 faults MEMFAULT with EADDR 0 (R82). -/
def push (c : Nat) (e : StackEntry) : M Unit := do
  let x ← crewM c
  check (decide (x.arch.stack.length < 1024)) cMemFault
  spillEntry x
  modC c fun y => { y.heal (.stack y.arch.stack.length) with arch := { y.arch with stack := e :: y.arch.stack } }

/-- Lanes leave the crew: from ACTMASK and every stack entry (R86). -/
def Arch.removeLanes (a : Arch) (m : Mask) : Arch :=
  { a with act := a.act &&& ~~~ m, stack := a.stack.map fun e => { e with mask := e.mask &&& ~~~ m } }

/-- ILLOP that the operands' values or the gang's state call for: it too waits for the checkpoint (R55, R56). -/
def illop {α : Type} (c : Nat) : M α := do
  let w ← crewM c
  if !w.acc.isEmpty then park .checkpoint
  fault cIllop

/-- An instruction that waits for the checkpoint and then raises a cause (R55, R109). -/
def raiseAtCheckpoint (c : Nat) (cause : Cause) (addr : Nat) (lanes : Option Mask) : M Unit := do
  let w ← crewM c
  if !w.acc.isEmpty then park .checkpoint
  stop (.trap cause addr lanes)

/-- A misaligned target of a transfer faults FETCHALIGN with LANES ACTMASK, at the checkpoint (R37, R55, R56). -/
def checkTarget (c : Nat) (p : Addr) : M Unit := do
  if p.toNat % 4 ≠ 0 then
    let x ← crewM c
    raiseAtCheckpoint c cFetchAlign p.toNat (some x.arch.act)

/-- A transfer to P: FETCHALIGN for a misaligned target (R37), then the PC and a block entry (R85). -/
def jump (c : Nat) (p : Addr) : M Unit := do
  checkTarget c p
  modC c fun x => Crew.blockEntry { x with arch := { x.arch with pc := p } } p

/-! ## Checkpoint (R18 to R21) -/

/-- The sequence number of the checkpoint. -/
def Crew.ckptSeq (x : Crew) : Nat :=
  match x.acc with
  | [] => x.seq
  | a :: _ => a.snap.seq

/-- Counts are added to a gang's counter, which stops at its maximum (R78). -/
def Gang.count (g : Gang) (tid : Nat) (d : Stat) : Gang :=
  let o := Tab.getD g.stats tid ⟨0, 0, 0⟩
  let cap := fun (v : Nat) => min v (2 ^ 64 - 1)
  { g with stats := Tab.put g.stats tid ⟨cap (o.sat + d.sat), cap (o.flush + d.flush), cap (o.nan + d.nan)⟩ }

/-- The checkpoint has advanced: released entries and tiles older than it become free, statistics are added
(R20, R78, R143). -/
def State.settle (s : State) (c : Nat) : State :=
  match s.crew? c with
  | none => s
  | some x =>
    let k := x.ckptSeq
    let keep (e : Entry) : Bool := !(e.crew == c && e.st == .released && decide (e.rel < k))
    let due := x.stats.filter fun d => decide (d.seq < k)
    let s1 := s.setCrew c { x with
      stats := x.stats.filter (fun d => !decide (d.seq < k)),
      image := x.image.filter (fun p => keep p.2),
      tileImg := x.tileImg.filter (fun p => match p.2.2 with
        | some r => !decide (r < k)
        | none => true) }
    let s2 := due.foldl (fun t d => t.modGang x.gang fun g => g.count d.tid d.stat) s1
    s2.modCore (s2.coreOf x) fun w =>
      { w with vs := w.vs.filter (fun p => keep p.2),
               tiles := w.tiles.filter (fun p => !(p.2.crew == c && (match p.2.rel with
                 | some r => decide (r < k)
                 | none => false))) }

/-- An entry after its crew's rollback to sequence number `k`: gone, or as it stood (R21). -/
def rollEntry (c k : Nat) (e : Entry) : Option Entry :=
  if e.crew ≠ c then some e
  else if k ≤ e.birth then none
  else if e.st = .released then some { e with st := .bound, rel := 0 }
  else if e.gone && decide (k ≤ e.rel) then some { e with gone := false, rel := 0 }
  else some e

def rollEntries (c k : Nat) (vs : Tab Entry) : Tab Entry :=
  vs.filterMap fun p => (rollEntry c k p.2).map fun e => (p.1, e)

/-- A matrix instruction that a rollback does not undo: MMA and ASCL are checkpoint-bound (R19). -/
def MatKind.bound (m : MatKind) : Bool :=
  match m with
  | .mma _ _ _ => true
  | .ascl _ _ => true
  | _ => false

/-- The checkpoint of a crew: the state before its oldest unperformed access, or `now` (R18). -/
def Crew.checkpoint (x : Crew) (now : Snap) : Snap :=
  match x.acc with
  | [] => now
  | a :: _ => a.snap

/-- The names of a checkpoint whose entries still exist. DESIGN CHOICE: a name whose open entry an undone DROP freed
is unbound, since R17 frees that entry at once (log 16). -/
def liveNames (c : Nat) (vs : Tab Entry) (ns : Tab Binding) : Tab Binding :=
  ns.filter fun p => match Tab.at? vs p.2.entry with
    | some e => e.crew == c
    | none => false

/-- Roll a crew back to its checkpoint (R21); `now` is the checkpoint where no access is unperformed. -/
def State.rollback (s : State) (c : Nat) (now : Snap) : State :=
  match s.crew? c with
  | none => s
  | some x =>
    let k := x.checkpoint now
    let core := s.coreOf x
    let vs := rollEntries c k.seq (s.core core).vs
    let image := rollEntries c k.seq x.image
    let names := liveNames c (if x.resident then vs else image) k.arch.names
    let s1 := s.modCore core fun w =>
      { w with vs := vs,
               tiles := (w.tiles.filter fun p => p.2.crew != c || k.arch.tiles.any fun t => t.2 == p.1).map fun p =>
                 if p.2.crew = c then (p.1, { p.2 with rel := none }) else p,
               mats := w.mats.filter fun m => !(m.crew == c && decide (k.seq ≤ m.seq) && !m.kind.bound) }
    let s2 := if x.acc.isEmpty then s1 else
      { s1 with arrive := s1.arrive.filter fun p => !(p.2.crew == c && (match p.2.dest with
          | .scalar _ => true
          | _ => false)) }
    s2.setCrew c { x with
      arch := { (k.arch.without x.dead) with names := names },
      acc := [], hold := false, empty := x.empty && x.acc.isEmpty, stopAt := x.stopAt && x.acc.isEmpty,
      stepDue := if x.acc.isEmpty then x.stepDue else none,
      exempt := match x.acc with
        | [] => x.exempt
        | a :: _ => a.exempt,
      waitEvt := if x.acc.isEmpty then x.waitEvt else none,
      image := image,
      tileImg := x.tileImg.filterMap (fun p =>
        if k.arch.tiles.any (fun t => t.2 == p.1) then some (p.1, (p.2.1, none)) else none),
      stats := x.stats.filter (fun d => decide (d.seq < k.seq)) }

/-- A context has trapped POISON on a line (R108, R315). -/
def State.notePoison (s : State) (ctx pa : Nat) : State :=
  s.modCtx ctx fun k => { k with poison := if k.poison.contains (pa / 128) then k.poison else (pa / 128) :: k.poison }

/-! ## The arrival log (R290) and barriers (R179 to R183) -/

/-- Append a record to a context's arrival log; `none` while the log is full, invalid or cannot be written (R290). A write that
meets R392 is lost. -/
def State.appendLog (s : State) (ctx : Nat) (r : List Byte) : Option State :=
  let x := s.ctx ctx
  if x.alogN < 8 ∨ 20 < x.alogN ∨ 2 ^ x.alogN ≤ x.logTail - x.logHead then none
  else match s.writeSys true ctx (x.alog + 32 * (x.logTail % 2 ^ x.alogN)) r with
    | .ok t => some (t.modCtx ctx fun y => { y with logTail := y.logTail + 1 })
    | .error _ =>
      let a := x.alog + 32 * (x.logTail % 2 ^ x.alogN)
      if s.unanswered ctx .write a 32 then some (s.noteSys ctx .write a 32) else none

/-- The group of a gang within its grid (R279): GROUP gangs each; `none` without district grouping. -/
def Grid.groupOf (l : Grid) (gid : Nat) : Option Nat :=
  let n := recField l.record 16 56 53
  if n = 0 then none else some (gid / n)

/-- The gangs of the grid `l` whose home is not frozen. -/
def State.gangsOfGrid (s : State) (l : Nat) : List Nat :=
  Tab.keysWhere s.gangs fun _ g => g.grid == l && (match g.home with
    | .frozen _ => false
    | _ => true)

/-- The gangs of a gang's district group, itself among them. -/
def State.groupGangs (s : State) (g : Nat) : List Nat :=
  match s.gang? g with
  | none => []
  | some x => match s.grid? x.grid with
    | none => []
    | some l => match l.groupOf x.gid with
      | none => []
      | some j => (s.gangsOfGrid x.grid).filter fun k => match s.gang? k with
        | some y => l.groupOf y.gid == some j
        | none => false

/-- The live crews that are members of a barrier: level 1 gang, 2 district, 3 grid (R179). -/
def State.members (s : State) (level g : Nat) : List Nat :=
  match level with
  | 1 => s.crewsOf g
  | 2 => ((s.groupGangs g).map s.crewsOf).flatten
  | _ => match s.gang? g with
    | some x => ((s.gangsOfGrid x.grid).map s.crewsOf).flatten
    | none => []

/-- The current phase of a barrier. -/
def State.phase (s : State) (level n g : Nat) : Nat :=
  match s.gang? g with
  | none => 0
  | some x => match level with
    | 1 => x.phases.toList.getD n 0
    | 2 => match s.grid? x.grid with
      | some l => match l.groupOf x.gid with
        | some j => (Tab.getD l.groups j (Vector.replicate 8 0)).toList.getD n 0
        | none => 0
      | none => 0
    | _ => match s.grid? x.grid with
      | some l => l.phases.toList.getD n 0
      | none => 0

/-- A barrier's phase completes: the next one opens (R180). -/
def State.bumpPhase (s : State) (level n g : Nat) : State :=
  match s.gang? g with
  | none => s
  | some x => match level with
    | 1 => s.setGang g { x with phases := x.phases.setIfInBounds n (x.phases.toList.getD n 0 + 1) }
    | 2 => s.modGrid x.grid fun l => match l.groupOf x.gid with
      | some j =>
        let v := Tab.getD l.groups j (Vector.replicate 8 0)
        { l with groups := Tab.put l.groups j (v.setIfInBounds n (v.toList.getD n 0 + 1)) }
      | none => l
    | _ => s.modGrid x.grid fun l => { l with phases := l.phases.setIfInBounds n (l.phases.toList.getD n 0 + 1) }

def barKey (level n : Nat) : Nat := level * 16 + n

/-- A crew has arrived in a phase. -/
def State.arrivedIn (s : State) (c level n p : Nat) : Bool :=
  match s.crew? c with
  | some x => Tab.at? x.barSeen (barKey level n) == some p
  | none => false

/-- A record for the arrival log (R290): kind 1 an arrival at a barrier, kind 2 a completion. -/
def logBarrier (kind level n phase gid : Nat) : List Byte :=
  bytesLE 8 (kind + level * 2 ^ 4 + n * 2 ^ 8 + phase % 2 ^ 32 * 2 ^ 12) ++ bytesLE 8 gid ++ List.replicate 16 0#8

/-- The gang's context is saved, so that what is aimed at it goes to its arrival log (R180, R290). -/
def State.gangAway (s : State) (g : Nat) : Option (Nat × Nat) :=
  (s.gang? g).bind fun x => if (s.ctx x.ctx).pre = 3 then some (x.ctx, x.gid) else none

/-- Every live member of a barrier has arrived in its open phase (R179). -/
def State.allArrived (s : State) (level n g : Nat) : Bool :=
  let ms := s.members level g
  !ms.isEmpty && ms.all fun c => s.arrivedIn c level n (s.phase level n g)

/-- Complete the open phase if every live member has arrived in it (R179, R180). For a context that is saved the completion
goes to its arrival log; where that takes no record, it waits for the restore (R290, log 51). -/
def State.tryBarrier (s : State) (level n g : Nat) : State :=
  if s.allArrived level n g then
    match s.gangAway g with
    | some a => (s.appendLog a.1 (logBarrier 2 level n (s.phase level n g) a.2)).getD s
    | none => s.bumpPhase level n g
  else s

/-- Every barrier of a gang's levels is tried: a member has left. -/
def State.tryBarriers (s : State) (g : Nat) : State :=
  let s1 := (List.range 16).foldl (fun t n => t.tryBarrier 1 n g) s
  let s2 := (List.range 8).foldl (fun t n => t.tryBarrier 2 n g) s1
  (List.range 4).foldl (fun t n => t.tryBarrier 3 n g) s2

/-! ## Killing a gang (R313) -/

/-- What is said of a kill in its record (R308, R309, R402). -/
structure KillWhy where
  cause : Cause
  kind  : Nat
  inst  : Nat
  addr  : Nat
  crew  : Nat
  pc    : Nat
  again : Bool          -- false: the images could not be read, no relaunch (R278)
  eseq  : Nat := 0
  deriving DecidableEq, Repr

/-- The bind records that satisfy `p` become free. -/
def State.clearSlots (s : State) (p : Slot → Bool) : State :=
  { s with cores := Tab.mapV s.cores fun _ k => { k with slots := k.slots.filter fun q => !p q.2 } }

/-- A record that a restore holds for a gang (R276). -/
def Slot.heldFor (r : Slot) (ctx lid gid : Nat) : Bool := r.state == 3 && r.ctx == ctx && r.lid == lid && r.gid == gid

/-- The LID of a gang's launch. -/
def State.lidOf (s : State) (g : Gang) : Nat :=
  match s.grid? g.grid with
  | some l => l.lid
  | none => 0

/-- The slots of a core lose an occupant that satisfies `p`. -/
def freeSlots (sl : Tab Slot) (p : Nat → Bool) : Tab Slot :=
  sl.filter fun q => match q.2.crew with
    | some c => !p c
    | none => true

/-- An engine command of the gang is not complete. -/
def State.gangBusy (s : State) (gk : Nat) : Bool := s.cmds.any fun p => p.2.gang == gk && !p.2.isOver

/-- A tile is leased to an engine command that is not complete. -/
def State.tileLeased (s : State) (c t : Nat) : Bool :=
  s.cmds.any fun p => p.2.crew == c && p.2.tile == some t && !p.2.isOver

/-- A command that leases the tile of a crew that is dropped while it is evicted keeps the tile's image (R313 step 3). -/
def State.keepTile (s : State) (cs : List Nat) (m : Cmd) : Cmd :=
  if !(cs.contains m.crew) || m.isOver then m
  else match s.crew? m.crew, m.tile with
    | some x, some t => if x.resident then m else { m with saved := (Tab.at? x.tileImg t).map Prod.fst }
    | _, _ => m

/-- Everything the crews of a gang hold on cores becomes free (R313 step 4); a tile leased to an engine command once that is
complete. -/
def State.dropCrews (s : State) (cs : List Nat) : State :=
  { s with
    cmds := Tab.mapV s.cmds fun _ m => s.keepTile cs m,
    crews := s.crews.filter fun p => !cs.contains p.1,
    waits := s.waits.filter fun w => !cs.contains w.crew,
    arrive := s.arrive.filter fun p => !cs.contains p.2.crew,
    cores := Tab.mapV s.cores fun _ k =>
      { k with vs := k.vs.filter fun p => !cs.contains p.2.crew,
               tiles := k.tiles.filter fun p => !cs.contains p.2.crew || s.tileLeased p.2.crew p.1,
               slots := freeSlots k.slots cs.contains } }

/-- Peers of a killed gang learn of it at their next completion (R183). -/
def State.markDown (s : State) (cs : List Nat) (bit : BitVec 3) : State :=
  { s with crews := Tab.mapV s.crews fun c x => if cs.contains c then { x with down := x.down ||| bit } else x }

/-- Crews have returned from a completion with PEERDOWN, or have left: frozen scratchpads that waited for them last are
released (R183), once the engine commands of their gangs are complete (R313). -/
def State.thaw (s : State) (cs : List Nat) : State :=
  { s with gangs := s.gangs.filterMap fun p => match p.2.home with
      | .frozen left =>
        let rest := left.filter fun c => !cs.contains c
        if rest.isEmpty && !(s.gangBusy p.1) then none else some (p.1, { p.2 with home := .frozen rest })
      | _ => some p }

/-- Failures of a gang's engine commands that no trap has reported (R205). -/
def Gang.unreported (g : Gang) : Nat := g.copy.fails.length + g.gather.fails.length + g.coll.fails.length

/-- Every gang of a draining context has gone: its CTXPRE.STATE becomes 3, event 4 is raised, and the arbiter evaluates
(R284, R379, R380). -/
def State.drained (s : State) (ctx : Nat) : State :=
  if (s.ctx ctx).pre = 1 && !(s.gangs.any fun p => p.2.ctx == ctx && (match p.2.home with
      | .frozen _ => false
      | _ => true)) then
    ((s.modCtx ctx fun k => { k with pre := 3 }).raise ctx 4).evaluate 2 false
  else s

/-- A gang that has not been killed. -/
def Gang.alive (g : Gang) : Bool :=
  match g.home with
  | .frozen _ => false
  | _ => true

/-- The gang `g` is killed (R313); one that has been killed already stays so. DESIGN CHOICE: a crew of a peer gang that is
created after the kill was no live peer at it, gets no PEERDOWN from it, and the frozen scratchpad does not wait for it
(log 94). -/
def State.gangKill (s : State) (g : Nat) (why : KillWhy) : State :=
  match s.gang? g with
  | none => s
  | some x => if !x.alive then s else
    let cs := s.crewsOf g
    let peers := ((s.groupGangs g).filter (· != g)).map s.crewsOf |>.flatten
    let grid := ((s.gangsOfGrid x.grid).filter (· != g)).map s.crewsOf |>.flatten
    let s1 := (s.dropCrews cs).clearSlots fun r => r.heldFor x.ctx (s.lidOf x) x.gid
    let s2 := ((s1.thaw cs).markDown peers 2#3).markDown grid 4#3
    -- scratchpad freed, or frozen while a peer is live (R183); entries of retired crews are freed with the gang
    let s3 := { s2 with cores := Tab.mapV s2.cores fun _ k => { k with vs := k.vs.filter fun p => p.2.gang != g } }
    let s4 := if peers.isEmpty && !(s.gangBusy g) then { s3 with gangs := Tab.del s3.gangs g }
              else s3.setGang g { x with home := .frozen peers, bins := [], cede := 0 }
    -- the remaining members of every open phase may now have arrived (R179)
    let s5 := (s4.gangsOfGrid x.grid).foldl (fun t k => t.tryBarriers k) s4
    let s6 := s5.modGrid x.grid fun l =>
      { l with kills := l.kills + 1,
               cause := if l.kills = 0 ∧ l.orphan = false then why.cause else l.cause,
               unrep := l.unrep + x.unreported,
               due := if why.again && recField l.record 24 33 33 == 1 then l.due ++ [x.gid] else l.due }
    let s7 := s6.record { Rec.of (some x.ctx) 0x03 why.kind why.inst with
      crew := why.crew, pc := why.pc, eseq := why.eseq, addr := why.addr, cause := why.cause.toNat, detail := x.gid % 65536 }
    (s7.modCtx x.ctx fun k => { k with zeroised := false }).drained x.ctx

/-- Why a gang is killed whose image could not be written or read (R286, R313). -/
def spillWhy (s : State) (core crew : Nat) : KillWhy :=
  { cause := cMemFault, kind := 0, inst := coreInst core, addr := 0,
    crew := match s.crew? crew with
      | some x => s.crewId x
      | none => 0,
    pc := 0, again := true }

/-- What has changed in the image of an absent crew goes to the spill area (R17); where that fails, its gang is killed
(R286). An image that another agent has altered stays so, and the restore finds it. -/
def State.respill (s : State) (c : Nat) : State :=
  match s.crew? c with
  | none => s
  | some x =>
    if x.resident || !(s.crewIntact x) then s
    else match s.spillCrew c with
      | .ok t => t
      | .error t => t.gangKill x.gang (spillWhy t (s.coreOf x) c)

/-! ## Taking a trap (R23) and its return (R110) -/

/-- Target level of a cause (R25). -/
def causeTarget (c : Cause) : Nat :=
  if c = cScrubErr then 2
  else if c.toNat < 0x80 then 1
  else if c.toNat < 0xC0 then 0
  else if c.toNat < 0xF0 then 1
  else 2

/-- A cause that some crew can take (R25). -/
def causeRaised (c : Cause) : Bool :=
  let n := c.toNat
  (decide (1 ≤ n) && decide (n ≤ 0x0B)) || (decide (0x10 ≤ n) && decide (n ≤ 0x14)) || n == 0x16 || decide (0x80 ≤ n)

/-- The trap register set of a level (R23). -/
def Crew.trapSet (x : Crew) (level : Nat) : TrapSet :=
  match level with
  | 0 => x.setU
  | 1 => x.setS
  | _ => x.setW

def Crew.setTrapSet (x : Crew) (level : Nat) (t : TrapSet) : Crew :=
  match level with
  | 0 => { x with setU := t }
  | 1 => { x with setS := t }
  | _ => { x with setW := t }

/-- EVEC of a level (R27, R390). -/
def Ctx.evec (k : Ctx) (level : Nat) : Addr :=
  match level with
  | 0 => k.evecU
  | 1 => k.evecS
  | _ => k.evecW

/-- Bits 1:0 of an EVEC are ignored (R27). -/
def vector (a : Addr) : Addr := a &&& ~~~ 3#52

/-- The level a trap is taken at: the first from `l` on whose handler is not active and whose vector is not zero. -/
def trapLevel (x : Crew) (k : Ctx) : Nat → Nat → Option Nat
  | 0, _ => none
  | n + 1, l =>
    if (x.trapSet l).act || vector (k.evec l) == 0#52 then trapLevel x k n (l + 1)
    else some l

/-- A crew that enters its handler at level `l` (R23): `x` is rolled back already. -/
def Crew.enter (x : Crew) (l : Nat) (cause : Cause) (addr : Nat) (lanes : Mask) (efpc vec : Addr) : Crew :=
  let t : TrapSet := { epc := x.arch.pc, efpc := efpc, act := true, prv := x.priv, code := cause,
                       eaddr := BitVec.ofNat 64 addr, em7 := x.arch.mask 7 }
  let y := ((x.setTrapSet l t).heal (.mask 7)).dropEseq efpc
  { y with arch := { y.arch with pc := vec }.setMask 7 lanes, priv := BitVec.ofNat 2 l, park := none, waitEvt := none,
           stepDue := none, exempt := false, empty := false }

/-- take_trap(CAUSE, ADDR, LANES) of R23 for crew `c`. `efpc`: PC of the instruction that raised the cause. `now`: the
state the checkpoint is where no access is unperformed. DESIGN CHOICE: a crew whose rollback leaves no active lane enters the
handler all the same (log 88). -/
def State.takeTrap (s : State) (c : Nat) (cause : Cause) (addr : Nat) (lanes : Mask) (efpc : Addr) (now : Snap) : State :=
  match s.crew? c with
  | none => s
  | some x0 =>
    let s1 := s.rollback c now
    match s1.crew? c with
    | none => s1
    | some x =>
      let k := s1.ctx (s1.ctxOf x)
      let l0 := max (causeTarget cause) x.priv.toNat
      match trapLevel x k (3 - l0) l0 with
      | none => s1.gangKill x.gang
          { cause := cause, kind := 0, inst := coreInst (s1.coreOf x), addr := if cause = cPoison then addr else 0,
            crew := s1.crewId x, pc := efpc.toNat, again := true }
      | some l => s1.setCrew c { x.enter l cause addr lanes efpc (vector (k.evec l)) with seq := x0.seq + 1 }

/-- eret() of R110 for a crew whose handler is active: the PC, m7, PRIV and ACT come back. An ERET that leaves the crew
at PRIV 0 with no handler active exempts its next instruction (R325). -/
def Crew.leave (x : Crew) : Crew :=
  let l := x.priv.toNat
  let t := x.trapSet l
  let y := (x.setTrapSet l { t with act := false }).heal (.mask 7)
  let z := { y with arch := { y.arch with pc := t.epc }.setMask 7 t.em7, priv := t.prv }
  { z with exempt := z.priv == 0 && !z.anyAct }

/-! ## Issue (R91, R19, R104) -/

/-- Length of an instruction in bytes (R36). -/
def lenOf (x : Ops) : Nat := 8 + 4 * x.head.len.toNat

/-- A bound name of the crew is pending or open (R91). -/
def switchWaits (x : Crew) (vs : Tab Entry) : Bool :=
  x.arch.names.any fun p => match Tab.at? vs p.2.entry with
    | some e => e.st == .pending || e.st == .opened
    | none => false

/-- The mask that an instruction pushed as a D entry, or 0 (R326). -/
def pushedMask (before after : List StackEntry) : Mask :=
  match after with
  | [] => 0
  | e :: es => if e.kind = .deferred ∧ es.length = before.length then e.mask else 0

/-- A crew after its instruction: the number is used, the exemption of R325 ends, and a STEP trap falls due where the
crew is stepped (R326); `w` is the crew before it. -/
def Crew.afterInstr (x w : Crew) : Crew :=
  { x with
    seq := x.seq + 1, hold := false, exempt := x.exempt && !w.exempt,
    stepDue := if w.stepOn && w.priv == 0 && !w.anyAct && !x.empty then some (pushedMask w.arch.stack x.arch.stack)
               else none }

/-- The end of an issued instruction: a crew whose lanes all died pops (R84), and the checkpoint settles (R20). -/
def finish (c : Nat) (w : Crew) : M Unit := do
  modC c fun x => x.afterInstr w
  let x ← crewM c
  if x.arch.act = 0 && !x.empty then pop c
  modS fun s => s.settle c

/-- Issue an instruction of crew `c`: the switch marker, the checkpoint where the instruction is bound to it, the fold,
the PC, then its effect. -/
def issue (c opc : Nat) (x : Ops) (ckpt folds : Bool) (body : M Unit) : M Unit := do
  let w ← crewM c
  let vs ← vsM c
  if x.head.sw && switchWaits w vs then park .switch
  if ckpt && !w.acc.isEmpty then park .checkpoint
  modC c fun y => { y with park := none }
  if folds then modC c fun y => y.foldInstr opc x.head
  modC c fun y =>
    { y.dropEseq y.arch.pc with ipc := y.arch.pc, arch := { y.arch with pc := y.arch.pc + BitVec.ofNat 52 (lenOf x) } }
  body
  finish c w

/-- What a faulting instruction did to the value store of its core, to the marks of its crew and to DEADSRC is undone
(R21, R30); `s0` and `w`: the machine and the crew before it. Lanes that it killed stay killed (R310). -/
def State.undoIssue (s s0 : State) (c : Nat) (w : Crew) : State :=
  (s.modCore (s0.coreOf w) fun k => { k with vs := (s0.core (s0.coreOf w)).vs }).modCrew c fun x =>
    { x with deadsrc := w.deadsrc, marks := w.marks }

/-- What becomes of an instruction that ran or stopped. A trap is taken with the checkpoint the crew had before the
instruction; a park leaves everything as it was before (log 17). -/
def settleIssue (c : Nat) (w : Crew) (h : Head) (s0 : State) (r : EStateM.Result Stop State Unit) : State :=
  match r with
  | .ok _ s => s
  | .error (.trap cause addr lanes) s =>
    let m := match lanes with
      | some l => l
      | none => match s.crew? c with
        | some x => (w.arch.without x.dead).emask h
        | none => w.arch.emask h
    (s.undoIssue s0 c w).takeTrap c cause addr m w.arch.pc ⟨w.arch, w.seq⟩
  | .error (.park p) _ => s0.modCrew c fun x => { x with park := some p }
  | .error (.kill kind inst addr) s =>
    s.gangKill w.gang
      { cause := cPoison, kind := kind, inst := inst, addr := addr, crew := s.crewId w,
        pc := w.arch.pc.toNat, again := true }
  | .error .spill s =>
    s.gangKill w.gang
      { cause := cMemFault, kind := 0, inst := coreInst (s.coreOf w), addr := 0, crew := s.crewId w,
        pc := w.arch.pc.toNat, again := true }
  | .error .gone s => s

/-- Run an issue of the crew that issues, as one step of the machine. -/
def crewStep (h : Head) (body : Nat → M Unit) (s : State) : Host.Outcome State Fault Refusal :=
  match s.cur with
  | none => .fault .noCrew
  | some c => match s.crew? c with
    | none => .fault .noCrew
    | some w => .next (settleIssue c w h s (body c s))

/-- The meaning of an instruction that issues in one step. -/
def issueStep (opc : Nat) (x : Ops) (ckpt : Bool) (body : Nat → M Unit) (s : State) : Host.Outcome State Fault Refusal :=
  crewStep x.head (fun c => issue c opc x ckpt true (body c)) s

/-- A privileged instruction or register below `level` traps PROT with LANES ACTMASK, once the checkpoint has reached it (R55,
R56). -/
def needPriv (c level : Nat) : M Unit := do
  let w ← crewM c
  if w.priv.toNat < level then raiseAtCheckpoint c cProt 0 (some w.arch.act)

end Sys2Proof.Machine
end

