-- ==== Sys2Proof/Machine/Operands.lean ====
section
/-!
DEFINITION. Machine/Operands.lean: every operand form: names, pairs, scalars and immediates as sources, names, pairs,
merges and scalars as destinations (R39 to R46, R112, R113, R159).
-/

namespace Sys2Proof.Machine

open Sys2Proof

/-- 64-bit values of the 32 lanes. -/
abbrev Vals := Vector DWord 32

/-- A code of a vector name (R39). -/
def isVec (code : BitVec 8) : Bool := code < 0xC0#8

/-- A scalar read whole, in every lane, or its bits 31:0 (R39). -/
def spread (v : DWord) (whole : Bool) : Vals :=
  Vector.replicate 32 (if whole then v else BitVec.ofNat 64 (v.toNat % 2 ^ 32))

/-- Two names as a pair of 64-bit values (R113). -/
def joinPair (lo hi : Lanes) : Vals := Vector.ofFn fun i => hi[i] ++ lo[i]

def widen (v : Lanes) : Vals := Vector.ofFn fun i => (0#32 ++ v[i] : BitVec 64)
def lowHalf (v : Vals) : Lanes := Vector.ofFn fun i => v[i].extractLsb' 0 32
def highHalf (v : Vals) : Lanes := Vector.ofFn fun i => v[i].extractLsb' 32 32

/-- Read a source: a vector name, a pair for a wide operand, or a scalar (R30, R39, R113). Lanes of the effective mask
consume their slots (R310). -/
def readSrc (c : Nat) (h : Head) (code : BitVec 8) (wide : Bool) : M Vals := do
  if isVec code then
    let m ← emask c h
    let lo ← readName c code.toNat m
    if wide then
      let m' ← emask c h
      let hi ← readName c (code.toNat + 1) m'
      pure (joinPair lo hi)
    else pure (widen lo)
  else do
    let v ← readScalar c code
    pure (spread v (wide || h.uni))

/-- The immediate that stands for source B in classes 2 to 5 (R44, R46). -/
def immOf (ty : Ty) (x : Ops) : DWord :=
  if x.head.len = 2 then x.ext
  else if ty == .i64 then sext64 32 x.ext.toNat
  else BitVec.ofNat 64 (x.ext.toNat % 2 ^ 32)

/-- Source B: the immediate of a longer form, or the operand of SB. -/
def readB (c : Nat) (ty : Ty) (wide : Bool) (x : Ops) : M Vals :=
  if x.head.len ≠ 0 then pure (Vector.replicate 32 (immOf ty x)) else readSrc c x.head x.sb wide

/-- A result extended into a scalar: `.i` types from their sign, the others from zero (R42). -/
def extend (ty : Ty) (v : Nat) : DWord :=
  if ty.isSigned then sext64 ty.width v else BitVec.ofNat 64 (v % 2 ^ ty.width)

/-- Store lanes to a vector destination (R32, R90, R113): nothing for the discard, a pair, a merge or a name. -/
def storeVec (c : Nat) (x : Ops) (pair : Bool) (old : Option Lanes) (v : Vals) (m : Mask) : M Unit :=
  if x.cnt = 0 then pure ()
  else if pair then writePair c x.dst.toNat x.cnt.toNat (lowHalf v) (highHalf v) m
  else match old with
    | some o => writeMerge c x.dst.toNat x.cnt.toNat (lowHalf v) m o
    | none => writeName c x.dst.toNat x.cnt.toNat (lowHalf v) m

/-- The merge source of a `.mg` form, read last (R90). -/
def readMerge (c : Nat) (f : FnT) (x : Ops) : M (Option Lanes) := do
  if f.mg then
    let m ← emask c x.head
    let o ← readName c x.sc.toNat m
    pure (some o)
  else pure none

/-- A per-lane result on either datapath: `op` gives each lane's bits. -/
def laneResult (c : Nat) (f : FnT) (x : Ops) (pair : Bool) (op : Nat → Nat → Nat → Nat) (va vb vc : Vals) : M Unit := do
  let old ← readMerge c f x
  let m ← emask c x.head
  if x.head.uni then
    writeScalar c x.dst (extend f.ty (op va[0].toNat vb[0].toNat vc[0].toNat))
  else
    storeVec c x pair old (Vector.ofFn fun i => BitVec.ofNat 64 (op va[i].toNat vb[i].toNat vc[i].toNat)) m

def noVals : Vals := Vector.replicate 32 0#64

/-- One source. -/
def laneUnary (c : Nat) (f : FnT) (x : Ops) (op : Nat → Nat) : M Unit := do
  let va ← readSrc c x.head x.sa f.ty.wide
  laneResult c f x f.ty.wide (fun a _ _ => op a) va noVals noVals

/-- Two sources, the second perhaps an immediate. -/
def laneBinary (c : Nat) (f : FnT) (x : Ops) (op : Nat → Nat → Nat) : M Unit := do
  let va ← readSrc c x.head x.sa f.ty.wide
  let vb ← readB c f.ty f.ty.wide x
  laneResult c f x f.ty.wide (fun a b _ => op a b) va vb noVals

/-- Three sources. -/
def laneTernary (c : Nat) (f : FnT) (x : Ops) (op : Nat → Nat → Nat → Nat) : M Unit := do
  let va ← readSrc c x.head x.sa f.ty.wide
  let vb ← readB c f.ty f.ty.wide x
  let vc ← readSrc c x.head x.sc f.ty.wide
  laneResult c f x f.ty.wide op va vb vc

end Sys2Proof.Machine
end

