-- ==== Sys2Proof/Machine/Flags.lean ====
section
/-!
DEFINITION. Machine/Flags.lean: conditions and the masks that receive them (R118), statistics (R76 to R78) and the
DEADSRC bit (R132).
-/

namespace Sys2Proof.Machine

open Sys2Proof

/-- The destination is a mask m1 to m7 (R41, R112): DST 1 to 7 with CNT 0 and UNI 0; DST 0 is the discard. -/
def toMask (x : Ops) : Bool := !x.head.uni && x.cnt == 0 && x.dst != 0

/-- A condition per lane of the effective mask goes to a mask, a scalar or a vector name (R118). -/
def writeCond (c : Nat) (f : FnT) (x : Ops) (p : Fin 32 → Bool) : M Unit := do
  let old ← readMerge c f x
  let m ← emask c x.head
  if x.head.uni then writeScalar c x.dst (BitVec.ofNat 64 (b2n (p 0)))
  else if toMask x then writeMask c x.dst.toNat (m &&& maskOf p)
  else storeVec c x false old (Vector.ofFn fun i => BitVec.ofNat 64 (b2n (p i))) m

/-- The events of the lanes of a mask, added up. -/
def sumEvents (m : Mask) (ev : Fin 32 → Num.Events) : Stat :=
  (lanesOf m).foldl (fun t i =>
    ⟨t.sat + b2n (ev i).sat, t.flush + b2n (ev i).flush, t.nan + b2n (ev i).nan⟩) ⟨0, 0, 0⟩

/-- Counts of an instruction wait until the checkpoint passes it (R78). -/
def countStat (c tid : Nat) (d : Stat) : M Unit :=
  modC c fun x => { x with stats := x.stats ++ [⟨x.seq, tid, d⟩] }

/-- The sticky bit DEADSRC is set where `p` holds (R132). -/
def setDeadsrc (c : Nat) (p : Bool) : M Unit := modC c fun x => { x with deadsrc := x.deadsrc || p }

end Sys2Proof.Machine
end

