-- ==== Sys2Proof/Machine/Control.lean ====
section
/-!
DEFINITION. Machine/Control.lean: branches, reconvergence, calls, traps and signatures (R80 to R87, R101, R105, R109,
R110).
-/

namespace Sys2Proof.Machine

open Sys2Proof

/-- The address of the instruction being issued: `issue` has moved the PC past it. -/
def ownPc (c : Nat) (x : Ops) : M Addr := do
  let y ← crewM c
  pure (y.arch.pc - BitVec.ofNat 52 (lenOf x))

/-- The target of a PC-relative offset (R45). DESIGN CHOICE: it wraps modulo 2^52 (log 19). -/
def relTarget (pc : Addr) (x : Ops) : Addr := pc + BitVec.ofInt 52 (signedOf 32 x.ext.toNat)

/-- The instruction after this one is a block entry (R104). -/
def enterNext (c : Nat) : M Unit := modC c fun y => y.blockEntry y.arch.pc

/-- branch(TARGET) of R83. -/
def branch (c : Nat) (x : Ops) (target : Addr) : M Unit := do
  let t ← emask c x.head
  let y ← crewM c
  if t = 0 then enterNext c
  else
    checkTarget c target
    if t = y.arch.act then jump c target
    else
      push c ⟨.deferred, target, t⟩
      modA c fun a => { a with act := a.act &&& ~~~ t }
      enterNext c

/-- NOP (R87). -/
def execNop (x : Ops) (s : State) : Host.Outcome State Fault Refusal :=
  issueStep 0x00 x false (fun _ => pure ()) s

def bodyBra (c : Nat) (x : Ops) : M Unit := do
  let pc ← ownPc c x
  branch c x (relTarget pc x)

/-- BRA (R83). -/
def execBra (x : Ops) (s : State) : Host.Outcome State Fault Refusal :=
  issueStep 0x01 x false (fun c => bodyBra c x) s

/-- A 64-bit value as a transfer target. DESIGN CHOICE: a target above 52 bits is cut to the 52 bits of the PC (log 19). -/
def targetOf (v : DWord) : Addr := v.extractLsb' 0 52

def bodyBrx (c : Nat) (x : Ops) : M Unit := do
  let v ← readScalar c x.sa
  branch c x (targetOf v)

/-- BRX (R83). -/
def execBrx (x : Ops) (s : State) : Host.Outcome State Fault Refusal :=
  issueStep 0x02 x false (fun c => bodyBrx c x) s

def bodyDvg (c : Nat) (x : Ops) : M Unit := do
  let pc ← ownPc c x
  let y ← crewM c
  push c ⟨.join, relTarget pc x, y.arch.act⟩
  enterNext c

/-- DVG (R84). -/
def execDvg (x : Ops) (s : State) : Host.Outcome State Fault Refusal :=
  issueStep 0x03 x false (fun c => bodyDvg c x) s

/-- CVG (R84). -/
def execCvg (x : Ops) (s : State) : Host.Outcome State Fault Refusal :=
  issueStep 0x04 x false (fun c => pop c) s

def bodyCall (c : Nat) (x : Ops) : M Unit := do
  let pc ← ownPc c x
  let y ← crewM c
  writeScalar c x.dst (BitVec.ofNat 64 y.arch.pc.toNat)
  jump c (relTarget pc x)

/-- CALL (R85). -/
def execCall (x : Ops) (s : State) : Host.Outcome State Fault Refusal :=
  issueStep 0x05 x false (fun c => bodyCall c x) s

def bodyRet (c : Nat) (x : Ops) : M Unit := do
  let v ← readScalar c x.sa
  jump c (targetOf v)

/-- RET (R85). -/
def execRet (x : Ops) (s : State) : Host.Outcome State Fault Refusal :=
  issueStep 0x06 x false (fun c => bodyRet c x) s

/-- Lanes leave the crew; with none left it pops (R86), otherwise the next instruction is a block entry (R104). -/
def leaveLanes (c : Nat) (m : Mask) : M Unit := do
  modA c fun a => a.removeLanes m
  let y ← crewM c
  if y.arch.act = 0 then pop c else enterNext c

def bodyExit (c : Nat) (x : Ops) : M Unit := do
  let m ← emask c x.head
  leaveLanes c m

/-- EXIT (R86). -/
def execExit (x : Ops) (s : State) : Host.Outcome State Fault Refusal :=
  issueStep 0x07 x false (fun c => bodyExit c x) s

def bodyLoop (c : Nat) (x : Ops) : M Unit := do
  let pc ← ownPc c x
  let v ← readScalar c x.dst
  -- s63 reads 0 and discards the write, so the counter is then all ones
  writeScalar c x.dst (v - 1)
  if v - 1 ≠ 0 then jump c (relTarget pc x) else enterNext c

/-- LOOP (R85). -/
def execLoop (x : Ops) (s : State) : Host.Outcome State Fault Refusal :=
  issueStep 0x08 x false (fun c => bodyLoop c x) s

/-- PPT (R101): the live-tile mask is recorded; under a hard pre-emption the crew stops after it. -/
def bodyPpt (c : Nat) (k : BitVec 12) : M Unit := do
  let y ← crewM c
  let s ← getS
  modC c fun z => { z with arch := { z.arch with lt := k.extractLsb' 0 8 },
                           stopAt := (s.ctx (s.ctxOf y)).pre == 2 }

/-- PPT (R101). -/
def execPpt (k : BitVec 12) (x : Ops) (s : State) : Host.Outcome State Fault Refusal :=
  issueStep 0x09 x false (fun c => bodyPpt c k) s

/-- TRAP and BKPT (R109): an empty effective mask makes them do nothing. -/
def bodyTrap (c : Nat) (x : Ops) (cause : Cause) : M Unit := do
  let m ← emask c x.head
  if m ≠ 0 then raiseAtCheckpoint c cause 0 (some m)

/-- TRAP n (R109): code 0x80 + n. -/
def execTrap (k : BitVec 12) (x : Ops) (s : State) : Host.Outcome State Fault Refusal :=
  issueStep 0xF0 x false (fun c => bodyTrap c x (BitVec.ofNat 8 (0x80 + k.toNat))) s

/-- ERET (R110): ILLOP where no handler is active; a misaligned EPC faults FETCHALIGN (R37). -/
def bodyEret (c : Nat) : M Unit := do
  let y ← crewM c
  let t := y.trapSet y.priv.toNat
  check t.act cIllop
  checkTarget c t.epc
  modC c fun z => z.leave

/-- ERET (R110). -/
def execEret (x : Ops) (s : State) : Host.Outcome State Fault Refusal :=
  issueStep 0xF1 x true (fun c => bodyEret c) s

/-- BKPT (R109). -/
def execBkpt (x : Ops) (s : State) : Host.Outcome State Fault Refusal :=
  issueStep 0xF2 x false (fun c => bodyTrap c x cBkpt) s

/-- SIGCHK (R105, R106, R322): a mismatch is recorded and faults. -/
def bodySigchk (c : Nat) (x : Ops) : M Unit := do
  let y ← crewM c
  if !y.anyAct then
    if y.arch.sig ≠ x.ext.extractLsb' 0 32 then
      let pc ← ownPc c x
      modS fun s => s.record { Rec.of (some (s.ctxOf y)) 0x0D 0 (coreInst (s.coreOf y)) with
        crew := s.crewId y, pc := pc.toNat, addr := y.arch.sig.toNat }
      faultAt cSigFault 0 y.arch.act
    modC c fun z => z.foldInstr 0xF3 x.head

/-- SIGCHK (R105). -/
def execSigchk (x : Ops) (s : State) : Host.Outcome State Fault Refusal :=
  crewStep x.head (fun c => issue c 0xF3 x false false (bodySigchk c x)) s

/-- SIGRST (R105, R106). -/
def bodySigrst (c : Nat) (x : Ops) : M Unit :=
  modC c fun y => if y.anyAct then y
    else { y with arch := { y.arch with sig := x.ext.extractLsb' 0 32, bb := y.arch.act } }

/-- SIGRST (R105). -/
def execSigrst (x : Ops) (s : State) : Host.Outcome State Fault Refusal :=
  crewStep x.head (fun c => issue c 0xF4 x false false (bodySigrst c x)) s

end Sys2Proof.Machine
end

