-- ==== Sys2Proof/Machine/MemOps.lean ====
section
/-!
DEFINITION. Machine/MemOps.lean: how memory instructions form and check addresses, and how their lanes are performed
(R160 to R165, R177, R178, R246, R247, R312, R328, R343, R344).
-/

namespace Sys2Proof.Machine

open Sys2Proof

/-- Bytes of an access (R158). -/
def Ty.size (t : Ty) : Nat :=
  match t with
  | .i8 | .n8 | .e4m3 | .e5m2 | .e2m1 => 1
  | .i16 | .n16 | .bf16 | .f16 => 2
  | .i64 | .n64 => 8
  | _ => 4

/-- The value of a tab at a lane. -/
def at0 (t : Tab Nat) (l : Nat) : Nat := Tab.getD t l 0

/-- A value for each lane of a mask. -/
def perLane (m : Mask) (f : Fin 32 → Nat) : Tab Nat := (lanesOf m).map fun l => (l.val, f l)

/-- Two byte ranges overlap. -/
def overlap (a n b k : Nat) : Bool := decide (a < b + k) && decide (b < a + n)

/-- The lanes of `m` that satisfy `p`. -/
def lanesWith (m : Mask) (p : Fin 32 → Bool) : Mask := m &&& maskOf p

/-- Raise `cause` for the lanes of `m` that satisfy `p`, with the address of the lowest (R161). A scalar form raises for
the effective mask (DEDUCED, log 20). -/
def faultLanes (uni : Bool) (m : Mask) (addr : Tab Nat) (cause : Cause) (p : Fin 32 → Bool) : M Unit :=
  let bad := lanesWith m p
  match lanesOf bad with
  | [] => pure ()
  | l :: _ => stop (.trap cause (at0 addr l.val) (if uni then none else some bad))

/-! ## Leases and the matrix queue -/

/-- A scratchpad range is leased to an engine command of the crew (R197). -/
def State.leased (s : State) (c off n : Nat) : Bool :=
  s.cmds.any fun p => p.2.crew == c && p.2.range.any fun r => overlap r.1 r.2 off n

/-- Gang-relative ranges that a queued matrix instruction still has to read, and to write (R155). -/
def MatKind.reads (m : MatKind) : List (Nat × Nat) :=
  match m with
  | .mma a _ fmt =>
    let cls := fld fmt 1 0
    let rowB := if cls = 0 then 256 else if cls = 3 then 64 else 128
    let k := if cls = 0 then 512 else if cls = 3 then 32 else 128
    let blk := fld fmt 5 4
    let nb := if blk = 0 then 0 else k / 2 ^ (blk + 2)
    [(a, 64 * rowB), (fld fmt 44 32 * 64, 6)]
      ++ (if blk = 0 then [] else [(fld fmt 18 6 * 64, 64 * nb), (fld fmt 31 19 * 64, 128 * nb)])
  | .ald off => [(off, 32768)]
  | _ => []

def MatKind.writes (m : MatKind) : List (Nat × Nat) :=
  match m with
  | .ast off => [(off, 32768)]
  | .selk off k => [(off, 768 * k)]
  | _ => []

/-- The bytes of the B-stack that an MMA reads: one range of each slice, by window address (R147). -/
def MatKind.slices (m : MatKind) (core : Nat) : List (Nat × Nat) :=
  match m with
  | .mma _ b fmt =>
    let n := if fld fmt 1 0 = 0 then 256 else if fld fmt 1 0 = 3 then 64 else 128
    (List.range 128).map fun c => (bstackPa core (0x8000 * c + b), n)
  | _ => []

/-- What a queued matrix instruction still has to read and to write, by window address: scratchpad bytes, slices of B, and its
tile. `spad`: window address of the gang's scratchpad. -/
def MatOp.touches (m : MatOp) (core spad : Nat) : List (Nat × Nat) :=
  (tilePa core m.tile, 0x8000) :: ((m.kind.reads ++ m.kind.writes).map fun r => (spad + r.1, r.2)) ++ m.kind.slices core

/-- An access of the crew must wait for the matrix array (R155). -/
def State.matrixBlocks (s : State) (core c : Nat) (off n : Nat) (writes : Bool) : Bool :=
  (s.core core).mats.any fun m => m.crew == c &&
    (m.kind.writes.any (fun r => overlap r.1 r.2 off n) || (writes && m.kind.reads.any fun r => overlap r.1 r.2 off n))

/-- Issued matrix instructions of a crew are not complete (R156). -/
def State.hasMatrix (s : State) (core c : Nat) : Bool := (s.core core).mats.any fun m => m.crew == c

/-! ## The memory trace (R343, R344) -/

/-- A signed value cut to w bits. -/
def cut (w : Nat) (v : Int) : Nat := wrapTo w v

/-- The bytes of a trace record. -/
def traceBytes (opc : Nat) (pc : Addr) (m : Mask) (addr : Tab Nat) (spad : Bool) (ty : Ty) (crewid stamp : Nat) :
    List Byte :=
  let ls := lanesOf m
  let a (l : Fin 32) : Int := at0 addr l.val
  let base := match ls with
    | [] => 0
    | l :: _ => at0 addr l.val
  let stride : Int := match ls with
    | l0 :: l1 :: _ =>
      let d := a l1 - a l0
      let n : Int := (l1.val : Int) - l0.val
      if d % n = 0 ∧ -(2 ^ 31 : Int) ≤ d / n ∧ d / n < 2 ^ 31 then d / n else 0
    | _ => 0
  let exc := match ls with
    | [] => []
    | l0 :: _ => ls.filterMap fun (l : Fin 32) =>
      let want := a l0 + stride * ((l.val : Int) - l0.val)
      if a l = want then none else some (l.val + 256 * cut 56 (a l - want))
  let fixed := bytesLE 8 (opc * 2 ^ 56 + pc.toNat) ++ bytesLE 8 base
    ++ bytesLE 8 (cut 32 stride * 2 ^ 32 + m.toNat)
    ++ bytesLE 8 (stamp % 2 ^ 32 * 2 ^ 32 + b2n spad * 2 ^ 28 + ty.code.toNat * 2 ^ 24 + exc.length * 2 ^ 16 + crewid)
  let words := (exc.map (bytesLE 8)).flatten
  fixed ++ words ++ List.replicate ((32 - words.length % 32) % 32) 0#8

/-- Write the trace record of a memory instruction at issue (R343). -/
def traceM (c opc : Nat) (pc : Addr) (m : Mask) (addr : Tab Nat) (spad : Bool) (ty : Ty) : M Unit := do
  let y ← crewM c
  let s ← getS
  let core := s.coreOf y
  let t := (s.core core).trc
  if t.en && s.observes t (s.ctxOf y) then
    let bytes := traceBytes opc pc m addr spad ty (s.crewId y) (Config.freeStamp s.tick).toNat
    let r := ringPut s.mem t bytes
    modS fun u => ({ u with mem := r.1, tick := u.tick + 1 }).modCore core fun k => { k with trc := r.2 }

/-! ## Window checks (R246) -/

/-- The gang whose scratchpad a crew below steward level reads through the window of core k: its own, or the gang of
its district group there. A frozen gang counts (R183). -/
def State.windowGang (s : State) (g : Nat) (core : Nat) : Option Nat :=
  match s.gang? g with
  | none => none
  | some x =>
    if x.core = core then some g
    else match s.grid? x.grid with
      | none => none
      | some l => match l.groupOf x.gid with
        | none => none
        | some j => Tab.findKey? s.gangs fun _ y => y.grid == x.grid && y.core == core && l.groupOf y.gid == some j
            && (match y.home with
              | .core => true
              | .frozen _ => true
              | _ => false)

/-- A gang is frozen (R183). -/
def State.isFrozen (s : State) (g : Nat) : Bool :=
  match s.gang? g with
  | some x => match x.home with
    | .frozen _ => true
    | _ => false
  | none => false

/-- The context of the crew that owns an entry, retired crews' entries by their gang. -/
def State.entryCtx (s : State) (e : Entry) : Option Nat := (s.gang? e.gang).map fun g => g.ctx

/-- The agent of a window access. -/
structure WinAgent where
  gang : Nat
  ctx  : Nat
  priv : BitVec 2
  deriving DecidableEq, Repr

/-- An absent crew of core `k` that has an open entry of number `e`, in a context that satisfies `p` (R17). -/
def State.absentOpen (s : State) (k e : Nat) (p : Nat → Bool) : Option Nat :=
  Tab.findKey? s.crews fun _ y => !y.resident && s.coreOf y == k && p (s.ctxOf y) && (match Tab.at? y.image e with
    | some en => en.st == .opened
    | none => false)

/-- A write to entry `e` of core `k`: a cause, or none (R17, R246). DESIGN CHOICE: where the number is both a resident
entry and an absent crew's open entry, the resident entry is meant (log 77). -/
def State.entryCheck (s : State) (ctx k e : Nat) : Option Cause :=
  match Tab.at? (s.core k).vs e with
  | some en => if s.entryCtx en ≠ some ctx then some cProt else if en.st ≠ .opened then some cMemFault else none
  | none =>
    if (s.absentOpen k e (· == ctx)).isSome then none
    else if (s.absentOpen k e fun _ => true).isSome then some cProt
    else some cMemFault

/-- A write to scratchpad bytes of a core meets a frozen gang's allocation (R183). -/
def State.meetsFrozen (s : State) (k off n : Nat) : Bool :=
  s.gangs.any fun p => p.2.core == k && s.isFrozen p.1 && overlap off n p.2.spad p.2.spLen

/-- Scratchpad bytes of a core lie in no RELEASING granule, which only the scrub engine reaches (R363). -/
def State.spadServes (s : State) (k off n : Nat) : Bool :=
  !(s.sec.owned.any fun o => o.owner.isNone && (match o.res with
    | .granule c g => c == k && overlap off n (256 * g) 256
    | .core c => c == k
    | .frame _ => false))

/-- What an access to window offset `off` of core `k` meets (R245, R246): a cause, or the physical address. A core that
another context owns, or that is RELEASING, serves no accumulator, B-stack or value-store access (R362, R363): PROT, which
is a DESIGN CHOICE (log 78). -/
def State.windowCheck (s : State) (w : WinAgent) (k off n : Nat) (write rmw : Bool) : Except Cause Nat :=
  let spad := off + n ≤ 0x60000
  let acc := 0x100000 ≤ off ∧ off + n ≤ 0x140000
  let vst := 0x200000 ≤ off ∧ off + n ≤ 0x280000
  let bst := 0x400000 ≤ off ∧ off + n ≤ 0x800000
  if ¬ (spad ∨ acc ∨ vst ∨ bst) then .error cMemFault
  else if rmw then .error cProt
  else if acc ∧ w.priv ≠ 2 then .error cProt
  else if bst ∧ !(s.ctxOnCore w.ctx k) then .error cProt
  else if ¬ spad ∧ !(s.coreServes w.ctx k) then .error cProt
  else if spad then
    if w.priv = 2 then
      if !(s.spadServes k off n) then .error cProt
      else if write && s.meetsFrozen k off n then .error cMemFault
      else .ok (winOf k + off)
    else match s.windowGang w.gang k with
      | none => .error cMemFault
      | some g => match s.gang? g with
        | none => .error cMemFault
        | some x =>
          if x.spLen < off + n then .error cMemFault
          else if write && s.isFrozen g then .error cMemFault
          else .ok (spadPa k (x.spad + off))
  else if vst then
    if !write then .error cMemFault
    else if n ≠ 4 ∧ n ≠ 8 then .error cMemFault
    else match s.entryCheck w.ctx k ((off - 0x200000) / 128) with
      | some c => .error c
      | none => .ok (winOf k + off)
  else .ok (winOf k + off)

/-- The 32-bit words of a write into an entry: fill the words, and bind the entry when all 32 are written (R17). -/
def fillEntry (e : Entry) (word : Nat) (v : Nat) (n : Nat) : Entry :=
  let ws := List.range (n / 4)
  let lanes := ws.foldl (fun (l : Lanes) i => l.setIfInBounds (word + i) (BitVec.ofNat 32 (v >>> (32 * i)))) e.lanes
  let fill := ws.foldl (fun m i => m ||| laneBit (word + i)) e.fill
  if fill = 0xFFFFFFFF#32 then { e with lanes := lanes, fill := fill, st := .bound } else { e with lanes := lanes, fill := fill }

/-- A record of kind 3 for the arrival log of a context (R290). -/
def logWindow (core entry count off data : Nat) : List Byte :=
  bytesLE 8 (3 + core * 2 ^ 4 + entry * 2 ^ 20 + count * 2 ^ 32) ++ bytesLE 8 off ++ bytesLE 8 data ++ bytesLE 8 0

/-- A checked write of 4 or 8 bytes to a value-store window offset by a context: the resident entry is filled, or the
write to an absent crew's open entry is logged (R17, R290); `none` while the arrival log is full. -/
def State.writeEntry (s : State) (ctx k off n v : Nat) : Option State :=
  let e := (off - 0x200000) / 128
  let word := (off - 0x200000) % 128 / 4
  match Tab.at? (s.core k).vs e with
  | some en => some (s.modCore k fun c => { c with vs := Tab.put c.vs e (fillEntry en word v n) })
  | none =>
    if (s.absentOpen k e (· == ctx)).isSome then s.appendLog ctx (logWindow k e n word v) else none

/-! ## Atomic operations (R177) -/

/-- NEW of rmw: op 0 add, 1 min, 2 max, 3 and, 4 or, 5 xor, 6 exch, 7 cas. -/
def rmwNew (op : Nat) (ty : Ty) (old b c : Nat) : Nat :=
  let w := 8 * Ty.size ty
  let f := ty == .f32
  match op with
  | 0 => if f then Alu.faddE Num.f32 .rn old b else (old + b) % 2 ^ w
  | 1 => if f then Alu.fmin old b else wrapTo w (min (Alu.valI ty old) (Alu.valI ty b))
  | 2 => if f then Alu.fmax old b else wrapTo w (max (Alu.valI ty old) (Alu.valI ty b))
  | 3 => (old &&& b) % 2 ^ w
  | 4 => (old ||| b) % 2 ^ w
  | 5 => (old ^^^ b) % 2 ^ w
  | 6 => b % 2 ^ w
  | _ => if old % 2 ^ w = b % 2 ^ w then c % 2 ^ w else old % 2 ^ w

/-- An atomic is allowed on host memory: integer add, exch and CAS at 4 or 8 bytes (R171). -/
def hostAtomOk (op : Nat) (ty : Ty) : Bool := (op == 0 && ty != .f32) || op == 6 || op == 7

/-! ## Where lanes lie -/

/-- The crew agent of window accesses. -/
def State.winAgent (s : State) (x : Crew) (priv : BitVec 2) : WinAgent :=
  { gang := x.gang, ctx := s.ctxOf x, priv := priv }

/-- The outcome for one lane: translation, then the window checks of R246 (R161 step 3, R171). -/
def State.laneXlat (s : State) (x : Crew) (a : Access) (va : Nat) : Xlat × State :=
  let rmw := match a.kind with
    | .rmw op => some op
    | _ => none
  let core := s.coreOf x
  if inWindow va then
    let r := s.windowCheck (s.winAgent x a.priv) ((va - winBase) / 0x800000) ((va - winBase) % 0x800000) a.size
      (a.kind != .load) rmw.isSome
    match r with
    | .error c => (.fault c, s)
    | .ok pa => (.ok ⟨pa, 0⟩, s)
  else
    let t := s.translate (some core) (dieOf core) (s.ctxOf x) a.priv (if a.kind = .load then .read else .write) va a.size
    match t.1, rmw with
    | .ok p, some op => if regionOf p.pa = .host ∧ ¬ hostAtomOk op a.ty then (.fault cProt, t.2) else t
    | _, _ => t

/-- Where the lanes of an access lie, by physical address; an access not yet translated would lie where a walk now finds
it. -/
def State.placesOf (s : State) (x : Crew) (a : Access) : List (Nat × Place) :=
  match a.place with
  | some t => t
  | none => (lanesOf a.lanes).filterMap fun l => match (s.laneXlat x a (at0 a.addr l.val)).1 with
      | .ok p => some (l.val, p)
      | _ => none

/-- An acquire (R172). -/
def Access.acquires (a : Access) : Bool := a.ord == 1 || a.ord == 3

/-! ## Miss slots (R249, R250) -/

/-- The HBM bank of a line, as R244 identifies banks: its stack and bits 17:8 of its offset there. -/
def bankOf (line : Nat) : Option Nat :=
  if regionOf (128 * line) = .hbm then some (128 * line / 0x2000000000 * 1024 + 128 * line / 256 % 1024) else none

/-- The distinct lines of a global access that the L1 does not serve: a plain load of a line that it holds under the same
slot needs no miss slot. -/
def State.missLines (s : State) (x : Crew) (a : Access) : List Nat :=
  let served (n : Nat) : Bool := a.kind == .load && a.ord == 0 && (match Tab.at? (s.core (s.coreOf x)).lines n with
    | some l => (s.placesOf x a).any fun p => p.2.pa / 128 == n && p.2.key == l.key
    | none => false)
  ((s.placesOf x a).map fun p => p.2.pa / 128).eraseDups.filter fun n => !(served n)

/-- The miss slots that an access still holds: a store's line until its lanes are performed, any other's until the data or
acknowledgement returns. -/
def Access.held (a : Access) : List Nat :=
  match a.kind, a.place with
  | .store, some t => a.slots.filter fun n => t.any fun p => !(a.done.getLsbD p.1) && p.2.pa / 128 == n
  | _, _ => a.slots

/-- The miss slots of a core that are held, by line. -/
def State.slotsHeld (s : State) (core : Nat) : List Nat :=
  (s.crews.map fun p => if s.coreOf p.2 = core then (p.2.acc.map Access.held).flatten else []).flatten
    ++ (s.arrive.map fun p => match s.crew? p.2.crew with
      | some x => if s.coreOf x = core then p.2.slots else []
      | none => []).flatten

/-- Why a global instruction with these lines does not issue (R250): `some true` a bank's quota of 64, `some false` too few
free slots of the 256. -/
def State.slotStall (s : State) (core : Nat) (lines : List Nat) : Option Bool :=
  let held := s.slotsHeld core
  let all := held ++ lines
  if lines.any fun n => (bankOf n).isSome && decide (64 < (all.filter fun k => bankOf k == bankOf n).length) then some true
  else if 256 < all.length then some false
  else none

/-! ## Performing lanes -/

/-- No higher lane of the instruction writes the byte at physical address `pa` (R164). -/
def winsByte (a : Access) (lane pa : Nat) : Bool :=
  match a.place with
  | none => true
  | some t => !(t.any fun q => decide (lane < q.1) && decide (q.2.pa ≤ pa) && decide (pa < q.2.pa + a.size))

/-- Store the bytes of one lane through `putB`, byte runs that no higher lane writes. -/
def storeLane (a : Access) (lane pa : Nat) (putB : State → Nat → List Byte → State) (s : State) : State :=
  let bs := bytesLE a.size (at0 a.datB lane)
  if (List.range a.size).all fun i => winsByte a lane (pa + i) then putB s pa bs
  else (List.range a.size).foldl (fun t i =>
    if winsByte a lane (pa + i) then putB t (pa + i) ((bs.drop i).take 1) else t) s

/-- What performing a lane finds. -/
inductive LaneRes where
  | ok (s : State) (v : Nat)            -- performed, with the value read
  | bad (s : State)                     -- performed; the value is marked uncorrectable (R312, R392)
  | kill (kind inst addr : Nat)         -- a marked on-chip word was consumed, which kills the reading gang (R305)
  | wait                                -- a full arrival log (R290)
  deriving DecidableEq, Repr

/-- Whose access meets an on-chip word: its gang, CREWID and PC. -/
structure Reader where
  gang : Nat
  crew : Nat
  pc   : Nat
  deriving DecidableEq, Repr

/-- The gang that owns the tile at an accumulator-window offset of a core. -/
def State.tileGang (s : State) (core off : Nat) : Option Nat :=
  ((Tab.at? (s.core core).tiles ((off - 0x100000) / 0x8000)).bind fun t => s.crew? t.crew).map fun x => x.gang

/-- A marked word at a window offset is consumed (R305): `none` where the reading gang is killed. Bad accumulator data
kills the gang that owns the tile, and the access goes on where that is another one; a tile that no gang owns kills
none. -/
def State.chipMark (s : State) (core off : Nat) (r : Reader) : Option State :=
  if 0x100000 ≤ off ∧ off < 0x140000 then
    match s.tileGang core off with
    | none => some s
    | some g =>
      if g = r.gang then none
      else some (s.gangKill g { cause := cPoison, kind := 0x03, inst := coreInst core, addr := off, crew := r.crew,
                                pc := r.pc, again := true })
  else none

/-- The KIND of the unit behind a window offset. -/
def windowKind (off : Nat) : Nat :=
  if off < 0x100000 then 0x02 else if off < 0x200000 then 0x03 else if off < 0x400000 then 0x01 else 0x04

/-- A write to window offset `off` reads a marked word, to merge into it: in the scratchpad alone (R403). -/
def State.mergesBad (s : State) (off pa n : Nat) : Bool := decide (off < 0x100000) && s.mergesMarked pa n

/-- One lane on on-chip memory at window address `pa` (R403). -/
def performChip (s : State) (core : Nat) (r : Reader) (a : Access) (lane pa : Nat) : LaneRes :=
  let v := s.mem.readNat pa a.size
  let off := pa - winOf core
  let reads := if a.kind = .store then s.mergesBad off pa a.size else s.marked pa a.size
  match (if reads then s.chipMark core (s.firstMark pa a.size - winOf core) r else some s) with
  | none => .kill (windowKind off) (coreInst core) (s.firstMark pa a.size - winOf core)
  | some t => match a.kind with
    | .load => .ok t v
    | .store => .ok (storeLane a lane pa State.writeChip t) 0
    | .rmw op => .ok (t.writeChip pa (bytesLE a.size (rmwNew op a.ty v (at0 a.datB lane) (at0 a.datC lane)))) v

/-- One lane on HBM, host or peer memory (R163, R164, R171, R247, R312, R360, R392). -/
def performMem (s : State) (core : Nat) (a : Access) (lane : Nat) (p : Place) : LaneRes :=
  let r := regionOf p.pa
  if !(s.answers p.pa a.size) then .bad s
  else
    let poisoned := s.badFor p.key p.pa a.size
    match a.kind with
    | .load =>
      if r = .hbm ∧ a.ord = 0 ∧ ¬ poisoned then
        let q := s.loadCached core p.key p.pa a.size
        .ok q.2 (ofBytesLE q.1)
      else
        let s1 := if a.ord = 0 then s else s.dropLine core p.pa
        if poisoned then .bad s1 else .ok s1 (ofBytesLE (s1.readKey p.key p.pa a.size))
    | .store => .ok (storeLane a lane p.pa (fun t pa bs => t.storeThrough core p.key pa bs) s) 0
    | .rmw op =>
      let s1 := s.dropLine core p.pa
      let v := ofBytesLE (s1.readKey p.key p.pa a.size)
      let s2 := s1.writeKey p.key p.pa (bytesLE a.size (rmwNew op a.ty v (at0 a.datB lane) (at0 a.datC lane)))
      if poisoned then .bad s2 else .ok s2 v

/-- Replace an access of a crew. -/
def Crew.setAccess (x : Crew) (a : Access) : Crew :=
  { x with acc := x.acc.map fun b => if b.id = a.id then a else b }

/-- The access is over: it leaves the list, its data is on its way, and the checkpoint advances (R18, R163). -/
def State.endAccess (s : State) (c : Nat) (a : Access) : State :=
  let s1 := s.modCrew c fun x => { x with acc := x.acc.filter fun b => b.id != a.id }
  let s2 := match a.dest with
    | .none => s1
    | d =>
      let v : Arrival := { crew := c, ty := a.ty, dest := d, lanes := a.lanes, value := a.value, bad := a.bad,
                           slots := a.slots }
      { s1 with arrive := Tab.put s1.arrive a.id v }
  s2.settle c

/-- A scalar form: one access at the scalar base (R165). -/
def Access.isScalar (a : Access) : Bool :=
  match a.dest with
  | .scalar _ => true
  | _ => false

/-- Outcome of performing lanes of an access. -/
inductive PerfRes where
  | ok (s : State)
  | kill (s : State) (kind inst addr : Nat)
  | wait
  deriving DecidableEq, Repr

/-- Perform lanes in ascending order through `one`. A scalar load whose value is bad kills the gang with POISON
(R312). -/
def performLanes (one : State → Access → Nat → Place → LaneRes) (c : Nat) : List (Fin 32) → Access → State → PerfRes
  | [], a, s =>
    if a.lanes &&& ~~~ a.done = 0 then .ok (s.endAccess c a) else .ok (s.modCrew c fun x => x.setAccess a)
  | l :: ls, a, s =>
    match a.place.bind fun t => Tab.at? t l.val with
    | none => performLanes one c ls a s
    | some p =>
      match one s a l.val p with
      | .kill k i ad => .kill s k i ad
      | .wait => .wait
      | .ok s1 v =>
        performLanes one c ls { a with done := a.done ||| laneBit l.val, value := Tab.put a.value l.val v } s1
      | .bad s1 =>
        if a.isScalar then .kill s1 (s1.badUnit p.pa).1 (s1.badUnit p.pa).2 p.pa
        else performLanes one c ls { a with done := a.done ||| laneBit l.val, value := Tab.put a.value l.val 0,
                                            bad := a.bad ||| laneBit l.val } s1

/-! ## Watchpoints (R327, R328) -/

/-- A lane's bytes meet a watchpoint. -/
def Watch.hits (w : Watch) (l : Fin 32) (off n : Nat) (rd wr : Bool) : Bool :=
  decide (w.base.toNat < w.lim.toNat) && overlap off n w.base.toNat (w.lim.toNat - w.base.toNat)
    && (w.lanes == 0 || w.lanes[l]) && ((rd && w.rd) || (wr && w.wr))

/-- Lanes that match any watchpoint. -/
def watchLanes (g : Gang) (m : Mask) (addr : Tab Nat) (n : Nat) (rd wr : Bool) : Mask :=
  lanesWith m fun l => g.watch.toList.any fun w => w.hits l (at0 addr l.val) n rd wr

/-- WPHIT after a hit (R327). -/
def hitWord (g : Gang) (m : Mask) (addr : Tab Nat) (n : Nat) (rd wr : Bool) : DWord :=
  let wp := ((List.range 4).find? fun i => match g.watch.toList[i]? with
    | some w => (lanesOf m).any fun l => w.hits l (at0 addr l.val) n rd wr
    | none => false).getD 0
  let off := match lanesOf m with
    | [] => 0
    | l :: _ => at0 addr l.val
  put 1 63 1 ||| put wp 61 2 ||| put (b2n wr) 60 1 ||| put (b2n rd) 59 1 ||| put off 32 19 ||| put m.toNat 0 32

/-- The watchpoint test of LDS, STS and ATOMS (R328). DESIGN CHOICE: the one access of a scalar form is that of lane 0 (log 101). -/
def watchM (c : Nat) (m : Mask) (addr : Tab Nat) (n : Nat) (rd wr : Bool) : M Unit := do
  let y ← crewM c
  let g ← gangM c
  if y.priv = 0 && !y.anyAct && !y.exempt then
    let hit := watchLanes g m addr n rd wr
    match lanesOf hit with
    | [] => pure ()
    | l :: _ =>
      modS fun s => s.modGang y.gang fun w => if w.wphit[63] then w else { w with wphit := hitWord g hit addr n rd wr }
      faultAt cWatch (at0 addr l.val) hit

end Sys2Proof.Machine
end

