-- ==== Sys2Proof/Machine/MemInstr.lean ====
section
/-!
DEFINITION. Machine/MemInstr.lean: loads, stores, prefetch, atomics, fences and the two translation instructions as they
issue (R157 to R166, R176, R177, R184, R185). What becomes of their accesses is in Machine/MemEvents.lean.
-/

namespace Sys2Proof.Machine

open Sys2Proof

/-- A[L] or O[L] from a lane's base (R160). -/
def memAddr (glob : Bool) (base : DWord) (x : Ops) : Nat :=
  let a := (base + sext64 32 x.ext.toNat).toNat
  if glob then a else a % 2 ^ 32

/-- The gang-relative offset of a global address that lies in the crew's own scratchpad allocation, seen through the
window of its own core (R161, R246). -/
def State.ownSpad (s : State) (x : Crew) (g : Gang) (a : Nat) : Option Nat :=
  let base := winOf (s.coreOf x)
  if base ≤ a ∧ a < base + 0x60000 then
    (if x.priv = 2 then (if g.spad ≤ a - base then some (a - base - g.spad) else none) else some (a - base))
  else none

/-- The bytes of a lane are such as an earlier matrix instruction of the crew still has to read or to write, or lie in a tile
that it names (R155). -/
def State.laneBlocked (s : State) (c : Nat) (x : Crew) (g : Gang) (glob : Bool) (a n : Nat) (writes : Bool) : Bool :=
  let core := s.coreOf x
  (match (if glob then s.ownSpad x g a else some a) with
    | some o => s.matrixBlocks core c o n writes
    | none => false)
  || (glob && (s.core core).mats.any fun m => m.crew == c && overlap a n (tilePa core m.tile) 0x8000)

/-- The names of a vector destination: one, or a pair (R113). -/
def dstNames (x : Ops) (pair : Bool) : List Nat :=
  if x.cnt = 0 then [] else if pair then [x.dst.toNat, x.dst.toNat + 1] else [x.dst.toNat]

/-- NAMELIVE of a destination comes before the faults of the operation (R56). -/
def checkDst (c : Nat) (ns : List Nat) : M Unit := do
  let x ← crewM c
  for n in ns do check (Tab.at? x.arch.names n).isNone cNameLive

/-- Half `h` of a pending destination waits for access `id`. -/
def tagEntry (c e id h : Nat) : M Unit :=
  modVs c fun vs => match Tab.at? vs e with
    | some en => Tab.put vs e { en with tag := 2 * id + h }
    | none => vs

/-- Tag the entries of a destination in order. -/
def tagAll (c id : Nat) : Nat → List Nat → M Unit
  | _, [] => pure ()
  | h, e :: es => do
    tagEntry c e id h
    tagAll c id (h + 1) es

/-- Where the value goes. -/
def destOf (x : Ops) (dst pair : Bool) : Dest :=
  if !dst then .none
  else if x.head.uni then .scalar (scalarNo x.dst)
  else if x.cnt = 0 then .none
  else .name x.dst.toNat pair

/-- What a memory instruction is: its opcode, whether it is addressed by virtual address, what it does, whether it has a
destination. -/
structure MemForm where
  opc  : Nat
  glob : Bool
  kind : AccKind
  dst  : Bool
  deriving DecidableEq, Repr

/-- The faults of step 4 and before that need no translation (R160, R161), then the watchpoints (R328). -/
def memChecks (c : Nat) (q : MemForm) (x : Ops) (f : FnM) (m : Mask) (addr : Tab Nat) : M Unit := do
  let y ← crewM c
  let g ← gangM c
  let s ← getS
  let size := (Ty.size f.ty)
  faultLanes x.head.uni m addr cAlign fun l => at0 addr l.val % size != 0
  if q.glob then
    faultLanes x.head.uni m addr cMemFault fun l => decide (2 ^ 52 ≤ at0 addr l.val)
  else
    faultLanes x.head.uni m addr cMemFault fun l => decide (g.spLen < at0 addr l.val + size)
    faultLanes x.head.uni m addr cLease fun l => s.leased c (at0 addr l.val) size
    watchM c m addr size (q.kind != .store) (q.kind != .load)
  if (lanesOf m).any fun l => s.laneBlocked c y g q.glob (at0 addr l.val) size (q.kind != .load) then park .matrix

/-- The data of a store or an atomic. -/
def memData (c : Nat) (q : MemForm) (x : Ops) (f : FnM) : M Vals :=
  if q.kind = .load then pure noVals else readSrc c x.head x.sb f.ty.wide

/-- The new value of a CAS. -/
def memCompare (c : Nat) (q : MemForm) (x : Ops) (f : FnM) : M Vals :=
  if q.kind = .rmw 7 then readSrc c x.head x.sc f.ty.wide else pure noVals

/-- The entries of the destination's names. -/
def memNames (c : Nat) (names : List Nat) (count : Nat) (st : EState) : M (List Nat) :=
  if names.isEmpty then pure [] else allocNames c names count st

/-- A record of the memory trace for lanes whose bases are `base` (R343). -/
def traceLanes (c : Nat) (q : MemForm) (x : Ops) (f : FnM) (pc : Addr) (base : Fin 32 → DWord) : M Unit := do
  let m ← emask c x.head
  traceM c q.opc pc m (perLane m fun l => memAddr q.glob (base l) x) (!q.glob) f.ty

/-- Run a part of a memory instruction; where it faults, the record `tr` is written all the same, since the record comes
before the fault is checked (R343). -/
def traced {α : Type} (tr : M Unit) (act : M α) : M α := fun s =>
  match act s with
  | .error (.trap k a m) t => match tr t with
    | .ok _ u => .error (.trap k a m) u
    | .error _ _ => .error (.trap k a m) t
  | r => r

/-- The record of an instruction whose base cannot be read: the spec gives its addresses no value, so they are free
values (log 79). -/
def traceNoBase (c : Nat) (q : MemForm) (x : Ops) (f : FnM) (pc : Addr) : M Unit := do
  let s ← getS
  traceLanes c q x f pc fun l => Config.freeLane s.tick l.val

/-- The access of a memory instruction with its miss slots: it parks where the core has not enough (R249, R250). -/
def accessM (c : Nat) (k : Snap) (q : MemForm) (x : Ops) (f : FnM) (pc : Addr) (m : Mask) (addr : Tab Nat)
    (vb vc : Vals) : M Access := do
  let y ← crewM c
  let g ← gangM c
  let s ← getS
  let core := s.coreOf y
  let a : Access :=
    { id := s.nextId, snap := k, pc := pc, opc := q.opc, kind := q.kind, ty := f.ty, size := (Ty.size f.ty), ord := f.ord,
      scope := f.scope, spad := !q.glob, priv := y.priv, lanes := m, addr := addr,
      datB := perLane m fun l => vb[l].toNat, datC := perLane m fun l => vc[l].toNat,
      place := if q.glob then none
               else some ((lanesOf m).map fun l => (l.val, ⟨spadPa core (g.spad + at0 addr l.val), 0⟩)),
      done := 0, value := [], bad := 0, dest := destOf x q.dst f.ty.wide, slots := [], exempt := y.exempt }
  let lines := if q.glob then s.missLines y a else []
  match s.slotStall core lines with
  | some bank => park (.slots bank lines)
  | none => pure { a with slots := lines }

/-- A memory instruction at issue (R161 to R165, R177): sources, addresses, the trace record, checks, the destination,
and the access that is now unperformed. `k`: the state before the instruction. -/
def memBody (c : Nat) (k : Snap) (q : MemForm) (x : Ops) (f : FnM) : M Unit := do
  let pc ← ownPc c x
  let m0 ← emask c x.head
  modC c fun y => { y with hold := m0 != 0 }
  let base ← traced (traceNoBase c q x f pc) (readSrc c x.head x.sa q.glob)
  let trace := traceLanes c q x f pc fun l => base[l]
  let vb ← traced trace (memData c q x f)
  let vc ← traced trace (memCompare c q x f)
  trace
  let em ← emask c x.head
  let m : Mask := if x.head.uni then 1#32 else em
  let addr := perLane m fun l => memAddr q.glob base[l] x
  let names := if q.dst && !x.head.uni then dstNames x f.ty.wide else []
  checkDst c names
  memChecks c q x f m addr
  let a ← accessM c k q x f pc m addr vb vc
  let es ← memNames c names x.cnt.toNat (if m = 0 then .bound else .pending)
  if m ≠ 0 then
    tagAll c a.id 0 es
    modS fun t => { t with nextId := t.nextId + 1 }
    modC c fun z => { z with acc := z.acc ++ [a],
                             park := if q.dst && x.head.uni then some (.scalar a.id) else z.park }

/-- The crew's issued matrix instructions are complete before a release (R156). -/
def matrixFence (c : Nat) (rel : Bool) : M Unit := do
  let y ← crewM c
  let s ← getS
  if rel && s.hasMatrix (s.coreOf y) c then park .matrix

/-- Issue of a memory instruction: bound to the checkpoint where it releases or is atomic (R19). -/
def memIssue (q : MemForm) (x : Ops) (f : FnM) (c : Nat) : M Unit := do
  let w ← crewM c
  let rel := f.ord = 2 ∨ f.ord = 3
  let rmw := match q.kind with
    | .rmw _ => true
    | _ => false
  matrixFence c (decide rel)
  issue c q.opc x (decide rel || rmw) true (memBody c ⟨w.arch, w.seq⟩ q x f)

def memStep (q : MemForm) (f : FnM) (x : Ops) (s : State) : Host.Outcome State Fault Refusal :=
  crewStep x.head (memIssue q x f) s

/-- LD (R163, R165). -/
def execLd (f : FnM) (x : Ops) (s : State) : Host.Outcome State Fault Refusal :=
  memStep ⟨0xA0, true, .load, true⟩ f x s

/-- ST (R164). -/
def execSt (f : FnM) (x : Ops) (s : State) : Host.Outcome State Fault Refusal :=
  memStep ⟨0xA1, true, .store, false⟩ f x s

/-- LDS (R163, R165). -/
def execLds (f : FnM) (x : Ops) (s : State) : Host.Outcome State Fault Refusal :=
  memStep ⟨0xA2, false, .load, true⟩ f x s

/-- STS (R164). -/
def execSts (f : FnM) (x : Ops) (s : State) : Host.Outcome State Fault Refusal :=
  memStep ⟨0xA3, false, .store, false⟩ f x s

/-- ATOM (R177). -/
def execAtom (f : FnM) (x : Ops) (s : State) : Host.Outcome State Fault Refusal :=
  memStep ⟨0xB0, true, .rmw f.sub.toNat, true⟩ f x s

/-- CAS (R177). -/
def execCas (f : FnM) (x : Ops) (s : State) : Host.Outcome State Fault Refusal :=
  memStep ⟨0xB1, true, .rmw 7, true⟩ f x s

/-- RED (R177). -/
def execRed (f : FnM) (x : Ops) (s : State) : Host.Outcome State Fault Refusal :=
  memStep ⟨0xB2, true, .rmw f.sub.toNat, false⟩ f x s

/-- ATOMS (R177). -/
def execAtoms (f : FnM) (x : Ops) (s : State) : Host.Outcome State Fault Refusal :=
  memStep ⟨0xB3, false, .rmw f.sub.toNat, true⟩ f x s

/-! ## PREF (R166) -/

/-- One lane of a PREF: its line is requested if it can be translated, lies in HBM and is not in the L1, and a miss slot is
free (R166, R249); a line requested into the L1 comes there. `got`: the lines requested so far. -/
def State.prefetch (s : State) (x : Crew) (l1 : Bool) (size a : Nat) (got : List Nat) : List Nat × State :=
  let core := s.coreOf x
  if 2 ^ 52 ≤ a ∨ a % size ≠ 0 ∨ inWindow a then (got, s)
  else match s.translate (some core) (dieOf core) (s.ctxOf x) x.priv .read a 1 with
    | (.ok p, t) =>
      let n := p.pa / 128
      let there : Bool := match Tab.at? (t.core core).lines n with
        | some l => l.key == p.key
        | none => false
      if regionOf p.pa ≠ .hbm ∨ there ∨ got.contains n ∨ t.slotStall core (got ++ [n]) ≠ none then (got, t)
      else (got ++ [n], if l1 && !(t.poisoned p.pa 1) then (t.loadCached core p.key p.pa 1).2 else t)
    | (_, _) => (got, s)

/-- The lanes of a PREF: each line that is requested holds a miss slot until its data returns (R249). -/
def State.prefetchAll (s : State) (c : Nat) (x : Crew) (l1 : Bool) (ty : Ty) (addr : Tab Nat) : State :=
  let r := addr.foldl (fun q p => q.2.prefetch x l1 (Ty.size ty) p.2 q.1) ([], s)
  if r.1.isEmpty then r.2
  else { r.2 with
    nextId := r.2.nextId + 1,
    arrive := Tab.put r.2.arrive r.2.nextId
      { crew := c, ty := ty, dest := .none, lanes := 0, value := [], bad := 0, slots := r.1 } }

/-- A source can be read: a scalar, or a bound name whose entry holds its value (R30). -/
def State.canRead (s : State) (x : Crew) (code : BitVec 8) (wide : Bool) : Bool :=
  let one (n : Nat) : Bool := match Tab.at? x.arch.names n with
    | none => false
    | some b => match Tab.at? (s.core (s.coreOf x)).vs b.entry with
      | some e => e.st == .bound
      | none => false
  !(isVec code) || (one code.toNat && (!wide || one (code.toNat + 1)))

/-- PREF: `.l2` brings nothing into the L1. It never faults after decoding: where its base cannot be
read it does nothing (log 46). -/
def prefBody (c : Nat) (f : FnM) (x : Ops) : M Unit := do
  let q : MemForm := ⟨0xA4, true, .load, false⟩
  let pc ← ownPc c x
  let s ← getS
  let w ← crewM c
  if s.canRead w x.sa true then
    let base ← readSrc c x.head x.sa true
    traceLanes c q x f pc fun l => base[l]
    let m ← emask c x.head
    let y ← crewM c
    modS fun s => s.prefetchAll c y (f.sub == 0) f.ty (perLane m fun l => memAddr true base[l] x)
  else traceNoBase c q x f pc

/-- PREF (R166). -/
def execPref (f : FnM) (x : Ops) (s : State) : Host.Outcome State Fault Refusal :=
  issueStep 0xA4 x false (fun c => prefBody c f x) s

/-! ## PMAP, TLBINV, FENCE -/

/-- The end of an instruction whose result an event has delivered to the crew. -/
def deliver (c : Nat) (body : DWord → M Unit) : M Unit := do
  let y ← crewM c
  match y.waitEvt with
  | some v =>
    modC c fun z => { z with waitEvt := none }
    body v
  | none => pure ()

/-- An instruction that waits for the device: at first it starts the wait `p` and parks; once its result is there it
issues to its end. `ckpt`: bound to the checkpoint. -/
def twoPhase (c opc : Nat) (x : Ops) (ckpt : Bool) (start : M Park) (body : DWord → M Unit) : M Unit := do
  let y ← crewM c
  match y.waitEvt with
  | some _ => issue c opc x ckpt true (deliver c body)
  | none =>
    let vs ← vsM c
    if x.head.sw && switchWaits y vs then park .switch
    if ckpt && !y.acc.isEmpty then park .checkpoint
    let p ← start
    modC c fun z => { z with park := some p }

/-- PMAP (R184): it parks until PMAP_COMPLETE. -/
def runPmap (c : Nat) (x : Ops) : M Unit := do
  needPriv c 1
  twoPhase c 0xA5 x false
    (do
      let va ← readScalar c x.sa
      let attr ← readScalar c x.sb
      pure (.pmap (va.toNat % 2 ^ 52) attr.toNat))
    (fun v => writeScalar c x.dst v)

/-- PMAP (R184). -/
def execPmap (x : Ops) (s : State) : Host.Outcome State Fault Refusal :=
  crewStep x.head (fun c => runPmap c x) s

/-- TLBINV (R185): it begins when every earlier access is performed, and parks until TLBINV_COMPLETE. -/
def runTlbinv (c : Nat) (f : FnM) (x : Ops) : M Unit := do
  needPriv c 1
  twoPhase c 0xA6 x true
    (do
      if f.sub = 0 then
        let va ← readScalar c x.sa
        pure (.tlbinv (some (va.toNat % 2 ^ 52)))
      else pure (.tlbinv none))
    (fun _ => pure ())

/-- TLBINV (R185). -/
def execTlbinv (f : FnM) (x : Ops) (s : State) : Host.Outcome State Fault Refusal :=
  crewStep x.head (fun c => runTlbinv c f x) s

/-- What an acquire at a scope does to the L1 of the crew's core (R247). -/
def acquireM (c scope : Nat) : M Unit := do
  let y ← crewM c
  modS fun s => s.acquireL1 (s.coreOf y) scope

/-- FENCE (R176): of every order it waits for the crew's issued matrix instructions, whose reads and writes it orders before
what follows (R156, R172). -/
def runFence (c : Nat) (f : FnM) (x : Ops) : M Unit := do
  matrixFence c true
  issue c 0xB4 x true true (do if f.ord = 1 || f.ord = 3 then acquireM c f.scope.toNat)

/-- FENCE (R176). -/
def execFence (f : FnM) (x : Ops) (s : State) : Host.Outcome State Fault Refusal :=
  crewStep x.head (fun c => runFence c f x) s

end Sys2Proof.Machine
end

