-- ==== Sys2Proof/Machine/Barrier.lean ====
section
/-!
DEFINITION. Machine/Barrier.lean: BAR, BARA and BARW (R179 to R183).
-/

namespace Sys2Proof.Machine

open Sys2Proof

/-- The level and number that a barrier instruction names (R51). -/
def barLevel (f : FnM) : Nat := f.scope.toNat
def barNo (f : FnM) : Nat := f.ty.code.toNat

/-- The barrier exists: a district barrier needs district grouping, a grid barrier the co-residency flag (R179). -/
def State.hasBarrier (s : State) (g : Gang) (level : Nat) : Bool :=
  match s.grid? g.grid with
  | none => false
  | some l => level == 1 || (level == 2 && (l.groupOf g.gid).isSome) || (level == 3 && recField l.record 24 32 32 == 1)

/-- The last phase in which a crew arrived at a barrier; `none` before its first arrival. -/
def Crew.arrived (x : Crew) (level n : Nat) : Option Nat := Tab.at? x.barSeen (barKey level n)

/-- The result word (R181): PEERDOWN of the level and the phase. -/
def barResult (x : Crew) (level p : Nat) : DWord :=
  put (b2n (x.down.getLsbD (level - 1))) 32 1 ||| put p 0 32

/-- The phase that a completed wait returns: the one the crew last arrived in, or the phase before the open one. -/
def State.waitPhase (s : State) (x : Crew) (level n : Nat) : Nat :=
  match x.arrived level n with
  | some p => p
  | none => (s.phase level n x.gang + 2 ^ 32 - 1) % 2 ^ 32

/-- The return of BAR and BARW: an acquire, and the result word (R180 to R182). -/
def barReturn (c level n : Nat) (x : Ops) : M Unit := do
  let y ← crewM c
  let s ← getS
  writeScalar c x.dst (barResult y level (s.waitPhase y level n))
  if level = 2 && y.down.getLsbD 1 then modS fun t => t.thaw [c]
  modC c fun z => { z with down := z.down &&& ~~~ (1#3 <<< (level - 1)) }
  acquireM c level

/-- The crew's last arrival stands in the open phase. -/
def State.waits_ (s : State) (x : Crew) (level n : Nat) : Bool :=
  x.arrived level n == some (s.phase level n x.gang)

/-- arrive(B): the arrival counts in the open phase, and the last one completes it (R180). An arrival at a barrier whose
context is saved goes to its arrival log; `none` while that takes no record (R290). -/
def State.arriveAt (s : State) (c level n : Nat) : Option State :=
  match s.crew? c with
  | none => some s
  | some x =>
    let p := s.phase level n x.gang
    let s1 := s.setCrew c { x with barSeen := Tab.put x.barSeen (barKey level n) p }
    match s1.gangAway x.gang with
    | some a => s1.appendLog a.1 (logBarrier 1 level n p a.2)
    | none => some (s1.tryBarrier level n x.gang)

/-- The barrier exists, or ILLOP (R179). -/
def checkBarrier (c level : Nat) : M Unit := do
  let g ← gangM c
  let s ← getS
  if !(s.hasBarrier g level) then illop c

/-- The conditions of issue that BAR and BARA share: switch marker, checkpoint, matrix instructions (R19, R156). -/
def barReady (c : Nat) (x : Ops) : M Unit := do
  let y ← crewM c
  let vs ← vsM c
  if x.head.sw && switchWaits y vs then park .switch
  if !y.acc.isEmpty then park .checkpoint
  matrixFence c true

/-- An arrival that waits while the crew's earlier arrival stands in the open phase (R180). -/
def arriveOrPark (c level n : Nat) : M Unit := do
  let y ← crewM c
  let s ← getS
  if s.waits_ y level n then park (.barrier level n false)
  match s.arriveAt c level n with
  | some t => setS t
  | none => park (.barrier level n false)

/-- BAR: arrives, then parks until the phase of its arrival has completed. -/
def runBar (c : Nat) (f : FnM) (x : Ops) : M Unit := do
  let level := barLevel f
  let n := barNo f
  let w ← crewM c
  if w.park ≠ some (.barrier level n true) then
    barReady c x
    checkBarrier c level
    arriveOrPark c level n
  let y ← crewM c
  let s ← getS
  if s.waits_ y level n then modC c fun z => { z with park := some (.barrier level n true) }
  else issue c 0xB5 x true true (barReturn c level n x)

/-- BAR (R180). -/
def execBar (f : FnM) (x : Ops) (s : State) : Host.Outcome State Fault Refusal :=
  crewStep x.head (fun c => runBar c f x) s

/-- BARA. -/
def runBara (c : Nat) (f : FnM) (x : Ops) : M Unit := do
  matrixFence c true
  issue c 0xB6 x true true (do
    checkBarrier c (barLevel f)
    arriveOrPark c (barLevel f) (barNo f))

/-- BARA (R180). -/
def execBara (f : FnM) (x : Ops) (s : State) : Host.Outcome State Fault Refusal :=
  crewStep x.head (fun c => runBara c f x) s

/-- BARW. -/
def bodyBarw (c : Nat) (f : FnM) (x : Ops) : M Unit := do
  checkBarrier c (barLevel f)
  let y ← crewM c
  let s ← getS
  if s.waits_ y (barLevel f) (barNo f) then park (.barrier (barLevel f) (barNo f) false)
  barReturn c (barLevel f) (barNo f) x

/-- BARW (R180). -/
def execBarw (f : FnM) (x : Ops) (s : State) : Host.Outcome State Fault Refusal :=
  issueStep 0xB7 x true (fun c => bodyBarw c f x) s

end Sys2Proof.Machine
end

