-- ==== Sys2Proof/Machine/Agent.lean ====
section
/-!
DEFINITION. Machine/Agent.lean: reads and writes of virtual ranges by agents other than a crew's own memory
instructions: engines, bins, queues and the fetch of descriptors (R17, R198, R246, R255, R312, R392, R403).
-/

namespace Sys2Proof.Machine

open Sys2Proof

/-- Outcome of an agent's access to a range. -/
inductive Io (α : Type) where
  | ok (s : State) (v : α)
  | fail (s : State) (cause : Cause) (addr pa : Nat)   -- failing virtual address; for POISON the bad physical address
  | kill (s : State) (kind inst addr : Nat)            -- bad on-chip data was consumed (R403)
  | wait                                               -- a full arrival log (R290)

/-- An agent: its gang, context and level, the die whose last-level TLB it uses, whether it reaches memory under the key
slot of its context and not of the entry (R262), the core whose L1 its accesses pass, the INST of its L2 slice, and what its
error records say of it (R323). -/
structure Agent where
  win   : WinAgent
  die   : Nat
  own   : Bool
  l1    : Option Nat
  slice : Nat
  who   : Rec
  deriving DecidableEq, Repr

/-- The INST of the L2 slice of a core's district (R305). -/
def sliceInst (core : Nat) : Nat := instOf (dieOf core) (core % 48 / 8)

/-- A crew as such an agent, for the instruction at `pc`. -/
def State.crewAgent (s : State) (x : Crew) (pc : Addr) : Agent :=
  { win := { gang := x.gang, ctx := s.ctxOf x, priv := x.priv }, die := dieOf (s.coreOf x), own := false,
    l1 := some (s.coreOf x), slice := sliceInst (s.coreOf x),
    who := { Rec.of (some (s.ctxOf x)) 0 0 0 with crew := s.crewId x, pc := pc.toNat } }

/-- The agent's reads of on-chip words. -/
def Agent.reader (g : Agent) : Reader := { gang := g.win.gang, crew := g.who.crew, pc := g.who.pc }

/-- The units that an agent's access to memory passes (R317): a crew's through the L1, any through the L2 slice to the stack
or the link. Exit point 4 of R316 is the L1 for a crew's reads and the slice for an engine's. -/
def Agent.passes (g : Agent) (s : State) (pa : Nat) (way : Way) : List Passed :=
  let exit := if way = .read then some (4, g.die) else none
  (if regionOf pa = .hbm then match g.l1 with
    | some k => [(0x06, coreInst k, exit), (0x07, g.slice, none)]
    | none => [(0x07, g.slice, exit)]
  else []) ++ s.farUnits pa (way == .write)

/-- Translation for the agent, with the units that a walk and then the access pass. -/
def State.xlatAgent (s : State) (g : Agent) (way : Way) (va n : Nat) : Xlat × State :=
  let s1 := if (s.tlbHit none g.die g.win.ctx va).isSome then s else s.passWalk g.win.ctx va
  match s1.translate none g.die g.win.ctx g.win.priv way va n with
  | (.ok p, t) =>
    (.ok (if g.own then t.ownPlace g.win.ctx p else p), t.passUnits (some g.win.ctx) p.pa (g.passes t p.pa way))
  | r => r

/-- Bytes of the next piece of a range: within a page of memory, or within 64 bytes of a window. -/
def pieceLen (va n : Nat) : Nat := if inWindow va then min n (64 - va % 64) else min n (0x10000 - va % 0x10000)

/-- A piece at `va`, which lies at `pa`, whose requests meet R392: the access fails with the first line that does, and its
record. `t`: the machine after the translation. -/
def State.lostPiece {α : Type} (s t : State) (g : Agent) (va pa n : Nat) : Io α :=
  let a := s.firstOut pa n
  .fail (t.linkRecord g.who (regionOf a) a) cPoison (va + (a - pa)) a

/-- Read one piece; bad data is named by the first of its addresses (R205, R309). DESIGN CHOICE: a command whose own walk meets
a poisoned page table entry fails with POISON, and its gang is not killed (log 91). -/
def State.readPiece (s : State) (g : Agent) (way : Way) (va n : Nat) : Io (List Byte) :=
  if 2 ^ 52 < va + n then .fail s cMemFault va 0
  else if inWindow va then
    let k := (va - winBase) / 0x800000
    let off := (va - winBase) % 0x800000
    match s.windowCheck g.win k off n false false with
    | .error c => .fail s c va 0
    | .ok pa =>
      let s1 := s.passUnits (some g.win.ctx) (pa - winOf k) [(windowKind off, coreInst k, none)]
      match (if s.marked pa n then s1.chipMark k (s.firstMark pa n - winOf k) g.reader else some s1) with
      | none => .kill s1 (windowKind off) (coreInst k) (s.firstMark pa n - winOf k)
      | some t => .ok t (s.mem.read pa n)
  else
    let t := s.xlatAgent g way va n
    match t.1 with
    | .fault c => .fail t.2 c va 0
    | .poison => .fail t.2 cPoison va (s.badPte g.win.ctx va)
    | .ok p =>
      if !(s.answers p.pa n) then s.lostPiece t.2 g va p.pa n
      else if s.badFor p.key p.pa n || s.syncFor p.key p.pa n then
        .fail t.2 cPoison (va + (s.firstBad p.pa n - p.pa)) (s.firstBad p.pa n)
      else .ok t.2 (t.2.readKey p.key p.pa n)

/-- Read pieces until the range is read. -/
def readAll (g : Agent) (way : Way) : Nat → State → Nat → Nat → Io (List Byte)
  | 0, s, _, _ => .ok s []
  | fuel + 1, s, va, n =>
    if n = 0 then .ok s []
    else
      let k := pieceLen va n
      match s.readPiece g way va k with
      | .ok t bs => match readAll g way fuel t (va + k) (n - k) with
        | .ok u rest => .ok u (bs ++ rest)
        | r => r
      | r => r

/-- Read `n` bytes at `va`. -/
def State.readVa (s : State) (g : Agent) (way : Way) (va n : Nat) : Io (List Byte) :=
  readAll g way (n / 64 + 2) s va n

/-- Write one piece: in a window at most 8 aligned bytes. -/
def State.writePiece (s : State) (g : Agent) (va : Nat) (bs : List Byte) : Io Unit :=
  let n := bs.length
  if 2 ^ 52 < va + n then .fail s cMemFault va 0
  else if inWindow va then
    let k := (va - winBase) / 0x800000
    let off := (va - winBase) % 0x800000
    match s.windowCheck g.win k off n true false with
    | .error c => .fail s c va 0
    | .ok pa =>
      let s1 := s.passUnits (some g.win.ctx) (pa - winOf k) [(windowKind off, coreInst k, none)]
      if 0x200000 ≤ off ∧ off < 0x280000 then
        match s1.writeEntry g.win.ctx k off n (ofBytesLE bs) with
        | some t => .ok t ()
        | none => .wait
      else match (if s.mergesBad off pa n then s1.chipMark k (s.firstMark pa n - winOf k) g.reader else some s1) with
        | none => .kill s1 (windowKind off) (coreInst k) (s.firstMark pa n - winOf k)
        | some t => .ok (t.writeChip pa bs) ()
  else
    let t := s.xlatAgent g .write va n
    match t.1 with
    | .fault c => .fail t.2 c va 0
    | .poison => .fail t.2 cPoison va (s.badPte g.win.ctx va)
    | .ok p =>
      if !(s.answers p.pa n) then s.lostPiece t.2 g va p.pa n
      else if s.syncFor p.key p.pa n then .fail t.2 cPoison (va + (s.firstBad p.pa n - p.pa)) (s.firstBad p.pa n)
      else
        let u := t.2.writeKey p.key p.pa bs
        .ok (match g.l1 with
          | some k => u.dropLines k p.pa n
          | none => u) ()

/-- Bytes of the next piece of a write: aligned pieces of 8 in a window (R198). -/
def writeLen (va n : Nat) : Nat := if inWindow va then min n (8 - va % 8) else min n (0x10000 - va % 0x10000)

/-- Write pieces until the range is written; earlier pieces stay written. -/
def writeAll (g : Agent) : Nat → State → Nat → List Byte → Io Unit
  | 0, s, _, _ => .ok s ()
  | fuel + 1, s, va, bs =>
    if bs.isEmpty then .ok s ()
    else
      let k := writeLen va bs.length
      match s.writePiece g va (bs.take k) with
      | .ok t _ => writeAll g fuel t (va + k) (bs.drop k)
      | r => r

/-- Write bytes at `va`. -/
def State.writeVa (s : State) (g : Agent) (va : Nat) (bs : List Byte) : Io Unit :=
  writeAll g (bs.length / 8 + 2) s va bs

/-- Check that one piece can be written. -/
def State.writableAt (s : State) (g : Agent) (va n : Nat) : Io Unit :=
  if 2 ^ 52 < va + n then .fail s cMemFault va 0
  else if inWindow va then
    match s.windowCheck g.win ((va - winBase) / 0x800000) ((va - winBase) % 0x800000) n true false with
    | .error c => .fail s c va 0
    | .ok _ => .ok s ()
  else
    let t := s.xlatAgent g .write va n
    match t.1 with
    | .fault c => .fail t.2 c va 0
    | .poison => .fail t.2 cPoison va (s.badPte g.win.ctx va)
    | .ok _ => .ok t.2 ()

/-- Check that a range can be written, changing nothing but the TLBs. -/
def writable (g : Agent) : Nat → State → Nat → Nat → Io Unit
  | 0, s, _, _ => .ok s ()
  | fuel + 1, s, va, n =>
    if n = 0 then .ok s ()
    else
      let k := writeLen va n
      match s.writableAt g va k with
      | .ok t _ => writable g fuel t (va + k) (n - k)
      | r => r

/-- Use an access's outcome in a crew's instruction: a fault with that address, a POISON that kills the gang, or a wait
with reason `p`. -/
def liftIo {α : Type} (r : Io α) (p : Park) (lanes : Option Mask) : M α := do
  match r with
  | .ok s v =>
    setS s
    pure v
  | .fail s c a pa =>
    setS s
    if c = cPoison then stop (.kill (s.badUnit pa).1 (s.badUnit pa).2 pa) else stop (.trap c a lanes)
  | .kill s k i a =>
    setS s
    stop (.kill k i a)
  | .wait => park p

end Sys2Proof.Machine
end

