-- ==== Sys2Proof/Machine/Create.lean ====
section
/-!
DEFINITION. Machine/Create.lean: the creation of crews (R9, R12, R102, R104, R278), the slots they take (R276), and who waits
for space (R98, R100).
-/

namespace Sys2Proof.Machine

open Sys2Proof

def TrapSet.zero : TrapSet := { epc := 0, efpc := 0, act := false, prv := 0, code := 0, eaddr := 0, em7 := 0 }

/-- The state of R9 and R102 at creation; the first instruction is a block entry (R104). -/
def Crew.new (gang index : Nat) (home : Home) (pc : Addr) (act : Mask) (floor : Nat) (age : DWord) (priv : BitVec 2) : Crew :=
  Crew.blockEntry
    { gang := gang, index := index, home := home,
      arch := { pc := pc, act := act, stack := [], names := [], scal := Vector.replicate 63 0, masks := Vector.replicate 7 0,
                tiles := [], sig := 0xFFFFFFFF, floor := floor, bb := act, lt := 0xFF },
      dead := 0, age := age, priv := priv, setU := TrapSet.zero, setS := TrapSet.zero, setW := TrapSet.zero,
      deadsrc := false, bkpc := Vector.replicate 8 0, bken := 0, halt := false, stepOn := false, evsnap := none, park := none,
      seq := 0, acc := [], ipc := pc, hold := false, stats := [], stepDue := none, exempt := false, empty := false,
      waitEvt := none,
      barSeen := [], down := 0, marks := [], image := [], tileImg := [], frame := [], eng := [], notice := none, atHalt := [],
      stopAt := false, area := 0, stamp := [] } pc

/-- Slots of a quadrant that are taken. -/
def Core.taken (k : Core) (q : Nat) : Nat := (k.slots.filter fun p => p.1 / 16 == q).length

/-- The lowest free slot of a quadrant. -/
def Core.lowSlot (k : Core) (q : Nat) : Option Nat :=
  ((List.range 16).map (16 * q + ·)).find? fun n => (Tab.at? k.slots n).isNone

/-- The slot that the next crew of a core takes: in the quadrant with the most free slots, the lower on a tie, at the
lowest number (R278). DESIGN CHOICE: RESUME and a restore choose in the same way (log 22). -/
def Core.nextSlot (k : Core) : Option Nat :=
  let best := [1, 2, 3].foldl (fun b q => if k.taken q < k.taken b then q else b) 0
  k.lowSlot best

/-- AGE of the next crew of a core: its sequence counter and its number (R12). -/
def Core.nextAge (k : Core) (core : Nat) : DWord := BitVec.ofNat 64 (k.seqc % 2 ^ 56 * 256 + core % 256)

/-- The slots of a core whose bind record has a state and names a launch (R276). -/
def Core.slotsFor (k : Core) (state ctx lid : Nat) : List Nat :=
  (k.slots.filter fun p => p.2.state == state && p.2.ctx == ctx && p.2.lid == lid).map Prod.fst

/-- The slot that a crew placed for a launch takes: among those that the records give the launch, in the quadrant with the
most of them, the lower on a tie, at the lowest number (R275, R278). -/
def Core.slotOf (k : Core) (state ctx lid : Nat) : Option Nat :=
  let mine := k.slotsFor state ctx lid
  let count (q : Nat) : Nat := (mine.filter fun n => n / 16 == q).length
  let best := [1, 2, 3].foldl (fun b q => if count b < count q then q else b) 0
  mine.find? fun n => n / 16 == best

/-- The bind record of an occupied slot (R276). -/
def occupied (ctx lid gid index c : Nat) : Slot :=
  { state := 2, ctx := ctx, lid := lid, gid := gid, index := index, crew := some c }

/-- Put a new crew of a gang into slot `sl` of its core; its key is given too (R9, R12). Its creation empties the L1 of the
core (R400). -/
def State.createCrew (s : State) (gk : Nat) (g : Gang) (sl index : Nat) (pc : Addr) (act : Mask) (floor : Nat) :
    Nat × State :=
  let c := s.nextId
  let lid := match s.grid? g.grid with
    | some l => l.lid
    | none => 0
  let k := s.core g.core
  let x := { Crew.new gk index (.slot g.core sl) pc act floor (k.nextAge g.core) g.priv with area := s.freeArea g.ctx }
  (c, ({ s with nextId := c + 1 }.setCrew c x).setCore g.core
    { k with seqc := (k.seqc + 1) % 2 ^ 56, slots := Tab.put k.slots sl (occupied g.ctx lid g.gid index c), lines := [] })

/-- The lowest crew index that no live crew of the gang has. DESIGN CHOICE: the index of a resumed crew (log 22). -/
def State.freeIndex (s : State) (gk : Nat) : Nat :=
  let used := (s.crewsOf gk).filterMap fun c => (s.crew? c).map fun x => x.index
  ((List.range 32).find? fun i => !used.contains i).getD 0

/-! ## Who waits for space (R98, R100) -/

/-- How much a crew that waits for space waits for, and of what. -/
inductive Want where
  | entries (n : Nat)
  | claim (k : Nat)
  | tile
  deriving DecidableEq, Repr

/-- What the crew waits for in ALLOC-WAIT or CLAIM-WAIT, if it does. -/
def Crew.want (x : Crew) : Option Want :=
  match x.park with
  | some (.alloc n) => some (.entries n)
  | some (.claim k) => some (.claim k)
  | some .tile => some .tile
  | _ => none

/-- The crews of a list by age, oldest first. -/
def State.byAge (s : State) (cs : List Nat) : List Nat :=
  sortBy (fun a b => match s.crew? a, s.crew? b with
    | some x, some y => decide (x.age.toNat ≤ y.age.toNat)
    | _, _ => true) cs

/-- W of R98, oldest first. -/
def State.waiters (s : State) (core : Nat) : List Nat :=
  s.byAge ((s.residents core).filter fun c => match s.crew? c with
    | some x => x.want.isSome
    | none => false)

/-- The evicted crews of a core that await restore; those of a context that is stopped or saved do not (R285). -/
def State.evictedOn (s : State) (core : Nat) : List Nat :=
  Tab.keysWhere s.crews fun _ x => x.home == .evicted core && decide ((s.ctx (s.ctxOf x)).pre.toNat < 2)

/-- An older crew of the core has a claim on space that becomes free: a resident waiter, or an evicted crew where a slot is
free for it (R100). -/
def State.yieldsSpace (s : State) (core c : Nat) (x : Crew) : Bool :=
  let older (ds : List Nat) : Bool := ds.any fun d => d != c && (match s.crew? d with
    | some y => decide (y.age.toNat < x.age.toNat)
    | none => false)
  older (s.waiters core) || ((s.core core).nextSlot.isSome && older (s.evictedOn core))

end Sys2Proof.Machine
end

