-- ==== Sys2Proof/Machine/Bins.lean ====
section
/-!
DEFINITION. Machine/Bins.lean: bins, SUSP, WAKE, RESUME, BINQ, the automatic resume and the binding of a resumed crew
(R188 to R195).
-/

namespace Sys2Proof.Machine

open Sys2Proof

/-- The bin that an instruction names; an undeclared bin traps ILLOP (R188). -/
def binM (c n : Nat) : M Bin := do
  let g ← gangM c
  match Tab.at? g.bins n with
  | some b => pure b
  | none => illop c

def setBin (c n : Nat) (b : Bin) : M Unit := do
  let y ← crewM c
  modS fun s => s.modGang y.gang fun g => { g with bins := Tab.put g.bins n b }

/-- A bin becomes ready when it holds THRESH frames (R191). -/
def Bin.update (b : Bin) : Bin := if b.thresh ≤ maskCount b.occ then { b with ready := true } else b

/-! ## Frame descriptors (R189) -/

/-- A name of a frame descriptor: its code, column and resume count. -/
structure FrameCol where
  name  : Nat
  col   : Nat
  count : Nat
  deriving DecidableEq, Repr

/-- One entry word of a descriptor, or `none` where it is malformed. DESIGN CHOICE: a name code of 0xC0 or above and a count of 0 are
malformed too (log 99). -/
def frameCol (w v : Nat) : Option FrameCol :=
  let n := v % 256
  let col := v / 256 % 256
  let cnt := v / 65536
  if n < 0xC0 ∧ col < w ∧ 1 ≤ cnt ∧ cnt ≤ 15 then some ⟨n, col, cnt⟩ else none

/-- No element occurs twice. -/
def distinct : List Nat → Bool
  | [] => true
  | a :: t => !t.contains a && distinct t

/-- A descriptor from its words: W and the names; `none` where it is malformed. -/
def frameOf (w0 : Nat) (ws : List Nat) : Option (Nat × List FrameCol) :=
  let n := w0 % 256
  let w := w0 / 256
  if 32 < n ∨ w < 1 ∨ 32 < w ∨ w < n ∨ ws.length ≠ n then none
  else
    let cs := ws.filterMap (frameCol w)
    if cs.length = n ∧ distinct (cs.map FrameCol.name) ∧ distinct (cs.map FrameCol.col) then some (w, cs) else none

/-- Read a descriptor as instruction fetch reads memory (R190): `ok none` where it is malformed. -/
def State.readFrame (s : State) (g : Agent) (fd : Nat) : Io (Option (Nat × List FrameCol)) :=
  match s.readVa g .fetch fd 4 with
  | .ok t b0 =>
    let w0 := ofBytesLE b0
    if 32 < w0 % 256 then .ok t none
    else match t.readVa g .fetch (fd + 4) (4 * (w0 % 256)) with
      | .ok u bs => .ok u (frameOf w0 (wordsLE bs))
      | .fail u c a p => .fail u c a p
      | .kill u k i a => .kill u k i a
      | .wait => .wait
  | .fail t c a p => .fail t c a p
  | .kill t k i a => .kill t k i a
  | .wait => .wait
where
  /-- The 32-bit words of a byte list. -/
  wordsLE : List Byte → List Nat
    | a :: b :: c :: d :: t => ofBytesLE [a, b, c, d] :: wordsLE t
    | _ => []

/-! ## SUSP (R190) -/

/-- The word of row `i`, column `col` of a bin's frame tile, by its window address (R188). -/
def framePa (core : Nat) (g : Gang) (b : Bin) (i col : Nat) : Nat := spadPa core (g.spad + b.toff + 4 * b.width * i + 4 * col)

/-- The lowest free row. -/
def freeRow (occ : Mask) : Option Nat := (List.range 32).find? fun i => !occ.getLsbD i

/-- The words of a suspended lane: those of its names, by column. -/
def frameWords (vs : Tab Entry) (ns : Tab Binding) (cs : List FrameCol) (l : Fin 32) : List (Nat × Nat) :=
  cs.map fun f => (f.col, match Tab.at? ns f.name with
    | some b => match Tab.at? vs b.entry with
      | some e => e.lanes[l].toNat
      | none => 0
    | none => 0)

/-- Each lane goes to the lowest free row, or to the next overflow slot. -/
def suspLanes (c n : Nat) (cs : List FrameCol) : List (Fin 32) → Bin → M Bin
  | [], b => pure b
  | l :: ls, b => do
    let y ← crewM c
    let g ← gangM c
    let s ← getS
    let vs ← vsM c
    let words := frameWords vs y.arch.names cs l
    match freeRow b.occ with
    | some i =>
      modS fun t => words.foldl (fun u w => u.writeChip (framePa (s.coreOf y) g b i w.1) (bytesLE 4 w.2)) t
      suspLanes c n cs ls { b with occ := b.occ ||| laneBit i }
    | none =>
      for w in words do
        let t ← getS
        liftIo (t.writeVa (t.crewAgent y y.ipc) (b.ovp + 4 * b.width * b.ovcnt + 4 * w.1) (bytesLE 4 w.2)) (.bin n 0) none
      suspLanes c n cs ls { b with ovcnt := b.ovcnt + 1 }

/-- SUSP (R190). Without a lane to suspend only the block entry at the suspend point remains (R104). -/
def bodySusp (c : Nat) (x : Ops) : M Unit := do
  let n := x.sa.toNat % 32
  let pc ← ownPc c x
  let y0 ← crewM c
  let b ← binM c n
  let fd := (pc + BitVec.ofInt 52 (signedOf 32 x.ext.toNat)).toNat
  let s0 ← getS
  let d ← liftIo (s0.readFrame (s0.crewAgent y0 pc) fd) (.bin n 0) none
  match d with
  | none => fault cIllop
  | some (w, cs) =>
    check (w == b.width) cIllop
    if (b.occ != 0 || b.ovcnt != 0) && b.spc != pc + 12 then fault cFrameFault
    let bound := y0.arch.names.map Prod.fst
    check (bound.all (cs.map FrameCol.name).contains && cs.all fun f => bound.contains f.name) cFrameFault
    for f in cs do
      let (_, e) ← lookup c f.name
      checkReadable e
    let m0 ← emask c x.head
    for f in cs do
      let (bd, e) ← lookup c f.name
      consume c bd.entry e m0
    let m ← emask c x.head
    if m = 0 then enterNext c
    else
      let room := (32 - maskCount b.occ) + (if b.ovp ≠ 0 then 32 - b.ovcnt else 0)
      if room < maskCount m then park (.bin n (maskCount m))
      let isOver := maskCount m - (32 - maskCount b.occ)
      if 0 < isOver then
        let s ← getS
        let y ← crewM c
        let _ ← liftIo (writable (s.crewAgent y pc) (16 * isOver + 2) s (b.ovp + 4 * b.width * b.ovcnt) (4 * b.width * isOver))
          (.bin n 0) none
      let b' ← suspLanes c n cs (lanesOf m) b
      setBin c n { b' with spc := pc + 12, fdp := BitVec.ofNat 52 fd }.update
      leaveLanes c m

/-- SUSP is bound to the checkpoint, and a release (R187, R194). -/
def runSusp (c : Nat) (x : Ops) : M Unit := do
  matrixFence c true
  issue c 0xC0 x true true (bodySusp c x)

/-- SUSP (R190). -/
def execSusp (x : Ops) (s : State) : Host.Outcome State Fault Refusal :=
  crewStep x.head (fun c => runSusp c x) s

/-- WAKE (R191). -/
def bodyWake (c : Nat) (x : Ops) : M Unit := do
  let b ← binM c (x.sa.toNat % 32)
  if b.occ ≠ 0 then setBin c (x.sa.toNat % 32) { b with ready := true }

/-- WAKE (R191). -/
def execWake (x : Ops) (s : State) : Host.Outcome State Fault Refusal :=
  issueStep 0xC1 x true (fun c => bodyWake c x) s

/-- A header word of a bin (R188). -/
def Bin.header (b : Bin) (w : Nat) : DWord :=
  match w with
  | 0 => put (b2n b.auto) 49 1 ||| put (b2n b.ready) 48 1 ||| put b.ovcnt 32 16 ||| put b.occ.toNat 0 32
  | 1 => put b.toff 32 19 ||| put b.width 16 6 ||| put b.thresh 0 6
  | 2 => BitVec.ofNat 64 b.spc.toNat
  | 3 => BitVec.ofNat 64 b.fdp.toNat
  | 4 => BitVec.ofNat 64 b.ovp
  | _ => b.rcnt

/-- BINQ (R193). -/
def bodyBinq (c k : Nat) (x : Ops) : M Unit := do
  let b ← binM c (x.sa.toNat % 32)
  writeScalar c x.dst (b.header k)

/-- BINQ (R193). -/
def execBinq (k : BitVec 12) (x : Ops) (s : State) : Host.Outcome State Fault Refusal :=
  issueStep 0xC3 x false (fun c => bodyBinq c k.toNat x) s

/-! ## Resume (R192) -/

/-- The gang of key `gk` as an agent at its own level. -/
def Gang.agent (g : Gang) (gk : Nat) : Agent :=
  { win := { gang := gk, ctx := g.ctx, priv := g.priv }, die := dieOf g.core, own := false, l1 := none, slice := sliceInst g.core,
    who := Rec.of (some g.ctx) 0 0 0 }

/-- What a resume comes to. -/
inductive ResumeRes where
  | done (s : State) (c : Nat)                       -- key of the new crew
  | wait                                             -- no slot, or 32 crews
  | kill (s : State) (why : KillWhy)
  deriving DecidableEq, Repr

def killOf (s : State) (g : Gang) (cause : Cause) (kind inst addr : Nat) : ResumeRes :=
  .kill s { cause := cause, kind := kind, inst := if kind = 0 then coreInst g.core else inst, addr := addr, crew := 0,
            pc := 0, again := true }

/-- The words of overflow slots 0 to k - 1 move into rows 0 to k - 1. -/
def refill (g : Gang) (gk : Nat) (b : Bin) : Nat → Nat → State → Io Unit
  | 0, _, s => .ok s ()
  | n + 1, i, s =>
    match s.readVa (g.agent gk) .read (b.ovp + 4 * b.width * i) (4 * b.width) with
    | .ok t bs => refill g gk b n (i + 1) (t.writeChip (framePa g.core g b i 0) bs)
    | .fail t c a p => .fail t c a p
    | .kill t k j a => .kill t k j a
    | .wait => .wait

/-- The lanes of one name of a frame image. -/
def imageLanes (s : State) (g : Gang) (b : Bin) (col : Nat) : Lanes :=
  Vector.ofFn fun i => if b.occ[i] then BitVec.ofNat 32 (s.word (framePa g.core g b i.val col)) else 0#32

/-- resume(B) of R192 on bin `n` of gang `gk`. A descriptor that can no longer be read kills the gang, as a failed refill
does (DESIGN CHOICE, log 23). -/
def State.resumeBin (s : State) (gk n : Nat) : ResumeRes :=
  match s.gang? gk with
  | none => .wait
  | some g => match Tab.at? g.bins n with
    | none => .wait
    | some b => match (s.core g.core).nextSlot with
      | none => .wait
      | some sl =>
        if 32 ≤ (s.crewsOf gk).length then .wait
        else match s.readFrame (g.agent gk) b.fdp.toNat with
          | .wait => .wait
          | .fail t cause a pa =>
            if cause = cPoison then killOf t g cause (t.badUnit pa).1 (t.badUnit pa).2 pa else killOf t g cause 0 0 a
          | .kill t k i a => killOf t g cPoison k i a
          | .ok t none => killOf t g cIllop 0 0 0
          | .ok t (some (_, cs)) =>
            let rows := (List.range 32).filter fun i => b.occ.getLsbD i
            match rows.find? fun i => cs.any fun f => t.marked (framePa g.core g b i f.col) 4 with
            | some i => killOf t g cPoison 0x02 (coreInst g.core) (framePa g.core g b i 0 - winOf g.core)
            | none =>
              let q := t.createCrew gk g sl (t.freeIndex gk) b.spc b.occ 0
              let image := cs.map fun f => { name := f.name, count := f.count, lanes := imageLanes t g b f.col : FrameName }
              let u := q.2.modCrew q.1 fun y =>
                { y with frame := image, park := if image.isEmpty then none else some .bind }
              let k := min b.ovcnt 32
              match refill g gk b k 0 u with
              | .ok v _ =>
                let b' := { b with occ := maskOf fun i => decide (i.val < k), ready := false, rcnt := b.rcnt + 1,
                                   ovcnt := b.ovcnt - k }
                .done (v.modGang gk fun w => { w with bins := Tab.put w.bins n b'.update }) q.1
              | .fail v cause a pa =>
                if cause = cPoison then killOf v g cMemFault (v.badUnit pa).1 (v.badUnit pa).2 pa
                else killOf v g cMemFault 0 0 a
              | .kill v kk i a => killOf v g cPoison kk i a
              | .wait => .wait

/-- RESUME (R192). -/
def bodyResume (c : Nat) (x : Ops) : M Unit := do
  let n := x.sa.toNat % 32
  let y ← crewM c
  let b ← binM c n
  if b.occ = 0 then writeScalar c x.dst 0
  else
    let s ← getS
    if s.matrixBlocks (s.coreOf y) c b.toff (128 * b.width) true then park .matrix
    match s.resumeBin y.gang n with
    | .wait => park .resume
    | .kill t why =>
      setS (t.gangKill y.gang { why with crew := t.crewId y, pc := y.ipc.toNat })
      stop .gone
    | .done t k =>
      setS t
      match t.crew? k with
      | some z => writeScalar c x.dst (BitVec.ofNat 64 (t.crewId z))
      | none => pure ()

/-- RESUME (R192). -/
def execResume (x : Ops) (s : State) : Host.Outcome State Fault Refusal :=
  issueStep 0xC2 x true (fun c => bodyResume c x) s

/-- A bin that its core resumes by itself (R191, R195). -/
def State.autoBin (s : State) (gk n : Nat) : Bool :=
  match s.gang? gk with
  | none => false
  | some g => g.home == .core && (match Tab.at? g.bins n with
    | some b => b.auto && b.ready && b.occ != 0
    | none => false)

/-- AUTOMATIC_RESUME (R191, R192). -/
def execAutomaticResume (g bin : Nat) (s : State) : Host.Outcome State Fault Refusal :=
  if !(s.autoBin g bin) then s.passOver
  else match s.resumeBin g bin with
    | .wait => s.passOver
    | .kill t why => .next (t.gangKill g why)
    | .done t _ => .next t

/-- Every name of a frame is bound, in order. -/
def bindAll (c : Nat) : List FrameName → M Unit
  | [] => pure ()
  | f :: fs => do
    writeName c f.name f.count f.lanes 0xFFFFFFFF
    bindAll c fs

/-- RESUMED_CREW_BIND (R192): the frame names are bound, all at once; a crew whose names do not fit waits for space, which
older crews take first (R100), and one whose need exceeds L(g) kills its gang. -/
def execResumedCrewBind (c : Nat) (s : State) : Host.Outcome State Fault Refusal :=
  match s.crew? c with
  | none => s.passOver
  | some x =>
    if x.frame.isEmpty || !x.resident then s.passOver
    else match s.gang? x.gang with
      | none => s.passOver
      | some g =>
        if g.vslim < x.frame.length then
          .next (s.gangKill x.gang { cause := cVsExhaust, kind := 0, inst := coreInst (s.coreOf x), addr := 0,
                                     crew := s.crewId x, pc := 0, again := true })
        else if x.want.isSome && s.yieldsSpace (s.coreOf x) c x then s.passOver
        else match bindAll c x.frame s with
          | .ok _ t => .next (t.modCrew c fun y => { y with frame := [], park := none, seq := y.seq + 1 })
          | .error _ _ => .next (s.modCrew c fun y => { y with park := some (.alloc x.frame.length) })

end Sys2Proof.Machine
end

