-- ==== Sys2Proof/Machine/CrossLane.lean ====
section
/-!
DEFINITION. Machine/CrossLane.lean: conversion, quantisation and the cross-lane instructions (R126 to R137).
-/

namespace Sys2Proof.Machine

open Sys2Proof

/-- The tensor id: bits 7:0 of the scalar in SB (R126, R128). -/
def readTid (c : Nat) (x : Ops) : M Nat := do
  let v ← readScalar c x.sb
  pure (v.toNat % 256)

/-- CVT (R126, R127): the source type stands in SUB. -/
def bodyCvt (c : Nat) (f : FnT) (x : Ops) : M Unit := do
  let src := Ty.ofCode f.sub
  let va ← readSrc c x.head x.sa src.wide
  let tid ← readTid c x
  let old ← readMerge c f x
  let m ← emask c x.head
  let r (i : Fin 32) := Alu.cvt src f.ty f.md va[i].toNat
  storeVec c x f.ty.wide old (Vector.ofFn fun i => BitVec.ofNat 64 (r i).1) m
  countStat c tid (sumEvents m fun i => (r i).2)

/-- CVT (R126, R127). -/
def execCvt (f : FnT) (x : Ops) (s : State) : Host.Outcome State Fault Refusal :=
  issueStep 0x60 x false (fun c => bodyCvt c f x) s

/-- The block length of QNT and DQNT (R54): 8, 16 or 32. -/
def blockLen (f : FnT) : Nat := 2 ^ (f.sub.toNat + 2)

/-- QNT of all lanes: the scale of a lane's block over the lanes of the mask, and the lane's code and events (R128). -/
def quantLane (f : FnT) (v : Vals) (m : Mask) (i : Fin 32) : Nat × Num.Events :=
  let n := blockLen f
  let xs := ((lanesOf m).filter fun l => l.val / n == i.val / n).map fun l => Num.f32.value v[l].toNat
  let F := Num.narrowOf f.ty
  let sc := Num.blockScale F xs
  let q := Num.quantOne F (Num.RMode.ofMod f.md) sc (Num.f32.value v[i].toNat)
  (sc * 256 + q.1, q.2)

/-- QNT (R128). -/
def bodyQnt (c : Nat) (f : FnT) (x : Ops) : M Unit := do
  let va ← readSrc c x.head x.sa false
  let tid ← readTid c x
  let old ← readMerge c f x
  let m ← emask c x.head
  storeVec c x false old (Vector.ofFn fun i => BitVec.ofNat 64 (quantLane f va m i).1) m
  countStat c tid (sumEvents m fun i => (quantLane f va m i).2)

/-- QNT (R128). -/
def execQnt (f : FnT) (x : Ops) (s : State) : Host.Outcome State Fault Refusal :=
  issueStep 0x61 x false (fun c => bodyQnt c f x) s

/-- Read a vector source whose slots the instruction may read for other lanes: `lanes` are the slots so read, given the
effective mask, beside those of the mask's own lanes (R310, R403). DEDUCED: the mask is the one before the kills of this
read (log 80). A scalar source is spread. -/
def readCross (c : Nat) (h : Head) (code : BitVec 8) (wide : Bool) (lanes : Mask → Mask) : M Vals := do
  if isVec code then
    let m ← emask c h
    let lo ← readName c code.toNat (m ||| lanes m)
    if wide then
      let m' ← emask c h
      let hi ← readName c (code.toNat + 1) (m' ||| lanes m')
      pure (joinPair lo hi)
    else pure (widen lo)
  else do
    let v ← readScalar c code
    pure (spread v (wide || h.uni))

/-- Lane `j` of a source as lane `i` reads it: a dead lane reads 0 for another lane (R132). -/
def crossVal (dead : Mask) (v : Vals) (i j : Fin 32) : DWord := if dead[j] && i != j then 0#64 else v[j]

/-- Some lane of the mask reads a dead lane that is not itself (R132). -/
def readsDead (dead m : Mask) (src : Fin 32 → Fin 32) : Bool := (lanesOf m).any fun i => dead[src i] && i != src i

/-- The lanes that the lanes of a mask read. -/
def sourcesOf (m : Mask) (src : Fin 32 → Fin 32) : Mask :=
  (lanesOf m).foldl (fun t i => t ||| laneBit (src i).val) 0#32

def laneFin (n : Nat) : Fin 32 := ⟨n % 32, Nat.mod_lt _ (by decide)⟩

/-- Lowest lane of a lane's block (R129). -/
def scaleLane (f : FnT) (i : Fin 32) : Fin 32 := laneFin (blockLen f * (i.val / blockLen f))

/-- DQNT (R129): the scale stands in the block's lowest lane. -/
def bodyDqnt (c : Nat) (f : FnT) (x : Ops) : M Unit := do
  let va ← readCross c x.head x.sa false fun m => if isVec x.sa then sourcesOf m (scaleLane f) else 0#32
  let old ← readMerge c f x
  let m ← emask c x.head
  let y ← crewM c
  setDeadsrc c (isVec x.sa && readsDead y.dead m (scaleLane f))
  let r (i : Fin 32) : DWord :=
    let sc := (if isVec x.sa then crossVal y.dead va i (scaleLane f i) else va[i]).toNat
    BitVec.ofNat 64 (Num.dequant (Num.narrowOf f.ty) (va[i].toNat % 2 ^ f.ty.width) (sc / 256 % 256))
  storeVec c x false old (Vector.ofFn r) m

/-- DQNT (R129). -/
def execDqnt (f : FnT) (x : Ops) (s : State) : Host.Outcome State Fault Refusal :=
  issueStep 0x62 x false (fun c => bodyDqnt c f x) s

/-- The width of the fields that PACK and UNPK move (R130). -/
def fieldWidth (f : FnT) : Nat := if f.ty == .e2m1 then 4 else f.ty.width

/-- PACK (R130): result lanes 0 to f - 1 are written whatever the mask, but for dead lanes. -/
def packLane (f : FnT) (m : Mask) (v : Vals) (i : Fin 32) : Nat :=
  let w := fieldWidth f
  let g := 32 / w
  if i.val < w then
    (List.range g).foldl (fun r j =>
      let l := laneFin (g * i.val + j)
      r + (if m[l] then v[l].toNat % 2 ^ w * 2 ^ (w * j) else 0)) 0
  else 0

/-- PACK (R130). -/
def bodyPack (c : Nat) (f : FnT) (x : Ops) : M Unit := do
  let va ← readSrc c x.head x.sa false
  let m ← emask c x.head
  let y ← crewM c
  storeVec c x false none (Vector.ofFn fun i => BitVec.ofNat 64 (packLane f m va i)) (~~~ y.dead)

/-- PACK (R130). -/
def execPack (f : FnT) (x : Ops) (s : State) : Host.Outcome State Fault Refusal :=
  issueStep 0x63 x false (fun c => bodyPack c f x) s

/-- The lane that a lane of UNPK reads (R130). -/
def unpkLane (f : FnT) (i : Fin 32) : Fin 32 := laneFin (i.val / (32 / fieldWidth f))

/-- UNPK (R130). -/
def bodyUnpk (c : Nat) (f : FnT) (x : Ops) : M Unit := do
  let va ← readCross c x.head x.sa false fun m => sourcesOf m (unpkLane f)
  let m ← emask c x.head
  let y ← crewM c
  setDeadsrc c (isVec x.sa && readsDead y.dead m (unpkLane f))
  let w := fieldWidth f
  let r (i : Fin 32) : DWord :=
    let v := (if isVec x.sa then crossVal y.dead va i (unpkLane f i) else va[i]).toNat
    let k := v / 2 ^ (w * (i.val % (32 / w))) % 2 ^ w
    BitVec.ofNat 64 (if f.ty.isSigned then wrapTo 32 (signedOf w k) else k)
  storeVec c x false none (Vector.ofFn r) m

/-- UNPK (R130). -/
def execUnpk (f : FnT) (x : Ops) (s : State) : Host.Outcome State Fault Refusal :=
  issueStep 0x64 x false (fun c => bodyUnpk c f x) s

/-- The source lane of SHFL (R133). -/
def shflLane (sub : Nat) (i : Fin 32) (k : Nat) : Fin 32 :=
  match sub with
  | 0 => laneFin k
  | 1 => if i.val < k then i else laneFin (i.val - k)
  | 2 => if 31 < i.val + k then i else laneFin (i.val + k)
  | _ => laneFin (i.val ^^^ k)

/-- The selector of SHFL, looked at before the counted reads so that the slots of source a that are read are known. -/
def peekSelector (c : Nat) (x : Ops) : M Vals := do
  let y ← crewM c
  let vs ← vsM c
  pure (if x.head.len ≠ 0 then Vector.replicate 32 x.ext
    else if isVec x.sb then (match (Tab.at? y.arch.names x.sb.toNat).bind fun b => Tab.at? vs b.entry with
      | some e => widen e.lanes
      | none => noVals)
    else Vector.replicate 32 (y.arch.scalar (scalarNo x.sb)))

/-- SHFL (R133): the selector is read after a but decides which slots of a are consumed; DEDUCED: reads keep the order
of R30 and the slots are consumed with the selector that the instruction uses (log 18). -/
def bodyShfl (c : Nat) (f : FnT) (x : Ops) : M Unit := do
  let sel ← peekSelector c x
  let src (i : Fin 32) : Fin 32 := shflLane f.sub.toNat i (sel[i].toNat % 32)
  let va ← readCross c x.head x.sa f.ty.wide fun m => sourcesOf m src
  if x.head.len = 0 then
    let _ ← readSrc c x.head x.sb false
  let m ← emask c x.head
  let y ← crewM c
  setDeadsrc c (isVec x.sa && readsDead y.dead m src)
  let r (i : Fin 32) : DWord := if isVec x.sa then crossVal y.dead va i (src i) else va[i]
  storeVec c x f.ty.wide none (Vector.ofFn r) m

/-- SHFL (R133). -/
def execShfl (f : FnT) (x : Ops) (s : State) : Host.Outcome State Fault Refusal :=
  issueStep 0x70 x false (fun c => bodyShfl c f x) s

/-- A result of at most 32 bits goes to a scalar, to each lane of the mask, or to a mask register (R134). -/
def storeOne (c : Nat) (x : Ops) (v : Nat) (m : Mask) : M Unit :=
  if x.head.uni then writeScalar c x.dst (BitVec.ofNat 64 v)
  else if toMask x then writeMask c x.dst.toNat (BitVec.ofNat 32 v)
  else storeVec c x false none (Vector.replicate 32 (BitVec.ofNat 64 v)) m

/-- The values of the participants, ascending (R131). -/
def valuesOf (m : Mask) (v : Vals) : List DWord := (lanesOf m).map fun i => v[i]

/-- Every value of a list equals the first. -/
def allSame (l : List DWord) : Bool :=
  match l with
  | [] => true
  | v :: r => r.all (· == v)

/-- VOTE (R134). -/
def voteResult (sub : Nat) (m : Mask) (v : Vals) : Nat :=
  let vs := valuesOf m v
  match sub with
  | 0 => b2n (vs.any (· != 0#64))
  | 1 => b2n (vs.all (· != 0#64))
  | 2 => (m &&& maskOf fun i => v[i] != 0#64).toNat
  | _ => b2n (allSame vs)

/-- VOTE (R134). DESIGN CHOICE: a scalar source is tested whole, whatever the type (log 89). -/
def bodyVote (c : Nat) (f : FnT) (x : Ops) : M Unit := do
  let va ← readSrc c x.head x.sa f.ty.wide
  let m ← emask c x.head
  storeOne c x (voteResult f.sub.toNat m va) m

/-- VOTE (R134). -/
def execVote (f : FnT) (x : Ops) (s : State) : Host.Outcome State Fault Refusal :=
  issueStep 0x71 x false (fun c => bodyVote c f x) s

/-- LRED (R136). -/
def bodyLred (c : Nat) (f : FnT) (x : Ops) : M Unit := do
  let va ← readSrc c x.head x.sa f.ty.wide
  let m ← emask c x.head
  let r := Alu.combine f ((valuesOf m va).map BitVec.toNat)
  if x.head.uni then writeScalar c x.dst (extend f.ty r)
  else storeVec c x f.ty.wide none (Vector.replicate 32 (BitVec.ofNat 64 r)) m

/-- LRED (R136). -/
def execLred (f : FnT) (x : Ops) (s : State) : Host.Outcome State Fault Refusal :=
  issueStep 0x72 x false (fun c => bodyLred c f x) s

/-- What a lane of LSCAN takes: the participants up to it, or strictly before it (R136). -/
def scanLane (f : FnT) (m : Mask) (v : Vals) (i : Fin 32) : DWord :=
  let ls := (lanesOf m).filter fun l => decide (l.val < i.val) || (!decide (8 ≤ f.sub.toNat) && l == i)
  BitVec.ofNat 64 (Alu.combine f (ls.map fun l => v[l].toNat))

/-- LSCAN (R136). -/
def bodyLscan (c : Nat) (f : FnT) (x : Ops) : M Unit := do
  let va ← readSrc c x.head x.sa f.ty.wide
  let m ← emask c x.head
  storeVec c x f.ty.wide none (Vector.ofFn (scanLane f m va)) m

/-- LSCAN (R136). -/
def execLscan (f : FnT) (x : Ops) (s : State) : Host.Outcome State Fault Refusal :=
  issueStep 0x73 x false (fun c => bodyLscan c f x) s

/-- What a lane of MATCH takes (R135). -/
def matchLane (f : FnT) (m : Mask) (v : Vals) (i : Fin 32) : DWord :=
  if f.sub = 0 then BitVec.ofNat 64 (m &&& maskOf fun l => v[l] == v[i]).toNat
  else if allSame (valuesOf m v) then BitVec.ofNat 64 m.toNat else 0#64

/-- MATCH (R135). -/
def bodyMatch (c : Nat) (f : FnT) (x : Ops) : M Unit := do
  let va ← readSrc c x.head x.sa f.ty.wide
  let m ← emask c x.head
  storeVec c x false none (Vector.ofFn (matchLane f m va)) m

/-- MATCH (R135). -/
def execMatchLanes (f : FnT) (x : Ops) (s : State) : Host.Outcome State Fault Refusal :=
  issueStep 0x74 x false (fun c => bodyMatch c f x) s

/-- The lane number of LANE: bits 4:0 of the scalar in SB or of IMM32 (R137). -/
def laneNo (c : Nat) (x : Ops) : M (Fin 32) := do
  if x.head.len ≠ 0 then pure (laneFin x.ext.toNat)
  else
    let v ← readScalar c x.sb
    pure (laneFin v.toNat)

/-- A value cut to the type's width, as R32 and R60 store and read narrow values. -/
def narrowTo (ty : Ty) (v : DWord) : DWord := BitVec.ofNat 64 (v.toNat % 2 ^ ty.width)

/-- LANE.get (R137, R132). -/
def bodyLaneGet (c : Nat) (f : FnT) (x : Ops) : M Unit := do
  let y0 ← crewM c
  let t := laneFin (if x.head.len ≠ 0 then x.ext.toNat else (y0.arch.scalar (scalarNo x.sb)).toNat)
  let va ← readCross c x.head x.sa f.ty.wide fun m => if x.head.uni || m != 0 then laneBit t.val else 0#32
  let _ ← laneNo c x
  let m ← emask c x.head
  let y ← crewM c
  let v := if isVec x.sa && y.dead[t] then 0#64 else va[t]
  setDeadsrc c (isVec x.sa && y.dead[t] && (x.head.uni || m != 0))
  if x.head.uni then writeScalar c x.dst (extend f.ty v.toNat)
  else storeVec c x f.ty.wide none (Vector.replicate 32 (narrowTo f.ty v)) m

/-- LANE.put (R137). -/
def bodyLanePut (c : Nat) (f : FnT) (x : Ops) : M Unit := do
  let a ← readScalar c x.sa
  let t ← laneNo c x
  let vc ← readSrc c x.head x.sc f.ty.wide
  let m ← emask c x.head
  storeVec c x f.ty.wide none (Vector.ofFn fun i => narrowTo f.ty (if i = t then a else vc[i])) m

/-- LANE (R137). -/
def execLane (f : FnT) (x : Ops) (s : State) : Host.Outcome State Fault Refusal :=
  issueStep 0x75 x false (fun c => if f.sub = 0 then bodyLaneGet c f x else bodyLanePut c f x) s

end Sys2Proof.Machine
end

