-- ==== Sys2Proof/WellFormed.lean ====
section
/-!
DEFINITION. WellFormed.lean: which terms of `Instr` are instructions or happenings at all. For an instruction it is
the legality of its fields (R40, R55); for a happening, the ranges of its arguments.
-/

namespace Sys2Proof

/-- A term of `Instr` that stands for an instruction or a happening, as a Bool. -/
def Instr.wellFormed (i : Instr) : Bool :=
  match i.parts with
  | some (opc, fn, x) => Format.legal opc fn x
  | none => i.argsOk

/-- A term of `Instr` that stands for an instruction or a happening. -/
abbrev Instr.WellFormed (i : Instr) : Prop := i.wellFormed = true

end Sys2Proof
end

