-- ==== Sys2Proof/Decode.lean ====
section
/-!
DEFINITION. Decode.lean: the decoder, total on any bytes, and the encoder (R36, R38, R44, R46, R48, R52).
-/

namespace Sys2Proof

/-- Why bits are not an instruction. Every reason traps ILLOP (R55). -/
inductive DecodeError where
  | tooShort          -- fewer bytes than the length of the instruction
  | badLen            -- LEN = 0b11 (R36)
  | reservedOpcode    -- a reserved cell of the opcode map (R52)
  | illegalFields     -- a length, field, sub-op, type, MOD, ORD, SCOPE or number that R55 excludes
  deriving DecidableEq, Repr

/-- Length in bytes by LEN (R36); 0 for LEN = 0b11. -/
def lenBytes (len : BitVec 2) : Nat :=
  match len.toNat with
  | 0 => 8
  | 1 => 12
  | 2 => 16
  | _ => 0

/-- Bits 7:0 of the common word (R38). -/
def Head.toByte (h : Head) : BitVec 8 :=
  BitVec.ofBool h.neg ++ h.msk ++ BitVec.ofBool h.uni ++ BitVec.ofBool h.sw ++ h.len

/-- The head of a common word (R38). -/
def Head.ofWord (w : DWord) : Head :=
  ⟨w[7], w.extractLsb' 4 3, w[3], w[2], w.extractLsb' 0 2⟩

/-- The operand fields of a common word and the bits after it. -/
def Ops.ofWord (w ext : DWord) : Ops :=
  ⟨Head.ofWord w, w.extractLsb' 16 8, w.extractLsb' 24 4, w.extractLsb' 28 8, w.extractLsb' 36 8, w.extractLsb' 44 8, ext⟩

/-- FN bits of each layout (R48). -/
def FnT.toBits (f : FnT) : BitVec 12 := f.sub ++ BitVec.ofBool f.mg ++ f.md ++ f.ty.code
def FnM.toBits (f : FnM) : BitVec 12 := f.sub ++ f.ord ++ f.scope ++ f.ty.code
def FnE.toBits (f : FnE) : BitVec 12 := f.sub ++ f.op ++ f.ty.code

/-- The FN field (R48). -/
def Fn.toBits : Fn → BitVec 12
  | .t f => f.toBits
  | .m f => f.toBits
  | .e f => f.toBits
  | .n k => k
  | .z => 0

/-- The fields of a layout T FN (R48). -/
def FnT.ofBits (b : BitVec 12) : FnT := ⟨b.extractLsb' 8 4, b[7], b.extractLsb' 4 3, Ty.ofCode (b.extractLsb' 0 4)⟩
def FnM.ofBits (b : BitVec 12) : FnM := ⟨b.extractLsb' 9 3, b.extractLsb' 7 2, b.extractLsb' 4 3, Ty.ofCode (b.extractLsb' 0 4)⟩
def FnE.ofBits (b : BitVec 12) : FnE := ⟨b.extractLsb' 8 4, b.extractLsb' 4 4, Ty.ofCode (b.extractLsb' 0 4)⟩

/-- The instruction of a layout T opcode. -/
def buildT (f : FnT) (x : Ops) : Nat → Option Instr
  | 0x20 => some (.iadd f x)
  | 0x21 => some (.isub f x)
  | 0x22 => some (.imul f x)
  | 0x23 => some (.imulh f x)
  | 0x24 => some (.imad f x)
  | 0x25 => some (.idiv f x)
  | 0x26 => some (.irem f x)
  | 0x27 => some (.imin f x)
  | 0x28 => some (.imax f x)
  | 0x29 => some (.iabs f x)
  | 0x2A => some (.ineg f x)
  | 0x2B => some (.icmp f x)
  | 0x2C => some (.iaddc f x)
  | 0x2D => some (.lea f x)
  | 0x30 => some (.andB f x)
  | 0x31 => some (.orB f x)
  | 0x32 => some (.xorB f x)
  | 0x33 => some (.andnB f x)
  | 0x34 => some (.notB f x)
  | 0x35 => some (.shl f x)
  | 0x36 => some (.shr f x)
  | 0x37 => some (.sar f x)
  | 0x38 => some (.rot f x)
  | 0x39 => some (.popc f x)
  | 0x3A => some (.clz f x)
  | 0x3B => some (.brev f x)
  | 0x3C => some (.bfx f x)
  | 0x3D => some (.bfi f x)
  | 0x40 => some (.fadd f x)
  | 0x41 => some (.fsub f x)
  | 0x42 => some (.fmul f x)
  | 0x43 => some (.ffma f x)
  | 0x44 => some (.fmin f x)
  | 0x45 => some (.fmax f x)
  | 0x46 => some (.fcmp f x)
  | 0x47 => some (.frcp f x)
  | 0x48 => some (.frsq f x)
  | 0x49 => some (.fsqrt f x)
  | 0x4A => some (.fexp2 f x)
  | 0x4B => some (.flog2 f x)
  | 0x4C => some (.ftanh f x)
  | 0x4D => some (.fclass f x)
  | 0x50 => some (.hadd f x)
  | 0x51 => some (.hmul f x)
  | 0x52 => some (.hfma f x)
  | 0x60 => some (.cvt f x)
  | 0x61 => some (.qnt f x)
  | 0x62 => some (.dqnt f x)
  | 0x63 => some (.pack f x)
  | 0x64 => some (.unpk f x)
  | 0x70 => some (.shfl f x)
  | 0x71 => some (.vote f x)
  | 0x72 => some (.lred f x)
  | 0x73 => some (.lscan f x)
  | 0x74 => some (.matchLanes f x)
  | 0x75 => some (.lane f x)
  | 0x86 => some (.ard f x)
  | 0x87 => some (.awr f x)
  | _ => none

/-- The instruction of a layout M opcode. -/
def buildM (f : FnM) (x : Ops) : Nat → Option Instr
  | 0xA0 => some (.ld f x)
  | 0xA1 => some (.st f x)
  | 0xA2 => some (.lds f x)
  | 0xA3 => some (.sts f x)
  | 0xA4 => some (.pref f x)
  | 0xA6 => some (.tlbinv f x)
  | 0xB0 => some (.atom f x)
  | 0xB1 => some (.cas f x)
  | 0xB2 => some (.red f x)
  | 0xB3 => some (.atoms f x)
  | 0xB4 => some (.fence f x)
  | 0xB5 => some (.bar f x)
  | 0xB6 => some (.bara f x)
  | 0xB7 => some (.barw f x)
  | _ => none

/-- The instruction of a layout E opcode. -/
def buildE (f : FnE) (x : Ops) : Nat → Option Instr
  | 0xD0 => some (.ecpy f x)
  | 0xD1 => some (.egath f x)
  | 0xD2 => some (.escat f x)
  | 0xD3 => some (.ecoll f x)
  | 0xD4 => some (.fork f x)
  | 0xD5 => some (.rdv f x)
  | 0xD6 => some (.tlwait f x)
  | 0xD7 => some (.tlq f x)
  | _ => none

/-- The instruction of a layout N opcode. -/
def buildN (k : BitVec 12) (x : Ops) : Nat → Option Instr
  | 0x09 => some (.ppt k x)
  | 0x14 => some (.dropk k x)
  | 0x15 => some (.keep k x)
  | 0x1A => some (.csrr k x)
  | 0x1B => some (.csrw k x)
  | 0xE4 => some (.evwait k x)
  | 0xF0 => some (.trap k x)
  | 0x89 => some (.astat k x)
  | 0x90 => some (.selk k x)
  | 0xC3 => some (.binq k x)
  | _ => none

/-- The instruction of a layout Z opcode. -/
def buildZ (x : Ops) : Nat → Option Instr
  | 0x00 => some (.nop x)
  | 0x01 => some (.bra x)
  | 0x02 => some (.brx x)
  | 0x03 => some (.dvg x)
  | 0x04 => some (.cvg x)
  | 0x05 => some (.call x)
  | 0x06 => some (.ret x)
  | 0x07 => some (.exit x)
  | 0x08 => some (.loop x)
  | 0x10 => some (.mov x)
  | 0x11 => some (.movi x)
  | 0x12 => some (.sel x)
  | 0x13 => some (.drop x)
  | 0x16 => some (.openName x)
  | 0x17 => some (.claim x)
  | 0x18 => some (.cede x)
  | 0x19 => some (.poolq x)
  | 0xF1 => some (.eret x)
  | 0xF2 => some (.bkpt x)
  | 0xF3 => some (.sigchk x)
  | 0xF4 => some (.sigrst x)
  | 0x80 => some (.aclaim x)
  | 0x81 => some (.afree x)
  | 0x82 => some (.azero x)
  | 0x83 => some (.mma x)
  | 0x84 => some (.ald x)
  | 0x85 => some (.ast x)
  | 0x88 => some (.ascl x)
  | 0xA5 => some (.pmap x)
  | 0xC0 => some (.susp x)
  | 0xC1 => some (.wake x)
  | 0xC2 => some (.resume x)
  | 0xE0 => some (.deq x)
  | 0xE1 => some (.enq x)
  | 0xE2 => some (.launch x)
  | 0xE3 => some (.ljoin x)
  | 0xF5 => some (.kzero x)
  | 0xF6 => some (.scrub x)
  | 0xF7 => some (.ctxfree x)
  | _ => none

/-- The opcode is assigned (R52). -/
def opcodeAssigned (opc : Nat) : Bool := (Format.alu opc).isSome || (Format.row opc).isSome

/-- The instruction with the given opcode, FN bits and operand fields, if they make one (R55). -/
def buildInstr (opc : Nat) (fn : BitVec 12) (x : Ops) : Except DecodeError Instr :=
  if !opcodeAssigned opc then .error .reservedOpcode
  else
    let lay := Format.layout opc
    let parsed : Fn :=
      if lay = 1 then .t (FnT.ofBits fn) else if lay = 2 then .m (FnM.ofBits fn)
      else if lay = 3 then .e (FnE.ofBits fn) else if lay = 4 then .n fn else .z
    if lay = 0 ∧ fn ≠ 0 then .error .illegalFields
    else if !Format.legal opc parsed x then .error .illegalFields
    else
      let made := match parsed with
        | .t f => buildT f x opc
        | .m f => buildM f x opc
        | .e f => buildE f x opc
        | .n k => buildN k x opc
        | .z => buildZ x opc
      match made with
      | some i => .ok i
      | none => .error .reservedOpcode

/-- Decode a common word and the 64 bits after it, of which only those of the form count (R36, R44, R46). -/
def decodeWords (w ext : DWord) : Except DecodeError Instr :=
  let len : BitVec 2 := w.extractLsb' 0 2
  if len = 3 then .error .badLen
  else
    let e : DWord := if len = 0 then 0 else if len = 1 then (ext.extractLsb' 0 32).setWidth 64 else ext
    buildInstr (w.extractLsb' 8 8).toNat (w.extractLsb' 52 12) (Ops.ofWord w e)

/-- Decode the instruction at the front of a list of bytes, and the bytes after it. -/
def decode (bs : List Byte) : Except DecodeError (Instr × List Byte) :=
  match bs with
  | [] => .error .tooShort
  | b :: _ =>
    let n := lenBytes (b.extractLsb' 0 2)
    if n = 0 then .error .badLen
    else if bs.length < n then .error .tooShort
    else
      let w := BitVec.ofNat 64 (ofBytesLE (bs.take 8))
      let e := BitVec.ofNat 64 (ofBytesLE ((bs.take n).drop 8))
      match decodeWords w e with
      | .ok i => .ok (i, bs.drop n)
      | .error r => .error r

/-- The common word of an instruction (R38). -/
def commonWord (opc : BitVec 8) (fn : Fn) (x : Ops) : DWord :=
  fn.toBits ++ x.sc ++ x.sb ++ x.sa ++ x.cnt ++ x.dst ++ opc ++ x.head.toByte

/-- The bits of an instruction as one 128-bit number, and its length in bytes. A happening has no bits. -/
def encode (i : Instr) : Option (Nat × BitVec 128) :=
  match i.parts with
  | none => none
  | some (opc, fn, x) => some (lenBytes x.head.len, x.ext ++ commonWord (BitVec.ofNat 8 opc) fn x)

/-- The bytes of an instruction in memory, lowest address first (R36). -/
def encodeBytes (i : Instr) : List Byte :=
  match encode i with
  | none => []
  | some (n, b) => bytesLE n b.toNat

/-- The instruction the decoder reads from bits numbered as spec/opcode_table.json numbers them: bit 0 is the least
significant bit of the byte at the lowest address. Bits at or above `nbits` are 0. -/
def decodeTableWord (nbits w : Nat) : Option Instr :=
  match decode (bytesLE 16 (w % 2 ^ nbits)) with
  | .ok (i, _) => some i
  | .error _ => none

end Sys2Proof
end

