-- ==== Sys2Proof/Machine/Fetch.lean ====
section
/-!
DEFINITION. Machine/Fetch.lean: the fetch of an instruction (R37, R55 to R57, R312).
-/

namespace Sys2Proof.Machine

open Sys2Proof

/-- What a fetch at a PC brings. -/
inductive Fetched where
  | instr (s : State) (i : Instr)
  | pad (s : State)
  | trap (s : State) (cause : Cause) (addr : Nat)
  | kill (s : State) (kind inst addr : Nat)
  deriving DecidableEq, Repr

/-- Bytes at a virtual address, read as instruction fetch reads memory, or what comes of the attempt (R56, R312). -/
def fetchRead (s : State) (x : Crew) (va n : Nat) (f : State → List Byte → Fetched) : Fetched :=
  match s.readVa (s.crewAgent x x.arch.pc) .fetch va n with
  | .ok t bs => f t bs
  | .fail t c a pa => if c = cPoison then .kill t (t.badUnit pa).1 (t.badUnit pa).2 pa else .trap t c a
  | .kill t k i a => .kill t k i a
  | .wait => .trap s cMemFault va

/-- The bytes of an instruction as an instruction, in the order of R56. -/
def decodeAt (pc : Nat) (t : State) (bs : List Byte) : Fetched :=
  if 32 < pc % 32 + bs.length then .trap t cFetchAlign 0
  else match decode bs with
    | .ok (i, _) => .instr t i
    | .error _ => .trap t cIllop 0

/-- A pad word: zero in the last word of a fetch block (R37). -/
def isPad (pc : Nat) (w : List Byte) : Bool := pc % 32 == 28 && ofBytesLE w == 0

/-- The fetch at a crew's PC (R37, R56 causes 2 to 5). DESIGN CHOICE: it reads memory as it stands, every store performed
among it (log 82). -/
def State.fetchAt (s : State) (x : Crew) : Fetched :=
  let pc := x.arch.pc.toNat
  fetchRead s x pc 4 fun t w =>
    if isPad pc w then .pad t
    else
      let n := lenBytes ((w.headD 0#8).extractLsb' 0 2)
      if n = 0 then .trap t cIllop 0 else fetchRead t x pc n (decodeAt pc)

/-- The PC of the crew's next instruction: past a pad word, which is never stepped or sampled (R37). -/
def State.nextPc (s : State) (x : Crew) : Addr :=
  match s.fetchAt x with
  | .pad _ => x.arch.pc + 4
  | _ => x.arch.pc

/-- The next instruction of the crew is a PPT (R101). -/
def State.atPpt (s : State) (x : Crew) : Bool :=
  match s.fetchAt x with
  | .instr _ (.ppt _ _) => true
  | _ => false

/-- The context lets the crew issue: it runs or drains, or it is stopping and a PPT stands next (R101, R285). -/
def State.ctxLets (s : State) (x : Crew) : Bool :=
  match (s.ctx (s.ctxOf x)).pre.toNat with
  | 0 | 1 => true
  | 2 => !x.stopAt && s.atPpt x
  | _ => false

/-- The crew could be tried now, were it not parked. -/
def State.triable (s : State) (x : Crew) : Bool := !x.empty && x.frame.isEmpty && x.stepDue.isNone && s.ctxLets x

end Sys2Proof.Machine
end

