-- ==== Sys2Proof/Machine/Launch.lean ====
section
/-!
DEFINITION. Machine/Launch.lean: the launch record and its checks (R270 to R273), shared by the LAUNCH instruction and
the LAUNCH packet.
-/

namespace Sys2Proof.Machine

open Sys2Proof

/-! ## The bin table (R271) -/

/-- One declared bin, from its 16 bytes. -/
def binOf (e : List Byte) : Bin :=
  { auto := recField e 0 40 40 == 1, ready := false, ovcnt := 0, occ := 0, toff := recField e 0 18 0,
    width := recField e 0 29 24, thresh := recField e 0 37 32, spc := 0, fdp := 0, ovp := recField e 8 51 0, rcnt := 0 }

/-- Every bit of a bin entry that must be zero is zero. -/
def binZeros (e : List Byte) : Bool :=
  recField e 0 23 19 == 0 && recField e 0 31 30 == 0 && recField e 0 39 38 == 0 && recField e 0 63 41 == 0
    && recField e 8 63 52 == 0

/-- The numbers of the declared bins. -/
def declared (r : List Byte) : List Nat := (List.range 32).filter fun i => (recBinMask r).testBit i

/-- Entry i of a bin table of 512 bytes. -/
def binEntry (t : List Byte) (i : Nat) : List Byte := (t.drop (16 * i)).take 16

/-- The device reads the entries of the declared bins, once, through the context's translation; the bytes of a bin that
is not declared are left 0. `none` where a read fails (R271). -/
def State.readBins (s : State) (ctx : Nat) (r : List Byte) : Option (List Byte) :=
  ((List.range 32).mapM fun i =>
    if (recBinMask r).testBit i then
      match s.readRange ctx (recBinTab r + 16 * i) 16 with
      | .ok bs => some bs
      | .error _ => none
    else some (List.replicate 16 0#8)).map List.flatten

/-- Two ranges of bytes overlap. -/
def meets (a n b m : Nat) : Bool := decide (a < b + m) && decide (b < a + n)

/-- The declared bins keep the rules of R273. -/
def binsOk (r t : List Byte) : Bool :=
  let bs := (declared r).map fun i => binOf (binEntry t i)
  (declared r).all (fun i => binZeros (binEntry t i))
    && bs.all (fun b => decide (1 ≤ b.width ∧ b.width ≤ 32 ∧ 1 ≤ b.thresh ∧ b.thresh ≤ 32 ∧ b.toff % 128 = 0
          ∧ b.toff + 128 * b.width ≤ 256 * recSpad r))
    && apart bs
where
  /-- No two frame tiles overlap. -/
  apart : List Bin → Bool
    | [] => true
    | b :: t => t.all (fun c => !meets b.toff (128 * b.width) c.toff (128 * c.width)) && apart t

/-! ## The checks of R273 -/

/-- Every bit of a record that must be zero is zero. -/
def recZeros (r : List Byte) : Bool :=
  recField r 0 15 11 == 0 && recField r 8 63 52 == 0 && recField r 16 63 57 == 0 && recField r 24 63 37 == 0
    && recField r 32 63 32 == 0 && recField r 40 63 52 == 0 && recField r 56 63 52 == 0 && recField r 64 63 52 == 0
    && recField r 72 63 52 == 0 && recField r 80 63 32 == 0 && recField r 88 63 52 == 0
    && (List.range 32).all (fun i => recField r (128 + 2 * i) 15 13 == 0)
    && (List.range 4).all (fun j => recField r (192 + 16 * j) 63 52 == 0)

/-- ENTRY and the addresses are aligned. -/
def recAligned (r : List Byte) : Bool :=
  recEntry r % 4 == 0 && recStats r % 64 == 0 && recBinTab r % 64 == 0 && recCompl r % 128 == 0
    && (List.range 4).all fun j => (recDep r j).1 % 8 == 0

/-- A requested ratio is 0 or lies in the range of R2. -/
def ratioOk (r : List Byte) : Bool :=
  [(0, 12), (1, 10), (2, 8), (3, 8)].all fun p =>
    recReq r p.1 == 0 || (decide (4 ≤ recReq r p.1) && decide (recReq r p.1 ≤ p.2))

/-- How often `n` goes into `k`; `top` where `n` is 0. -/
def share (k n top : Nat) : Nat := if n = 0 then top else k / n

/-- Gangs of a launch that an empty core takes (R277). -/
def perCore (r : List Byte) : Nat :=
  min (min 16 (64 / recCrews r)) (min (share 1536 (recSpad r) 16) (min (share 8 (recTiles r) 16) (share 4096 (recFloors r) 16)))

/-- Gangs that an otherwise empty device takes: 24 districts of eight cores, four groups to a district (R277, R279). -/
def deviceRoom (r : List Byte) : Nat :=
  let n := recGroup r
  if n = 0 then 192 * perCore r else 24 * min 4 (8 * perCore r / n) * n

/-- The record passes the checks that need no memory. `level`: the level that bounds PRIV. -/
def recordOk (r : List Byte) (level : Nat) : Bool :=
  recZeros r && recAligned r
    && decide (recSpad r ≤ 1536 ∧ recTiles r ≤ 8 ∧ recGroup r ≤ 8)
    && (List.range 32).all (fun i => decide (i < recCrews r) || recFloor r i == 0)
    && decide (recFloors r ≤ min (recLimit r) 4096)
    && decide (recSdlen r ≤ 256 * recSpad r ∧ recBslen r ≤ 2 ^ 22)
    && ratioOk r
    && (recGroup r == 0 || recGangs r % recGroup r == 0)
    && (!recCor r || decide (recGangs r ≤ deviceRoom r))
    && decide (recPriv r ≤ level ∧ recPriv r ≤ 2)

/-- A persistent launch of the context is still live (R281). -/
def State.persistLive (s : State) (ctx : Nat) : Bool :=
  s.grids.any fun p => p.2.ctx == ctx && recPersist p.2.record && p.2.state != .ended

/-- All the checks of R273: the bin table read, or `none` for a record that is rejected. -/
def State.checkRecord (s : State) (ctx level : Nat) (r : List Byte) : Option (List Byte) :=
  if recordOk r level && !(recPersist r && s.persistLive ctx) then
    match s.readBins ctx r with
    | some t => if binsOk r t then some t else none
    | none => none
  else none

/-- The lowest launch identifier that no live launch has. DESIGN CHOICE: R276 leaves the choice to the headframe
(log 13). -/
def freeLid (used : List Nat) : Nat → Nat → Nat
  | 0, i => i
  | n + 1, i => if used.contains i then freeLid used n (i + 1) else i

/-- A launch at its start. -/
def Grid.new (ctx : Nat) (r binTab : List Byte) (priv : BitVec 2) (parent pool queue : Option Nat) (unit lid : Nat) : Grid :=
  { ctx := ctx, record := r, binTab := binTab, parent := parent, pool := pool, queue := queue, unit := unit, lid := lid,
    priv := priv, state := .waiting, next := 0, due := [], kills := 0, orphan := false, cause := 0, orph := 0, unrep := 0,
    grant0 := none, changes := 0, again := 0, totals := [], phases := Vector.replicate 4 0, groups := [], dists := [],
    bcores := [] }

/-- A launch that has started. -/
def State.newGrid (s : State) (ctx : Nat) (r binTab : List Byte) (priv : BitVec 2) (parent pool queue : Option Nat)
    (unit : Nat) : Nat × State :=
  let l := s.nextId
  let used := s.grids.map fun p => p.2.lid
  (l, { (s.modCtx ctx fun k => { k with launched := true }) with nextId := l + 1 }.setGrid l
    (Grid.new ctx r binTab priv parent pool queue unit (freeLid used used.length 0)))

end Sys2Proof.Machine
end

