-- ==== Sys2Proof/Machine/Matrix.lean ====
section
/-!
DEFINITION. Machine/Matrix.lean: tiles, the matrix array and SELK (R72 to R75, R138 to R156).
-/

namespace Sys2Proof.Machine

open Sys2Proof

/-! ## Tiles and regions (R141, R145) -/

/-- The crew that holds a tile belongs to a gang. -/
def State.tileOfGang (s : State) (g : Nat) (t : Tile) : Bool :=
  match s.crew? t.crew with
  | some x => x.gang == g
  | none => false

/-- claimed(g) (R141). -/
def State.claimed (s : State) (core g : Nat) : Nat :=
  ((s.core core).tiles.filter fun p => s.tileOfGang g p.2).length

/-- tfree (R141). -/
def State.tfree (s : State) (core : Nat) : Int :=
  8 - ((s.gangsOn core).map fun g => match s.gang? g with
    | some x => max x.tileRes (s.claimed core g)
    | none => 0).sum

/-- tavail(c) (R141). -/
def State.tavail (s : State) (x : Crew) : Int :=
  let core := s.coreOf x
  match s.gang? x.gang with
  | some g => max 0 ((g.tileRes : Int) - s.claimed core x.gang) + s.tfree core
  | none => 0

/-- The physical tile of a handle: NAMEFAULT for an unbound handle, LEASE for a leased tile (R145). -/
def tileM (c h : Nat) : M Nat := do
  let y ← crewM c
  let s ← getS
  match Tab.at? y.arch.tiles h with
  | none => fault cNameFault
  | some t =>
    if s.cmds.any fun p => p.2.crew == c && p.2.tile == some t then fault cLease
    pure t

/-- The cause that a scratchpad region of `n` bytes at offset `off` meets, with EADDR the first offending byte (R145;
DEDUCED, log 21). DESIGN CHOICE: of several causes ALIGN comes first, then MEMFAULT, then LEASE (log 90). -/
def State.regionErr (s : State) (c spLen off n align : Nat) : Option (Cause × Nat) :=
  if off % align ≠ 0 then some (cAlign, off)
  else if spLen < off + n then some (cMemFault, max off spLen)
  else
    let hit := (s.cmds.filter fun p => p.2.crew == c).findSome? fun p => p.2.range.find? fun r => overlap r.1 r.2 off n
    hit.map fun r => (cLease, max off r.1)

/-- The checks of a scratchpad region at issue (R145). -/
def regionM (c off n align : Nat) : M Unit := do
  let s ← getS
  let g ← gangM c
  match s.regionErr c g.spLen off n align with
  | some e => stop (.trap e.1 e.2 none)
  | none => pure ()

/-- An offset is bits 51:0 of its scalar (R145). -/
def offsetM (c : Nat) (code : BitVec 8) : M Nat := do
  let v ← readScalar c code
  pure (v.toNat % 2 ^ 52)

/-- The tile is named by an earlier matrix instruction of the crew that is not complete (R155). -/
def State.tileBusy (s : State) (core c t : Nat) : Bool := (s.core core).mats.any fun m => m.crew == c && m.tile == t

/-- Wait for the crew's earlier matrix instructions on the tile (R155). -/
def tileWait (c t : Nat) : M Unit := do
  let y ← crewM c
  let s ← getS
  if s.tileBusy (s.coreOf y) c t then park .matrix

/-- Wait for the crew's earlier matrix instructions on scratchpad bytes (R155). -/
def spadWait (c : Nat) (rs : List (Nat × Nat)) (writes : Bool) : M Unit := do
  let y ← crewM c
  let s ← getS
  if rs.any fun r => s.matrixBlocks (s.coreOf y) c r.1 r.2 writes then park .matrix

/-- Rows 2L and 2L + 1 of the lanes of a mask (R139). -/
def rowsOf (m : Mask) : List Nat := ((lanesOf m).map fun l => [2 * l.val, 2 * l.val + 1]).flatten

/-- Window address of row `r` of a physical tile. -/
def rowPa (core t r : Nat) : Nat := tilePa core t + 512 * r

/-- Window address of element (r, c). -/
def elemPa (core t r c : Nat) : Nat := rowPa core t r + 4 * c

/-- Hand an instruction to the matrix array, if one of its 8 places is free (R149). DESIGN CHOICE: the instruction that the array
performs keeps its place until it completes (log 98). -/
def enqueueM (c : Nat) (pc : Addr) (t : Nat) (m : Mask) (k : MatKind) : M Unit := do
  let y ← crewM c
  let s ← getS
  let core := s.coreOf y
  if 8 ≤ (s.core core).mats.length then park .matrix
  modS fun u => u.modCore core fun w =>
    { w with mats := w.mats ++ [{ crew := c, gang := y.gang, seq := y.seq, pc := pc, tile := t, lanes := m, kind := k,
                                     early := [], did := [] }] }

/-! ## Claiming and freeing (R142, R143) -/

/-- ACLAIM (R142). DESIGN CHOICE: the lowest free tile is taken (log 86). -/
def bodyAclaim (c : Nat) (x : Ops) : M Unit := do
  let h := x.dst.toNat % 8
  let y ← crewM c
  check (Tab.at? y.arch.tiles h).isNone cNameLive
  let s ← getS
  let core := s.coreOf y
  if s.tavail y ≤ 0 then park .tile
  match Tab.firstFree (s.core core).tiles 8 0 with
  | none => park .tile
  | some t =>
    modS fun u => (u.modCore core fun w => { w with tiles := Tab.put w.tiles t { crew := c, rel := none } }).clearChip
      (tilePa core t) 0x8000
    modA c fun a => { a with tiles := Tab.put a.tiles h t }

/-- ACLAIM (R142). -/
def execAclaim (x : Ops) (s : State) : Host.Outcome State Fault Refusal :=
  issueStep 0x80 x false (fun c => bodyAclaim c x) s

/-- AFREE (R143): the tile is free at once, or released while the checkpoint is older. -/
def bodyAfree (c : Nat) (x : Ops) : M Unit := do
  let h := x.dst.toNat % 8
  let t ← tileM c h
  tileWait c t
  let y ← crewM c
  let s ← getS
  modA c fun a => { a with tiles := Tab.del a.tiles h }
  modS fun u => u.modCore (s.coreOf y) fun w =>
    { w with tiles := if y.acc.isEmpty then Tab.del w.tiles t else Tab.put w.tiles t { crew := c, rel := some y.seq } }

/-- AFREE (R143). -/
def execAfree (x : Ops) (s : State) : Host.Outcome State Fault Refusal :=
  issueStep 0x81 x false (fun c => bodyAfree c x) s

/-! ## Instructions of the array at issue -/

/-- AZERO (R146). -/
def bodyAzero (c : Nat) (x : Ops) : M Unit := do
  let pc ← ownPc c x
  let m ← emask c x.head
  let t ← tileM c (x.dst.toNat % 8)
  tileWait c t
  enqueueM c pc t m .azero

/-- AZERO (R146). -/
def execAzero (x : Ops) (s : State) : Host.Outcome State Fault Refusal :=
  issueStep 0x82 x false (fun c => bodyAzero c x) s

/-- Bytes of an A row and of a B slice of one step, by AFMT (R147). -/
def stepBytes (fmt : Nat) : Nat := if fmt = 0 then 256 else if fmt = 3 then 64 else 128

/-- K of a width class (R147). -/
def stepK (fmt : Nat) : Nat := if fmt = 0 then 512 else if fmt = 3 then 32 else 128

/-- The number of blocks NB; 0 without scales (R147). -/
def blockCount (fb : DWord) : Nat :=
  let blk := fld fb 5 4
  if blk = 0 then 0 else stepK (fld fb 1 0) / 2 ^ (blk + 2)

/-- MMA at issue (R147, R148): checks, then the queue; with an empty mask it is complete. DESIGN CHOICE: the order of the
checks (log 90). -/
def bodyMma (c : Nat) (x : Ops) : M Unit := do
  let pc ← ownPc c x
  let a ← offsetM c x.sa
  let b ← offsetM c x.sb
  let m ← emask c x.head
  let t ← tileM c (x.dst.toNat % 8)
  let fb := x.ext
  let bytes := stepBytes (fld fb 1 0)
  let nb := blockCount fb
  regionM c a (64 * bytes) 256
  if nb ≠ 0 then
    regionM c (64 * fld fb 18 6) (64 * nb) 1
    regionM c (64 * fld fb 31 19) (128 * nb) 1
  regionM c (64 * fld fb 44 32) 6 1
  if b % 64 ≠ 0 then stop (.trap cAlign b none)
  if 32768 < b + bytes then stop (.trap cMemFault b none)
  tileWait c t
  spadWait c (MatKind.mma a b fb).reads false
  if m ≠ 0 then enqueueM c pc t m (.mma a b fb)

/-- MMA (R148). -/
def execMma (x : Ops) (s : State) : Host.Outcome State Fault Refusal :=
  issueStep 0x83 x true (fun c => bodyMma c x) s

/-- ALD (R150). DESIGN CHOICE: its tile's fault comes before its region's (log 90). -/
def bodyAld (c : Nat) (x : Ops) : M Unit := do
  let pc ← ownPc c x
  let o ← offsetM c x.sa
  let m ← emask c x.head
  let t ← tileM c (x.dst.toNat % 8)
  regionM c o 32768 256
  tileWait c t
  spadWait c [(o, 32768)] false
  enqueueM c pc t m (.ald o)

/-- ALD (R150). -/
def execAld (x : Ops) (s : State) : Host.Outcome State Fault Refusal :=
  issueStep 0x84 x false (fun c => bodyAld c x) s

/-- AST (R150). DESIGN CHOICE: its tile's fault comes before its region's (log 90). -/
def bodyAst (c : Nat) (x : Ops) : M Unit := do
  let pc ← ownPc c x
  let o ← offsetM c x.sb
  let m ← emask c x.head
  let t ← tileM c (x.sa.toNat % 8)
  regionM c o 32768 256
  tileWait c t
  spadWait c [(o, 32768)] true
  enqueueM c pc t m (.ast o)

/-- AST (R150). -/
def execAst (x : Ops) (s : State) : Host.Outcome State Fault Refusal :=
  issueStep 0x85 x false (fun c => bodyAst c x) s

/-- ASCL (R152): both operands are read at issue. -/
def bodyAscl (c : Nat) (x : Ops) : M Unit := do
  let pc ← ownPc c x
  let va ← readSrc c x.head x.sa false
  let vb ← readSrc c x.head x.sb false
  let m ← emask c x.head
  let t ← tileM c (x.dst.toNat % 8)
  tileWait c t
  enqueueM c pc t m (.ascl (lowHalf va) (lowHalf vb))

/-- ASCL (R152). -/
def execAscl (x : Ops) (s : State) : Host.Outcome State Fault Refusal :=
  issueStep 0x88 x true (fun c => bodyAscl c x) s

/-- SELK (R153). DESIGN CHOICE: its tile's fault comes before its region's (log 90). -/
def bodySelk (c k : Nat) (x : Ops) : M Unit := do
  let pc ← ownPc c x
  let o ← offsetM c x.sb
  let m ← emask c x.head
  let t ← tileM c (x.sa.toNat % 8)
  regionM c o (768 * k) 64
  tileWait c t
  spadWait c [(o, 768 * k)] true
  enqueueM c pc t m (.selk o k)

/-- SELK (R153). -/
def execSelk (k : BitVec 12) (x : Ops) (s : State) : Host.Outcome State Fault Refusal :=
  issueStep 0x90 x false (fun c => bodySelk c k.toNat x) s

/-! ## ARD, AWR, ASTAT (R151, R154) -/

/-- Column and row parity of a selector (R151). -/
def selCol (t : Ty) (v : DWord) : Nat :=
  let c := v.toNat % 128
  if t == .bf16x2 || t == .f16x2 then c / 2 * 2 else c

def selRow (v : DWord) (l : Nat) : Nat := 2 * l + v.toNat / 128 % 2

/-- What ARD stores of an element and its neighbour (R151). -/
def ardValue (f : FnT) (e0 e1 : Nat) : Nat :=
  let F := Num.fmtOf f.ty
  let r (e : Nat) : Nat := F.round (Alu.modeOf f) (Num.f32.value e)
  if f.ty == .f32 then e0
  else if f.ty == .bf16x2 || f.ty == .f16x2 then r e0 + 65536 * r e1
  else r e0

/-- Tile elements that an instruction reads hold no uncorrectable error, or the gang is killed (R305, R403). -/
def useElems (core : Nat) (pas : List Nat) : M Unit := do
  let s ← getS
  match pas.find? fun p => s.marked p 4 with
  | some p => stop (.kill 0x03 (coreInst core) (p - winOf core))
  | none => pure ()

/-- ARD (R151). DESIGN CHOICE: its tile's fault comes before NAMELIVE of its destination (log 97). -/
def bodyArd (c : Nat) (f : FnT) (x : Ops) : M Unit := do
  let v ← readScalar c x.sb
  let m ← emask c x.head
  let t ← tileM c (x.sa.toNat % 8)
  tileWait c t
  let y ← crewM c
  let s ← getS
  let core := s.coreOf y
  let col := selCol f.ty v
  let two := f.ty == .bf16x2 || f.ty == .f16x2
  let pa (l k : Nat) : Nat := elemPa core t (selRow v l) (col + k)
  useElems core (((lanesOf m).map fun l => if two then [pa l.val 0, pa l.val 1] else [pa l.val 0]).flatten)
  storeVec c x false none (Vector.ofFn fun i =>
    BitVec.ofNat 64 (ardValue f (s.word (pa i.val 0)) (if two then s.word (pa i.val 1) else 0))) m

/-- ARD (R151). -/
def execArd (f : FnT) (x : Ops) (s : State) : Host.Outcome State Fault Refusal :=
  issueStep 0x86 x false (fun c => bodyArd c f x) s

/-- The exact FP32 of a half, a NaN in its canonical form (R151). -/
def awrHalf (t : Ty) (v : Nat) : Nat := Num.f32.round .rn ((Num.fmtOf t).value (v % 65536))

/-- The elements that AWR writes (R151). -/
def awrValues (t : Ty) (v : Nat) : List Nat :=
  if t == .f32 then [v % 2 ^ 32]
  else if t == .bf16x2 || t == .f16x2 then [awrHalf t v, awrHalf t (v / 65536)]
  else [awrHalf t v]

/-- AWR (R151). -/
def bodyAwr (c : Nat) (f : FnT) (x : Ops) : M Unit := do
  let va ← readSrc c x.head x.sa false
  let v ← readScalar c x.sb
  let m ← emask c x.head
  let t ← tileM c (x.dst.toNat % 8)
  tileWait c t
  let y ← crewM c
  modS fun s =>
    let core := s.coreOf y
    (lanesOf m).foldl (fun u l =>
      u.writeChip (elemPa core t (selRow v l.val) (selCol f.ty v))
        (((awrValues f.ty va[l].toNat).map (bytesLE 4)).flatten)) s

/-- AWR (R151). -/
def execAwr (f : FnT) (x : Ops) (s : State) : Host.Outcome State Fault Refusal :=
  issueStep 0x87 x false (fun c => bodyAwr c f x) s

/-- ASTAT (R154): it waits for the crew's own issued MMAs. -/
def bodyAstat (c k : Nat) (x : Ops) : M Unit := do
  let y ← crewM c
  let g ← gangM c
  let s ← getS
  let mine := (s.core (s.coreOf y)).mats.any fun m => m.crew == c && (match m.kind with
    | .mma _ _ _ => true
    | _ => false)
  if mine then park .matrix
  let t := Tab.getD g.stats (k % 256) ⟨0, 0, 0⟩
  writeScalar c x.dst (BitVec.ofNat 64 (if k / 256 = 0 then t.sat else if k / 256 = 1 then t.flush else t.nan))

/-- ASTAT (R154). -/
def execAstat (k : BitVec 12) (x : Ops) (s : State) : Host.Outcome State Fault Refusal :=
  issueStep 0x89 x false (fun c => bodyAstat c k.toNat x) s

/-! ## The K-step (R72 to R74) -/

/-- The elements of a row or slice in k order, by element format code (R47, R66, R147). -/
def elemsOf (fmt : Nat) : List Byte → List Num.FVal
  | [] => []
  | b :: bs =>
    if fmt = 0 then Num.e2m1.value (b.toNat % 16) :: Num.e2m1.value (b.toNat / 16) :: elemsOf fmt bs
    else if fmt = 1 then Num.e4m3.value b.toNat :: elemsOf fmt bs
    else if fmt = 2 then Num.e5m2.value b.toNat :: elemsOf fmt bs
    else match bs with
      | [] => []
      | h :: t => Num.bf16.value (b.toNat + 256 * h.toNat) :: elemsOf fmt t

/-- An exact finite value in units of 2^-288 (R73). -/
def fixed (v : Num.FVal) : Int :=
  match v with
  | .num n d => n * ((2 ^ 288 : Nat) : Int) / (d : Int)
  | _ => 0

/-- An exact sum: NaN and infinities as R72 states, else the register of R73. -/
def sumExact (vs : List Num.FVal) : Num.FVal :=
  if vs.any Num.FVal.isNaN || (vs.contains (.inf true) && vs.contains (.inf false)) then .nan
  else if vs.contains (.inf true) then .inf true
  else if vs.contains (.inf false) then .inf false
  else Num.ofRat (vs.map fixed).sum (2 ^ 288)

/-- Sums of the blocks of `n` products, `k` blocks. -/
def blockSums (n : Nat) : Nat → List Num.FVal → List Num.FVal
  | 0, _ => []
  | k + 1, ps => sumExact (ps.take n) :: blockSums n k (ps.drop n)

/-- T of one element (R72): `sa` and `sb` are the scale bytes of its row and column, empty without block scales. -/
def kstep (a b : List Num.FVal) (sa sb : List Byte) : Num.FVal :=
  let ps := List.zipWith Num.FVal.mul a b
  if sa.isEmpty then sumExact ps
  else
    let sums := blockSums (ps.length / sa.length) sa.length ps
    sumExact (List.zipWith (fun t q => (t.mul (Num.e3m5 q.1)).mul (Num.e3m5 q.2)) sums
      (List.zipWith (fun u v => (u.toNat, v.toNat)) sa sb))

/-- finish(D, T, bA, bB) of R74: the new bits, and what is counted (R76). -/
def finishElem (d : Nat) (t bA bB : Num.FVal) : Nat × Stat :=
  if t.isZero then (d, ⟨0, 0, 0⟩)
  else
    let dv := Num.f32.value d
    let z := Num.FVal.add .rn ((t.mul bA).mul bB) dv
    let r := Num.f32.roundO .rn z
    let finite := match z with
      | .num _ _ => true
      | _ => false
    (r.1, ⟨b2n (finite && r.2), b2n (finite && r.1 % 2 ^ 31 == 0), b2n (z.isNaN && !dv.isNaN)⟩)

/-- The words of a byte list. -/
def wordsOf : List Byte → List Nat
  | a :: b :: c :: d :: bs => ofBytesLE [a, b, c, d] :: wordsOf bs
  | _ => []

def bytesOfWords (ws : List Nat) : List Byte := (ws.map (bytesLE 4)).flatten

def Stat.plus (a b : Stat) : Stat := ⟨a.sat + b.sat, a.flush + b.flush, a.nan + b.nan⟩

/-- Finish the elements of one row from column `c` on. -/
def finishRow (bA b0 b1 : Num.FVal) : Nat → List Nat → List Num.FVal → List Nat × Stat
  | c, d :: ds, t :: ts =>
    let e := finishElem d t bA (if c < 64 then b0 else b1)
    let r := finishRow bA b0 b1 (c + 1) ds ts
    (e.1 :: r.1, e.2.plus r.2)
  | _, _, _ => ([], ⟨0, 0, 0⟩)

/-- The operands of an MMA on a core: where they lie. -/
structure MmaPlace where
  core : Nat
  spad : Nat           -- window address of the gang's scratchpad
  tile : Nat
  a    : Nat
  b    : Nat
  fb   : DWord
  deriving DecidableEq, Repr

def MmaPlace.rowA (p : MmaPlace) (r : Nat) : Nat := p.spad + p.a + r * stepBytes (fld p.fb 1 0)
def MmaPlace.scaleA (p : MmaPlace) (r : Nat) : Nat := p.spad + 64 * fld p.fb 18 6 + r * blockCount p.fb
def MmaPlace.scaleB (p : MmaPlace) (c : Nat) : Nat := p.spad + 64 * fld p.fb 31 19 + c * blockCount p.fb
def MmaPlace.band (p : MmaPlace) : Nat := p.spad + 64 * fld p.fb 44 32
def MmaPlace.slice (p : MmaPlace) (c : Nat) : Nat := bstackPa p.core (0x8000 * c + p.b)

/-- T of every column of row `r`; `cols` are the elements and scales of the 128 columns. -/
def State.rowT (s : State) (p : MmaPlace) (cols : List (List Num.FVal × List Byte)) (r : Nat) : List Num.FVal :=
  let a := elemsOf (fld p.fb 1 0) (s.mem.read (p.rowA r) (stepBytes (fld p.fb 1 0)))
  let sa := s.mem.read (p.scaleA r) (blockCount p.fb)
  cols.map fun q => kstep a q.1 sa q.2

/-- The columns of B. -/
def State.colsB (s : State) (p : MmaPlace) : List (List Num.FVal × List Byte) :=
  (List.range 128).map fun c =>
    (elemsOf (fld p.fb 3 2) (s.mem.read (p.slice c) (stepBytes (fld p.fb 1 0))), s.mem.read (p.scaleB c) (blockCount p.fb))

/-- A bad word among what an MMA reads, with the KIND of its unit (R149, R305, R403). -/
def State.mmaBad (s : State) (p : MmaPlace) (rows : List Nat) : Option (Nat × Nat) :=
  let w := stepBytes (fld p.fb 1 0)
  let nb := blockCount p.fb
  let find (kind n : Nat) (pas : List Nat) : Option (Nat × Nat) := (pas.find? fun a => s.marked a n).map fun a =>
    (kind, s.firstMark a n)
  let scales := if nb = 0 then none else
    match find 0x02 nb (rows.map p.scaleA) with
    | some e => some e
    | none => find 0x02 nb ((List.range 128).map p.scaleB)
  match find 0x02 w (rows.map p.rowA), scales, find 0x04 w ((List.range 128).map p.slice),
      find 0x03 512 (rows.map (rowPa p.core p.tile)) with
  | some e, _, _, _ => some e
  | none, some e, _, _ => some e
  | none, none, some e, _ => some e
  | none, none, none, some e => some e
  | _, _, _, _ => none

/-- The bad word of the band scales that an MMA consumes: bA and bB of columns 0 to 63 stand in the first word, bB of columns
64 to 127 in the second, and each is read where a T is not zero (R148, R403). `ts`: the T of each row. -/
def State.bandBad (s : State) (p : MmaPlace) (ts : List (List Num.FVal)) : Option Nat :=
  let some_ (l : List (List Num.FVal)) : Bool := l.any fun q => q.any fun t => !t.isZero
  if s.marked p.band 4 && some_ ts then some p.band
  else if s.marked (p.band + 4) 2 && some_ (ts.map fun q => q.drop 64) then some (p.band + 4)
  else none

/-- The effect of an MMA (R148), or the bad word it consumes. `v`: the machine as the array has read its operands. -/
def State.mmaRun (s v : State) (p : MmaPlace) (rows : List Nat) : Except (Nat × Nat) (State × Stat) :=
  match v.mmaBad p rows with
  | some e => .error e
  | none =>
    let cols := v.colsB p
    let ts := rows.map fun r => (r, v.rowT p cols r)
    match v.bandBad p (ts.map Prod.snd) with
    | some a => .error (0x02, a)
    | none =>
      let bw (i : Nat) : Num.FVal := Num.bf16.value (v.mem.readNat (p.band + 2 * i) 2)
      .ok (ts.foldl (fun u q =>
        let pa := rowPa p.core p.tile q.1
        let r := finishRow (bw 0) (bw 1) (bw 2) 0 (wordsOf (s.mem.read pa 512)) q.2
        (u.1.writeChip pa (bytesOfWords r.1), u.2.plus r.2)) (s, ⟨0, 0, 0⟩))

/-! ## SELK (R153) -/

/-- Element `a` of row `i` ranks before element `b` of row `j`: numbers from the largest, NaN last, ties by row. -/
def ranksBefore (a : Nat) (i : Nat) (b : Nat) (j : Nat) : Bool :=
  let x := Num.f32.value a
  let y := Num.f32.value b
  if x.isNaN then y.isNaN && decide (i < j)
  else y.isNaN || y.lt x || (!x.lt y && decide (i < j))

/-- Insert a row into the ranking. -/
def rankInsert (i v : Nat) : List (Nat × Nat) → List (Nat × Nat)
  | [] => [(i, v)]
  | (j, w) :: t => if ranksBefore v i w j then (i, v) :: (j, w) :: t else (j, w) :: rankInsert i v t

/-- The first k rows of column `c`, padded (R153). -/
def State.ranking (s : State) (core t c k : Nat) (rows : List Nat) : List (Nat × Nat) :=
  let order := rows.foldl (fun o r => rankInsert r (s.word (elemPa core t r c)) o) []
  order.take k ++ List.replicate (k - order.length) (0xFFFF, 0x7FC00000)

/-! ## MATRIX_INSTRUCTION_COMPLETE -/

/-- Scaled rows of ASCL (R152). -/
def State.asclRow (s : State) (core t r : Nat) (k : Word) : State :=
  let pa := rowPa core t r
  s.writeChip pa (bytesOfWords ((wordsOf (s.mem.read pa 512)).map fun d => Alu.fmulE Num.f32 .rn d k.toNat))

/-- The first bad row that an instruction reads. -/
def State.badRow (s : State) (kind : Nat) (pas : List Nat) : Option (Nat × Nat) :=
  (pas.find? fun a => s.marked a 512).map fun a => (kind, s.firstMark a 512)

/-- The machine as the array has read it: words that it read ahead have the value they had then (R156). -/
def State.seen (s : State) (e : Tab (Nat × Bool)) : State :=
  e.foldl (fun t p => { t with
    mem := t.mem.writeNat (4 * p.1) 4 p.2.1,
    badWord := (t.badWord.filter (· != p.1)) ++ (if p.2.2 then [p.1] else []) }) s

/-- Store what the array has not written ahead already, word by word where it has (R156). -/
def State.writeRest (s : State) (did : List Nat) (pa : Nat) (bs : List Byte) : State :=
  if did.isEmpty then s.writeChip pa bs
  else (List.range (bs.length / 4)).foldl (fun t i =>
    if did.contains (pa / 4 + i) then t else t.writeChip (pa + 4 * i) ((bs.drop (4 * i)).take 4)) s

/-- The effect of an instruction that the array has performed, or the bad word it consumed: SELK consumes no mark of a tile
(R403). `spad`: window address of the gang's scratchpad. -/
def State.matRun (s : State) (core spad : Nat) (o : MatOp) : Except (Nat × Nat) (State × Stat) :=
  let rows := rowsOf o.lanes
  let none_ : Stat := ⟨0, 0, 0⟩
  let v := s.seen o.early
  match o.kind with
  | .azero => .ok (rows.foldl (fun u r => u.clearChip (rowPa core o.tile r) 512) s, none_)
  | .ald off => match v.badRow 0x02 (rows.map fun r => spad + off + 512 * r) with
    | some e => .error e
    | none => .ok (rows.foldl (fun u r =>
        u.writeChip (rowPa core o.tile r) (v.mem.read (spad + off + 512 * r) 512)) s, none_)
  | .ast off => match s.badRow 0x03 (rows.map (rowPa core o.tile)) with
    | some e => .error e
    | none => .ok (rows.foldl (fun u r =>
        u.writeRest o.did (spad + off + 512 * r) (s.mem.read (rowPa core o.tile r) 512)) s, none_)
  | .ascl a b => match s.badRow 0x03 (rows.map (rowPa core o.tile)) with
    | some e => .error e
    | none => .ok ((lanesOf o.lanes).foldl (fun u l =>
        (u.asclRow core o.tile (2 * l.val) a[l]).asclRow core o.tile (2 * l.val + 1) b[l]) s, none_)
  | .selk off k =>
    let rs := ((List.range 128).map fun c => s.ranking core o.tile c k rows).flatten
    .ok ((s.writeRest o.did (spad + off) ((rs.map fun q => bytesLE 2 q.1).flatten)).writeRest o.did (spad + off + 256 * k)
      ((rs.map fun q => bytesLE 4 q.2).flatten), none_)
  | .mma a b fb => s.mmaRun v { core := core, spad := spad, tile := o.tile, a := a, b := b, fb := fb } rows

/-- The tensor id that an instruction counts against. -/
def MatKind.tid (k : MatKind) : Nat :=
  match k with
  | .mma _ _ fb => fld fb 63 56
  | _ => 0

/-- Canaries that the array's instruction meets: the array, and the memories it reads and writes (R318). -/
def matTouched (o : MatOp) : List Nat :=
  match o.kind with
  | .mma _ _ _ => [0x02, 0x03, 0x04, 0x05]
  | .azero => [0x03]
  | .ascl _ _ => [0x03, 0x05]
  | _ => [0x02, 0x03]

end Sys2Proof.Machine
end

