-- ==== Sys2Proof/Machine/Pages.lean ====
section
/-!
DEFINITION. Machine/Pages.lean: the ends of PMAP and TLBINV (R184, R185), CTXROOT (R251), and the promotion engine (R259 to
R261).
-/

namespace Sys2Proof.Machine

open Sys2Proof

/-! ## PMAP_COMPLETE -/

/-- The result word of PMAP (R184). -/
def pmapWord (status frame : Nat) : DWord := put status 62 2 ||| put (frame / 65536) 16 36

/-- The waiting instruction of a crew has its result. -/
def State.answer (s : State) (c : Nat) (v : DWord) : State := s.modCrew c fun x => { x with waitEvt := some v }

/-- PMAP_COMPLETE (R184): the attribute bits, a present mapping, the pool, in this order. Where the walk meets a
malformed table the spec states no result: a free value (log 11). -/
def execPmapComplete (c : Nat) (s : State) : Host.Outcome State Fault Refusal :=
  match s.crew? c with
  | none => s.passOver
  | some x => match x.park, x.waitEvt with
    | some (.pmap va attr), none =>
      if 8 ≤ attr then .next (s.answer c (pmapWord 3 0))
      else match s.mapPage (s.ctxOf x) (dieOf (s.coreOf x)) va attr with
        | .mapped t f => .next (t.answer c (pmapWord 0 f))
        | .present f => .next (s.answer c (pmapWord 1 f))
        | .empty => .next (s.answer c (pmapWord 2 0))
        | .malformed => .next ({ s with tick := s.tick + 1 }.answer c (BitVec.ofNat 64 (Config.freePick s.tick)))
        | .poison pa => .next (s.gangKill x.gang
            { cause := cPoison, kind := (s.lineUnit pa).1, inst := (s.lineUnit pa).2, addr := pa, crew := s.crewId x,
              pc := x.arch.pc.toNat, again := true })
    | _, _ => s.passOver

/-! ## TLBINV_COMPLETE -/

/-- A lane of an access has used a translation of an address that satisfies `p` and is not performed yet. -/
def Access.usesXlat (a : Access) (p : Nat → Bool) : Bool :=
  !a.spad && a.place.isSome && (lanesOf (a.lanes &&& ~~~ a.done)).any fun l =>
    !inWindow (at0 a.addr l.val) && p (at0 a.addr l.val)

/-- Some access of the context that used such a translation is not performed: one of a crew's, or, DEDUCED, a DEQ that waits at its
sync engine (R208; log 103). -/
def State.xlatInUse (s : State) (ctx : Nat) (p : Nat → Bool) : Bool :=
  (s.crews.any fun q => s.ctxOf q.2 == ctx && q.2.acc.any fun a => a.usesXlat p)
    || s.waits.any fun w => p w.va && (match s.crew? w.crew with
      | some x => s.ctxOf x == ctx
      | none => false)

/-- The entries of every TLB that map an address of a context. -/
def State.tlbOf (s : State) (ctx va : Nat) : List TlbEntry :=
  ((s.cores.map fun p => p.2.tlb).flatten ++ (s.lltlb.map Prod.snd).flatten).filter fun e =>
    e.ctx == ctx && decide (e.va ≤ va) && decide (va < e.va + e.size)

/-- The addresses whose translations a TLBINV removes: a page, or everything. -/
def State.purged (s : State) (ctx : Nat) (page : Option Nat) (a : Nat) : Bool :=
  match page with
  | none => true
  | some va => a / 65536 == va / 65536
      || (s.tlbOf ctx va).any fun e => decide (e.va ≤ a) && decide (a < e.va + e.size)

/-- A TLB entry that a TLBINV removes (R185). -/
def purges (ctx : Nat) (page : Option Nat) (e : TlbEntry) : Bool :=
  e.ctx == ctx && (match page with
    | none => true
    | some va => decide (e.va ≤ va) && decide (va < e.va + e.size))

/-- TLBINV_COMPLETE (R185): no access that used a removed translation is unperformed. -/
def execTlbinvComplete (c : Nat) (s : State) : Host.Outcome State Fault Refusal :=
  match s.crew? c with
  | none => s.passOver
  | some x => match x.park, x.waitEvt with
    | some (.tlbinv page), none =>
      let ctx := s.ctxOf x
      if s.xlatInUse ctx (s.purged ctx page) then s.passOver
      else .next ((s.purgeTlb (purges ctx page)).answer c 0)
    | _, _ => s.passOver

/-! ## CTXROOT -/

/-- CTXROOT (R251): a change takes effect once every access that used a translation of the context is performed; until then
the write is pending. -/
def execCtxroot (ctx : Nat) (v : DWord) (s : State) : Host.Outcome State Fault Refusal :=
  let root := fld v 51 16 * 65536
  let x := s.ctx ctx
  if 65536 ≤ ctx then s.passOver
  else if root = x.root ∧ v[0] = x.promote then .next (s.modCtx ctx fun y => { y with rootDue := none })
  else if s.xlatInUse ctx fun _ => true then .next (s.modCtx ctx fun y => { y with rootDue := some v })
  else .next ((s.modCtx ctx fun y => { y with root := root, promote := v[0], rootDue := none }).purgeTlb (purges ctx none))

/-- Writes of CTXROOT that have not taken effect: a later access to BAR0 waits for them (R251, R388). -/
def State.barHeld (s : State) : Bool := s.ctxs.any fun p => p.2.rootDue.isSome

/-! ## PROMOTE_RANGE (R259 to R261) -/

/-- The leaf entries of a range, or `none` where one cannot be read. -/
def State.leaves (s : State) (ctx leaf va n : Nat) : Option (List DWord) :=
  (List.range n).mapM fun i => s.readPte ctx (leaf + 8 * (leafIx va + i))

/-- An entry may be a source of a promotion to pages of 2 MiB, or of 32 MiB where `big`. -/
def sourceOk (first e : DWord) (big : Bool) : Bool :=
  fld e 0 0 == 1 && fld e 8 8 == 0 && fld e 7 7 == 0 && fld e 6 6 == 0 && fld e 63 52 == 0
    && (fld e 5 4 == 0 || (big && fld e 5 4 == 1)) && pteAddr e % pageBytes (fld e 5 4) == 0
    && hbmOk (pteAddr e) (pageBytes (fld e 5 4))
    && pteAddr e / 0x2000000000 == pteAddr first / 0x2000000000
    && fld e 3 1 == fld first 3 1 && fld e 15 9 == fld first 15 9

/-- Physical address of piece i of 64 KiB of the range, from its entry. -/
def piecePa (i : Nat) (e : DWord) : Nat :=
  pteAddr e + (if fld e 5 4 = 1 then i % 32 * 65536 else 0)

/-- Copy one piece to the target, through the pages' key slot. Bad lines go with it, those of a sync engine too (R178, R261,
R312). -/
def State.copyPiece (s : State) (key fromPa toPa : Nat) : State :=
  let t := s.writeKey key toPa (s.readKey key fromPa 65536)
  let moved (ls : List Nat) : List Nat := ls.filterMap fun l =>
    if fromPa ≤ 128 * l ∧ 128 * l < fromPa + 65536 then some ((128 * l - fromPa + toPa) / 128) else none
  { t with poison := t.poison ++ moved t.poison, syncBad := t.syncBad ++ moved t.syncBad }

/-- Copy every piece of a range, piece i of the list to `target + 65536 * i`. -/
def copyPieces (key target : Nat) : Nat → List Nat → State → State
  | _, [], s => s
  | i, p :: ps, s => copyPieces key target (i + 1) ps (s.copyPiece key p (target + 65536 * i))

/-- Write the entries of the promoted page. -/
def writeLeaves (ctx leaf va v : Nat) : Nat → State → State
  | 0, s => s
  | n + 1, s => writeLeaves ctx leaf va v n (s.writePte ctx (leaf + 8 * (leafIx va + n)) v)

/-- PROMOTE_RANGE (R259 to R261), one step: the pages of an aligned range become one page at `target`, whose frames are
in the pool of the stack's die and which the context may use, as the sources are (R362, R363); the source frames go back to
it. Where an agent `interfered`, the range is abandoned and nothing changes but the TLBs. -/
def execPromoteRange (ctx va : Nat) (big : Bool) (target : Nat) (interfered : Bool) (s : State) :
    Host.Outcome State Fault Refusal :=
  let size := if big then 0x2000000 else 0x200000
  let n := size / 65536
  if !(s.ctx ctx).promote || va % size ≠ 0 || target % size ≠ 0 || !(hbmOk target size) then s.passOver
  else match s.walkTo ctx va with
    | .error _ => s.passOver
    | .ok first =>
      let leaf := first - 8 * leafIx va
      match s.leaves ctx leaf va n with
      | none => s.passOver
      | some [] => s.passOver
      | some (e0 :: es) =>
        let all := e0 :: es
        let die := hbmDie target
        let fs := (List.range n).map fun i => target + 65536 * i
        let inRange (a : Nat) : Bool := decide (va ≤ a) && decide (a < va + size)
        if !(all.all (fun e => sourceOk e0 e big) && pteAddr e0 / 0x2000000000 == target / 0x2000000000
            && ((List.range n).zip all).all (fun p => s.frameOk ctx (piecePa p.1 p.2))
            && fs.all fun f => (s.poolOf die).contains f && s.frameOk ctx f) || s.xlatInUse ctx inRange then s.passOver
        else
          let s1 := s.purgeTlb fun e => e.ctx == ctx && decide (e.va < va + size) && decide (va < e.va + e.size)
          if interfered then .next s1
          else
            let key := fld e0 15 9
            let from_ := (List.range n).zip all |>.map fun p => piecePa p.1 p.2
            let s2 := (s1.setPool die ((s1.poolOf die).filter fun f => !fs.contains f)).dropRange target size
            let s3 := copyPieces key target 0 from_ s2
            let v := target + 512 * key + (if big then 32 else 16) + 2 * fld e0 3 1 + 1
            let s4 := writeLeaves ctx leaf va v n s3
            .next (s4.setPool die (s4.poolOf die ++ from_.filter fun f => !(f % 0x2000000000 == 0x12A05F0000)))

end Sys2Proof.Machine
end

