-- ==== Sys2Proof/Machine/Swap.lean ====
section
/-!
DEFINITION. Machine/Swap.lean: crews and gangs leaving a core and coming back to it: the spill area, images, and the
resources that a placement or a restore takes (R17, R99 to R101, R210, R277, R286 to R290, R362, R403).
-/

namespace Sys2Proof.Machine

open Sys2Proof

/-! ## A crew leaves its core (R99, R287) -/

/-- The tiles of a crew as images; `keep` says which contents are saved, by physical tile (R101). -/
def State.tileImages (s : State) (core c : Nat) (keep : Nat → Bool) : Tab (Image × Option Nat) :=
  ((s.core core).tiles.filter fun p => p.2.crew == c).map fun p =>
    (p.1, (if keep p.1 then s.takeImage (tilePa core p.1) 0x8000 else Image.zero, p.2.rel))

/-- The context has run: its slot counts as not zeroised since (R214). -/
def State.noteRun (s : State) (ctx : Nat) : State := s.modCtx ctx fun k => { k with zeroised := false }

/-- A resident crew leaves its slot with its entries and tiles. -/
def State.liftCrew (s : State) (c : Nat) (keep : Nat → Bool) (home : Home) : State :=
  match s.crew? c with
  | none => s
  | some x => match x.home with
    | .slot core sl =>
      let k := s.core core
      let y := { x with home := home, image := k.vs.filter (fun p => p.2.crew == c), tileImg := s.tileImages core c keep }
      ((s.setCrew c y).setCore core
        { k with vs := k.vs.filter (fun p => p.2.crew != c), tiles := k.tiles.filter (fun p => p.2.crew != c),
                 slots := Tab.del k.slots sl }).noteRun (s.ctxOf x)
    | _ => s

/-! ## A crew comes back (R100, R288) -/

/-- An entry that comes back from number `o`: an open one keeps that number until the arrival log is replayed (R290). -/
def Entry.comesFrom (e : Entry) (o : Nat) : Entry := if e.st = .opened then { e with tag := o + 1 } else e

/-- New entry numbers, the lowest free in the order of the old ones; the table and the map from old to new. -/
def placeEntries : Tab Entry → Tab Entry → Option (Tab Entry × Tab Nat)
  | [], vs => some (vs, [])
  | (o, e) :: t, vs =>
    match freeEntry vs with
    | none => none
    | some n => match placeEntries t (Tab.put vs n (e.comesFrom o)) with
      | none => none
      | some (vs', m) => some (vs', (o, n) :: m)

/-- New tiles, the lowest free (log 86). -/
def placeTiles (c : Nat) : Tab (Image × Option Nat) → Tab Tile → Option (Tab Tile × List (Nat × Nat × Image))
  | [], ts => some (ts, [])
  | (o, i, r) :: t, ts =>
    match Tab.firstFree ts 8 0 with
    | none => none
    | some n => match placeTiles c t (Tab.put ts n { crew := c, rel := r }) with
      | none => none
      | some (ts', m) => some (ts', (o, n, i) :: m)

/-- The new number of a tile. -/
def newTile (tm : List (Nat × Nat × Image)) (t : Nat) : Nat :=
  match tm.find? fun q => q.1 == t with
  | some q => q.2.1
  | none => t

/-- Names and handles under new numbers. A name of a checkpoint whose open entry has been freed (R17) has no new number and
is not bound (log 16). -/
def Arch.renumber (a : Arch) (em : Tab Nat) (tm : List (Nat × Nat × Image)) : Arch :=
  { a with names := a.names.filterMap fun p => (Tab.at? em p.2.entry).map fun n => (p.1, { p.2 with entry := n }),
           tiles := Tab.mapV a.tiles fun _ t => newTile tm t }

/-- Put a crew into slot `sl` of a core with new entries and tiles; `none` where they do not fit. -/
def State.landCrew (s : State) (c core sl : Nat) : Option State :=
  match s.crew? c with
  | none => none
  | some x =>
    let k := s.core core
    match placeEntries x.image k.vs, placeTiles c x.tileImg k.tiles with
    | some (vs, em), some (ts, tm) =>
      let lid := match s.gang? x.gang with
        | some g => (g.ctx, s.lidOf g, g.gid)
        | none => (0, 0, 0)
      let y := { x with
        home := .slot core sl, image := [], tileImg := [], arch := x.arch.renumber em tm,
        acc := x.acc.map (fun a => { a with snap := { a.snap with arch := a.snap.arch.renumber em tm } }) }
      let s0 := { s with cmds := Tab.mapV s.cmds fun _ m =>
        if m.crew = c then { m with tile := m.tile.map (newTile tm) } else m }
      let s1 := (s0.setCrew c y).setCore core
        { k with vs := vs, tiles := ts, slots := Tab.put k.slots sl (occupied lid.1 lid.2.1 lid.2.2 x.index c) }
      some (tm.foldl (fun t q => t.putImage (tilePa core q.2.1) 0x8000 q.2.2) s1)
    | _, _ => none

/-- Data is still on its way to a crew that is not resident (R17). -/
def State.awaitsData (s : State) (c : Nat) (x : Crew) : Bool :=
  x.image.any (fun p => p.2.st == .pending || p.2.st == .leased) || (s.arrive.any fun p => p.2.crew == c)
    || s.cmds.any fun p => p.2.crew == c && p.2.tile.isSome && !p.2.isOver

/-! ## Resources of a core (R277, R361 to R363) -/

/-- The context may use a resource: OWNED by it, or FREE for a context that is not protected. -/
def State.mayUse (s : State) (ctx : Nat) (r : Res) : Bool :=
  match s.ownerOf r with
  | none => !(s.ctx ctx).prot
  | some o => o == some ctx

/-- The scratchpad ranges that gangs of a core hold, frozen ones included. -/
def State.spadUsed (s : State) (core : Nat) : List (Nat × Nat) :=
  (s.gangs.filter fun p => p.2.core == core && (match p.2.home with
    | .core => true
    | .frozen _ => true
    | _ => false)).map fun p => (p.2.spad, p.2.spLen)

/-- The lowest free run of `n` bytes, a multiple of 256, that the context may use. DESIGN CHOICE: R277 asks for a
contiguous run and does not say which (log 30). -/
def State.spadFit (s : State) (core ctx n : Nat) : Option Nat :=
  if n = 0 then some 0
  else
    let used := s.spadUsed core
    let guarded := (s.ctx ctx).prot || s.sec.owned.any fun o => match o.res with
      | .granule k _ => k == core
      | _ => false
    ((List.range 1536).map fun g => 256 * g).find? fun b =>
      decide (b + n ≤ 0x60000) && used.all (fun r => !meets b n r.1 r.2)
        && (!guarded || (List.range (n / 256)).all fun i => s.mayUse ctx (.granule core (b / 256 + i)))

/-- Free crew slots of a core. -/
def Core.freeSlotCount (k : Core) : Nat := 64 - k.slots.length

/-- The gang barrier sets, entries and tiles of a core suffice, and the context may use the core. -/
def State.coreRoom (s : State) (core ctx entries tiles : Nat) : Bool :=
  s.mayUse ctx (.core core) && decide (core < 192) && decide ((s.gangsOn core).length < 16)
    && decide ((entries : Int) ≤ s.freePool core) && decide ((tiles : Int) ≤ s.tfree core)

/-- The district groups that hold a district barrier set of a district. -/
def State.districtSets (s : State) (d : Nat) : List (Nat × Nat) :=
  ((s.gangs.filter fun p => p.2.home == .core && districtOf p.2.core == d).filterMap fun p =>
    match s.grid? p.2.grid with
    | some l => (l.groupOf p.2.gid).map fun j => (p.2.grid, j)
    | none => none).eraseDups

/-- A district group has, or can have, one of the four sets. -/
def State.districtRoom (s : State) (d grid j : Nat) : Bool :=
  let sets := s.districtSets d
  sets.contains (grid, j) || decide (sets.length < 4)

/-- Co-resident grids that hold a grid barrier set. -/
def State.gridSets (s : State) : List Nat :=
  ((s.gangs.filter fun p => p.2.home == .core).filterMap fun p => match s.grid? p.2.grid with
    | some l => if recCor l.record then some p.2.grid else none
    | none => none).eraseDups

/-- A grid has, or can have, one of the sixteen sets. -/
def State.gridRoom (s : State) (grid : Nat) : Bool :=
  match s.grid? grid with
  | none => false
  | some l => !recCor l.record || s.gridSets.contains grid || decide (s.gridSets.length < 16)

/-! ## A gang leaves its core and comes back (R210, R285, R287, R288) -/

/-- The resident crews of a gang. -/
def State.gangResidents (s : State) (gk : Nat) : List Nat :=
  (s.crewsOf gk).filter fun c => match s.crew? c with
    | some x => x.resident
    | none => false

/-- Keep a tile's contents: always, but where the crew stopped at a PPT only the tiles of LTMASK (R101). -/
def Crew.keepsTile (x : Crew) (p : Nat) : Bool :=
  !x.stopAt || x.arch.tiles.any fun t => t.2 == p && x.arch.lt.getLsbD t.1

/-- The gang is saved: its crews and its scratchpad. A spill that fails kills it (R286). -/
def State.saveGang (s : State) (gk : Nat) (home : GangHome) : State :=
  match s.gang? gk with
  | none => s
  | some g =>
    let cs := s.gangResidents gk
    let s1 := cs.foldl (fun t c => t.liftCrew c (match t.crew? c with
      | some x => x.keepsTile
      | none => fun _ => true) .saved) s
    let s2 := s1.modGang gk fun y => { y with home := home, image := s1.takeImage (spadPa g.core g.spad) g.spLen }
    match s2.spillGang gk cs with
    | .ok t => t
    | .error t => t.gangKill gk (spillWhy s g.core 0)

/-- The crews of a gang that were saved with it, in order of AGE. -/
def State.savedCrews (s : State) (gk : Nat) : List Nat :=
  sortBy (fun a b => match s.crew? a, s.crew? b with
    | some x, some y => decide (x.age.toNat ≤ y.age.toNat)
    | _, _ => true) ((s.crewsOf gk).filter fun c => match s.crew? c with
      | some x => x.home == .saved
      | none => false)

/-- Entries that a crew's restore reserves: the larger of its FLOOR and what it holds (R100). -/
def Crew.restoreNeed (x : Crew) : Nat := max x.arch.floor x.image.length

/-- The slots of the gang's core that a restore holds for it (R276). -/
def State.heldSlots (s : State) (g : Gang) : Tab Slot :=
  (s.core g.core).slots.filter fun p => p.2.heldFor g.ctx (s.lidOf g) g.gid

/-- The restore of a gang holds a free slot for each of its crews, in order of AGE, as far as there are any (R276, R288). -/
def State.holdSlots (s : State) (gk : Nat) : State :=
  match s.gang? gk with
  | none => s
  | some g => ((s.savedCrews gk).filterMap s.crew?).foldl (fun t x =>
      if (t.heldSlots g).any fun p => p.2.index == x.index then t
      else
        let r : Slot := { state := 3, ctx := g.ctx, lid := t.lidOf g, gid := g.gid, index := x.index, crew := none }
        match (t.core g.core).nextSlot with
        | none => t
        | some sl => t.modCore g.core fun k => { k with slots := Tab.put k.slots sl r }) s

/-- The core of a saved gang has what its restore takes (R288); the scratchpad base it gets. -/
def State.gangRoom (s : State) (gk : Nat) : Option Nat :=
  match s.gang? gk with
  | none => none
  | some g =>
    let cs := s.savedCrews gk
    let xs := cs.filterMap s.crew?
    let entries := (xs.map Crew.restoreNeed).sum + g.cede
    let tiles := max g.tileRes (xs.map fun x => x.tileImg.length).sum
    let group := match s.grid? g.grid with
      | some l => match l.groupOf g.gid with
        | some j => s.districtRoom (districtOf g.core) g.grid j
        | none => true
      | none => true
    if s.coreRoom g.core g.ctx entries tiles && group && s.gridRoom g.grid
        && decide (cs.length ≤ (s.heldSlots g).length + (s.core g.core).freeSlotCount)
        && cs.all (fun c => match s.crew? c with
          | some x => !s.awaitsData c x
          | none => true)
    then s.spadFit g.core g.ctx g.spLen else none

/-- The slot in which a saved crew of a gang lands: the one held for it. -/
def State.slotHeldBy (s : State) (g : Gang) (c : Nat) : Option Nat :=
  (s.crew? c).bind fun x => ((s.heldSlots g).find? fun p => p.2.index == x.index).map Prod.fst

/-- Crews land one after the other. -/
def landAll (g : Gang) : List Nat → State → Option State
  | [], s => some s
  | c :: cs, s => match s.slotHeldBy g c with
    | none => none
    | some sl => match s.landCrew c g.core sl with
      | none => none
      | some t => landAll g cs t

/-- The images of a saved gang and of its crews are as the device wrote them (R286). -/
def State.restIntact (s : State) (gk : Nat) (g : Gang) : Bool :=
  s.gangIntact g && ((s.savedCrews gk).filterMap s.crew?).all s.crewIntact

/-- They are read back. -/
def State.noteRest (s : State) (gk : Nat) (g : Gang) : State :=
  ((s.savedCrews gk).filterMap s.crew?).foldl State.noteCrewImage (s.noteGangImage g)

/-- The gang comes back to its core, into slots that are held for it; `none` while a resource is missing. An altered image
kills it (R286); one that has been killed already does not come back. -/
def State.landGang (s : State) (gk : Nat) : Option State :=
  match s.gang? gk with
  | none => some s
  | some g => match s.gangRoom gk with
    | none => none
    | some base =>
      if !(s.restIntact gk g) then some ((s.noteRest gk g).gangKill gk (spillWhy s g.core 0))
      else
        let s1 := ((s.holdSlots gk).setGang gk
          { g with home := .core, spad := base, image := Image.zero, stamp := [], back := none }).putImage
          (spadPa g.core base) g.spLen g.image
        (landAll g (s.savedCrews gk) s1).map fun t => (s.savedCrews gk).foldl (fun u c =>
          u.modCrew c fun x => { x with stamp := [] }) t

/-! ## The arrival log (R290) -/

/-- An entry of crew `c` is the open one that had number `entry` when the crew was away. -/
def Entry.was (e : Entry) (c entry : Nat) : Bool := e.crew == c && e.st == .opened && e.tag == entry + 1

/-- A window write of the log is applied to the open entry it was aimed at, in the crew that has come back with it or in the
image of one that has not. -/
def State.replayWrite (s : State) (ctx core entry n word v : Nat) : State :=
  match Tab.findKey? s.crews fun c x => s.coreOf x == core && s.ctxOf x == ctx
      && if x.resident then (s.core core).vs.any fun p => p.2.was c entry
         else (match Tab.at? x.image entry with
           | some e => e.st == .opened
           | none => false) with
  | none => s
  | some c => match s.crew? c with
    | none => s
    | some x =>
      if x.resident then s.modCore core fun k =>
        { k with vs := Tab.mapV k.vs fun _ e => if e.was c entry then fillEntry e word v n else e }
      else (s.modCrew c fun y =>
        { y with image := Tab.mapV y.image fun k e => if k = entry then fillEntry e word v n else e }).respill c

/-- An arrival at a barrier, or its completion: the phase completes where every live member has arrived (R180). -/
def State.replayBarrier (s : State) (ctx level n phase gid : Nat) : State :=
  (Tab.keysWhere s.gangs fun _ g => g.ctx == ctx && g.gid == gid).foldl (fun t g =>
    if t.phase level n g % 2 ^ 32 == phase && t.allArrived level n g then t.bumpPhase level n g else t) s

/-- Apply one record. -/
def State.replayRecord (s : State) (ctx : Nat) (r : List Byte) : State :=
  let w := ofBytesLE (r.take 8)
  if w % 16 = 3 then
    s.replayWrite ctx (w / 2 ^ 4 % 65536) (w / 2 ^ 20 % 4096) (w / 2 ^ 32 % 16) (ofBytesLE ((r.drop 8).take 8))
      (ofBytesLE ((r.drop 16).take 8))
  else if w % 16 = 1 ∨ w % 16 = 2 then
    s.replayBarrier ctx (w / 2 ^ 4 % 8) (w / 2 ^ 8 % 16) (w / 2 ^ 12 % 2 ^ 32) (ofBytesLE ((r.drop 8).take 8))
  else s

/-- Replay `n` records in append order; an error where one cannot be read. -/
def replayN (ctx : Nat) : Nat → State → Except State State
  | 0, s => .ok s
  | n + 1, s =>
    let x := s.ctx ctx
    let a := x.alog + 32 * (x.logHead % 2 ^ x.alogN)
    match s.readSys true ctx a 32 with
    | .error _ => .error (s.noteSys ctx .read a 32)
    | .ok r => replayN ctx n ((s.replayRecord ctx r).modCtx ctx fun k => { k with logHead := k.logHead + 1 })

/-- The open entries that have come back have their new numbers alone. -/
def State.dropOldNumbers (s : State) : State :=
  { s with cores := Tab.mapV s.cores fun _ k =>
      { k with vs := Tab.mapV k.vs fun _ e => if e.st = .opened then { e with tag := 0 } else e } }

/-- Replay the whole log of a context, whose gangs have come back. -/
def State.replayLog (s : State) (ctx : Nat) : Except State State :=
  (replayN ctx ((s.ctx ctx).logTail - (s.ctx ctx).logHead) s).map State.dropOldNumbers

/-! ## Swapping out under LJOIN (R210) -/

/-- The crew is parked in LJOIN and its child has not completed. -/
def Crew.joins (x : Crew) : Bool :=
  x.waitEvt.isNone && (match x.park with
    | some (.join _) => true
    | _ => false)

/-- The gang has no issued matrix instruction or engine command that is not complete. -/
def State.gangQuiet (s : State) (gk : Nat) : Bool :=
  !(s.cmds.any fun p => p.2.gang == gk && !p.2.isOver) && !(s.cores.any fun p => p.2.mats.any fun m => m.gang == gk)

/-- The context holds a gang on the core, the gang `but` apart. -/
def State.ctxOn (s : State) (core ctx but : Nat) : Bool :=
  (s.gangsOn core).any fun g => g != but && (match s.gang? g with
    | some y => y.ctx == ctx
    | none => false)

/-- The gangs of a context, in a home that satisfies `p`, whose core this is. -/
def State.gangsAt (s : State) (ctx core : Nat) (p : GangHome → Bool) : List Nat :=
  Tab.keysWhere s.gangs fun _ g => g.ctx == ctx && g.core == core && p g.home

/-- The B-stack image of a core could not be written or was altered: DESIGN CHOICE, it is the image of the context's gangs of
that core, which are killed (log 31). -/
def State.bstackFails (s : State) (ctx core : Nat) (p : GangHome → Bool) : State :=
  (s.gangsAt ctx core p).foldl (fun t g => t.gangKill g (spillWhy t core 0)) s

/-- The B-stack of a core is saved for a context whose gangs stand there. -/
def State.putBstack (s : State) (ctx core : Nat) : State :=
  match s.saveBstack ctx core with
  | .ok t => t
  | .error t => t.bstackFails ctx core (· == .core)

/-- The saved B-stack of a core is reloaded whole, and the save is over (R289). `p`: the homes of the gangs that it comes
back for. -/
def State.loadBstack (s : State) (ctx core : Nat) (p : GangHome → Bool) : State :=
  match (s.ctx ctx).bsaves.find? fun b => b.core == core with
  | none => s
  | some b =>
    let kept (t : State) : State := t.modCtx ctx fun k => { k with bsaves := k.bsaves.filter fun q => q.core != core }
    if s.bstackIntact ctx core then (kept s).putImage (bstackPa core 0) 0x400000 b.cells
    else (kept (s.noteBstack ctx core)).bstackFails ctx core p

/-- GANG_SWAP_OUT (R210): a gang whose resident crews all wait in LJOIN is saved and leaves its core, with the core's
B-stack where its context leaves the core with it (log 31). -/
def State.trySwapOut (s : State) (gk : Nat) : State :=
  match s.gang? gk with
  | none => s
  | some g =>
    let cs := (s.gangResidents gk).filterMap s.crew?
    if g.home == .core && !cs.isEmpty && cs.all Crew.joins && s.gangQuiet gk then
      let s1 := if s.ctxOn g.core g.ctx gk then s else s.putBstack g.ctx g.core
      s1.saveGang gk .swapped
    else s

end Sys2Proof.Machine
end

