-- ==== Sys2Proof/Machine/MatrixDone.lean ====
section
/-!
DEFINITION. Machine/MatrixDone.lean: the completion of the oldest matrix instruction of a core (R149, R155, R78, R313).
-/

namespace Sys2Proof.Machine

open Sys2Proof

/-- The gang-relative scratchpad bytes that an instruction of the array reads and writes. -/
def MatOp.bytes (o : MatOp) : List (Nat × Nat) :=
  match o.kind with
  | .ald off => (rowsOf o.lanes).map fun r => (off + 512 * r, 512)
  | .ast off => (rowsOf o.lanes).map fun r => (off + 512 * r, 512)
  | k => k.reads ++ k.writes

/-- Those bytes by window address, with the slices of B and the tile. -/
def MatOp.places (o : MatOp) (core spad : Nat) : List (Nat × Nat) :=
  (tilePa core o.tile, 0x8000) :: (o.bytes.map fun r => (spad + r.1, r.2)) ++ o.kind.slices core

/-- The memory accesses of an instruction are plain accesses of its crew: they come after the crew's older acquires (R172)
and its older accesses to the same bytes, those of its tile among them (R155, R169). `spad`: window address of the gang's
scratchpad. -/
def State.matrixHeld (s : State) (core spad : Nat) (o : MatOp) : Bool :=
  match s.crew? o.crew with
  | none => false
  | some x => x.acc.any fun a => decide (a.snap.seq < o.seq) && (a.acquires && !o.bytes.isEmpty
      || ((s.placesOf x a).filter fun p => !(a.done.getLsbD p.1)).any fun p =>
          (o.places core spad).any fun r => overlap p.2.pa a.size r.1 r.2)

/-- MATRIX_INSTRUCTION_COMPLETE (R148, R149, R155): the oldest instruction of the array takes effect; that of a killed
gang has none (R313). -/
def execMatrixInstructionComplete (core : Nat) (s : State) : Host.Outcome State Fault Refusal :=
  match (s.core core).mats with
  | [] => s.passOver
  | o :: rest =>
    let s0 := s.modCore core fun w => { w with mats := rest }
    match s0.gang? o.gang with
    | none => .next s0
    | some g =>
      match g.home with
      | .frozen _ => .next s0
      | _ =>
        if s.matrixHeld core (spadPa core g.spad) o then s.passOver else
        let s1 := (matTouched o).foldl (fun u k => u.canaryHit (some g.ctx) k (coreInst core) 0 none) s0
        match s1.matRun core (spadPa core g.spad) o with
        | .error (kind, pa) =>
          .next (s1.gangKill o.gang
            { cause := cPoison, kind := kind, inst := coreInst core, addr := pa - winOf core,
              crew := match s1.crew? o.crew with
                | some x => s1.crewId x
                | none => 0,
              pc := o.pc.toNat, again := true })
        | .ok (s2, d) =>
          let s3 := match o.kind with
            | .mma _ _ _ => s2.modGang o.gang fun w => w.count o.kind.tid d
            | _ => s2
          .next (s3.trySwapOut o.gang)

/-! ## Words that the array reads and writes ahead of the rest (R156) -/

/-- The instruction that the array performs now, with its gang's scratchpad, where nothing holds it up. -/
def State.arrayHead (s : State) (core : Nat) : Option (MatOp × Nat) :=
  match (s.core core).mats with
  | [] => none
  | o :: _ => match s.gang? o.gang with
    | none => none
    | some g => match g.home with
      | .frozen _ => none
      | _ =>
        let spad := spadPa core g.spad
        if s.matrixHeld core spad o then none else some (o, spad)

/-- The instruction that the array performs is changed. -/
def State.modHead (s : State) (core : Nat) (f : MatOp → MatOp) : State :=
  s.modCore core fun w => match w.mats with
    | [] => w
    | o :: rest => { w with mats := f o :: rest }

/-- A word meets one of the ranges. -/
def wordIn (w : Nat) (rs : List (Nat × Nat)) : Bool := rs.any fun r => overlap (4 * w) 4 r.1 r.2

/-- The memory words that an instruction of the array reads. -/
def MatOp.sources (o : MatOp) (core spad : Nat) : List (Nat × Nat) :=
  match o.kind with
  | .mma _ _ _ => (o.kind.reads.map fun r => (spad + r.1, r.2)) ++ o.kind.slices core
  | .ald _ => o.bytes.map fun r => (spad + r.1, r.2)
  | _ => []

/-- The array reads memory word `w` now, and the rest of its operands later: towards other agents each word is read on its own
(R156, R401). -/
def State.matReads (s : State) (core w : Nat) : Host.Outcome State Fault Refusal :=
  match s.arrayHead core with
  | none => s.passOver
  | some (o, spad) =>
    if wordIn w (o.sources core spad) && (Tab.at? o.early w).isNone then
      .next (s.modHead core fun m => { m with early := Tab.put m.early w (s.word (4 * w), s.marked (4 * w) 4) })
    else s.passOver

/-- The array writes scratchpad word `w` of an AST or SELK now, and the rest later (R156). -/
def State.matWrites (s : State) (core w : Nat) : Host.Outcome State Fault Refusal :=
  match s.arrayHead core with
  | none => s.passOver
  | some (o, spad) =>
    let writes := match o.kind with
      | .ast _ => o.bytes
      | k => k.writes
    if wordIn w (writes.map fun r => (spad + r.1, r.2)) && !(o.did.contains w) then
      match s.matRun core spad o with
      | .error _ => s.passOver
      | .ok (t, _) => .next ((s.writeChip (4 * w) (t.mem.read (4 * w) 4)).modHead core fun m => { m with did := w :: m.did })
    else s.passOver

end Sys2Proof.Machine
end

