-- ==== Sys2Proof/Machine/Lifecycle.lean ====
section
/-!
DEFINITION. Machine/Lifecycle.lean: happenings in the life of crews and gangs: traps of other agents, retirement, the age
rule's evictions and restores, kills, and the return of a gang that left under LJOIN (R23, R86, R98 to R100, R195, R210,
R313).
-/

namespace Sys2Proof.Machine

open Sys2Proof

/-! ## TAKE_TRAP and GANG_KILL -/

/-- TAKE_TRAP (R23): crew `c` takes a trap of a cause that some crew can take (R25). -/
def execTakeTrap (c : Nat) (cause : BitVec 8) (addr : DWord) (lanes : Mask) (s : State) : Host.Outcome State Fault Refusal :=
  match s.crew? c with
  | none => s.passOver
  | some x =>
    if causeRaised cause then .next (s.takeTrap c cause addr.toNat lanes x.arch.pc ⟨x.arch, x.seq⟩)
    else s.passOver

/-- GANG_KILL (R313). -/
def execGangKill (g : Nat) (cause : BitVec 8) (addr : DWord) (s : State) : Host.Outcome State Fault Refusal :=
  match s.gang? g with
  | none => s.passOver
  | some x =>
    if x.alive then .next (s.gangKill g { cause := cause, kind := 0, inst := coreInst x.core, addr := addr.toNat, crew := 0,
                                          pc := 0, again := true })
    else s.passOver

/-! ## CREW_RETIRE (R86) -/

/-- The entries of a core when crew `c` retires: pending and leased ones linger, the others are free. -/
def retireEntries (c : Nat) (vs : Tab Entry) : Tab Entry :=
  vs.filterMap fun p =>
    if p.2.crew ≠ c then some p
    else match p.2.st with
      | .pending => some (p.1, { p.2 with gone := true })
      | .leased => some p
      | _ => none

/-- CREW_RETIRE (R86, R155): a crew with an empty mask and an empty stack, whose checkpoint has passed and whose matrix
instructions are complete. -/
def execCrewRetire (c : Nat) (s : State) : Host.Outcome State Fault Refusal :=
  match s.crew? c with
  | none => s.passOver
  | some x => match x.home with
    | .slot core sl =>
      if !x.empty || !x.acc.isEmpty || s.hasMatrix core c || !x.frame.isEmpty then s.passOver
      else
        let s1 := (s.settle c).modCore core fun k =>
          { k with vs := retireEntries c k.vs, tiles := k.tiles.filter (fun p => p.2.crew != c), slots := Tab.del k.slots sl }
        let s2 := { s1 with crews := Tab.del s1.crews c, waits := s1.waits.filter fun w => w.crew != c }.thaw [c]
        .next (((s2.tryBarriers x.gang).noteRun (s.ctxOf x)).trySwapOut x.gang)
    | _ => s.passOver

/-! ## GANG_RETIRE (R195) -/

/-- The bins of a gang that hold sleepers. -/
def Gang.sleepers (g : Gang) : Mask :=
  maskOf fun i => match Tab.at? g.bins i.val with
    | some b => b.occ != 0 || decide (b.ovcnt ≠ 0)
    | none => false

/-- A bin that can still be resumed: ready, with AUTO = 1. -/
def Gang.resumable (g : Gang) : Bool := g.bins.any fun p => p.2.auto && p.2.ready && (p.2.occ != 0 || decide (p.2.ovcnt ≠ 0))

/-- The totals of a grid take a gang's counters (R78). DESIGN CHOICE: the totals too stop at their maximum (log 96). -/
def addTotals (t u : Tab Stat) : Tab Stat :=
  u.foldl (fun t p =>
    let o := Tab.getD t p.1 ⟨0, 0, 0⟩
    let cap (v : Nat) : Nat := min v (2 ^ 64 - 1)
    Tab.put t p.1 ⟨cap (o.sat + p.2.sat), cap (o.flush + p.2.flush), cap (o.nan + p.2.nan)⟩) t

/-- What a grid notes of a gang that retires: its counters, failures that no trap reported, and sleepers. -/
def Grid.noteRetired (l : Grid) (g : Gang) : Grid :=
  let m := g.sleepers
  let first := m != 0 && l.kills == 0 && !l.orphan
  { l with totals := addTotals l.totals g.stats, unrep := l.unrep + g.unreported,
           cause := if first then cBinOrphan else l.cause,
           orph := if m ≠ 0 ∧ l.orphan = false then m else l.orph,
           orphan := l.orphan || m != 0 }

/-- GANG_RETIRE (R195, R78, R205): no live crew, no bin that can be resumed, no outstanding engine command. -/
def execGangRetire (g : Nat) (s : State) : Host.Outcome State Fault Refusal :=
  match s.gang? g with
  | none => s.passOver
  | some x =>
    if x.home != .core || !(s.crewsOf g).isEmpty || x.resumable || s.cmds.any (fun p => p.2.gang == g && !p.2.isOver) then
      s.passOver
    else
      let s1 := s.modGrid x.grid fun l => l.noteRetired x
      .next ({ s1 with gangs := Tab.del s1.gangs g }.drained x.ctx)

/-! ## CREW_EVICT (R98, R99) -/

/-- DELTA - X of a CLAIM of `k` (R95), or 0. -/
def State.claimNeed (s : State) (x : Crew) (held k : Nat) : Nat :=
  let cede := match s.gang? x.gang with
    | some g => g.cede
    | none => 0
  max (x.arch.floor + k) held - max x.arch.floor held - min k cede

/-- The crew that waits could proceed now. -/
def State.canProceed (s : State) (c : Nat) (x : Crew) (w : Want) : Bool :=
  let held := heldOf (s.core (s.coreOf x)).vs c
  match w with
  | .entries n => decide ((n : Int) ≤ ((x.arch.floor - held : Nat) : Int) + max 0 (s.avail x))
  | .claim k => decide ((s.claimNeed x held k : Int) ≤ s.avail x)
  | .tile => decide (0 < s.tavail x)

/-- Tiles bound to or released by a crew (R144). -/
def State.tilesOf (s : State) (core c : Nat) : Nat := ((s.core core).tiles.filter fun p => p.2.crew == c).length

/-- held(c) and FLOOR(c) in the resource that `w` waits for (R98, R144). -/
def State.stake (s : State) (core c : Nat) (w : Want) : Nat × Nat :=
  match w with
  | .tile => (s.tilesOf core c, 0)
  | _ => (heldOf (s.core core).vs c, match s.crew? c with
    | some x => x.arch.floor
    | none => 0)

/-- The crew holds an open entry. -/
def State.holdsOpen (s : State) (core c : Nat) : Bool :=
  (s.core core).vs.any fun p => p.2.crew == c && p.2.st == .opened

/-- A debug-halted crew is not evicted (R329). -/
def State.debugHalted (s : State) (c : Nat) : Bool :=
  match s.crew? c with
  | some x => x.park == some .debug
  | none => false

/-- The crew that the age rule evicts (R98). -/
def State.victim (s : State) (core : Nat) : Option Nat :=
  match s.waiters core with
  | [] => none
  | w0 :: ws => match s.crew? w0 with
    | none => none
    | some x => match x.want with
      | none => none
      | some w =>
        let all := s.residents core
        let isOver := all.filter fun c => decide ((s.stake core c w).2 < (s.stake core c w).1)
        if s.canProceed w0 x w || !(isOver.all fun c => (w0 :: ws).contains c) then none
        else
          let may (c : Nat) : Bool := !(s.holdsOpen core c) && !(s.debugHalted c)
          match (ws.reverse.find? may) with
          | some c => some c
          | none =>
            ((s.byAge all).reverse.takeWhile fun c => c != w0).find? fun c =>
              may c && (decide (0 < (s.stake core c w).1) || decide (0 < (s.stake core c w).2))

/-- CREW_EVICT (R98, R99, R155): the crew that the age rule chooses leaves its slot, once its matrix instructions are
complete; a spill that fails kills its gang (R286). -/
def execCrewEvict (core : Nat) (s : State) : Host.Outcome State Fault Refusal :=
  match s.victim core with
  | none => s.passOver
  | some c => match s.crew? c with
    | none => s.passOver
    | some x =>
      if s.hasMatrix core c then s.passOver
      else
        let s1 := s.liftCrew c (fun _ => true) (.evicted core)
        match s1.spillCrew c with
        | .error s2 => .next (s2.gangKill x.gang (spillWhy s core c))
        | .ok s2 => .next (s2.trySwapOut x.gang)

/-! ## CREW_RESTORE (R100) -/

/-- Entries and tiles that the parked instruction of an evicted crew still needs (R100). -/
def State.stillNeeds (s : State) (x : Crew) : Nat × Nat :=
  if !x.frame.isEmpty then (x.frame.length, 0)
  else match x.want with
    | some (.entries n) => (n, 0)
    | some (.claim k) => (s.claimNeed x x.image.length k, 0)
    | some .tile => (0, 1)
    | none => (0, 0)

/-- An older crew of the core waits for space. -/
def State.olderWaits (s : State) (core c : Nat) (age : DWord) : Bool :=
  (s.waiters core ++ s.evictedOn core).any fun d => d != c && (match s.crew? d with
    | some y => decide (y.age.toNat < age.toNat)
    | none => false)

/-- The gang of a crew stands on its core. -/
def State.gangHere (s : State) (x : Crew) : Bool :=
  match s.gang? x.gang with
  | some g => g.home == .core
  | none => false

/-- The evicted crew can be restored now (R100, R17); not while its gang is away (R210). -/
def State.restorable (s : State) (core c : Nat) (x : Crew) : Bool :=
  let n := s.stillNeeds x
  x.home == .evicted core && s.gangHere x && !(s.olderWaits core c x.age)
    && decide (((max x.arch.floor x.image.length + n.1 : Nat) : Int) ≤ s.avail x)
    && decide (((x.tileImg.length + n.2 : Nat) : Int) ≤ s.tavail x)
    && !(s.awaitsData c x) && decide ((s.ctx (s.ctxOf x)).pre.toNat < 2)

/-- CREW_RESTORE (R100): an evicted crew comes back in slot `slot` in its parked state; an image that another agent has
altered kills its gang (R286). -/
def execCrewRestore (c slot : Nat) (s : State) : Host.Outcome State Fault Refusal :=
  match s.crew? c with
  | none => s.passOver
  | some x =>
    let core := s.coreOf x
    if !(s.restorable core c x) || !(decide (slot < 64)) || (Tab.at? (s.core core).slots slot).isSome then s.passOver
    else if !(s.crewIntact x) then .next ((s.noteCrewImage x).gangKill x.gang (spillWhy s core c))
    else match s.landCrew c core slot with
      | none => s.passOver
      | some t => .next (t.modCrew c fun y => { y with stamp := [] })

/-! ## The restores that wait (R288) -/

/-- The saved gangs of a context. -/
def State.savedGangs (s : State) (ctx : Nat) : List Nat :=
  Tab.keysWhere s.gangs fun _ g => g.ctx == ctx && g.home == .saved

/-- The cores that the restore of a context needs: those of its saved gangs, and those whose B-stack the stop saved, also
where a failed spill has killed the gangs (R289). The B-stack that a gang left under LJOIN comes back with the gang. -/
def State.restoreCores (s : State) (ctx : Nat) : List Nat :=
  (((s.savedGangs ctx).filterMap fun g => (s.gang? g).map fun y => y.core)
    ++ ((s.ctx ctx).bsaves.map BSave.core).filter fun k => (s.gangsAt ctx k (· == .swapped)).isEmpty).eraseDups

/-- The restores that wait, with their numbers and the cores that they need: of a saved context that is asked back (R283),
and of a gang whose children have completed (R210). -/
def State.restoreQueue (s : State) : List (Nat × List Nat) :=
  (s.ctxs.filterMap fun p => if p.2.pre = 3 then p.2.restore.map fun n => (n, s.restoreCores p.1) else none)
    ++ s.gangs.filterMap fun p =>
      if p.2.home == .swapped && decide ((s.ctx p.2.ctx).pre.toNat < 2) then p.2.back.map fun n => (n, [p.2.core]) else none

/-- An older restore waits for one of the cores. -/
def State.olderRestore (s : State) (n : Nat) (cores : List Nat) : Bool :=
  s.restoreQueue.any fun r => decide (r.1 < n) && r.2.any cores.contains

/-! ## GANG_SWAP_IN (R210, R288) -/

/-- Every child that the saved crews of a gang wait for has completed. -/
def State.joinsDone (s : State) (gk : Nat) : Bool :=
  (s.savedCrews gk).all fun c => match s.crew? c with
    | some x => x.waitEvt.isSome
    | none => true

/-- The core's B-stack is to be reloaded for the context before its gangs run there (R289). -/
def State.owesBstack (s : State) (ctx core : Nat) : Bool := (s.ctx ctx).bsaves.any fun b => b.core == core

/-- GANG_SWAP_IN (R210, R288 to R290): a gang whose children have completed comes back to its core, and the arrival log is
replayed; while the core lacks a resource, it waits, with the slots that are free held for it. -/
def execGangSwapIn (g : Nat) (s : State) : Host.Outcome State Fault Refusal :=
  match s.gang? g with
  | none => s.passOver
  | some x => match x.back with
    | none => s.passOver
    | some n =>
      let owes := s.owesBstack x.ctx x.core
      if x.home != .swapped || 2 ≤ (s.ctx x.ctx).pre.toNat || s.olderRestore n [x.core] then s.passOver
      else if (owes && !(s.gangsOn x.core).isEmpty) || (s.gangRoom g).isNone then .next (s.holdSlots g)
      else match (if owes then s.loadBstack x.ctx x.core (· == .swapped) else s).landGang g with
        | none => .next (s.holdSlots g)
        | some t => match t.replayLog x.ctx with
          | .ok u => .next ((u.tryBarriers g).noteRun x.ctx)
          | .error u => .next (u.gangKill g (spillWhy u x.core 0))

end Sys2Proof.Machine
end

