-- ==== Sys2Proof/Machine/QueueOps.lean ====
section
/-!
DEFINITION. Machine/QueueOps.lean: work queues and child grids: DEQ, ENQ, LAUNCH, LJOIN (R207 to R210).
-/

namespace Sys2Proof.Machine

open Sys2Proof

/-! ## The queue header (R207) -/

/-- A well-formed header, as the sync engine finds it. -/
structure Header where
  place : Place
  ring  : Nat
  cap   : Nat
  head  : Nat
  tail  : Nat
  deriving DecidableEq, Repr

/-- What an operation on a work queue meets. -/
inductive QueueRes (α : Type) where
  | ok (s : State) (v : α)
  | trap (s : State) (cause : Cause) (addr : Nat)
  | kill (s : State) (kind inst addr : Nat)

/-- The header words, or `none` where they are malformed. -/
def headerOf (p : Place) (bs : List Byte) : Option Header :=
  let q (i : Nat) : Nat := ofBytesLE ((bs.drop (8 * i)).take 8)
  let lg := q 1
  if 1 ≤ lg ∧ lg ≤ 24 ∧ q 0 % 8 = 0 ∧ q 2 ≤ q 3 ∧ q 3 - q 2 ≤ 2 ^ lg then
    some { place := p, ring := q 0, cap := 2 ^ lg, head := q 2, tail := q 3 }
  else none

/-- The header at `va`, for crew `x`. DEDUCED: an address that is not a multiple of 128 faults ALIGN (log 26). -/
def State.queueHead (s : State) (x : Crew) (va : Nat) : QueueRes Header :=
  let ctx := s.ctxOf x
  if va % 128 ≠ 0 then .trap s cAlign va
  else if 2 ^ 52 ≤ va ∨ inWindow va then .trap s cMemFault va
  else
    let t := s.translate (some (s.coreOf x)) (dieOf (s.coreOf x)) ctx x.priv .write va 32
    match t.1 with
    | .fault c => .trap t.2 c va
    | .poison =>
      let pa := s.badPte ctx va
      .kill t.2 (s.lineUnit pa).1 (s.lineUnit pa).2 pa
    | .ok p =>
      if regionOf p.pa ≠ .hbm then .trap t.2 cMemFault va
      else if t.2.badFor p.key p.pa 32 || t.2.syncFor p.key p.pa 32 then .trap (t.2.notePoison ctx p.pa) cPoison va
      else match headerOf p (t.2.readKey p.key p.pa 32) with
        | some h => .ok (t.2.dropLine (s.coreOf x) p.pa) h
        | none => .trap t.2 cMemFault va

/-- Address of item i. -/
def Header.item (h : Header) (i : Nat) : Nat := h.ring + 8 * (i % h.cap)

/-- The outcome of an access to an item: a poisoned sync line traps, other bad data kills the gang (R178, R312);
`none` where a window write waits for a full arrival log (R290). -/
def State.itemRes {α : Type} (s : State) (r : Io α) (ctx : Nat) : QueueRes (Option α) :=
  match r with
  | .ok t v => .ok t (some v)
  | .fail t c a pa =>
    if c = cPoison then
      (if t.syncPoisoned pa 8 then .trap (t.notePoison ctx pa) cPoison a
       else .kill t (t.badUnit pa).1 (t.badUnit pa).2 pa)
    else .trap t c a
  | .kill t k i a => .kill t k i a
  | .wait => .ok s none

/-- DEQ's access: the item at HEAD, or `none` while the queue is empty (R208). -/
def State.takeItem (s : State) (x : Crew) (va : Nat) : QueueRes (Option DWord) :=
  match s.queueHead x va with
  | .trap t c a => .trap t c a
  | .kill t k i a => .kill t k i a
  | .ok t h =>
    if h.head = h.tail then .ok t none
    else match t.itemRes (t.readVa (t.crewAgent x x.arch.pc) .read (h.item h.head) 8) (t.ctxOf x) with
      | .ok u (some bs) =>
        .ok (u.writeKey h.place.key (h.place.pa + 16) (bytesLE 8 (h.head + 1))) (some (BitVec.ofNat 64 (ofBytesLE bs)))
      | .ok u none => .ok u none
      | .trap u c a => .trap u c a
      | .kill u k i a => .kill u k i a

/-- ENQ's access: `some true` where the item was added, `some false` where the queue is full, `none` where the write
waits for a full arrival log (R290). -/
def State.addItem (s : State) (x : Crew) (va : Nat) (v : DWord) : QueueRes (Option Bool) :=
  match s.queueHead x va with
  | .trap t c a => .trap t c a
  | .kill t k i a => .kill t k i a
  | .ok t h =>
    if h.tail - h.head = h.cap then .ok t (some false)
    else match t.itemRes (t.writeVa (t.crewAgent x x.ipc) (h.item h.tail) (bytesLE 8 v.toNat)) (t.ctxOf x) with
      | .ok u (some _) => .ok (u.writeKey h.place.key (h.place.pa + 24) (bytesLE 8 (h.tail + 1))) (some true)
      | .ok u none => .ok u none
      | .trap u c a => .trap u c a
      | .kill u k i a => .kill u k i a

/-- Serve the line of DEQs that wait on the header at `pa`, in the order they reached the sync engine: the first takes
the next item, resident or evicted (R208). -/
def serveLine : Nat → Nat → State → State
  | 0, _, s => s
  | n + 1, pa, s =>
    match s.waits.find? fun w => w.pa == pa with
    | none => s
    | some w => match s.crew? w.crew with
      | none => s
      | some y => match s.takeItem y w.va with
        | .ok t (some v) =>
          serveLine n pa ({ t with waits := t.waits.filter fun q => q.crew != w.crew }.modCrew w.crew fun z =>
            { z with waitEvt := some v })
        | _ => s

/-- Lift an outcome into a crew's instruction; a crew that stops leaves the line. -/
def liftQueue {α : Type} (c : Nat) (r : QueueRes α) : M α := do
  match r with
  | .ok s v =>
    setS s
    pure v
  | .trap s cause a =>
    setS { s with waits := s.waits.filter fun q => q.crew != c }
    stop (.trap cause a none)
  | .kill s k i a =>
    setS s
    stop (.kill k i a)

/-- DEQ reaches the sync engine: it joins the line of its header, unless it stands there already. -/
def joinLine (w : Waiter) (s : State) : State :=
  if s.waits.any fun v => v.crew == w.crew && v.pa == w.pa then s
  else { s with waits := (s.waits.filter fun v => v.crew != w.crew) ++ [w] }

/-- What a header has become, for a DEQ that waits on it: a cause, or nothing (R207). -/
def State.waitCause (s : State) (w : Waiter) : Option Cause :=
  if s.badFor w.key w.pa 32 || s.syncFor w.key w.pa 32 then some cPoison
  else if (headerOf ⟨w.pa, w.key⟩ (s.readKey w.key w.pa 32)).isNone then some cMemFault
  else none

/-- A DEQ that waits leaves the line and takes a cause, resident or evicted (R178, R207). -/
def State.faultWaiter (s : State) (w : Waiter) (cause : Cause) : State :=
  let s1 := { s with waits := s.waits.filter fun v => v.crew != w.crew }
  match s1.crew? w.crew with
  | none => s1
  | some x =>
    let s2 := if cause = cPoison then s1.notePoison (s1.ctxOf x) w.pa else s1
    (s2.takeTrap w.crew cause w.va (w.lanes &&& ~~~ x.dead) x.arch.pc ⟨x.arch, x.seq⟩).respill w.crew

/-- Every DEQ whose header has become malformed, or whose header's line is poisoned, faults at that moment (R207). -/
def State.faultWaiters (s : State) : State :=
  s.waits.foldl (fun t w => match t.waitCause w with
    | some cause => t.faultWaiter w cause
    | none => t) s

/-- A happening with what it does to the DEQs that wait. -/
def thenWaiters (r : Host.Outcome State Fault Refusal) : Host.Outcome State Fault Refusal :=
  match r with
  | .next s => .next s.faultWaiters
  | r => r

/-- The end of a DEQ: an acquire at `.dev` scope, and the item. -/
def endDeq (c : Nat) (x : Ops) (v : DWord) : M Unit := do
  acquireM c 3
  writeScalar c x.dst v

/-- DEQ (R208): it tests the header as it stands, joins the line, and takes an item when its turn comes. -/
def runDeq (c : Nat) (x : Ops) : M Unit := do
  let y ← crewM c
  match y.waitEvt with
  | some _ => issue c 0xE0 x true true (deliver c (endDeq c x))
  | none =>
    let vs ← vsM c
    if x.head.sw && switchWaits y vs then park .switch
    if !y.acc.isEmpty then park .checkpoint
    let va ← readScalar c x.sa
    let s ← getS
    let m ← emask c x.head
    let h ← liftQueue c (s.queueHead y va.toNat)
    modS (joinLine ⟨c, va.toNat, h.place.pa, h.place.key, m⟩)
    modS fun t => serveLine (t.waits.length + 1) h.place.pa t
    let z ← crewM c
    match z.waitEvt with
    | some _ => issue c 0xE0 x true true (deliver c (endDeq c x))
    | none =>
      -- the first of the line: a failing item access is its own
      let t ← getS
      if (t.waits.find? fun w => w.pa == h.place.pa).map Waiter.crew = some c then
        let _ ← liftQueue c (t.takeItem z va.toNat)
      modC c fun w => { w with park := some (.queue va.toNat) }

/-- DEQ (R208). -/
def execDeq (x : Ops) (s : State) : Host.Outcome State Fault Refusal :=
  crewStep x.head (fun c => runDeq c x) s

/-- ENQ (R208): an item it adds serves the line at once. -/
def bodyEnq (c : Nat) (x : Ops) : M Unit := do
  let va ← readScalar c x.sa
  let v ← readScalar c x.sb
  let y ← crewM c
  let s ← getS
  let h ← liftQueue c (s.queueHead y va.toNat)
  let s1 ← getS
  match ← liftQueue c (s1.addItem y va.toNat v) with
  | none => park .checkpoint
  | some added =>
    if added then modS fun t => serveLine (t.waits.length + 1) h.place.pa t
    writeScalar c x.dst (if added then 0 else 1)

/-- ENQ is bound to the checkpoint, and a release (R187, R208). -/
def runEnq (c : Nat) (x : Ops) : M Unit := do
  matrixFence c true
  issue c 0xE1 x true true (bodyEnq c x)

/-- ENQ (R208). -/
def execEnq (x : Ops) (s : State) : Host.Outcome State Fault Refusal :=
  crewStep x.head (fun c => runEnq c x) s

/-! ## LAUNCH (R209) -/

/-- The lowest free slot of the pending pool; all have one from reset on. -/
def State.freePoolSlot (s : State) : Option Nat :=
  (List.range 4096).find? fun i => match Tab.at? s.pool i with
    | some p => p.grid.isNone
    | none => true

def PoolSlot.reset : PoolSlot := { gen := 0, grid := none, parent := 0, done := false, status := 0, cause := 0, joined := false }

/-- STATUS of a launch that is not placed: 1 pool full, 2 record rejected. Where both hold, R209 does not say which is
given: a free value (log 11). -/
def launchStatus (full : Bool) (bad : Bool) (pick : Nat) : Nat :=
  if full && bad then 1 + pick % 2 else if full then 1 else 2

/-- A child takes slot `i` of the pending pool and waits for its placement; LAUNCH writes its handle (R209, R280). -/
def placeChild (c : Nat) (x : Ops) (parent i : Nat) (q : Nat × State) : M Unit := do
  let t ← getS
  let p := Tab.getD t.pool i PoolSlot.reset
  setS { q.2 with
    pool := Tab.put q.2.pool i { p with grid := some q.1, parent := parent, done := false, status := 0, cause := 0,
                                        joined := false },
    poolQ := q.2.poolQ ++ [q.1] }
  writeScalar c x.dst (put p.gen.toNat 12 32 ||| put i 0 12)

/-- A launch that is not placed writes its STATUS (R209). -/
def refuseChild (c : Nat) (x : Ops) (full bad : Bool) : M Unit := do
  let t ← getS
  modS fun u => { u with tick := u.tick + 1 }
  writeScalar c x.dst (put (launchStatus full bad (Config.freePick t.tick)) 62 2)

/-- LAUNCH once its record is read (R209, R273): the child takes PRIV and context from its parent. -/
def endLaunch (c : Nat) (x : Ops) (g : Gang) (l : Grid) (r : List Byte) : M Unit := do
  let t ← getS
  match t.freePoolSlot, t.checkRecord g.ctx l.priv.toNat r with
  | some i, some tab => placeChild c x g.grid i (t.newGrid g.ctx r tab l.priv (some g.grid) (some i) none 0)
  | slot, tab => refuseChild c x slot.isNone tab.isNone

/-- LAUNCH (R209, R273, R280): the record is read as an access of the crew. -/
def bodyLaunch (c : Nat) (x : Ops) : M Unit := do
  let a ← readScalar c x.sa
  if a.toNat % 64 ≠ 0 then stop (.trap cAlign a.toNat none)
  if 2 ^ 52 ≤ a.toNat then stop (.trap cMemFault a.toNat none)
  let y ← crewM c
  let g ← gangM c
  let s ← getS
  let r ← liftIo (s.readVa (s.crewAgent y y.ipc) .read a.toNat 256) (.join 0) none
  let t ← getS
  match t.grid? g.grid with
  | none => stop .gone
  | some l => endLaunch c x g l r

/-- LAUNCH is bound to the checkpoint, and a release (R187, R209). -/
def runLaunch (c : Nat) (x : Ops) : M Unit := do
  matrixFence c true
  issue c 0xE2 x true true (bodyLaunch c x)

/-- LAUNCH (R209). -/
def execLaunch (x : Ops) (s : State) : Host.Outcome State Fault Refusal :=
  crewStep x.head (fun c => runLaunch c x) s

/-! ## LJOIN (R210) -/

/-- The pool slot that a handle names: a child of the grid, not yet joined. -/
def State.childSlot (s : State) (l : Nat) (h : DWord) : Option PoolSlot :=
  match Tab.at? s.pool (fld h 11 0) with
  | some p =>
    if fld h 63 44 = 0 ∧ p.gen.toNat = fld h 43 12 ∧ p.grid.isSome ∧ p.parent = l ∧ p.joined = false then some p else none
  | none => none

/-- A pool slot is freed, and its generation advances (R280). -/
def State.freePoolAt (s : State) (i : Nat) : State :=
  let p := Tab.getD s.pool i PoolSlot.reset
  { s with pool := Tab.put s.pool i { PoolSlot.reset with gen := p.gen + 1 } }

/-- The result word of LJOIN. -/
def joinWord (status cause : Nat) : DWord := put status 62 2 ||| put cause 0 8

/-- The end of an LJOIN, an acquire at `.dev` scope. -/
def endJoin (c : Nat) (x : Ops) (v : DWord) : M Unit := do
  acquireM c 3
  writeScalar c x.dst v

/-- LJOIN once it issues (R210): the first join claims the child, and parks until it completes. -/
def joinChild (c : Nat) (x : Ops) (gk : Nat) : M Unit := do
  let h ← readScalar c x.sa
  let g ← gangM c
  let s ← getS
  match s.childSlot g.grid h with
  | none => issue c 0xE3 x true true (endJoin c x (joinWord 2 0))
  | some p =>
    if p.done then
      modS fun t => t.freePoolAt (fld h 11 0)
      issue c 0xE3 x true true (endJoin c x (joinWord p.status p.cause.toNat))
    else
      modS fun t => { t with pool := Tab.put t.pool (fld h 11 0) { p with joined := true } }
      modC c fun z => { z with park := some (.join (fld h 43 0)) }
      modS fun t => t.trySwapOut gk

/-- LJOIN (R210): the checkpoint reaches it first; what a completed child left is delivered. -/
def runLjoin (c : Nat) (x : Ops) : M Unit := do
  let y ← crewM c
  match y.waitEvt with
  | some _ => issue c 0xE3 x true true (deliver c (endJoin c x))
  | none =>
    let vs ← vsM c
    if x.head.sw && switchWaits y vs then park .switch
    if !y.acc.isEmpty then park .checkpoint
    joinChild c x y.gang

/-- LJOIN (R210). -/
def execLjoin (x : Ops) (s : State) : Host.Outcome State Fault Refusal :=
  crewStep x.head (fun c => runLjoin c x) s

end Sys2Proof.Machine
end

