-- ==== Sys2Proof/Machine/Grids.lean ====
section
/-!
DEFINITION. Machine/Grids.lean: the admission of launches, the placement of gangs, and the end of a grid
(R78, R79, R272 to R281, R314, R345).
-/

namespace Sys2Proof.Machine

open Sys2Proof

/-! ## The end of a launch (R274) -/

/-- The time account of R345: free values, with HOST 0 and DEVICE their sum. A launch that is rejected has no gang placed,
so its EXEC is 0. -/
def timeAccount (n : Nat) (reject : Bool) : List Byte :=
  let q := Config.freeTime n 0
  let f := Config.freeTime n 1
  let i := Config.freeTime n 2
  let e := if reject then 0#64 else Config.freeTime n 3
  bytesLE 8 0 ++ bytesLE 8 q.toNat ++ bytesLE 8 f.toNat ++ bytesLE 8 i.toNat ++ bytesLE 8 e.toNat
    ++ bytesLE 8 (q + f + i + e).toNat ++ bytesLE 16 0

/-- A completion record (R274): STATUS and CAUSE, and the counts of a grid whose gangs were placed. -/
def complRecord (s : State) (g : Grid) (status cause : Nat) (reject : Bool) : List Byte :=
  let g0 := match g.grant0 with
    | some w => w.toNat
    | none => 0
  let w (v : Nat) : Nat := if reject then 0 else v
  bytesLE 8 (recTag g.record + status * 2 ^ 48 + w (b2n (decide (0 < g.changes))) * 2 ^ 56)
    ++ bytesLE 8 (cause + w g.kills % 2 ^ 32 * 2 ^ 32)
    ++ bytesLE 8 (w g.orph.toNat + w g.unrep % 2 ^ 32 * 2 ^ 32)
    ++ bytesLE 8 (w g0) ++ bytesLE 8 (w s.arb.grant.word.toNat) ++ bytesLE 8 (w g.changes) ++ bytesLE 8 (w g.again)
    ++ bytesLE 8 0 ++ timeAccount s.tick reject

/-- Write bytes for the device; a write that fails is lost (R79, R274), with a record where its request met R392. -/
def State.writeOrLose (s : State) (ctx va : Nat) (bs : List Byte) : State :=
  match s.writeSys false ctx va bs with
  | .ok t => t
  | .error _ => s.noteSys ctx .write va bs.length

/-- The statistics area: 256 records of 32 bytes, each lost alone where its write fails (R79; DESIGN CHOICE, log 81). -/
def State.writeStats (s : State) (g : Grid) : State :=
  if recStats g.record = 0 then s
  else (List.range 256).foldl (fun t i =>
    let d := Tab.getD g.totals i ⟨0, 0, 0⟩
    t.writeOrLose g.ctx (recStats g.record + 32 * i)
      (bytesLE 8 d.sat ++ bytesLE 8 d.flush ++ bytesLE 8 d.nan ++ bytesLE 8 0)) s

/-- The completion record is written where COMPL names a place for it (R273, R274). -/
def State.writeCompl (s : State) (g : Grid) (status cause : Nat) (reject : Bool) : State :=
  let a := recCompl g.record
  let t := if a = 0 ∨ a % 128 ≠ 0 then s else s.writeOrLose g.ctx a (complRecord s g status cause reject)
  { t with tick := t.tick + 1 }

/-- A gang that left under LJOIN waits to come back from the moment at which the last child it waits for has completed
(R210, R288). -/
def State.noteBack (s : State) : State :=
  s.gangs.foldl (fun t p =>
    if p.2.home == .swapped && p.2.back.isNone && t.joinsDone p.1 then
      { t with nextId := t.nextId + 1 }.modGang p.1 fun g => { g with back := some t.nextId }
    else t) s

/-- A child has completed: its pool slot says so, and the crew that joins it has its result (R209, R210, R280). -/
def State.endPool (s : State) (i status cause : Nat) : State :=
  let p := Tab.getD s.pool i PoolSlot.reset
  if p.joined then
    let h := p.gen.toNat * 4096 + i
    { s with crews := Tab.mapV s.crews fun _ x =>
        if x.park = some (Park.join h) ∧ x.waitEvt.isNone then { x with waitEvt := some (joinWord status cause) }
        else x }.noteBack.freePoolAt i
  else { s with pool := Tab.put s.pool i { p with done := true, status := status, cause := BitVec.ofNat 8 cause } }

/-- A bind record that reserves its slot for a launch (R276). -/
def Slot.reservedFor (r : Slot) (g : Grid) : Bool := r.state == 1 && r.ctx == g.ctx && r.lid == g.lid

/-- The launch leaves: its packet completes, its pool slot has its result, the slots of its children are free. -/
def State.dropGrid (s : State) (l : Nat) (g : Grid) (status cause : Nat) : State :=
  let s1 := match g.queue with
    | some q => s.modQueue q fun w => { w with open_ := w.open_.filter fun p => p.grid != some l }
    | none => s
  let s2 := match g.pool with
    | some i => s1.endPool i status cause
    | none => s1
  let kids := Tab.keysWhere s2.pool fun _ p => p.grid.isSome && p.parent == l
  let s2 := s2.clearSlots (·.reservedFor g)
  kids.foldl (fun t i => t.freePoolAt i) { s2 with grids := Tab.del s2.grids l, poolQ := s2.poolQ.filter (· != l) }

/-- STATUS and CAUSE of a grid that ran (R274). -/
def Grid.status (g : Grid) : Nat := if 0 < g.kills then 1 else if g.orphan then 2 else 0

/-- Every gang of the grid has been placed and has gone, no relaunch is due, no child is left, and the engine commands of
its gangs are complete (R279, R206). -/
def State.gridOver (s : State) (l : Nat) (g : Grid) : Bool :=
  g.next == recGangs g.record && (s.gangsOfGrid l).isEmpty && g.due.isEmpty
    && !(s.grids.any fun p => p.2.parent == some l) && !(s.cmds.any fun p => p.2.grid == l && !p.2.isOver)

/-- GRID_END (R279, R274, R78, R79). -/
def execGridEnd (l : Nat) (s : State) : Host.Outcome State Fault Refusal :=
  match s.grid? l with
  | none => s.passOver
  | some g =>
    if !(s.gridOver l g) then s.passOver
    else
      let s1 := (s.writeStats g).writeCompl g g.status g.cause.toNat false
      .next ((s1.dropGrid l g (if g.status = 0 then 0 else 1) g.cause.toNat).evaluate 2 false)

/-! ## LAUNCH_ADMIT (R272, R275) -/

/-- What the dependence words of a launch say (R272). -/
inductive Deps where
  | met
  | unmet
  | bad (cause : Cause) (va : Nat)
  deriving DecidableEq, Repr

/-- One dependence more. -/
def State.depStep (s : State) (g : Grid) (d : Deps) (j : Nat) : Deps :=
  match d with
  | .bad c a => .bad c a
  | d =>
    let p := recDep g.record j
    if p.1 = 0 then d
    else match s.readSys false g.ctx p.1 8 with
      | .error c => .bad c p.1
      | .ok bs => if ofBytesLE bs < p.2 then .unmet else d

/-- The dependence words as they stand. -/
def State.deps (s : State) (g : Grid) : Deps := [0, 1, 2, 3].foldl (s.depStep g) .met

/-- Launch `k` goes before launch `l` of the same context: a persistent one before the others (R281), of higher PRIO, or of
equal PRIO and started earlier (R275). -/
def goesBefore (k : Nat) (h : Grid) (l : Nat) (g : Grid) : Bool :=
  h.ctx == g.ctx &&
    if recPersist h.record != recPersist g.record then recPersist h.record
    else decide (recPrio g.record < recPrio h.record) || (recPrio h.record == recPrio g.record && decide (k < l))

/-- The headframe can settle the launch now: its dependences are met or cannot be read. Pool records of a context that
is pre-empted wait (R284). -/
def State.settled (s : State) (g : Grid) : Bool :=
  g.state == .waiting && s.deps g != .unmet && (g.pool.isNone || (s.ctx g.ctx).pre == 0)

/-- The pool records before `l` that could be settled (R280). -/
def State.poolBefore (s : State) (l : Nat) (g : Grid) : Bool :=
  g.pool.isSome && (s.poolQ.takeWhile (· != l)).any fun k => match s.grid? k with
    | some h => s.settled h && !(goesBefore l g k h)
    | none => false

/-- The launch is admitted. -/
def Grid.admitted (g : Grid) : Bool := g.state == .admitted || g.state == .running

/-- A launch of the context that goes before it has gangs to place: the headframe passes over none (R275, R281). -/
def State.passesOver (s : State) (l : Nat) (g : Grid) : Bool :=
  s.grids.any fun p => p.1 != l && goesBefore p.1 p.2 l g && decide (p.2.next < recGangs p.2.record)
    && (p.2.admitted || s.settled p.2)

/-- The headframe may reserve these slots, of cores, for a launch: free ones, each once, of cores that the context may use (R275,
R276, R362, R363). -/
def State.mayReserve (s : State) (l : Nat) (g : Grid) (slots : List (Nat × Nat)) : Bool :=
  slots.isEmpty || (slots.all (fun p => decide (p.1 < 192 ∧ p.2 < 64) && (Tab.at? (s.core p.1).slots p.2).isNone)
    && slots.eraseDups.length == slots.length && !(s.passesOver l g) && (s.ctx g.ctx).pre == 0
    && slots.all fun p => s.mayUse g.ctx (.core p.1))

/-- Bind records name the launch (R275, R276). -/
def State.bindSlots (s : State) (g : Grid) (slots : List (Nat × Nat)) : State :=
  let r : Slot := { state := 1, ctx := g.ctx, lid := g.lid, gid := 0, index := 0, crew := none }
  slots.foldl (fun t p => t.modCore p.1 fun k => { k with slots := Tab.put k.slots p.2 r }) s

/-- LAUNCH_ADMIT (R272, R275, R276, R280): the headframe admits the launch, with slots that it may take, or rejects it where
a dependence word cannot be read; for a launch that is admitted and has gangs to place, it records more slots. -/
def execLaunchAdmit (p : Nat × List (Nat × Nat)) (s : State) : Host.Outcome State Fault Refusal :=
  let l := p.1
  let slots := p.2
  match s.grid? l with
  | none => s.passOver
  | some g =>
    if s.sec.boot ≠ 3 ∨ s.arb.table.isNone ∨ !(s.mayReserve l g slots) then s.passOver
    else if g.admitted then
      if g.next < recGangs g.record ∨ !g.due.isEmpty then .next (s.bindSlots g slots) else s.passOver
    else if !(s.settled g) ∨ s.poolBefore l g ∨ s.grids.any (fun p => s.settled p.2 && goesBefore p.1 p.2 l g) then s.passOver
    else match s.deps g with
      | .unmet => s.passOver
      | .met => .next (((s.setGrid l { g with state := .admitted }).bindSlots g slots).evaluate 1 false)
      | .bad c a =>
        let s1 := (s.noteSys g.ctx .read a 8).writeCompl g 3 c.toNat true
        .next (s1.dropGrid l g 1 c.toNat)

/-! ## Creating a gang (R278) -/

/-- A timeline on which nothing was issued. -/
def Timeline.zero : Timeline := { issued := 0, done := 0, ahead := [], fails := [] }

def Watch.zero : Watch := { base := 0, lim := 0, lanes := 0, wr := false, rd := false }

/-- The bins of a gang at its placement (R271, R188). -/
def Grid.bins (g : Grid) : Tab Bin := (declared g.record).map fun i => (i, binOf (binEntry g.binTab i))

/-- A gang at its creation. -/
def Gang.new (l : Nat) (g : Grid) (gid core base : Nat) : Gang :=
  { grid := l, gid := gid, ctx := g.ctx, home := .core, core := core, spad := base, spLen := 256 * recSpad g.record,
    bins := g.bins, phases := Vector.replicate 16 0, cede := 0, watch := Vector.replicate 4 Watch.zero, wphit := 0,
    vslim := recLimit g.record, tileRes := recTiles g.record, priv := g.priv, copy := Timeline.zero, gather := Timeline.zero,
    coll := Timeline.zero, stats := [], image := Image.zero, area := 0, stamp := [], back := none }

/-- The images of a gang are put in place; the failing read of one (R278). -/
def State.placeImages (s : State) (l : Nat) (g : Grid) (core base : Nat) : State × Option (Cause × Nat × Nat) :=
  let r := g.record
  let s0 := s.clearChip (spadPa core base) (256 * recSpad r)
  match s0.readRange g.ctx (recSdata r) (recSdlen r) with
  | .error e => (s0, some (e.1, e.2, recSdata r + recSdlen r - e.2))
  | .ok bs =>
    let s1 := s0.writeChip (spadPa core base) bs
    if g.bcores.contains core then (s1, none)
    else match s1.readRange g.ctx (recBstack r) (recBslen r) with
      | .error e => (s1, some (e.1, e.2, recBstack r + recBslen r - e.2))
      | .ok bs => ((s1.writeChip (bstackPa core 0) bs).modGrid l fun h => { h with bcores := h.bcores ++ [core] }, none)

/-- Crews of a gang from index `i` on (R278). -/
def createCrews (gk : Nat) (g : Gang) (r : List Byte) : Nat → Nat → State → State
  | 0, _, s => s
  | n + 1, i, s => match (s.core g.core).slotOf 1 g.ctx (s.lidOf g) with
    | none => s
    | some sl => createCrews gk g r n (i + 1) (s.createCrew gk g sl i (BitVec.ofNat 52 (recEntry r)) 0xFFFFFFFF (recFloor r i)).2

/-- What is said of the kill of a gang whose images cannot be read (R278, R402). -/
def State.imageWhy (s : State) (ctx core : Nat) (e : Cause × Nat × Nat) : KillWhy :=
  let pa := s.badSys ctx e.2.1 (min e.2.2 (0x10000 - e.2.1 % 0x10000))
  { cause := e.1, kind := if e.1 = cPoison then (s.badUnit pa).1 else 0,
    inst := if e.1 = cPoison then (s.badUnit pa).2 else coreInst core, addr := if e.1 = cPoison then pa else e.2.1,
    crew := 0, pc := 0, again := false }

/-- Create gang `gid` of grid `l` on a core, with its scratchpad at `base` (R278). -/
def State.createGang (s : State) (l : Nat) (g : Grid) (gid core base : Nat) : State :=
  let gk := s.nextId
  let x := { Gang.new l g gid core base with area := s.freeArea g.ctx }
  let s1 := ({ s with nextId := gk + 1 }.setGang gk x).modGrid l fun h => match h.groupOf gid with
    | some j => { h with dists := Tab.put h.dists j (districtOf core) }
    | none => h
  match s1.placeImages l g core base with
  | (s2, some e) =>
    (s2.noteSys g.ctx .read e.2.1 (min e.2.2 (0x10000 - e.2.1 % 0x10000))).gangKill gk (s2.imageWhy g.ctx core e)
  | (s2, none) => (createCrews gk x g.record (recCrews g.record) 0 s2).flushL1 core

/-! ## GANG_PLACE (R275 to R281) -/

/-- The core provides all that R277 asks for; the scratchpad base. -/
def State.gangFits (s : State) (l : Nat) (g : Grid) (gid core : Nat) : Option Nat :=
  let r := g.record
  let group := match g.groupOf gid with
    | some j => s.districtRoom (districtOf core) l j
    | none => true
  if s.coreRoom core g.ctx (recFloors r) (recTiles r) && group && s.gridRoom l && (s.evictedOn core).isEmpty
      && decide (recCrews r ≤ ((s.core core).slotsFor 1 g.ctx g.lid).length)
  then s.spadFit core g.ctx (256 * recSpad r) else none

/-- Place gangs on cores, all of them or none. -/
def placeAll (l : Nat) (g : Grid) : List (Nat × Nat) → State → Option State
  | [], s => some s
  | (gid, core) :: t, s => match s.gangFits l g gid core with
    | none => none
    | some base =>
      let b := match s.grid? l with
        | some h => h.bcores
        | none => []
      placeAll l g t (s.createGang l { g with bcores := b } gid core base)

/-- The gangs that are placed together next (R277, R279). -/
def Grid.nextUnit (g : Grid) : List Nat :=
  let n := recGangs g.record
  if n ≤ g.next then []
  else if recCor g.record then List.range n
  else if recGroup g.record = 0 then [g.next]
  else (List.range (recGroup g.record)).map (g.next + ·)

/-- Gangs of one group lie on distinct cores of one district, the lower gang on the lower core (R279). -/
def Grid.groupsOk (g : Grid) (ps : List (Nat × Nat)) : Bool :=
  ps.all fun p => ps.all fun q =>
    !(decide (p.1 < q.1)) || (g.groupOf p.1).isNone || g.groupOf p.1 != g.groupOf q.1
      || (districtOf p.2 == districtOf q.2 && decide (p.2 < q.2))

/-- The launch may be placed now: admitted, its context running, and no launch of the context before it (R275, R281,
R284). -/
def State.mayPlace (s : State) (l : Nat) (g : Grid) : Bool :=
  s.sec.boot == 3 && g.admitted && (s.ctx g.ctx).pre == 0 && !(s.passesOver l g)

/-- A placement has been made: the context has run. Slots stay reserved while gangs are left to place (log 52). -/
def State.placed (s : State) (l : Nat) (next : Nat) : State :=
  match s.grid? l with
  | none => s
  | some g =>
    let t := (s.setGrid l { g with state := .running, next := next }).noteRun g.ctx
    if next < recGangs g.record ∨ !g.due.isEmpty then t else t.clearSlots (·.reservedFor g)

/-- GANG_PLACE (R275 to R281, R380): the next gangs of a launch are placed on the given cores. -/
def execGangPlace (l : Nat) (cores : List Nat) (s : State) : Host.Outcome State Fault Refusal :=
  match s.grid? l with
  | none => s.passOver
  | some g =>
    let us := g.nextUnit
    let ps := us.zip cores
    if us.isEmpty || us.length != cores.length || !(g.groupsOk ps) || !(s.mayPlace l g) then s.passOver
    else match placeAll l g ps s.grantAtPlacement with
      | none => s.passOver
      | some t => .next (t.placed l (g.next + us.length))

/-! ## GANG_RELAUNCH (R279, R314) -/

/-- A core for a gang of a district group: in the group's district, with no other gang of the group, a frozen one among
them; the frozen remains of the gang itself bar no core (R314). -/
def State.relaunchCore (s : State) (l : Nat) (g : Grid) (gid core : Nat) : Bool :=
  match g.groupOf gid with
  | none => true
  | some j => (Tab.at? g.dists j == none || Tab.at? g.dists j == some (districtOf core))
      && !(s.gangs.any fun p => p.2.grid == l && g.groupOf p.2.gid == some j && p.2.gid != gid && p.2.core == core)

/-- Engine commands of the killed gang are outstanding: its kill is not complete (R313 step 3, R314). -/
def State.killRuns (s : State) (l gid : Nat) : Bool :=
  s.gangs.any fun p => p.2.grid == l && p.2.gid == gid && s.gangBusy p.1

/-- GANG_RELAUNCH (R279, R314): a killed gang of an idempotent launch is placed again, as a new gang. -/
def execGangRelaunch (l gid core : Nat) (s : State) : Host.Outcome State Fault Refusal :=
  match s.grid? l with
  | none => s.passOver
  | some g =>
    if !(g.due.contains gid) || s.sec.boot != 3 || (s.ctx g.ctx).pre != 0 || s.killRuns l gid
        || !(s.relaunchCore l g gid core) then
      s.passOver
    else
      let h := { g with due := g.due.erase gid, again := g.again + 1 }
      match placeAll l h [(gid, core)] (s.setGrid l h).grantAtPlacement with
      | none => s.passOver
      | some t => .next (t.placed l h.next)

end Sys2Proof.Machine
end

