-- ==== Sys2Proof/Machine/Hoist.lean ====
section
/-!
DEFINITION. Machine/Hoist.lean: the queues and the hoist core: packets, rounds, halts (R263 to R269).
-/

namespace Sys2Proof.Machine

open Sys2Proof

/-! ## The head packet (R264 to R267) -/

/-- What the hoist core finds at the head of a queue. -/
inductive HeadRes where
  | idle                                          -- nothing that can start
  | halt (code : Nat) (opc : Option Nat) (va : Nat)   -- the queue halts (R267); `va`: where a read failed
  | ready (opc : Nat) (bytes : List Byte)         -- the packet can start; its units
  deriving DecidableEq, Repr

/-- UNITS + 1 of a packet type; `none` for a reserved OPC (R265). -/
def packetUnits (opc : Nat) : Option Nat :=
  match opc with
  | 0 | 2 | 3 | 4 => some 1
  | 1 => some 4
  | _ => none

/-- Bits that must be zero are zero, and an EVENT names an event above 4 (R264, R265). -/
def packetOk (opc : Nat) (bs : List Byte) : Bool :=
  let rest (n : Nat) : Bool := (bs.drop n).all fun b => b == 0#8
  recField bs 0 15 11 == 0 && (match opc with
    | 0 => recField bs 0 63 16 == 0 && rest 8
    | 1 => true
    | 4 => recField bs 0 63 22 == 0 && decide (5 ≤ recField bs 0 21 16) && rest 8
    | _ => recField bs 0 63 16 == 0 && rest 24)

/-- Virtual address of unit u (R263). -/
def Queue.unitVa (w : Queue) (u : Nat) : Nat := w.base + 64 * (u % 2 ^ w.log2n)

/-- The hoist core parses the queue (R263, R266). -/
def Queue.parses (w : Queue) : Bool := w.en && !w.halt && decide (2 ≤ w.log2n ∧ w.log2n ≤ 20)

/-- `n` units from unit `u` on; the address of one that cannot be read. -/
def State.readUnits (s : State) (w : Queue) : Nat → Nat → Except Nat (List Byte)
  | 0, _ => .ok []
  | n + 1, u => match s.readSys true w.ctx (w.unitVa u) 64 with
    | .error _ => .error (w.unitVa u)
    | .ok bs => match s.readUnits w n (u + 1) with
      | .error a => .error a
      | .ok rest => .ok (bs ++ rest)

/-- A SIGNAL's or a WAIT's address can be used (R267, CODE 4). Whether a link answers shows after the start. -/
def State.signalOk (s : State) (ctx opc va : Nat) : Bool :=
  va % 8 == 0 && decide (va < 2 ^ 52) && !(inWindow va)
    && (match s.translateSys ctx (if opc = 2 then .write else .read) va 8 with
      | .ok p => !(s.badLines p.pa 8)
      | _ => false)

/-- The head packet of a queue under R266 and R267; the hoist core runs once the part has booted (R353). DEDUCED: a packet
that R267 turns away does so when R266 would let it start (log 32). -/
def State.headOf (s : State) (q : Nat) : HeadRes :=
  let w := s.queue q
  let left := (w.tail - w.head).toNat
  if s.sec.boot ≠ 3 || !w.parses then .idle
  else if 2 ^ w.log2n < left then .halt 5 none 0
  else if left = 0 then .idle
  else match s.readUnits w 1 w.head.toNat with
    | .error a => .halt 3 none a
    | .ok h =>
      let opc := recField h 0 7 0
      let units := recField h 0 10 9 + 1
      if left < units ∨ 64 ≤ w.open_.length ∨ (recField h 0 8 8 = 1 ∧ w.open_ ≠ []) then .idle
      else match packetUnits opc with
        | none => .halt 1 (some opc) 0
        | some n =>
          if n ≠ units then .halt 2 (some opc) 0
          else match s.readUnits w n w.head.toNat with
            | .error a => .halt 3 (some opc) a
            | .ok bs =>
              if !(packetOk opc bs) then .halt 2 (some opc) 0
              else if (opc = 2 ∨ opc = 3) ∧ !(s.signalOk w.ctx opc (recField bs 8 63 0)) then
                .halt 4 (some opc) (recField bs 8 63 0)
              else .ready opc bs

/-! ## Halting (R267) -/

/-- The record of a halt (R309, R402). -/
def State.haltRecord (s : State) (q : Nat) : State :=
  let w := s.queue q
  s.record { Rec.of (some w.ctx) 0x08 0 (instOf 4 0) with addr := w.head.toNat, detail := q }

/-- The queue halts before its head packet; an access that met R392 has its own record. -/
def State.haltQueue (s : State) (q code va : Nat) : State :=
  let w := s.queue q
  let s1 := if code = 3 then s.noteSys w.ctx .read va 64 else s
  (s1.setQueue q { w with halt := true, index := w.head.toNat % 2 ^ 32, code := code }).haltRecord q

/-! ## Starting packets (R265, R266, R269) -/

/-- A packet has started: QHEAD passes its units; one that does not complete at once is noted. -/
def State.started (s : State) (q units : Nat) (p : Option Packet) : State :=
  s.modQueue q fun w => { w with head := w.head + BitVec.ofNat 64 units, open_ := w.open_ ++ p.toList }

/-- The queue halts at its started packet of unit `u`, whose access failed (R267). -/
def State.haltAt (s : State) (q u : Nat) (way : Way) (va : Nat) : State :=
  let s1 := s.noteSys (s.queue q).ctx way va 8
  (s1.modQueue q fun w =>
    { w with halt := true, index := u % 2 ^ 32, code := 4,
             open_ := w.open_.map fun r => if r.unit = u then { r with halt := true } else r }).haltRecord q

/-- A started SIGNAL writes its value and completes, or halts its queue (R265, R267, R269). DEDUCED: its access is encrypted under
the KEY of the entry that translates it (log 100). -/
def State.performSignal (s : State) (q : Nat) (p : Packet) : State :=
  match s.writeSys false (s.queue q).ctx p.addr (bytesLE 8 p.val) with
  | .ok t => t.modQueue q fun w => { w with open_ := w.open_.filter fun r => r.unit != p.unit }
  | .error _ => s.haltAt q p.unit .write p.addr

/-- A SIGNAL starts (R265). -/
def State.startSignal (s : State) (q : Nat) (bs : List Byte) : State :=
  let p : Packet := { unit := (s.queue q).head.toNat, opc := 2, addr := recField bs 8 63 0, val := recField bs 16 63 0,
                      grid := none, halt := false }
  (s.started q 1 (some p)).performSignal q p

/-- A WAIT begins to poll. -/
def State.startWait (s : State) (q : Nat) (bs : List Byte) : State :=
  s.started q 1 (some { unit := (s.queue q).head.toNat, opc := 3, addr := recField bs 8 63 0, val := recField bs 16 63 0,
                        grid := none, halt := false })

/-- An EVENT raises its event (R108). -/
def State.startEvent (s : State) (q : Nat) (bs : List Byte) : State :=
  (s.raise (s.queue q).ctx (recField bs 0 21 16)).started q 1 none

/-- A LAUNCH: its record is checked; a rejected one completes at once (R273). -/
def State.startLaunch (s : State) (q : Nat) (r : List Byte) : State :=
  let w := s.queue q
  let level := (s.ctx w.ctx).priv
  match s.checkRecord w.ctx level.toNat r with
  | none =>
    let g := Grid.new w.ctx r [] level none none (some q) w.head.toNat 0
    (s.writeCompl g 3 0 true).started q 4 none
  | some tab =>
    let n := s.newGrid w.ctx r tab (BitVec.ofNat 2 (recPriv r)) none none (some q) w.head.toNat
    n.2.started q 4 (some { unit := w.head.toNat, opc := 1, addr := 0, val := 0, grid := some n.1, halt := false })

/-- Start a packet that can start. -/
def State.startPacket (s : State) (q opc : Nat) (bs : List Byte) : State :=
  match opc with
  | 0 => s.started q 1 none
  | 1 => s.startLaunch q bs
  | 2 => s.startSignal q bs
  | 3 => s.startWait q bs
  | _ => s.startEvent q bs

/-- The head packet of queue `q`, of type `opc`, starts, or halts its queue. -/
def packetStep (q opc : Nat) (s : State) : Host.Outcome State Fault Refusal :=
  match s.headOf q with
  | .idle => s.passOver
  | .halt code o va => if o = some opc then .next (s.haltQueue q code va) else s.passOver
  | .ready o bs => if o = opc then .next (s.startPacket q opc bs) else s.passOver

/-- PACKET_NOP (R265). -/
def execPacketNop (q : Nat) (s : State) : Host.Outcome State Fault Refusal := packetStep q 0 s

/-- PACKET_LAUNCH (R265, R273, R275). -/
def execPacketLaunch (q : Nat) (s : State) : Host.Outcome State Fault Refusal := packetStep q 1 s

/-- PACKET_SIGNAL (R265, R269). -/
def execPacketSignal (q : Nat) (s : State) : Host.Outcome State Fault Refusal := packetStep q 2 s

/-- PACKET_WAIT (R265, R266). -/
def execPacketWait (q : Nat) (s : State) : Host.Outcome State Fault Refusal := packetStep q 3 s

/-- PACKET_EVENT (R265, R108). -/
def execPacketEvent (q : Nat) (s : State) : Host.Outcome State Fault Refusal := packetStep q 4 s

/-! ## HOIST_ROUND (R268) -/

/-- The queues of round r. -/
def roundQueues (r : Nat) : List Nat := (List.range 32).map fun l => 32 * (r % 32) + l

/-- The packets of one type start, lane by lane. -/
def startType (opc : Nat) (hs : List (Nat × HeadRes)) (s : State) : State :=
  hs.foldl (fun t h => match h.2 with
    | .ready o bs => if o = opc then t.startPacket h.1 o bs else t
    | _ => t) s

/-- HOIST_ROUND (R268): the lanes whose head packet can start, one type at a time. -/
def execHoistRound (s : State) : Host.Outcome State Fault Refusal :=
  if s.sec.boot ≠ 3 then s.passOver
  else
    let hs := (roundQueues s.round).map fun q => (q, s.headOf q)
    let s1 := hs.foldl (fun t h => match h.2 with
      | .halt code _ va => t.haltQueue h.1 code va
      | _ => t) { s with round := s.round + 1 }
    .next ([3, 2, 4, 0, 1].foldl (fun t o => startType o hs t) s1)

/-! ## WAIT packets (R265, R267, R269) -/

/-- A started WAIT that still polls. -/
def State.waitAt (s : State) (q u : Nat) : Option Packet :=
  (s.queue q).open_.find? fun p => p.unit == u && p.opc == 3 && !p.halt

/-- WAIT_PACKET_COMPLETE (R265, R269): the word has reached the value. -/
def execWaitPacketComplete (q u : Nat) (s : State) : Host.Outcome State Fault Refusal :=
  match s.waitAt q u with
  | none => s.passOver
  | some p => match s.readSys false (s.queue q).ctx p.addr 8 with
    | .error _ => s.passOver
    | .ok bs =>
      if ofBytesLE bs < p.val then s.passOver
      else .next (s.modQueue q fun w => { w with open_ := w.open_.filter fun r => r.unit != u })

/-- WAIT_POLL_FAILURE (R267): the poll fails; the queue halts with CODE 4 and the packet's own index. -/
def execWaitPollFailure (q u : Nat) (s : State) : Host.Outcome State Fault Refusal :=
  match s.waitAt q u with
  | none => s.passOver
  | some p => match s.readSys false (s.queue q).ctx p.addr 8 with
    | .ok _ => s.passOver
    | .error _ => .next (s.haltAt q u .read p.addr)

/-! ## QTAIL and QSTAT (R263, R267, R391) -/

/-- QTAIL (R263): the doorbell. -/
def execQtail (q : Nat) (v : DWord) (s : State) : Host.Outcome State Fault Refusal :=
  if q < 1024 then .next (s.modQueue q fun w => { w with tail := v }) else s.passOver

/-- QSTAT_HALT (R267): writing 1 halts a running queue, writing 0 resumes a halted one, whose failed packets are performed
again. -/
def execQstatHalt (q : Nat) (halt : Bool) (s : State) : Host.Outcome State Fault Refusal :=
  if 1024 ≤ q then s.passOver
  else if halt then
    .next (s.modQueue q fun w => if w.halt then w else { w with halt := true, index := w.head.toNat % 2 ^ 32, code := 0 })
  else
    let signals := (s.queue q).open_.filter fun p => p.opc == 2
    .next (signals.foldl (fun t p => t.performSignal q p)
      (s.modQueue q fun w => { w with halt := false, open_ := w.open_.map fun r => { r with halt := false } }))

end Sys2Proof.Machine
end

