-- ==== Sys2Proof/Machine/Preempt.lean ====
section
/-!
DEFINITION. Machine/Preempt.lean: pre-emption and restore of contexts, and host events (R101, R108, R283 to R291, R390).
-/

namespace Sys2Proof.Machine

open Sys2Proof

/-- STATE of CTXPRE changes, and event 4 is raised (R283). -/
def State.setPre (s : State) (ctx : Nat) (v : BitVec 2) : State :=
  (s.modCtx ctx fun k => { k with pre := v }).raise ctx 4

/-- CTXPRE_REQ_SET (R283, R284): a running context begins to drain, or stops at once where DEADLINE is 0. -/
def execCtxpreReqSet (ctx : Nat) (deadline : BitVec 32) (s : State) : Host.Outcome State Fault Refusal :=
  if 65536 ≤ ctx then s.passOver
  else
    let s1 := s.modCtx ctx fun k => { k with deadline := deadline }
    if (s.ctx ctx).pre ≠ 0 then .next s1
    else
      let s2 := s1.modCtx ctx fun k => { k with req := true }
      if deadline = 0 then .next (s2.setPre ctx 2) else .next ((s2.setPre ctx 1).drained ctx)

/-- CTXPRE_REQ_CLEAR (R283): it cancels a drain, or asks for a restore. -/
def execCtxpreReqClear (ctx : Nat) (s : State) : Host.Outcome State Fault Refusal :=
  if 65536 ≤ ctx then s.passOver
  else
    let k := s.ctx ctx
    let s1 := s.modCtx ctx fun k => { k with req := false }
    if k.pre = 0 then .next s1
    else if k.pre = 1 then .next (s1.setPre ctx 0)
    else if k.restore.isSome then .next s1
    else .next ({ s1 with nextId := s1.nextId + 1 }.modCtx ctx fun k => { k with restore := some s1.nextId })

/-- SOFT_DEADLINE_EXPIRY (R284): gangs still run; the hard stop follows. -/
def execSoftDeadlineExpiry (ctx : Nat) (s : State) : Host.Outcome State Fault Refusal :=
  if (s.ctx ctx).pre = 1 then .next (s.setPre ctx 2) else s.passOver

/-! ## HARD_STOP (R285 to R287, R291) -/

/-- Crews of a context. -/
def State.crewsOfCtx (s : State) (ctx : Nat) : List Nat := Tab.keysWhere s.crews fun _ x => s.ctxOf x == ctx

/-- Every matrix instruction and engine command of the context is complete, and a crew that stopped after a PPT has its
checkpoint there (R285 step 2, R101). -/
def State.stopReady (s : State) (ctx : Nat) : Bool :=
  (s.crewsOfCtx ctx).all (fun c => match s.crew? c with
    | some x => !(s.hasMatrix (s.coreOf x) c) && (!x.stopAt || x.acc.isEmpty)
    | none => true)
  && !(s.cmds.any fun p => p.2.ctx == ctx && !p.2.isOver)

/-- A crew is rolled back to its checkpoint; one that went back issues again from there (R285 step 3). -/
def State.stopCrew (s : State) (c : Nat) : State :=
  match s.crew? c with
  | none => s
  | some x =>
    let t := s.rollback c ⟨x.arch, x.seq⟩
    if x.acc.isEmpty then t else t.modCrew c fun y => { y with park := none, waitEvt := none }

/-- The gangs of a context that stand on a core. -/
def State.gangsOfCtx (s : State) (ctx : Nat) : List Nat :=
  Tab.keysWhere s.gangs fun _ g => g.ctx == ctx && g.home == .core

/-- The cores on which a context holds a gang. -/
def State.coresOfCtx (s : State) (ctx : Nat) : List Nat :=
  ((s.gangsOfCtx ctx).filterMap fun g => (s.gang? g).map fun y => y.core).eraseDups

/-- HARD_STOP (R285 to R287): once matrix instructions and engine commands are complete, crews are rolled back, and the
context is saved. -/
def execHardStop (ctx : Nat) (s : State) : Host.Outcome State Fault Refusal :=
  if (s.ctx ctx).pre ≠ 2 || !(s.stopReady ctx) then s.passOver
  else
    let cs := s.crewsOfCtx ctx
    let s1 := (cs.filter fun c => match s.crew? c with
      | some x => x.resident
      | none => false).foldl State.stopCrew { s with waits := s.waits.filter fun w => !cs.contains w.crew }
    let s2 := (s1.coresOfCtx ctx).foldl (fun t k => t.putBstack ctx k) s1
    let s3 := (s2.gangsOfCtx ctx).foldl (fun t g => t.saveGang g .saved) s2
    let s4 := cs.foldl (fun t c => t.modCrew c fun x => { x with stopAt := false }) s3
    .next (((s4.clearSlots fun r => r.ctx == ctx).setPre ctx 3).evaluate 2 false)

/-! ## CONTEXT_RESTORE (R283, R288 to R290) -/

/-- The B-stacks of the cores are reloaded, each on a core that holds no gang (R289). -/
def reloadAll (ctx : Nat) : List Nat → State → Option State
  | [], s => some s
  | k :: ks, s =>
    if !(s.owesBstack ctx k) then reloadAll ctx ks s
    else if !(s.gangsOn k).isEmpty then none
    else reloadAll ctx ks (s.loadBstack ctx k (· == .saved))

/-- Gangs come back one after the other. -/
def landGangs : List Nat → State → Option State
  | [], s => some s
  | g :: gs, s => match s.landGang g with
    | none => none
    | some t => landGangs gs t

/-- Every barrier of a context's gangs is tried: members may have left while the context was away (R179, R290). -/
def State.tryAll (s : State) (ctx : Nat) : State := (s.gangsOfCtx ctx).foldl State.tryBarriers s

/-- The context runs again; crews that are halted owe a new STOP notice (R329). -/
def State.resumeCtx (s : State) (ctx : Nat) : State :=
  let t := s.modCtx ctx fun k => { k with restore := none }
  let u := { t with
    crews := Tab.mapV t.crews fun _ (x : Crew) => if t.ctxOf x = ctx ∧ x.halt then { x with notice := some true } else x }
  (((if (u.gangsOfCtx ctx).isEmpty then u else u.noteRun ctx).setPre ctx 0).tryAll ctx).evaluate 2 false

/-- A restore that must wait holds what slots are free for its gangs (R276, R288). -/
def State.holdAll (s : State) (ctx : Nat) : State := (s.savedGangs ctx).foldl State.holdSlots s

/-- CONTEXT_RESTORE (R283, R288 to R291): every saved gang comes back to its core, then the arrival log is replayed, or the
restore waits. An arrival log that cannot be read fails the restore: DESIGN CHOICE, its gangs are killed (log 33). -/
def execContextRestore (ctx : Nat) (s : State) : Host.Outcome State Fault Refusal :=
  match (s.ctx ctx).restore with
  | none => s.passOver
  | some n =>
    if (s.ctx ctx).pre ≠ 3 || s.olderRestore n (s.restoreCores ctx) then s.passOver
    else
      let gs := s.savedGangs ctx
      match (reloadAll ctx (s.restoreCores ctx) s).bind (landGangs gs) with
      | none => .next (s.holdAll ctx)
      | some t => match t.replayLog ctx with
        | .ok u => .next (u.resumeCtx ctx)
        | .error u => .next ((gs.foldl (fun t g => t.gangKill g (spillWhy t (match t.gang? g with
            | some y => y.core
            | none => 0) 0)) u).resumeCtx ctx)

/-! ## EVRAISE (R390, R108) -/

/-- EVRAISE (R390): each bit from 5 on raises its event once. -/
def execEvraise (ctx : Nat) (v : DWord) (s : State) : Host.Outcome State Fault Refusal :=
  if 65536 ≤ ctx then s.passOver
  else .next (((List.range 64).filter fun i => decide (5 ≤ i) && v.getLsbD i).foldl (fun t i => t.raise ctx i) s)

end Sys2Proof.Machine
end

