-- ==== Sys2Proof/Machine/Sysreg.lean ====
section
/-!
DEFINITION. Machine/Sysreg.lean: the system registers (R26, R27, R107, R324, R325, R327), CSRR, CSRW and EVWAIT (R108).
-/

namespace Sys2Proof.Machine

open Sys2Proof

/-- Level needed to read a register (R27). -/
def csrReadLevel (k : Nat) : Nat :=
  if k = 0x020 then 1
  else if k = 0x021 ∨ k = 0x022 then 2
  else if 0x038 ≤ k ∧ k ≤ 0x03D then 1
  else if 0x040 ≤ k ∧ k ≤ 0x045 then 2
  else if 0x050 ≤ k then 1
  else 0

/-- Level needed to write a register that can be written (R27). -/
def csrWriteLevel (k : Nat) : Nat :=
  if k = 0x008 then 1
  else if k = 0x009 then 0
  else if k = 0x020 ∨ k = 0x022 then 2
  else if 0x030 ≤ k ∧ k ≤ 0x034 then 0
  else if k = 0x035 then 1
  else if 0x040 ≤ k ∧ k ≤ 0x045 then 2
  else 1

/-- ECAUSE of a trap register set (R24). -/
def TrapSet.cause (t : TrapSet) : DWord := put (b2n t.act) 31 1 ||| put t.prv.toNat 8 2 ||| put t.code.toNat 0 8

/-- Register j of a trap register set: EPC, EFPC, ECAUSE, EADDR, EM7 (R27). -/
def TrapSet.read (t : TrapSet) (j : Nat) : DWord :=
  match j with
  | 0 => BitVec.ofNat 64 t.epc.toNat
  | 1 => BitVec.ofNat 64 t.efpc.toNat
  | 2 => t.cause
  | 3 => t.eaddr
  | _ => BitVec.ofNat 64 t.em7.toNat

/-- A write of register j of a trap register set (R24, R27): PRV is unchanged by a write of 3. -/
def TrapSet.write (t : TrapSet) (j : Nat) (v : DWord) : TrapSet :=
  match j with
  | 0 => { t with epc := v.extractLsb' 0 52 }
  | 1 => { t with efpc := v.extractLsb' 0 52 }
  | 2 => { t with act := v[31], prv := if fld v 9 8 = 3 then t.prv else v.extractLsb' 8 2, code := v.extractLsb' 0 8 }
  | 3 => { t with eaddr := v }
  | _ => { t with em7 := v.extractLsb' 0 32 }

/-- DBGCTL (R324). -/
def Crew.dbgctl (x : Crew) : DWord := put (b2n x.halt) 16 1 ||| put x.bken.toNat 8 8 ||| put (b2n x.stepOn) 0 1

/-- WPCTL of a watchpoint (R327). -/
def Watch.ctl (w : Watch) : DWord := put w.lanes.toNat 32 32 ||| put (b2n w.wr) 1 1 ||| put (b2n w.rd) 0 1

/-- RATIOEV as a context reads it (R374). -/
def State.ratioEv (s : State) (ctx : Nat) : DWord := put s.arb.cause.toNat 32 4 ||| put (s.eventCount ctx 0) 0 32

/-- The value of register `k` for crew `x` (R27); LANEID is the caller's. -/
def State.csr (s : State) (x : Crew) (g : Gang) (k : Nat) : DWord :=
  let ctx := s.ctx g.ctx
  let w (j : Nat) : Watch := g.watch.toList.getD j { base := 0, lim := 0, lanes := 0, wr := false, rd := false }
  if k = 0x001 then BitVec.ofNat 64 (s.crewId x)
  else if k = 0x002 then BitVec.ofNat 64 g.gid
  else if k = 0x003 then x.age
  else if k = 0x004 then BitVec.ofNat 64 x.arch.floor
  else if k = 0x005 then put g.cede 16 13 ||| put (s.freePool (s.coreOf x)).toNat 0 13
  else if k = 0x006 then BitVec.ofNat 64 x.dead.toNat
  else if k = 0x007 then BitVec.ofNat 64 x.arch.act.toNat
  else if k = 0x008 then BitVec.ofNat 64 x.arch.sig.toNat
  else if k = 0x009 then BitVec.ofNat 64 (b2n x.deadsrc)
  else if k = 0x00A then BitVec.ofNat 64 x.priv.toNat
  else if k = 0x010 then s.arb.grant.word
  else if k = 0x011 then s.ratioEv g.ctx
  else if k = 0x020 then BitVec.ofNat 64 ctx.keyslot.toNat
  else if k = 0x021 then s.sec.scrub.prog
  else if k = 0x022 then s.sec.scrub.total
  else if k = 0x035 then BitVec.ofNat 64 ctx.evecU.toNat
  else if k = 0x03D then BitVec.ofNat 64 ctx.evecS.toNat
  else if k = 0x045 then BitVec.ofNat 64 ctx.evecW.toNat
  else if k / 8 = 6 then x.setU.read (k % 8)
  else if k / 8 = 7 then x.setS.read (k % 8)
  else if k / 8 = 8 then x.setW.read (k % 8)
  else if k / 8 = 10 then BitVec.ofNat 64 (x.bkpc.toList.getD (k % 8) 0).toNat
  else if k = 0x058 then x.dbgctl
  else if k = 0x06C then g.wphit
  else if k / 4 = 24 then BitVec.ofNat 64 (w (k % 4)).base.toNat
  else if k / 4 = 25 then BitVec.ofNat 64 (w (k % 4)).lim.toNat
  else if k / 4 = 26 then (w (k % 4)).ctl
  else 0#64

/-- Write a watchpoint register of a gang (R327). -/
def Gang.writeWatch (g : Gang) (k : Nat) (v : DWord) : Gang :=
  if k = 0x06C then (if v[63] then g else { g with wphit := g.wphit &&& 0x7FFFFFFFFFFFFFFF#64 })
  else
    let j := k % 4
    let old := g.watch.toList.getD j { base := 0, lim := 0, lanes := 0, wr := false, rd := false }
    let new : Watch :=
      if k / 4 = 24 then { old with base := v.extractLsb' 0 19 }
      else if k / 4 = 25 then { old with lim := v.extractLsb' 0 19 }
      else { old with lanes := v.extractLsb' 32 32, wr := v[1], rd := v[0] }
    { g with watch := g.watch.setIfInBounds j new }

/-- The states of a crew's names whose entries are not bound. -/
def Crew.unsettled (x : Crew) (vs : Tab Entry) : Tab EState :=
  x.arch.names.filterMap fun p => match Tab.at? vs p.2.entry with
    | some e => if e.st = .bound then none else some (p.1, e.st)
    | none => none

/-- Write DBGCTL (R324, R329): HALT 1 halts the crew and owes a STOP notice; HALT 0 is the mailbox's to write. `names`: its
names that are not bound. -/
def Crew.writeDbgctl (x : Crew) (names : Tab EState) (v : DWord) : Crew :=
  let y := { x with bken := v.extractLsb' 8 8, stepOn := v[0] }
  if v[16] then { y with halt := true, notice := some false, park := some .debug, atHalt := names } else y

/-- What CSRW does to the machine for crew `c` (R27, R107). Registers without a write level are not reached. -/
def State.csrWrite (s : State) (c : Nat) (x : Crew) (g : Gang) (k : Nat) (v : DWord) : State :=
  if k = 0x008 then s.modCrew c fun y => { y with arch := { y.arch with sig := v.extractLsb' 0 32 } }
  else if k = 0x009 then (if v[0] then s else s.modCrew c fun y => { y with deadsrc := false })
  else if k = 0x020 then s.setKeyslot g.ctx (v.extractLsb' 0 7)
  else if k = 0x022 then
    (if s.sec.scrub.state = 1 then s
     else { s with sec := { s.sec with scrub := { s.sec.scrub with total := v } } })
  else if k = 0x035 then s.modCtx g.ctx fun y => { y with evecU := v.extractLsb' 0 52 }
  else if k = 0x03D then s.modCtx g.ctx fun y => { y with evecS := v.extractLsb' 0 52 }
  else if k = 0x045 then s.modCtx g.ctx fun y => { y with evecW := v.extractLsb' 0 52 }
  else if k / 8 = 6 then s.modCrew c fun y => { y with setU := y.setU.write (k % 8) v }
  else if k / 8 = 7 then s.modCrew c fun y => { y with setS := y.setS.write (k % 8) v }
  else if k / 8 = 8 then s.modCrew c fun y => { y with setW := y.setW.write (k % 8) v }
  else if k / 8 = 10 then
    s.modCrew c fun y => { y with bkpc := y.bkpc.setIfInBounds (k % 8) (vector (v.extractLsb' 0 52)) }
  else if k = 0x058 then s.modCrew c fun y => y.writeDbgctl (y.unsettled (s.core (s.coreOf y)).vs) v
  else if 0x060 ≤ k then s.modGang x.gang fun y => y.writeWatch k v
  else s

/-- CSRR (R26, R107): the value is taken before the CSRR's own fold. -/
def bodyCsrr (c k : Nat) (x : Ops) : M Unit := do
  needPriv c (csrReadLevel k)
  let y ← crewM c
  let g ← gangM c
  let s ← getS
  let v := s.csr y g k
  modC c fun z => z.foldInstr 0x1A x.head
  let m ← emask c x.head
  if k = 0 then
    if x.head.uni then
      writeScalar c x.dst (BitVec.ofNat 64 (match lanesOf m with
        | [] => 32
        | l :: _ => l.val))
    else storeVec c x false none (Vector.ofFn fun i => BitVec.ofNat 64 i.val) m
  else if x.head.uni then writeScalar c x.dst v
  else storeVec c x false none (Vector.replicate 32 v) m

/-- CSRR (R107). -/
def execCsrr (k : BitVec 12) (x : Ops) (s : State) : Host.Outcome State Fault Refusal :=
  crewStep x.head (fun c => issue c 0x1A x false false (bodyCsrr c k.toNat x)) s

/-- CSRW (R26, R107): a register above the crew's level traps PROT before the source is read. -/
def bodyCsrw (c k : Nat) (x : Ops) : M Unit := do
  needPriv c (csrWriteLevel k)
  let v ← readScalar c x.sa
  let y ← crewM c
  let g ← gangM c
  modS fun s => s.csrWrite c y g k v

/-- CSRW (R107). -/
def execCsrw (k : BitVec 12) (x : Ops) (s : State) : Host.Outcome State Fault Refusal :=
  issueStep 0x1B x true (fun c => bodyCsrw c k.toNat x) s

/-- The wait that this EVWAIT keeps or begins (R108): the count sampled when it first issued. -/
def evStart (y : Crew) (k now : Nat) : EvSnap :=
  match y.evsnap with
  | some e => if e.pc = y.arch.pc ∧ e.index = k then e else ⟨y.arch.pc, k, now⟩
  | none => ⟨y.arch.pc, k, now⟩

/-- The end of an EVWAIT: the count goes to the scalar. -/
def bodyEvwait (c k : Nat) (x : Ops) : M Unit := do
  let y ← crewM c
  let s ← getS
  modC c fun z => { z with evsnap := none }
  writeScalar c x.dst (BitVec.ofNat 64 (s.eventCount (s.ctxOf y) k))

/-- EVWAIT (R108): it samples the count, waits until the count exceeds it, and then issues to its end. -/
def runEvwait (c k : Nat) (x : Ops) : M Unit := do
  let y ← crewM c
  let vs ← vsM c
  if x.head.sw && switchWaits y vs then park .switch
  let s ← getS
  let now := s.eventCount (s.ctxOf y) k
  let e := evStart y k now
  if e.count < now then issue c 0xE4 x false true (bodyEvwait c k x)
  else modC c fun z => { z with evsnap := some e, park := some (.event k) }

/-- EVWAIT (R108). -/
def execEvwait (k : BitVec 12) (x : Ops) (s : State) : Host.Outcome State Fault Refusal :=
  crewStep x.head (fun c => runEvwait c k.toNat x) s

end Sys2Proof.Machine
end

