-- ==== Sys2Proof/Machine/Debug.lean ====
section
/-!
DEFINITION. Machine/Debug.lean: the mailbox service, STOP notices and the stall sampler (R329 to R342, R347, R348).
-/

namespace Sys2Proof.Machine

open Sys2Proof

/-! ## The mailbox (R330 to R334) -/

/-- Reply status codes (R334). -/
def stOk : Nat := 0
def stBadOp : Nat := 1
def stNoCrew : Nat := 2
def stPending : Nat := 3
def stLease : Nat := 4
def stUnbound : Nat := 5
def stNoSpace : Nat := 6
def stBadArg : Nat := 7
def stMemErr : Nat := 8

/-- A message header (R331). -/
def mbHeader (seq len status op crew : Nat) : List Byte :=
  bytesLE 8 (op + status * 2 ^ 8 + len * 2 ^ 16 + seq * 2 ^ 32) ++ bytesLE 8 crew

/-- Write a message into an area of the mailbox: its body, then its header; `none` where an access fails (R332). -/
def State.mbWrite (s : State) (ctx off : Nat) (header body : List Byte) : Option State :=
  let a := (s.ctx ctx).mbox + off
  match s.writeSys false ctx (a + 16) body with
  | .error _ => none
  | .ok t => match t.writeSys false ctx a header with
    | .error _ => none
    | .ok u => some (u.passSys ctx .write a (16 + body.length))

/-- The request is served: its reply is written with the effect `t` in place, or the request is left unserved and nothing
happens (R332). -/
def State.mbReply (s : State) (ctx : Nat) (q : MbReq) (t : State) (status : Nat) (body : List Byte) : State :=
  match t.mbWrite ctx 0x200 (mbHeader q.seq body.length status q.op q.crew) body with
  | some u => u.modCtx ctx fun k => { k with mbReq := none, mbSeq := BitVec.ofNat 32 q.seq }
  | none => s.modCtx ctx fun k => { k with mbReq := none }

/-- DBGBELL (R332): the service reads REQ; a request whose SEQ is one above the last served is taken up. -/
def execDbgbell (ctx : Nat) (s : State) : Host.Outcome State Fault Refusal :=
  if 65536 ≤ ctx then s.passOver
  else
    let k := s.ctx ctx
    if k.mbox = 0 || k.prot then .next s
    else match s.readSys false ctx k.mbox 16 with
      | .error _ => .next s
      | .ok h =>
        let s := s.passSys ctx .read k.mbox 512
        let seq := recField h 0 63 32
        if seq ≠ (k.mbSeq + 1).toNat then .next s
        else match s.readSys false ctx (k.mbox + 16) (min (recField h 0 31 16) 496) with
          | .error _ => .next s
          | .ok b =>
            let q : MbReq :=
              { op := recField h 0 7 0, seq := seq, crew := recField h 8 13 0,
                zeros := recField h 0 15 8 == 0 && recField h 8 63 14 == 0, body := b }
            if q.op < 1 ∨ 10 < q.op then .next (s.mbReply ctx q s stBadOp [])
            else .next (s.modCtx ctx fun y => { y with mbReq := some q })

/-- DBGMBOX (R330, R347): a nonzero address resets the counts of requests and notices. -/
def execDbgmbox (ctx : Nat) (v : DWord) (s : State) : Host.Outcome State Fault Refusal :=
  if 65536 ≤ ctx then s.passOver
  else
    let base := fld v 51 12 * 4096
    .next (s.modCtx ctx fun k =>
      if base = 0 then { k with mbox := 0, mbReq := none }
      else { k with mbox := base, mbReq := none, mbSeq := 0, mbNtc := 0 })

/-- The debug-halted crew of a context with a CREWID (R333). -/
def State.haltedCrew (s : State) (ctx id : Nat) : Option Nat :=
  Tab.findKey? s.crews fun _ x => x.resident && s.crewId x == id && s.ctxOf x == ctx && x.park == some .debug

/-- The request that waits for the service, which ignores a protected context's mailbox (R362). -/
def State.request (s : State) (ctx : Nat) : Option MbReq := if (s.ctx ctx).prot then none else (s.ctx ctx).mbReq

/-- Serve a request of operation `op`: its fixed body, the fields that `good` admits, then its effect. `DEDUCED`: BADARG is
tested before NOCREW (log 35). -/
def serve (ctx op len : Nat) (good : List Byte → Bool) (s : State) (f : Nat → Crew → List Byte → State × Nat × List Byte) :
    Host.Outcome State Fault Refusal :=
  match s.request ctx with
  | none => s.passOver
  | some q =>
    if q.op ≠ op then s.passOver
    else if !q.zeros || q.body.length ≠ len || !(good q.body) then .next (s.mbReply ctx q s stBadArg [])
    else match s.haltedCrew ctx q.crew with
      | none => .next (s.mbReply ctx q s stNoCrew [])
      | some c => match s.crew? c with
        | none => .next (s.mbReply ctx q s stNoCrew [])
        | some x =>
          let r := f c x q.body
          .next (s.mbReply ctx q r.1 r.2.1 r.2.2)

/-- A byte of a body as a number. -/
def byteAt (b : List Byte) (i : Nat) : Nat := (b.getD i 0#8).toNat

/-- Bytes of a body are zero. -/
def zeroBytes (b : List Byte) (lo n : Nat) : Bool := ((b.drop lo).take n).all fun v => v == 0#8

/-- The lanes in a body, in lane order. -/
def bodyLanes (b : List Byte) (lo : Nat) : Lanes :=
  Vector.ofFn fun i => BitVec.ofNat 32 (ofBytesLE ((b.drop (lo + 4 * i.val)).take 4))

/-- 32 words in lane order. -/
def laneBytes (v : Lanes) : List Byte := (v.toList.map fun w => bytesLE 4 w.toNat).flatten

/-- PING (R333): an empty reply, whatever the crew. -/
def execPing (ctx : Nat) (s : State) : Host.Outcome State Fault Refusal :=
  match s.request ctx with
  | none => s.passOver
  | some q =>
    if q.op ≠ 1 then s.passOver
    else .next (s.mbReply ctx q s (if q.zeros && q.body.isEmpty then stOk else stBadArg) [])

/-- The body of a STOP notice (R335); `code` replaces ECAUSE_S.CODE after a restore (R329). -/
def stopBody (x : Crew) (code : Nat) : List Byte :=
  let t := x.setS
  let top := match x.arch.stack with
    | [] => 0
    | e :: _ => e.mask.toNat
  bytesLE 8 code ++ bytesLE 8 t.epc.toNat ++ bytesLE 8 t.efpc.toNat ++ bytesLE 8 t.eaddr.toNat
    ++ bytesLE 8 (x.arch.act.toNat + x.dead.toNat * 2 ^ 32)
    ++ bytesLE 8 ((x.arch.mask 7).toNat + x.arch.bb.toNat * 2 ^ 32)
    ++ bytesLE 8 (top + x.arch.stack.length * 2 ^ 32) ++ bytesLE 8 (x.eseqAt t.efpc)

/-- RDSTATE (R333, R335). -/
def execRdstate (ctx : Nat) (s : State) : Host.Outcome State Fault Refusal :=
  serve ctx 2 0 (fun _ => true) s fun _ x _ => (s, stOk, stopBody x x.setS.code.toNat)

/-- State and lanes of an entry as RDNAME gives them (R333). -/
def rdEntry (e : Entry) : Nat × Lanes :=
  match e.st with
  | .pending => (2, zeroLanes)
  | .opened => (3, zeroLanes)
  | .leased => (4, zeroLanes)
  | _ => (1, e.lanes)

/-- The binding of a name and its entry, as of the crew's halt (R329). -/
def State.nameAt (s : State) (x : Crew) (n : Nat) : Option (Binding × Entry) :=
  (Tab.at? x.arch.names n).bind fun b => (Tab.at? (s.core (s.coreOf x)).vs b.entry).map fun e =>
    (b, { e with st := Tab.getD x.atHalt n e.st })

/-- RDNAME (R333). -/
def execRdname (ctx : Nat) (s : State) : Host.Outcome State Fault Refusal :=
  serve ctx 3 1 (fun b => decide (byteAt b 0 < 0xC0)) s fun _ x b =>
    match s.nameAt x (byteAt b 0) with
    | none => (s, stUnbound, [])
    | some (bd, e) =>
      let r := rdEntry e
      (s, stOk, bytesLE 4 r.1 ++ bytesLE 4 bd.count ++ laneBytes r.2)

/-- The next instruction has a new number: what the debugger did is not undone by a rollback to this point. -/
def State.bumpSeq (s : State) (c : Nat) : State := s.modCrew c fun x => { x with seq := x.seq + 1 }

/-- The effect of WRNAME (R336). -/
def wrName (s : State) (c : Nat) (x : Crew) (b : List Byte) : State × Nat × List Byte :=
  let n := byteAt b 0
  let count := byteAt b 1
  let v := bodyLanes b 8
  match s.nameAt x n with
  | none => match writeName c n count v 0xFFFFFFFF s with
    | .ok _ t => (t.bumpSeq c, stOk, [])
    | .error _ _ => (s, stNoSpace, [])
  | some (bd, e) => match e.st with
    | .pending => (s, stPending, [])
    | .opened => (s, stPending, [])
    | .leased => (s, stLease, [])
    | _ =>
      let t := (s.modCore (s.coreOf x) fun k => { k with vs := Tab.put k.vs bd.entry { e with lanes := v, bad := 0 } }).modCrew c
        fun y => { y with arch := { y.arch with names := Tab.put y.arch.names n { bd with count := count } } }
      (t, stOk, [])

/-- WRNAME (R333, R336). -/
def execWrname (ctx : Nat) (s : State) : Host.Outcome State Fault Refusal :=
  serve ctx 4 136 (fun b => decide (byteAt b 0 < 0xC0) && decide (1 ≤ byteAt b 1 ∧ byteAt b 1 ≤ 15) && zeroBytes b 2 6) s
    fun c x b => wrName s c x b

/-- The effect of DROPNAME (R333, R17). -/
def dropNameReq (s : State) (c : Nat) (x : Crew) (n : Nat) : State × Nat × List Byte :=
  match s.nameAt x n with
  | none => (s, stUnbound, [])
  | some (_, e) =>
    if e.st = .leased then (s, stLease, [])
    else match dropName c n (s.modCrew c fun y => { y.heal (.name n) with atHalt := Tab.del y.atHalt n }) with
      | .ok _ t => (t.bumpSeq c, stOk, [])
      | .error _ _ => (s, stUnbound, [])

/-- DROPNAME (R333, R336). -/
def execDropname (ctx : Nat) (s : State) : Host.Outcome State Fault Refusal :=
  serve ctx 5 1 (fun b => decide (byteAt b 0 < 0xC0)) s fun c x b => dropNameReq s c x (byteAt b 0)

/-- RDSCAL (R333). -/
def execRdscal (ctx : Nat) (s : State) : Host.Outcome State Fault Refusal :=
  serve ctx 6 2 (fun b => decide (1 ≤ byteAt b 1 ∧ byteAt b 1 ≤ 32 ∧ byteAt b 0 + byteAt b 1 ≤ 63)) s fun _ x b =>
    (s, stOk, ((List.range (byteAt b 1)).map fun i => bytesLE 8 (x.arch.scalar (byteAt b 0 + i)).toNat).flatten)

/-- WRSCAL (R333). -/
def execWrscal (ctx : Nat) (s : State) : Host.Outcome State Fault Refusal :=
  serve ctx 7 16 (fun b => decide (byteAt b 0 ≤ 62) && zeroBytes b 1 7) s fun c _ b =>
    (s.modCrew c fun y =>
      { y.heal (.scalar (byteAt b 0)) with
        arch := y.arch.setScalar (byteAt b 0) (BitVec.ofNat 64 (ofBytesLE ((b.drop 8).take 8))) }, stOk, [])

/-- The registers that WRCSR writes (R333). -/
def mbCsr (k : Nat) : Bool :=
  k == 0x038 || k == 0x058 || k / 8 == 10 || (decide (0x060 ≤ k) && decide (k ≤ 0x06C))

/-- WRCSR (R333): as CSRW would; the HALT bit stays as it is. -/
def execWrcsr (ctx : Nat) (s : State) : Host.Outcome State Fault Refusal :=
  serve ctx 8 16 (fun b => mbCsr (ofBytesLE (b.take 2)) && zeroBytes b 2 6) s fun c x b =>
    let k := ofBytesLE (b.take 2)
    let v := BitVec.ofNat 64 (ofBytesLE ((b.drop 8).take 8))
    match s.gang? x.gang with
    | none => (s, stNoCrew, [])
    | some g => (s.csrWrite c x g k (if k = 0x058 then v &&& ~~~ 0x10000#64 else v), stOk, [])

/-- The request names a halted crew whose notice still waits. -/
def State.awaitsNotice (s : State) (ctx : Nat) : Bool :=
  match (s.request ctx).bind fun q => (s.haltedCrew ctx q.crew).bind s.crew? with
  | some x => x.notice.isSome
  | none => false

/-- CONT (R329, R333): HALT is cleared, and the crew goes on. A crew whose notice waits stays halted, and the request with it
(R332; DEDUCED, log 35). -/
def execCont (ctx : Nat) (s : State) : Host.Outcome State Fault Refusal :=
  if s.awaitsNotice ctx then s.passOver
  else serve ctx 9 0 (fun _ => true) s fun c _ _ =>
    (s.modCrew c fun y => { y with halt := false, park := none, atHalt := [] }, stOk, [])

/-- RDMEM (R333): bytes through the context's translation. DESIGN CHOICE: bits 63:52 of the address are ignored (log 102). -/
def execRdmem (ctx : Nat) (s : State) : Host.Outcome State Fault Refusal :=
  match s.request ctx with
  | none => s.passOver
  | some q =>
    let va := ofBytesLE (q.body.take 8)
    let n := ofBytesLE ((q.body.drop 8).take 2)
    if q.op ≠ 10 then s.passOver
    else if !q.zeros || q.body.length ≠ 10 || n < 1 || 496 < n then .next (s.mbReply ctx q s stBadArg [])
    else match s.readRange ctx va n with
      | .ok bs => .next (s.mbReply ctx q (s.passSys ctx .read va n) stOk bs)
      | .error e => .next ((s.noteSys ctx .read e.2 (min n (va + n - e.2))).mbReply ctx q s stMemErr [])

/-! ## STOP_NOTICE (R329, R332, R335) -/

/-- STOP_NOTICE: the service writes notice n + 1 once NACK holds n. -/
def execStopNotice (c : Nat) (s : State) : Host.Outcome State Fault Refusal :=
  match s.crew? c with
  | none => s.passOver
  | some x =>
    let ctx := s.ctxOf x
    let k := s.ctx ctx
    match x.notice with
    | none => s.passOver
    | some restored =>
      if x.park ≠ some .debug || !x.resident || k.mbox = 0 || k.prot then s.passOver
      else match s.readSys false ctx (k.mbox + 0x600) 8 with
        | .error _ => s.passOver
        | .ok b =>
          if ofBytesLE b ≠ k.mbNtc.toNat then s.passOver
          else match s.mbWrite ctx 0x400 (mbHeader (k.mbNtc + 1).toNat 64 0 0x81 (s.crewId x))
              (stopBody x (if restored then 0 else x.setS.code.toNat)) with
            | none => s.passOver
            | some t => .next ((t.modCtx ctx fun y => { y with mbNtc := y.mbNtc + 1 }).modCrew c fun y => { y with notice := none })

/-! ## The stall sampler (R337 to R342) -/

/-- The REASON of a parked crew (R339). -/
def parkReason (p : Park) : Nat :=
  match p with
  | .switch => 2
  | .scalar _ => 2
  | .alloc _ => 3
  | .claim _ => 3
  | .tile => 3
  | .bind => 3
  | .barrier _ _ _ => 4
  | .matrix => 5
  | .engine _ => 6
  | .slots bank _ => if bank then 7 else 8
  | .queue _ => 10
  | .join _ => 11
  | .bin _ _ => 12
  | .resume => 12
  | .event _ => 13
  | _ => 15

/-- What a crew that waits for nothing does in a clock: issues, fetches, waits for a translation, or is not selected. Timing: a
free value picks (log 11). -/
def readyReason (pick : Nat) : Nat := [0, 1, 9, 14].getD (pick % 4) 14

/-- The REASON of a crew (R339): its wait; where it could go on, what such a crew does in a clock; OTHER where it is held for
the checkpoint before a STEP trap (R326) or stopped (R285). `cur` is the crew, where the clock of the sample finds its wait
over; a step tries the crew first (`State.beforeEvent`, log 34). -/
def State.reason (s : State) (c : Nat) (x : Crew) : Nat :=
  let going := if s.triable x then readyReason (Config.freePick s.tick) else 15
  match x.park with
  | some p => if s.cur = some c then going else parkReason p
  | none => going

/-- The engine of an instruction with a sequence number, or `none` (R196, R323). -/
def engineOf (i : Instr) : Option Nat :=
  match i with
  | .ecpy _ _ => some 0
  | .egath _ _ | .escat _ _ => some 1
  | .ecoll _ _ => some 2
  | .fork f _ => some f.sub.toNat
  | _ => none

/-- ESEQ and the engine kind of a sample: the number that the instruction at the PC takes where it issues in this clock
(R323, R341). -/
def State.sampleSeq (s : State) (x : Crew) (pc : Addr) (reason : Nat) : Nat × Nat :=
  if reason ≠ 0 then (0, 3)
  else match s.fetchAt { x with arch := { x.arch with pc := pc } } with
    | .instr _ i => match engineOf i, s.gang? x.gang with
      | some e, some g => ((match e with
          | 0 => g.copy.issued
          | 1 => g.gather.issued
          | _ => g.coll.issued) + 1, e)
      | _, _ => (0, 3)
    | _ => (0, 3)

/-- A sample record (R340, R341). -/
def sampleBytes (s : State) (x : Crew) (slot reason stamp : Nat) : List Byte :=
  let pc := s.nextPc x
  let e := s.sampleSeq x pc reason
  bytesLE 8 (slot * 2 ^ 58 + slot / 16 * 2 ^ 56 + reason * 2 ^ 52 + pc.toNat)
    ++ bytesLE 8 e.1 ++ bytesLE 8 (e.2 * 2 ^ 46 + s.crewId x * 2 ^ 32 + x.arch.act.toNat) ++ bytesLE 8 stamp

/-- The slot of sample n (R338). -/
def Sampler.sampled (r : Sampler) : Nat := 16 * (r.n % 4) + (if r.rot then r.n / 4 % 16 else r.slot.toNat)

/-- The crew in the slot that the next sample examines. -/
def State.sampledCrew (s : State) (core : Nat) : Option (Nat × Crew) :=
  ((Tab.at? (s.core core).slots (s.core core).smp.sampled).bind fun b => b.crew).bind fun c => (s.crew? c).map fun x => (c, x)

/-- SAMPLE (R338 to R342): one slot is examined. -/
def execSample (core : Nat) (s : State) : Host.Outcome State Fault Refusal :=
  let r := (s.core core).smp
  if !r.en || r.per = 0 then s.passOver
  else
    let slot := r.sampled
    let next := { r with n := r.n + 1 }
    let put (m : Memory) (q : Sampler) (t : State) : State := ({ t with mem := m, cur := none }).modCore core fun k => { k with smp := q }
    match s.sampledCrew core with
    | none => .next (put s.mem { next with empty := r.empty + 1 } s)
    | some (c, x) =>
      if x.empty || !(s.observes r (s.ctxOf x)) then .next (put s.mem { next with empty := r.empty + 1 } s)
      else
        let w := ringPut s.mem next (sampleBytes s x slot (s.reason c x) ((r.n + 1) * r.per.toNat % 2 ^ 64))
        .next (put w.1 w.2 { s with tick := s.tick + 1 })

/-- SMPCFG (R337, R338): writing EN = 1 restarts the count. -/
def execSmpcfg (core : Nat) (v : DWord) (s : State) : Host.Outcome State Fault Refusal :=
  if 192 ≤ core then s.passOver
  else .next (s.modCore core fun k => { k with smp :=
    { k.smp with ctx := v.extractLsb' 48 16, slot := v.extractLsb' 44 4, rot := v[40], en := v[32], per := v.extractLsb' 0 32,
                 n := if v[32] then 0 else k.smp.n } })

end Sys2Proof.Machine
end

