-- ==== Sys2Proof/Machine/Engine.lean ====
section
/-!
DEFINITION. Machine/Engine.lean: engine commands, timelines, engine programs and collectives (R196 to R206).
-/

namespace Sys2Proof.Machine

open Sys2Proof

/-! ## Timelines (R196) -/

def Gang.timeline (g : Gang) (e : Nat) : Timeline :=
  match e with
  | 0 => g.copy
  | 1 => g.gather
  | _ => g.coll

def Gang.setTimeline (g : Gang) (e : Nat) (t : Timeline) : Gang :=
  match e with
  | 0 => { g with copy := t }
  | 1 => { g with gather := t }
  | _ => { g with coll := t }

/-- DONE advances over the completed numbers that follow it. -/
def absorb : Nat → Nat → List Nat → Nat × List Nat
  | 0, d, l => (d, l)
  | k + 1, d, l => if l.contains (d + 1) then absorb k (d + 1) (l.filter (· != d + 1)) else (d, l)

/-- Command `n` completes. -/
def Timeline.complete (t : Timeline) (n : Nat) : Timeline :=
  let r := absorb (t.ahead.length + 1) t.done (n :: t.ahead)
  { t with done := r.1, ahead := r.2 }

/-- Insert a failure, the lowest number first. -/
def Timeline.fail (t : Timeline) (f : EngFail) : Timeline :=
  { t with fails := (t.fails.filter fun u => decide (u.n < f.n)) ++ f :: t.fails.filter fun u => decide (f.n < u.n) }

/-! ## Checks of a command (R197 to R202) -/

/-- What a command that has passed its checks does, and what it leases. -/
structure EngPlan where
  what  : CmdKind
  tile  : Option Nat
  range : List (Nat × Nat)
  deriving DecidableEq, Repr

abbrev Checked (α : Type) := Except (Cause × Nat) α

def need (p : Bool) (cause : Cause) (addr : Nat) : Checked Unit := if p then .ok () else .error (cause, addr)

/-- The gang was launched with district grouping. -/
def State.grouped (s : State) (g : Gang) : Bool :=
  match s.grid? g.grid with
  | some l => (l.groupOf g.gid).isSome
  | none => false

/-- The cores that a target mask names (R198): those of the issuing core's district, or the issuing core alone. -/
def targets (core m : Nat) : List Nat :=
  if m % 256 = 0 then [core] else ((List.range 8).filter fun i => m.testBit i).map fun i => 8 * districtOf core + i

/-- Bytes of a memory row of the row form of `.m2b`, and twice the bytes of an element (R199). -/
def rowShape (t : Ty) : Nat × Nat :=
  match t with
  | .e2m1 => (64, 1)
  | .bf16 => (256, 4)
  | _ => (128, 2)

/-- The tile of a handle for ECPY `.m2a` and `.a2m` (R145, R198). -/
def State.handleTile (s : State) (c : Nat) (h : Nat) : Checked Nat :=
  match s.crew? c with
  | none => .error (cNameFault, 0)
  | some y => match Tab.at? y.arch.tiles h with
    | none => .error (cNameFault, 0)
    | some t => if s.cmds.any fun p => p.2.crew == c && p.2.tile == some t then .error (cLease, 0) else .ok t

/-- The checks of ECPY (R198 to R200). ALIGN carries the misaligned address or offset, 0 for a length (DEDUCED,
log 24). -/
def State.ecpyPlan (s : State) (g : Gang) (c : Nat) (ty : Ty) (ext : DWord) (vlen vb vc : Nat) : Checked EngPlan := do
  let kind := fld ext 54 52
  let va := fld ext 51 0
  let len := vlen % 2 ^ 32
  let off := vb % 2 ^ 52
  let ts := if kind < 2 then targets g.core vc else [g.core]
  need (decide (1 ≤ len ∧ len ≤ 2 ^ 30)) cIllop 0
  need (decide (kind < 2) || vc == 0) cIllop 0
  need (!(kind == 2 || kind == 4) || len == 32768) cIllop 0
  need (s.grouped g || ts.all (· == g.core)) cIllop 0
  let shape := rowShape ty
  let rows := len / shape.1
  let span := if ty = .n8 then len else rows * shape.2 / 2
  need (kind != 1 || ty == .n8 || (len % shape.1 == 0 && rows * shape.2 % 128 == 0)) cIllop 0
  need (kind != 5 || !(overlap va len vb len)) cIllop 0
  need (va % 64 == 0) cAlign va
  need (len % 64 == 0) cAlign 0
  need (kind == 2 || kind == 4 || kind == 5 || off % 64 == 0) cAlign off
  need (kind != 5 || decide (vb < 2 ^ 52)) cMemFault vb
  need (kind != 5 || vb % 64 == 0) cAlign vb
  need (kind != 1 || decide (off + span ≤ (if ty = .n8 then 0x400000 else 32768))) cMemFault off
  let what := CmdKind.ecpy kind ty va len (if kind = 5 then vb else off) vc
  if kind = 2 ∨ kind = 4 then
    let t ← s.handleTile c (vb % 8)
    .ok { what := what, tile := some t, range := [] }
  else if kind = 3 ∨ (kind = 0 ∧ ts.contains g.core) then
    match s.regionErr c g.spLen off len 64 with
    | some e => .error e
    | none => .ok { what := what, tile := none, range := [(off, len)] }
  else .ok { what := what, tile := none, range := [] }

/-- The addresses of EGATH and ESCAT (R201). -/
def gatherAddr (va stride : Nat) (idx : Nat) : Nat :=
  (BitVec.ofNat 64 va + sext64 32 idx * BitVec.ofNat 64 stride).toNat

/-- The first fault of the lanes' addresses: misaligned, or beyond 52 bits; with its lanes. -/
def addrFault (m : Mask) (addr : Tab Nat) (align : Nat) : Option (Cause × Nat × Mask) :=
  let bad (p : Nat → Bool) : Mask := lanesWith m fun l => p (at0 addr l.val)
  let b1 := bad fun a => a % align != 0
  let b2 := bad fun a => decide (2 ^ 52 ≤ a)
  match lanesOf b1, lanesOf b2 with
  | l :: _, _ => some (cAlign, at0 addr l.val, b1)
  | [], l :: _ => some (cMemFault, at0 addr l.val, b2)
  | [], [] => none

/-- The row length and scratchpad offset of the row forms (R201). -/
def rowForm (vb vc : Nat) : Checked (Nat × Nat) := do
  let rb := vb / 2 ^ 32 % 65536
  let off := vc % 2 ^ 52
  need (rb % 4 == 0 && decide (4 ≤ rb) && decide (rb ≤ 4096) && off % 4 == 0) cIllop 0
  .ok (rb, off)

/-- The checks of ECOLL at issue (R202). -/
def ecollPlan (fn op : Nat) (ty : Ty) (ext : DWord) (vcount vb vc : Nat) : Checked EngPlan := do
  let count := vcount % 2 ^ 32
  need (decide (1 ≤ count ∧ count ≤ 2 ^ 28)) cIllop 0
  need (vb % 64 == 0) cAlign vb
  need (decide (vb < 2 ^ 52)) cMemFault vb
  .ok { what := .ecoll fn op ty (fld ext 51 0) count vb (vc % 65536), tile := none, range := [] }

/-! ## Completion (R196, R197, R204, R205) -/

/-- A leased entry after its command: bound, or over for a crew that has retired. -/
def endLease (s : State) (k : Nat) (v : Lanes) (t : Tab Entry) : Tab Entry :=
  t.filterMap fun p =>
    if p.2.st = .leased ∧ p.2.tag = k then
      (if (s.crew? p.2.crew).isSome then some (p.1, { p.2 with st := .bound, lanes := v, bad := 0 }) else none)
    else some p

/-- The tile that a command leased is free where its crew was killed meanwhile (R313). -/
def State.freeTile (s : State) (m : Cmd) : State :=
  if (s.crew? m.crew).isSome then s
  else s.modCore m.core fun k =>
    { k with tiles := k.tiles.filter fun p => !(p.2.crew == m.crew && m.tile == some p.1) }

/-- The leases of a command end. -/
def State.endCmd (s : State) (k : Nat) (m : Cmd) : State :=
  { s with cmds := Tab.del s.cmds k,
           cores := Tab.mapV s.cores fun _ c => { c with vs := endLease s k m.result c.vs },
           crews := Tab.mapV s.crews fun _ x => { x with image := endLease s k m.result x.image } }.freeTile m |>.respill m.crew

/-- The record of a failed command (R205, R308, R402). -/
def State.cmdRecord (s : State) (m : Cmd) (cause : Cause) (addr : Nat) : State :=
  s.record { Rec.of (some m.ctx) 0x07 0 (instOf (dieOf m.core) (if m.engine = 0 then m.core % 48 / 8 else 0)) with
    crew := m.crewid.toNat, pc := m.pc.toNat, eseq := m.n, addr := addr, cause := cause.toNat, detail := m.engine }

/-- Commands of a timeline that it has passed leave. -/
def State.passCmds (s : State) (gang e : Nat) : State :=
  match s.gang? gang with
  | none => s
  | some g =>
    (s.cmds.filter fun p => p.2.gang == gang && p.2.engine == e && p.2.isOver && decide (p.2.n ≤ (g.timeline e).done)).foldl
      (fun t p => t.endCmd p.1 p.2) s

/-- Why a command failed: its cause, the failing virtual address or 0, and the physical address of bad data. -/
structure CmdFail where
  cause : Cause
  addr  : Nat
  pa    : Option Nat
  deriving DecidableEq, Repr

/-- An access of a command failed. -/
def CmdFail.of (c : Cause) (a pa : Nat) : CmdFail :=
  { cause := c, addr := a, pa := if c = cPoison ∧ hbmOk pa 1 then some pa else none }

/-- The failure of a killed gang's command is never reported by a trap (R205, R274). -/
def State.noteUnrep (s : State) (m : Cmd) (g : Gang) : State :=
  match g.home with
  | .frozen _ => s.modGrid m.grid fun l => { l with unrep := l.unrep + 1 }
  | _ => s

/-- Command `k` completes with `result`, or fails. -/
def State.finishCmd (s : State) (k : Nat) (m : Cmd) (fail : Option CmdFail) (result : Lanes) : State :=
  let s1 := match fail with
    | some f => s.cmdRecord m f.cause f.addr
    | none => s
  let v := if fail.isSome then zeroLanes else result
  match s1.gang? m.gang with
  | none => s1.endCmd k { m with result := v }
  | some g =>
    let t1 := (g.timeline m.engine).complete m.n
    let t2 := match fail with
      | some f => t1.fail { n := m.n, cause := f.cause, eaddr := f.addr, line := f.pa }
      | none => t1
    let s2 := { s1 with cmds := Tab.put s1.cmds k { m with isOver := true, result := v } }
    let s3 := if fail.isSome then s2.noteUnrep m g else s2
    (((s3.setGang m.gang (g.setTimeline m.engine t2)).passCmds m.gang m.engine).thaw []).trySwapOut m.gang

/-! ## Issue (R196, R197) -/

/-- A value-store entry waits for `tag`. -/
def tagVs (i tag : Nat) (vs : Tab Entry) : Tab Entry :=
  match Tab.at? vs i with
  | some en => Tab.put vs i { en with tag := tag }
  | none => vs

/-- Give a command its number and hand it to its engine; an empty effective mask completes it at once. `es`: its leased
entry. -/
def issueCmd (c e : Nat) (x : Ops) (p : EngPlan) (es : List Nat) (m : Mask) : M Unit := do
  let pc ← ownPc c x
  let y ← crewM c
  let g ← gangM c
  let s ← getS
  let t := g.timeline e
  let n := t.issued + 1
  let k := s.nextId
  let cmd : Cmd :=
    { gang := y.gang, grid := g.grid, crew := c, ctx := g.ctx, priv := y.priv, core := g.core, engine := e, n := n, pc := pc,
      crewid := BitVec.ofNat 14 (s.crewId y), what := p.what, tile := p.tile, range := p.range, isOver := false,
      result := zeroLanes, begun := none, did := [], saved := none }
  modS fun u => { u with nextId := k + 1, cmds := Tab.put u.cmds k cmd }
  modS fun u => u.modGang y.gang fun w => w.setTimeline e { t with issued := n }
  for i in es do modVs c (tagVs i k)
  modC c fun z => { z.dropEseq pc with eng := { pc := pc, kind := e, n := n } :: (z.dropEseq pc).eng }
  writeScalar c x.dst (BitVec.ofNat 64 n)
  if m = 0 then modS fun u => u.finishCmd k cmd none zeroLanes

/-- A check that fails traps in the crew. -/
def checked {α : Type} (r : Checked α) : M α :=
  match r with
  | .ok v => pure v
  | .error e => stop (.trap e.1 e.2 none)

/-- An engine instruction is bound to the checkpoint and a release (R187, R197). -/
def engStep (opc : Nat) (x : Ops) (body : Nat → M Unit) (s : State) : Host.Outcome State Fault Refusal :=
  crewStep x.head (fun c => do
    matrixFence c true
    issue c opc x true true (body c)) s

/-- The number that the command takes, for the records of lanes that its reads kill (R323): where the instruction is issued,
its crew carries it from the start. -/
def withSeq (c e : Nat) (body : M Unit) : M Unit := fun s =>
  match body s, s.crew? c with
  | .ok _ _, some x =>
    let n := match s.gang? x.gang with
      | some g => (g.timeline e).issued + 1
      | none => 0
    body (s.setCrew c { x with eng := { pc := x.ipc, kind := e, n := n } :: x.eng })
  | r, _ => r

/-- ECPY (R198). -/
def bodyEcpy (f : FnE) (x : Ops) (c : Nat) : M Unit := do
  let a ← readScalar c x.sa
  let b ← readScalar c x.sb
  let v ← readScalar c x.sc
  let g ← gangM c
  let s ← getS
  let p ← checked (s.ecpyPlan g c f.ty x.ext a.toNat b.toNat v.toNat)
  issueCmd c 0 x p [] 0xFFFFFFFF

/-- ECPY (R198). -/
def execEcpy (f : FnE) (x : Ops) (s : State) : Host.Outcome State Fault Refusal := engStep 0xD0 x (bodyEcpy f x) s

/-- The addresses are checked at issue (R201). -/
def gatherCheck (m : Mask) (addr : Tab Nat) (align : Nat) : M Unit :=
  match addrFault m addr align with
  | some (c, a, l) => faultAt c a l
  | none => pure ()

/-- EGATH (R201): the name form with a count in XF, else the row form. ILLOP for the values of scalars comes before the faults
of reading the index (R56). -/
def bodyEgath (f : FnE) (x : Ops) (c : Nat) : M Unit := do
  let b ← readScalar c x.sb
  let va := fld x.ext 51 0
  let cnt := fld x.ext 63 52 / 256
  let n := fld x.ext 59 52
  if cnt ≠ 0 then
    check (b.toNat < 2 ^ 32) cIllop
    let idx ← readSrc c x.head x.sa false
    let m ← emask c x.head
    let addr := perLane m fun l => gatherAddr va (b.toNat % 2 ^ 32) idx[l].toNat
    checkDst c [n]
    gatherCheck m addr (Ty.size f.ty)
    let es ← allocNames c [n] cnt .leased
    issueCmd c 1 x { what := .egathName f.ty addr n cnt, tile := none, range := [] } es m
  else
    let v ← readScalar c x.sc
    let r ← checked (rowForm b.toNat v.toNat)
    let idx ← readSrc c x.head x.sa false
    let m ← emask c x.head
    let addr := perLane m fun l => gatherAddr va (b.toNat % 2 ^ 32) idx[l].toNat
    gatherCheck m addr 4
    regionM c r.2 (32 * r.1) 1
    issueCmd c 1 x { what := .egathRow addr r.1 r.2, tile := none, range := [(r.2, 32 * r.1)] } [] m

/-- EGATH (R201). -/
def execEgath (f : FnE) (x : Ops) (s : State) : Host.Outcome State Fault Refusal :=
  engStep 0xD1 x (fun c => withSeq c 1 (bodyEgath f x c)) s

/-- ESCAT (R201): the name form with a vector in SC, else the row form. ILLOP for the values of scalars comes before the faults
of reading the index and the data (R56). -/
def bodyEscat (f : FnE) (x : Ops) (c : Nat) : M Unit := do
  let b ← readScalar c x.sb
  let va := fld x.ext 51 0
  if isVec x.sc then
    check (b.toNat < 2 ^ 32) cIllop
    let idx ← readSrc c x.head x.sa false
    let data ← readSrc c x.head x.sc false
    let m ← emask c x.head
    let addr := perLane m fun l => gatherAddr va (b.toNat % 2 ^ 32) idx[l].toNat
    gatherCheck m addr (Ty.size f.ty)
    issueCmd c 1 x { what := .escatName f.ty addr (lowHalf data), tile := none, range := [] } [] m
  else
    let v ← readScalar c x.sc
    let r ← checked (rowForm b.toNat v.toNat)
    let idx ← readSrc c x.head x.sa false
    let m ← emask c x.head
    let addr := perLane m fun l => gatherAddr va (b.toNat % 2 ^ 32) idx[l].toNat
    gatherCheck m addr 4
    regionM c r.2 (32 * r.1) 1
    issueCmd c 1 x { what := .escatRow addr r.1 r.2, tile := none, range := [(r.2, 32 * r.1)] } [] m

/-- ESCAT (R201). -/
def execEscat (f : FnE) (x : Ops) (s : State) : Host.Outcome State Fault Refusal :=
  engStep 0xD2 x (fun c => withSeq c 1 (bodyEscat f x c)) s

/-- ECOLL (R202). -/
def bodyEcoll (f : FnE) (x : Ops) (c : Nat) : M Unit := do
  let a ← readScalar c x.sa
  let b ← readScalar c x.sb
  let v ← readScalar c x.sc
  let p ← checked (ecollPlan f.sub.toNat f.op.toNat f.ty x.ext a.toNat b.toNat v.toNat)
  issueCmd c 2 x p [] 0xFFFFFFFF

/-- ECOLL (R202). -/
def execEcoll (f : FnE) (x : Ops) (s : State) : Host.Outcome State Fault Refusal := engStep 0xD3 x (bodyEcoll f x) s

/-- FORK (R203): 1 to 65,536 records at a multiple of 64. -/
def bodyFork (f : FnE) (x : Ops) (c : Nat) : M Unit := do
  let a ← readScalar c x.sa
  let b ← readScalar c x.sb
  check (decide (1 ≤ b.toNat ∧ b.toNat ≤ 65536)) cIllop
  if a.toNat % 64 ≠ 0 then stop (.trap cAlign a.toNat none)
  if 2 ^ 52 ≤ a.toNat then stop (.trap cMemFault a.toNat none)
  let y ← crewM c
  issueCmd c f.sub.toNat x { what := .fork a.toNat b.toNat 0 y.arch.act, tile := none, range := [] } [] 0xFFFFFFFF

/-- FORK (R203). -/
def execFork (f : FnE) (x : Ops) (s : State) : Host.Outcome State Fault Refusal := engStep 0xD4 x (bodyFork f x) s

/-! ## TLWAIT, RDV, TLQ (R204, R205) -/

/-- The waits of an instruction, as engine and number: parked until each is met; a covered failure faults once. -/
def awaitM (c : Nat) (ws : List (Nat × Nat)) : M Unit := do
  let y ← crewM c
  let g ← gangM c
  if ws.any fun w => decide ((g.timeline w.1).done < w.2) then park (.engine ws)
  let hit := ws.findSome? fun w => ((g.timeline w.1).fails.find? fun f => decide (f.n ≤ w.2)).map fun f => (w.1, f)
  match hit with
  | some (e, f) =>
    modS fun s => s.modGang y.gang fun w =>
      w.setTimeline e { w.timeline e with fails := (w.timeline e).fails.filter fun u => u.n != f.n }
    match f.line with
    | some pa => modS fun s => s.notePoison g.ctx pa
    | none => pure ()
    stop (.trap f.cause f.eaddr none)
  | none => acquireM c 4

/-- TLWAIT (R204). -/
def bodyTlwait (c : Nat) (f : FnE) (x : Ops) : M Unit := do
  let n ← readScalar c x.sa
  awaitM c [(f.sub.toNat, n.toNat)]

/-- TLWAIT (R204). -/
def execTlwait (f : FnE) (x : Ops) (s : State) : Host.Outcome State Fault Refusal :=
  issueStep 0xD6 x false (fun c => bodyTlwait c f x) s

/-- RDV (R204). -/
def bodyRdv (c : Nat) (x : Ops) : M Unit := do
  let a ← readScalar c x.sa
  let b ← readScalar c x.sb
  let v ← readScalar c x.sc
  awaitM c [(0, a.toNat), (1, b.toNat), (2, v.toNat)]

/-- RDV (R204). -/
def execRdv (f : FnE) (x : Ops) (s : State) : Host.Outcome State Fault Refusal :=
  issueStep 0xD5 x true (fun c => do
    check (f.sub == 0) cIllop
    bodyRdv c x) s

/-- TLQ (R204). -/
def bodyTlq (c : Nat) (f : FnE) (x : Ops) : M Unit := do
  let g ← gangM c
  let t := g.timeline f.sub.toNat
  writeScalar c x.dst (put (b2n (t.fails.any fun u => decide (u.n ≤ t.done))) 63 1 ||| put t.done 0 63)

/-- TLQ (R204). -/
def execTlq (f : FnE) (x : Ops) (s : State) : Host.Outcome State Fault Refusal :=
  issueStep 0xD7 x false (fun c => bodyTlq c f x) s

/-! ## What the engines do -/

/-- The command as an agent: the crew that issued it (R246). -/
def Cmd.agent (m : Cmd) : Agent :=
  { win := { gang := m.gang, ctx := m.ctx, priv := m.priv }, die := dieOf m.core, own := true, l1 := none,
    slice := sliceInst m.core,
    who := { Rec.of (some m.ctx) 0 0 0 with crew := m.crewid.toNat, pc := m.pc.toNat, eseq := m.n } }

/-- The issuing gang, unless it was killed (R313 step 3). -/
def State.liveGang (s : State) (m : Cmd) : Option Gang :=
  match s.gang? m.gang with
  | some g => match g.home with
    | .frozen _ => none
    | _ => some g
  | none => none

/-- Read on-chip bytes for a command: a bad word kills the gang (R305, R403). -/
def chipRead (s : State) (ctx kind core pa n : Nat) : Io (List Byte) :=
  let t := s.passUnits (some ctx) (pa - winOf core) [(kind, coreInst core, none)]
  if s.marked pa n then .kill t kind (coreInst core) (s.firstMark pa n - winOf core) else .ok t (s.mem.read pa n)

/-- Continue an access. -/
def Io.bind {α β : Type} (r : Io α) (f : State → α → Io β) : Io β :=
  match r with
  | .ok s v => f s v
  | .fail s c a p => .fail s c a p
  | .kill s k i a => .kill s k i a
  | .wait => .wait

/-- Element (k, c) of rows of B in memory, as the bytes of slice c (R66, R147, R199). -/
def sliceBytes (ty : Ty) (data : List Byte) (rows c : Nat) : List Byte :=
  match ty with
  | .e2m1 => (List.range (rows / 2)).map fun j =>
      let nib (k : Nat) : Nat := (data.getD (64 * k + c / 2) 0#8).toNat / 16 ^ (c % 2) % 16
      BitVec.ofNat 8 (nib (2 * j) + 16 * nib (2 * j + 1))
  | .bf16 => ((List.range rows).map fun k => [data.getD (256 * k + 2 * c) 0#8, data.getD (256 * k + 2 * c + 1) 0#8]).flatten
  | _ => (List.range rows).map fun k => data.getD (128 * k + c) 0#8

/-- The scratchpad writes of an `.m2s` copy; `none` where a target does not accept it (R200). What is aimed at the scratchpad
of its own killed gang is discarded (R313). -/
def State.m2s (s : State) (m : Cmd) (off : Nat) (data : List Byte) (ts : List Nat) : Option State :=
  let gs := ts.map fun k => (k, (s.windowGang m.gang k).bind fun j => (s.gang? j).map fun y => (j, y))
  if gs.all fun q => match q.2 with
      | some (j, y) => j == m.gang && s.isFrozen j || decide (off + data.length ≤ y.spLen) && !(s.isFrozen j)
      | none => false then
    some (gs.foldl (fun t q => match q.2 with
      | some (j, y) => if s.isFrozen j then t else t.writeChip (spadPa q.1 (y.spad + off)) data
      | none => t) s)
  else none

/-- The spilled image of the tile that a command leases, while its crew is evicted (R206), or was when it was killed (R313). -/
def State.tileImage (s : State) (m : Cmd) (p : Nat) : Option Image :=
  match s.crew? m.crew with
  | none => m.saved
  | some x => if x.resident then none else (Tab.at? x.tileImg p).map Prod.fst

/-- Bytes of the leased tile from byte `o` on, on the core or in its image. -/
def tileRead (s : State) (m : Cmd) (p o n : Nat) : Io (List Byte) :=
  match s.tileImage m p with
  | none => chipRead s m.ctx 0x03 m.core (tilePa m.core p + o) n
  | some i => match i.bad.find? fun w => overlap (4 * w) 4 o n with
    | none => .ok s (i.cells.read o n)
    | some w => .kill s 0x03 (coreInst m.core) (tilePa m.core p + 4 * w - winOf m.core)

/-- An image after bytes are stored from offset `o` on; marked words that are covered lose their marks (R403). -/
def Image.write (i : Image) (o : Nat) (data : List Byte) : Image :=
  { cells := Memory.write i.cells o data,
    bad := i.bad.filter fun w => !(decide (o ≤ 4 * w) && decide (4 * w + 4 ≤ o + data.length)) }

/-- Fill the leased tile from byte `o` on, on the core or in its image; a tile that its crew no longer holds takes nothing. -/
def State.tileWrite (s : State) (m : Cmd) (p o : Nat) (data : List Byte) : State :=
  match s.tileImage m p with
  | some _ => (s.modCrew m.crew fun x =>
      { x with tileImg := Tab.mapV x.tileImg fun k v => if k = p then (v.1.write o data, v.2) else v }).respill m.crew
  | none =>
    match Tab.at? (s.core m.core).tiles p with
    | some t => if t.crew = m.crew then s.writeChip (tilePa m.core p + o) data else s
    | none => s

/-- Words of the B-stacks of some cores are written, from their offsets on: the B-stack of a core that another context owns, or
that is RELEASING, serves no copy (R362, R363). DESIGN CHOICE: the copy fails with PROT (log 78). -/
def State.m2b (s : State) (ctx : Nat) (ts : List Nat) (ws : List (Nat × List Byte)) : Io Unit :=
  if ts.all (s.coreServes ctx) then
    .ok (ts.foldl (fun u k => ws.foldl (fun w q => w.writeChip (bstackPa k q.1) q.2) u) s) ()
  else .fail s cProt 0 0

/-- ECPY at its engine (R198 to R200). -/
def State.runEcpy (s : State) (m : Cmd) (kind : Nat) (ty : Ty) (va len sb sc : Nat) : Io Unit :=
  let a := m.agent
  match kind with
  | 0 => (s.readVa a .read va len).bind fun t data =>
      match t.m2s m sb data (targets m.core sc) with
      | some u => .ok u ()
      | none => .fail t cMemFault 0 0
  | 1 => (s.readVa a .read va len).bind fun t data => t.m2b m.ctx (targets m.core sc)
      (if ty = .n8 then [(sb, data)]
       else (List.range 128).map fun c => (0x8000 * c + sb, sliceBytes ty data (len / (rowShape ty).1) c))
  | 2 => (s.readVa a .read va len).bind fun t data =>
      match s.liveGang m, m.tile with
      | some _, some p => .ok (t.tileWrite m p 0 data) ()
      | _, _ => .ok t ()
  | 3 => match s.gang? m.gang with
    | none => .ok s ()
    | some g => (chipRead s m.ctx 0x02 m.core (spadPa m.core (g.spad + sb)) len).bind fun t data => t.writeVa a va data
  | 4 => match m.tile with
    | some p => (tileRead s m p 0 len).bind fun t data => t.writeVa a va data
    | none => .ok s ()
  | _ => (s.readVa a .read va len).bind fun t data => t.writeVa a sb data

/-- Gather lanes into a name's lanes. -/
def gatherName (a : Agent) (size : Nat) : Tab Nat → State → Lanes → Io Lanes
  | [], s, v => .ok s v
  | (l, p) :: ls, s, v =>
    (s.readVa a .read p size).bind fun t bs => gatherName a size ls t (v.setIfInBounds l (BitVec.ofNat 32 (ofBytesLE bs)))

/-- Gather rows into the scratchpad at window address `base`; nowhere where the gang was killed (R313). -/
def gatherRows (a : Agent) (rb : Nat) (base : Option Nat) : Tab Nat → State → Io Unit
  | [], s => .ok s ()
  | (l, p) :: ls, s =>
    (s.readVa a .read p rb).bind fun t bs => gatherRows a rb base ls (match base with
      | some b => t.writeChip (b + l * rb) bs
      | none => t)

/-- Scatter the low bytes of lanes. -/
def scatterName (a : Agent) (size : Nat) (data : Lanes) : Tab Nat → State → Io Unit
  | [], s => .ok s ()
  | (l, p) :: ls, s =>
    (s.writeVa a p (bytesLE size (data.toList.getD l 0#32).toNat)).bind fun t _ => scatterName a size data ls t

/-- Scatter rows of the scratchpad. -/
def scatterRows (a : Agent) (core rb base : Nat) : Tab Nat → State → Io Unit
  | [], s => .ok s ()
  | (l, p) :: ls, s =>
    (chipRead s a.win.ctx 0x02 core (base + l * rb) rb).bind fun t bs =>
      (t.writeVa a p bs).bind fun u _ => scatterRows a core rb base ls u

/-- What a command that needs no other rank does; the lanes are what its leased name receives. -/
def State.runCmd (s : State) (m : Cmd) (w : CmdKind) : Io Lanes :=
  let unit (r : Io Unit) : Io Lanes := r.bind fun t _ => .ok t zeroLanes
  let base (g : Gang) (off : Nat) : Nat := spadPa m.core (g.spad + off)
  match w with
  | .nothing => .ok s zeroLanes
  | .ecpy kind ty va len sb sc => unit (s.runEcpy m kind ty va len sb sc)
  | .egathName ty addr _ _ => gatherName m.agent (Ty.size ty) addr s zeroLanes
  | .egathRow addr rb off => unit (gatherRows m.agent rb ((s.liveGang m).map fun g => base g off) addr s)
  | .escatName ty addr data => unit (scatterName m.agent (Ty.size ty) data addr s)
  | .escatRow addr rb off => match s.gang? m.gang with
    | some g => unit (scatterRows m.agent m.core rb (base g off) addr s)
    | none => .ok s zeroLanes
  | .put va data => unit (s.writeVa m.agent va data)
  | .ecoll _ _ _ _ _ _ _ => .wait
  | .fork _ _ _ _ => .wait

/-! ## Parts of a command (R205, R401) -/

/-! Towards other agents the accesses of a command are not one event: any part of it may be performed before the rest. A part is a
word of 4 bytes of what it writes on chip, an aligned piece of 8 bytes of what it writes in memory, or a lane. -/

/-- How many parts a command has, and how many follow one another in one place: in one target, slice, lane or range. -/
def CmdKind.parts (w : CmdKind) (core : Nat) : Nat × Nat :=
  match w with
  | .ecpy kind ty _ len _ sc =>
    if kind = 0 ∨ (kind = 1 ∧ ty = .n8) then ((targets core sc).length * (len / 4), len / 4)
    else if kind = 1 then
      let n := len / (rowShape ty).1 * (rowShape ty).2 / 2 / 4
      ((targets core sc).length * 128 * n, n)
    else if kind = 2 then (len / 4, len / 4)
    else (len / 8, len / 8)
  | .egathName _ addr _ _ => (addr.length, 1)
  | .egathRow addr rb _ => (addr.length * (rb / 4), rb / 4)
  | .escatName _ addr _ => (addr.length, 1)
  | .escatRow addr rb _ => (addr.length * (rb / 4), rb / 4)
  | .put _ data => ((data.length + 7) / 8, (data.length + 7) / 8)
  | _ => (0, 1)

/-- Rising numbers as runs, first number and length, of which none crosses a multiple of `n`. -/
def runsOf (n : Nat) : List Nat → List (Nat × Nat)
  | [] => []
  | i :: t => match runsOf n t with
    | (j, k) :: r => if j = i + 1 ∧ j % n ≠ 0 then (i, k + 1) :: r else (i, 1) :: (j, k) :: r
    | [] => [(i, 1)]

/-- Parts `o` to `o + k - 1` of an ECPY, in one place. -/
def State.partEcpy (s : State) (m : Cmd) (kind : Nat) (ty : Ty) (va len sb sc o k : Nat) : Io Unit :=
  let a := m.agent
  let n := ((CmdKind.ecpy kind ty va len sb sc).parts m.core).2
  let ts := targets m.core sc
  match kind with
  | 0 => (s.readVa a .read (va + 4 * (o % n)) (4 * k)).bind fun t data =>
      match t.m2s m (sb + 4 * (o % n)) data ((ts.drop (o / n)).take 1) with
      | some u => .ok u ()
      | none => .fail t cMemFault 0 0
  | 1 =>
    if ty = .n8 then
      (s.readVa a .read (va + 4 * (o % n)) (4 * k)).bind fun t data =>
        t.m2b m.ctx ((ts.drop (o / n)).take 1) [(sb + 4 * (o % n), data)]
    else
      let c := o / n % 128
      (s.readVa a .read va len).bind fun t data => t.m2b m.ctx ((ts.drop (o / n / 128)).take 1)
        [(0x8000 * c + sb + 4 * (o % n), ((sliceBytes ty data (len / (rowShape ty).1) c).drop (4 * (o % n))).take (4 * k))]
  | 2 => (s.readVa a .read (va + 4 * o) (4 * k)).bind fun t data =>
      match s.liveGang m, m.tile with
      | some _, some p => .ok (t.tileWrite m p (4 * o) data) ()
      | _, _ => .ok t ()
  | 3 => match s.gang? m.gang with
    | none => .ok s ()
    | some g => (chipRead s m.ctx 0x02 m.core (spadPa m.core (g.spad + sb + 8 * o)) (8 * k)).bind fun t data =>
        t.writeVa a (va + 8 * o) data
  | 4 => match m.tile with
    | some p => (tileRead s m p (8 * o) (8 * k)).bind fun t data => t.writeVa a (va + 8 * o) data
    | none => .ok s ()
  | _ => (s.readVa a .read (va + 8 * o) (8 * k)).bind fun t data => t.writeVa a (sb + 8 * o) data

/-- Parts `o` to `o + k - 1` of a command, in one place; `v`: what its leased name has received so far. -/
def State.partCmd (s : State) (m : Cmd) (w : CmdKind) (o k : Nat) (v : Lanes) : Io Lanes :=
  let n := (w.parts m.core).2
  let unit (r : Io Unit) : Io Lanes := r.bind fun t _ => .ok t v
  let base (g : Gang) (off : Nat) : Nat := spadPa m.core (g.spad + off)
  match w with
  | .ecpy kind ty va len sb sc => unit (s.partEcpy m kind ty va len sb sc o k)
  | .egathName ty addr _ _ => gatherName m.agent (Ty.size ty) ((addr.drop o).take k) s v
  | .egathRow addr rb off => match addr[o / n]? with
    | none => .ok s v
    | some p => (s.readVa m.agent .read (p.2 + 4 * (o % n)) (4 * k)).bind fun t bs => .ok (match s.liveGang m with
        | some g => t.writeChip (base g off + p.1 * rb + 4 * (o % n)) bs
        | none => t) v
  | .escatName ty addr data => unit (scatterName m.agent (Ty.size ty) data ((addr.drop o).take k) s)
  | .escatRow addr rb off => match addr[o / n]?, s.gang? m.gang with
    | some p, some g => (chipRead s m.ctx 0x02 m.core (base g off + p.1 * rb + 4 * (o % n)) (4 * k)).bind fun t bs =>
        unit (t.writeVa m.agent (p.2 + 4 * (o % n)) bs)
    | _, _ => .ok s v
  | .put va data => unit (s.writeVa m.agent (va + 8 * o) ((data.drop (8 * o)).take (8 * k)))
  | _ => .wait

/-- Runs of parts, one after the other. -/
def partRuns (m : Cmd) (w : CmdKind) : List (Nat × Nat) → State → Lanes → Io Lanes
  | [], s, v => .ok s v
  | r :: rs, s, v => (s.partCmd m w r.1 r.2 v).bind fun t u => partRuns m w rs t u

/-- What is left of a command. -/
def State.runRest (s : State) (m : Cmd) (w : CmdKind) : Io Lanes :=
  if m.did.isEmpty then s.runCmd m w
  else
    let p := w.parts m.core
    partRuns m w (runsOf p.2 ((List.range p.1).filter fun i => !m.did.contains i)) s m.result

/-- Part `i` of an ESCAT may be performed: no lower lane writes the same bytes later (R201). -/
def CmdKind.mayPart (w : CmdKind) (did : List Nat) (i : Nat) : Bool :=
  let clear (addr : Tab Nat) (n size lo bytes : Nat) : Bool := (List.range (i / n)).all fun j =>
    (List.range n).all (fun q => did.contains (n * j + q)) || (match addr[j]? with
      | some p => !(overlap p.2 size lo bytes)
      | none => true)
  match w with
  | .escatName ty addr _ => match addr[i]? with
    | some p => clear addr 1 (Ty.size ty) p.2 (Ty.size ty)
    | none => false
  | .escatRow addr rb _ => match addr[i / (rb / 4)]? with
    | some p => clear addr (rb / 4) rb (p.2 + 4 * (i % (rb / 4))) 4
    | none => false
  | _ => true

/-- The gang of a command is killed by bad data that the engine read (R305), unless it has been already. -/
def State.cmdKill (s : State) (m : Cmd) (kind inst addr : Nat) : State :=
  if (s.liveGang m).isNone then s
  else s.gangKill m.gang { cause := cPoison, kind := kind, inst := inst, addr := addr, crew := m.crewid.toNat,
                           pc := m.pc.toNat, again := true, eseq := m.n }

/-- A command ends as its access did: with its lanes, with a failure, or by bad on-chip data that kills its gang; `none` where
it waits. -/
def State.endIo (s : State) (k : Nat) (m : Cmd) (r : Io Lanes) (done : State → Lanes → State) :
    Host.Outcome State Fault Refusal :=
  match r with
  | .wait => s.passOver
  | .ok t v => .next (done t v)
  | .fail t c a pa => .next (t.finishCmd k m (some (.of c a pa)) zeroLanes)
  | .kill t kind inst a => .next ((t.cmdKill m kind inst a).finishCmd k m (some ⟨cPoison, 0, none⟩) zeroLanes)

/-- ENGINE_COMMAND_COMPLETE (R196 to R201, R205, R206): a command other than a program or a collective takes effect and
completes, or fails. -/
def execEngineCommandComplete (k : Nat) (s : State) : Host.Outcome State Fault Refusal :=
  match Tab.at? s.cmds k with
  | none => s.passOver
  | some m =>
    if m.isOver then s.passOver else s.endIo k m (s.runRest m m.what) fun t v => t.finishCmd k m none v

/-! ## Engine programs (R203) -/

/-- The instruction of a record and the three values, or `none` for a record that is no such instruction. -/
structure RecInstr where
  opc : Nat
  fn  : FnE
  ops : Ops
  va  : Nat
  vb  : Nat
  vc  : Nat
  deriving DecidableEq, Repr

def recInstr (e : Nat) (bs : List Byte) : Option RecInstr :=
  let q (i : Nat) : Nat := ofBytesLE ((bs.drop (8 * i)).take 8)
  let w := BitVec.ofNat 64 (q 0)
  let x := Ops.ofWord w (BitVec.ofNat 64 (q 1))
  let opc := fld w 15 8
  let f := FnE.ofBits (w.extractLsb' 52 12)
  let kind := (e == 0 && opc == 0xD0) || (e == 1 && (opc == 0xD1 || opc == 0xD2)) || (e == 2 && opc == 0xD3)
  let rowOnly := opc == 0xD0 || opc == 0xD3 || (fld x.ext 63 52 == 0 && !isVec x.sc)
  if kind && rowOnly && x.head.len == 2 && x.dst == 0xFF && x.cnt == 0 && x.head.uni && x.head.msk == 0 && !x.head.neg
      && !isVec x.sa && !isVec x.sb && !isVec x.sc && Format.engOk opc f x && (bs.drop 40).all (· == 0#8) then
    some { opc := opc, fn := f, ops := x, va := q 2, vb := q 3, vc := q 4 }
  else none

/-- The checks of a record when the engine reaches it (R203). A gather or scatter acts on the lanes active at the FORK,
each with the index in the scalar (DEDUCED, log 25). -/
def State.recPlan (s : State) (m : Cmd) (g : Gang) (mask : Mask) (i : RecInstr) : Checked EngPlan :=
  if i.opc = 0xD0 then s.ecpyPlan g m.crew i.fn.ty i.ops.ext i.va i.vb i.vc
  else if i.opc = 0xD3 then ecollPlan i.fn.sub.toNat i.fn.op.toNat i.fn.ty i.ops.ext i.va i.vb i.vc
  else do
    let addr := perLane mask fun _ => gatherAddr (fld i.ops.ext 51 0) (i.vb % 2 ^ 32) (i.va % 2 ^ 32)
    let r ← rowForm i.vb i.vc
    match addrFault mask addr 4 with
    | some (c, a, _) => .error (c, a)
    | none => match s.regionErr m.crew g.spLen r.2 (32 * r.1) 1 with
      | some e => .error e
      | none => .ok { what := if i.opc = 0xD1 then .egathRow addr r.1 r.2 else .escatRow addr r.1 r.2, tile := none, range := [] }

/-- The record that the program of a command has reached: what it does, or why it fails. -/
inductive Reached where
  | plan (s : State) (p : EngPlan)
  | fail (s : State) (f : CmdFail)
  | kill (s : State) (kind inst a : Nat)
  | none
  deriving DecidableEq, Repr

def State.reached (s : State) (m : Cmd) : Reached :=
  match m.begun with
  | some b => .plan s { what := b.1, tile := b.2, range := [] }
  | none => match m.what with
  | .fork addr _ next mask =>
    match s.readVa m.agent .read (addr + 64 * next) 64 with
    | .ok t bs => match recInstr m.engine bs, t.gang? m.gang with
      | some i, some g => match t.recPlan m g mask i with
        | .ok p => .plan t p
        | .error e => .fail t ⟨e.1, e.2, none⟩
      | none, _ => .fail t ⟨cIllop, 0, none⟩
      | _, none => .fail t ⟨cMemFault, 0, none⟩
    | .fail t c a pa => .fail t (.of c a pa)
    | .kill t k i a => .kill t k i a
    | .wait => .none
  | w => .plan s { what := w, tile := none, range := [] }

/-- A record is over: the next one, or the end of the program. -/
def State.nextRecord (s : State) (k : Nat) (m : Cmd) : State :=
  match m.what with
  | .fork addr count next mask =>
    if next + 1 < count then { s with cmds := Tab.put s.cmds k { m with
      what := .fork addr count (next + 1) mask, begun := none, did := [] } }
    else s.finishCmd k m none zeroLanes
  | _ => s

/-- ENGINE_RECORD_COMPLETE (R203): the record that the program has reached is checked and performed; a failed check
fails the program there. -/
def execEngineRecordComplete (k : Nat) (s : State) : Host.Outcome State Fault Refusal :=
  match Tab.at? s.cmds k with
  | none => s.passOver
  | some m =>
    match m.what with
    | .fork _ _ _ _ =>
      if m.isOver then s.passOver
      else match s.reached m with
        | .none => s.passOver
        | .fail t f => .next (t.finishCmd k m (some f) zeroLanes)
        | .kill t kind inst a => .next ((t.cmdKill m kind inst a).finishCmd k m (some ⟨cPoison, 0, none⟩) zeroLanes)
        | .plan t p => s.endIo k m (t.runRest { m with tile := p.tile } p.what) fun u _ => u.nextRecord k m
    | _ => s.passOver

/-- The model's own happening: command `k`, or the record that its program has reached, performs part `i` of its accesses ahead of
the rest (R205, R401). -/
def State.cmdPart (s : State) (k i : Nat) : Host.Outcome State Fault Refusal :=
  match Tab.at? s.cmds k with
  | none => s.passOver
  | some m =>
    if m.isOver then s.passOver
    else match s.reached m with
      | .plan t p =>
        let m1 := match m.what with
          | .fork _ _ _ _ => { m with begun := some (p.what, p.tile) }
          | _ => m
        if (p.what.parts m.core).1 ≤ i || m.did.contains i || !(p.what.mayPart m.did i) then s.passOver
        else s.endIo k m (t.partCmd { m with tile := match m.what with
            | .fork _ _ _ _ => p.tile
            | _ => m.tile } p.what i 1 m.result) fun u v =>
          { u with cmds := Tab.put u.cmds k { m1 with did := i :: m.did, result := v } }
      | _ => s.passOver

/-! ## Collectives (R202) -/

/-- An ECOLL that waits for its match. -/
structure Coll where
  fn    : Nat
  op    : Nat
  ty    : Ty
  va    : Nat
  count : Nat
  group : Nat
  root  : Nat
  deriving DecidableEq, Repr

/-- The ECOLL that a command, or the record its program has reached, is, with the state that reading the record leaves. -/
def State.collOf (s : State) (m : Cmd) : Option (State × Coll) :=
  if m.isOver then none
  else match s.reached m with
    | .plan t p => match p.what with
      | .ecoll fn op ty va count group root => some (t, ⟨fn, op, ty, va, count, group, root⟩)
      | _ => none
    | _ => none

/-- A group descriptor (R202). -/
structure Group where
  nrank : Nat
  me    : Nat
  tag   : Nat
  ranks : List Nat
  ok    : Bool          -- well formed: sizes, reserved bits, no rank twice, and this die at this rank
  deriving DecidableEq, Repr

/-- Read the descriptor. One that gives this rank another die or device than the command's own counts as malformed (DESIGN
CHOICE, log 83). -/
def State.groupAt (s : State) (m : Cmd) (q : Coll) : Io Group :=
  (s.readVa m.agent .read q.group 16).bind fun t b =>
    let h := ofBytesLE (b.take 8)
    let n := h % 65536
    if n < 2 ∨ 1024 < n ∨ 2 ^ 32 ≤ h then .ok t { nrank := n, me := 0, tag := ofBytesLE (b.drop 8), ranks := [], ok := false }
    else (t.readVa m.agent .read (q.group + 16) (8 * n)).bind fun u r =>
      let rs := (List.range n).map fun j => ofBytesLE ((r.drop (8 * j)).take 8)
      .ok u { nrank := n, me := h / 65536 % 65536, tag := ofBytesLE (b.drop 8), ranks := rs,
              ok := rs.all (fun v => decide (v < 2 ^ 14)) && distinctAll rs && decide (h / 65536 % 65536 < n)
                && decide (q.root < n) && rs.getD (h / 65536 % 65536) 0 == 4096 * dieOf m.core + s.net.id.toNat }
where
  /-- No element occurs twice. -/
  distinctAll : List Nat → Bool
    | [] => true
    | a :: t => !t.contains a && distinctAll t

/-- The elements of a byte list. -/
def elemList (size : Nat) : Nat → List Byte → List Nat
  | 0, _ => []
  | n + 1, bs => ofBytesLE (bs.take size) :: elemList size n (bs.drop size)

/-- The exact sum of floats, rounded once (R136, R202). -/
def sumFloat (F : Num.Fmt) (vs : List Nat) : Nat :=
  let xs := vs.map F.value
  if xs.any Num.FVal.isNaN then F.nanCode
  else match xs.foldl (fun a x => Num.FVal.add .rn a x) (.zero true) with
    | .zero _ => if xs.all fun x => x.isZero && x.isNeg then F.withSign true 0 else 0
    | y => F.round .rn y

/-- Combination of the ranks' values of one element, in rank order (R202). -/
def collCombine (ty : Ty) (op : Nat) (vs : List Nat) : Nat :=
  if op = 0 ∧ (ty = .f32 ∨ ty = .bf16) then sumFloat (Num.fmtOf ty) vs
  else if ty = .bf16 then
    Alu.combine { sub := BitVec.ofNat 4 op, mg := false, md := 0, ty := .f32 } (vs.map (· * 65536)) / 65536
  else Alu.combine { sub := BitVec.ofNat 4 op, mg := false, md := 0, ty := ty } vs

/-- What rank `me` contributes, as a byte range of its buffer: offset and length. `roots`: the ranks that members name as
their root. -/
def Coll.input (q : Coll) (roots : List Nat) (n me : Nat) : Nat × Nat :=
  let b := Ty.size q.ty * q.count
  match q.fn with
  | 1 => if roots.contains me then (0, b) else (0, 0)
  | 3 => (me * b, b)
  | 4 => (0, n * b)
  | _ => (0, b)

/-- The combination of byte buffers of `k` elements. -/
def combineBufs (q : Coll) (k : Nat) (bufs : List (List Byte)) : List Byte :=
  let es := bufs.map (elemList (Ty.size q.ty) k)
  ((List.range k).map fun i => bytesLE (Ty.size q.ty) (collCombine q.ty q.op (es.map fun e => e.getD i 0))).flatten

/-- The bytes that rank `me` receives and where in its buffer, from the contributions in rank order (R202). -/
def Coll.output (q : Coll) (me : Nat) (ins : List (List Byte)) : Nat × List Byte :=
  let b := Ty.size q.ty * q.count
  match q.fn with
  | 0 => if me = q.root then (0, combineBufs q q.count ins) else (0, [])
  | 1 => (0, ins.getD q.root [])
  | 2 => (0, combineBufs q q.count ins)
  | 3 => (0, ins.flatten)
  | _ => (me * b, combineBufs q q.count (ins.map fun i => (i.drop (me * b)).take b))

/-- A local member of a match. -/
structure Member where
  key   : Nat
  cmd   : Cmd
  coll  : Coll
  group : Group
  deriving DecidableEq, Repr

/-- The local commands `ks` with their descriptors: the members, and those whose descriptor cannot be read, with why; `none`
where a key names no waiting ECOLL. A marked word of a descriptor kills the gang that issued the command (R305). -/
def State.meet (s : State) : List Nat → Option (State × List Member × List (Nat × CmdFail))
  | [] => some (s, [], [])
  | k :: ks => match Tab.at? s.cmds k with
    | none => none
    | some m => match s.collOf m with
      | none => none
      | some (t, q) => match t.groupAt m q with
        | .ok u g => (u.meet ks).map fun r => (r.1, { key := k, cmd := m, coll := q, group := g } :: r.2.1, r.2.2)
        | .fail u c a pa => (u.meet ks).map fun r => (r.1, r.2.1, (k, .of c a pa) :: r.2.2)
        | .kill u kind i a => ((u.cmdKill m kind i a).meet ks).map fun r => (r.1, r.2.1, (k, ⟨cPoison, 0, none⟩) :: r.2.2)
        | .wait => none

/-- The TAG of a waiting ECOLL. -/
def State.tagOf (s : State) (m : Cmd) : Option Nat :=
  (s.collOf m).bind fun p => match p.1.groupAt m p.2 with
    | .ok _ g => some g.tag
    | _ => none

/-- An ECOLL of the same rank with the same TAG was issued earlier and waits too: the k-th of a rank meets the k-th of every
other (R202). -/
def State.collBefore (s : State) (p : Member) : Bool :=
  s.cmds.any fun q => decide (q.1 < p.key) && dieOf q.2.core == dieOf p.cmd.core && s.tagOf q.2 == some p.group.tag

/-- Matching members agree as R202 asks. -/
def agree (a b : Member) : Bool :=
  a.coll.fn == b.coll.fn && a.coll.op == b.coll.op && a.coll.ty == b.coll.ty && a.coll.count == b.coll.count
    && a.group.nrank == b.group.nrank

/-- Rank `v` of a list is a die of this device. -/
def State.ownRank (s : State) (v : Nat) : Bool := v % 4096 == s.net.id.toNat

/-- Every die of this device that a member's list names, be the list malformed, is among the members. Where one is malformed, every
die with a waiting ECOLL of the TAG is too: the command fails on every matching rank (R202). -/
def State.allHere (s : State) (ms : List Member) : Bool :=
  let here (d : Nat) : Bool := ms.any fun q => dieOf q.cmd.core == d
  (ms.all fun p => p.group.ranks.all fun v => !(s.ownRank v) || decide (2 ^ 14 ≤ v) || here (v / 4096))
    && (ms.all (fun p => p.group.ok) || ms.all fun p => s.cmds.all fun q =>
      s.tagOf q.2 != some p.group.tag || here (dieOf q.2.core))

/-- A member's list names a rank that cannot be reached (R397). -/
def State.cutOff (s : State) (ms : List Member) : Bool :=
  ms.any fun p => p.group.ranks.any fun v => !s.ownRank v && !s.reachable (.peer (v % 4096))

/-- Named commands fail, each for its reason. -/
def State.failEach (s : State) (fs : List (Nat × CmdFail)) : State :=
  fs.foldl (fun t f => match Tab.at? t.cmds f.1 with
    | some m => t.finishCmd f.1 m (some f.2) zeroLanes
    | none => t) s

/-- Every member fails. -/
def State.failAll (s : State) (ms : List Member) (f : CmdFail) : State := s.failEach (ms.map fun p => (p.key, f))

/-- A failure whose cause the spec does not state: one of those that R205 names. -/
def State.someCause (s : State) : Cause × State :=
  ([cMemFault, cProt, cAlign, cPoison].getD (Config.freePick s.tick % 4) cMemFault, { s with tick := s.tick + 1 })

/-- A command is over with success: the command, or the record of its program. -/
def State.endColl (s : State) (k : Nat) (m : Cmd) : State :=
  match m.what with
  | .fork _ _ _ _ => s.nextRecord k m
  | _ => s.finishCmd k m none zeroLanes

/-- Read the contributions of the local members: bad data fails the collective, and a marked word of a window first kills the
gang that issued the command (R305); `none` where an access waits. -/
def readInputs (roots : List Nat) :
    List Member → State → Option (Except (State × CmdFail) (State × List (Nat × List Byte)))
  | [], s => some (.ok (s, []))
  | p :: ps, s =>
    let r := p.coll.input roots p.group.nrank p.group.me
    match s.readVa p.cmd.agent .read (p.coll.va + r.1) r.2 with
    | .ok t bs => (readInputs roots ps t).map fun v => v.map fun u => (u.1, (p.group.me, bs) :: u.2)
    | .fail t c a pa => some (.error (t, .of c a pa))
    | .kill t kind i a => some (.error (t.cmdKill p.cmd kind i a, ⟨cPoison, 0, none⟩))
    | .wait => none

/-- Write the results of the local members; a failed write fails that member's command. `none` where a write waits. -/
def writeOutputs (ins : List (List Byte)) : List Member → State → Option State
  | [], s => some s
  | p :: ps, s =>
    let r := p.coll.output p.group.me ins
    match s.writeVa p.cmd.agent (p.coll.va + r.1) r.2 with
    | .ok t _ => writeOutputs ins ps (t.endColl p.key p.cmd)
    | .fail t c a pa => writeOutputs ins ps (t.finishCmd p.key p.cmd (some (.of c a pa)) zeroLanes)
    | .kill t kind inst a =>
      writeOutputs ins ps ((t.cmdKill p.cmd kind inst a).finishCmd p.key p.cmd (some ⟨cPoison, 0, none⟩) zeroLanes)
    | .wait => none

/-- The results of the local members are still to be written: each command, or the record of its program, has them to write from now
on. -/
def leaveOutputs (ins : List (List Byte)) (ps : List Member) (s : State) : Option State :=
  some (ps.foldl (fun t p =>
    let r := p.coll.output p.group.me ins
    let w := CmdKind.put (p.coll.va + r.1) r.2
    { t with cmds := Tab.put t.cmds p.key (match p.cmd.what with
        | .fork _ _ _ _ => { p.cmd with begun := some (w, none) }
        | _ => { p.cmd with what := w }) }) s)

/-- The contributions in rank order, or `none` where a rank is missing or doubled. -/
def byRank (n : Nat) (l : List (Nat × List Byte)) : Option (List (List Byte)) :=
  if l.length = n then
    let r := (List.range n).filterMap fun i => (l.find? fun p => p.1 == i).map Prod.snd
    if r.length = n then some r else none
  else none

/-- The members meet: they fail together, or read and combine, and `out` says what becomes of the results (R202). `remote`: what the
ranks of other devices contribute; `fails`: one of those does not agree, or has a malformed descriptor. -/
def State.collect (s : State) (p : Member) (ms : List Member) (remote : List (Nat × List Byte)) (fails : Bool)
    (out : List (List Byte) → List Member → State → Option State) : Option State :=
  if s.cutOff ms then some (s.failAll ms ⟨cPoison, 0, none⟩)
  else if fails || !(ms.all fun q => q.group.ok && agree p q) then
    let r := s.someCause
    some (r.2.failAll ms ⟨r.1, 0, none⟩)
  else
    let n := p.group.nrank
    let roots := ms.map fun q => q.coll.root
    if remote.all fun r => !s.ownRank (p.group.ranks.getD r.1 0) && r.2.length == (p.coll.input roots n r.1).2 then
      (readInputs roots ms s).bind fun v => match v with
        | .error (t, f) => some (t.failAll ms f)
        | .ok (t, loc) => (byRank n (loc ++ remote)).bind fun ins => out ins ms t
    else none

/-- The local ECOLLs `ks`, one for each die of this device that the group names, and the ranks of other devices meet. A command
whose descriptor cannot be read fails alone (log 83). -/
def State.ranksMeet (ks : List Nat) (remote : List (Nat × List Byte)) (fails : Bool)
    (out : List (List Byte) → List Member → State → Option State) (s : State) : Host.Outcome State Fault Refusal :=
  match s.meet ks with
  | none => s.passOver
  | some (t, _, f :: fs) => .next (t.failEach (f :: fs))
  | some (_, [], []) => s.passOver
  | some (t, p :: ms, []) =>
    let all := p :: ms
    if t.allHere all && all.all (fun q => q.group.tag == p.group.tag && !t.collBefore q) then
      match t.collect p all remote fails out with
      | some u => .next u
      | none => s.passOver
    else s.passOver

/-- COLLECTIVE_MATCH (R202): the ranks meet, and the results are written. -/
def execCollectiveMatch (ks : List Nat) (remote : List (Nat × List Byte)) (fails : Bool) (s : State) :
    Host.Outcome State Fault Refusal :=
  s.ranksMeet ks remote fails writeOutputs

/-- The model's own happening: the ranks meet as in COLLECTIVE_MATCH, and the results are written afterwards, in whole or in parts
(R202, R401). -/
def State.collMeet (s : State) (ks : List Nat) (remote : List (Nat × List Byte)) : Host.Outcome State Fault Refusal :=
  s.ranksMeet ks remote false leaveOutputs

end Sys2Proof.Machine
end

