-- ==== Sys2Proof/Machine/FloatAlu.lean ====
section
/-!
DEFINITION. Machine/FloatAlu.lean: FP32 and packed half-precision instructions (R121 to R125).
-/

namespace Sys2Proof.Machine

open Sys2Proof

/-- FADD (R121). -/
def execFadd (f : FnT) (x : Ops) (s : State) : Host.Outcome State Fault Refusal :=
  issueStep 0x40 x false (fun c => laneBinary c f x (Alu.faddE Num.f32 (Alu.modeOf f))) s

/-- FSUB (R121). -/
def execFsub (f : FnT) (x : Ops) (s : State) : Host.Outcome State Fault Refusal :=
  issueStep 0x41 x false (fun c => laneBinary c f x (Alu.fsubE Num.f32 (Alu.modeOf f))) s

/-- FMUL (R121). -/
def execFmul (f : FnT) (x : Ops) (s : State) : Host.Outcome State Fault Refusal :=
  issueStep 0x42 x false (fun c => laneBinary c f x (Alu.fmulE Num.f32 (Alu.modeOf f))) s

/-- FFMA (R121). -/
def execFfma (f : FnT) (x : Ops) (s : State) : Host.Outcome State Fault Refusal :=
  issueStep 0x43 x false (fun c => laneTernary c f x (Alu.ffmaE Num.f32 (Alu.modeOf f))) s

/-- FMIN (R122). -/
def execFmin (f : FnT) (x : Ops) (s : State) : Host.Outcome State Fault Refusal :=
  issueStep 0x44 x false (fun c => laneBinary c f x Alu.fmin) s

/-- FMAX (R122). -/
def execFmax (f : FnT) (x : Ops) (s : State) : Host.Outcome State Fault Refusal :=
  issueStep 0x45 x false (fun c => laneBinary c f x Alu.fmax) s

/-- FCMP (R118, R122). -/
def bodyFcmp (c : Nat) (f : FnT) (x : Ops) : M Unit := do
  let va ← readSrc c x.head x.sa false
  let vb ← readB c f.ty false x
  writeCond c f x fun i => Alu.fcmp f va[i].toNat vb[i].toNat

/-- FCMP (R118, R122). -/
def execFcmp (f : FnT) (x : Ops) (s : State) : Host.Outcome State Fault Refusal :=
  issueStep 0x46 x false (fun c => bodyFcmp c f x) s

/-- FRCP (R123). -/
def execFrcp (f : FnT) (x : Ops) (s : State) : Host.Outcome State Fault Refusal :=
  issueStep 0x47 x false (fun c => laneUnary c f x Alu.frcp) s

/-- FRSQ (R123). -/
def execFrsq (f : FnT) (x : Ops) (s : State) : Host.Outcome State Fault Refusal :=
  issueStep 0x48 x false (fun c => laneUnary c f x Alu.frsq) s

/-- FSQRT (R121). -/
def execFsqrt (f : FnT) (x : Ops) (s : State) : Host.Outcome State Fault Refusal :=
  issueStep 0x49 x false (fun c => laneUnary c f x (Alu.fsqrt (Alu.modeOf f))) s

/-- FEXP2 (R123). -/
def execFexp2 (f : FnT) (x : Ops) (s : State) : Host.Outcome State Fault Refusal :=
  issueStep 0x4A x false (fun c => laneUnary c f x Alu.fexp2) s

/-- FLOG2 (R123). -/
def execFlog2 (f : FnT) (x : Ops) (s : State) : Host.Outcome State Fault Refusal :=
  issueStep 0x4B x false (fun c => laneUnary c f x Alu.flog2) s

/-- FTANH (R123). -/
def execFtanh (f : FnT) (x : Ops) (s : State) : Host.Outcome State Fault Refusal :=
  issueStep 0x4C x false (fun c => laneUnary c f x Alu.ftanh) s

/-- FCLASS (R124): the result is 32 bits whatever the type. -/
def bodyFclass (c : Nat) (f : FnT) (x : Ops) : M Unit := do
  let va ← readSrc c x.head x.sa false
  let old ← readMerge c f x
  let m ← emask c x.head
  let r (i : Fin 32) : DWord := BitVec.ofNat 64 (Alu.fclass f.ty va[i].toNat)
  if x.head.uni then writeScalar c x.dst (r 0) else storeVec c x false old (Vector.ofFn r) m

/-- FCLASS (R124). -/
def execFclass (f : FnT) (x : Ops) (s : State) : Host.Outcome State Fault Refusal :=
  issueStep 0x4D x false (fun c => bodyFclass c f x) s

/-- HADD (R125). -/
def execHadd (f : FnT) (x : Ops) (s : State) : Host.Outcome State Fault Refusal :=
  issueStep 0x50 x false (fun c => laneBinary c f x (fun a b => Alu.packed f.ty (fun F p q _ => Alu.faddE F (Alu.modeOf f) p q) a b 0)) s

/-- HMUL (R125). -/
def execHmul (f : FnT) (x : Ops) (s : State) : Host.Outcome State Fault Refusal :=
  issueStep 0x51 x false (fun c => laneBinary c f x (fun a b => Alu.packed f.ty (fun F p q _ => Alu.fmulE F (Alu.modeOf f) p q) a b 0)) s

/-- HFMA (R125). -/
def execHfma (f : FnT) (x : Ops) (s : State) : Host.Outcome State Fault Refusal :=
  issueStep 0x52 x false (fun c => laneTernary c f x (Alu.packed f.ty fun F p q r => Alu.ffmaE F (Alu.modeOf f) p q r)) s

end Sys2Proof.Machine
end

