-- ==== Sys2Proof/Machine/MemEvents.lean ====
section
/-!
DEFINITION. Machine/MemEvents.lean: what becomes of an issued memory instruction: its translation, its lanes performed in
memory, through windows and in value-store entries, and its data arriving (R17, R18, R161 to R165, R169, R171, R177,
R178, R245 to R247, R252 to R256, R312).
-/

namespace Sys2Proof.Machine

open Sys2Proof

/-- The access `a` of crew `c`. -/
def State.access? (s : State) (c a : Nat) : Option (Crew × Access) :=
  match s.crew? c with
  | none => none
  | some x => (x.acc.find? fun b => b.id == a).map fun b => (x, b)

/-- LANES of a fault of an access: the lanes given, or the effective mask for a scalar form (log 20). -/
def Access.faultMask (a : Access) (x : Crew) (lanes : Mask) : Mask :=
  if a.isScalar then a.snap.arch.act &&& ~~~ x.dead else lanes

/-- A fault of an access after its issue (R21, R23). -/
def State.accessTrap (s : State) (c : Nat) (a : Access) (cause : Cause) (addr : Nat) (lanes : Mask) : State :=
  match s.crew? c with
  | none => s
  | some x => s.takeTrap c cause addr (a.faultMask x lanes) a.pc ⟨x.arch, x.seq⟩

/-- The gang of crew `c` is killed by bad data that its access consumed (R305, R312). -/
def State.killPoison (s : State) (c : Nat) (pc kind inst addr : Nat) : State :=
  match s.crew? c with
  | none => s
  | some x => s.gangKill x.gang
      { cause := cPoison, kind := kind, inst := inst, addr := addr, crew := s.crewId x, pc := pc, again := true }

/-! ## TRANSLATION_WALK_COMPLETE -/

/-- Translate lanes in ascending order; the outcomes and the state with its TLBs filled. -/
def xlatLanes (x : Crew) (a : Access) : List (Fin 32) → State → List (Nat × Xlat) × State
  | [], s => ([], s)
  | l :: ls, s =>
    let r := s.laneXlat x a (at0 a.addr l.val)
    let q := xlatLanes x a ls r.2
    ((l.val, r.1) :: q.1, q.2)

/-- The cause of the lowest faulting lane of a list of outcomes, that lane, and every lane that has the cause. -/
def firstFault (rs : List (Nat × Xlat)) : Option (Cause × Nat × Mask) :=
  match rs.find? fun r => match r.2 with
    | .fault _ => true
    | _ => false with
  | some (l, .fault c) => some (c, l, maskOf fun i => rs.contains (i.val, .fault c))
  | _ => none

/-- The canaries of the units that the walks of an access meet, for lanes that no TLB serves. -/
def State.walkCanaries (s : State) (x : Crew) (a : Access) : State :=
  let ctx := s.ctxOf x
  let core := s.coreOf x
  if a.spad then s
  else (lanesOf a.lanes).foldl (fun t l =>
    let va := at0 a.addr l.val
    if (s.tlbHit (some core) (dieOf core) ctx va).isSome then t else t.passWalk ctx va) s

/-- TRANSLATION_WALK_COMPLETE (R161, R252 to R256): every lane of the access is translated, or the instruction faults. -/
def execTranslationWalkComplete (c a : Nat) (s : State) : Host.Outcome State Fault Refusal :=
  match s.access? c a with
  | none => s.passOver
  | some (x, b) =>
    if b.place.isSome then s.passOver
    else
      let q := xlatLanes x b (lanesOf b.lanes) (s.walkCanaries x b)
      match q.1.find? fun r => r.2 == .poison with
      | some (l, _) =>
        let pa := s.badPte (s.ctxOf x) (at0 b.addr l)
        .next (q.2.killPoison c b.pc.toNat (q.2.lineUnit pa).1 (q.2.lineUnit pa).2 pa)
      | none => match firstFault q.1 with
        | some (cause, l, m) => .next (q.2.accessTrap c b cause (at0 b.addr l) m)
        | none =>
          let leased (l : Fin 32) : Bool := match s.gang? x.gang with
            | some g => match s.ownSpad x g (at0 b.addr l.val) with
              | some o => s.leased c o b.size
              | none => false
            | none => false
          let bad := lanesWith b.lanes leased
          match lanesOf bad with
          | l :: _ => .next (q.2.accessTrap c b cLease (at0 b.addr l.val) bad)
          | [] =>
            let place := q.1.filterMap fun r => match r.2 with
              | .ok p => some (r.1, p)
              | _ => none
            .next (q.2.modCrew c fun y => y.setAccess { b with place := some place })

/-! ## When lanes may be performed (R168, R169, R172, R177) -/

/-- The accesses of a crew before `a`. -/
def Crew.before (x : Crew) (a : Nat) : List Access := x.acc.takeWhile fun b => b.id != a

/-- The access is an atomic. -/
def Access.isRmw (a : Access) : Bool :=
  match a.kind with
  | .rmw _ => true
  | _ => false

/-- An acquire comes after the crew's older releases and atomics: a program without races sees sequentially consistent results
only (R174). -/
def Access.yieldsTo (a b : Access) : Bool := a.acquires && (b.ord == 2 || b.ord == 3 || b.isRmw)

/-- A lane of an access meets what an earlier matrix instruction of the crew still has to read or to write (R155, R169). -/
def State.meetsMatrix (s : State) (c : Nat) (x : Crew) (a : Access) (here : List (Nat × Place)) : Bool :=
  let core := s.coreOf x
  match s.gang? x.gang with
  | none => false
  | some g => (s.core core).mats.any fun m => m.crew == c && decide (m.seq < a.snap.seq)
      && (m.touches core (spadPa core g.spad)).any fun r => here.any fun p => overlap p.2.pa a.size r.1 r.2

/-- Lanes of access `a` of crew `c` may be performed now: its older acquires are over, and so are the older accesses and
matrix instructions of the crew on the same bytes, and those that an acquire yields to. -/
def State.mayPerform (s : State) (c : Nat) (x : Crew) (a : Access) (lanes : Mask) : Bool :=
  let here := (s.placesOf x a).filter fun p => lanes.getLsbD p.1
  a.place.isSome && lanes != 0 && (lanes &&& ~~~ (a.lanes &&& ~~~ a.done)) == 0
    && !(s.meetsMatrix c x a here)
    && (x.before a.id).all fun b => !b.acquires && !a.yieldsTo b
      && ((s.placesOf x b).filter fun q => !b.done.getLsbD q.1).all fun q => here.all fun p =>
          !(overlap p.2.pa a.size q.2.pa b.size)

/-- An atomic's lanes on one location are performed together (R177). -/
def Access.together (a : Access) (lanes : Mask) : Bool :=
  match a.kind, a.place with
  | .rmw _, some t => t.all fun p => t.all fun q =>
      !(p.2.pa == q.2.pa) || (lanes.getLsbD p.1 == lanes.getLsbD q.1)
  | _, _ => true

/-- The lane is reached through an on-chip window. -/
def Access.windowLane (a : Access) (l : Nat) : Bool := !a.spad && inWindow (at0 a.addr l)

/-- The lane writes a value-store entry. -/
def Access.entryLane (a : Access) (l : Nat) : Bool :=
  a.windowLane l && decide (0x200000 ≤ (at0 a.addr l - winBase) % 0x800000)
    && decide ((at0 a.addr l - winBase) % 0x800000 < 0x280000)

/-! ## Canaries met by an access (R318) -/

/-- A plain load that the L1 of its core serves (R247). -/
def State.servedByL1 (s : State) (core : Nat) (a : Access) (p : Place) : Bool :=
  a.kind == .load && a.ord == 0 && !(s.badFor p.key p.pa a.size) && (match Tab.at? (s.core core).lines (p.pa / 128) with
    | some l => l.key == p.key
    | none => false)

/-- The units whose detectors an access passes: of a load that the L1 serves, the L1 alone. -/
def touched (s : State) (core : Nat) (a : Access) (p : Place) : List Passed :=
  let pa := p.pa
  let exit := if a.kind = .load then some (4, dieOf core) else none
  match regionOf pa with
  | .window k off => [(windowKind off, coreInst k, none)]
  | .hbm =>
    if a.isRmw then (0x08, instOf (hbmDie pa) 0, none) :: s.farUnits pa false
    else if s.servedByL1 core a p then [(0x06, coreInst core, exit)]
    else [(0x06, coreInst core, exit), (0x07, sliceInst core, none)] ++ s.farUnits pa false
  | _ => s.farUnits pa (a.kind != .load)

/-- The canaries of the units that the lanes of an access meet. -/
def State.canaries (s : State) (x : Crew) (a : Access) (lanes : Mask) : State :=
  let core := s.coreOf x
  match a.place with
  | none => s
  | some t => (t.filter fun p => lanes.getLsbD p.1).foldl (fun u p =>
      u.passUnits (some (s.ctxOf x)) p.2.pa (touched s core a p.2)) s

/-! ## MEMORY_ACCESS_PERFORMED -/

/-- Who reads on-chip words in an access of a crew. -/
def State.accessReader (s : State) (x : Crew) (a : Access) : Reader :=
  { gang := x.gang, crew := s.crewId x, pc := a.pc.toNat }

/-- The outcome of performing lanes as a next state; an acquire that is over empties the L1 as its scope says (R247). -/
def afterPerform (s : State) (c : Nat) (a : Access) (r : PerfRes) : Host.Outcome State Fault Refusal :=
  match r with
  | .wait => s.passOver
  | .kill t kind inst addr => .next (t.killPoison c a.pc.toNat kind inst addr)
  | .ok t =>
    let isOver := match t.access? c a.id with
      | some _ => false
      | none => true
    if a.acquires && isOver then .next (t.acquireL1 (match s.crew? c with
        | some x => s.coreOf x
        | none => 0) a.scope.toNat)
    else .next t

/-- The lanes of an access that address a line: the lowest, and all of them. -/
def Access.lanesAt (a : Access) (line : Nat) : Nat × Mask :=
  let here := (a.place.getD []).filter fun p => p.2.pa / 128 == line
  ((here.headD (0, ⟨0, 0⟩)).1, maskOf fun i => here.any fun q => q.1 == i.val)

/-- The poisoned sync line that the lowest of some lanes of an access meets: the line, the lowest lane of the access that
addresses it, and all its lanes that do (R178). -/
def State.syncLanes (s : State) (a : Access) (lanes : Mask) : Option (Nat × Nat × Mask) :=
  ((a.place.getD []).find? fun p => lanes.getLsbD p.1 && regionOf p.2.pa == .hbm && s.syncFor p.2.key p.2.pa a.size).map fun p =>
    let line := p.2.pa / 128
    (line, a.lanesAt line)

/-- A trap POISON for a sync line; the context has trapped on it (R108, R178). -/
def State.syncTrap (s : State) (c : Nat) (x : Crew) (a : Access) (line l : Nat) (m : Mask) : State :=
  (s.notePoison (s.ctxOf x) (128 * line)).accessTrap c a cPoison (at0 a.addr l) m

/-- Whose access it is, for an error record (R323): a memory instruction takes no engine number. -/
def State.accessWho (s : State) (x : Crew) (a : Access) : Rec :=
  let r := s.accessReader x a
  { Rec.of (some (s.ctxOf x)) 0 0 0 with crew := r.crew, pc := r.pc }

/-- The lines of those of some lanes of an access that satisfy `p`, for the first time: the lanes of an access present each line
once (R162), and a lane that failed before has been recorded with its line. -/
def Access.newLines (a : Access) (lanes : Mask) (p : Place → Bool) : List Nat :=
  let of_ (m : Mask) : List Nat :=
    ((a.place.getD []).filter fun q => m.getLsbD q.1 && p q.2).map fun q => q.2.pa / 128
  (of_ lanes).eraseDups.filter fun n => !(of_ a.bad).contains n

/-- The lines of some lanes of an access whose request meets R392. -/
def State.lostLines (s : State) (a : Access) (lanes : Mask) : List Nat :=
  a.newLines lanes fun p => !a.spad && !(s.answers p.pa a.size)

/-- One record for each request for a line that met R392. -/
def State.linkRecords (s : State) (who : Rec) (lines : List Nat) : State :=
  lines.foldl (fun t n => t.linkRecord who (regionOf (128 * n)) (128 * n)) s

/-- MEMORY_ACCESS_PERFORMED (R18, R163, R164, R177): lanes of an access take their place in memory. -/
def execMemoryAccessPerformed (c a : Nat) (lanes : Mask) (s : State) : Host.Outcome State Fault Refusal :=
  match s.access? c a with
  | none => s.passOver
  | some (x, b) =>
    if !(s.mayPerform c x b lanes && b.together lanes && (lanesOf lanes).all fun l => !b.windowLane l.val) then s.passOver
    else match s.syncLanes b lanes with
      | some (line, l, m) => .next ((s.canaries x b lanes).syncTrap c x b line l m)
      | none =>
        let core := s.coreOf x
        let r := s.accessReader x b
        let one := fun (t : State) (d : Access) (l : Nat) (p : Place) =>
          if d.spad then performChip t core r d l p.pa else performMem t core d l p
        afterPerform s c b (performLanes one c (lanesOf lanes) b ((s.canaries x b lanes).linkRecords (s.accessWho x b)
          (s.lostLines b lanes)))

/-! ## Windows -/

/-- The window checks of the lanes that are left, made again when some are performed. -/
def State.recheck (s : State) (x : Crew) (a : Access) (ls : List (Fin 32)) : List (Nat × Xlat) :=
  ls.map fun l => (l.val, (s.laneXlat x a (at0 a.addr l.val)).1)

/-- Lanes `m` of an access, some of those of `all`, are performed through a window: all are checked, and `m` performed in
the order `ls` through `one`. -/
def State.throughWindow (s : State) (x : Crew) (c : Nat) (b : Access) (all m : Mask) (ls : List (Fin 32))
    (one : State → Access → Nat → Place → LaneRes) : Host.Outcome State Fault Refusal :=
  if !(s.mayPerform c x b m && m &&& ~~~ all == 0) then s.passOver
  else match firstFault (s.recheck x b (lanesOf all)) with
    | some (cause, l, f) => .next (s.accessTrap c b cause (at0 b.addr l) f)
    | none => afterPerform s c b (performLanes one c ls b (s.canaries x b m))

/-- One lane on a scratchpad, accumulator or B-stack window. -/
def windowOne (x : Crew) (t : State) (d : Access) (l : Nat) (_ : Place) : LaneRes :=
  match (t.laneXlat x d (at0 d.addr l)).1 with
  | .ok p => performChip t ((p.pa - winBase) / 0x800000) (t.accessReader x d) d l p.pa
  | _ => .wait

/-- WINDOW_READ (R245, R246): window lanes of an access that name no value-store entry are checked and performed. -/
def execWindowRead (c : Nat) (a : Nat × Mask) (s : State) : Host.Outcome State Fault Refusal :=
  match s.access? c a.1 with
  | none => s.passOver
  | some (x, b) =>
    let all := lanesWith (b.lanes &&& ~~~ b.done) fun l => b.windowLane l.val && !b.entryLane l.val
    s.throughWindow x c b all a.2 (lanesOf a.2) (windowOne x)

/-- The words of a lane's write are filled already. -/
def State.filledLane (s : State) (a : Access) (l : Nat) : Bool :=
  let w := at0 a.addr l - winBase
  match Tab.at? (s.core (w / 0x800000)).vs ((w % 0x800000 - 0x200000) / 128) with
  | some e => (List.range (a.size / 4)).all fun i => e.fill.getLsbD ((w % 0x800000) % 128 / 4 + i)
  | none => false

/-- One lane on a value-store entry: its words are filled or logged; a lane whose bytes a higher lane writes too does
nothing (R164). -/
def entryOne (x : Crew) (t : State) (d : Access) (l : Nat) (_ : Place) : LaneRes :=
  let w := at0 d.addr l - winBase
  if !(winsByte d l (at0 d.addr l)) then .ok t 0
  else match (t.laneXlat x d (at0 d.addr l)).1 with
    | .ok _ => match t.writeEntry (t.ctxOf x) (w / 0x800000) (w % 0x800000) d.size (at0 d.datB l) with
      | some u => .ok u 0
      | none => .wait
    | _ => .wait

/-- WINDOW_WRITE (R17, R93, R246, R290): lanes of a store that name value-store entries fill words of open entries, are
logged for an absent crew, or fault. Words that are filled already come first, so that the last new word binds the
entry. -/
def execWindowWrite (c : Nat) (a : Nat × Mask) (s : State) : Host.Outcome State Fault Refusal :=
  match s.access? c a.1 with
  | none => s.passOver
  | some (x, b) =>
    let all := lanesWith (b.lanes &&& ~~~ b.done) fun l => b.entryLane l.val
    let ls := (lanesOf a.2).filter (fun l => s.filledLane b l.val)
      ++ (lanesOf a.2).filter (fun l => !s.filledLane b l.val)
    s.throughWindow x c b all a.2 ls (entryOne x)

/-! ## LOAD_DATA_ARRIVAL -/

/-- The lanes of half `h` of arrived data (R163). -/
def Arrival.lanesOf (d : Arrival) (h : Nat) : Lanes :=
  Vector.ofFn fun i => if d.lanes[i] then BitVec.ofNat 32 (at0 d.value i.val / 2 ^ (32 * h)) else 0#32

/-- An entry after its data has arrived: bound, or over if its name was dropped (R17). `ckpt`: the owner's checkpoint;
`none` for a crew that has retired. -/
def Entry.arrive (e : Entry) (ckpt : Option Nat) (v : Lanes) (bad : Mask) : Option Entry :=
  let b := { e with st := .bound, lanes := v, bad := bad }
  match ckpt with
  | none => none
  | some k => if e.gone then (if e.rel < k then none else some { b with st := .released, gone := false }) else some b

/-- Data for access `a` lands in the entries that wait for it in a table. -/
def landTab (s : State) (a : Nat) (d : Arrival) (t : Tab Entry) : Tab Entry :=
  t.filterMap fun p =>
    let e := p.2
    if e.st = .pending ∧ e.tag / 2 = a ∧ e.crew = d.crew then
      (e.arrive ((s.crew? e.crew).map Crew.ckptSeq) (d.lanesOf (e.tag % 2)) d.bad).map fun b => (p.1, b)
    else some p

/-- LOAD_DATA_ARRIVAL (R17, R163, R165): data binds its entry, or lands in its spill image, or completes a scalar. -/
def execLoadDataArrival (a : Nat) (s : State) : Host.Outcome State Fault Refusal :=
  match Tab.at? s.arrive a with
  | none => s.passOver
  | some d =>
    let s1 := { s with arrive := Tab.del s.arrive a }
    match d.dest with
    | .none => .next s1
    | .scalar r =>
      .next ((s1.modCrew d.crew fun x =>
        { x.heal (.scalar r) with
          arch := x.arch.setScalar r (extend d.ty (at0 d.value 0)),
          park := if x.park = some (.scalar a) then none else x.park }).respill d.crew)
    | .name _ _ =>
      .next ({ s1 with
        cores := Tab.mapV s1.cores fun _ k => { k with vs := landTab s a d k.vs },
        crews := Tab.mapV s1.crews fun _ x => { x with image := landTab s a d x.image } }.respill d.crew)

end Sys2Proof.Machine
end

