-- ==== Sys2Proof/Machine/Reliability.lean ====
section
/-!
DEFINITION. Machine/Reliability.lean: corrected and uncorrectable errors, lifetime records, revocation, ceilings and the
clearing of poisoned lines (R178, R305 to R321, R403).
-/

namespace Sys2Proof.Machine

open Sys2Proof

/-! ## Units (R305) -/

/-- Instances of a KIND on one of its dies. -/
def unitCount (kind : Nat) : Nat :=
  match kind with
  | 0x07 => 6
  | 0x08 => 1
  | 0x09 => 3
  | 0x0B => 1
  | 0x0C => 4
  | 0x0D => 18
  | _ => 48

/-- The unit instance exists. -/
def unitExists (kind inst : Nat) : Bool :=
  decide (1 ≤ kind) && decide (kind ≤ 0x0D) && decide (inst % 4096 < unitCount kind)
    && (if 0x0B ≤ kind then inst / 4096 == 4 else decide (inst / 4096 < 4))

/-- The unit has a lifetime record (R319). -/
def hasLife (kind : Nat) : Bool := decide (1 ≤ kind) && decide (kind ≤ 0x0A)

def State.life (s : State) (kind inst : Nat) : Life := Tab.getD s.rel.life (unitKey kind inst) Life.fresh

def State.modLife (s : State) (kind inst : Nat) (f : Life → Life) : State :=
  if hasLife kind then { s with rel := { s.rel with life := Tab.put s.rel.life (unitKey kind inst) (f (s.life kind inst)) } }
  else s

/-! ## CORRECTED_ERROR (R305, R309, R319 to R321) -/

/-- One corrected error more at the present step and band; counters stop at their maximum. -/
def Life.countCe (l : Life) (step band : Nat) : Life :=
  { l with hist := Tab.put l.hist (8 * step + band) (min (Tab.getD l.hist (8 * step + band) 0 + 1) (2 ^ 32 - 1)) }

/-- The voltage domain returns to step 0 and stays there (R320). DEDUCED: a revoked step stays 0 until it is written
(log 39). -/
def State.revoke (s : State) (kind inst d : Nat) : State :=
  let die := inst / 4096
  let s1 := (s.setUv die d { step := 0, rev := true }).modLife kind inst fun l => { l with revoked := true }
  (s1.record { Rec.of none 0x09 kind inst with detail := 4 * die + d }).evaluate 5 true

/-- Another instance of the domain crossed at the same moment: the domain is revoked once, and each has its record (R320). -/
def State.revokeToo (s : State) (kind inst d : Nat) : State :=
  (s.modLife kind inst fun l => { l with revoked := true }).record
    { Rec.of none 0x09 kind inst with detail := 4 * (inst / 4096) + d }

/-- The ceiling of a clock domain falls by one eighth, down to 4; the unit's record holds it where it fell (R319, R321). -/
def State.lowerCeiling (s : State) (kind inst d : Nat) : State :=
  let old := s.arb.ceil.toList.getD d 4
  let new := max 4 (old - 1)
  let s1 := { s with arb := { s.arb with ceil := s.arb.ceil.setIfInBounds d new } }
  let s2 := if new < old then s1.modLife kind inst fun l => { l with ceil := BitVec.ofNat 4 new } else s1
  let s3 := s2.record { Rec.of none 0x0A kind inst with detail := d + new * 16 }
  if new < old then s3.evaluate 6 true else s3

/-- One corrected error of a unit instance is counted, and recorded where it is the first of its window (R309, R319, R320). -/
def State.countError (s : State) (kind : BitVec 8) (inst : BitVec 16) (addr : DWord) : State :=
  let k := kind.toNat
  let i := inst.toNat
  let n := Tab.getD s.rel.window (unitKey k i) 0 + 1
  let s1 := { s with rel := { s.rel with window := Tab.put s.rel.window (unitKey k i) n } }
  let s2 := s1.modLife k i fun l => l.countCe (s.unitStep k i) s.arb.band
  if n = 1 then s2.record { Rec.of none 0x01 k i with addr := addr.toNat } else s2

/-- The count of an instance is the first of the window above its threshold (R320). -/
def State.crosses (s : State) (kind : BitVec 8) (inst : BitVec 16) : Bool :=
  Tab.getD s.rel.window (unitKey kind.toNat inst.toNat) 0 == Config.errThreshold kind + 1

/-- An instance crossed its threshold while its domain ran at `step`: the step is revoked, or the ceiling falls (R320, R321).
`told`: the domains, by die and domain, that were revoked at this moment already. -/
def State.crossed (s : State) (told : List (Nat × Nat)) (kind inst step : Nat) : State × List (Nat × Nat) :=
  match kindDomain kind with
  | none => (s, told)
  | some d =>
    if 0 < step then
      let v := (inst / 4096, d)
      if told.contains v then (s.revokeToo kind inst d, told) else (s.revoke kind inst d, v :: told)
    else (s.lowerCeiling kind inst d, told)

/-- Corrected errors of one moment are counted, in order; with the instances that crossed their threshold and the steps at
which they did. -/
def State.countAll (s : State) : List (BitVec 8 × BitVec 16 × DWord) → State × List (Nat × Nat × Nat)
  | [] => (s, [])
  | e :: es =>
    let t := s.countError e.1 e.2.1 e.2.2
    let r := t.countAll es
    (r.1, if t.crosses e.1 e.2.1 then (e.1.toNat, e.2.1.toNat, t.unitStep e.1.toNat e.2.1.toNat) :: r.2 else r.2)

/-- Instances that crossed at one moment act, in order. -/
def State.crossAll (s : State) (told : List (Nat × Nat)) : List (Nat × Nat × Nat) → State
  | [] => s
  | e :: es =>
    let r := s.crossed told e.1 e.2.1 e.2.2
    r.1.crossAll r.2 es

/-- Corrected errors of one moment: all are counted at the steps of that moment, and then those that crossed act (R319,
R320). -/
def State.correct (s : State) (es : List (BitVec 8 × BitVec 16 × DWord)) : State :=
  let r := s.countAll es
  r.1.crossAll [] r.2

/-- CORRECTED_ERROR (R305, R309, R319 to R321): counted; the first of a window is recorded; the one by which the count
crosses the threshold revokes the undervolt step, or lowers the ceiling. With the address come the errors of other instances
at the same moment. -/
def execCorrectedError (kind : BitVec 8) (inst : BitVec 16) (addr : DWord × List (BitVec 8 × BitVec 16 × DWord))
    (s : State) : Host.Outcome State Fault Refusal :=
  let all := (kind, inst, addr.1) :: addr.2
  if all.all fun e => unitExists e.1.toNat e.2.1.toNat then .next (s.correct all) else s.passOver

/-- RATE_WINDOW_EXPIRY (R320). -/
def execRateWindowExpiry (s : State) : Host.Outcome State Fault Refusal := .next { s with rel := { s.rel with window := [] } }

/-- ERRSTAT_OVF_CLEAR (R306). -/
def execErrstatOvfClear (s : State) : Host.Outcome State Fault Refusal :=
  .next { s with rel := { s.rel with ovf := false, drops := 0 } }

/-- ONTIME_TICK (R319): every lifetime record's ONTIME. -/
def execOntimeTick (s : State) : Host.Outcome State Fault Refusal :=
  .next { s with rel := { s.rel with ontime := min (s.rel.ontime + 1) (2 ^ 64 - 1) } }

/-! ## UNCORRECTABLE_ERROR (R305, R310, R312, R316, R178, R403) -/

/-- A line of HBM becomes poisoned; a line that is so already is not reported again (R312). `slice`: the L2 slice that held
the bad data, where one did (R402). -/
def State.poisonLine (s : State) (line : Nat) (slice : Option Nat) (r : Rec) : State :=
  if s.poison.contains line then s
  else { s with poison := line :: s.poison,
                sliceBad := match slice with
                  | some i => Tab.put s.sliceBad line i
                  | none => Tab.del s.sliceBad line }.record r

/-- Crews with an atomic on the line outstanding trap POISON (R178). -/
def State.trapAtomics (s : State) (line : Nat) : State :=
  (Tab.keysWhere s.crews fun _ x => x.resident).foldl (fun t c =>
    match t.crew? c with
    | none => t
    | some x =>
      match x.acc.find? fun a => a.isRmw && !a.spad && (a.lanesAt line).2 != 0 with
      | some a => t.syncTrap c x a line (a.lanesAt line).1 (a.lanesAt line).2
      | none => t) s

/-- A line of a sync engine becomes poisoned (R178). -/
def State.poisonSync (s : State) (line inst : Nat) : State :=
  if s.syncBad.contains line then s
  else ({ s with syncBad := line :: s.syncBad }.record { Rec.of none 0x04 0x08 inst with addr := 128 * line }).trapAtomics line

/-- The unit of an on-chip word (R305). -/
def wordKind (pa : Nat) : Nat :=
  let off := (pa - winBase) % 0x800000
  if off < 0x100000 then 0x02 else if off < 0x200000 then 0x03 else 0x04

/-- An on-chip word exists. -/
def wordExists (pa : Nat) : Bool :=
  let off := (pa - winBase) % 0x800000
  inWindow pa && (decide (off < 0x60000) || (decide (0x100000 ≤ off) && decide (off < 0x140000)) || decide (0x400000 ≤ off))

/-- The place of an error belongs to the unit. -/
def locFits (loc : ErrLoc) (s : State) (kind inst : Nat) : Bool :=
  match loc with
  | .slot core entry lane => kind == 0x01 && inst == coreInst core && decide (entry < 4096) && decide (lane < 32)
  | .word pa => wordExists pa && kind == wordKind pa && inst == coreInst ((pa - winBase) / 0x800000)
  | .array core => kind == 0x05 && inst == coreInst core
  | .line pa => hbmOk pa 1 && ((kind == 0x09 && inst == stackInst pa) || kind == 0x07)
  | .check pa entry exit => kind == 0x0E && hbmOk pa 1 && inst % 4096 == 0 && decide (inst / 4096 ≤ 4)
      && decide (1 ≤ entry.toNat ∧ entry.toNat ≤ 4 ∧ 1 ≤ exit.toNat ∧ exit.toNat ≤ 4)
  | .sync pa => hbmOk pa 1 && kind == 0x08 && inst == instOf (hbmDie pa) 0
  | .crew c _ => kind == 0x0A && (match s.crew? c with
    | some x => x.resident && inst == coreInst (s.coreOf x)
    | none => false)

/-- The step of the matrix array that failed twice kills the gang that issued it, unless it has been killed already. -/
def State.arrayFails (s : State) (core : Nat) : Option State :=
  match (s.core core).mats with
  | [] => none
  | o :: _ => some (if s.isFrozen o.gang then s else s.gangKill o.gang
      { cause := cPoison, kind := 0x05, inst := coreInst core, addr := 0,
        crew := match s.crew? o.crew with
          | some x => s.crewId x
          | none => 0,
        pc := o.pc.toNat, again := true })

/-- The mark that an error leaves, or the outcome it has at once. -/
def State.markError (s : State) (kind inst : Nat) (loc : ErrLoc) : Option State :=
  match loc with
  | .slot core entry lane => match Tab.at? (s.core core).vs entry with
    | none => some s
    | some e => some (s.modCore core fun k => { k with vs := Tab.put k.vs entry { e with bad := e.bad ||| laneBit lane } })
  | .word pa => some { s with badWord := if s.badWord.contains (pa / 4) then s.badWord else s.badWord ++ [pa / 4] }
  | .array core => s.arrayFails core
  | .line pa => some (s.poisonLine (pa / 128) (if kind = 0x07 then some inst else none)
      { Rec.of none 0x05 kind inst with addr := pa / 128 * 128 })
  | .check pa entry exit => some (s.poisonLine (pa / 128) none
      { Rec.of none 0x06 0x0E inst with addr := pa / 128 * 128, detail := entry.toNat + exit.toNat * 16 })
  | .sync pa => some (s.poisonSync (pa / 128) inst)
  | .crew c item => some (s.modCrew c fun x => { x with marks := if x.marks.contains item then x.marks else x.marks ++ [item] })

/-- UNCORRECTABLE_ERROR (R305, R403): the data is marked, and its outcome is taken when it is consumed. -/
def execUncorrectableError (kind : BitVec 8) (inst : BitVec 16) (loc : ErrLoc) (s : State) :
    Host.Outcome State Fault Refusal :=
  let k := kind.toNat
  let i := inst.toNat
  if !((k == 0x0E || unitExists k i) && locFits loc s k i) then s.passOver
  else match (s.modLife k i fun l => { l with ue := min (l.ue + 1) (2 ^ 64 - 1) }).markError k i loc with
    | none => s.passOver
    | some t => .next t

/-! ## POISONCLR (R315) -/

/-- The line is zero, its marks gone, and every context that trapped on it is told. -/
def State.clearLine (s : State) (line : Nat) : State :=
  let s1 := { s with mem := s.mem.clear (128 * line) 128, poison := s.poison.filter (· != line),
                     sliceBad := Tab.del s.sliceBad line, syncBad := s.syncBad.filter (· != line) }
  let s2 := s1.record { Rec.of none 0x0C 0x09 (stackInst (128 * line)) with addr := 128 * line }
  let told := Tab.keysWhere s2.ctxs fun _ k => k.poison.contains line
  told.foldl (fun t c => (t.modCtx c fun k => { k with poison := k.poison.filter (· != line) }).raise c 3) s2

/-- POISONCLR (R315): a write of another form, or to a die that does not own the line, is ignored. -/
def execPoisonclr (die : Nat) (v : DWord) (s : State) : Host.Outcome State Fault Refusal :=
  let a := fld v 51 7 * 128
  if v[0] && fld v 6 1 == 0 && fld v 63 52 == 0 && hbmOk a 128 && hbmDie a == die then .next (s.clearLine (a / 128))
  else .next s

end Sys2Proof.Machine
end

