-- ==== Sys2Proof/Machine/Shake.lean ====
section
/-!
DEFINITION. Machine/Shake.lean: SHAKE256 of FIPS 202, which the boot chain, the measurements and the attestation use
(R353 to R358). All outputs here are 64 bytes.
-/

namespace Sys2Proof.Shake

open Sys2Proof

/-- Lane x + 5y of a Keccak state. -/
def lane (s : List DWord) (x y : Nat) : DWord := s.getD (x % 5 + 5 * (y % 5)) 0#64

def map25 (f : Nat → Nat → DWord) : List DWord := (List.range 25).map fun i => f (i % 5) (i / 5)

/-- Rotation offsets, lane x + 5y. -/
def offsets : List Nat :=
  [0, 1, 62, 28, 27, 36, 44, 6, 55, 20, 3, 10, 43, 25, 39, 41, 45, 15, 21, 8, 18, 2, 61, 56, 14]

/-- One bit of the round-constant register: x^8 + x^6 + x^5 + x^4 + 1. -/
def lfsrNext (r : Nat) : Nat := let u := r * 2; if 256 ≤ u then (u ^^^ 0x171) % 256 else u

/-- Round constant built from seven register bits; also gives the register after them. -/
def roundConst : Nat → Nat → Nat → DWord × Nat
  | 0, _, r => (0#64, r)
  | n + 1, j, r =>
    let bit : DWord := if r % 2 = 1 then 1#64 <<< (2 ^ j - 1) else 0#64
    let rest := roundConst n (j + 1) (lfsrNext r)
    (bit ^^^ rest.1, rest.2)

/-- One round. -/
def round (rc : DWord) (s : List DWord) : List DWord :=
  let c := (List.range 5).map fun x => lane s x 0 ^^^ lane s x 1 ^^^ lane s x 2 ^^^ lane s x 3 ^^^ lane s x 4
  let d := (List.range 5).map fun x => c.getD ((x + 4) % 5) 0#64 ^^^ (c.getD ((x + 1) % 5) 0#64).rotateLeft 1
  let a := map25 fun x y => lane s x y ^^^ d.getD x 0#64
  -- rho and pi: B[y, 2x + 3y] = rot(A[x, y]); lane (X, Y) of B comes from A[(X + 3Y) mod 5, X]
  let b := map25 fun X Y =>
    let x := (X + 3 * Y) % 5
    (lane a x X).rotateLeft (offsets.getD (x + 5 * X) 0)
  let e := map25 fun x y => lane b x y ^^^ (~~~ lane b (x + 1) y &&& lane b (x + 2) y)
  match e with
  | [] => []
  | l :: ls => (l ^^^ rc) :: ls

/-- `n` rounds from register value `r`. -/
def rounds : Nat → Nat → List DWord → List DWord
  | 0, _, s => s
  | n + 1, r, s =>
    let k := roundConst 7 0 r
    rounds n k.2 (round k.1 s)

def keccakF (s : List DWord) : List DWord := rounds 24 1 s

/-- The 64-bit words of a byte string, `n` of them. -/
def words : Nat → List Byte → List DWord
  | 0, _ => []
  | n + 1, bs => BitVec.ofNat 64 (ofBytesLE (bs.take 8)) :: words n (bs.drop 8)

/-- Absorb a padded message of `n` blocks of 136 bytes. -/
def absorb : Nat → List Byte → List DWord → List DWord
  | 0, _, s => s
  | n + 1, bs, s =>
    let w := words 17 (bs.take 136) ++ List.replicate 8 0#64
    absorb n (bs.drop 136) (keccakF (List.zipWith (· ^^^ ·) s w))

/-- SHAKE256 with 64 bytes of output. -/
def shake256 (m : List Byte) : List Byte :=
  let fill := 136 - m.length % 136
  let pad : List Byte := if fill = 1 then [0x9F#8] else 0x1F#8 :: List.replicate (fill - 2) 0#8 ++ [0x80#8]
  let msg := m ++ pad
  ((absorb (msg.length / 136) msg (List.replicate 25 0#64)).map fun w => bytesLE 8 w.toNat).flatten.take 64

end Sys2Proof.Shake
end

