-- ==== Sys2Proof/Machine/Falcon.lean ====
section
/-!
DEFINITION. Machine/Falcon.lean: the verification of a Falcon-1024 signature, which R354 names: ring degree 1,024,
modulus 12,289, the padded signature format of 1,280 bytes and public keys of 1,793 bytes.
PRESUMED: the algorithm is the published Falcon one; the spec names it and does not restate it (log 14).
-/

namespace Sys2Proof.Falcon

open Sys2Proof

def q : Nat := 12289

/-- Candidates of one squeezed block: 16-bit big-endian numbers below 5q, taken modulo q. -/
def candidates : Nat → List Byte → List Nat
  | 0, _ => []
  | n + 1, bs =>
    let t := (bs.getD 0 0#8).toNat * 256 + (bs.getD 1 0#8).toNat
    if t < 61445 then t % q :: candidates n (bs.drop 2) else candidates n (bs.drop 2)

/-- Squeeze blocks until 1,024 candidates are found. -/
def squeezePoint : Nat → List DWord → List Nat → List Nat
  | 0, _, acc => acc
  | n + 1, s, acc =>
    let out := (s.map fun w => bytesLE 8 w.toNat).flatten.take 136
    let acc' := acc ++ candidates 68 out
    if 1024 ≤ acc'.length then acc'.take 1024 else squeezePoint n (Shake.keccakF s) acc'

/-- The point of a salt and a message. -/
def hashToPoint (salt msg : List Byte) : List Nat :=
  let m := salt ++ msg
  let fill := 136 - m.length % 136
  let pad : List Byte := if fill = 1 then [0x9F#8] else 0x1F#8 :: List.replicate (fill - 2) 0#8 ++ [0x80#8]
  squeezePoint 64 (Shake.absorb ((m ++ pad).length / 136) (m ++ pad) (List.replicate 25 0#64)) []

/-- The bits of a byte string, most significant first. -/
def bitsBE (bs : List Byte) : List Bool := (bs.map fun b => (List.range 8).map fun i => b.toNat.testBit (7 - i)).flatten

def natBE : List Bool → Nat → Nat
  | [], a => a
  | b :: bs, a => natBE bs (2 * a + b2n b)

/-- The coefficients of a public key: 1,024 of 14 bits, each below q. -/
def keyCoeffs : Nat → List Bool → Option (List Nat)
  | 0, _ => some []
  | n + 1, bs =>
    let v := natBE (bs.take 14) 0
    if v < q then (keyCoeffs n (bs.drop 14)).map (v :: ·) else none

/-- The length of a unary run of zeros ended by a one, and what follows it. -/
def unary : List Bool → Nat → Option (Nat × List Bool)
  | [], _ => none
  | true :: bs, k => some (k, bs)
  | false :: bs, k => unary bs (k + 1)

/-- The compressed coefficients of a signature: sign, 7 low bits, unary high part; the rest must be zero. -/
def sigCoeffs : Nat → List Bool → Option (List Int)
  | 0, bs => if bs.all (· == false) then some [] else none
  | n + 1, bs =>
    match unary (bs.drop 8) 0 with
    | none => none
    | some (hi, rest) =>
      let m := natBE ((bs.drop 1).take 7) 0 + 128 * hi
      let neg := bs.headD false
      if bs.length < 9 ∨ 2047 < m ∨ (neg ∧ m = 0) then none
      else (sigCoeffs n rest).map ((if neg then -(m : Int) else (m : Int)) :: ·)

/-- Multiplication by x modulo x^1024 + 1: the last coefficient comes to the front with its sign changed. -/
def timesX (a : List Int) : List Int :=
  match a.reverse with
  | [] => []
  | l :: ls => (-l) :: ls.reverse

/-- The product of a polynomial and a list of coefficients, modulo x^1024 + 1. -/
def polyMul : List Int → List Int → List Int → List Int
  | [], _, acc => acc
  | c :: cs, a, acc =>
    polyMul cs (timesX a) (if c = 0 then acc else List.zipWith (fun x y => x + c * y) acc a)

/-- The representative of v modulo q nearest to zero. -/
def centred (v : Int) : Int := let u := v % 12289; if 6144 < u then u - 12289 else u

/-- The signature of 1,280 bytes verifies for the message under the public key of 1,793 bytes. -/
def verify (pubkey sig msg : List Byte) : Bool :=
  pubkey.length == 1793 && sig.length == 1280 && pubkey.headD 0#8 == 0x0A#8 && sig.headD 0#8 == 0x3A#8 &&
  match keyCoeffs 1024 (bitsBE (pubkey.drop 1)), sigCoeffs 1024 (bitsBE (sig.drop 41)) with
  | some h, some s2 =>
    let c := hashToPoint ((sig.drop 1).take 40) msg
    let prod := polyMul s2 (h.map Int.ofNat) (List.replicate 1024 0)
    let s1 := List.zipWith (fun x (y : Int) => centred ((x : Nat) - y)) c prod
    decide ((s1 ++ s2).foldl (fun n v => n + v * v) 0 ≤ 70265242)
  | _, _ => false

end Sys2Proof.Falcon
end

