-- ==== Sys2Proof/Machine/Steward.lean ====
section
/-!
DEFINITION. Machine/Steward.lean: the steward instructions KZERO, SCRUB and CTXFREE, and the happenings that end a
zeroisation and a piece of a scrub (R212 to R214, R359 to R367, R370).
-/

namespace Sys2Proof.Machine

open Sys2Proof

def State.keySlot (s : State) (k : Nat) : KeySlot := Tab.getD s.sec.slots k KeySlot.reset

def State.setKeySlot (s : State) (k : Nat) (x : KeySlot) : State :=
  { s with sec := { s.sec with slots := Tab.put s.sec.slots k x } }

/-- A context holds the slot (R359, R360). -/
def State.slotHeld (s : State) (k : Nat) : Bool := s.ctxs.any fun p => p.2.keyslot.toNat == k

/-! ## KZERO (R212, R360) -/

/-- Each context that holds the slot notes that it is zeroised (R212, R214); slot 0 never is (R360). -/
def State.markZeroised (s : State) (k : Nat) : State :=
  if k = 0 then s
  else { s with ctxs := Tab.mapV s.ctxs fun _ x => if x.keyslot.toNat = k then { x with zeroised := true } else x }

/-- Every L1 line tagged with the slot is discarded (R360 step 1). -/
def State.dropTagged (s : State) (k : Nat) : State :=
  { s with cores := Tab.mapV s.cores fun _ c => { c with lines := c.lines.filter fun l => l.2.key != k } }

/-- The slot becomes ZEROISED, its keys gone; it stays a slot that GEN filled (R359), and the moment of a passage from READY is
noted (R360, R367). -/
def State.zeroSlot (s : State) (k : Nat) : State :=
  let x := s.keySlot k
  let now := s.tick + 1
  (({ s with tick := now }.dropTagged k).setKeySlot k
    { state := 2, data := [], tweak := [], gen := x.gen, zero := if x.state = 1 then now else x.zero }).markZeroised k

/-- A zeroisation of this slot changes no key: slot 0, a slot that is ZEROISED, or an EMPTY slot that no context holds
(R360, R367). -/
def State.zeroDone (s : State) (k : Nat) : Bool :=
  k == 0 || (s.keySlot k).state == 2 || ((s.keySlot k).state == 0 && !s.slotHeld k)

/-- A zeroisation begins. -/
def State.beginZero (s : State) (k : Nat) : State :=
  { s with sec := { s.sec with zeroing := if s.sec.zeroing.contains k then s.sec.zeroing else s.sec.zeroing ++ [k] } }

/-- KZERO (R212): it parks until KZERO_COMPLETE, or completes at once. -/
def runKzero (c : Nat) (x : Ops) : M Unit := do
  needPriv c 2
  let y ← crewM c
  let k := (y.arch.scalar (scalarNo x.sa)).toNat % 128
  let s ← getS
  if y.waitEvt.isNone && s.zeroDone k then
    issue c 0xF5 x true true (do
      let _ ← readScalar c x.sa
      modS fun t => t.markZeroised k)
  else
    twoPhase c 0xF5 x true
      (do
        let v ← readScalar c x.sa
        modS fun t => t.beginZero (v.toNat % 128)
        pure (.kzero (v.toNat % 128)))
      (fun _ => pure ())

/-- KZERO (R212). -/
def execKzero (x : Ops) (s : State) : Host.Outcome State Fault Refusal :=
  crewStep x.head (fun c => runKzero c x) s

/-- KZERO_COMPLETE (R212, R360): the security block and every memory controller hold no key material for the slot; the
crews and the KEYCMD that wait for it go on. -/
def execKzeroComplete (slot : BitVec 7) (s : State) : Host.Outcome State Fault Refusal :=
  let k := slot.toNat
  if !(s.sec.zeroing.contains k) then s.passOver
  else
    let s1 := (s.zeroSlot k).tidySlot k
    let s2 := { s1 with sec := { s1.sec with
      zeroing := s1.sec.zeroing.filter (· != k),
      kcStat := if s1.sec.kcStat = 1 ∧ s1.sec.kcZero = slot then 0 else s1.sec.kcStat } }
    .next { s2 with crews := Tab.mapV s2.crews fun _ x =>
      if x.park = some (.kzero k) then { x with waitEvt := some 0 } else x }

/-! ## SCRUB (R213, R364) -/

/-- A range lies wholly in HBM, or in the scratchpad, accumulator or B-stack window of one core (R213). -/
def scrubbable (base len : Nat) : Bool :=
  if inWindow base then
    let off := (base - winBase) % 0x800000
    decide (off + len ≤ 0x60000) || (decide (0x100000 ≤ off) && decide (off + len ≤ 0x140000))
      || (decide (0x400000 ≤ off) && decide (off + len ≤ 0x800000))
  else hbmOk base len

/-- One entry of a range list; `none` where it is malformed. -/
def rangeOf (bs : List Byte) : Option (Nat × Nat) :=
  let b := ofBytesLE (bs.take 8)
  let n := ofBytesLE ((bs.drop 8).take 8)
  if b < 2 ^ 52 ∧ b % 64 = 0 ∧ n ≠ 0 ∧ n % 64 = 0 ∧ scrubbable b n then some (b, n) else none

/-- Bytes at a physical address, under the key slot of the frame that holds them, for an access without a page table entry
(R262, R370); `none` where they cannot be read. -/
def State.readPhys (s : State) (pa n : Nat) : Option (List Byte) :=
  match regionOf pa with
  | .hbm => if hbmOk pa n && !(s.badLines pa n) then (s.frameKey pa).map fun k => s.readKey k pa n else none
  | .window _ off => if decide (off % 0x800000 + n ≤ 0x800000) && !(s.marked pa n) then some (s.mem.read pa n) else none
  | .hole => none
  | _ => if s.answers pa n then some (s.mem.read pa n) else none

/-- The range list at a physical address in any region; `none` where it is malformed or cannot be read (DESIGN CHOICE, log 84:
the spec states no result for a list that cannot be read). -/
def State.rangeList (s : State) (pa n : Nat) : Option (List (Nat × Nat)) :=
  if pa % 64 ≠ 0 ∨ 2 ^ 52 ≤ pa ∨ n < 1 ∨ 4096 < n then none
  else (List.range n).mapM fun i => (s.readPhys (pa + 16 * i) 16).bind rangeOf

/-- The ranges of a list that PROG has counted. -/
def counted : List (Nat × Nat) → Nat → List (Nat × Nat)
  | [], _ => []
  | (b, n) :: t, p => if n ≤ p then (b, n) :: counted t (p - n) else if p = 0 then [] else [(b, p)]

/-- The counted ranges of every scrub, with its start. -/
def Scrub.allCounted (k : Scrub) : List (Nat × Nat × Nat) :=
  k.past ++ (counted k.list k.prog.toNat).map fun r => (r.1, r.2, k.start)

/-- A scrub is accepted: the list is copied into the always-on domain (R213). -/
def State.startScrub (s : State) (l : List (Nat × Nat)) : State :=
  { s with
    tick := s.tick + 1,
    sec := { s.sec with scrub :=
      { list := l, prog := 0, total := BitVec.ofNat 64 (l.map Prod.snd).sum, idx := 0, rsm := false, state := 1,
        start := s.tick + 1, past := s.sec.scrub.allCounted } } }

/-- SCRUB (R213). -/
def bodyScrub (c : Nat) (x : Ops) : M Unit := do
  needPriv c 2
  let a ← readScalar c x.sa
  let n ← readScalar c x.sb
  let s ← getS
  if s.sec.scrub.state = 1 then writeScalar c x.dst 1
  else match s.rangeList a.toNat n.toNat with
    | none => writeScalar c x.dst 2
    | some l =>
      modS fun t => t.startScrub l
      writeScalar c x.dst 0

/-- SCRUB (R213). -/
def execScrub (x : Ops) (s : State) : Host.Outcome State Fault Refusal :=
  issueStep 0xF6 x true (fun c => bodyScrub c x) s

/-! ## CTXFREE (R214, R363) -/

/-- A run of bytes lies wholly in the ranges. -/
def covered (rs : List (Nat × Nat)) : Nat → Nat → Nat → Bool
  | 0, _, n => n == 0
  | fuel + 1, a, n =>
    if n = 0 then true
    else match rs.find? fun r => decide (r.1 ≤ a) && decide (a < r.1 + r.2) with
      | none => false
      | some r => covered rs fuel (a + (r.1 + r.2 - a)) (n - (r.1 + r.2 - a))

def coveredAll (rs : List (Nat × Nat)) (a n : Nat) : Bool := covered rs (rs.length + 1) a n

/-- Every byte of a resource is counted (R363). -/
def resCounted (rs : List (Nat × Nat)) (r : Res) : Bool :=
  match r with
  | .core k => coveredAll rs (winOf k + 0x100000) 0x40000 && coveredAll rs (bstackPa k 0) 0x400000
  | .granule k g => coveredAll rs (spadPa k (256 * g)) 256
  | .frame f => coveredAll rs (65536 * f) 65536

/-- The context has a resident crew, a live grid or an engine command that is not complete. -/
def State.ctxBusy (s : State) (n : Nat) : Bool :=
  (s.crews.any fun p => s.ctxOf p.2 == n) || (s.grids.any fun p => p.2.ctx == n && p.2.state != .ended)
    || s.cmds.any fun p => p.2.ctx == n && !p.2.isOver

/-- The context is released (R214, R363): what one scrub since the zeroisation has counted whole becomes FREE. -/
def State.freeCtx (s : State) (n : Nat) : State :=
  let since := (s.keySlot (s.ctx n).keyslot.toNat).zero
  let all := s.sec.scrub.allCounted.filter fun r => decide (since ≤ r.2.2)
  let runs := (all.map fun r => r.2.2).eraseDups.map fun k => (all.filter fun r => r.2.2 == k).map fun r => (r.1, r.2.1)
  let owned := s.sec.owned.filterMap fun o =>
    if o.owner ≠ some n then some o
    else if runs.any fun rs => resCounted rs o.res then none
    else some { o with owner := none }
  (({ s with sec := { s.sec with owned := owned } }.modCtx n fun x =>
    { x with prot := false, launched := false, poison := [],
             events := Tab.mapV s.evAll fun _ v => (2 ^ 64 - v) % 2 ^ 64 }).setKeyslot n 0)

/-- CTXFREE (R214): an acquire at `.sys` scope where it returns 0 (R370). -/
def bodyCtxfree (c : Nat) (x : Ops) : M Unit := do
  needPriv c 2
  let a ← readScalar c x.sa
  let n := a.toNat % 65536
  let s ← getS
  let k := s.sec.scrub
  if !(s.ctx n).prot then writeScalar c x.dst 4
  else if s.ctxBusy n then writeScalar c x.dst 3
  else if !(s.ctx n).zeroised then writeScalar c x.dst 2
  else if k.state = 2 then
    stop (.trap cScrubErr (match k.list.drop k.idx.toNat with
      | r :: _ => r.1
      | [] => 0) none)
  else if k.prog.toNat < k.total.toNat then writeScalar c x.dst 1
  else
    modS fun t => t.freeCtx n
    acquireM c 4
    writeScalar c x.dst 0

/-- CTXFREE (R214). -/
def execCtxfree (x : Ops) (s : State) : Host.Outcome State Fault Refusal :=
  issueStep 0xF7 x true (fun c => bodyCtxfree c x) s

/-! ## SCRUB_PIECE_COMPLETE -/

/-- The range in which PROG stands: its index, and the offset within it. -/
def scrubPlace : List (Nat × Nat) → Nat → Nat → Option (Nat × Nat × Nat × Nat)
  | [], _, _ => none
  | (b, n) :: t, i, p => if p < n then some (i, b, n, p) else scrubPlace t (i + 1) (p - n)

/-- The unit that holds a piece (R402). -/
def pieceUnit (pa : Nat) : Nat × Nat :=
  if inWindow pa then
    let k := (pa - winBase) / 0x800000
    let off := (pa - winBase) % 0x800000
    (if off < 0x100000 then 0x02 else if off < 0x200000 then 0x03 else 0x04, coreInst k)
  else (0x09, stackInst pa)

/-- The 64-byte piece at `pa` of a range from `base` on is written with zeros (R213). The mark of a poisoned line goes once
both its halves are written (R403). -/
def State.zeroPiece (s : State) (base pa : Nat) : State :=
  if inWindow pa then s.clearChip pa 64
  else
    let t := if pa % 128 = 64 ∧ base + 64 ≤ pa then s.unpoison (pa - 64) 128 else s
    { t with mem := t.mem.clear pa 64 }

/-- RELEASING resources whose bytes the running scrub has counted become FREE (R363). -/
def State.freeReleasing (s : State) : State :=
  let rs := counted s.sec.scrub.list s.sec.scrub.prog.toNat
  { s with sec := { s.sec with owned := s.sec.owned.filter fun o => !(o.owner.isNone && resCounted rs o.res) } }

/-- SCRUB_PIECE_COMPLETE (R213, R363, R364): the next piece is zero and counted, or `fails` and stops the scrub. -/
def execScrubPieceComplete (fails : Bool) (s : State) : Host.Outcome State Fault Refusal :=
  let k := s.sec.scrub
  if k.state ≠ 1 then s.passOver
  else match scrubPlace k.list 0 k.prog.toNat with
    | none => s.passOver
    | some (i, b, _, p) =>
      if fails then
        let s1 := { s with sec := { s.sec with scrub := { k with state := 2, idx := BitVec.ofNat 12 i } } }
        .next (s1.record { Rec.of none 0x0B (pieceUnit (b + p)).1 (pieceUnit (b + p)).2 with addr := b })
      else
        let prog := k.prog.toNat + 64
        let idx := match scrubPlace k.list 0 prog with
          | some q => q.1
          | none => i
        let s1 := s.zeroPiece b (b + p)
        let s2 := { s1 with sec := { s1.sec with scrub :=
          { k with prog := BitVec.ofNat 64 prog, idx := BitVec.ofNat 12 idx,
                   state := if prog = k.total.toNat then 0 else 1 } } }
        .next s2.freeReleasing

end Sys2Proof.Machine
end

