-- ==== Sys2Proof/Machine/Security.lean ====
section
/-!
DEFINITION. Machine/Security.lean: key commands, firmware hand-over, attestation, assignment lists, and the boot chain at
device reset (R353 to R365).
-/

namespace Sys2Proof.Machine

open Sys2Proof

/-! ## KEYCMD (R359, R360) -/

/-- SLOT is written, and the command ends with STATUS `st`. -/
def State.keyStatus (s : State) (slot : BitVec 7) (st : BitVec 8) : State :=
  { s with sec := { s.sec with kcSlot := slot, kcStat := st, kcZero := if st = 1 then slot else s.sec.kcZero } }

/-- GEN and LOAD are refused on slot 0, a READY slot, and a ZEROISED slot that a context still holds. -/
def State.fillRefused (s : State) (k : Nat) : Bool :=
  k == 0 || (s.keySlot k).state == 1 || ((s.keySlot k).state == 2 && s.slotHeld k)

/-- The slot becomes READY with 64 bytes of key. DEDUCED: the data key stands before the tweak key (log 36). -/
def State.fillSlot (s : State) (k : Nat) (bytes : List Byte) (gen : Bool) : State :=
  s.setKeySlot k { s.keySlot k with state := 1, data := bytes.take 32, tweak := bytes.drop 32, gen := gen }

/-- GEN (R359): random keys. -/
def execGen (slot : BitVec 7) (s : State) : Host.Outcome State Fault Refusal :=
  let k := slot.toNat
  if s.fillRefused k then .next (s.keyStatus slot 2)
  else
    let bytes := bytesLE 64 (Config.freeKey s.tick).toNat
    .next (({ s with tick := s.tick + 1 }.fillSlot k bytes true).keyStatus slot 0)

/-- LOAD (R359): the bytes of KEYDATA, which are then cleared; refused too on a slot of a protected context. -/
def execLoad (slot : BitVec 7) (s : State) : Host.Outcome State Fault Refusal :=
  let k := slot.toNat
  if s.fillRefused k || s.ctxs.any (fun p => p.2.prot && p.2.keyslot == slot) then .next (s.keyStatus slot 2)
  else
    let t := (s.fillSlot k s.sec.keyData false).keyStatus slot 0
    .next { t with sec := { t.sec with keyData := List.replicate 64 0#8 } }

/-- ZERO (R359, R360): as KZERO; busy until KZERO_COMPLETE. -/
def execZero (slot : BitVec 7) (s : State) : Host.Outcome State Fault Refusal :=
  let k := slot.toNat
  if s.zeroDone k then .next ((s.markZeroised k).keyStatus slot 0)
  else .next ((s.beginZero k).keyStatus slot 1)

/-! ## Stage images (R354) -/

/-- Bytes of an image as a number. -/
def imgField (b : List Byte) (i n : Nat) : Nat := ofBytesLE ((b.drop i).take n)

def allZero (b : List Byte) (i n : Nat) : Bool := ((b.drop i).take n).all fun v => v == 0#8

/-- An image that is accepted: its digest D and its version. -/
structure Accepted where
  stage  : Nat
  digest : List Byte
  ver    : Version
  deriving DecidableEq, Repr

/-- SHAKE256 with 64 bytes of output. -/
def digest64 (m : List Byte) : List Byte := Shake.shake256 m

/-- The header is well formed (CODE 4 otherwise); `want`: the stages that may stand in it. -/
def headerOk (h : List Byte) (want : List Nat) : Bool :=
  imgField h 0 4 == 0x4D49395A && want.contains (imgField h 4 4) && allZero h 24 8 && allZero h 1825 223
    && allZero h 3328 768 && decide (0 < imgField h 16 8) && imgField h 16 8 % 4096 == 0
    && decide (imgField h 16 8 ≤ 2 ^ 26)

/-- Verification (R354): D and the version, or the CODE of the first test that fails. -/
def verifyImage (h body : List Byte) (want : List Nat) (rootdig : List Byte) (minsvn : DWord) : Except Nat Accepted :=
  if !(headerOk h want) then .error 4
  else
    let key := (h.drop 32).take 1793
    let d := digest64 (h.take 2048 ++ body)
    if digest64 key ≠ rootdig then .error 5
    else if !(Falcon.verify key ((h.drop 2048).take 1280) d) then .error 6
    else if imgField h 8 4 < minsvn.toNat then .error 7
    else .ok { stage := imgField h 4 4, digest := d,
               ver := ⟨BitVec.ofNat 32 (imgField h 12 4), BitVec.ofNat 32 (imgField h 8 4)⟩ }

/-- The measurement of an accepted stage (R355). -/
def measure (d : List Byte) : List Byte := digest64 (List.replicate 64 0#8 ++ d)

/-! ## Live hand-over (R357) -/

/-- The result of a command. -/
def State.fwResult (s : State) (e : BitVec 8) : State := { s with sec := { s.sec with fwErr := e } }

/-- Bytes that lie wholly in FREE frames of HBM and can be read. -/
def State.readFree (s : State) (pa n : Nat) : Option (List Byte) :=
  if hbmOk pa n && !(s.badLines pa n)
      && (List.range (n / 65536 + 2)).all fun i =>
        decide (pa + n ≤ 65536 * (pa / 65536 + i)) || (s.ownerOf (.frame (pa / 65536 + i))).isNone
  then some (s.mem.read pa n) else none

/-- STAGE (R357): allowed in IDLE and COMMITTED. Stage 1 performs it, once it runs (R353). -/
def execStage (s : State) : Host.Outcome State Fault Refusal :=
  let a := s.sec.fwimg
  if s.sec.boot ≠ 3 then s.passOver
  else if s.sec.fwState = 1 then .next (s.fwResult 8)
  else match s.readFree a 4096 with
    | none => .next (s.fwResult 9)
    | some h =>
      if !(headerOk h [2, 3]) then .next (s.fwResult 4)
      else match s.readFree (a + 4096) (imgField h 16 8) with
        | none => .next (s.fwResult 9)
        | some body => match verifyImage h body [2, 3] s.sec.rootdig s.sec.minsvn with
          | .error e => .next (s.fwResult (BitVec.ofNat 8 e))
          | .ok v => .next { s with sec := { s.sec with
              fwErr := 0, hstage := BitVec.ofNat 2 v.stage, smeas := measure v.digest, staged := v.ver, fwState := 1 } }

/-- The staged image is no longer there. -/
def Sec.unstage (k : Sec) (st : BitVec 2) : Sec :=
  { k with fwErr := 0, smeas := List.replicate 64 0#8, hstage := 0, staged := ⟨0, 0⟩, fwState := st }

/-- COMMIT (R357): the new image takes charge between two rounds and two placements. -/
def execCommit (s : State) : Host.Outcome State Fault Refusal :=
  let k := s.sec
  if k.fwState ≠ 1 then .next (s.fwResult 8)
  else
    let k1 := { k with
      meas := k.meas.setIfInBounds k.hstage.toNat k.smeas,
      run2 := if k.hstage = 2 then k.staged else k.run2,
      run3 := if k.hstage = 3 then k.staged else k.run3 }
    .next { s with sec := k1.unstage 2 }

/-- ABORT (R357). -/
def execAbort (s : State) : Host.Outcome State Fault Refusal :=
  if s.sec.fwState ≠ 1 then .next (s.fwResult 8) else .next { s with sec := s.sec.unstage 0 }

/-! ## Attestation (R358) -/

/-- VERSION and SVN of an image as one field. -/
def Version.word (v : Version) : Nat := v.ver.toNat + v.svn.toNat * 2 ^ 32

/-- Bytes 415:0 of a report. -/
def Sec.reportHead (k : Sec) : List Byte :=
  let staged := k.fwState == 1
  let act := if k.hstage = 2 then k.run2 else k.run3
  bytesLE 8 (1 + b2n staged * 2 ^ 8 + (if staged then k.hstage.toNat else 0) * 2 ^ 9) ++ bytesLE 8 Config.deviceId.toNat
    ++ k.nonce.take 64 ++ (k.meas.toList.map fun m => m.take 64).flatten
    ++ bytesLE 8 (if staged then act.word else 0) ++ bytesLE 8 (if staged then k.staged.word else 0)
    ++ (if staged then k.smeas.take 64 else List.replicate 64 0#8)

/-- The public half of the device identity key, which BAR0 shows. -/
def identityKey : List Byte := (List.range 1793).map Config.identityByte

/-- Every list of `n` bytes. -/
def byteLists : Nat → List (List Byte)
  | 0 => [[]]
  | n + 1 => ((byteLists n).map fun l => (List.range 256).map fun b => BitVec.ofNat 8 b :: l).flatten

/-- The signatures over a digest that verify under the identity key (R358). -/
def goodSignatures (d : List Byte) : List (List Byte) := (byteLists 1280).filter fun g => Falcon.verify identityKey g d

/-- The signature that the security block makes over a digest: a free one of those that verify (log 11). A key pair has one for
every digest; were there none, its bytes would be free values. -/
@[irreducible] def State.signature (s : State) (d : List Byte) : List Byte :=
  let l := goodSignatures d
  l[Config.freePick s.tick % l.length]?.getD ((List.range 1280).map (Config.signatureByte s.tick d))

/-- The whole report. -/
def State.report (s : State) : List Byte :=
  let h := s.sec.reportHead
  h ++ s.signature (digest64 h) ++ List.replicate 352 0#8

/-- ATTCTL_GO (R358): the report is formed, signed and written, then DONE is set. A report that cannot be written at ADDR, or
whose frame is not FREE (R362, R363), leaves DONE 0. -/
def execAttctlGo (v : DWord) (s : State) : Host.Outcome State Fault Refusal :=
  let a := fld v 51 12 * 4096
  if !v[0] then .next { s with sec := { s.sec with attAddr := a } }
  else
    let s1 := { s with sec := { s.sec with attAddr := a, attDone := false } }
    if !(hbmOk a 2048) || (s.ownerOf (.frame (a / 65536))).isSome then .next s1
    else
      let s2 := s1.writeKey 0 a s1.report
      .next { s2 with tick := s2.tick + 1, sec := { s2.sec with attDone := true } }

/-- MINSVNSET (R354): a larger value is burnt into the fuses. -/
def execMinsvnset (v : DWord) (s : State) : Host.Outcome State Fault Refusal :=
  .next (if s.sec.minsvn.toNat < v.toNat then { s with sec := { s.sec with minsvn := v } } else s)

/-! ## Assignment lists (R361) -/

/-- One entry of an assignment list. -/
structure AsgEntry where
  kind  : Nat
  core  : Nat
  count : Nat
  base  : Nat
  deriving DecidableEq, Repr

def asgEntry (b : List Byte) : AsgEntry :=
  { kind := imgField b 0 2, core := imgField b 2 2, count := imgField b 4 4, base := imgField b 8 8 }

/-- The fields of an entry are in range and aligned, and its range lies within its resource. -/
def AsgEntry.ok (e : AsgEntry) : Bool :=
  match e.kind with
  | 1 => decide (e.core < 192) && e.count == 0 && e.base == 0
  | 2 => decide (e.core < 192) && decide (1 ≤ e.count) && e.base % 256 == 0 && decide (e.base + 256 * e.count ≤ 0x60000)
  | 3 => e.core == 0 && decide (1 ≤ e.count) && e.base % 65536 == 0 && hbmOk e.base (65536 * e.count)
  | _ => false

/-- Two entries name the same core, or give ranges that overlap. -/
def AsgEntry.clash (a b : AsgEntry) : Bool :=
  a.kind == b.kind && (match a.kind with
    | 1 => a.core == b.core
    | 2 => a.core == b.core && meets a.base (256 * a.count) b.base (256 * b.count)
    | _ => meets a.base (65536 * a.count) b.base (65536 * b.count))

def noClash : List AsgEntry → Bool
  | [] => true
  | a :: t => t.all (fun b => !a.clash b) && noClash t

/-- The list is well formed. -/
def asgOk (es : List AsgEntry) : Bool :=
  es.all AsgEntry.ok && noClash es
    && es.all fun e => e.kind != 2 || es.any fun f => f.kind == 1 && f.core == e.core

/-- The resources that an entry names. -/
def AsgEntry.resources (e : AsgEntry) : List Res :=
  match e.kind with
  | 1 => [.core e.core]
  | 2 => (List.range e.count).map fun i => .granule e.core (e.base / 256 + i)
  | _ => (List.range e.count).map fun i => .frame (e.base / 65536 + i)

/-- CTXASG_GO (R361, R365): the list is tested, and assigned whole or not at all. DESIGN CHOICE: a list that does not lie wholly in
readable FREE frames counts as malformed (log 93). -/
def execCtxasgGo (v : DWord) (s : State) : Host.Outcome State Fault Refusal :=
  let c := fld v 63 48
  let n := fld v 44 32
  let s1 := { s with sec := { s.sec with asgCtx := BitVec.ofNat 16 c, asgCount := BitVec.ofNat 13 n } }
  let result (r : BitVec 2) (t : State) : State := { t with sec := { t.sec with asgRes := r } }
  if !v[0] then .next s1
  else if s.sec.scrub.state = 1 then .next (result 3 s1)
  else
    let a := s.sec.asgAddr
    if n < 1 ∨ 4096 < n ∨ (s.readFree a (16 * n)).isNone || !(s.ctx c).prot then .next (result 2 s1)
    else
      let es := (List.range n).map fun i => asgEntry (s.mem.read (a + 16 * i) 16)
      if !(asgOk es) then .next (result 2 s1)
      else
        let rs := (es.map AsgEntry.resources).flatten
        if rs.any fun r => (s.ownerOf r).isSome then .next (result 1 s1)
        else .next (result 0 { s1 with sec := { s1.sec with owned := s1.sec.owned ++ rs.map fun r => ⟨r, some c⟩ } })

/-! ## The boot chain (R353 to R356) -/

/-- What the boot chain has come to. -/
structure Boot where
  port : Nat
  code : Nat
  meas : Vector (List Byte) 4
  run2 : Version
  run3 : Version
  ok   : Bool
  deriving DecidableEq, Repr

/-- Stage `n` of a port: the image as the directory names it. -/
def bootStage (d : List Byte) (img : Option (List Byte)) (n : Nat) (rootdig : List Byte) (minsvn : DWord) :
    Except Nat Accepted :=
  let count := imgField d (16 * (n - 1) + 8) 8
  if count = 0 then .error 2
  else match img with
    | none => .error 3
    | some bs =>
      let all := bs.take (4096 * count)
      let h := all.take 4096
      if h.length < 4096 then .error 3
      else if !(headerOk h [n]) then .error 4
      else
        let body := (all.drop 4096).take (imgField h 16 8)
        if body.length < imgField h 16 8 then .error 3 else verifyImage h body [n] rootdig minsvn

/-- Try one port. -/
def bootPort (rootdig : List Byte) (minsvn : DWord) (b : Boot) (i : Nat) (p : Option BootPort) : Boot :=
  if b.ok then b
  else
    let fail (x : Boot) (c : Nat) : Boot := { x with port := i, code := c }
    match p with
    | none => fail b 1
    | some p =>
      if !p.usable then fail b 1
      else match p.directory with
        | none => fail b 2
        | some d => match bootStage d p.stage1 1 rootdig minsvn with
          | .error c => fail b c
          | .ok v1 =>
            let b1 := { b with meas := b.meas.set 1 (measure v1.digest) }
            match bootStage d p.stage2 2 rootdig minsvn with
            | .error c => fail b1 c
            | .ok v2 =>
              let b2 := { b1 with meas := b1.meas.set 2 (measure v2.digest), run2 := v2.ver }
              match bootStage d p.stage3 3 rootdig minsvn with
              | .error c => fail b2 c
              | .ok v3 => { b2 with meas := b2.meas.set 3 (measure v3.digest), run3 := v3.ver, port := i, ok := true }

/-- The search over root ports 0 to 3. -/
def runBoot (rootdig : List Byte) (minsvn : DWord) (ports : List BootPort) : Boot :=
  let b0 : Boot :=
    { port := 0, code := 0,
      meas := (Vector.replicate 4 (List.replicate 64 0#8)).set 0 (digest64 (rootdig ++ bytesLE 8 minsvn.toNat)),
      run2 := ⟨0, 0⟩, run3 := ⟨0, 0⟩, ok := false }
  [0, 1, 2, 3].foldl (fun b i => bootPort rootdig minsvn b i (ports[i]?)) b0

/-- The security block after a reset: fuses and the always-on domain stay (R353 to R356, R360, R365). -/
def Sec.afterReset (k : Sec) (ports : List BootPort) (held : Nat → Bool) (now : Nat) : Sec :=
  let b := runBoot k.rootdig k.minsvn ports
  { Sec.reset with
    port := BitVec.ofNat 2 b.port, code := BitVec.ofNat 8 b.code, boot := if b.ok then 3 else 15,
    minsvn := k.minsvn, rootdig := k.rootdig, meas := b.meas, run2 := b.run2, run3 := b.run3,
    slots := (List.range 128).foldl (fun (t : Tab KeySlot) i =>
      let old := Tab.getD k.slots i KeySlot.reset
      if held i then
        Tab.put t i { KeySlot.reset with state := 2, gen := old.gen, zero := if old.state = 1 then now else old.zero }
      else t) [],
    owned := k.owned, scrub := if k.scrub.state = 1 then { k.scrub with rsm := true } else k.scrub }

/-- A protected context survives a reset with its slot, its crews gone (R365). -/
def Ctx.afterReset (x : Ctx) : Ctx :=
  { Ctx.reset with prot := true, priv := x.priv, keyslot := x.keyslot, launched := x.launched, zeroised := true }

/-- DEVICE_RESET (R353 to R356, R360, R365): memory keeps its contents and its marks (DESIGN CHOICE, log 37); fuses,
lifetime records, revocations and the always-on domain stay; everything else is as after reset. -/
def execDeviceReset (ports : List BootPort) (s : State) : Host.Outcome State Fault Refusal :=
  let ctxs := (s.ctxs.filter fun p => p.2.prot).map fun p => (p.1, p.2.afterReset)
  let held (k : Nat) : Bool := k != 0 && ctxs.any fun p => p.2.keyslot.toNat == k
  let now := s.tick + 1
  let sec := s.sec.afterReset ports held now
  let z := State.reset
  .next { z with
    mem := s.mem, poison := s.poison, syncBad := s.syncBad, badWord := s.badWord, ctxs := ctxs,
    rel := { z.rel with life := s.rel.life, ontime := s.rel.ontime, uv := Tab.mapV s.rel.uv fun _ u => { u with step := 0 } },
    sec := sec, agenda := s.agenda, turn := s.turn, tick := now, nextId := s.nextId }

end Sys2Proof.Machine
end

