-- ==== Sys2Proof/Machine/HostLink.lean ====
section
/-!
DEFINITION. Machine/HostLink.lean: requests of the host, of peers and of storage controllers, the links, and the register
map of BAR0 (R387 to R397, with the register layouts of the other chapters).
-/

namespace Sys2Proof.Machine

open Sys2Proof

/-! ## Requests through BAR2 (R387, R391, R312, R316) -/

/-- A range of bytes that the host or a peer may reach: populated HBM, no frame of it OWNED or RELEASING (R391, R396). -/
def State.outerOk (s : State) (pa n : Nat) : Bool :=
  hbmOk pa n && (List.range (n / 65536 + 2)).all fun i =>
    decide (pa + n ≤ 65536 * (pa / 65536 + i)) || (s.ownerOf (.frame (pa / 65536 + i))).isNone

/-- The answer to a request. -/
def State.answerReq (s : State) (r : Resp) : State := { s with resp := r }

/-- Canaries that a request from outside meets: the stack that holds its bytes, and the unit of the request with the exit
point where data leaves there (R316, R317, R318). -/
def State.outerCanary (s : State) (pa kind inst : Nat) (exit : Option Nat) : State :=
  (s.canaryHit none 0x09 (stackInst pa) pa none).canaryHit none kind inst pa (exit.map fun e => (e, 4))

/-- Read bytes of HBM for an outside agent under a key slot. -/
def State.outerRead (s : State) (key pa n : Nat) : State :=
  s.answerReq (.data (s.readKey key pa n) (s.keyLive key && s.badLines pa n))

/-- Write bytes of HBM for an outside agent under a key slot; a line of a sync engine that is poisoned keeps its mark and
its bytes (R178). -/
def State.outerWrite (s : State) (key pa : Nat) (bs : List Byte) : State :=
  if s.syncFor key pa bs.length then s.answerReq .abort else (s.writeKey key pa bs).answerReq .done

/-- An atomic for an outside agent, at the sync engine of the die that holds the bytes (R171). -/
def State.outerAtom (s : State) (key pa : Nat) (op : Nat) (ty : Ty) (b c : Nat) : State :=
  let n := Ty.size ty
  let old := s.readKey key pa n
  if s.syncFor key pa n then s.answerReq (.data old true)
  else (s.writeKey key pa (bytesLE n (rmwNew op ty (ofBytesLE old) b c))).answerReq (.data old (s.badFor key pa n))

/-- A request of the host that reaches BAR2; a request to the on-chip window region is aborted whatever its place. -/
def State.hostReq (s : State) (pa n : Nat) (f : State) : Host.Outcome State Fault Refusal :=
  if !s.net.host then s.passOver
  else if s.outerOk pa n then .next f
  else .next (s.answerReq .abort)

/-- HOST_READ (R391, R312). -/
def execHostRead (pa n : Nat) (s : State) : Host.Outcome State Fault Refusal :=
  s.hostReq pa n ((s.outerCanary pa 0x0B (instOf 4 0) (some 1)).outerRead 0 pa n)

/-- HOST_WRITE (R391). -/
def execHostWrite (pa : Nat) (bytes : List Byte) (s : State) : Host.Outcome State Fault Refusal :=
  s.hostReq pa bytes.length ((s.outerCanary pa 0x0B (instOf 4 0) none).outerWrite 0 pa bytes)

/-- HOST_ATOMIC (R387, R171): FetchAdd, Swap and CAS of 4 and 8 bytes, naturally aligned. -/
def execHostAtomic (pa size : Nat) (op : HostAtom) (s : State) : Host.Outcome State Fault Refusal :=
  if !(size == 4 || size == 8) || pa % size ≠ 0 then
    (if s.net.host then .next (s.answerReq .unsupported) else s.passOver)
  else
    let ty : Ty := if size = 4 then .n32 else .n64
    let t := s.outerCanary pa 0x0B (instOf 4 0) (some 1)
    s.hostReq pa size (match op with
      | .fetchAdd b => t.outerAtom 0 pa 0 ty b.toNat 0
      | .swap b => t.outerAtom 0 pa 6 ty b.toNat 0
      | .cas cmp new => t.outerAtom 0 pa 7 ty cmp.toNat new.toNat)

/-! ## Requests of peers (R396, R397) -/

/-- The key slot of peer accesses: PEERKEY, or 0 where a protected context holds it (R395). -/
def State.peerKey (s : State) : Nat :=
  if s.ctxs.any fun p => p.2.prot && p.2.keyslot == s.net.key then 0 else s.net.key.toNat

/-- Bytes that a request of a peer names. -/
def peerBytes (r : PeerReq) : Nat :=
  match r with
  | .read n => n
  | .write bs => bs.length
  | .atom _ ty _ => Ty.size ty
  | .cas ty _ _ => Ty.size ty

/-- PEER_REQUEST (R396): performed at `.sys` scope under PEERKEY, or aborted. -/
def execPeerRequest (l pa : Nat) (req : PeerReq) (s : State) : Host.Outcome State Fault Refusal :=
  if 1016 ≤ s.net.id.toNat then s.passOver
  else if !(s.outerOk pa (peerBytes req)) then .next (s.answerReq .abort)
  else
    let k := s.peerKey
    let t (exit : Option Nat) : State := s.outerCanary pa 0x0D (instOf 4 l) exit
    match req with
    | .read n => .next ((t (some 3)).outerRead k pa n)
    | .write bs => .next ((t none).outerWrite k pa bs)
    | .atom op ty b => .next ((t (some 3)).outerAtom k pa op.toNat ty b.toNat 0)
    | .cas ty cmp new => .next ((t (some 3)).outerAtom k pa 7 ty cmp.toNat new.toNat)

/-! ## Requests of the device that fail (R392, R397) -/

/-- A lane of a request that meets R392: its value is bad, a write is lost. -/
def lostLane (t : State) (_ : Access) (_ : Nat) (_ : Place) : LaneRes := .bad t

/-- Lanes of an access, not yet performed, whose bytes lie in a region that satisfies `f`. -/
def Access.lanesIn (a : Access) (f : Region → Bool) : Mask :=
  match a.place with
  | none => 0
  | some t => a.lanes &&& ~~~ a.done &&& maskOf fun i => match Tab.at? t i.val with
    | some p => !a.spad && f (regionOf p.pa)
    | none => false

/-- The lanes of access `a` that lie in such a region meet R392, with one record for the request of each line. -/
def State.loseLanes (s : State) (c : Nat) (x : Crew) (a : Access) (m : Mask) : Host.Outcome State Fault Refusal :=
  afterPerform s c a (performLanes lostLane c (lanesOf m) a (s.linkRecords (s.accessWho x a) (a.newLines m fun _ => true)))

def Region.outside (r : Region) : Bool :=
  match r with
  | .host => true
  | .peer _ => true
  | _ => false

/-- REQUEST_TIMEOUT (R392): no completion within 10 ms for the lanes of an access to the host or to peers. -/
def execRequestTimeout (c a : Nat) (s : State) : Host.Outcome State Fault Refusal :=
  match s.access? c a with
  | none => s.passOver
  | some (x, b) =>
    let m := b.lanesIn Region.outside
    if m = 0 || !(s.mayPerform c x b m) then s.passOver else s.loseLanes c x b m

/-- The region is a peer whose requests travel on link `l` now. -/
def State.onLink (s : State) (l : Nat) (r : Region) : Bool :=
  match r with
  | .peer _ => s.reachable r && s.linkOf r == (0x0D, instOf 4 l)
  | _ => false

/-- The accesses of every crew that have a request outstanding on link `l`. DEDUCED: a request is outstanding from the
moment at which its lanes may be performed (log 40). -/
def State.outstandingOn (s : State) (l : Nat) : List (Nat × Nat × Mask) :=
  (s.crews.map fun p => (p.2.acc.map fun a => (p.1, a.id, a.lanesIn (s.onLink l))).filter fun q =>
    q.2.2 != 0 && match s.access? p.1 q.2.1 with
      | some (x, b) => s.mayPerform p.1 x b q.2.2
      | none => false).flatten

/-- The virtual ranges of memory that a command's requests name; `n`: the ranks of an ECOLL's group. -/
def CmdKind.ranges (w : CmdKind) (n : Nat) : List (Nat × Nat) :=
  match w with
  | .nothing => []
  | .ecpy kind _ va len sb _ => (va, len) :: (if kind = 5 then [(sb, len)] else [])
  | .egathName ty addr _ _ => addr.map fun p => (p.2, Ty.size ty)
  | .egathRow addr rb _ => addr.map fun p => (p.2, rb)
  | .escatName ty addr _ => addr.map fun p => (p.2, Ty.size ty)
  | .escatRow addr rb _ => addr.map fun p => (p.2, rb)
  | .ecoll fn _ ty va count group _ =>
    [(va, Ty.size ty * count * (if fn = 3 ∨ fn = 4 then n else 1)), (group, 16 + 8 * n)]
  | .put va data => [(va, data.length)]
  | .fork addr _ next _ => [(addr + 64 * next, 64)]

/-- The ranges that a command's requests name: of a program, those of the record that it has reached and of what this does. -/
def State.cmdRanges (s : State) (m : Cmd) : List (Nat × Nat) :=
  let own := m.what.ranges 0
  match s.reached m with
  | .plan t p =>
    let n := match p.what with
      | .ecoll fn op ty va count group root => match t.groupAt m ⟨fn, op, ty, va, count, group, root⟩ with
        | .ok _ g => g.nrank
        | _ => 0
      | _ => 0
    (if m.begun.isSome ∨ p.what = m.what then [] else own) ++ p.what.ranges n
  | _ => own

/-- The first address of a range that a command reaches in a region that satisfies `f`. -/
def State.rangeIn (s : State) (ctx : Nat) (f : Region → Bool) (r : Nat × Nat) : Option (Nat × Nat) :=
  (List.range (r.2 / 65536 + 2)).findSome? fun i =>
    let va := if i = 0 then r.1 else (r.1 / 65536 + i) * 65536
    if r.1 + r.2 ≤ va then none
    else match s.translateSys ctx .read va 1 with
      | .ok p => if f (regionOf p.pa) then some (va, p.pa) else none
      | _ => none

/-- The engine command `k` has a request outstanding on link `l`, which meets R392: the command fails (R397). -/
def State.loseCmd (s : State) (l k : Nat) : State :=
  match Tab.at? s.cmds k with
  | none => s
  | some m =>
    if m.isOver then s
    else match (s.cmdRanges m).findSome? (s.rangeIn m.ctx (s.onLink l)) with
      | none => s
      | some (va, pa) =>
        (s.linkRecord m.agent.who (regionOf pa) pa).finishCmd k m (some ⟨cPoison, va, none⟩) zeroLanes

/-- LINK_DOWN (R397): UP clears, DOWNS counts, requests outstanding on the link meet R392: those of crews, and those of the
engine commands listed, which had begun (log 40). -/
def execLinkDown (l : Nat × List Nat) (s : State) : Host.Outcome State Fault Refusal :=
  let k := Tab.getD s.net.links l.1 Link.reset
  if !k.up then s.passOver
  else
    let down : Link := { k with up := false, downs := if k.downs = 255 then 255 else k.downs + 1 }
    let s1 := (s.outstandingOn l.1).foldl (fun t q => match t.access? q.1 q.2.1 with
      | some (x, a) => match t.loseLanes q.1 x a q.2.2 with
        | .next u => u
        | _ => t
      | none => t) (l.2.foldl (fun t k => t.loseCmd l.1 k) s)
    .next { s1 with net := { s1.net with links := Tab.put s1.net.links l.1 down } }

/-- LINK_TRAINED (R395): the peer's fabric number is learned, and the link is usable. -/
def execLinkTrained (l : Nat) (peer : BitVec 16) (s : State) : Host.Outcome State Fault Refusal :=
  let k := Tab.getD s.net.links l Link.reset
  if k.up || 18 ≤ l then s.passOver
  else .next { s with net := { s.net with links := Tab.put s.net.links l { k with peer := peer, up := true } } }

/-- HOST_LINK_DOWN (R392): every later request to the host region fails at once. -/
def execHostLinkDown (s : State) : Host.Outcome State Fault Refusal :=
  if s.net.host then .next { s with net := { s.net with host := false } } else s.passOver

/-! ## Storage (R393, R394) -/

def State.pair (s : State) (port i : Nat) : Pair := Tab.getD s.store.pairs (128 * port + i) Pair.reset

/-- The firmware, once it runs, creates I/O queue pair `pair` of a port, with both rings in this device's HBM (R393): entries of
64 bytes for submission and of 16 for completion. PRESUMED: the sizes of NVMe, which the spec does not restate (log 85). -/
def State.makePair (s : State) (port pair : Nat) (p : Pair) : Host.Outcome State Fault Refusal :=
  let n := p.size.toNat
  if port < 4 && decide (1 ≤ pair ∧ pair ≤ 64) && s.sec.boot == 3 && n != 0 && hbmOk p.sqPa (64 * n)
      && hbmOk p.cqPa (16 * n) then
    .next { s with store := { s.store with pairs := Tab.put s.store.pairs (128 * port + pair) p } }
  else s.passOver

/-- STORAGE_DOORBELL (R394): SQTAIL and CQHEAD are written and forwarded to the controller; the ring size is not. -/
def execStorageDoorbell (port pair : Nat) (v : DWord) (s : State) : Host.Outcome State Fault Refusal :=
  if 4 ≤ port ∨ pair < 1 ∨ 64 < pair then s.passOver
  else
    let p := { s.pair port pair with sq := v.extractLsb' 48 16, cq := v.extractLsb' 32 16 }
    .next { s with store := { s.store with pairs := Tab.put s.store.pairs (128 * port + pair) p } }

/-- STORAGE_DMA (R394, R316): data into HBM at entry point 2, or out of it at exit point 2, within one frame. -/
def execStorageDma (port pa : Nat) (req : DmaReq) (s : State) : Host.Outcome State Fault Refusal :=
  let n := match req with
    | .read n => n
    | .write bs => bs.length
  if !(hbmOk pa n) || n = 0 || 65536 < pa % 65536 + n then .next (s.answerReq .abort)
  else match s.frameKey pa with
    | none => .next (s.answerReq .abort)
    | some k => match req with
      | .read n => .next ((s.outerCanary pa 0x0C (instOf 4 port) (some 2)).outerRead k pa n)
      | .write bs => .next ((s.outerCanary pa 0x0C (instOf 4 port) none).outerWrite k pa bs)

/-! ## The registers of BAR0 as they read (R388 to R390, R394, R395) -/

/-- The 8 bytes at offset `i` of an area as a register. -/
def area (bs : List Byte) (i : Nat) : DWord := BitVec.ofNat 64 (ofBytesLE ((bs.drop i).take 8))

/-- LTDATA (R319, R389): the lifetime record that LTSEL names. -/
def State.ltdata (s : State) : List Byte :=
  let v := s.sec.ltsel.toNat
  let kind := v / 256 % 256
  let inst := instOf (v / 65536) (v % 256)
  if hasLife kind && unitExists kind inst then
    let l := s.life kind inst
    bytesLE 8 (kind * 2 ^ 56 + inst * 2 ^ 40) ++ bytesLE 8 l.ue ++ bytesLE 8 s.rel.ontime
      ++ bytesLE 8 (b2n l.revoked + l.ceil.toNat * 16)
      ++ ((List.range 64).map fun i => bytesLE 4 (Tab.getD l.hist i 0)).flatten ++ List.replicate 32 0#8
  else List.replicate 320 0#8

/-- BOOTSTAT (R356). -/
def Sec.bootstat (k : Sec) : DWord := put k.port.toNat 16 2 ||| put k.code.toNat 8 8 ||| put k.boot.toNat 0 4

/-- FWHO (R357). -/
def Sec.fwho (k : Sec) : DWord := put k.fwErr.toNat 16 8 ||| put k.hstage.toNat 8 2 ||| put k.fwState.toNat 0 2

/-- KEYCMD (R359). -/
def State.keycmd (s : State) : DWord :=
  put s.sec.kcStat.toNat 24 8 ||| put (s.keySlot s.sec.kcSlot.toNat).state.toNat 16 2 ||| put s.sec.kcSlot.toNat 0 7

/-- CTXASG (R389). -/
def Sec.ctxasg (k : Sec) : DWord := put k.asgCtx.toNat 48 16 ||| put k.asgCount.toNat 32 13 ||| put k.asgRes.toNat 1 2

/-- SCRUBSTAT (R364). -/
def Scrub.stat (k : Scrub) : DWord := put k.idx.toNat 16 12 ||| put (b2n k.rsm) 2 1 ||| put k.state.toNat 0 2

/-- ARBSTAT (R384). -/
def State.arbstat (s : State) : DWord :=
  let a := s.arb
  put (b2n a.pend.isSome) 49 1 ||| put (b2n a.table.isSome) 48 1
    ||| put (s.stepOf 0 + 8 * s.stepOf 1 + 64 * s.stepOf 2 + 512 * s.stepOf 3) 36 12
    ||| put (a.ceil[0] + 16 * a.ceil[1] + 256 * a.ceil[2] + 4096 * a.ceil[3]) 20 16
    ||| put a.band 8 3 ||| put a.temp.toNat 0 8

/-- Register `i` of the device block (R389). MINSVNSET reads MINSVN: DEDUCED (log 41). -/
def State.deviceReg (s : State) (i : Nat) : DWord :=
  let k := s.sec
  match i with
  | 0 => k.bootstat
  | 1 => k.minsvn
  | 2 => BitVec.ofNat 64 k.fwimg
  | 3 => k.fwho
  | 4 => BitVec.ofNat 64 k.attAddr ||| put (b2n k.attDone) 1 1
  | 5 => s.keycmd
  | 6 => BitVec.ofNat 64 k.asgAddr
  | 7 => k.ctxasg
  | 8 => k.scrub.prog
  | 9 => k.scrub.total
  | 10 => k.scrub.stat
  | 11 => put s.arb.cap.toNat 0 12
  | 12 => BitVec.ofNat 64 s.arb.tabAddr ||| put (b2n s.arb.tabErr) 1 1
  | 13 => s.arbstat
  | 14 => s.arb.grant.word
  | 15 => BitVec.ofNat 64 s.rel.base
  | 16 => put s.rel.log2n.toNat 4 5 ||| put (b2n s.rel.en) 0 1
  | 17 => s.rel.tail
  | 18 => s.rel.head
  | 19 => put (b2n s.rel.ovf) 63 1 ||| put s.rel.drops 0 32
  | 20 => put k.ltsel.toNat 0 19
  | _ => 0#64

/-- The device block (R389); `off` a multiple of 8. -/
def State.deviceRead (s : State) (off : Nat) : DWord :=
  if off < 0x100 then s.deviceReg (off / 8)
  else if off < 0x140 then area s.sec.nonce (off - 0x100)
  else if off < 0x200 then 0#64
  else if off < 0xA00 then
    BitVec.ofNat 64 (ofBytesLE ((List.range 8).map fun i =>
      if off - 0x200 + i < 1793 then Config.identityByte (off - 0x200 + i) else 0#8))
  else if off < 0xB40 then area s.ltdata (off - 0xA00)
  else if 0xC00 ≤ off ∧ off < 0xD00 then area ((s.sec.meas.toList.map fun m => m.take 64).flatten) (off - 0xC00)
  else if 0xD00 ≤ off ∧ off < 0xD40 then area s.sec.smeas (off - 0xD00)
  else 0#64

/-- The KIND and INST of the unit whose CANARY lies at `off` of a die's block (R388, R317). -/
def dieCanary (die off : Nat) : Option (Nat × Nat) :=
  if off < 0x400 then none
  else
    let kind := 6 + (off - 0x400) / 256
    let inst := instOf die ((off - 0x400) % 256 / 8)
    if decide (7 ≤ kind ∧ kind ≤ 0x0D) && !(coreKind kind) && unitExists kind inst then some (kind, inst) else none

/-- UVSTEPc (R390). -/
def Uv.word (u : Uv) : DWord := put (b2n u.rev) 8 1 ||| put (if u.rev then 0 else u.step.toNat) 0 3

/-- The block of a die. -/
def State.dieRead (s : State) (die off : Nat) : DWord :=
  if 8 ≤ off ∧ off < 0x28 ∧ uvExists die ((off - 8) / 8) then (s.uv die ((off - 8) / 8)).word
  else match dieCanary die off with
    | some (k, i) => BitVec.ofNat 64 (s.canaryOf k i)
    | none => 0#64

/-- LNKSTAT (R395). -/
def Link.stat (k : Link) : DWord := put k.peer.toNat 16 16 ||| put k.downs.toNat 8 8 ||| put (b2n k.up) 0 1

/-- The Bilnan block (R395). -/
def State.netRead (s : State) (off : Nat) : DWord :=
  if off = 0 then put s.net.id.toNat 0 10
  else if off = 8 then put s.net.key.toNat 0 7
  else if 0x100 ≤ off ∧ off < 0x190 then (Tab.getD s.net.links ((off - 0x100) / 8) Link.reset).stat
  else if 0x1000 ≤ off ∧ (off - 0x1000) / 8 < 1016 then put (Tab.getD s.net.route ((off - 0x1000) / 8) 0#18).toNat 0 18
  else 0#64

/-- The pair that the selector of a port names. -/
def State.selPair (s : State) (port : Nat) : Option Pair :=
  let i := (Tab.getD s.store.sel port 0#64).toNat
  if 1 ≤ i ∧ i ≤ 64 then some (s.pair port i) else none

/-- A storage port's block (R394). -/
def State.storeRead (s : State) (port off : Nat) : DWord :=
  if 8 ≤ off ∧ off ≤ 0x200 then
    let p := s.pair port (off / 8)
    put p.sq.toNat 48 16 ||| put p.cq.toNat 32 16 ||| put p.size.toNat 0 32
  else if off = 0x300 then (match s.selPair port with
    | some p => BitVec.ofNat 64 p.sqPa
    | none => 0#64)
  else if off = 0x308 then (match s.selPair port with
    | some p => BitVec.ofNat 64 p.cqPa
    | none => 0#64)
  else if off = 0x310 then Tab.getD s.store.sel port 0#64
  else 0#64

/-- A queue's registers (R263). -/
def State.queueRead (s : State) (q off : Nat) : DWord :=
  let w := s.queue q
  match off with
  | 0 => BitVec.ofNat 64 w.base
  | 8 => put w.ctx 16 16 ||| put w.log2n 8 5 ||| put (b2n w.en) 0 1
  | 0x10 => w.head
  | 0x18 => w.tail
  | 0x20 => put (b2n w.halt) 63 1 ||| put w.index 16 32 ||| put w.code 8 8
  | _ => 0#64

/-- A bind record (R276): its low word and its high word. -/
def Slot.word (b : Slot) (hi : Bool) : DWord :=
  if hi then put b.gid 0 48
  else put b.state 62 2 ||| put b.ctx 32 16 ||| put b.lid 16 16 ||| put b.index 0 5

/-- A sampler's or a trace unit's register `i` (R337, R343). -/
def Sampler.reg (r : Sampler) (trc : Bool) (i : Nat) : DWord :=
  match i with
  | 0 => if trc then put r.ctx.toNat 48 16 ||| put (b2n r.en) 32 1
         else put r.ctx.toNat 48 16 ||| put r.slot.toNat 44 4 ||| put (b2n r.rot) 40 1 ||| put (b2n r.en) 32 1
           ||| put r.per.toNat 0 32
  | 1 => BitVec.ofNat 64 r.base ||| put r.log2n 0 5
  | 2 => r.head
  | 3 => r.tail
  | 4 => r.drop
  | 5 => r.empty
  | _ => 0#64

/-- The canary KINDs of a core's block. -/
def coreCanary (off : Nat) : Option Nat :=
  if 0x800 ≤ off ∧ (off - 0x800) / 8 ≤ 0x0A ∧ coreKind ((off - 0x800) / 8) then some ((off - 0x800) / 8) else none

/-- A core's block (R388). -/
def State.coreRead (s : State) (k off : Nat) : DWord :=
  let c := s.core k
  if off < 0x400 then (match Tab.at? c.slots (off / 16) with
    | some b => b.word (off % 16 == 8)
    | none => 0#64)
  else if off < 0x440 then c.smp.reg false ((off - 0x400) / 8)
  else if off < 0x480 then c.trc.reg true ((off - 0x440) / 8)
  else match coreCanary off with
    | some n => BitVec.ofNat 64 (s.canaryOf n (coreInst k))
    | none => 0#64

/-- Bits 51:2 of an EVEC. -/
def evecBits (a : Addr) : DWord := BitVec.ofNat 64 (vector a).toNat

/-- A context's block (R390). -/
def State.ctxRead (s : State) (c off : Nat) : DWord :=
  let k := s.ctx c
  match off with
  | 0x00 => BitVec.ofNat 64 k.root ||| put (b2n k.promote) 0 1
  | 0x08 => put (b2n k.prot) 0 1 ||| put k.priv.toNat 1 2
  | 0x10 => put k.pre.toNat 34 2 ||| put (b2n k.req) 32 1 ||| put k.deadline.toNat 0 32
  | 0x18 => BitVec.ofNat 64 k.spill
  | 0x20 => BitVec.ofNat 64 k.alog ||| put k.alogN 0 5
  | 0x28 => BitVec.ofNat 64 k.mbox
  | 0x40 => put k.keyslot.toNat 0 7
  | 0x48 => evecBits k.evecU
  | 0x50 => evecBits k.evecS
  | 0x58 => evecBits k.evecW
  | _ => 0#64

/-- The parts of BAR0 (R388). -/
inductive Bar where
  | device (off : Nat)
  | die (d off : Nat)
  | net (off : Nat)
  | store (port off : Nat)
  | queue (q off : Nat)
  | core (k off : Nat)
  | ctx (c off : Nat)
  | none
  deriving DecidableEq, Repr

/-- Where an offset of BAR0 leads (R388). -/
def barOf (off : Nat) : Bar :=
  if off < 0x1000 then .device off
  else if 0x10000 ≤ off ∧ off < 0x15000 then .die ((off - 0x10000) / 0x1000) (off % 0x1000)
  else if 0x20000 ≤ off ∧ off < 0x24000 then .net (off - 0x20000)
  else if 0x30000 ≤ off ∧ off < 0x31000 then .store ((off - 0x30000) / 0x400) (off % 0x400)
  else if 0x200000 ≤ off ∧ off < 0x210000 then .queue ((off - 0x200000) / 64) (off % 64)
  else if 0x400000 ≤ off ∧ off < 0x580000 then .core ((off - 0x400000) / 0x2000) (off % 0x2000)
  else if 0x800000 ≤ off ∧ off < 0x1000000 then .ctx ((off - 0x800000) / 128) (off % 128)
  else .none

/-- The register at an offset of BAR0, a multiple of 8, as it reads (R388). -/
def State.bar0 (s : State) (off : Nat) : DWord :=
  match barOf off with
  | .device o => s.deviceRead o
  | .die d o => s.dieRead d o
  | .net o => s.netRead o
  | .store p o => s.storeRead p o
  | .queue q o => s.queueRead q o
  | .core k o => s.coreRead k o
  | .ctx c o => s.ctxRead c o
  | .none => 0#64

/-- An access of BAR0 is 4 or 8 bytes, naturally aligned (R388). -/
def barOk (off size : Nat) : Bool := (size == 4 || size == 8) && off % size == 0

/-- A read of BAR0 (R388): every earlier write has taken effect. -/
def State.barRead (s : State) (off size : Nat) : Resp :=
  if !(barOk off size) then .unsupported
  else
    let v := (s.bar0 (off / 8 * 8)).toNat
    .data (bytesLE size (if size = 4 ∧ off % 8 = 4 then v / 2 ^ 32 else v)) false

/-- The host reads BAR0 (R388). -/
def State.hostBar (s : State) (off size : Nat) : Host.Outcome State Fault Refusal :=
  if !s.net.host || 0x4000000 ≤ off then s.passOver else .next (s.answerReq (s.barRead off size))

/-! ## REGISTER_WRITE (R388 to R390, R394, R395) -/

/-- What a write of a register brings: its value, the halves not written as the register reads, and which halves are
written. -/
structure RegWrite where
  v  : DWord
  lo : Bool
  hi : Bool
  deriving DecidableEq, Repr

/-- The halves that are written, the others 0: for bits that act when 1 is written to them. -/
def RegWrite.only (w : RegWrite) : DWord :=
  (if w.lo then w.v &&& 0xFFFFFFFF#64 else 0#64) ||| (if w.hi then w.v &&& 0xFFFFFFFF00000000#64 else 0#64)

/-- Put written bytes into an area of 64 bytes. -/
def RegWrite.patchArea (w : RegWrite) (old : List Byte) (i : Nat) : List Byte :=
  let bs := bytesLE 8 w.v.toNat
  let a := if w.lo then patch old i (bs.take 4) else old
  if w.hi then patch a (i + 4) (bs.drop 4) else a

/-- FWHO (R357). -/
def writeFwho (w : RegWrite) (s : State) : Host.Outcome State Fault Refusal :=
  match fld w.only 6 4 with
  | 1 => execStage s
  | 2 => execCommit s
  | 3 => execAbort s
  | _ => .next s

/-- KEYCMD (R359): the slot, then the operation. -/
def writeKeycmd (w : RegWrite) (s : State) : Host.Outcome State Fault Refusal :=
  let slot : BitVec 7 := w.v.extractLsb' 0 7
  let t := { s with sec := { s.sec with kcSlot := slot } }
  match fld w.only 10 8 with
  | 1 => execGen slot t
  | 2 => execLoad slot t
  | 3 => execZero slot t
  | _ => .next t

/-- A register of the device block (R389, R306, R357 to R364, R383). -/
def writeDeviceReg (i : Nat) (w : RegWrite) (s : State) : Host.Outcome State Fault Refusal :=
  let v := w.v
  let k := s.sec
  let r := s.rel
  match i with
  | 1 => execMinsvnset v s
  | 2 => .next { s with sec := { k with fwimg := fld v 51 12 * 4096 } }
  | 3 => writeFwho w s
  | 4 => execAttctlGo v s
  | 5 => writeKeycmd w s
  | 6 => .next { s with sec := { k with asgAddr := fld v 51 4 * 16 } }
  | 7 => execCtxasgGo v s
  | 9 => .next (if k.scrub.state = 1 then s else { s with sec := { k with scrub := { k.scrub with total := v } } })
  | 11 => execPwrcap v s
  | 15 => .next (if r.en then s else { s with rel := { r with base := fld v 51 6 * 64 } })
  | 16 => .next { s with rel := { r with en := v[0], log2n := if r.en then r.log2n else v.extractLsb' 4 5 } }
  | 18 => .next (if v.toNat ≤ r.tail.toNat ∧ r.tail.toNat ≤ v.toNat + 2 ^ r.log2n.toNat then
      { s with rel := { r with head := v } } else s)
  | 19 => if w.only[63] then execErrstatOvfClear s else .next s
  | 20 => .next { s with sec := { k with ltsel := v.extractLsb' 0 19 } }
  | _ => .next s

/-- The device block. KEYDATA is write-only, ATTNONCE is not (R358, R359). -/
def writeDevice (off : Nat) (w : RegWrite) (s : State) : Host.Outcome State Fault Refusal :=
  let k := s.sec
  if off < 0x100 then writeDeviceReg (off / 8) w s
  else if off < 0x140 then .next { s with sec := { k with nonce := w.patchArea k.nonce (off - 0x100) } }
  else if off < 0x180 then .next { s with sec := { k with keyData := w.patchArea k.keyData (off - 0x140) } }
  else .next s

/-- UVSTEPc (R390): REV first, then STEP. -/
def writeUv (die dom : Nat) (w : RegWrite) (s : State) : Host.Outcome State Fault Refusal :=
  if !w.lo then .next s
  else
    let t := if w.v[8] then execUvstepRev die dom s else .next s
    match t with
    | .next u => execUvstepStep die dom (w.v.extractLsb' 0 3) u
    | r => r

/-- The block of a die. -/
def writeDie (die off : Nat) (w : RegWrite) (s : State) : Host.Outcome State Fault Refusal :=
  if off = 0 then execPoisonclr die w.only s
  else if 8 ≤ off ∧ off < 0x28 ∧ uvExists die ((off - 8) / 8) then writeUv die ((off - 8) / 8) w s
  else match dieCanary die off with
    | some (k, i) => .next (s.setCanary k i w.v.toNat)
    | none => .next s

/-- The Bilnan block (R395). -/
def writeNet (off : Nat) (w : RegWrite) (s : State) : Host.Outcome State Fault Refusal :=
  let n := s.net
  if off = 0 then .next { s with net := { n with id := w.v.extractLsb' 0 10 } }
  else if off = 8 then .next { s with net := { n with key := w.v.extractLsb' 0 7 } }
  else if 0x1000 ≤ off ∧ (off - 0x1000) / 8 < 1016 then
    .next { s with net := { n with route := Tab.put n.route ((off - 0x1000) / 8) (w.v.extractLsb' 0 18) } }
  else .next s

/-- A storage port's block (R394). -/
def writeStore (port off : Nat) (w : RegWrite) (s : State) : Host.Outcome State Fault Refusal :=
  if 8 ≤ off ∧ off ≤ 0x200 then (if w.hi then execStorageDoorbell port (off / 8) w.v s else .next s)
  else if off = 0x310 then .next { s with store := { s.store with sel := Tab.put s.store.sel port w.v } }
  else .next s

/-- A queue's registers (R263, R267). -/
def writeQueue (q off : Nat) (w : RegWrite) (s : State) : Host.Outcome State Fault Refusal :=
  match off with
  | 0 => .next (s.modQueue q fun k => if k.en then k else { k with base := fld w.v 51 6 * 64 })
  | 8 => .next (s.modQueue q fun k =>
      if k.en then { k with en := w.v[0] }
      else { k with ctx := fld w.v 31 16, log2n := fld w.v 12 8, en := w.v[0] })
  | 0x18 => execQtail q w.v s
  | 0x20 => if w.hi then execQstatHalt q w.v[63] s else .next s
  | _ => .next s

/-- A sampler's or a trace unit's register; SMPCFG stands apart (R337, R343). -/
def Sampler.write (r : Sampler) (i : Nat) (v : DWord) : Sampler :=
  match i with
  | 1 => { r with base := fld v 51 12 * 4096, log2n := fld v 4 0 }
  | 2 => { r with head := v }
  | 4 => { r with drop := 0 }
  | 5 => { r with empty := 0 }
  | _ => r

/-- A core's block (R388): the slot table is read-only. -/
def writeCore (k off : Nat) (w : RegWrite) (s : State) : Host.Outcome State Fault Refusal :=
  if off < 0x400 then .next s
  else if off = 0x400 then
    (if w.hi then execSmpcfg k w.v s
     else .next (s.modCore k fun c => { c with smp := { c.smp with per := w.v.extractLsb' 0 32 } }))
  else if off < 0x440 then .next (s.modCore k fun c => { c with smp := c.smp.write ((off - 0x400) / 8) w.v })
  else if off = 0x440 then
    .next (s.modCore k fun c => { c with trc := { c.trc with ctx := w.v.extractLsb' 48 16, en := w.v[32] } })
  else if off < 0x480 then .next (s.modCore k fun c => { c with trc := c.trc.write ((off - 0x440) / 8) w.v })
  else match coreCanary off with
    | some n => .next (s.setCanary n (coreInst k) w.v.toNat)
    | none => .next s

/-- CTXPRE (R283): DEADLINE is stored, and REQ acts where its half is written. -/
def writeCtxpre (c : Nat) (w : RegWrite) (s : State) : Host.Outcome State Fault Refusal :=
  let d : BitVec 32 := w.v.extractLsb' 0 32
  let t := s.modCtx c fun k => { k with deadline := d }
  if !w.hi then .next t
  else if w.v[32] then execCtxpreReqSet c d t
  else execCtxpreReqClear c t

/-- CTXCFG (R390): ignored after the context's first launch; a PRIV of 3 is ignored. The mailbox of a context that becomes
protected is ignored from then on (R362). -/
def Ctx.writeCfg (k : Ctx) (v : DWord) : Ctx :=
  if k.launched then k
  else { k with
    prot := v[0], mbReq := if v[0] then none else k.mbReq, priv := if fld v 2 1 = 3 then k.priv else v.extractLsb' 1 2 }

/-- Bits 51:2 of an EVEC are written (R390). -/
def evecPut (old : Addr) (v : DWord) : Addr := (v.extractLsb' 0 52 &&& ~~~ 3#52) ||| (old &&& 3#52)

/-- A context's block (R390). -/
def writeCtx (c off : Nat) (w : RegWrite) (s : State) : Host.Outcome State Fault Refusal :=
  let v := w.v
  let m (f : Ctx → Ctx) : Host.Outcome State Fault Refusal := .next (s.modCtx c f)
  match off with
  | 0x00 => execCtxroot c v s
  | 0x08 => m fun k => k.writeCfg v
  | 0x10 => writeCtxpre c w s
  | 0x18 => m fun k => { k with spill := fld v 51 16 * 65536 }
  | 0x20 => m fun k => { k with alog := fld v 51 16 * 65536, alogN := fld v 4 0 }
  | 0x28 => execDbgmbox c v s
  | 0x30 => execDbgbell c s
  | 0x38 => execEvraise c w.only s
  | 0x40 => .next (s.setKeyslot c (v.extractLsb' 0 7))
  | 0x48 => m fun k => { k with evecU := evecPut k.evecU v }
  | 0x50 => m fun k => { k with evecS := evecPut k.evecS v }
  | 0x58 => m fun k => { k with evecW := evecPut k.evecW v }
  | _ => .next s

/-- A write to a part of BAR0. -/
def writeBar (b : Bar) (w : RegWrite) (s : State) : Host.Outcome State Fault Refusal :=
  match b with
  | .device o => writeDevice o w s
  | .die d o => writeDie d o w s
  | .net o => writeNet o w s
  | .store p o => writeStore p o w s
  | .queue q o => writeQueue q o w s
  | .core k o => writeCore k o w s
  | .ctx c o => writeCtx c o w s
  | .none => .next s

/-- The write of one access: an access of 4 bytes reaches one half of its register (R388). -/
def regWrite (s : State) (off size : Nat) (v : DWord) : RegWrite :=
  if size = 8 then ⟨v, true, true⟩
  else
    let old := s.bar0 (off / 8 * 8)
    if off % 8 = 0 then ⟨(old &&& 0xFFFFFFFF00000000#64) ||| (v &&& 0xFFFFFFFF#64), true, false⟩
    else ⟨(old &&& 0xFFFFFFFF#64) ||| (v <<< 32), false, true⟩

/-- REGISTER_WRITE (R388): any access but 4 or 8 aligned bytes is answered with Unsupported Request. -/
def execRegisterWrite (off size : Nat) (v : DWord) (s : State) : Host.Outcome State Fault Refusal :=
  if !s.net.host || 0x4000000 ≤ off then s.passOver
  else if !(barOk off size) then .next (s.answerReq .unsupported)
  else writeBar (barOf (off / 8 * 8)) (regWrite s off size v) s

end Sys2Proof.Machine
end

