-- ==== Sys2Proof/Machine/IntAlu.lean ====
section
/-!
DEFINITION. Machine/IntAlu.lean: the integer, address, logical and bit-field instructions (R115 to R120).
-/

namespace Sys2Proof.Machine

open Sys2Proof

/-- IADD (R115). -/
def execIadd (f : FnT) (x : Ops) (s : State) : Host.Outcome State Fault Refusal :=
  issueStep 0x20 x false (fun c => laneBinary c f x (Alu.iadd f)) s

/-- ISUB (R115). -/
def execIsub (f : FnT) (x : Ops) (s : State) : Host.Outcome State Fault Refusal :=
  issueStep 0x21 x false (fun c => laneBinary c f x (Alu.isub f)) s

/-- IMUL (R115). -/
def execImul (f : FnT) (x : Ops) (s : State) : Host.Outcome State Fault Refusal :=
  issueStep 0x22 x false (fun c => laneBinary c f x (Alu.imul f)) s

/-- IMULH (R115). -/
def execImulh (f : FnT) (x : Ops) (s : State) : Host.Outcome State Fault Refusal :=
  issueStep 0x23 x false (fun c => laneBinary c f x (Alu.imulh f)) s

/-- IMAD (R115). -/
def execImad (f : FnT) (x : Ops) (s : State) : Host.Outcome State Fault Refusal :=
  issueStep 0x24 x false (fun c => laneTernary c f x (Alu.imad f)) s

/-- IDIV (R116). -/
def execIdiv (f : FnT) (x : Ops) (s : State) : Host.Outcome State Fault Refusal :=
  issueStep 0x25 x false (fun c => laneBinary c f x (Alu.idiv f)) s

/-- IREM (R116). -/
def execIrem (f : FnT) (x : Ops) (s : State) : Host.Outcome State Fault Refusal :=
  issueStep 0x26 x false (fun c => laneBinary c f x (Alu.irem f)) s

/-- IMIN (R115). -/
def execImin (f : FnT) (x : Ops) (s : State) : Host.Outcome State Fault Refusal :=
  issueStep 0x27 x false (fun c => laneBinary c f x (Alu.imin f)) s

/-- IMAX (R115). -/
def execImax (f : FnT) (x : Ops) (s : State) : Host.Outcome State Fault Refusal :=
  issueStep 0x28 x false (fun c => laneBinary c f x (Alu.imax f)) s

/-- IABS (R115). -/
def execIabs (f : FnT) (x : Ops) (s : State) : Host.Outcome State Fault Refusal :=
  issueStep 0x29 x false (fun c => laneUnary c f x (Alu.iabs f)) s

/-- INEG (R115). -/
def execIneg (f : FnT) (x : Ops) (s : State) : Host.Outcome State Fault Refusal :=
  issueStep 0x2A x false (fun c => laneUnary c f x (Alu.ineg f)) s

/-- ICMP (R118). -/
def bodyIcmp (c : Nat) (f : FnT) (x : Ops) : M Unit := do
  let va ← readSrc c x.head x.sa f.ty.wide
  let vb ← readB c f.ty f.ty.wide x
  writeCond c f x fun i => Alu.icmp f va[i].toNat vb[i].toNat

/-- ICMP: a condition to a name, a scalar or a mask (R118). -/
def execIcmp (f : FnT) (x : Ops) (s : State) : Host.Outcome State Fault Refusal :=
  issueStep 0x2B x false (fun c => bodyIcmp c f x) s

/-- IADDC (R119): a pair of sum and carry, or the 33-bit value in a scalar. -/
def bodyIaddc (c : Nat) (f : FnT) (x : Ops) : M Unit := do
  let va ← readSrc c x.head x.sa false
  let vb ← readB c f.ty false x
  let vc ← readSrc c x.head x.sc false
  let m ← emask c x.head
  let r (i : Fin 32) : DWord := BitVec.ofNat 64 (Alu.iaddc va[i].toNat vb[i].toNat vc[i].toNat)
  if x.head.uni then writeScalar c x.dst (r 0)
  else storeVec c x true none (Vector.ofFn r) m

/-- LEA (R120): a is a pair or a scalar, b and c are single names or scalars. -/
def bodyLea (c : Nat) (x : Ops) : M Unit := do
  let va ← readSrc c x.head x.sa true
  let vb ← readB c .n64 false x
  let vc ← readSrc c x.head x.sc false
  let m ← emask c x.head
  let r (i : Fin 32) : DWord := BitVec.ofNat 64 (Alu.lea (x.head.len == 2) va[i].toNat vb[i].toNat vc[i].toNat)
  if x.head.uni then writeScalar c x.dst (r 0)
  else storeVec c x true none (Vector.ofFn r) m

/-- IADDC (R119). -/
def execIaddc (f : FnT) (x : Ops) (s : State) : Host.Outcome State Fault Refusal :=
  issueStep 0x2C x false (fun c => bodyIaddc c f x) s

/-- LEA (R120). -/
def execLea (_f : FnT) (x : Ops) (s : State) : Host.Outcome State Fault Refusal :=
  issueStep 0x2D x false (fun c => bodyLea c x) s

/-- AND (R115). -/
def execAndB (f : FnT) (x : Ops) (s : State) : Host.Outcome State Fault Refusal :=
  issueStep 0x30 x false (fun c => laneBinary c f x (Alu.andN f)) s

/-- OR (R115). -/
def execOrB (f : FnT) (x : Ops) (s : State) : Host.Outcome State Fault Refusal :=
  issueStep 0x31 x false (fun c => laneBinary c f x (Alu.orN f)) s

/-- XOR (R115). -/
def execXorB (f : FnT) (x : Ops) (s : State) : Host.Outcome State Fault Refusal :=
  issueStep 0x32 x false (fun c => laneBinary c f x (Alu.xorN f)) s

/-- ANDN (R115). -/
def execAndnB (f : FnT) (x : Ops) (s : State) : Host.Outcome State Fault Refusal :=
  issueStep 0x33 x false (fun c => laneBinary c f x (Alu.andnN f)) s

/-- NOT (R115). -/
def execNotB (f : FnT) (x : Ops) (s : State) : Host.Outcome State Fault Refusal :=
  issueStep 0x34 x false (fun c => laneUnary c f x (Alu.notN f)) s

/-- SHL (R117). -/
def execShl (f : FnT) (x : Ops) (s : State) : Host.Outcome State Fault Refusal :=
  issueStep 0x35 x false (fun c => laneBinary c f x (Alu.shl f)) s

/-- SHR (R117). -/
def execShr (f : FnT) (x : Ops) (s : State) : Host.Outcome State Fault Refusal :=
  issueStep 0x36 x false (fun c => laneBinary c f x (Alu.shr f)) s

/-- SAR (R117). -/
def execSar (f : FnT) (x : Ops) (s : State) : Host.Outcome State Fault Refusal :=
  issueStep 0x37 x false (fun c => laneBinary c f x (Alu.sar f)) s

/-- ROT (R117). -/
def execRot (f : FnT) (x : Ops) (s : State) : Host.Outcome State Fault Refusal :=
  issueStep 0x38 x false (fun c => laneBinary c f x (Alu.rot f)) s

/-- POPC (R115). -/
def execPopc (f : FnT) (x : Ops) (s : State) : Host.Outcome State Fault Refusal :=
  issueStep 0x39 x false (fun c => laneUnary c f x (Alu.popc f)) s

/-- CLZ (R115). -/
def execClz (f : FnT) (x : Ops) (s : State) : Host.Outcome State Fault Refusal :=
  issueStep 0x3A x false (fun c => laneUnary c f x (Alu.clz f)) s

/-- BREV (R115). -/
def execBrev (f : FnT) (x : Ops) (s : State) : Host.Outcome State Fault Refusal :=
  issueStep 0x3B x false (fun c => laneUnary c f x (Alu.brev f)) s

/-- BFX: the spec is source b (R117). -/
def execBfx (f : FnT) (x : Ops) (s : State) : Host.Outcome State Fault Refusal :=
  issueStep 0x3C x false (fun c => laneBinary c f x (Alu.bfx f)) s

/-- BFI: the spec is source c (R117). -/
def execBfi (f : FnT) (x : Ops) (s : State) : Host.Outcome State Fault Refusal :=
  issueStep 0x3D x false (fun c => laneTernary c f x (Alu.bfi f)) s

end Sys2Proof.Machine
end

