-- ==== Sys2Proof/Machine/Names.lean ====
section
/-!
DEFINITION. Machine/Names.lean: moves, counts, open entries, floors and the cede pool (R87 to R97).
-/

namespace Sys2Proof.Machine

open Sys2Proof

/-- MOV (R88). -/
def bodyMov (c : Nat) (x : Ops) : M Unit := do
  let va ← readSrc c x.head x.sa false
  let m ← emask c x.head
  if x.head.uni then writeScalar c x.dst va[0] else storeVec c x false none va m

/-- MOV (R88). -/
def execMov (x : Ops) (s : State) : Host.Outcome State Fault Refusal :=
  issueStep 0x10 x false (fun c => bodyMov c x) s

/-- MOVI (R88). -/
def bodyMovi (c : Nat) (x : Ops) : M Unit := do
  let m ← emask c x.head
  if x.head.uni then writeScalar c x.dst x.ext else storeVec c x false none (Vector.replicate 32 x.ext) m

/-- MOVI (R88). -/
def execMovi (x : Ops) (s : State) : Host.Outcome State Fault Refusal :=
  issueStep 0x11 x false (fun c => bodyMovi c x) s

/-- SEL (R88): all three sources are read. -/
def bodySel (c : Nat) (x : Ops) : M Unit := do
  let va ← readSrc c x.head x.sa false
  let vb ← readSrc c x.head x.sb false
  let vc ← readSrc c x.head x.sc false
  let m ← emask c x.head
  let r (i : Fin 32) : DWord := if vc[i] ≠ 0 then va[i] else vb[i]
  if x.head.uni then writeScalar c x.dst (r 0) else storeVec c x false none (Vector.ofFn r) m

/-- SEL (R88). -/
def execSel (x : Ops) (s : State) : Host.Outcome State Fault Refusal :=
  issueStep 0x12 x false (fun c => bodySel c x) s

/-- DROP (R89). -/
def execDrop (x : Ops) (s : State) : Host.Outcome State Fault Refusal :=
  issueStep 0x13 x false (fun c => dropName c x.sa.toNat) s

/-- dropk(N, K) of R89. -/
def bodyDropk (c n k : Nat) : M Unit := do
  let (b, e) ← lookup c n
  check (e.st != .leased) cLease
  check (b.count != 15 && decide (k ≤ b.count)) cNameFault
  if k = b.count then dropName c n else setName c n { b with count := b.count - k }

/-- DROPK (R89). -/
def execDropk (k : BitVec 12) (x : Ops) (s : State) : Host.Outcome State Fault Refusal :=
  issueStep 0x14 x false (fun c => bodyDropk c x.sa.toNat k.toNat) s

/-- keep(N, K) of R89. -/
def bodyKeep (c n k : Nat) : M Unit := do
  let (b, e) ← lookup c n
  check (e.st != .leased) cLease
  if b.count ≠ 15 then
    check (decide (b.count + k ≤ 14)) cNameFault
    setName c n { b with count := b.count + k }

/-- KEEP (R89). -/
def execKeep (k : BitVec 12) (x : Ops) (s : State) : Host.Outcome State Fault Refusal :=
  issueStep 0x15 x false (fun c => bodyKeep c x.sa.toNat k.toNat) s

/-- OPEN (R93): the entry is open, its window address goes to the scalar. -/
def bodyOpen (c : Nat) (x : Ops) : M Unit := do
  let es ← allocNames c [x.dst.toNat] x.cnt.toNat .opened
  let y ← crewM c
  let s ← getS
  match es with
  | [e] => writeScalar c x.sa (BitVec.ofNat 64 (entryPa (s.coreOf y) e))
  | _ => pure ()

/-- OPEN (R93). -/
def execOpenName (x : Ops) (s : State) : Host.Outcome State Fault Refusal :=
  issueStep 0x16 x false (fun c => bodyOpen c x) s

/-- The operand k of CLAIM and CEDE (R95, R96): a value above 4,096 traps ILLOP. -/
def readCount (c : Nat) (x : Ops) : M Nat := do
  if x.head.len ≠ 0 then pure x.ext.toNat
  else
    let v ← readScalar c x.sa
    if 4096 < v.toNat then illop c
    pure v.toNat

/-- DELTA of R95: what a CLAIM of k adds to the reserve of a crew with floor f that holds h entries. -/
def claimDelta (f h k : Nat) : Int := (max (f + k) h : Nat) - (max f h : Nat)

/-- claim(K) of R95. -/
def bodyClaim (c : Nat) (x : Ops) : M Unit := do
  let k ← readCount c x
  if k ≠ 0 then
    let y ← crewM c
    let g ← gangM c
    let vs ← vsM c
    let s ← getS
    check (decide (y.arch.floor + k ≤ g.vslim)) cVsExhaust
    let take := min k g.cede
    if claimDelta y.arch.floor (heldOf vs c) k - take > s.avail y then park (.claim k)
    modS fun t => t.modGang y.gang fun w => { w with cede := w.cede - take }
    modA c fun a => { a with floor := a.floor + k }

/-- CLAIM (R95). -/
def execClaim (x : Ops) (s : State) : Host.Outcome State Fault Refusal :=
  issueStep 0x17 x true (fun c => bodyClaim c x) s

/-- CEDE (R96): it waits for its checkpoint and for held(c) + k to fit the floor. DEDUCED: each retry makes the ILLOP test
again (log 17). -/
def bodyCede (c : Nat) (x : Ops) : M Unit := do
  let k ← readCount c x
  let y ← crewM c
  let vs ← vsM c
  let fixed := (vs.filter fun p => p.2.crew == c && (p.2.st == .bound || p.2.st == .opened || p.2.st == .leased)).length
  if y.arch.floor < k + fixed then illop c
  if !y.acc.isEmpty || decide (y.arch.floor < heldOf vs c + k) then park .cede
  modS fun t => t.modGang y.gang fun w => { w with cede := w.cede + k }
  modA c fun a => { a with floor := a.floor - k }

/-- CEDE (R96). -/
def execCede (x : Ops) (s : State) : Host.Outcome State Fault Refusal :=
  issueStep 0x18 x false (fun c => bodyCede c x) s

/-- POOLQ (R97). DESIGN CHOICE: an avail(c) below 0 reads as 0 (log 87). -/
def bodyPoolq (c : Nat) (x : Ops) : M Unit := do
  let y ← crewM c
  let g ← gangM c
  let vs ← vsM c
  let s ← getS
  writeScalar c x.dst (put (heldOf vs c) 48 13 ||| put y.arch.floor 32 13 ||| put g.cede 16 13
    ||| put (s.avail y).toNat 0 13)

/-- POOLQ (R97). -/
def execPoolq (x : Ops) (s : State) : Host.Outcome State Fault Refusal :=
  issueStep 0x19 x false (fun c => bodyPoolq c x) s

end Sys2Proof.Machine
end

