-- ==== Sys2Proof/Machine/Dispatch.lean ====
section
/-!
DEFINITION. Machine/Dispatch.lean: the meaning of each instruction and of each happening, one arm each.
-/

namespace Sys2Proof.Machine

open Sys2Proof

/-- What an instruction of the issuing crew, or a happening, makes of the machine. -/
def exec (i : Instr) (s : State) : Host.Outcome State Fault Refusal :=
  match i with
  | .nop x => Sys2Proof.Machine.execNop x s
  | .bra x => Sys2Proof.Machine.execBra x s
  | .brx x => Sys2Proof.Machine.execBrx x s
  | .dvg x => Sys2Proof.Machine.execDvg x s
  | .cvg x => Sys2Proof.Machine.execCvg x s
  | .call x => Sys2Proof.Machine.execCall x s
  | .ret x => Sys2Proof.Machine.execRet x s
  | .exit x => Sys2Proof.Machine.execExit x s
  | .loop x => Sys2Proof.Machine.execLoop x s
  | .ppt k x => Sys2Proof.Machine.execPpt k x s
  | .mov x => Sys2Proof.Machine.execMov x s
  | .movi x => Sys2Proof.Machine.execMovi x s
  | .sel x => Sys2Proof.Machine.execSel x s
  | .drop x => Sys2Proof.Machine.execDrop x s
  | .dropk k x => Sys2Proof.Machine.execDropk k x s
  | .keep k x => Sys2Proof.Machine.execKeep k x s
  | .openName x => Sys2Proof.Machine.execOpenName x s
  | .claim x => Sys2Proof.Machine.execClaim x s
  | .cede x => Sys2Proof.Machine.execCede x s
  | .poolq x => Sys2Proof.Machine.execPoolq x s
  | .csrr k x => Sys2Proof.Machine.execCsrr k x s
  | .csrw k x => Sys2Proof.Machine.execCsrw k x s
  | .evwait k x => Sys2Proof.Machine.execEvwait k x s
  | .trap k x => Sys2Proof.Machine.execTrap k x s
  | .eret x => Sys2Proof.Machine.execEret x s
  | .bkpt x => Sys2Proof.Machine.execBkpt x s
  | .sigchk x => Sys2Proof.Machine.execSigchk x s
  | .sigrst x => Sys2Proof.Machine.execSigrst x s
  | .iadd f x => Sys2Proof.Machine.execIadd f x s
  | .isub f x => Sys2Proof.Machine.execIsub f x s
  | .imul f x => Sys2Proof.Machine.execImul f x s
  | .imulh f x => Sys2Proof.Machine.execImulh f x s
  | .imad f x => Sys2Proof.Machine.execImad f x s
  | .idiv f x => Sys2Proof.Machine.execIdiv f x s
  | .irem f x => Sys2Proof.Machine.execIrem f x s
  | .imin f x => Sys2Proof.Machine.execImin f x s
  | .imax f x => Sys2Proof.Machine.execImax f x s
  | .iabs f x => Sys2Proof.Machine.execIabs f x s
  | .ineg f x => Sys2Proof.Machine.execIneg f x s
  | .icmp f x => Sys2Proof.Machine.execIcmp f x s
  | .iaddc f x => Sys2Proof.Machine.execIaddc f x s
  | .lea f x => Sys2Proof.Machine.execLea f x s
  | .andB f x => Sys2Proof.Machine.execAndB f x s
  | .orB f x => Sys2Proof.Machine.execOrB f x s
  | .xorB f x => Sys2Proof.Machine.execXorB f x s
  | .andnB f x => Sys2Proof.Machine.execAndnB f x s
  | .notB f x => Sys2Proof.Machine.execNotB f x s
  | .shl f x => Sys2Proof.Machine.execShl f x s
  | .shr f x => Sys2Proof.Machine.execShr f x s
  | .sar f x => Sys2Proof.Machine.execSar f x s
  | .rot f x => Sys2Proof.Machine.execRot f x s
  | .popc f x => Sys2Proof.Machine.execPopc f x s
  | .clz f x => Sys2Proof.Machine.execClz f x s
  | .brev f x => Sys2Proof.Machine.execBrev f x s
  | .bfx f x => Sys2Proof.Machine.execBfx f x s
  | .bfi f x => Sys2Proof.Machine.execBfi f x s
  | .fadd f x => Sys2Proof.Machine.execFadd f x s
  | .fsub f x => Sys2Proof.Machine.execFsub f x s
  | .fmul f x => Sys2Proof.Machine.execFmul f x s
  | .ffma f x => Sys2Proof.Machine.execFfma f x s
  | .fmin f x => Sys2Proof.Machine.execFmin f x s
  | .fmax f x => Sys2Proof.Machine.execFmax f x s
  | .fcmp f x => Sys2Proof.Machine.execFcmp f x s
  | .frcp f x => Sys2Proof.Machine.execFrcp f x s
  | .frsq f x => Sys2Proof.Machine.execFrsq f x s
  | .fsqrt f x => Sys2Proof.Machine.execFsqrt f x s
  | .fexp2 f x => Sys2Proof.Machine.execFexp2 f x s
  | .flog2 f x => Sys2Proof.Machine.execFlog2 f x s
  | .ftanh f x => Sys2Proof.Machine.execFtanh f x s
  | .fclass f x => Sys2Proof.Machine.execFclass f x s
  | .hadd f x => Sys2Proof.Machine.execHadd f x s
  | .hmul f x => Sys2Proof.Machine.execHmul f x s
  | .hfma f x => Sys2Proof.Machine.execHfma f x s
  | .cvt f x => Sys2Proof.Machine.execCvt f x s
  | .qnt f x => Sys2Proof.Machine.execQnt f x s
  | .dqnt f x => Sys2Proof.Machine.execDqnt f x s
  | .pack f x => Sys2Proof.Machine.execPack f x s
  | .unpk f x => Sys2Proof.Machine.execUnpk f x s
  | .shfl f x => Sys2Proof.Machine.execShfl f x s
  | .vote f x => Sys2Proof.Machine.execVote f x s
  | .lred f x => Sys2Proof.Machine.execLred f x s
  | .lscan f x => Sys2Proof.Machine.execLscan f x s
  | .matchLanes f x => Sys2Proof.Machine.execMatchLanes f x s
  | .lane f x => Sys2Proof.Machine.execLane f x s
  | .aclaim x => Sys2Proof.Machine.execAclaim x s
  | .afree x => Sys2Proof.Machine.execAfree x s
  | .azero x => Sys2Proof.Machine.execAzero x s
  | .mma x => Sys2Proof.Machine.execMma x s
  | .ald x => Sys2Proof.Machine.execAld x s
  | .ast x => Sys2Proof.Machine.execAst x s
  | .ard f x => Sys2Proof.Machine.execArd f x s
  | .awr f x => Sys2Proof.Machine.execAwr f x s
  | .ascl x => Sys2Proof.Machine.execAscl x s
  | .astat k x => Sys2Proof.Machine.execAstat k x s
  | .selk k x => Sys2Proof.Machine.execSelk k x s
  | .ld f x => Sys2Proof.Machine.execLd f x s
  | .st f x => Sys2Proof.Machine.execSt f x s
  | .lds f x => Sys2Proof.Machine.execLds f x s
  | .sts f x => Sys2Proof.Machine.execSts f x s
  | .pref f x => Sys2Proof.Machine.execPref f x s
  | .pmap x => Sys2Proof.Machine.execPmap x s
  | .tlbinv f x => Sys2Proof.Machine.execTlbinv f x s
  | .atom f x => Sys2Proof.Machine.execAtom f x s
  | .cas f x => Sys2Proof.Machine.execCas f x s
  | .red f x => Sys2Proof.Machine.execRed f x s
  | .atoms f x => Sys2Proof.Machine.execAtoms f x s
  | .fence f x => Sys2Proof.Machine.execFence f x s
  | .bar f x => Sys2Proof.Machine.execBar f x s
  | .bara f x => Sys2Proof.Machine.execBara f x s
  | .barw f x => Sys2Proof.Machine.execBarw f x s
  | .susp x => Sys2Proof.Machine.execSusp x s
  | .wake x => Sys2Proof.Machine.execWake x s
  | .resume x => Sys2Proof.Machine.execResume x s
  | .binq k x => Sys2Proof.Machine.execBinq k x s
  | .ecpy f x => Sys2Proof.Machine.execEcpy f x s
  | .egath f x => Sys2Proof.Machine.execEgath f x s
  | .escat f x => Sys2Proof.Machine.execEscat f x s
  | .ecoll f x => Sys2Proof.Machine.execEcoll f x s
  | .fork f x => Sys2Proof.Machine.execFork f x s
  | .rdv f x => Sys2Proof.Machine.execRdv f x s
  | .tlwait f x => Sys2Proof.Machine.execTlwait f x s
  | .tlq f x => Sys2Proof.Machine.execTlq f x s
  | .deq x => Sys2Proof.Machine.execDeq x s
  | .enq x => Sys2Proof.Machine.execEnq x s
  | .launch x => Sys2Proof.Machine.execLaunch x s
  | .ljoin x => Sys2Proof.Machine.execLjoin x s
  | .kzero x => Sys2Proof.Machine.execKzero x s
  | .scrub x => Sys2Proof.Machine.execScrub x s
  | .ctxfree x => Sys2Proof.Machine.execCtxfree x s
  | .takeTrap c cause addr lanes => Sys2Proof.Machine.execTakeTrap c cause addr lanes s
  | .memoryAccessPerformed c a lanes => Sys2Proof.Machine.execMemoryAccessPerformed c a lanes s
  | .loadDataArrival a => Sys2Proof.Machine.execLoadDataArrival a s
  | .windowWrite c a => Sys2Proof.Machine.execWindowWrite c a s
  | .windowRead c a => Sys2Proof.Machine.execWindowRead c a s
  | .translationWalkComplete c a => Sys2Proof.Machine.execTranslationWalkComplete c a s
  | .matrixInstructionComplete core => Sys2Proof.Machine.execMatrixInstructionComplete core s
  | .crewRetire c => Sys2Proof.Machine.execCrewRetire c s
  | .gangRetire g => Sys2Proof.Machine.execGangRetire g s
  | .gridEnd l => Sys2Proof.Machine.execGridEnd l s
  | .crewEvict core => Sys2Proof.Machine.execCrewEvict core s
  | .crewRestore c slot => Sys2Proof.Machine.execCrewRestore c slot s
  | .automaticResume g bin => Sys2Proof.Machine.execAutomaticResume g bin s
  | .resumedCrewBind c => Sys2Proof.Machine.execResumedCrewBind c s
  | .engineCommandComplete k => Sys2Proof.Machine.execEngineCommandComplete k s
  | .engineRecordComplete k => Sys2Proof.Machine.execEngineRecordComplete k s
  | .collectiveMatch ks remote fails => Sys2Proof.Machine.execCollectiveMatch ks remote fails s
  | .pmapComplete c => Sys2Proof.Machine.execPmapComplete c s
  | .tlbinvComplete c => Sys2Proof.Machine.execTlbinvComplete c s
  | .kzeroComplete slot => Sys2Proof.Machine.execKzeroComplete slot s
  | .gangKill g cause addr => Sys2Proof.Machine.execGangKill g cause addr s
  | .gangRelaunch l gid core => Sys2Proof.Machine.execGangRelaunch l gid core s
  | .gangSwapIn g => Sys2Proof.Machine.execGangSwapIn g s
  | .hoistRound => Sys2Proof.Machine.execHoistRound s
  | .packetNop q => Sys2Proof.Machine.execPacketNop q s
  | .packetLaunch q => Sys2Proof.Machine.execPacketLaunch q s
  | .packetSignal q => Sys2Proof.Machine.execPacketSignal q s
  | .packetWait q => Sys2Proof.Machine.execPacketWait q s
  | .waitPacketComplete q u => Sys2Proof.Machine.execWaitPacketComplete q u s
  | .packetEvent q => Sys2Proof.Machine.execPacketEvent q s
  | .launchAdmit l => Sys2Proof.Machine.execLaunchAdmit l s
  | .gangPlace l cores => Sys2Proof.Machine.execGangPlace l cores s
  | .qtail q v => Sys2Proof.Machine.execQtail q v s
  | .qstatHalt q halt => Sys2Proof.Machine.execQstatHalt q halt s
  | .ctxpreReqSet ctx deadline => Sys2Proof.Machine.execCtxpreReqSet ctx deadline s
  | .ctxpreReqClear ctx => Sys2Proof.Machine.execCtxpreReqClear ctx s
  | .softDeadlineExpiry ctx => Sys2Proof.Machine.execSoftDeadlineExpiry ctx s
  | .hardStop ctx => Sys2Proof.Machine.execHardStop ctx s
  | .contextRestore ctx => Sys2Proof.Machine.execContextRestore ctx s
  | .ctxroot ctx v => Sys2Proof.Machine.execCtxroot ctx v s
  | .evraise ctx v => Sys2Proof.Machine.execEvraise ctx v s
  | .dbgbell ctx => Sys2Proof.Machine.execDbgbell ctx s
  | .dbgmbox ctx v => Sys2Proof.Machine.execDbgmbox ctx v s
  | .ping ctx => Sys2Proof.Machine.execPing ctx s
  | .rdstate ctx => Sys2Proof.Machine.execRdstate ctx s
  | .rdname ctx => Sys2Proof.Machine.execRdname ctx s
  | .wrname ctx => Sys2Proof.Machine.execWrname ctx s
  | .dropname ctx => Sys2Proof.Machine.execDropname ctx s
  | .rdscal ctx => Sys2Proof.Machine.execRdscal ctx s
  | .wrscal ctx => Sys2Proof.Machine.execWrscal ctx s
  | .wrcsr ctx => Sys2Proof.Machine.execWrcsr ctx s
  | .cont ctx => Sys2Proof.Machine.execCont ctx s
  | .rdmem ctx => Sys2Proof.Machine.execRdmem ctx s
  | .stopNotice c => Sys2Proof.Machine.execStopNotice c s
  | .sample core => Sys2Proof.Machine.execSample core s
  | .smpcfg core v => Sys2Proof.Machine.execSmpcfg core v s
  | .gen slot => Sys2Proof.Machine.execGen slot s
  | .load slot => Sys2Proof.Machine.execLoad slot s
  | .zero slot => Sys2Proof.Machine.execZero slot s
  | .stage => Sys2Proof.Machine.execStage s
  | .commit => Sys2Proof.Machine.execCommit s
  | .abort => Sys2Proof.Machine.execAbort s
  | .attctlGo v => Sys2Proof.Machine.execAttctlGo v s
  | .minsvnset v => Sys2Proof.Machine.execMinsvnset v s
  | .ctxasgGo v => Sys2Proof.Machine.execCtxasgGo v s
  | .scrubPieceComplete fails => Sys2Proof.Machine.execScrubPieceComplete fails s
  | .arbtabLoad v => Sys2Proof.Machine.execArbtabLoad v s
  | .pwrcap v => Sys2Proof.Machine.execPwrcap v s
  | .grantDeferTimeout => Sys2Proof.Machine.execGrantDeferTimeout s
  | .grantMoveComplete => Sys2Proof.Machine.execGrantMoveComplete s
  | .temperatureSample t => Sys2Proof.Machine.execTemperatureSample t s
  | .uvstepStep die dom v => Sys2Proof.Machine.execUvstepStep die dom v s
  | .uvstepRev die dom => Sys2Proof.Machine.execUvstepRev die dom s
  | .correctedError kind inst addr => Sys2Proof.Machine.execCorrectedError kind inst addr s
  | .uncorrectableError kind inst loc => Sys2Proof.Machine.execUncorrectableError kind inst loc s
  | .rateWindowExpiry => Sys2Proof.Machine.execRateWindowExpiry s
  | .errstatOvfClear => Sys2Proof.Machine.execErrstatOvfClear s
  | .poisonclr die v => Sys2Proof.Machine.execPoisonclr die v s
  | .promoteRange ctx va big target interfered => Sys2Proof.Machine.execPromoteRange ctx va big target interfered s
  | .hostRead pa n => Sys2Proof.Machine.execHostRead pa n s
  | .hostWrite pa bytes => Sys2Proof.Machine.execHostWrite pa bytes s
  | .hostAtomic pa size op => Sys2Proof.Machine.execHostAtomic pa size op s
  | .peerRequest l pa req => Sys2Proof.Machine.execPeerRequest l pa req s
  | .requestTimeout c a => Sys2Proof.Machine.execRequestTimeout c a s
  | .linkDown l => Sys2Proof.Machine.execLinkDown l s
  | .hostLinkDown => Sys2Proof.Machine.execHostLinkDown s
  | .storageDoorbell port pair v => Sys2Proof.Machine.execStorageDoorbell port pair v s
  | .deviceReset ports => Sys2Proof.Machine.execDeviceReset ports s
  | .registerWrite off size v => Sys2Proof.Machine.execRegisterWrite off size v s
  | .storageDma port pa req => Sys2Proof.Machine.execStorageDma port pa req s
  | .linkTrained l peer => Sys2Proof.Machine.execLinkTrained l peer s
  | .waitPollFailure q u => Sys2Proof.Machine.execWaitPollFailure q u s
  | .ontimeTick => Sys2Proof.Machine.execOntimeTick s

end Sys2Proof.Machine
end

