-- ==== Sys2Proof/Machine/Issue.lean ====
section
/-!
DEFINITION. Machine/Issue.lean: what stands before the issue of an instruction, and issue selection (R37, R55, R56, R285,
R324 to R326, R282).
-/

namespace Sys2Proof.Machine

open Sys2Proof

/-! ## Before issue -/

/-- A hardware breakpoint matches the crew's PC (R324, R325). -/
def Crew.breaks (x : Crew) : Bool :=
  x.priv == 0 && !x.anyAct && !x.exempt
    && (List.range 8).any fun n => x.bken.getLsbD n && (x.bkpc.toList.getD n 0#52) == x.arch.pc

/-- A cause that is raised before issue: it waits for the checkpoint, with LANES ACTMASK (R55, R56). -/
def State.preTrap (s : State) (c : Nat) (x : Crew) (cause : Cause) (addr : Nat) : State :=
  if x.acc.isEmpty then s.takeTrap c cause addr x.arch.act x.arch.pc ⟨x.arch, x.seq⟩
  else s.modCrew c fun y => { y with park := some .checkpoint }

/-- The reporting path of the value store and of crew state, which every issued instruction passes (R318). -/
def State.issueCanaries (s : State) (x : Crew) : State :=
  let inst := coreInst (s.coreOf x)
  let t := if x.arch.names.isEmpty then s else s.canaryHit (some (s.ctxOf x)) 0x01 inst 0 none
  t.canaryHit (some (s.ctxOf x)) 0x0A inst 0 none

/-- The crew went on: its next instruction has another number, or it is gone. -/
def wentOn (s t : State) (c : Nat) : Bool :=
  match s.crew? c, t.crew? c with
  | some x, some y => x.seq != y.seq
  | some _, none => true
  | none, _ => false

/-- GRANT0 of a grid is the grant in force when the first crew of its first gang issues for the first time (R274); `s` is
the machine before that instruction. -/
def State.noteGrant (t s : State) (c : Nat) (x : Crew) : State :=
  match s.gang? x.gang with
  | none => t
  | some g =>
    if wentOn s t c && x.index == 0 && g.gid == 0 then t.modGrid g.grid fun l => { l with grant0 := match l.grant0 with
      | some w => some w
      | none => some s.arb.grant.word }
    else t

/-- Execute instruction `i` of crew `c`. -/
def State.runInstr (s : State) (c : Nat) (x : Crew) (i : Instr) : Host.Outcome State Fault Refusal :=
  match exec i { s.issueCanaries x with cur := some c } with
  | .next t => .next ({ t with cur := none }.noteGrant s c x)
  | r => r

/-- What the crew does at its PC: a breakpoint, a fault of its fetch, or its instruction. -/
def State.atPc (s : State) (c : Nat) (x : Crew) (r : Fetched) : Host.Outcome State Fault Refusal :=
  if x.breaks then .next (s.preTrap c x cBkpt 0)
  else match r with
    | .instr t i => t.runInstr c x i
    | .pad t => .next t
    | .trap t cause addr => .next (t.preTrap c x cause addr)
    | .kill t kind inst addr => .next (t.killPoison c x.arch.pc.toNat kind inst addr)

/-- The crew fetches and runs its next instruction; a pad word moves its PC first (R37). -/
def State.attempt (s : State) (c : Nat) : Host.Outcome State Fault Refusal :=
  match s.crew? c with
  | none => .next s
  | some x => match s.fetchAt x with
    | .pad t =>
      let u := t.modCrew c fun y => { y with arch := { y.arch with pc := y.arch.pc + 4 } }
      match u.crew? c with
      | none => .next u
      | some y => u.atPc c y (u.fetchAt y)
    | r => s.atPc c x r

/-! ## Which crews may issue (R35, R100, R285, R326) -/

/-- The crew, parked for miss slots for `lines`, is tried: they are free for it, and no older crew of the core that waits for
slots finds its own free (R250). -/
def State.slotTurn (s : State) (core : Nat) (x : Crew) (lines : List Nat) : Bool :=
  (s.slotStall core lines).isNone && !((s.residents core).any fun d => match s.crew? d with
    | some y => decide (y.age < x.age) && s.triable y && (match y.park with
      | some (.slots _ ls) => (s.slotStall core ls).isNone
      | _ => false)
    | none => false)

/-- The condition that parks the crew may have cleared. -/
def State.mayRetry (s : State) (core c : Nat) (x : Crew) : Bool :=
  match x.park with
  | none => true
  | some p => match p with
    | .scalar _ | .debug | .bind => false
    | .pmap _ _ | .tlbinv _ | .kzero _ | .join _ => x.waitEvt.isSome
    | .alloc _ | .claim _ | .tile => !(s.yieldsSpace core c x)
    | .slots _ lines => s.slotTurn core x lines
    | _ => true

/-- The resident crew `c` does what it can in this clock. -/
def State.tryCrew (s : State) (core c : Nat) (x : Crew) : Host.Outcome State Fault Refusal :=
  if x.empty || !x.frame.isEmpty || !(s.ctxLets x) then .next s
  else match x.stepDue with
    | some m =>
      let held := match x.park with
        | some (.scalar _) => true
        | some .debug => true
        | _ => !x.acc.isEmpty
      if held then .next s
      else
        let pc := s.nextPc x
        let a := { x.arch with pc := pc }
        .next ((s.setCrew c { x with arch := a }).takeTrap c cStep m.toNat x.arch.act pc ⟨a, x.seq⟩)
    | none => if s.mayRetry core c x then s.attempt c else .next s

/-- The crew in a slot. -/
def State.crewIn (s : State) (core slot : Nat) : Option Nat := (Tab.at? (s.core core).slots slot).bind fun b => b.crew

/-- Search slots for a crew that issues (R282); what crews learn while they are skipped stays. -/
def searchSlots (core : Nat) : List Nat → State → Host.Outcome (State × Bool) Fault Refusal
  | [], s => .next (s, false)
  | sl :: sls, s =>
    match (s.crewIn core sl).bind fun c => (s.crew? c).map fun x => (c, x) with
    | none => searchSlots core sls s
    | some (c, x) => match s.tryCrew core c x with
      | .next t =>
        if wentOn s t c then
          .next (t.modCore core fun k => { k with last := k.last.setIfInBounds (sl / 16) (sl % 16) }, true)
        else searchSlots core sls t
      | .fault r => .fault r
      | .refused r => .refused r

/-- The slots of a quadrant in the order of a search: from the one after the last that issued (R282). -/
def State.searchOrder (s : State) (core quad : Nat) : List Nat :=
  let last := (s.core core).last.toList.getD quad 15
  (List.range 16).map fun i => 16 * quad + (last + 1 + i) % 16

/-- One vector clock of a quadrant (R282). -/
def State.issueQuad (s : State) (core quad : Nat) : Host.Outcome (State × Bool) Fault Refusal :=
  searchSlots core (s.searchOrder core quad) s

/-- The first quadrant, from number `q` on, that has a crew. -/
def State.nextQuad (s : State) : Nat → Nat → Option Nat
  | 0, _ => none
  | n + 1, q =>
    if (s.core (q / 4 % 192)).slots.any fun p => p.1 / 16 == q % 4 && p.2.crew.isSome then some (q % 768)
    else s.nextQuad n (q + 1)

end Sys2Proof.Machine
end

