-- ==== Sys2Proof/Machine/Auto.lean ====
section
/-!
DEFINITION. Machine/Auto.lean: the happenings that the device brings about by itself, in the order in which the model
tries them when its agenda is empty (log 10). Timers, detectors, the host, peers and choices of the firmware that the
spec leaves open come from the agenda.
-/

namespace Sys2Proof.Machine

open Sys2Proof

/-- Happenings of a crew's unperformed accesses: the lanes of each kind that are left, together. -/
def accessEvents (c : Nat) (x : Crew) : List Instr :=
  (x.acc.map fun a =>
    let left (p : Nat → Bool) : Mask := lanesWith (a.lanes &&& ~~~ a.done) fun l => p l.val
    [Instr.translationWalkComplete c a.id,
     .windowRead c (a.id, left fun l => a.windowLane l && !a.entryLane l), .windowWrite c (a.id, left a.entryLane),
     .memoryAccessPerformed c a.id (left fun l => !a.windowLane l)]).flatten

/-- Happenings of a crew. -/
def State.crewEvents (s : State) : List Instr :=
  (s.crews.map fun p =>
    accessEvents p.1 p.2 ++ [.resumedCrewBind p.1, .pmapComplete p.1, .tlbinvComplete p.1, .crewRetire p.1, .stopNotice p.1]
      ++ (match p.2.home with
        | .evicted k => (match (s.core k).nextSlot with
          | some sl => [.crewRestore p.1 sl]
          | none => [])
        | _ => [])).flatten

/-- Happenings of cores: a matrix instruction, and the age rule. -/
def State.coreEvents (s : State) : List Instr :=
  (s.cores.map fun p => (if p.2.mats.isEmpty then [] else [.matrixInstructionComplete p.1]) ++ [.crewEvict p.1]).flatten

/-- The waiting ECOLLs with a TAG: the oldest of each die. -/
def State.collWith (s : State) (tag : Nat) : List Nat :=
  let ms := s.cmds.filter fun p => s.tagOf p.2 == some tag
  (ms.filter fun p => !(ms.any fun q => dieOf q.2.core == dieOf p.2.core && decide (q.1 < p.1))).map Prod.fst

/-- Happenings of engine commands; one that cannot read its group descriptor fails alone. -/
def State.cmdEvents (s : State) : List Instr :=
  (s.cmds.map fun p => [Instr.engineRecordComplete p.1, .engineCommandComplete p.1,
    .collectiveMatch (match s.tagOf p.2 with
      | some t => s.collWith t
      | none => [p.1]) [] false]).flatten

/-- Happenings of gangs. -/
def State.gangEvents (s : State) : List Instr :=
  (s.gangs.map fun p => (p.2.bins.map fun b => Instr.automaticResume p.1 b.1) ++ [.gangRetire p.1, .gangSwapIn p.1]).flatten

/-- Cores that the model's firmware tries for `n` gangs that are placed together: from core `k` on. DESIGN CHOICE (log 13). -/
def coresFrom (k n : Nat) : List Nat := (List.range n).map fun i => (k + i) % 192

/-- The lowest `n` free slots of a core, `had` of which the launch has reserved already. -/
def State.moreSlots (s : State) (g : Grid) (core : Nat) : List (Nat × Nat) :=
  let k := s.core core
  let n := recCrews g.record - (k.slotsFor 1 g.ctx g.lid).length
  (((List.range 64).filter fun i => (Tab.at? k.slots i).isNone).take n).map fun i => (core, i)

/-- The placement of gangs on cores, once slots are reserved for it: the reservation, then the placement. -/
def State.placeEvents (s : State) (l : Nat) (g : Grid) (cores : List Nat) (place : Instr) : List Instr :=
  let slots := (cores.map (s.moreSlots g)).flatten
  if slots.isEmpty then [place]
  else match exec (.launchAdmit (l, slots)) s with
    | .next t => match exec place t with
      | .next u => if u = t then [] else [.launchAdmit (l, slots)]
      | _ => []
    | _ => []

/-- Happenings of launches: the model's firmware reserves slots for a placement that fits, and a core that serves is searched
from core 0 on (log 13). -/
def State.gridEvents (s : State) : List Instr :=
  (s.grids.map fun p =>
    let n := p.2.nextUnit.length
    [Instr.gridEnd p.1]
      ++ (if p.2.admitted then [] else [.launchAdmit (p.1, [])])
      ++ (if n = 0 then []
          else ((List.range 192).map fun k => s.placeEvents p.1 p.2 (coresFrom k n) (.gangPlace p.1 (coresFrom k n))).flatten)
      ++ (match p.2.due with
        | [] => []
        | gid :: _ => ((List.range 192).map fun k => s.placeEvents p.1 p.2 [k] (.gangRelaunch p.1 gid k)).flatten)).flatten

/-- Happenings of the queues. -/
def State.queueEvents (s : State) : List Instr :=
  (if s.queues.any fun p => s.headOf p.1 != .idle then [.hoistRound] else [])
    ++ (s.queues.map fun p => (p.2.open_.filter fun r => r.opc == 3).map fun r => Instr.waitPacketComplete p.1 r.unit).flatten
    ++ (s.queues.map fun p => (p.2.open_.filter fun r => r.opc == 3).map fun r => Instr.waitPollFailure p.1 r.unit).flatten

/-- The row that serves a mailbox request. -/
def mbEvent (ctx op : Nat) : Instr :=
  match op with
  | 1 => .ping ctx
  | 2 => .rdstate ctx
  | 3 => .rdname ctx
  | 4 => .wrname ctx
  | 5 => .dropname ctx
  | 6 => .rdscal ctx
  | 7 => .wrscal ctx
  | 8 => .wrcsr ctx
  | 9 => .cont ctx
  | _ => .rdmem ctx

/-- Happenings of contexts. -/
def State.ctxEvents (s : State) : List Instr :=
  (s.ctxs.map fun p => (match p.2.mbReq with
    | some q => [mbEvent p.1 q.op]
    | none => [])
    ++ (match p.2.rootDue with
      | some v => [Instr.ctxroot p.1 v]
      | none => [])
    ++ [Instr.hardStop p.1, .contextRestore p.1]).flatten

/-- Everything that may happen by itself, in the order in which it is tried. -/
def State.candidates (s : State) : List Instr :=
  s.crewEvents ++ (s.arrive.map fun p => Instr.loadDataArrival p.1) ++ s.coreEvents ++ s.cmdEvents
    ++ (s.sec.zeroing.map fun k => Instr.kzeroComplete (BitVec.ofNat 7 k)) ++ s.gangEvents ++ s.gridEvents ++ s.queueEvents
    ++ s.ctxEvents ++ (if s.sec.scrub.state = 1 then [.scrubPieceComplete false] else [])
    ++ (if s.arb.move.isSome then [.grantMoveComplete] else [])

/-- The first of a list of happenings that changes anything: one that cannot occur now is passed over. -/
def firstOf : List Instr → State → Option State
  | [], _ => none
  | i :: is, s => match exec i s with
    | .next t => if t = s then firstOf is s else some t
    | _ => firstOf is s

/-- The first happening that can occur by itself. -/
def State.autoEvent (s : State) : Option State := firstOf s.candidates s

/-! ## Before a sample (R339) -/

/-- The crew `c` of a core, in the clock of a sample, is tried as in any clock: what it waits for is seen, and whether it could
go on. In a context that is stopping nothing but that is learned (R285). -/
def State.trySampled (s : State) (core c : Nat) (x : Crew) : State :=
  if x.empty || !x.frame.isEmpty || x.stepDue.isSome || !(s.mayRetry core c x) then s
  else match s.attempt c with
    | .next t => if wentOn s t c then { s with cur := some c } else if s.ctxLets x then t else s
    | _ => { s with cur := some c }

/-- What comes before a happening: a crew that a sampler examines is tried. -/
def State.beforeEvent (s : State) (i : Instr) : State :=
  match i with
  | .sample core => if (s.core core).smp.en then (match s.sampledCrew core with
      | some (c, x) => s.trySampled core c x
      | none => s) else s
  | _ => s

/-! ## What comes from outside -/

/-- The happening is a write of the host to a register of BAR0 (R388). -/
def writesBar (i : Instr) : Bool :=
  match i with
  | .registerWrite _ _ _ | .ctxroot _ _ | .qtail _ _ | .qstatHalt _ _ | .ctxpreReqSet _ _ | .ctxpreReqClear _ | .evraise _ _
  | .dbgbell _ | .dbgmbox _ _ | .smpcfg _ _ | .gen _ | .load _ | .zero _ | .stage | .commit | .abort | .attctlGo _
  | .minsvnset _ | .ctxasgGo _ | .pwrcap _ | .uvstepStep _ _ _ | .uvstepRev _ _ | .errstatOvfClear | .poisonclr _ _
  | .storageDoorbell _ _ _ => true
  | _ => false

/-- An entry of the agenda waits: an access of BAR0, while an earlier write of CTXROOT has not taken effect (R251, R388). -/
def State.agendaHeld (s : State) (p : Pending) : Bool :=
  (match p with
    | .barRead _ _ => true
    | .event i => writesBar i
    | _ => false) && s.barHeld

/-- The first entry of an agenda that does not wait, and the agenda without it. -/
def takeFirst (held : Pending → Bool) : List Pending → Option (Pending × List Pending)
  | [] => none
  | p :: ps => if held p then (takeFirst held ps).map fun q => (q.1, p :: q.2) else some (p, ps)

/-- The host or a peer writes its own memory (log 10). -/
def State.outsideWrite (s : State) (pa : Nat) (bs : List Byte) : Host.Outcome State Fault Refusal :=
  if (regionOf pa).outside && (regionOf (pa + bs.length - 1)).outside then .next { s with mem := s.mem.write pa bs }
  else s.passOver

/-- Requests to a line of host or peer memory begin, or cease, to be answered as R392 says (log 40). -/
def State.markOut (s : State) (line : Nat) (bad : Bool) : Host.Outcome State Fault Refusal :=
  if !(regionOf (128 * line)).outside then s.passOver
  else
    let rest := s.outBad.filter (· != line)
    .next { s with outBad := if bad then line :: rest else rest }

/-- A core TLB loses translation `i` (R255: what a TLB keeps affects time only). -/
def State.loseTlb (s : State) (core i : Nat) : State := s.modCore core fun k => { k with tlb := k.tlb.eraseIdx i }

/-- The firmware, once it runs (R353), puts frames into the page pool of a die: wholly populated 64 KiB frames of its own stacks that are not
there yet and that no protected context owns (R258, R363). -/
def State.refillPool (s : State) (die : Nat) (fs : List Nat) : Host.Outcome State Fault Refusal :=
  let ok (f : Nat) : Bool := f % 65536 == 0 && hbmOk f 65536 && hbmDie f == die && !(s.poolOf die).contains f
    && (s.ownerOf (.frame (f / 65536))).isNone
  if s.sec.boot == 3 && fs.all ok && fs.length == fs.eraseDups.length then .next (s.setPool die (s.poolOf die ++ fs)) else s.passOver

end Sys2Proof.Machine
end

