-- ==== Sys2Proof/Machine/Place.lean ====
section
/-!
DEFINITION. Machine/Place.lean: a machine in which one crew is about to fetch given bytes. It stands for what a launch
and its host bring about: page tables, a grid, a gang, a crew (log 42). Nothing of it is in State.reset.
-/

namespace Sys2Proof.Machine

open Sys2Proof

/-- The context, the page tables and the page of the fixture: every table and page lies in HBM stack 0. -/
def fixCtx : Nat := 1
def fixRoot : Nat := 0x100000
def fixMid : Nat := 0x110000
def fixLeaf : Nat := 0x120000
def fixPage : Nat := 0x200000

/-- Page table entries in plaintext: the tables chain, and page 0x20_0000 maps to itself, present, writable, fetchable and
open to user crews (R252, R253). -/
def fixTables (m : Memory) : Memory :=
  ((m.write (fixRoot + 8 * rootIx fixPage) (bytesLE 8 (fixMid + 1))).write (fixMid + 8 * midIx fixPage)
    (bytesLE 8 (fixLeaf + 1))).write (fixLeaf + 8 * leafIx fixPage) (bytesLE 8 (fixPage + 15))

/-- The frames that the fixture uses. -/
def fixFrames : List Nat := [fixRoot, fixMid, fixLeaf, fixPage].map (· / 65536)

/-- The frames are FREE and clean, and no translation of the context is held. -/
def State.clearFix (s : State) : State :=
  let keep (l : Nat) : Bool := !fixFrames.contains (l / 512)
  { s.purgeTlb (fun e => e.ctx == fixCtx) with
    poison := s.poison.filter keep, sliceBad := s.sliceBad.filter fun p => keep p.1, syncBad := s.syncBad.filter keep,
    sec := { s.sec with owned := s.sec.owned.filter fun o => match o.res with
      | .frame f => !fixFrames.contains f
      | _ => true } }

/-- A context with those tables, at steward level. -/
def fixContext : Ctx := { Ctx.reset with root := fixRoot, priv := 2, launched := true }

/-- The launch of one gang of one crew at steward level. -/
def fixGrid : Grid := { Grid.new fixCtx (List.replicate 256 0#8) [] 2 none none none 0 0 with state := .running, next := 1 }

/-- The gang of the fixture is resident on core 0, and its only crew is in slot 0, about to fetch at 0x20_0000. -/
def State.placeCrew (s : State) : State :=
  let l := s.nextId
  let gk := l + 1
  let g := Gang.new l fixGrid 0 0 0
  let s1 := ({ s with nextId := l + 2 }.setGrid l fixGrid).setGang gk g
  let s2 := (s1.createCrew gk g 0 0 (BitVec.ofNat 52 fixPage) 0xFFFFFFFF 0).2
  s2.modCore 0 fun k => { k with last := k.last.set 0 15 }

/-- A machine whose next step issues the first instruction among the bytes `bs`. -/
def State.placeBytes (s : State) (bs : List Byte) : State :=
  let t := (s.clearFix.setCtx fixCtx fixContext).placeCrew
  { t with mem := (fixTables t.mem).write fixPage bs, agenda := .issue 0 0 :: t.agenda }

end Sys2Proof.Machine
end

