-- ==== Sys2Proof/Machine/Step.lean ====
section
/-!
DEFINITION. Machine/Step.lean: one step of the machine. A step is one happening: a quadrant's issue, a row of the opcode
table, or something from outside. The agenda says which comes next; with an empty agenda the model's own order does
(log 10).
-/

namespace Sys2Proof.Machine

open Sys2Proof

/-- The issue of a quadrant as a step. -/
def State.clock (s : State) (core quad : Nat) : Host.Outcome State Fault Refusal :=
  match s.issueQuad core quad with
  | .next (t, _) => .next t
  | .fault r => .fault r
  | .refused r => .refused r

/-- The next entry of the agenda happens. -/
def State.happen (s : State) (p : Pending) : Host.Outcome State Fault Refusal :=
  match p with
  | .issue core quad => if core < 192 ∧ quad < 4 then s.clock core quad else s.passOver
  | .event i => if i.wellFormed && i.parts.isNone then exec i (s.beforeEvent i) else s.passOver
  | .memWrite pa bytes => s.outsideWrite pa bytes
  | .tlbDrop core i => .next (s.loseTlb core i)
  | .lineDrop core line => .next (s.modCore core fun k => { k with lines := Tab.del k.lines line })
  | .poolRefill die frames => s.refillPool die frames
  | .outLine line bad => s.markOut line bad
  | .barRead off size => s.hostBar off size
  | .queuePair port pair p => s.makePair port pair p
  | .cmdPart k i => s.cmdPart k i
  | .collMeet ks remote => s.collMeet ks remote
  | .matRead core word => s.matReads core word
  | .matWrite core word => s.matWrites core word

/-- A quadrant that has crews issues; the next turn goes to the happenings of the other agents. -/
def State.turnIssue (s : State) : Option (Host.Outcome State Fault Refusal) :=
  match s.nextQuad 768 (s.turn / 2) with
  | none => none
  | some q => match s.issueQuad (q / 4) (q % 4) with
    | .next (t, _) => some (.next { t with turn := 2 * ((q + 1) % 768) + 1 })
    | .fault r => some (.fault r)
    | .refused r => some (.refused r)

/-- A happening that occurs by itself; the next turn goes to the crews. -/
def State.turnAuto (s : State) : Option (Host.Outcome State Fault Refusal) :=
  s.autoEvent.map fun t => .next { t with turn := 2 * (t.turn / 2) }

/-- The model's own order where the agenda is empty: the crews of one quadrant and the other agents in turn. A machine in
which nothing can happen stays as it is. -/
def State.ownOrder (s : State) : Host.Outcome State Fault Refusal :=
  let first := if s.turn % 2 = 0 then s.turnIssue else s.turnAuto
  match first with
  | some r => r
  | none => match (if s.turn % 2 = 0 then s.turnAuto else s.turnIssue) with
    | some r => r
    | none => .next s

/-- What happens next: the first entry of the agenda that does not wait, or what the model's own order brings. -/
def State.proceed (s : State) : Host.Outcome State Fault Refusal :=
  match takeFirst s.agendaHeld s.agenda with
  | some (p, ps) => { s with agenda := ps }.happen p
  | none => s.ownOrder

/-- One step: what happens next, and what it does to the DEQs that wait (R207). -/
def step (s : State) : Host.Outcome State Fault Refusal := thenWaiters s.proceed

/-- `s` with the instruction of bits `w` where the next step fetches: a crew of its own is placed, which issues next
(log 42). Bits at or above `nbits` are 0. -/
def State.withFetchWord (s : State) (nbits w : Nat) : State := s.placeBytes (bytesLE 16 (w % 2 ^ nbits))

end Sys2Proof.Machine
end

