-- ==== Sys2Proof/Safety.lean ====
section
/-!
DEFINITION. Safety.lean: the terms in which statements speak: what it takes for a crew to issue, what an issue leaves,
operands that can be read, destinations that can be written, and the invariants of the machine.
-/

namespace Sys2Proof.Machine

open Sys2Proof

/-! ## Invariants -/

/-- Physical memory is in its one canonical form. -/
def State.MemOk (s : State) : Prop := s.mem.wf = true

/-! ## Issue -/

/-- Crew `c` stands as `w` and issues an instruction with operand fields `x`: no item of its state is marked
uncorrectable, some lane is active, and a switch marker has nothing to wait for (R91). -/
structure Issues (s : State) (c : Nat) (w : Crew) (x : Ops) : Prop where
  cur   : s.cur = some c
  crew  : s.crew? c = some w
  clean : w.marks = []
  awake : w.arch.act ≠ 0
  full  : w.empty = false
  sw    : x.head.sw = true → switchWaits w (s.core (s.coreOf w)).vs = false

/-- The crew when its instruction takes effect: it waits for nothing, the instruction is folded into SIG (R104), the PC
stands behind it. -/
def Crew.begun (w : Crew) (opc : Nat) (x : Ops) : Crew :=
  let y := { w with park := none }.foldInstr opc x.head
  { y.dropEseq y.arch.pc with ipc := y.arch.pc, arch := { y.arch with pc := y.arch.pc + BitVec.ofNat 52 (lenOf x) } }

/-- The crew when an instruction that folds itself takes effect (R105, R107). -/
def Crew.passed (w : Crew) (x : Ops) : Crew :=
  let y := { w with park := none }
  { y.dropEseq y.arch.pc with ipc := y.arch.pc, arch := { y.arch with pc := y.arch.pc + BitVec.ofNat 52 (lenOf x) } }

/-- The machine after an instruction of crew `c` that leaves the crew as `y`, `w` before it. -/
def State.issued (s : State) (c : Nat) (w y : Crew) : State := (s.setCrew c (y.afterInstr w)).settle c

/-- The machine when the effect of crew `c`'s instruction begins. -/
def State.opens (s : State) (c : Nat) (w : Crew) (opc : Nat) (x : Ops) : State := s.setCrew c (w.begun opc x)

/-- The machine after an instruction whose effect left it as `s`; `w` is crew `c` before it. -/
def State.ended (s : State) (c : Nat) (w : Crew) : State :=
  match s.crew? c with
  | some y => s.issued c w y
  | none => s

/-- Crew `c`, `w` before its instruction, takes a cause that the instruction met in state `s`: what the instruction did to
the value store is undone, and the checkpoint without an unperformed access is the state before it, `s0` (R21, R23, R30). -/
def State.trapped (s s0 : State) (c : Nat) (w : Crew) (cause : Cause) (addr : Nat) (lanes : Mask) : State :=
  (s.undoIssue s0 c w).takeTrap c cause addr lanes w.arch.pc ⟨w.arch, w.seq⟩

/-- Crew `y` is crew `w` but for the bindings of its names. -/
def Crew.sameButNames (w y : Crew) : Prop := y = { w with arch := { w.arch with names := y.arch.names } }

/-! ## Sources (R30, R39, R113) -/

/-- The binding of a name of crew `c`, with its entry. -/
def State.named (s : State) (c n : Nat) : Option (Binding × Entry) :=
  match s.crew? c with
  | none => none
  | some w => match Tab.at? w.arch.names n with
    | none => none
    | some b => match Tab.at? (s.core (s.coreOf w)).vs b.entry with
      | none => none
      | some e => some (b, e)

/-- A counted read of name `n` has a value: the name is bound, its entry neither leased nor pending nor open, and no
slot of it is bad (R30, R310). -/
def State.readable (s : State) (c n : Nat) : Bool :=
  match s.named c n with
  | some (_, e) => e.st != .leased && e.st != .pending && e.st != .opened && e.bad == 0#32
  | none => false

/-- The lanes of a name's entry. -/
def State.nameLanes (s : State) (c n : Nat) : Lanes :=
  match s.named c n with
  | some (_, e) => e.lanes
  | none => zeroLanes

/-- One count of a name is consumed: 15 stays, the last count unbinds the name and releases its entry (R30). -/
def State.took (s : State) (c n : Nat) : State :=
  match s.crew? c with
  | none => s
  | some w => match Tab.at? w.arch.names n with
    | none => s
    | some b =>
      if b.count = 15 then s
      else if b.count ≤ 1 then
        let y : Crew := { w with arch := { w.arch with names := Tab.del w.arch.names n } }
        (s.setCrew c y).modCore (s.coreOf w) fun k => { k with vs := releaseEntry y k.vs b.entry }
      else s.setCrew c { w with arch := { w.arch with names := Tab.put w.arch.names n { b with count := b.count - 1 } } }

/-- A source operand has a value: a scalar always, a name where it is readable, both names of a pair (R39, R113). -/
def State.srcOk (s : State) (c : Nat) (code : BitVec 8) (wide : Bool) : Bool :=
  !isVec code || (s.readable c code.toNat && (!wide || (s.took c code.toNat).readable c (code.toNat + 1)))

/-- The scalars of crew `c`. -/
def State.scalarOf (s : State) (c : Nat) (code : BitVec 8) : DWord :=
  match s.crew? c with
  | some w => w.arch.scalar (scalarNo code)
  | none => 0#64

/-- The values of a source. -/
def State.srcVals (s : State) (c : Nat) (h : Head) (code : BitVec 8) (wide : Bool) : Vals :=
  if isVec code then
    (if wide then joinPair (s.nameLanes c code.toNat) ((s.took c code.toNat).nameLanes c (code.toNat + 1))
     else widen (s.nameLanes c code.toNat))
  else spread (s.scalarOf c code) (wide || h.uni)

/-- The machine after a source has been read. -/
def State.afterSrc (s : State) (c : Nat) (code : BitVec 8) (wide : Bool) : State :=
  if isVec code then
    (if wide then (s.took c code.toNat).took c (code.toNat + 1) else s.took c code.toNat)
  else s

/-- Source B, an immediate in the longer forms (R44, R46). -/
def State.bOk (s : State) (c : Nat) (wide : Bool) (x : Ops) : Bool := x.head.len != 0 || s.srcOk c x.sb wide

def State.bVals (s : State) (c : Nat) (ty : Ty) (wide : Bool) (x : Ops) : Vals :=
  if x.head.len ≠ 0 then Vector.replicate 32 (immOf ty x) else s.srcVals c x.head x.sb wide

def State.afterB (s : State) (c : Nat) (wide : Bool) (x : Ops) : State :=
  if x.head.len ≠ 0 then s else s.afterSrc c x.sb wide

/-- The merge source of `.mg` (R90). -/
def State.mgOk (s : State) (c : Nat) (f : FnT) (x : Ops) : Bool := !f.mg || s.readable c x.sc.toNat

def State.mgVals (s : State) (c : Nat) (f : FnT) (x : Ops) : Option Lanes :=
  if f.mg then some (s.nameLanes c x.sc.toNat) else none

def State.afterMg (s : State) (c : Nat) (f : FnT) (x : Ops) : State := if f.mg then s.took c x.sc.toNat else s

/-! ## Destinations (R31, R32, R40 to R42, R113) -/

/-- Name `n` can be bound now: it is unbound, an entry of the core is free, and the crew has room for it within its
floor or in what is available to it (R31, R94). -/
def State.canBind (s : State) (c n : Nat) : Bool :=
  match s.crew? c with
  | none => false
  | some w => (Tab.at? w.arch.names n).isNone && (freeEntry (s.core (s.coreOf w)).vs).isSome
      && (decide (heldOf (s.core (s.coreOf w)).vs c < w.arch.floor) || decide (0 < s.avail w))

/-- Name `n` bound to the first free entry (R15, R31), its lanes 0 until they are written. -/
def State.bindName (s : State) (c n count : Nat) (st : EState) : State :=
  match s.crew? c with
  | none => s
  | some w =>
    let e := (freeEntry (s.core (s.coreOf w)).vs).getD 0
    let en : Entry :=
      { st := st, crew := c, gang := w.gang, lanes := zeroLanes, fill := 0, bad := 0, birth := w.seq, rel := 0, tag := 0,
        gone := false }
    (s.modCore (s.coreOf w) fun k => { k with vs := Tab.put k.vs e en }).setCrew c
      { w with arch := { w.arch with names := Tab.put w.arch.names n ⟨e, count⟩ } }

/-- The entry that a new name takes. -/
def State.nextEntry (s : State) (c : Nat) : Nat :=
  match s.crew? c with
  | none => 0
  | some w => (freeEntry (s.core (s.coreOf w)).vs).getD 0

/-- The lanes of the entry of name `n` are written, all 32 (R32). -/
def State.fillName (s : State) (c n : Nat) (v : Lanes) : State :=
  match s.crew? c with
  | none => s
  | some w => match Tab.at? w.arch.names n with
    | none => s
    | some b => s.modCore (s.coreOf w) fun k => match Tab.at? k.vs b.entry with
      | some e => { k with vs := Tab.put k.vs b.entry { e with lanes := v, bad := 0 } }
      | none => k

/-- L(g) allows `k` more entries (R94). -/
def State.needOk (s : State) (c k : Nat) : Bool :=
  match s.crew? c with
  | none => false
  | some w => match s.gang? w.gang with
    | none => false
    | some g => decide (needOf (s.core (s.coreOf w)).vs c + k ≤ g.needLimit)

/-- A vector destination can be written: the discard always, a name, or both names of a pair. -/
def State.dstOk (s : State) (c : Nat) (x : Ops) (pair : Bool) : Bool :=
  x.cnt == 0 || (if pair then
      (s.needOk c 2 && s.canBind c x.dst.toNat
        && (s.bindName c x.dst.toNat x.cnt.toNat .bound).canBind c (x.dst.toNat + 1))
    else s.needOk c 1 && s.canBind c x.dst.toNat)

/-- A vector destination written: `m` the lanes that take the value, the others take `old` or 0 (R32, R90). -/
def State.stored (s : State) (c : Nat) (x : Ops) (pair : Bool) (old : Option Lanes) (v : Vals) (m : Mask) : State :=
  if x.cnt = 0 then s
  else if pair then
    (((s.bindName c x.dst.toNat x.cnt.toNat .bound).bindName c (x.dst.toNat + 1) x.cnt.toNat .bound).fillName c
      x.dst.toNat (selLanes m (lowHalf v) zeroLanes)).fillName c (x.dst.toNat + 1) (selLanes m (highHalf v) zeroLanes)
  else (s.bindName c x.dst.toNat x.cnt.toNat .bound).fillName c x.dst.toNat (selLanes m (lowHalf v) (old.getD zeroLanes))

/-- A scalar destination written (R42). -/
def State.setScalarOf (s : State) (c : Nat) (code : BitVec 8) (v : DWord) : State :=
  match s.crew? c with
  | some w => s.setCrew c { w with arch := w.arch.setScalar (scalarNo code) v }
  | none => s

/-- A mask destination written (R41). -/
def State.setMaskOf (s : State) (c k : Nat) (v : Mask) : State :=
  match s.crew? c with
  | some w => s.setCrew c { w with arch := w.arch.setMask k v }
  | none => s

/-- The effective mask of crew `c` (R29). -/
def State.emaskOf (s : State) (c : Nat) (h : Head) : Mask :=
  match s.crew? c with
  | some w => w.arch.emask h
  | none => 0#32

/-- The result of an instruction of layout T: after the merge source, `sv` goes to a scalar with UNI 1, otherwise lane
i of the effective mask takes `r i`. -/
def State.outOk (s : State) (c : Nat) (f : FnT) (x : Ops) (pair : Bool) : Bool :=
  s.mgOk c f x && (x.head.uni || (s.afterMg c f x).dstOk c x pair)

def State.out (s : State) (c : Nat) (f : FnT) (x : Ops) (pair : Bool) (sv : DWord) (r : Fin 32 → DWord) : State :=
  let t := s.afterMg c f x
  if x.head.uni then t.setScalarOf c x.dst sv
  else t.stored c x pair (s.mgVals c f x) (Vector.ofFn r) (t.emaskOf c x.head)

/-- A result without a merge source. -/
def State.plainOk (s : State) (c : Nat) (x : Ops) (pair : Bool) : Bool := x.head.uni || s.dstOk c x pair

def State.plainOut (s : State) (c : Nat) (x : Ops) (pair : Bool) (sv : DWord) (v : Vals) : State :=
  if x.head.uni then s.setScalarOf c x.dst sv else s.stored c x pair none v (s.emaskOf c x.head)

/-- A condition per lane: to a scalar, to a mask, or as 0 and 1 to a vector destination (R118). -/
def State.condOk (s : State) (c : Nat) (f : FnT) (x : Ops) : Bool :=
  s.mgOk c f x && (x.head.uni || toMask x || (s.afterMg c f x).dstOk c x false)

def State.condOut (s : State) (c : Nat) (f : FnT) (x : Ops) (p : Fin 32 → Bool) : State :=
  let t := s.afterMg c f x
  let m := t.emaskOf c x.head
  if x.head.uni then t.setScalarOf c x.dst (BitVec.ofNat 64 (b2n (p 0)))
  else if toMask x then t.setMaskOf c x.dst.toNat (m &&& maskOf p)
  else t.stored c x false (s.mgVals c f x) (Vector.ofFn fun i => BitVec.ofNat 64 (b2n (p i))) m

/-- One result for all lanes: to a scalar, to a mask as it is, or to every lane of the effective mask (R134). -/
def State.oneOk (s : State) (c : Nat) (x : Ops) : Bool := x.head.uni || toMask x || s.dstOk c x false

def State.oneOut (s : State) (c : Nat) (x : Ops) (v : Nat) : State :=
  if x.head.uni then s.setScalarOf c x.dst (BitVec.ofNat 64 v)
  else if toMask x then s.setMaskOf c x.dst.toNat (BitVec.ofNat 32 v)
  else s.stored c x false none (Vector.replicate 32 (BitVec.ofNat 64 v)) (s.emaskOf c x.head)

/-- Statistics of an instruction wait until the checkpoint passes it (R78). -/
def State.noted (s : State) (c tid : Nat) (d : Stat) : State :=
  match s.crew? c with
  | some w => s.setCrew c { w with stats := w.stats ++ [⟨w.seq, tid, d⟩] }
  | none => s

/-- DEADSRC is set where `p` holds (R132). -/
def State.deadRead (s : State) (c : Nat) (p : Bool) : State :=
  match s.crew? c with
  | some w => s.setCrew c { w with deadsrc := w.deadsrc || p }
  | none => s

/-- The dead lanes of a crew. -/
def State.deadOf (s : State) (c : Nat) : Mask :=
  match s.crew? c with
  | some w => w.dead
  | none => 0#32

/-- The selector of SHFL, seen before any count is consumed. -/
def State.selector (s : State) (c : Nat) (x : Ops) : Vals :=
  if x.head.len ≠ 0 then Vector.replicate 32 x.ext
  else if isVec x.sb then widen (s.nameLanes c x.sb.toNat)
  else Vector.replicate 32 (s.scalarOf c x.sb)

/-- The lane that LANE names (R137). -/
def State.laneOf (s : State) (c : Nat) (x : Ops) : Fin 32 :=
  laneFin (if x.head.len ≠ 0 then x.ext.toNat else (s.scalarOf c x.sb).toNat)

/-! ## The lane instructions by their number of sources -/

/-- The constructors with one source: opcode and the function of a lane. -/
def unaryOf : Instr → Option (Nat × FnT × Ops × (Nat → Nat))
  | .iabs f x => some (0x29, f, x, Alu.iabs f)
  | .ineg f x => some (0x2A, f, x, Alu.ineg f)
  | .notB f x => some (0x34, f, x, Alu.notN f)
  | .popc f x => some (0x39, f, x, Alu.popc f)
  | .clz f x => some (0x3A, f, x, Alu.clz f)
  | .brev f x => some (0x3B, f, x, Alu.brev f)
  | .frcp f x => some (0x47, f, x, Alu.frcp)
  | .frsq f x => some (0x48, f, x, Alu.frsq)
  | .fsqrt f x => some (0x49, f, x, Alu.fsqrt (Alu.modeOf f))
  | .fexp2 f x => some (0x4A, f, x, Alu.fexp2)
  | .flog2 f x => some (0x4B, f, x, Alu.flog2)
  | .ftanh f x => some (0x4C, f, x, Alu.ftanh)
  | _ => none

/-- The constructors with two sources. -/
def binaryOf : Instr → Option (Nat × FnT × Ops × (Nat → Nat → Nat))
  | .iadd f x => some (0x20, f, x, Alu.iadd f)
  | .isub f x => some (0x21, f, x, Alu.isub f)
  | .imul f x => some (0x22, f, x, Alu.imul f)
  | .imulh f x => some (0x23, f, x, Alu.imulh f)
  | .idiv f x => some (0x25, f, x, Alu.idiv f)
  | .irem f x => some (0x26, f, x, Alu.irem f)
  | .imin f x => some (0x27, f, x, Alu.imin f)
  | .imax f x => some (0x28, f, x, Alu.imax f)
  | .andB f x => some (0x30, f, x, Alu.andN f)
  | .orB f x => some (0x31, f, x, Alu.orN f)
  | .xorB f x => some (0x32, f, x, Alu.xorN f)
  | .andnB f x => some (0x33, f, x, Alu.andnN f)
  | .shl f x => some (0x35, f, x, Alu.shl f)
  | .shr f x => some (0x36, f, x, Alu.shr f)
  | .sar f x => some (0x37, f, x, Alu.sar f)
  | .rot f x => some (0x38, f, x, Alu.rot f)
  | .bfx f x => some (0x3C, f, x, Alu.bfx f)
  | .fadd f x => some (0x40, f, x, Alu.faddE Num.f32 (Alu.modeOf f))
  | .fsub f x => some (0x41, f, x, Alu.fsubE Num.f32 (Alu.modeOf f))
  | .fmul f x => some (0x42, f, x, Alu.fmulE Num.f32 (Alu.modeOf f))
  | .fmin f x => some (0x44, f, x, Alu.fmin)
  | .fmax f x => some (0x45, f, x, Alu.fmax)
  | .hadd f x => some (0x50, f, x, fun a b => Alu.packed f.ty (fun F p q _ => Alu.faddE F (Alu.modeOf f) p q) a b 0)
  | .hmul f x => some (0x51, f, x, fun a b => Alu.packed f.ty (fun F p q _ => Alu.fmulE F (Alu.modeOf f) p q) a b 0)
  | _ => none

/-- The constructors with three sources. -/
def ternaryOf : Instr → Option (Nat × FnT × Ops × (Nat → Nat → Nat → Nat))
  | .imad f x => some (0x24, f, x, Alu.imad f)
  | .bfi f x => some (0x3D, f, x, Alu.bfi f)
  | .ffma f x => some (0x43, f, x, Alu.ffmaE Num.f32 (Alu.modeOf f))
  | .hfma f x => some (0x52, f, x, Alu.packed f.ty fun F p q r => Alu.ffmaE F (Alu.modeOf f) p q r)
  | _ => none

/-! ## Control flow (R83 to R86) -/

/-- A crew after `branch` to `p` by the lanes `t`: all of them, none, or some (R83). -/
def Crew.branched (y : Crew) (t : Mask) (p : Addr) : Crew :=
  if t = 0 then y.blockEntry y.arch.pc
  else if t = y.arch.act then Crew.blockEntry { y with arch := { y.arch with pc := p } } p
  else
    let z : Crew := { y with arch := { y.arch with stack := ⟨.deferred, p, t⟩ :: y.arch.stack, act := y.arch.act &&& ~~~ t } }
    z.blockEntry y.arch.pc

/-- The branch is possible: an aligned target where some lane takes it, and room on the stack where only some do. -/
def Crew.canBranch (y : Crew) (t : Mask) (p : Addr) : Bool :=
  t == 0#32 || (p.toNat % 4 == 0 && (t == y.arch.act || decide (y.arch.stack.length < 1024)))

/-- The machine once room is made on the stack of `y` for what the branch of the lanes `t` pushes (R82); an error: that
failed. -/
def State.branchRoom (s : State) (y : Crew) (t : Mask) : Except State State :=
  if t = 0 ∨ t = y.arch.act then .ok s else s.spillPush y

/-- A crew after a transfer to `p` (R85). -/
def Crew.jumped (y : Crew) (p : Addr) : Crew := Crew.blockEntry { y with arch := { y.arch with pc := p } } p

/-- A crew after the lanes `m` have left (R86). -/
def Crew.left (y : Crew) (m : Mask) : Crew :=
  let z : Crew := { y with arch := y.arch.removeLanes m }
  if z.arch.act = 0 then z.popStack z.arch.stack else z.blockEntry z.arch.pc

/-- The instructions that need a level, with that level and the machine as their check finds it (R26, R55, R56). -/
def privForm (s : State) (c : Nat) (w : Crew) : Instr → Option (Ops × Nat × State)
  | .csrr k x => some (x, csrReadLevel k.toNat, s.setCrew c (w.passed x))
  | .csrw k x => some (x, csrWriteLevel k.toNat, s.opens c w 0x1B x)
  | .pmap x => some (x, 1, s)
  | .tlbinv _ x => some (x, 1, s)
  | .kzero x => some (x, 2, s)
  | .scrub x => some (x, 2, s.opens c w 0xF6 x)
  | .ctxfree x => some (x, 2, s.opens c w 0xF7 x)
  | _ => none

/-! ## Names, floors (R33, R89, R93 to R96) -/

/-- drop(N) of R33, and R17 for a pending or open entry. -/
def State.dropped (s : State) (c n : Nat) : State :=
  match s.crew? c, s.named c n with
  | some w, some (b, e) =>
    (s.setCrew c { w with arch := { w.arch with names := Tab.del w.arch.names n } }).modCore (s.coreOf w) fun k =>
      { k with
        vs := match e.st with
          | .pending => Tab.put k.vs b.entry { e with gone := true, rel := w.seq }
          | .opened => Tab.del k.vs b.entry
          | _ => releaseEntry w k.vs b.entry }
  | _, _ => s

/-- The count of a name replaced. -/
def State.recount (s : State) (c n : Nat) (b : Binding) : State :=
  match s.crew? c with
  | some w => s.setCrew c { w with arch := { w.arch with names := Tab.put w.arch.names n b } }
  | none => s

/-- The operand k of CLAIM and CEDE: IMM32, or a scalar of at most 4,096 (R95, R96). -/
def State.countOk (s : State) (c : Nat) (x : Ops) : Bool := x.head.len != 0 || decide ((s.scalarOf c x.sa).toNat ≤ 4096)

def State.countOf (s : State) (c : Nat) (x : Ops) : Nat :=
  if x.head.len ≠ 0 then x.ext.toNat else (s.scalarOf c x.sa).toNat

/-- The floor of crew `c` and the cede pool of its gang moved. -/
def State.moveFloor (s : State) (c gk floor cede : Nat) : State :=
  match s.crew? c with
  | some w => (s.modGang gk fun g => { g with cede := cede }).setCrew c { w with arch := { w.arch with floor := floor } }
  | none => s

/-! ## The matrix array at issue (R141 to R155) -/

/-- Handle `h` of crew `c` names tile `t`, which no engine command leases and no earlier matrix instruction of the crew
still uses (R145, R155). -/
def State.tileOk (s : State) (c h t : Nat) : Bool :=
  match s.crew? c with
  | none => false
  | some w => Tab.at? w.arch.tiles h == some t && !(s.cmds.any fun p => p.2.crew == c && p.2.tile == some t)
      && !s.tileBusy (s.coreOf w) c t

/-- A scratchpad region of crew `c` is aligned, lies in its gang's allocation, and is not leased (R145). -/
def State.regionOk (s : State) (c off n align : Nat) : Bool :=
  match s.crew? c with
  | none => false
  | some w => match s.gang? w.gang with
    | none => false
    | some g => (s.regionErr c g.spLen off n align).isNone

/-- No earlier matrix instruction of the crew still has to read or write these bytes (R155). -/
def State.spadFree (s : State) (c : Nat) (rs : List (Nat × Nat)) (writes : Bool) : Bool :=
  match s.crew? c with
  | none => false
  | some w => !(rs.any fun r => s.matrixBlocks (s.coreOf w) c r.1 r.2 writes)

/-- One of the 8 places of the core's matrix queue is free (R149). -/
def State.queueFree (s : State) (c : Nat) : Bool :=
  match s.crew? c with
  | none => false
  | some w => decide ((s.core (s.coreOf w)).mats.length < 8)

/-- An instruction handed to the matrix array (R149). -/
def State.queued (s : State) (c : Nat) (pc : Addr) (t : Nat) (m : Mask) (k : MatKind) : State :=
  match s.crew? c with
  | none => s
  | some w => s.modCore (s.coreOf w) fun u =>
      let o : MatOp :=
        { crew := c, gang := w.gang, seq := w.seq, pc := pc, tile := t, lanes := m, kind := k, early := [], did := [] }
      { u with mats := u.mats ++ [o] }

/-- The scratchpad offset of a scalar operand: bits 51:0 (R145). -/
def State.offsetOf (s : State) (c : Nat) (code : BitVec 8) : Nat := (s.scalarOf c code).toNat % 2 ^ 52

/-- The regions and the slice that an MMA names are in order (R145, R147). -/
def State.mmaOk (s : State) (c a b : Nat) (fb : DWord) : Bool :=
  s.regionOk c a (64 * stepBytes (fld fb 1 0)) 256
    && (blockCount fb == 0 || (s.regionOk c (64 * fld fb 18 6) (64 * blockCount fb) 1
        && s.regionOk c (64 * fld fb 31 19) (128 * blockCount fb) 1))
    && s.regionOk c (64 * fld fb 44 32) 6 1 && decide (b % 64 = 0) && decide (b + stepBytes (fld fb 1 0) ≤ 32768)

/-- A tile claimed for crew `c` under handle `h` (R142): all its elements are 0. -/
def State.claimedTile (s : State) (c h t : Nat) : State :=
  match s.crew? c with
  | none => s
  | some w => ((s.modCore (s.coreOf w) fun k => { k with tiles := Tab.put k.tiles t { crew := c, rel := none } }).clearChip
      (tilePa (s.coreOf w) t) 0x8000).setCrew c { w with arch := { w.arch with tiles := Tab.put w.arch.tiles h t } }

/-- A tile given back (R143): free at once, or released while the checkpoint is older. -/
def State.freedTile (s : State) (c h t : Nat) : State :=
  match s.crew? c with
  | none => s
  | some w => (s.setCrew c { w with arch := { w.arch with tiles := Tab.del w.arch.tiles h } }).modCore (s.coreOf w) fun k =>
      { k with tiles := if w.acc.isEmpty then Tab.del k.tiles t else Tab.put k.tiles t { crew := c, rel := some w.seq } }

/-- Nothing that crew `c` would read of these tile elements is marked uncorrectable (R305). -/
def State.unmarked (s : State) (pas : List Nat) : Bool := (pas.find? fun p => s.marked p 4).isNone

/-! ## Memory instructions at issue (R160 to R165, R177) -/

/-- The memory instructions that make an access. -/
def accessOf : Instr → Option (MemForm × FnM × Ops)
  | .ld f x => some (⟨0xA0, true, .load, true⟩, f, x)
  | .st f x => some (⟨0xA1, true, .store, false⟩, f, x)
  | .lds f x => some (⟨0xA2, false, .load, true⟩, f, x)
  | .sts f x => some (⟨0xA3, false, .store, false⟩, f, x)
  | .atom f x => some (⟨0xB0, true, .rmw f.sub.toNat, true⟩, f, x)
  | .cas f x => some (⟨0xB1, true, .rmw 7, true⟩, f, x)
  | .red f x => some (⟨0xB2, true, .rmw f.sub.toNat, false⟩, f, x)
  | .atoms f x => some (⟨0xB3, false, .rmw f.sub.toNat, true⟩, f, x)
  | _ => none

/-- It waits for the checkpoint: a release or an atomic (R19). -/
def accessBound (q : MemForm) (f : FnM) : Bool := f.ord == 2 || f.ord == 3 || (q.kind != .load && q.kind != .store)

/-- HOLD: from its first read on the instruction will have an access outstanding. -/
def State.holding (s : State) (c : Nat) (p : Bool) : State :=
  match s.crew? c with
  | some w => s.setCrew c { w with hold := p }
  | none => s

/-- The crew has none of the names (R31). -/
def State.unbound (s : State) (c : Nat) (ns : List Nat) : Bool :=
  match s.crew? c with
  | none => false
  | some y => ns.all fun n => (Tab.at? y.arch.names n).isNone

/-- The addresses of an access's lanes pass every check of R160, R161, R145 and R155, and no watchpoint is hit (R328). -/
def State.accessOk (s : State) (c : Nat) (q : MemForm) (f : FnM) (m : Mask) (addr : Tab Nat) : Bool :=
  match s.crew? c with
  | none => false
  | some y => match s.gang? y.gang with
    | none => false
    | some g =>
      let n := Ty.size f.ty
      (lanesOf m).all (fun l => at0 addr l.val % n == 0)
        && (if q.glob then (lanesOf m).all fun l => decide (at0 addr l.val < 2 ^ 52)
            else (lanesOf m).all (fun l => decide (at0 addr l.val + n ≤ g.spLen))
              && (lanesOf m).all (fun l => !s.leased c (at0 addr l.val) n)
              && (y.priv != 0 || y.anyAct || y.exempt
                || watchLanes g m addr n (q.kind != .store) (q.kind != .load) == 0#32))
        && !((lanesOf m).any fun l => s.laneBlocked c y g q.glob (at0 addr l.val) n (q.kind != .load))

/-- Names bound one after the other. -/
def State.bindNames (s : State) (c : Nat) (ns : List Nat) (count : Nat) (st : EState) : State :=
  ns.foldl (fun t n => t.bindName c n count st) s

/-- The names of a destination can be bound: none, one, or the two of a pair. -/
def State.canBindAll (s : State) (c : Nat) (ns : List Nat) (count : Nat) (st : EState) : Bool :=
  match ns with
  | [] => true
  | n :: [] => s.needOk c 1 && s.canBind c n
  | n :: k :: _ => s.needOk c 2 && s.canBind c n && (s.bindName c n count st).canBind c k

/-- The entry of a name waits for half `tag` of an access. -/
def State.tagName (s : State) (c n tag : Nat) : State :=
  match s.crew? c with
  | none => s
  | some w => match Tab.at? w.arch.names n with
    | none => s
    | some b => s.modCore (s.coreOf w) fun k => match Tab.at? k.vs b.entry with
      | some e => { k with vs := Tab.put k.vs b.entry { e with tag := tag } }
      | none => k

def State.tagNames (s : State) (c id : Nat) (ns : List Nat) : State :=
  match ns with
  | [] => s
  | n :: [] => s.tagName c n (2 * id)
  | n :: k :: _ => (s.tagName c n (2 * id)).tagName c k (2 * id + 1)

/-- An access becomes unperformed; a scalar destination parks the crew (R163). -/
def State.withAccess (s : State) (c : Nat) (a : Access) (p : Bool) : State :=
  match s.crew? c with
  | none => s
  | some w => { s with nextId := s.nextId + 1 }.setCrew c
      { w with
        acc := w.acc ++ [a]
        park := if p then some (.scalar a.id) else w.park }

/-- An acquire by crew `c` at a scope (R247). -/
def State.acquired (s : State) (c scope : Nat) : State :=
  match s.crew? c with
  | none => s
  | some w => s.acquireL1 (s.coreOf w) scope

/-! ## Barriers (R180 to R183) -/

/-- What the return of BAR and BARW leaves: the result word, PEERDOWN reported, an acquire at the barrier's scope. -/
def State.barDone (s : State) (c level n : Nat) (x : Ops) : State :=
  match s.crew? c with
  | none => s
  | some y =>
    let t := s.setScalarOf c x.dst (barResult y level (s.waitPhase y level n))
    let u := if level = 2 && y.down.getLsbD 1 then t.thaw [c] else t
    let v := u.modCrew c fun z => { z with down := z.down &&& ~~~ (1#3 <<< (level - 1)) }
    v.acquired c level

/-- The barrier exists for crew `c` (R179). -/
def State.barExists (s : State) (c level : Nat) : Bool :=
  match s.crew? c with
  | none => false
  | some w => match s.gang? w.gang with
    | none => false
    | some g => s.hasBarrier g level

/-- Crew `c` has arrived in the open phase and waits for it (R180). -/
def State.inPhase (s : State) (c level n : Nat) : Bool :=
  match s.crew? c with
  | none => false
  | some w => s.waits_ w level n

/-- No matrix instruction of crew `c` is under way (R156). -/
def State.matrixIdle (s : State) (c : Nat) : Bool :=
  match s.crew? c with
  | none => false
  | some w => !s.hasMatrix (s.coreOf w) c

/-- The result that an event left for crew `c` is taken. -/
def State.delivered (s : State) (c : Nat) : State :=
  match s.crew? c with
  | none => s
  | some w => s.setCrew c { w with waitEvt := none }

/-! ## Engine commands (R196, R197) -/

/-- A command given its number and handed to its engine; its number goes to the scalar destination. -/
def State.commanded (s : State) (c e : Nat) (pc : Addr) (x : Ops) (p : EngPlan) : State :=
  match s.crew? c with
  | none => s
  | some w => match s.gang? w.gang with
    | none => s
    | some g =>
      let t := g.timeline e
      let n := t.issued + 1
      let cmd : Cmd :=
        { gang := w.gang, grid := g.grid, crew := c, ctx := g.ctx, priv := w.priv, core := g.core, engine := e, n := n,
          pc := pc, crewid := BitVec.ofNat 14 (s.crewId w), what := p.what, tile := p.tile, range := p.range, isOver := false,
          result := zeroLanes, begun := none, did := [], saved := none }
      let u := ({ s with
        nextId := s.nextId + 1
        cmds := Tab.put s.cmds s.nextId cmd }).modGang w.gang fun k => k.setTimeline e { t with issued := n }
      (u.setCrew c { w.dropEseq pc with eng := { pc := pc, kind := e, n := n } :: (w.dropEseq pc).eng }).setScalarOf c x.dst (BitVec.ofNat 64 n)

/-- Every wait of an instruction is met, and no failure that it covers is unreported (R204, R205). -/
def State.waitsMet (s : State) (c : Nat) (ws : List (Nat × Nat)) : Bool :=
  match s.crew? c with
  | none => false
  | some w => match s.gang? w.gang with
    | none => false
    | some g => ws.all fun q => decide (q.2 ≤ (g.timeline q.1).done) && (g.timeline q.1).fails.all fun f => decide (q.2 < f.n)

/-! ## Bins (R188 to R193) -/

/-- A bin of a gang replaced. -/
def State.withBin (s : State) (gk n : Nat) (b : Bin) : State :=
  s.modGang gk fun g => { g with bins := Tab.put g.bins n b }

/-- Lanes of a suspending crew written one after the other, each into the lowest free row of its bin (R190). -/
def State.framed (core : Nat) (g : Gang) (vs : Tab Entry) (ns : Tab Binding) (cs : List FrameCol) :
    List (Fin 32) → State → Bin → State × Bin
  | [], s, b => (s, b)
  | l :: ls, s, b => match freeRow b.occ with
    | some i => State.framed core g vs ns cs ls
        ((frameWords vs ns cs l).foldl (fun u w => u.writeChip (framePa core g b i w.1) (bytesLE 4 w.2)) s)
        { b with occ := b.occ ||| laneBit i }
    | none => (s, b)

/-- The names of a crew are those of a descriptor, each readable (R190). -/
def State.frameFits (s : State) (c : Nat) (cs : List FrameCol) : Bool :=
  match s.crew? c with
  | none => false
  | some y =>
    (y.arch.names.map Prod.fst).all (cs.map FrameCol.name).contains
      && (cs.all fun f => (y.arch.names.map Prod.fst).contains f.name) && cs.all fun f => s.readable c f.name

/-- Crew `c` exists, some lane of it is active, and no item of its state is marked uncorrectable. -/
def State.live (s : State) (c : Nat) : Bool :=
  match s.crew? c with
  | some y => y.arch.act != 0 && y.marks.isEmpty
  | none => false

/-- An instruction with an empty effective mask leaves its command complete (R197). -/
def State.completed (s : State) (k : Nat) : State :=
  match Tab.at? s.cmds k with
  | some d => s.finishCmd k d none zeroLanes
  | none => s

/-- A child grid placed in slot `i` of the pending pool (R209, R280). -/
def State.childPlaced (s : State) (parent i : Nat) (n : Nat × State) : State :=
  { n.2 with
    pool := Tab.put n.2.pool i
      { Tab.getD s.pool i PoolSlot.reset with
        grid := some n.1, parent := parent, done := false, status := 0, cause := 0, joined := false }
    poolQ := n.2.poolQ ++ [n.1] }

/-! ## Accesses after their issue (R161, R163, R164, R177, R245, R246) -/

/-- A lane of an access reaches a leased range of its own gang's scratchpad through the window (R161). -/
def State.ownLease (s : State) (c : Nat) (y : Crew) (b : Access) (l : Fin 32) : Bool :=
  match s.gang? y.gang with
  | some g => match s.ownSpad y g (at0 b.addr l.val) with
    | some o => s.leased c o b.size
    | none => false
  | none => false

/-- How a lane that no window serves is performed: on the scratchpad by reader `r`, or in memory. -/
def laneIn (core : Nat) (r : Reader) (t : State) (d : Access) (l : Nat) (p : Place) : LaneRes :=
  if d.spad then performChip t core r d l p.pa else performMem t core d l p

/-- Lanes of an access have been performed: an acquire that is over empties the L1 as its scope says (R247). -/
def State.performed (s : State) (core : Nat) (b : Access) (c : Nat) : State :=
  if b.acquires && (s.access? c b.id).isNone then s.acquireL1 core b.scope.toNat else s

/-- The window lanes of an access that are still to be performed: those in value-store entries, or the others. -/
def windowLanes (b : Access) (entries : Bool) : Mask :=
  lanesWith (b.lanes &&& ~~~ b.done) fun l => b.windowLane l.val && (b.entryLane l.val == entries)

/-! ## Crews and gangs that leave (R86, R195) -/

/-- A crew has retired from slot `sl` of a core (R86). -/
def State.retired (s : State) (c core sl : Nat) (w : Crew) : State :=
  let t := (s.settle c).modCore core fun k =>
    { k with
      vs := retireEntries c k.vs
      tiles := k.tiles.filter (fun p => p.2.crew != c)
      slots := Tab.del k.slots sl }
  let u := { t with
    crews := Tab.del t.crews c
    waits := t.waits.filter fun q => q.crew != c }.thaw [c]
  ((u.tryBarriers w.gang).noteRun (s.ctxOf w)).trySwapOut w.gang

/-- The reason of a kill that no unit is named in. -/
def plainWhy (core : Nat) (cause : Cause) (addr : Nat) : KillWhy :=
  { cause := cause, kind := 0, inst := coreInst core, addr := addr, crew := 0, pc := 0, again := true }

/-! ## The mailbox (R330 to R334) -/

/-- Request `op` of a context stands with crew `c`, debug-halted as `w`, and body `b` (R331 to R333). -/
structure Asks (s : State) (ctx : Nat) (q : MbReq) (op c : Nat) (w : Crew) : Prop where
  req   : s.request ctx = some q
  op    : q.op = op
  zeros : q.zeros = true
  crew  : s.haltedCrew ctx q.crew = some c
  state : s.crew? c = some w

/-! ## Contexts and pages (R285 to R287, R259 to R261) -/

/-- A context that is stopped and saved: its crews back at their checkpoints, B-stacks and gangs saved (R285 to R287,
R289). -/
def State.stopped (s : State) (ctx : Nat) : State :=
  let cs := s.crewsOfCtx ctx
  let t := (cs.filter fun c => match s.crew? c with
    | some x => x.resident
    | none => false).foldl State.stopCrew { s with waits := s.waits.filter fun w => !cs.contains w.crew }
  let u := (t.coresOfCtx ctx).foldl (fun v k => v.putBstack ctx k) t
  let v := (u.gangsOfCtx ctx).foldl (fun v g => v.saveGang g .saved) u
  (cs.foldl (fun v c => v.modCrew c fun x => { x with stopAt := false }) v).clearSlots fun r => r.ctx == ctx

/-- The pieces of a range are copied to one page at `target`, its entries are written, and its old frames go back to the
pool of the stack's die (R260, R261). -/
def State.promoted (s : State) (ctx va : Nat) (big : Bool) (target leaf : Nat) (e0 : DWord) (es : List DWord) : State :=
  let size := if big then 0x2000000 else 0x200000
  let n := size / 65536
  let die := hbmDie target
  let fs := (List.range n).map fun i => target + 65536 * i
  let key := fld e0 15 9
  let old := ((List.range n).zip (e0 :: es)).map fun p => piecePa p.1 p.2
  let t := copyPieces key target 0 old ((s.setPool die ((s.poolOf die).filter fun f => !fs.contains f)).dropRange target size)
  let u := writeLeaves ctx leaf va (target + 512 * key + (if big then 32 else 16) + 2 * fld e0 3 1 + 1) n t
  u.setPool die (u.poolOf die ++ old.filter fun f => !(f % 0x2000000000 == 0x12A05F0000))

/-- The name of a crew is written by a debugger that bound it anew (R336). -/
def State.rebound (s : State) (c n count : Nat) (v : Lanes) : State :=
  ((s.bindName c n count .bound).fillName c n v).bumpSeq c

/-! ## Bytes of a store (R164) -/

/-- The byte that lane `l` of a store gives offset `n`. -/
def laneByte (b : Access) (l : Fin 32) (n : Nat) : Byte :=
  BitVec.ofNat 8 (at0 b.datB l.val / 2 ^ (8 * (n - at0 b.addr l.val)))

/-- The highest lane of a store whose bytes take in offset `n`. -/
def topLane (b : Access) (n : Nat) : Option (Fin 32) :=
  (lanesOf b.lanes).reverse.find? fun l => decide (at0 b.addr l.val ≤ n) && decide (n < at0 b.addr l.val + b.size)

/-! ## Fetch (R37, R56) -/

/-- The instruction bytes `bs` are fetched at the PC of crew `w`, which stands at no pad word and whose instruction does not
cross a fetch boundary; `t` is the machine after the fetch. -/
structure Fetches (s : State) (w : Crew) (t : State) (bs : List Byte) : Prop where
  reads : ∃ u hd, s.readVa (s.crewAgent w w.arch.pc) .fetch w.arch.pc.toNat 4 = .ok u hd ∧
    ¬ (w.arch.pc.toNat % 32 = 28 ∧ ofBytesLE hd = 0) ∧ lenBytes ((hd.headD 0#8).extractLsb' 0 2) ≠ 0 ∧
    u.readVa (u.crewAgent w w.arch.pc) .fetch w.arch.pc.toNat (lenBytes ((hd.headD 0#8).extractLsb' 0 2)) = .ok t bs
  fits  : w.arch.pc.toNat % 32 + bs.length ≤ 32

/-- The fetch of `n` bytes at the PC of crew `w`. -/
def State.fetchBytes (s : State) (w : Crew) (n : Nat) : Io (List Byte) :=
  s.readVa (s.crewAgent w w.arch.pc) .fetch w.arch.pc.toNat n

/-- A fetch that meets a cause other than POISON, and one that meets an uncorrectable error (R56, R312). -/
def fetchFails (r : Io (List Byte)) (t : State) (cause : Cause) (a : Nat) : Prop :=
  cause ≠ cPoison ∧ ∃ pa, r = .fail t cause a pa

def fetchDies (r : Io (List Byte)) (t : State) (kind inst a : Nat) : Prop :=
  r = .kill t kind inst a ∨ ∃ va, r = .fail t cPoison va a ∧ kind = (t.badUnit a).1 ∧ inst = (t.badUnit a).2

/-- The first word of an instruction of `n` bytes is fetched at the PC of crew `w`; it is no pad word. -/
def firstWord (s : State) (w : Crew) (u : State) (n : Nat) : Prop :=
  ∃ hd, s.fetchBytes w 4 = .ok u hd ∧ isPad w.arch.pc.toNat hd = false ∧ n = lenBytes ((hd.headD 0#8).extractLsb' 0 2)

/-- The fetch at the PC of crew `w` brings a cause and an address, and leaves the machine as `t`: bytes that cannot be
read, a length that no instruction has, an instruction across the end of its fetch block, or bytes that decode to none (R37,
R40, R55, R56). -/
inductive FetchTraps (s : State) (w : Crew) (t : State) : Cause → Nat → Prop where
  | first (cause : Cause) (a : Nat) : fetchFails (s.fetchBytes w 4) t cause a → FetchTraps s w t cause a
  | length : firstWord s w t 0 → FetchTraps s w t cIllop 0
  | rest (u : State) (n : Nat) (cause : Cause) (a : Nat) : firstWord s w u n → n ≠ 0 →
      fetchFails (u.fetchBytes w n) t cause a → FetchTraps s w t cause a
  | crosses (u : State) (n : Nat) (bs : List Byte) : firstWord s w u n → n ≠ 0 → u.fetchBytes w n = .ok t bs →
      32 < w.arch.pc.toNat % 32 + bs.length → FetchTraps s w t cFetchAlign 0
  | noInstr (bs : List Byte) (e : DecodeError) : Fetches s w t bs → decode bs = .error e → FetchTraps s w t cIllop 0

/-- The fetch at the PC of crew `w` consumes an uncorrectable error (R312). -/
inductive FetchKills (s : State) (w : Crew) (t : State) (kind inst a : Nat) : Prop where
  | first : fetchDies (s.fetchBytes w 4) t kind inst a → FetchKills s w t kind inst a
  | rest (u : State) (n : Nat) : firstWord s w u n → n ≠ 0 → fetchDies (u.fetchBytes w n) t kind inst a →
      FetchKills s w t kind inst a

/-- Crew `c` stands as `w` and may issue: its context runs, and nothing parks it or waits before its next instruction. -/
structure Ready (s : State) (c : Nat) (w : Crew) : Prop where
  crew  : s.crew? c = some w
  full  : w.empty = false
  bound : w.frame = []
  runs  : s.ctxLets w = true
  free  : w.park = none
  step  : w.stepDue = none
  brk   : w.breaks = false

/-! ## Frames -/

/-- The lane instructions of layout T by their shape: opcode, fields, and the number of sources. -/
def laneForm (i : Instr) : Option (Nat × FnT × Ops × Nat) :=
  match unaryOf i, binaryOf i, ternaryOf i with
  | some (o, f, x, _), _, _ => some (o, f, x, 1)
  | none, some (o, f, x, _), _ => some (o, f, x, 2)
  | none, none, some (o, f, x, _) => some (o, f, x, 3)
  | none, none, none => none

/-- The first `n` sources of an instruction are readable, each after the one before it has been read (R30, R39). -/
def State.sourcesOk (s : State) (c : Nat) (f : FnT) (x : Ops) (n : Nat) : Bool :=
  let s1 := s.afterSrc c x.sa f.ty.wide
  s.srcOk c x.sa f.ty.wide && (decide (n < 2) || s1.bOk c f.ty.wide x)
    && (decide (n < 3) || (s1.afterB c f.ty.wide x).srcOk c x.sc f.ty.wide)

/-- The machine after the first `n` sources have been read. -/
def State.afterSources (s : State) (c : Nat) (f : FnT) (x : Ops) (n : Nat) : State :=
  let s1 := s.afterSrc c x.sa f.ty.wide
  if n < 2 then s1
  else if n < 3 then s1.afterB c f.ty.wide x
  else (s1.afterB c f.ty.wide x).afterSrc c x.sc f.ty.wide

/-- Name `k` is read by an operand code, or is the second name of the pair that it reads. -/
def readsName (code : BitVec 8) (wide : Bool) (k : Nat) : Bool :=
  isVec code && (k == code.toNat || (wide && k == code.toNat + 1))

/-- Name `k` is a source or the destination of an instruction with `n` sources. -/
def touches (f : FnT) (x : Ops) (n k : Nat) : Bool :=
  readsName x.sa f.ty.wide k || (decide (2 ≤ n) && x.head.len == 0 && readsName x.sb f.ty.wide k)
    || (decide (3 ≤ n) && readsName x.sc f.ty.wide k) || (f.mg && k == x.sc.toNat)
    || (!x.head.uni && x.cnt != 0 && (k == x.dst.toNat || (f.ty.wide && k == x.dst.toNat + 1)))

/-- Scalar `k` is the destination. -/
def writesScalar (x : Ops) (k : Nat) : Bool := x.head.uni && k == scalarNo x.dst

/-- What an instruction that reads and writes registers only leaves unchanged: every byte of memory and everything else
outside crews, cores and gangs; of a core all but the entries and tiles that the checkpoint frees; of a gang all but its
statistics; every other crew; of crew `c` the masks, the stack, the mode, the trap registers and every other field, the
scalars that are not `scalars`, the bindings of the names that are not `names`, and the entries that no such name is bound
to. -/
structure OperandFrame (s t : State) (c : Nat) (w : Crew) (x : Ops) (names scalars : Nat → Bool) : Prop where
  rest    : t = { s with crews := t.crews, cores := t.cores, gangs := t.gangs }
  mem     : ∀ a, t.mem.get a = s.mem.get a
  cores   : ∀ j, t.core j = { s.core j with vs := (t.core j).vs, tiles := (t.core j).tiles }
  gangs   : ∀ g, ∃ d, t.gang? g = (s.gang? g).map fun y => { y with stats := d }
  crews   : ∀ d, d ≠ c → t.crew? d = s.crew? d
  entries : ∀ j e en, Tab.at? (s.core j).vs e = some en → (en.crew = c → en.st ≠ .released) →
    (j = s.coreOf w → ∀ n b, names n = true → Tab.at? w.arch.names n = some b → b.entry ≠ e) →
    Tab.at? (t.core j).vs e = some en
  own     : ∃ y, t.crew? c = some y ∧
    y = { w with
      arch := { w.arch with
        pc := w.arch.pc + BitVec.ofNat 52 (lenOf x)
        sig := y.arch.sig
        names := y.arch.names
        scal := y.arch.scal }
      park := none
      seq := w.seq + 1
      ipc := w.arch.pc
      eng := (w.dropEseq w.arch.pc).eng
      hold := false
      exempt := y.exempt
      stepDue := y.stepDue
      stats := y.stats
      image := y.image
      tileImg := y.tileImg } ∧
    (∀ k, scalars k = false → y.arch.scalar k = w.arch.scalar k) ∧
    (∀ n, names n = false → Tab.at? y.arch.names n = Tab.at? w.arch.names n)

end Sys2Proof.Machine
end

