-- ==== Sys2Proof/Certificates/Slice0/Obligations.lean ====
section
/-!
DEFINITION. Certificates/Slice0/Obligations.lean: the statements for the provers.
-/

open Sys2Proof Sys2Proof.Machine

/-! ## Lane instructions -/

/-- R115, R117, R121, R123, R39 to R42: an instruction with one source reads it, applies its function in each lane, and
writes its destination; nothing else of the machine changes. -/
def Obligations.OneSourceLanes : Prop :=
  ∀ (i : Instr) (opc : Nat) (f : FnT) (x : Ops) (op : Nat → Nat) (s s0 s1 : State) (c : Nat) (w : Crew),
    unaryOf i = some (opc, f, x, op) → Issues s c w x →
    s0 = s.opens c w opc x → s0.srcOk c x.sa f.ty.wide = true →
    s1 = s0.afterSrc c x.sa f.ty.wide → s1.outOk c f x f.ty.wide = true →
    exec i s = .next ((s1.out c f x f.ty.wide (extend f.ty (op (s0.srcVals c x.head x.sa f.ty.wide)[0].toNat))
      fun l => BitVec.ofNat 64 (op (s0.srcVals c x.head x.sa f.ty.wide)[l].toNat)).ended c w)

/-- R115 to R117, R121, R122, R125, R44: an instruction with two sources, the second perhaps an immediate. -/
def Obligations.TwoSourceLanes : Prop :=
  ∀ (i : Instr) (opc : Nat) (f : FnT) (x : Ops) (op : Nat → Nat → Nat) (s s0 s1 s2 : State) (c : Nat) (w : Crew) (va vb : Vals),
    binaryOf i = some (opc, f, x, op) → Issues s c w x →
    s0 = s.opens c w opc x → s0.srcOk c x.sa f.ty.wide = true → va = s0.srcVals c x.head x.sa f.ty.wide →
    s1 = s0.afterSrc c x.sa f.ty.wide → s1.bOk c f.ty.wide x = true → vb = s1.bVals c f.ty f.ty.wide x →
    s2 = s1.afterB c f.ty.wide x → s2.outOk c f x f.ty.wide = true →
    exec i s = .next ((s2.out c f x f.ty.wide (extend f.ty (op va[0].toNat vb[0].toNat))
      fun l => BitVec.ofNat 64 (op va[l].toNat vb[l].toNat)).ended c w)

/-- R115, R117, R121, R125: an instruction with three sources reads a, then b, then c. -/
def Obligations.ThreeSourceLanes : Prop :=
  ∀ (i : Instr) (opc : Nat) (f : FnT) (x : Ops) (op : Nat → Nat → Nat → Nat) (s s0 s1 s2 s3 : State) (c : Nat) (w : Crew)
    (va vb vc : Vals),
    ternaryOf i = some (opc, f, x, op) → Issues s c w x →
    s0 = s.opens c w opc x → s0.srcOk c x.sa f.ty.wide = true → va = s0.srcVals c x.head x.sa f.ty.wide →
    s1 = s0.afterSrc c x.sa f.ty.wide → s1.bOk c f.ty.wide x = true → vb = s1.bVals c f.ty f.ty.wide x →
    s2 = s1.afterB c f.ty.wide x → s2.srcOk c x.sc f.ty.wide = true → vc = s2.srcVals c x.head x.sc f.ty.wide →
    s3 = s2.afterSrc c x.sc f.ty.wide → s3.outOk c f x f.ty.wide = true →
    exec i s = .next ((s3.out c f x f.ty.wide (extend f.ty (op va[0].toNat vb[0].toNat vc[0].toNat))
      fun l => BitVec.ofNat 64 (op va[l].toNat vb[l].toNat vc[l].toNat)).ended c w)

/-- R118, R122: ICMP and FCMP deliver a condition of the lanes of the effective mask to a name, a scalar or a mask. -/
def Obligations.Compares : Prop :=
  ∀ (f : FnT) (x : Ops) (s s0 s1 s2 : State) (c : Nat) (w : Crew) (float : Bool) (wide : Bool) (va vb : Vals),
    wide = (!float && f.ty.wide) → Issues s c w x →
    s0 = s.opens c w (if float then 0x46 else 0x2B) x → s0.srcOk c x.sa wide = true → va = s0.srcVals c x.head x.sa wide →
    s1 = s0.afterSrc c x.sa wide → s1.bOk c wide x = true → vb = s1.bVals c f.ty wide x →
    s2 = s1.afterB c wide x → s2.condOk c f x = true →
    exec (if float then .fcmp f x else .icmp f x) s = .next ((s2.condOut c f x fun l =>
      if float then Alu.fcmp f va[l].toNat vb[l].toNat else Alu.icmp f va[l].toNat vb[l].toNat).ended c w)

/-- R119, R120, R124: IADDC reads three single operands, LEA a pair and two single operands; both deliver a pair, or one
value to a scalar. FCLASS delivers 32 bits whatever the type. -/
def Obligations.CarryAddressClass : Prop :=
  (∀ (f : FnT) (x : Ops) (s s0 s1 s2 s3 : State) (c : Nat) (w : Crew) (lea : Bool) (va vb vc : Vals) (r : Fin 32 → DWord),
      Issues s c w x →
      s0 = s.opens c w (if lea then 0x2D else 0x2C) x → s0.srcOk c x.sa lea = true → va = s0.srcVals c x.head x.sa lea →
      s1 = s0.afterSrc c x.sa lea → s1.bOk c false x = true → vb = s1.bVals c (if lea then .n64 else f.ty) false x →
      s2 = s1.afterB c false x → s2.srcOk c x.sc false = true → vc = s2.srcVals c x.head x.sc false →
      s3 = s2.afterSrc c x.sc false → s3.plainOk c x true = true →
      (r = fun l => BitVec.ofNat 64 (if lea then Alu.lea (x.head.len == 2) va[l].toNat vb[l].toNat vc[l].toNat
        else Alu.iaddc va[l].toNat vb[l].toNat vc[l].toNat)) →
      exec (if lea then .lea f x else .iaddc f x) s = .next ((s3.plainOut c x true (r 0) (Vector.ofFn r)).ended c w)) ∧
  (∀ (f : FnT) (x : Ops) (s s0 s1 : State) (c : Nat) (w : Crew) (va : Vals),
      Issues s c w x → s0 = s.opens c w 0x4D x → s0.srcOk c x.sa false = true → va = s0.srcVals c x.head x.sa false →
      s1 = s0.afterSrc c x.sa false → s1.outOk c f x false = true →
      exec (.fclass f x) s = .next ((s1.out c f x false (BitVec.ofNat 64 (Alu.fclass f.ty va[0].toNat))
        fun l => BitVec.ofNat 64 (Alu.fclass f.ty va[l].toNat)).ended c w))

/-- R126 to R128, R76 to R78: CVT and QNT deliver each lane's converted value and note the events of the lanes of the
effective mask under their tensor id. -/
def Obligations.Conversions : Prop :=
  ∀ (f : FnT) (x : Ops) (s s0 s1 : State) (c : Nat) (w : Crew) (qnt wide pair : Bool) (va : Vals) (m : Mask)
    (r : Fin 32 → Nat × Num.Events),
    wide = (!qnt && (Ty.ofCode f.sub).wide) → pair = (!qnt && f.ty.wide) →
    Issues s c w x → s0 = s.opens c w (if qnt then 0x61 else 0x60) x → s0.srcOk c x.sa wide = true →
    va = s0.srcVals c x.head x.sa wide → s1 = s0.afterSrc c x.sa wide →
    s1.mgOk c f x = true → (s1.afterMg c f x).dstOk c x pair = true → m = (s1.afterMg c f x).emaskOf c x.head →
    (r = fun l => if qnt then quantLane f va m l else Alu.cvt (Ty.ofCode f.sub) f.ty f.md va[l].toNat) →
    exec (if qnt then .qnt f x else .cvt f x) s = .next
      ((((s1.afterMg c f x).stored c x pair (s1.mgVals c f x) (Vector.ofFn fun l => BitVec.ofNat 64 (r l).1) m).noted c
        ((s1.scalarOf c x.sb).toNat % 256) (sumEvents m fun l => (r l).2)).ended c w)

/-- R129, R130, R132: DQNT takes its scale from the lowest lane of a block, UNPK its field from a lane of the packed name; a
dead lane reads 0 for another lane and sets DEADSRC. PACK writes its result in every lane that is not dead, whatever the
mask. -/
def Obligations.PackedData : Prop :=
  (∀ (f : FnT) (x : Ops) (s s0 s1 s2 s3 : State) (c : Nat) (w : Crew) (dqnt : Bool) (va : Vals) (m dead : Mask)
      (src : Fin 32 → Fin 32) (r : Fin 32 → DWord),
      src = (if dqnt then scaleLane f else unpkLane f) →
      Issues s c w x → s0 = s.opens c w (if dqnt then 0x62 else 0x64) x → s0.srcOk c x.sa false = true →
      va = s0.srcVals c x.head x.sa false → s1 = s0.afterSrc c x.sa false → (dqnt = true → s1.mgOk c f x = true) →
      s2 = (if dqnt then s1.afterMg c f x else s1) → m = s2.emaskOf c x.head → dead = s2.deadOf c →
      s3 = s2.deadRead c (isVec x.sa && readsDead dead m src) → s3.dstOk c x false = true →
      (r = fun l =>
        let v := (if isVec x.sa then crossVal dead va l (src l) else va[l]).toNat
        let k := v / 2 ^ (fieldWidth f * (l.val % (32 / fieldWidth f))) % 2 ^ fieldWidth f
        BitVec.ofNat 64 (if dqnt then Num.dequant (Num.narrowOf f.ty) (va[l].toNat % 2 ^ f.ty.width) (v / 256 % 256)
          else if f.ty.isSigned then wrapTo 32 (signedOf (fieldWidth f) k) else k)) →
      exec (if dqnt then .dqnt f x else .unpk f x) s = .next
        ((s3.stored c x false (if dqnt then s1.mgVals c f x else none) (Vector.ofFn r) m).ended c w)) ∧
  (∀ (f : FnT) (x : Ops) (s s0 s1 : State) (c : Nat) (w : Crew) (va : Vals),
      Issues s c w x → s0 = s.opens c w 0x63 x → s0.srcOk c x.sa false = true → va = s0.srcVals c x.head x.sa false →
      s1 = s0.afterSrc c x.sa false → s1.dstOk c x false = true →
      exec (.pack f x) s = .next ((s1.stored c x false none
        (Vector.ofFn fun l => BitVec.ofNat 64 (packLane f (s1.emaskOf c x.head) va l)) (~~~ (s1.deadOf c))).ended c w))

/-- R133, R137, R132: SHFL gives each lane the value of the lane that its selector names; the counts of a, then of the
selector, are consumed. LANE.get delivers one lane of a to every lane or to a scalar, LANE.put replaces one lane of c. -/
def Obligations.LaneMoves : Prop :=
  (∀ (f : FnT) (x : Ops) (s s0 s1 s2 s3 : State) (c : Nat) (w : Crew) (va : Vals) (m dead : Mask) (src : Fin 32 → Fin 32),
      Issues s c w x → s0 = s.opens c w 0x70 x → s0.srcOk c x.sa f.ty.wide = true → va = s0.srcVals c x.head x.sa f.ty.wide →
      (src = fun l => shflLane f.sub.toNat l ((s0.selector c x)[l].toNat % 32)) →
      (isVec x.sb = true → x.head.len = 0 → s0.readable c x.sb.toNat = true) →
      s1 = s0.afterSrc c x.sa f.ty.wide → s1.bOk c false x = true → s2 = s1.afterB c false x →
      m = s2.emaskOf c x.head → dead = s2.deadOf c → s3 = s2.deadRead c (isVec x.sa && readsDead dead m src) →
      s3.dstOk c x f.ty.wide = true →
      exec (.shfl f x) s = .next ((s3.stored c x f.ty.wide none
        (Vector.ofFn fun l => if isVec x.sa then crossVal dead va l (src l) else va[l]) m).ended c w)) ∧
  (∀ (f : FnT) (x : Ops) (s s0 s1 s2 : State) (c : Nat) (w : Crew) (va vc : Vals) (v : DWord) (m dead : Mask) (t : Fin 32),
      Issues s c w x → s0 = s.opens c w 0x75 x → t = s0.laneOf c x →
      (f.sub = 0 → s0.srcOk c x.sa f.ty.wide = true → va = s0.srcVals c x.head x.sa f.ty.wide →
        s1 = s0.afterSrc c x.sa f.ty.wide → m = s1.emaskOf c x.head → dead = s1.deadOf c →
        s2 = s1.deadRead c (isVec x.sa && dead[t] && (x.head.uni || m != 0)) → s2.plainOk c x f.ty.wide = true →
        v = (if isVec x.sa && dead[t] then 0#64 else va[t]) →
        exec (.lane f x) s = .next ((s2.plainOut c x f.ty.wide (extend f.ty v.toNat) (Vector.replicate 32 v)).ended c w)) ∧
      (f.sub ≠ 0 → s0.srcOk c x.sc f.ty.wide = true → vc = s0.srcVals c x.head x.sc f.ty.wide →
        s1 = s0.afterSrc c x.sc f.ty.wide → s1.dstOk c x f.ty.wide = true →
        exec (.lane f x) s = .next ((s1.stored c x f.ty.wide none (Vector.ofFn fun (l : Fin 32) =>
          if l = t then s0.scalarOf c x.sa else vc[l]) (s1.emaskOf c x.head)).ended c w)))

/-- R134 to R136: VOTE, LRED, LSCAN and MATCH over the values of the lanes of the effective mask. -/
def Obligations.AcrossLanes : Prop :=
  ∀ (f : FnT) (x : Ops) (s s0 s1 : State) (c : Nat) (w : Crew) (opc : Nat) (va : Vals) (m : Mask),
    Issues s c w x → s0 = s.opens c w opc x → s0.srcOk c x.sa f.ty.wide = true → va = s0.srcVals c x.head x.sa f.ty.wide →
    s1 = s0.afterSrc c x.sa f.ty.wide → m = s1.emaskOf c x.head →
    (opc = 0x71 → s1.oneOk c x = true →
      exec (.vote f x) s = .next ((s1.oneOut c x (voteResult f.sub.toNat m va)).ended c w)) ∧
    (opc = 0x72 → s1.plainOk c x f.ty.wide = true →
      exec (.lred f x) s = .next ((s1.plainOut c x f.ty.wide (extend f.ty (Alu.combine f ((valuesOf m va).map BitVec.toNat)))
        (Vector.replicate 32 (BitVec.ofNat 64 (Alu.combine f ((valuesOf m va).map BitVec.toNat))))).ended c w)) ∧
    (opc = 0x73 → s1.dstOk c x f.ty.wide = true →
      exec (.lscan f x) s = .next ((s1.stored c x f.ty.wide none (Vector.ofFn (scanLane f m va)) m).ended c w)) ∧
    (opc = 0x74 → s1.dstOk c x false = true →
      exec (.matchLanes f x) s = .next ((s1.stored c x false none (Vector.ofFn (matchLane f m va)) m).ended c w))

/-! ## Moves -/

/-- R88: MOV copies its source, MOVI delivers its immediate, SEL reads all three sources and takes a where c is not 0, else b. -/
def Obligations.Moves : Prop :=
  ∀ (x : Ops) (s s0 s1 s2 s3 : State) (c : Nat) (w : Crew) (va vb vc : Vals) (r : Fin 32 → DWord), Issues s c w x →
    (s0 = s.opens c w 0x10 x → s0.srcOk c x.sa false = true → va = s0.srcVals c x.head x.sa false →
      s1 = s0.afterSrc c x.sa false → s1.plainOk c x false = true →
      exec (.mov x) s = .next ((s1.plainOut c x false va[0] va).ended c w)) ∧
    (s0 = s.opens c w 0x11 x → s0.plainOk c x false = true →
      exec (.movi x) s = .next ((s0.plainOut c x false x.ext (Vector.replicate 32 x.ext)).ended c w)) ∧
    (s0 = s.opens c w 0x12 x → s0.srcOk c x.sa false = true → va = s0.srcVals c x.head x.sa false →
      s1 = s0.afterSrc c x.sa false → s1.srcOk c x.sb false = true → vb = s1.srcVals c x.head x.sb false →
      s2 = s1.afterSrc c x.sb false → s2.srcOk c x.sc false = true → vc = s2.srcVals c x.head x.sc false →
      s3 = s2.afterSrc c x.sc false → s3.plainOk c x false = true → (r = fun (l : Fin 32) => if vc[l] ≠ 0 then va[l] else vb[l]) →
      exec (.sel x) s = .next ((s3.plainOut c x false (r 0) (Vector.ofFn r)).ended c w))

/-! ## Control flow -/

/-- R83, R45: BRA goes to its PC plus its signed offset, BRX to its scalar, by the lanes of the effective mask. That BRX takes
bits 51:0 of its scalar is the model's choice (log 19). Where only some lanes take it, an entry is pushed: beyond 32 entries
the oldest in the crew goes to the spill area first (R82). -/
def Obligations.Branches : Prop :=
  ∀ (x : Ops) (s s1 : State) (c : Nat) (w y : Crew) (t : Mask) (p : Addr), Issues s c w x → t = y.arch.emask x.head →
    y.canBranch t p = true → (s.setCrew c y).branchRoom y t = .ok s1 →
    (y = w.begun 0x01 x → p = relTarget w.arch.pc x →
      exec (.bra x) s = .next ((s1.setCrew c (y.branched t p)).ended c w)) ∧
    (y = w.begun 0x02 x → p = targetOf (y.arch.scalar (scalarNo x.sa)) →
      exec (.brx x) s = .next ((s1.setCrew c (y.branched t p)).ended c w))

/-- R85: CALL links the next PC and goes to its target, RET goes to its scalar, LOOP counts down and goes to its target
while the count is not 0. A scalar 63 as counter reads 0 and keeps nothing, so LOOP s63 always goes (R11). That RET takes
bits 51:0 of its scalar is the model's choice (log 19). -/
def Obligations.CallsAndLoops : Prop :=
  ∀ (x : Ops) (s : State) (c : Nat) (w y z : Crew) (v : DWord) (p : Addr), Issues s c w x →
    (y = w.begun 0x05 x → p = relTarget w.arch.pc x → p.toNat % 4 = 0 →
      z = { y with arch := y.arch.setScalar (scalarNo x.dst) (BitVec.ofNat 64 y.arch.pc.toNat) } →
      exec (.call x) s = .next ((s.setCrew c (z.jumped p)).ended c w)) ∧
    (y = w.begun 0x06 x → p = targetOf (y.arch.scalar (scalarNo x.sa)) → p.toNat % 4 = 0 →
      exec (.ret x) s = .next ((s.setCrew c (y.jumped p)).ended c w)) ∧
    (y = w.begun 0x08 x → v = y.arch.scalar (scalarNo x.dst) - 1 → p = relTarget w.arch.pc x → (v ≠ 0 → p.toNat % 4 = 0) →
      z = { y with arch := y.arch.setScalar (scalarNo x.dst) v } →
      exec (.loop x) s = .next ((s.setCrew c (if v ≠ 0 then z.jumped p else z.blockEntry z.arch.pc)).ended c w))

/-- R82, R84, R86, R101: DVG pushes a join entry, once the oldest of 32 entries in the crew is in the spill area, and its
gang is killed where that write fails; CVG pops, EXIT takes lanes out of the crew; PPT keeps the live-tile mask and
notes a hard pre-emption that is pending. -/
def Obligations.Reconvergence : Prop :=
  ∀ (k : BitVec 12) (x : Ops) (s s1 : State) (c : Nat) (w y : Crew), Issues s c w x →
    (y = w.begun 0x03 x → y.arch.stack.length < 1024 → (s.setCrew c y).spillPush y = .error s1 →
      exec (.dvg x) s = .next (s1.gangKill w.gang
        { cause := cMemFault, kind := 0, inst := coreInst (s1.coreOf w), addr := 0, crew := s1.crewId w,
          pc := w.arch.pc.toNat, again := true })) ∧
    (y = w.begun 0x03 x → y.arch.stack.length < 1024 → (s.setCrew c y).spillPush y = .ok s1 →
      exec (.dvg x) s = .next ((s1.setCrew c (Crew.blockEntry
        { y with
          arch := { y.arch with stack := ⟨.join, relTarget w.arch.pc x, y.arch.act⟩ :: y.arch.stack } }
        y.arch.pc)).ended c w)) ∧
    (y = w.begun 0x04 x → exec (.cvg x) s = .next ((s.setCrew c (y.popStack y.arch.stack)).ended c w)) ∧
    (y = w.begun 0x07 x → exec (.exit x) s = .next ((s.setCrew c (y.left (y.arch.emask x.head))).ended c w)) ∧
    (y = w.begun 0x09 x →
      exec (.ppt k x) s = .next ((s.setCrew c
        { y with
          arch := { y.arch with lt := k.extractLsb' 0 8 }
          stopAt := (s.ctx (s.ctxOf y)).pre == 2 }).ended c w))

/-- R87: NOP has no effect beyond the switch marker and the signature fold: nothing but the PC and SIG moves. A predicate
on NOP is legal and changes nothing. -/
def Obligations.NoOperation : Prop :=
  (∀ (neg sw : Bool) (msk : BitVec 3), msk ≠ 0 ∨ neg = false → (Instr.nop ⟨⟨neg, msk, false, sw, 0⟩, 0, 0, 0, 0, 0, 0⟩).WellFormed) ∧
  ∀ (x : Ops) (s : State) (c : Nat) (w : Crew), Issues s c w x →
    ∃ t, exec (.nop x) s = .next t ∧ t = (s.setCrew c (w.begun 0x00 x)).ended c w ∧
      OperandFrame s t c w x (fun _ => false) (fun _ => false)

/-- R105: a SIGCHK whose IMM32 differs from SIG records a mismatch (R322) and takes SIGFAULT with the active lanes, from the
state before it; one that matches folds itself; SIGRST sets SIG and BBMASK and folds nothing. While a handler is active
neither has an effect (R106). -/
def Obligations.SignatureChecks : Prop :=
  ∀ (x : Ops) (s t : State) (c : Nat) (w y : Crew), Issues s c w x → y = w.passed x →
    (y.anyAct = false → y.arch.sig ≠ x.ext.extractLsb' 0 32 →
      t = (s.setCrew c y).record
        { Rec.of (some (s.ctxOf w)) 0x0D 0 (coreInst (s.coreOf w)) with
          crew := s.crewId w
          pc := w.arch.pc.toNat
          addr := w.arch.sig.toNat } →
      exec (.sigchk x) s = .next (t.trapped s c w cSigFault 0 w.arch.act)) ∧
    (y.anyAct = false → y.arch.sig = x.ext.extractLsb' 0 32 →
      exec (.sigchk x) s = .next ((s.setCrew c (y.foldInstr 0xF3 x.head)).ended c w)) ∧
    (y.anyAct = true → exec (.sigchk x) s = .next ((s.setCrew c y).ended c w)) ∧
    exec (.sigrst x) s = .next ((s.setCrew c (if y.anyAct then y
      else { y with arch := { y.arch with sig := x.ext.extractLsb' 0 32, bb := y.arch.act } })).ended c w)

/-- R110: ERET brings back the PC, m7, PRIV and the state of the handler's level, and clears ACT. -/
def Obligations.TrapReturn : Prop :=
  ∀ (x : Ops) (s : State) (c : Nat) (w y : Crew), Issues s c w x → w.acc = [] → y = w.begun 0xF1 x →
    (y.trapSet y.priv.toNat).act = true → (y.trapSet y.priv.toNat).epc.toNat % 4 = 0 →
    exec (.eret x) s = .next ((s.setCrew c y.leave).ended c w) ∧
      y.leave.arch.pc = (y.trapSet y.priv.toNat).epc ∧ y.leave.priv = (y.trapSet y.priv.toNat).prv ∧
      y.leave.arch.mask 7 = (y.trapSet y.priv.toNat).em7 ∧ y.leave.arch.scal = y.arch.scal ∧
      y.leave.arch.act = y.arch.act ∧ y.leave.arch.stack = y.arch.stack ∧ y.leave.arch.names = y.arch.names

/-! ## Names -/

/-- R33, R89, R17, R93: DROP and DROPK give a name or some of its counts back, KEEP adds counts, up to 14. OPEN binds a name
to a free entry that is open, and its scalar takes the entry's window address.

R30, R31, R33: an instruction of layout T whose first source is an unbound name traps NAMEFAULT, a leased one LEASE, a pending
or open one PENDREAD; one whose sources can be read traps NAMELIVE where a name of its destination is bound, and VSEXHAUST
where the crew's need would exceed L(g) (R94). DROP of an unbound name traps NAMEFAULT, of a leased one LEASE. The whole
instruction has no effect (R21). -/
def Obligations.CountsAndOpen : Prop :=
  (∀ (k : BitVec 12) (x : Ops) (s s0 : State) (c n : Nat) (w : Crew) (b : Binding) (e : Entry), Issues s c w x →
      n = x.sa.toNat → s0.named c n = some (b, e) → e.st ≠ .leased →
      (s0 = s.opens c w 0x13 x → exec (.drop x) s = .next ((s0.dropped c n).ended c w)) ∧
      (s0 = s.opens c w 0x14 x → b.count ≠ 15 → k.toNat ≤ b.count →
        exec (.dropk k x) s = .next ((if k.toNat = b.count then s0.dropped c n
          else s0.recount c n { b with count := b.count - k.toNat }).ended c w)) ∧
      (s0 = s.opens c w 0x15 x → (b.count ≠ 15 → b.count + k.toNat ≤ 14) →
        exec (.keep k x) s = .next ((if b.count = 15 then s0
          else s0.recount c n { b with count := b.count + k.toNat }).ended c w))) ∧
  (∀ (x : Ops) (s s0 : State) (c : Nat) (w : Crew), Issues s c w x → s0 = s.opens c w 0x16 x →
      s0.needOk c 1 = true → s0.canBind c x.dst.toNat = true →
      exec (.openName x) s = .next (((s0.bindName c x.dst.toNat x.cnt.toNat .opened).setScalarOf c x.sa
        (BitVec.ofNat 64 (entryPa (s.coreOf w) (s0.nextEntry c)))).ended c w)) ∧
  (∀ (i : Instr) (opc n : Nat) (f : FnT) (x : Ops) (s s0 s1 : State) (c : Nat) (w : Crew) (b : Binding) (e : Entry) (m : Mask),
      laneForm i = some (opc, f, x, n) → Issues s c w x → s0 = s.opens c w opc x →
      m = (w.arch.without w.dead).emask x.head →
      (isVec x.sa = true → s0.named c x.sa.toNat = none → exec i s = .next (s0.trapped s c w cNameFault 0 m)) ∧
      (isVec x.sa = true → s0.named c x.sa.toNat = some (b, e) → e.st = .leased →
        exec i s = .next (s0.trapped s c w cLease 0 m)) ∧
      (isVec x.sa = true → s0.named c x.sa.toNat = some (b, e) → e.st = .pending ∨ e.st = .opened →
        exec i s = .next (s0.trapped s c w cPendRead 0 m)) ∧
      ((s.gang? w.gang).isSome = true → x.head.uni = false → s0.sourcesOk c f x n = true →
        (s0.afterSources c f x n).mgOk c f x = true → s1 = (s0.afterSources c f x n).afterMg c f x →
        (s1.unbound c (dstNames x f.ty.wide) = false → exec i s = .next (s1.trapped s c w cNameLive 0 m)) ∧
        (s1.unbound c (dstNames x f.ty.wide) = true → x.cnt ≠ 0 → s1.needOk c (if f.ty.wide then 2 else 1) = false →
          exec i s = .next (s1.trapped s c w cVsExhaust 0 m)))) ∧
  (∀ (x : Ops) (s s0 : State) (c : Nat) (w : Crew) (b : Binding) (e : Entry) (m : Mask), Issues s c w x →
      s0 = s.opens c w 0x13 x → m = (w.arch.without w.dead).emask x.head →
      (s0.named c x.sa.toNat = none → exec (.drop x) s = .next (s0.trapped s c w cNameFault 0 m)) ∧
      (s0.named c x.sa.toNat = some (b, e) → e.st = .leased → exec (.drop x) s = .next (s0.trapped s c w cLease 0 m)))

/-- R95, R96, R97: CLAIM raises the floor by k, from the cede pool first; CEDE lowers it by k into the cede pool; POOLQ reads
held(c), the floor, the cede pool and avail(c). That an avail below 0 reads as 0 is the model's choice (log 87). -/
def Obligations.Floors : Prop :=
  ∀ (x : Ops) (s s0 : State) (c k : Nat) (w y : Crew) (g : Gang) (vs : Tab Entry), Issues s c w x →
    s.gang? w.gang = some g → vs = (s.core (s.coreOf w)).vs → k = s0.countOf c x →
    (s0 = s.opens c w 0x17 x → y = w.begun 0x17 x → w.acc = [] → s0.countOk c x = true →
      (k ≠ 0 → y.arch.floor + k ≤ g.vslim ∧
        claimDelta y.arch.floor (heldOf vs c) k - (min k g.cede : Nat) ≤ s0.avail y) →
      exec (.claim x) s = .next ((if k = 0 then s0
        else s0.moveFloor c w.gang (y.arch.floor + k) (g.cede - min k g.cede)).ended c w)) ∧
    (s0 = s.opens c w 0x18 x → y = w.begun 0x18 x → w.acc = [] → s0.countOk c x = true → heldOf vs c + k ≤ y.arch.floor →
      exec (.cede x) s = .next ((s0.moveFloor c w.gang (y.arch.floor - k) (g.cede + k)).ended c w)) ∧
    (s0 = s.opens c w 0x19 x → y = w.begun 0x19 x →
      exec (.poolq x) s = .next ((s0.setScalarOf c x.dst (put (heldOf vs c) 48 13 ||| put y.arch.floor 32 13
        ||| put g.cede 16 13 ||| put (s0.avail y).toNat 0 13)).ended c w))

/-! ## System registers -/

/-- R107, R27, R26: CSRR delivers the register, taken before its own fold; register 0 is the lane number, on the scalar
datapath the lowest lane of the effective mask, or 32. -/
def Obligations.ReadRegister : Prop :=
  ∀ (k : BitVec 12) (x : Ops) (s s0 s1 : State) (c : Nat) (w : Crew) (g : Gang) (v : DWord), Issues s c w x →
    csrReadLevel k.toNat ≤ w.priv.toNat → s.gang? w.gang = some g → s0 = s.setCrew c (w.passed x) →
    v = s0.csr (w.passed x) g k.toNat → s1 = s.setCrew c ((w.passed x).foldInstr 0x1A x.head) →
    s1.plainOk c x false = true →
    exec (.csrr k x) s = .next ((s1.plainOut c x false
      (if k = 0 then BitVec.ofNat 64 (match lanesOf (s1.emaskOf c x.head) with
        | [] => 32
        | l :: _ => l.val) else v)
      (if k = 0 then Vector.ofFn fun l => BitVec.ofNat 64 l.val else Vector.replicate 32 v)).ended c w)

/-- R107, R27: CSRW writes its scalar to the register, at the checkpoint. -/
def Obligations.WriteRegister : Prop :=
  ∀ (k : BitVec 12) (x : Ops) (s s0 : State) (c : Nat) (w : Crew) (g : Gang), Issues s c w x →
    csrWriteLevel k.toNat ≤ w.priv.toNat → w.acc = [] → s.gang? w.gang = some g → s0 = s.opens c w 0x1B x →
    exec (.csrw k x) s = .next ((s0.csrWrite c (w.begun 0x1B x) g k.toNat (s0.scalarOf c x.sa)).ended c w)

/-- R108: EVWAIT delivers the event count once it exceeds the count sampled when it first issued; until then it waits. -/
def Obligations.EventWait : Prop :=
  ∀ (k : BitVec 12) (x : Ops) (s : State) (c now : Nat) (w y : Crew) (e : EvSnap), Issues s c w x →
    now = s.eventCount (s.ctxOf w) k.toNat → e = evStart w k.toNat now → y = { w.begun 0xE4 x with evsnap := none } →
    (e.count < now → exec (.evwait k x) s = .next (((s.setCrew c y).setScalarOf c x.dst (BitVec.ofNat 64 now)).ended c w)) ∧
    (¬ e.count < now → exec (.evwait k x) s = .next (s.setCrew c
      { w with
        evsnap := some e
        park := some (.event k.toNat) }))

/-! ## Traps -/

/-- R109: TRAP and BKPT take their trap at the checkpoint, with the lanes of the effective mask; with an empty mask they do
nothing. -/
def Obligations.SoftwareTraps : Prop :=
  ∀ (k : BitVec 12) (x : Ops) (s s0 : State) (c : Nat) (w : Crew) (m : Mask), Issues s c w x → m = s0.emaskOf c x.head →
    (s0 = s.opens c w 0xF0 x →
      (m ≠ 0 → w.acc = [] → exec (.trap k x) s
        = .next (s0.trapped s c w (BitVec.ofNat 8 (0x80 + k.toNat)) 0 m)) ∧
      (m = 0 → exec (.trap k x) s = .next (s0.ended c w))) ∧
    (s0 = s.opens c w 0xF2 x →
      (m ≠ 0 → w.acc = [] → exec (.bkpt x) s = .next (s0.trapped s c w cBkpt 0 m)) ∧
      (m = 0 → exec (.bkpt x) s = .next (s0.ended c w)))

/-- R23, R24, R27: what taking a trap leaves, for a crew that no access is outstanding of: the saved PC, the PC of the
instruction, the cause, the address, the old level and m7 in the trap register set of the level that takes it; the PC at the
vector, that level, and the lanes in m7. -/
def Obligations.TrapEntry : Prop :=
  ∀ (s : State) (c : Nat) (w : Crew) (cause : Cause) (addr l l0 : Nat) (lanes : Mask) (efpc : Addr) (k : Ctx),
    s.crew? c = some w → w.acc = [] → k = s.ctx (s.ctxOf w) → l0 = max (causeTarget cause) w.priv.toNat →
    trapLevel w k (3 - l0) l0 = some l →
    ∃ y, (s.takeTrap c cause addr lanes efpc ⟨w.arch, w.seq⟩).crew? c = some y ∧
      (y.trapSet l).epc = w.arch.pc ∧ (y.trapSet l).efpc = efpc ∧ (y.trapSet l).act = true ∧ (y.trapSet l).prv = w.priv ∧
      (y.trapSet l).code = cause ∧ (y.trapSet l).eaddr = BitVec.ofNat 64 addr ∧ (y.trapSet l).em7 = w.arch.mask 7 ∧
      y.arch.pc = vector (k.evec l) ∧ y.priv = BitVec.ofNat 2 l ∧ y.arch.mask 7 = lanes ∧ y.arch.scal = w.arch.scal ∧
      y.arch.act = w.arch.act &&& ~~~ w.dead ∧ y.park = none

/-- R23, R25, R313: a trap is taken at the first level, from the cause's target level and the crew's own PRIV on, whose
handler is not active and whose vector is not 0: the crew goes to that vector at that level, with the cause in its register
set. Where no such level remains, the gang is killed. -/
def Obligations.TrapLevels : Prop :=
  ∀ (s : State) (c : Nat) (w z : Crew) (cause : Cause) (addr l0 : Nat) (lanes : Mask) (efpc : Addr) (now : Snap) (k : Ctx),
    s.crew? c = some w → k = s.ctx (s.ctxOf w) → l0 = max (causeTarget cause) w.priv.toNat →
    (∀ l, l0 ≤ l → l ≤ 2 → (w.trapSet l).act = false → vector (k.evec l) ≠ 0#52 →
      (∀ j, l0 ≤ j → j < l → (w.trapSet j).act = true ∨ vector (k.evec j) = 0#52) →
      ∃ y, (s.takeTrap c cause addr lanes efpc now).crew? c = some y ∧ y.priv = BitVec.ofNat 2 l ∧
        y.arch.pc = vector (k.evec l) ∧ (y.trapSet l).act = true ∧ (y.trapSet l).code = cause ∧ (y.trapSet l).prv = w.priv ∧
        ∀ j, j ≤ 2 → j ≠ l → y.trapSet j = w.trapSet j) ∧
    ((∀ j, l0 ≤ j → j ≤ 2 → (w.trapSet j).act = true ∨ vector (k.evec j) = 0#52) → (s.rollback c now).crew? c = some z →
      s.takeTrap c cause addr lanes efpc now = (s.rollback c now).gangKill w.gang
        { cause := cause, kind := 0, inst := coreInst ((s.rollback c now).coreOf z),
          addr := if cause = cPoison then addr else 0,
          crew := (s.rollback c now).crewId z, pc := efpc.toNat, again := true })

/-- R26, R55, R56: a CSRR, CSRW, PMAP, TLBINV, KZERO, SCRUB or CTXFREE below its level traps PROT with EADDR 0 and the
active lanes, and reads and writes nothing. -/
def Obligations.Privilege : Prop :=
  ∀ (i : Instr) (x : Ops) (s t : State) (c level : Nat) (w : Crew), Issues s c w x → w.acc = [] →
    privForm s c w i = some (x, level, t) → w.priv.toNat < level →
    exec i s = .next (t.trapped s c w cProt 0 w.arch.act)

/-! ## Matrix and select -/

/-- R142, R143: ACLAIM binds a handle to a free tile and zeroes it, AFREE gives it back. That the lowest free tile is taken is
the model's choice (log 86). -/
def Obligations.Tiles : Prop :=
  ∀ (x : Ops) (s s0 : State) (c h t : Nat) (w : Crew), Issues s c w x → h = x.dst.toNat % 8 →
    (s0 = s.opens c w 0x80 x → Tab.at? w.arch.tiles h = none → 0 < s0.tavail (w.begun 0x80 x) →
      Tab.firstFree (s.core (s.coreOf w)).tiles 8 0 = some t →
      exec (.aclaim x) s = .next ((s0.claimedTile c h t).ended c w)) ∧
    (s0 = s.opens c w 0x81 x → s0.tileOk c h t = true →
      exec (.afree x) s = .next ((s0.freedTile c h t).ended c w))

/-- R146 to R150, R152, R153: an instruction of the matrix array is queued with its tile, lanes and operands once its
checks pass; its effect comes with MATRIX_INSTRUCTION_COMPLETE. An MMA with an empty mask is complete at once. -/
def Obligations.MatrixQueue : Prop :=
  ∀ (k : BitVec 12) (x : Ops) (s s0 : State) (c t a b : Nat) (w : Crew) (m : Mask), Issues s c w x → m = s0.emaskOf c x.head →
    a = s0.offsetOf c x.sa → b = s0.offsetOf c x.sb → s0.queueFree c = true →
    (s0 = s.opens c w 0x82 x → s0.tileOk c (x.dst.toNat % 8) t = true →
      exec (.azero x) s = .next ((s0.queued c w.arch.pc t m .azero).ended c w)) ∧
    (s0 = s.opens c w 0x83 x → w.acc = [] → s0.tileOk c (x.dst.toNat % 8) t = true → s0.mmaOk c a b x.ext = true →
      s0.spadFree c (MatKind.mma a b x.ext).reads false = true →
      exec (.mma x) s = .next ((if m = 0 then s0 else s0.queued c w.arch.pc t m (.mma a b x.ext)).ended c w)) ∧
    (s0 = s.opens c w 0x84 x → s0.tileOk c (x.dst.toNat % 8) t = true → s0.regionOk c a 32768 256 = true →
      s0.spadFree c [(a, 32768)] false = true →
      exec (.ald x) s = .next ((s0.queued c w.arch.pc t m (.ald a)).ended c w)) ∧
    (s0 = s.opens c w 0x85 x → s0.tileOk c (x.sa.toNat % 8) t = true → s0.regionOk c b 32768 256 = true →
      s0.spadFree c [(b, 32768)] true = true →
      exec (.ast x) s = .next ((s0.queued c w.arch.pc t m (.ast b)).ended c w)) ∧
    (s0 = s.opens c w 0x90 x → s0.tileOk c (x.sa.toNat % 8) t = true → s0.regionOk c b (768 * k.toNat) 64 = true →
      s0.spadFree c [(b, 768 * k.toNat)] true = true →
      exec (.selk k x) s = .next ((s0.queued c w.arch.pc t m (.selk b k.toNat)).ended c w))

/-- R152: ASCL reads both of its operands at issue. -/
def Obligations.ScaleTile : Prop :=
  ∀ (x : Ops) (s s0 s1 s2 : State) (c t : Nat) (w : Crew) (va vb : Vals), Issues s c w x → w.acc = [] →
    s0 = s.opens c w 0x88 x → s0.srcOk c x.sa false = true → va = s0.srcVals c x.head x.sa false →
    s1 = s0.afterSrc c x.sa false → s1.srcOk c x.sb false = true → vb = s1.srcVals c x.head x.sb false →
    s2 = s1.afterSrc c x.sb false → s2.tileOk c (x.dst.toNat % 8) t = true → s2.queueFree c = true →
    exec (.ascl x) s = .next ((s2.queued c w.arch.pc t (s2.emaskOf c x.head) (.ascl (lowHalf va) (lowHalf vb))).ended c w)

/-- R151: ARD stores one element of rows 2L and 2L + 1 in lane L, rounded to its type; AWR writes the elements. -/
def Obligations.TileElements : Prop :=
  ∀ (f : FnT) (x : Ops) (s s0 s1 : State) (c t core : Nat) (w : Crew) (m : Mask) (va : Vals) (v : DWord) (pa : Nat → Nat → Nat),
    Issues s c w x → core = s.coreOf w → v = s0.scalarOf c x.sb →
    (s0 = s.opens c w 0x86 x → m = s0.emaskOf c x.head → s0.tileOk c (x.sa.toNat % 8) t = true →
      (pa = fun l k => elemPa core t (selRow v l) (selCol f.ty v + k)) →
      s0.unmarked (((lanesOf m).map fun l => if f.ty == .bf16x2 || f.ty == .f16x2 then [pa l.val 0, pa l.val 1]
        else [pa l.val 0]).flatten) = true → s0.dstOk c x false = true →
      exec (.ard f x) s = .next ((s0.stored c x false none (Vector.ofFn fun i => BitVec.ofNat 64
        (ardValue f (s0.word (pa i.val 0)) (if f.ty == .bf16x2 || f.ty == .f16x2 then s0.word (pa i.val 1) else 0))) m).ended c w)) ∧
    (s0 = s.opens c w 0x87 x → s0.srcOk c x.sa false = true → va = s0.srcVals c x.head x.sa false →
      s1 = s0.afterSrc c x.sa false → m = s1.emaskOf c x.head → s1.tileOk c (x.dst.toNat % 8) t = true →
      exec (.awr f x) s = .next (((lanesOf m).foldl (fun u l =>
        u.writeChip (elemPa core t (selRow v l.val) (selCol f.ty v)) (((awrValues f.ty va[l].toNat).map (bytesLE 4)).flatten))
        s1).ended c w))

/-- R154, R78: ASTAT reads a counter of the gang once the crew's own MMAs are complete. -/
def Obligations.TileCounters : Prop :=
  ∀ (k : BitVec 12) (x : Ops) (s s0 : State) (c : Nat) (w : Crew) (g : Gang) (d : Stat), Issues s c w x →
    s0 = s.opens c w 0x89 x → s.gang? w.gang = some g → s.hasMatrix (s.coreOf w) c = false →
    d = Tab.getD g.stats (k.toNat % 256) ⟨0, 0, 0⟩ →
    exec (.astat k x) s = .next ((s0.setScalarOf c x.dst (BitVec.ofNat 64
      (if k.toNat / 256 = 0 then d.sat else if k.toNat / 256 = 1 then d.flush else d.nan))).ended c w)

/-! ## Memory instructions -/

/-- R160 to R165, R177, R19: LD, ST, LDS, STS, ATOM, CAS, RED and ATOMS at issue: base, data and compare value are read,
the lanes' addresses pass their checks, the destination is bound pending, and an access with these lanes, addresses and data
becomes unperformed, with a free miss slot for each of its lines that the L1 does not serve (R249, R250); with an empty
effective mask there is none. Memory is not written yet. -/
def Obligations.MemoryAccesses : Prop :=
  ∀ (i : Instr) (q : MemForm) (f : FnM) (x : Ops) (s s0 s1 s2 s3 s4 s5 : State) (c : Nat) (w : Crew) (g : Gang) (em m : Mask)
    (y : Crew) (base vb vc : Vals) (addr : Tab Nat) (ns : List Nat) (a a0 : Access),
    accessOf i = some (q, f, x) → Issues s c w x → (accessBound q f = true → w.acc = []) →
    (f.ord = 2 ∨ f.ord = 3 → s.matrixIdle c = true) → s.gang? w.gang = some g → (s.core (s.coreOf w)).trc.en = false →
    s0 = s.opens c w q.opc x → s1 = s0.holding c (s0.emaskOf c x.head != 0) →
    s1.srcOk c x.sa q.glob = true → base = s1.srcVals c x.head x.sa q.glob → s2 = s1.afterSrc c x.sa q.glob →
    (q.kind ≠ .load → s2.srcOk c x.sb f.ty.wide = true) →
    vb = (if q.kind = .load then noVals else s2.srcVals c x.head x.sb f.ty.wide) →
    s3 = (if q.kind = .load then s2 else s2.afterSrc c x.sb f.ty.wide) →
    (q.kind = .rmw 7 → s3.srcOk c x.sc f.ty.wide = true) →
    vc = (if q.kind = .rmw 7 then s3.srcVals c x.head x.sc f.ty.wide else noVals) →
    s4 = (if q.kind = .rmw 7 then s3.afterSrc c x.sc f.ty.wide else s3) →
    em = s4.emaskOf c x.head → m = (if x.head.uni then 1#32 else em) → addr = perLane m (fun l => memAddr q.glob base[l] x) →
    ns = (if q.dst && !x.head.uni then dstNames x f.ty.wide else []) → s4.accessOk c q f m addr = true →
    s4.crew? c = some y →
    s4.canBindAll c ns x.cnt.toNat (if m = 0 then .bound else .pending) = true →
    s5 = s4.bindNames c ns x.cnt.toNat (if m = 0 then .bound else .pending) →
    a0 = { id := s4.nextId, snap := ⟨w.arch, w.seq⟩, pc := w.arch.pc, opc := q.opc, kind := q.kind, ty := f.ty,
           size := Ty.size f.ty, ord := f.ord, scope := f.scope, spad := !q.glob, priv := w.priv, lanes := m, addr := addr,
           datB := perLane m fun l => vb[l].toNat, datC := perLane m fun l => vc[l].toNat,
           place := if q.glob then none
             else some ((lanesOf m).map fun l => (l.val, ⟨spadPa (s.coreOf w) (g.spad + at0 addr l.val), 0⟩)),
           done := 0, value := [], bad := 0, dest := destOf x q.dst f.ty.wide, slots := [], exempt := w.exempt } →
    a = { a0 with slots := if q.glob then s4.missLines y a0 else [] } → s4.slotStall (s.coreOf w) a.slots = none →
    exec i s = .next ((if m = 0 then s5 else (s5.tagNames c s4.nextId ns).withAccess c a (q.dst && x.head.uni)).ended c w)

/-- R161, R21, R23: a memory access of which some lane's address is no multiple of its size takes ALIGN before every other
check of its lanes, with the address of the lowest such lane as EADDR and every such lane in LANES; a scalar form gives the
lanes of its effective mask (log 20). No access becomes unperformed, and the crew goes back to its state before the
instruction. -/
def Obligations.Misaligned : Prop :=
  ∀ (i : Instr) (q : MemForm) (f : FnM) (x : Ops) (s s0 s1 s2 s3 s4 : State) (c : Nat) (w : Crew) (m bad : Mask)
    (base : Vals) (addr : Tab Nat) (l : Fin 32) (ls : List (Fin 32)),
    accessOf i = some (q, f, x) → Issues s c w x → (accessBound q f = true → w.acc = []) →
    (f.ord = 2 ∨ f.ord = 3 → s.matrixIdle c = true) → (s.gang? w.gang).isSome = true →
    (s.core (s.coreOf w)).trc.en = false →
    s0 = s.opens c w q.opc x → s1 = s0.holding c (s0.emaskOf c x.head != 0) →
    s1.srcOk c x.sa q.glob = true → base = s1.srcVals c x.head x.sa q.glob → s2 = s1.afterSrc c x.sa q.glob →
    (q.kind ≠ .load → s2.srcOk c x.sb f.ty.wide = true) → s3 = (if q.kind = .load then s2 else s2.afterSrc c x.sb f.ty.wide) →
    (q.kind = .rmw 7 → s3.srcOk c x.sc f.ty.wide = true) →
    s4 = (if q.kind = .rmw 7 then s3.afterSrc c x.sc f.ty.wide else s3) →
    m = (if x.head.uni then 1#32 else s4.emaskOf c x.head) → addr = perLane m (fun j => memAddr q.glob base[j] x) →
    s4.unbound c (if q.dst && !x.head.uni then dstNames x f.ty.wide else []) = true →
    bad = lanesWith m (fun j => at0 addr j.val % Ty.size f.ty != 0) → lanesOf bad = l :: ls →
    exec i s = .next (s4.trapped s c w cAlign (at0 addr l.val)
      (if x.head.uni then (w.arch.without (s4.deadOf c)).emask x.head else bad))

/-- R166, R249, R184, R185, R176, R156: PREF reads its base and requests lines, and does nothing where the base cannot be read (log 46, the
model's reading of R166); PMAP and TLBINV park until the device has done its part and
then complete, PMAP with its result word; FENCE is complete once the checkpoint has reached it and the crew's matrix instructions
are complete. -/
def Obligations.MemoryControl : Prop :=
  ∀ (f : FnM) (x : Ops) (s s0 s1 : State) (c : Nat) (w y : Crew) (m : Mask) (base : Vals) (v : DWord), Issues s c w x →
    (s0 = s.opens c w 0xA4 x → (s.core (s.coreOf w)).trc.en = false → s0.canRead (w.begun 0xA4 x) x.sa true = true →
      s0.srcOk c x.sa true = true → base = s0.srcVals c x.head x.sa true → s1 = s0.afterSrc c x.sa true →
      m = s1.emaskOf c x.head → s1.crew? c = some y →
      exec (.pref f x) s = .next ((s1.prefetchAll c y (f.sub == 0) f.ty
        (perLane m fun l => memAddr true base[l] x)).ended c w)) ∧
    (s0 = s.opens c w 0xA4 x → (s.core (s.coreOf w)).trc.en = false → s0.canRead (w.begun 0xA4 x) x.sa true = false →
      exec (.pref f x) s = .next (s0.ended c w)) ∧
    (1 ≤ w.priv.toNat → w.waitEvt = none →
      exec (.pmap x) s = .next (s.setCrew c { w with park := some (.pmap ((w.arch.scalar (scalarNo x.sa)).toNat % 2 ^ 52)
        (w.arch.scalar (scalarNo x.sb)).toNat) })) ∧
    (1 ≤ w.priv.toNat → w.waitEvt = some v → s0 = s.opens c w 0xA5 x →
      exec (.pmap x) s = .next (((s0.delivered c).setScalarOf c x.dst v).ended c w)) ∧
    (1 ≤ w.priv.toNat → w.acc = [] → w.waitEvt = none →
      exec (.tlbinv f x) s = .next (s.setCrew c { w with park := some (.tlbinv (if f.sub = 0
        then some ((w.arch.scalar (scalarNo x.sa)).toNat % 2 ^ 52) else none)) })) ∧
    (1 ≤ w.priv.toNat → w.acc = [] → w.waitEvt = some v → s0 = s.opens c w 0xA6 x →
      exec (.tlbinv f x) s = .next ((s0.delivered c).ended c w)) ∧
    (w.acc = [] → s.matrixIdle c = true → s0 = s.opens c w 0xB4 x →
      exec (.fence f x) s = .next ((if f.ord = 1 ∨ f.ord = 3 then s0.acquired c f.scope.toNat else s0).ended c w))

/-! ## Barriers -/

/-- R179 to R182: BAR arrives, and completes if its phase is complete with it, or parks and completes when it is; BARA only
arrives; BARW completes where the phase of the crew's last arrival is complete. -/
def Obligations.Barriers : Prop :=
  ∀ (f : FnM) (x : Ops) (s s0 u : State) (c l n : Nat) (w v : Crew), Issues s c w x → w.acc = [] → l = barLevel f →
    n = barNo f →
    (w.park ≠ some (.barrier l n true) → s.matrixIdle c = true → s.barExists c l = true → s.inPhase c l n = false →
      s.arriveAt c l n = some u → v = { w with barSeen := Tab.put w.barSeen (barKey l n) (s.phase l n w.gang) } →
      u.crew? c = some v →
      exec (.bar f x) s = .next (if u.inPhase c l n then u.setCrew c { v with park := some (.barrier l n true) }
        else ((u.opens c v 0xB5 x).barDone c l n x).ended c v)) ∧
    (w.park = some (.barrier l n true) → s.inPhase c l n = false →
      exec (.bar f x) s = .next (((s.opens c w 0xB5 x).barDone c l n x).ended c w)) ∧
    (s0 = s.opens c w 0xB6 x → s.matrixIdle c = true → s.barExists c l = true → s.inPhase c l n = false →
      s0.arriveAt c l n = some u → v = { w.begun 0xB6 x with barSeen := Tab.put w.barSeen (barKey l n) (s.phase l n w.gang) } →
      u.crew? c = some v → exec (.bara f x) s = .next (u.ended c w)) ∧
    (s0 = s.opens c w 0xB7 x → s.barExists c l = true → s.inPhase c l n = false →
      exec (.barw f x) s = .next ((s0.barDone c l n x).ended c w))

/-! ## Bins -/

/-- R189, R190: SUSP with a descriptor that fits writes the lanes of its effective mask into the lowest free rows, notes the
suspend point and the descriptor, and takes the lanes out of the crew; with an empty mask it is only the block entry at the
suspend point (R104). -/
def Obligations.Suspend : Prop :=
  ∀ (x : Ops) (s s0 s1 : State) (c n : Nat) (w y : Crew) (g : Gang) (b b1 : Bin) (cs : List FrameCol) (m : Mask)
    (fd : Addr) (r : State × Bin),
    Issues s c w x → w.acc = [] → s.matrixIdle c = true → n = x.sa.toNat % 32 → y = w.begun 0xC0 x →
    s0 = s.opens c w 0xC0 x → s.gang? w.gang = some g → Tab.at? g.bins n = some b →
    fd = w.arch.pc + BitVec.ofInt 52 (signedOf 32 x.ext.toNat) →
    s0.readFrame (s0.crewAgent y w.arch.pc) fd.toNat = .ok s1 (some (b.width, cs)) → s1.crew? c = some y →
    s1.gang? w.gang = some g → s1.coreOf y = s.coreOf w → (b.occ = 0 ∧ b.ovcnt = 0 ∨ b.spc = w.arch.pc + 12) →
    s1.frameFits c cs = true → m = s1.emaskOf c x.head → maskCount b.occ + maskCount m ≤ 32 →
    r = State.framed (s.coreOf w) g (s1.core (s.coreOf w)).vs w.arch.names cs (lanesOf m) s1 b →
    b1 = { r.2 with spc := w.arch.pc + 12, fdp := fd } →
    exec (.susp x) s = .next ((if m = 0 then s1.setCrew c (y.blockEntry y.arch.pc)
      else (r.1.withBin w.gang n b1.update).setCrew c (y.left m)).ended c w)

/-- R191 to R193: WAKE makes a bin with frames ready; BINQ reads a header word; RESUME of an empty bin writes 0, otherwise it
makes a crew of the bin's frames and writes that crew's CREWID. -/
def Obligations.BinOperations : Prop :=
  ∀ (k : BitVec 12) (x : Ops) (s s0 t : State) (c n d : Nat) (w z : Crew) (g : Gang) (b : Bin), Issues s c w x →
    n = x.sa.toNat % 32 → s.gang? w.gang = some g → Tab.at? g.bins n = some b →
    (s0 = s.opens c w 0xC1 x → w.acc = [] →
      exec (.wake x) s = .next ((if b.occ = 0 then s0 else s0.withBin w.gang n { b with ready := true }).ended c w)) ∧
    (s0 = s.opens c w 0xC3 x →
      exec (.binq k x) s = .next ((s0.setScalarOf c x.dst (b.header k.toNat)).ended c w)) ∧
    (s0 = s.opens c w 0xC2 x → w.acc = [] → b.occ = 0 →
      exec (.resume x) s = .next ((s0.setScalarOf c x.dst 0).ended c w)) ∧
    (s0 = s.opens c w 0xC2 x → w.acc = [] → b.occ ≠ 0 → s0.resumeBin w.gang n = .done t d → t.crew? d = some z →
      t.live c = true →
      exec (.resume x) s = .next ((t.setScalarOf c x.dst (BitVec.ofNat 64 (t.crewId z))).ended c w))

/-! ## Engines -/

/-- R196 to R203: ECPY, EGATH, ESCAT, ECOLL and FORK whose checks pass take the next number of their timeline, lease what
they name, and write the number to their scalar; EGATH and ESCAT with an empty effective mask are complete at once. That a
FORK's records act on the lanes active at the FORK is the model's reading (log 25, DEDUCED). -/
def Obligations.EngineCommands : Prop :=
  ∀ (f : FnE) (x : Ops) (s s0 s1 s2 u r : State) (c va rows off n cnt : Nat) (w : Crew) (g : Gang) (a b v : DWord)
    (idx data : Vals) (m : Mask) (addr : Tab Nat) (p : EngPlan),
    Issues s c w x → w.acc = [] → s.matrixIdle c = true → s.gang? w.gang = some g →
    a = w.arch.scalar (scalarNo x.sa) → b = w.arch.scalar (scalarNo x.sb) → v = w.arch.scalar (scalarNo x.sc) →
    va = fld x.ext 51 0 → cnt = fld x.ext 63 52 / 256 → n = fld x.ext 59 52 →
    addr = perLane m (fun l => gatherAddr va (b.toNat % 2 ^ 32) idx[l].toNat) →
    (s0 = s.opens c w 0xD0 x → s0.ecpyPlan g c f.ty x.ext a.toNat b.toNat v.toNat = .ok p →
      exec (.ecpy f x) s = .next ((s0.commanded c 0 w.arch.pc x p).ended c w)) ∧
    (s0 = s.opens c w 0xD1 x → s0.srcOk c x.sa false = true → idx = s0.srcVals c x.head x.sa false →
      s1 = s0.afterSrc c x.sa false → m = s1.emaskOf c x.head →
      (cnt ≠ 0 → b.toNat < 2 ^ 32 → addrFault m addr (Ty.size f.ty) = none → s1.canBindAll c [n] cnt .leased = true →
        s2 = (s1.bindName c n cnt .leased).tagName c n s1.nextId →
        u = s2.commanded c 1 w.arch.pc x { what := .egathName f.ty addr n cnt, tile := none, range := [] } →
        r = (if m = 0 then u.completed s1.nextId else u) → r.live c = true → exec (.egath f x) s = .next (r.ended c w)) ∧
      (cnt = 0 → rowForm b.toNat v.toNat = .ok (rows, off) → addrFault m addr 4 = none →
        s1.regionOk c off (32 * rows) 1 = true →
        u = s1.commanded c 1 w.arch.pc x { what := .egathRow addr rows off, tile := none, range := [(off, 32 * rows)] } →
        r = (if m = 0 then u.completed s1.nextId else u) → r.live c = true → exec (.egath f x) s = .next (r.ended c w))) ∧
    (s0 = s.opens c w 0xD2 x → s0.srcOk c x.sa false = true → idx = s0.srcVals c x.head x.sa false →
      s1 = s0.afterSrc c x.sa false →
      (isVec x.sc = true → s1.srcOk c x.sc false = true → data = s1.srcVals c x.head x.sc false →
        s2 = s1.afterSrc c x.sc false → m = s2.emaskOf c x.head → b.toNat < 2 ^ 32 →
        addrFault m addr (Ty.size f.ty) = none →
        u = s2.commanded c 1 w.arch.pc x { what := .escatName f.ty addr (lowHalf data), tile := none, range := [] } →
        r = (if m = 0 then u.completed s2.nextId else u) → r.live c = true → exec (.escat f x) s = .next (r.ended c w)) ∧
      (isVec x.sc = false → m = s1.emaskOf c x.head → rowForm b.toNat v.toNat = .ok (rows, off) →
        addrFault m addr 4 = none → s1.regionOk c off (32 * rows) 1 = true →
        u = s1.commanded c 1 w.arch.pc x { what := .escatRow addr rows off, tile := none, range := [(off, 32 * rows)] } →
        r = (if m = 0 then u.completed s1.nextId else u) → r.live c = true → exec (.escat f x) s = .next (r.ended c w))) ∧
    (s0 = s.opens c w 0xD3 x → ecollPlan f.sub.toNat f.op.toNat f.ty x.ext a.toNat b.toNat v.toNat = .ok p →
      exec (.ecoll f x) s = .next ((s0.commanded c 2 w.arch.pc x p).ended c w)) ∧
    (s0 = s.opens c w 0xD4 x → 1 ≤ b.toNat → b.toNat ≤ 65536 → a.toNat % 64 = 0 → a.toNat < 2 ^ 52 →
      exec (.fork f x) s = .next ((s0.commanded c f.sub.toNat w.arch.pc x
        { what := .fork a.toNat b.toNat 0 w.arch.act, tile := none, range := [] }).ended c w))

/-- R204: TLWAIT and RDV complete, as an acquire at `.sys` scope, once the timelines have passed their numbers; TLQ reads
DONE, with bit 63 for a failure that is not reported. -/
def Obligations.Timelines : Prop :=
  ∀ (f : FnE) (x : Ops) (s s0 : State) (c : Nat) (w : Crew) (g : Gang) (t : Timeline), Issues s c w x →
    (s0 = s.opens c w 0xD6 x → s0.waitsMet c [(f.sub.toNat, (w.arch.scalar (scalarNo x.sa)).toNat)] = true →
      exec (.tlwait f x) s = .next ((s0.acquired c 4).ended c w)) ∧
    (s0 = s.opens c w 0xD5 x → w.acc = [] → f.sub = 0 → s0.waitsMet c [(0, (w.arch.scalar (scalarNo x.sa)).toNat),
        (1, (w.arch.scalar (scalarNo x.sb)).toNat), (2, (w.arch.scalar (scalarNo x.sc)).toNat)] = true →
      exec (.rdv f x) s = .next ((s0.acquired c 4).ended c w)) ∧
    (s0 = s.opens c w 0xD7 x → s.gang? w.gang = some g → t = g.timeline f.sub.toNat →
      exec (.tlq f x) s = .next ((s0.setScalarOf c x.dst
        (put (b2n (t.fails.any fun u => decide (u.n ≤ t.done))) 63 1 ||| put t.done 0 63)).ended c w))

/-! ## Queues and child grids -/

/-- R207, R208: a DEQ whose turn comes at once, or whose item has been delivered while it waited, acquires and writes the item;
ENQ adds its item and writes 0, or writes 1 where the queue is full. -/
def Obligations.WorkQueues : Prop :=
  ∀ (x : Ops) (s s0 s1 s2 t u : State) (c : Nat) (w y z : Crew) (h : Header) (a v : DWord) (added : Bool), Issues s c w x →
    w.acc = [] → a = w.arch.scalar (scalarNo x.sa) →
    (w.waitEvt = some v → s0 = s.opens c w 0xE0 x →
      exec (.deq x) s = .next ((((s0.delivered c).acquired c 3).setScalarOf c x.dst v).ended c w)) ∧
    (w.waitEvt = none → s.queueHead w a.toNat = .ok t h → s1 = joinLine ⟨c, a.toNat, h.place.pa, h.place.key, w.arch.emask x.head⟩ t →
      u = serveLine (s1.waits.length + 1) h.place.pa s1 → Issues u c z x → z.acc = [] → z.waitEvt = some v →
      s0 = u.opens c z 0xE0 x →
      exec (.deq x) s = .next ((((s0.delivered c).acquired c 3).setScalarOf c x.dst v).ended c z)) ∧
    (s.matrixIdle c = true → s0 = s.opens c w 0xE1 x → y = w.begun 0xE1 x → s0.queueHead y a.toNat = .ok s1 h →
      s1.addItem y a.toNat (w.arch.scalar (scalarNo x.sb)) = .ok s2 (some added) →
      u = (if added then serveLine (s2.waits.length + 1) h.place.pa s2 else s2) → u.live c = true →
      exec (.enq x) s = .next ((u.setScalarOf c x.dst (if added then 0 else 1)).ended c w))

/-- R209, R210: LAUNCH places a child and writes its handle, or writes a STATUS that is not 0; LJOIN completes with the result
of a completed child, with STATUS 2 where there is none, and parks while the child runs. That a child may ask for at most its
parent grid's level is the model's reading (log 53, DEDUCED); so is which STATUS is given where both conditions hold: a free
value (log 11). -/
def Obligations.ChildGrids : Prop :=
  ∀ (x : Ops) (s s0 t u : State) (c i : Nat) (w y : Crew) (g : Gang) (l : Grid) (a v : DWord) (r tab : List Byte) (p : PoolSlot),
    Issues s c w x → w.acc = [] → s.gang? w.gang = some g → a = w.arch.scalar (scalarNo x.sa) →
    (s0 = s.opens c w 0xE2 x → y = w.begun 0xE2 x → s.matrixIdle c = true → a.toNat % 64 = 0 → a.toNat < 2 ^ 52 →
      s0.readVa (s0.crewAgent y w.arch.pc) .read a.toNat 256 = .ok t r → t.grid? g.grid = some l → t.live c = true →
      (t.freePoolSlot = some i → t.checkRecord g.ctx l.priv.toNat r = some tab →
        u = t.childPlaced g.grid i (t.newGrid g.ctx r tab l.priv (some g.grid) (some i) none 0) → u.live c = true →
        exec (.launch x) s = .next ((u.setScalarOf c x.dst
          (put (Tab.getD t.pool i PoolSlot.reset).gen.toNat 12 32 ||| put i 0 12)).ended c w)) ∧
      (t.freePoolSlot = none ∨ t.checkRecord g.ctx l.priv.toNat r = none → u = { t with tick := t.tick + 1 } →
        exec (.launch x) s = .next ((u.setScalarOf c x.dst (put (launchStatus t.freePoolSlot.isNone
          (t.checkRecord g.ctx l.priv.toNat r).isNone (Config.freePick t.tick)) 62 2)).ended c w))) ∧
    (w.waitEvt = some v → s0 = s.opens c w 0xE3 x →
      exec (.ljoin x) s = .next ((((s0.delivered c).acquired c 3).setScalarOf c x.dst v).ended c w)) ∧
    (w.waitEvt = none → s.childSlot g.grid a = none → s0 = s.opens c w 0xE3 x →
      exec (.ljoin x) s = .next (((s0.acquired c 3).setScalarOf c x.dst (joinWord 2 0)).ended c w)) ∧
    (w.waitEvt = none → s.childSlot g.grid a = some p → p.done = true → s0 = (s.freePoolAt (fld a 11 0)).opens c w 0xE3 x →
      exec (.ljoin x) s = .next (((s0.acquired c 3).setScalarOf c x.dst (joinWord p.status p.cause.toNat)).ended c w)) ∧
    (w.waitEvt = none → s.childSlot g.grid a = some p → p.done = false →
      u = { s with pool := Tab.put s.pool (fld a 11 0) { p with joined := true } } →
      exec (.ljoin x) s = .next ((u.setCrew c { w with park := some (.join (fld a 43 0)) }).trySwapOut w.gang))

/-! ## Steward instructions -/

/-- R212 to R214, R363: KZERO marks or zeroises its slot, SCRUB writes 1, 2 or 0 and starts a scrub with 0, CTXFREE writes the
first result whose condition holds, traps SCRUBERR after a failed scrub, and releases the context with 0. Which slots count as
zeroised at once is the model's reading (log 56, DEDUCED); a list that cannot be read gives 2 by its choice (log 84). -/
def Obligations.StewardInstructions : Prop :=
  ∀ (x : Ops) (s s0 : State) (c k n : Nat) (w : Crew) (a : DWord) (l : List (Nat × Nat)) (v : DWord), Issues s c w x →
    w.acc = [] → w.priv = 2 → a = w.arch.scalar (scalarNo x.sa) → k = a.toNat % 128 → n = a.toNat % 65536 →
    (s0 = s.opens c w 0xF5 x →
      (w.waitEvt = none → s.zeroDone k = true → exec (.kzero x) s = .next ((s0.markZeroised k).ended c w)) ∧
      (w.waitEvt = none → s.zeroDone k = false →
        exec (.kzero x) s = .next ((s.beginZero k).setCrew c { w with park := some (.kzero k) })) ∧
      (w.waitEvt = some v → exec (.kzero x) s = .next ((s0.delivered c).ended c w))) ∧
    (s0 = s.opens c w 0xF6 x →
      (s.sec.scrub.state = 1 → exec (.scrub x) s = .next ((s0.setScalarOf c x.dst 1).ended c w)) ∧
      (s.sec.scrub.state ≠ 1 → s0.rangeList a.toNat (w.arch.scalar (scalarNo x.sb)).toNat = none →
        exec (.scrub x) s = .next ((s0.setScalarOf c x.dst 2).ended c w)) ∧
      (s.sec.scrub.state ≠ 1 → s0.rangeList a.toNat (w.arch.scalar (scalarNo x.sb)).toNat = some l →
        exec (.scrub x) s = .next (((s0.startScrub l).setScalarOf c x.dst 0).ended c w))) ∧
    (s0 = s.opens c w 0xF7 x →
      ((s.ctx n).prot = false → exec (.ctxfree x) s = .next ((s0.setScalarOf c x.dst 4).ended c w)) ∧
      ((s.ctx n).prot = true → s0.ctxBusy n = true → exec (.ctxfree x) s = .next ((s0.setScalarOf c x.dst 3).ended c w)) ∧
      ((s.ctx n).prot = true → s0.ctxBusy n = false → (s.ctx n).zeroised = false →
        exec (.ctxfree x) s = .next ((s0.setScalarOf c x.dst 2).ended c w)) ∧
      ((s.ctx n).prot = true → s0.ctxBusy n = false → (s.ctx n).zeroised = true →
        (s.sec.scrub.state = 2 → exec (.ctxfree x) s = .next (s0.trapped s c w cScrubErr
          ((s.sec.scrub.list.drop s.sec.scrub.idx.toNat).head?.elim 0 Prod.fst) ((w.arch.without w.dead).emask x.head))) ∧
        (s.sec.scrub.state ≠ 2 → s.sec.scrub.prog.toNat < s.sec.scrub.total.toNat →
          exec (.ctxfree x) s = .next ((s0.setScalarOf c x.dst 1).ended c w)) ∧
        (s.sec.scrub.state ≠ 2 → s.sec.scrub.total.toNat ≤ s.sec.scrub.prog.toNat →
          exec (.ctxfree x) s = .next ((((s0.freeCtx n).acquired c 4).setScalarOf c x.dst 0).ended c w))))

/-! ## Happenings -/

/-- R161, R163, R164, R177, R245, R246, R392: an access is translated, its lanes are performed in memory, on the scratchpad
or through windows, and its data arrives. -/
def Obligations.AccessHappenings : Prop :=
  ∀ (s t : State) (c a : Nat) (y : Crew) (b : Access) (lanes m : Mask) (q : List (Nat × Xlat) × State)
    (ps : List (Nat × Place)) (d : Arrival),
    (s.access? c a = some (y, b) → b.place = none → q = xlatLanes y b (lanesOf b.lanes) (s.walkCanaries y b) →
      q.1 = ps.map (fun p => (p.1, Xlat.ok p.2)) → lanesWith b.lanes (s.ownLease c y b) = 0 →
      exec (.translationWalkComplete c a) s = .next (q.2.modCrew c fun z => z.setAccess { b with place := some ps })) ∧
    (s.access? c a = some (y, b) → s.mayPerform c y b lanes = true → b.together lanes = true →
      ((lanesOf lanes).all fun l => !b.windowLane l.val) = true →
      s.syncLanes b lanes = none →
      performLanes (laneIn (s.coreOf y) (s.accessReader y b)) c (lanesOf lanes) b
        ((s.canaries y b lanes).linkRecords (s.accessWho y b) (s.lostLines b lanes)) = .ok t →
      exec (.memoryAccessPerformed c a lanes) s = .next (t.performed (s.coreOf y) b c)) ∧
    (s.access? c a = some (y, b) → m = windowLanes b false → lanes &&& ~~~ m = 0 → s.mayPerform c y b lanes = true →
      firstFault (s.recheck y b (lanesOf m)) = none →
      performLanes (windowOne y) c (lanesOf lanes) b (s.canaries y b lanes) = .ok t →
      exec (.windowRead c (a, lanes)) s = .next (t.performed (s.coreOf y) b c)) ∧
    (s.access? c a = some (y, b) → m = windowLanes b true → lanes &&& ~~~ m = 0 → s.mayPerform c y b lanes = true →
      firstFault (s.recheck y b (lanesOf m)) = none →
      performLanes (entryOne y) c ((lanesOf lanes).filter (fun l => s.filledLane b l.val)
        ++ (lanesOf lanes).filter fun l => !s.filledLane b l.val) b (s.canaries y b lanes) = .ok t →
      exec (.windowWrite c (a, lanes)) s = .next (t.performed (s.coreOf y) b c)) ∧
    (s.access? c a = some (y, b) → m = b.lanesIn Region.outside → m ≠ 0 → s.mayPerform c y b m = true →
      performLanes lostLane c (lanesOf m) b (s.linkRecords (s.accessWho y b) (b.newLines m fun _ => true)) = .ok t →
      exec (.requestTimeout c a) s = .next (t.performed (s.coreOf y) b c)) ∧
    (Tab.at? s.arrive a = some d → t = { s with arrive := Tab.del s.arrive a } →
      exec (.loadDataArrival a) s = .next (match d.dest with
        | .none => t
        | .scalar r => State.respill (t.modCrew d.crew fun z =>
            { z.heal (.scalar r) with
              arch := z.arch.setScalar r (extend d.ty (at0 d.value 0))
              park := if z.park = some (.scalar a) then none else z.park }) d.crew
        | .name _ _ => State.respill
            { t with
              cores := Tab.mapV t.cores fun _ k => { k with vs := landTab s a d k.vs }
              crews := Tab.mapV t.crews fun _ z => { z with image := landTab s a d z.image } } d.crew))

/-- R23, R86, R98 to R100, R192, R329: traps of other agents, retirement, eviction and restore of crews, automatic resumes,
the binding of a resumed crew's names, STOP notices. -/
def Obligations.CrewHappenings : Prop :=
  ∀ (s t u : State) (c d core sl g bin ctx : Nat) (w : Crew) (y : Gang) (cause : BitVec 8) (addr : DWord) (lanes : Mask)
    (b : List Byte) (old : Bool),
    (s.crew? c = some w → causeRaised cause = true →
      exec (.takeTrap c cause addr lanes) s = .next (s.takeTrap c cause addr.toNat lanes w.arch.pc ⟨w.arch, w.seq⟩)) ∧
    (s.crew? c = some w → w.home = .slot core sl → w.empty = true → w.acc = [] → s.hasMatrix core c = false → w.frame = [] →
      exec (.crewRetire c) s = .next (s.retired c core sl w)) ∧
    (s.victim core = some c → s.crew? c = some w → s.hasMatrix core c = false →
      (s.liftCrew c (fun _ => true) (.evicted core)).spillCrew c = .ok t →
      exec (.crewEvict core) s = .next (t.trySwapOut w.gang)) ∧
    (s.crew? c = some w → core = s.coreOf w → s.restorable core c w = true → sl < 64 →
      Tab.at? (s.core core).slots sl = none → s.crewIntact w = true →
      s.landCrew c core sl = some t →
      exec (.crewRestore c sl) s = .next (t.modCrew c fun z => { z with stamp := [] })) ∧
    (s.autoBin g bin = true → s.resumeBin g bin = .done t d → exec (.automaticResume g bin) s = .next t) ∧
    (s.crew? c = some w → w.frame ≠ [] → w.resident = true → s.gang? w.gang = some y → w.frame.length ≤ y.vslim →
      (w.want = none ∨ s.yieldsSpace (s.coreOf w) c w = false) → bindAll c w.frame s = .ok () t →
      exec (.resumedCrewBind c) s = .next (t.modCrew c fun z => { z with frame := [], park := none, seq := z.seq + 1 })) ∧
    (s.crew? c = some w → ctx = s.ctxOf w → w.notice = some old → w.park = some .debug → w.resident = true →
      (s.ctx ctx).mbox ≠ 0 → (s.ctx ctx).prot = false → s.readSys false ctx ((s.ctx ctx).mbox + 0x600) 8 = .ok b →
      ofBytesLE b = (s.ctx ctx).mbNtc.toNat →
      s.mbWrite ctx 0x400 (mbHeader ((s.ctx ctx).mbNtc + 1).toNat 64 0 0x81 (s.crewId w))
        (stopBody w (if old then 0 else w.setS.code.toNat)) = some u →
      exec (.stopNotice c) s = .next ((u.modCtx ctx fun k => { k with mbNtc := k.mbNtc + 1 }).modCrew c fun z =>
        { z with notice := none }))

/-- R195, R210, R272 to R281, R288, R313, R314: gangs retire, are killed, placed, placed again and swapped in; launches are
admitted or rejected, and grids end. -/
def Obligations.GangHappenings : Prop :=
  ∀ (s t u : State) (g l gid core a n : Nat) (slots : List (Nat × Nat)) (y : Gang) (z h : Grid) (cause : BitVec 8)
    (addr : DWord) (cores : List Nat),
    (s.gang? g = some y → y.home = .core → s.crewsOf g = [] → y.resumable = false →
      (s.cmds.any fun p => p.2.gang == g && !p.2.isOver) = false → t = (s.modGrid y.grid fun k => k.noteRetired y) →
      exec (.gangRetire g) s = .next ({ t with gangs := Tab.del t.gangs g }.drained y.ctx)) ∧
    (s.gang? g = some y → y.alive = true →
      exec (.gangKill g cause addr) s = .next (s.gangKill g (plainWhy y.core cause addr.toNat))) ∧
    (s.gang? g = some y → y.home = .swapped → y.back = some n → (s.ctx y.ctx).pre.toNat < 2 →
      s.olderRestore n [y.core] = false →
      ((s.owesBstack y.ctx y.core = true → s.gangsOn y.core = []) → (s.gangRoom g).isSome = true →
        (if s.owesBstack y.ctx y.core then s.loadBstack y.ctx y.core (· == .swapped) else s).landGang g = some t →
        t.replayLog y.ctx = .ok u →
        exec (.gangSwapIn g) s = .next ((u.tryBarriers g).noteRun y.ctx)) ∧
      (s.gangRoom g = none → exec (.gangSwapIn g) s = .next (s.holdSlots g))) ∧
    (s.grid? l = some z → z.nextUnit ≠ [] → z.nextUnit.length = cores.length → z.groupsOk (z.nextUnit.zip cores) = true →
      s.mayPlace l z = true → placeAll l z (z.nextUnit.zip cores) s.grantAtPlacement = some t →
      exec (.gangPlace l cores) s = .next (t.placed l (z.next + z.nextUnit.length))) ∧
    (s.grid? l = some z → z.due.contains gid = true → s.sec.boot = 3 → (s.ctx z.ctx).pre = 0 → s.killRuns l gid = false →
      s.relaunchCore l z gid core = true → h = { z with due := z.due.erase gid, again := z.again + 1 } →
      placeAll l h [(gid, core)] (s.setGrid l h).grantAtPlacement = some t →
      exec (.gangRelaunch l gid core) s = .next (t.placed l z.next)) ∧
    (s.grid? l = some z → s.sec.boot = 3 → s.arb.table.isSome = true → s.mayReserve l z slots = true →
      (z.admitted = true → z.next < recGangs z.record ∨ z.due ≠ [] →
        exec (.launchAdmit (l, slots)) s = .next (s.bindSlots z slots)) ∧
      (z.admitted = false → s.settled z = true → s.poolBefore l z = false →
        (s.grids.any fun p => s.settled p.2 && goesBefore p.1 p.2 l z) = false →
        (s.deps z = .met → exec (.launchAdmit (l, slots)) s
          = .next (((s.setGrid l { z with state := .admitted }).bindSlots z slots).evaluate 1 false)) ∧
        (s.deps z = .bad cause a → exec (.launchAdmit (l, slots)) s = .next (((s.noteSys z.ctx .read a 8).writeCompl z 3
          cause.toNat true).dropGrid l z 1 cause.toNat)))) ∧
    (s.grid? l = some z → s.gridOver l z = true →
      exec (.gridEnd l) s = .next (((((s.writeStats z).writeCompl z z.status z.cause.toNat false).dropGrid l z
        (if z.status = 0 then 0 else 1) z.cause.toNat).evaluate 2 false)))

/-- R149, R184, R185, R196 to R206, R212, R213: the matrix array, the engines, the translation unit, the security block and the
scrub engine complete what was begun. A scrub piece of 64 bytes is R213's; that a failed piece's record names the range (log 58),
how a collective's members meet (log 83) and the free cause of one that disagrees (log 11) are the model's. -/
def Obligations.EngineHappenings : Prop :=
  ∀ (s t u z : State) (core k c va attr : Nat) (o : MatOp) (rest : List MatOp) (g : Gang) (d : Stat) (m : Cmd) (v : Lanes)
    (p : EngPlan) (w : Crew) (page : Option Nat) (slot : BitVec 7) (ms : List Member) (q : Member) (ks : List Nat) (fails : Bool)
    (loc rem : List (Nat × List Byte)) (ins : List (List Byte)) (i b n e a f r mk : Nat) (cause : Cause),
    ((s.core core).mats = o :: rest → t = s.modCore core (fun x => { x with mats := rest }) → t.gang? o.gang = some g →
      g.alive = true → s.matrixHeld core (spadPa core g.spad) o = false →
      (((matTouched o).foldl (fun x j => x.canaryHit (some g.ctx) j (coreInst core) 0 none) t).matRun core
        (spadPa core g.spad) o = .ok (u, d)) →
      exec (.matrixInstructionComplete core) s = .next ((match o.kind with
        | .mma _ _ _ => u.modGang o.gang fun x => x.count o.kind.tid d
        | _ => u).trySwapOut o.gang)) ∧
    (Tab.at? s.cmds k = some m → m.isOver = false → s.runRest m m.what = .ok t v →
      exec (.engineCommandComplete k) s = .next (t.finishCmd k m none v)) ∧
    (Tab.at? s.cmds k = some m → m.isOver = false → s.runRest m m.what = .fail t cause a f →
      exec (.engineCommandComplete k) s = .next (t.finishCmd k m (some (.of cause a f)) zeroLanes)) ∧
    (Tab.at? s.cmds k = some m → m.isOver = false → m.what = .fork a f r (BitVec.ofNat 32 mk) →
      s.reached m = .plan t p → t.runRest { m with tile := p.tile } p.what = .ok u v →
      exec (.engineRecordComplete k) s = .next (u.nextRecord k m)) ∧
    (s.meet ks = some (t, q :: ms, []) → t.allHere (q :: ms) = true →
      ((q :: ms).all fun x => x.group.tag == q.group.tag && !t.collBefore x) = true → t.cutOff (q :: ms) = false →
      (fails = true ∨ ((q :: ms).all fun x => x.group.ok && agree q x) = false →
        exec (.collectiveMatch ks rem fails) s = .next (t.someCause.2.failAll (q :: ms) ⟨t.someCause.1, 0, none⟩)) ∧
      (fails = false → ((q :: ms).all fun x => x.group.ok && agree q x) = true →
        (rem.all fun r => !t.ownRank (q.group.ranks.getD r.1 0)
          && r.2.length == (q.coll.input ((q :: ms).map fun x => x.coll.root) q.group.nrank r.1).2) = true →
        readInputs ((q :: ms).map fun x => x.coll.root) (q :: ms) t = some (.ok (u, loc)) →
        byRank q.group.nrank (loc ++ rem) = some ins → writeOutputs ins (q :: ms) u = some z →
        exec (.collectiveMatch ks rem fails) s = .next z)) ∧
    (s.meet ks = some (t, q :: ms, []) → t.allHere (q :: ms) = true →
      ((q :: ms).all fun x => x.group.tag == q.group.tag && !t.collBefore x) = true → t.cutOff (q :: ms) = true →
      exec (.collectiveMatch ks rem fails) s = .next (t.failAll (q :: ms) ⟨cPoison, 0, none⟩)) ∧
    (s.crew? c = some w → w.park = some (.pmap va attr) → w.waitEvt = none →
      (8 ≤ attr → exec (.pmapComplete c) s = .next (s.answer c (pmapWord 3 0))) ∧
      (attr < 8 → s.mapPage (s.ctxOf w) (dieOf (s.coreOf w)) va attr = .mapped t f →
        exec (.pmapComplete c) s = .next (t.answer c (pmapWord 0 f))) ∧
      (attr < 8 → s.mapPage (s.ctxOf w) (dieOf (s.coreOf w)) va attr = .present f →
        exec (.pmapComplete c) s = .next (s.answer c (pmapWord 1 f))) ∧
      (attr < 8 → s.mapPage (s.ctxOf w) (dieOf (s.coreOf w)) va attr = .empty →
        exec (.pmapComplete c) s = .next (s.answer c (pmapWord 2 0)))) ∧
    (s.crew? c = some w → w.park = some (.tlbinv page) → w.waitEvt = none →
      s.xlatInUse (s.ctxOf w) (s.purged (s.ctxOf w) page) = false →
      exec (.tlbinvComplete c) s = .next ((s.purgeTlb (purges (s.ctxOf w) page)).answer c 0)) ∧
    (s.sec.zeroing.contains slot.toNat = true → t = (s.zeroSlot slot.toNat).tidySlot slot.toNat →
      u = { t with
        sec := { t.sec with
          zeroing := t.sec.zeroing.filter (· != slot.toNat)
          kcStat := if t.sec.kcStat = 1 ∧ t.sec.kcZero = slot then 0 else t.sec.kcStat } } →
      exec (.kzeroComplete slot) s = .next { u with
        crews := Tab.mapV u.crews fun _ x => if x.park = some (.kzero slot.toNat) then { x with waitEvt := some 0 } else x }) ∧
    (s.sec.scrub.state = 1 → scrubPlace s.sec.scrub.list 0 s.sec.scrub.prog.toNat = some (i, b, n, e) →
      (t = { s with sec := { s.sec with scrub := { s.sec.scrub with state := 2, idx := BitVec.ofNat 12 i } } } →
        exec (.scrubPieceComplete true) s = .next (t.record
          { Rec.of none 0x0B (pieceUnit (b + e)).1 (pieceUnit (b + e)).2 with addr := b })) ∧
      (a = s.sec.scrub.prog.toNat + 64 → t = s.zeroPiece b (b + e) →
        exec (.scrubPieceComplete false) s = .next ({ t with
          sec := { t.sec with
            scrub := { s.sec.scrub with
              prog := BitVec.ofNat 64 a
              idx := BitVec.ofNat 12 ((scrubPlace s.sec.scrub.list 0 a).elim i Prod.fst)
              state := if a = s.sec.scrub.total.toNat then 0 else 1 } } }.freeReleasing)))

/-- R263 to R269, R391: packets start or halt their queue, rounds of the hoist core, WAITs that end or fail, the doorbell and
the halt bit. That a SIGNAL is performed at its start, and that a head packet halts its queue when R266 would let it start, are
the model's readings (logs 62 and 32, DEDUCED). -/
def Obligations.QueueHappenings : Prop :=
  ∀ (s t : State) (q u opc code va : Nat) (bs : List Byte) (v : DWord) (p : Packet) (o : Option Nat) (e : Cause)
    (hs : List (Nat × HeadRes)),
    (s.headOf q = .ready opc bs →
      (opc = 0 → exec (.packetNop q) s = .next (s.started q 1 none)) ∧
      (opc = 1 → exec (.packetLaunch q) s = .next (s.startLaunch q bs)) ∧
      (opc = 2 → p = { unit := (s.queue q).head.toNat, opc := 2, addr := recField bs 8 63 0, val := recField bs 16 63 0,
                       grid := none, halt := false } →
        ((s.started q 1 (some p)).writeSys false (s.queue q).ctx p.addr (bytesLE 8 p.val) = .ok t →
          exec (.packetSignal q) s = .next (t.modQueue q fun w => { w with open_ := w.open_.filter fun r => r.unit != p.unit })) ∧
        ((s.started q 1 (some p)).writeSys false (s.queue q).ctx p.addr (bytesLE 8 p.val) = .error e →
          exec (.packetSignal q) s = .next ((s.started q 1 (some p)).haltAt q p.unit .write p.addr))) ∧
      (opc = 3 → exec (.packetWait q) s = .next (s.started q 1 (some
        { unit := (s.queue q).head.toNat, opc := 3, addr := recField bs 8 63 0, val := recField bs 16 63 0, grid := none,
          halt := false }))) ∧
      (opc = 4 → exec (.packetEvent q) s = .next ((s.raise (s.queue q).ctx (recField bs 0 21 16)).started q 1 none))) ∧
    (s.headOf q = .halt code o va →
      (o = some 0 → exec (.packetNop q) s = .next (s.haltQueue q code va)) ∧
      (o = some 1 → exec (.packetLaunch q) s = .next (s.haltQueue q code va)) ∧
      (o = some 2 → exec (.packetSignal q) s = .next (s.haltQueue q code va)) ∧
      (o = some 3 → exec (.packetWait q) s = .next (s.haltQueue q code va)) ∧
      (o = some 4 → exec (.packetEvent q) s = .next (s.haltQueue q code va))) ∧
    (s.sec.boot = 3 → hs = (roundQueues s.round).map (fun k => (k, s.headOf k)) →
      exec .hoistRound s = .next ([3, 2, 4, 0, 1].foldl (fun x j => startType j hs x)
        (hs.foldl (fun x h => match h.2 with
          | .halt code _ va => x.haltQueue h.1 code va
          | _ => x) { s with round := s.round + 1 }))) ∧
    (s.waitAt q u = some p → s.readSys false (s.queue q).ctx p.addr 8 = .ok bs → p.val ≤ ofBytesLE bs →
      exec (.waitPacketComplete q u) s = .next (s.modQueue q fun w =>
        { w with open_ := w.open_.filter fun r => r.unit != u })) ∧
    (s.waitAt q u = some p → s.readSys false (s.queue q).ctx p.addr 8 = .error e →
      exec (.waitPollFailure q u) s = .next (((s.noteSys (s.queue q).ctx .read p.addr 8).modQueue q fun w =>
        { w with
          halt := true
          index := u % 2 ^ 32
          code := 4
          open_ := w.open_.map fun r => if r.unit = u then { r with halt := true } else r }).haltRecord q)) ∧
    (q < 1024 → exec (.qtail q v) s = .next (s.setQueue q { s.queue q with tail := v })) ∧
    (q < 1024 →
      ((s.queue q).halt = false → exec (.qstatHalt q true) s = .next (s.setQueue q
        { s.queue q with
          halt := true
          index := (s.queue q).head.toNat % 2 ^ 32
          code := 0 })) ∧
      ((s.queue q).halt = true → exec (.qstatHalt q true) s = .next (s.setQueue q (s.queue q))) ∧
      (((s.queue q).open_.any fun r => r.opc == 2) = false → exec (.qstatHalt q false) s = .next (s.setQueue q
        { s.queue q with
          halt := false
          open_ := (s.queue q).open_.map fun r => { r with halt := false } })) ∧
      ((s.queue q).open_ = [p] → p.opc = 2 → t = s.setQueue q
          { s.queue q with
            halt := false
            open_ := [{ p with halt := false }] } →
        exec (.qstatHalt q false) s = .next (t.performSignal q p)))

/-- R251, R283 to R291, R390: a context is asked to stop, is stopped and saved, and comes back; its page tables are replaced, once
no access uses a translation of the old ones; the host raises its events. -/
def Obligations.ContextHappenings : Prop :=
  ∀ (s t u z : State) (c n : Nat) (v : DWord) (d : BitVec 32), c < 65536 →
    ((s.ctx c).pre = 0 → d = 0 → exec (.ctxpreReqSet c d) s = .next
      (((s.modCtx c fun k => { k with deadline := d }).modCtx c fun k => { k with req := true }).setPre c 2)) ∧
    ((s.ctx c).pre = 0 → d ≠ 0 → exec (.ctxpreReqSet c d) s = .next
      ((((s.modCtx c fun k => { k with deadline := d }).modCtx c fun k => { k with req := true }).setPre c 1).drained c)) ∧
    ((s.ctx c).pre ≠ 0 → exec (.ctxpreReqSet c d) s = .next (s.modCtx c fun k => { k with deadline := d })) ∧
    (t = (s.modCtx c fun k => { k with req := false }) →
      ((s.ctx c).pre = 0 → exec (.ctxpreReqClear c) s = .next t) ∧
      ((s.ctx c).pre = 1 → exec (.ctxpreReqClear c) s = .next (t.setPre c 0)) ∧
      (2 ≤ (s.ctx c).pre.toNat → (s.ctx c).restore = none → exec (.ctxpreReqClear c) s = .next
        ({ t with nextId := t.nextId + 1 }.modCtx c fun k => { k with restore := some t.nextId }))) ∧
    ((s.ctx c).pre = 1 → exec (.softDeadlineExpiry c) s = .next (s.setPre c 2)) ∧
    ((s.ctx c).pre = 2 → s.stopReady c = true →
      exec (.hardStop c) s = .next (((s.stopped c).setPre c 3).evaluate 2 false)) ∧
    ((s.ctx c).restore = some n → (s.ctx c).pre = 3 → s.olderRestore n (s.restoreCores c) = false →
      reloadAll c (s.restoreCores c) s = some t → landGangs (s.savedGangs c) t = some u → u.replayLog c = .ok z →
      exec (.contextRestore c) s = .next (z.resumeCtx c)) ∧
    exec (.ctxroot c v) s = .next (
      if fld v 51 16 * 65536 = (s.ctx c).root ∧ v[0] = (s.ctx c).promote then s.modCtx c fun k => { k with rootDue := none }
      else if s.xlatInUse c fun _ => true then s.modCtx c fun k => { k with rootDue := some v }
      else (s.modCtx c fun k =>
        { k with root := fld v 51 16 * 65536, promote := v[0], rootDue := none }).purgeTlb (purges c none)) ∧
    exec (.evraise c v) s = .next
      (((List.range 64).filter fun i => decide (5 ≤ i) && v.getLsbD i).foldl (fun t i => t.raise c i) s)

/-- R330 to R336, R347, R337 to R342: the mailbox takes up a request and answers it with the effect of its operation; the
sampler examines a slot. The STAMP of a sample (log 66), the order of BADARG and NOCREW and a CONT that waits for its crew's
notice (log 35) and a crew that is tried in the clock of its sample (log 34) are the model's readings. -/
def Obligations.DebugHappenings : Prop :=
  ∀ (s t : State) (ctx c core : Nat) (q : MbReq) (w : Crew) (g : Gang) (h b : List Byte) (v : DWord) (bd : Binding) (e : Entry)
    (k n i : Nat) (r : Sampler) (sl : Slot) (out : Memory × Sampler),
    (ctx < 65536 → (s.ctx ctx).mbox ≠ 0 → (s.ctx ctx).prot = false → s.readSys false ctx (s.ctx ctx).mbox 16 = .ok h →
      t = s.passSys ctx .read (s.ctx ctx).mbox 512 →
      recField h 0 63 32 = ((s.ctx ctx).mbSeq + 1).toNat →
      t.readSys false ctx ((s.ctx ctx).mbox + 16) (min (recField h 0 31 16) 496) = .ok b → 1 ≤ recField h 0 7 0 →
      recField h 0 7 0 ≤ 10 →
      exec (.dbgbell ctx) s = .next (t.modCtx ctx fun k =>
        { k with mbReq := some { op := recField h 0 7 0, seq := recField h 0 63 32, crew := recField h 8 13 0,
                                 zeros := recField h 0 15 8 == 0 && recField h 8 63 14 == 0, body := b } })) ∧
    (ctx < 65536 → exec (.dbgmbox ctx v) s = .next (s.modCtx ctx fun k =>
      if fld v 51 12 = 0 then { k with mbox := 0, mbReq := none }
      else { k with mbox := fld v 51 12 * 4096, mbReq := none, mbSeq := 0, mbNtc := 0 })) ∧
    (s.request ctx = some q → q.op = 1 → q.zeros = true → q.body = [] →
      exec (.ping ctx) s = .next (s.mbReply ctx q s stOk [])) ∧
    (Asks s ctx q 2 c w → q.body = [] →
      exec (.rdstate ctx) s = .next (s.mbReply ctx q s stOk (stopBody w w.setS.code.toNat))) ∧
    (Asks s ctx q 3 c w → q.body.length = 1 → byteAt q.body 0 < 0xC0 → s.nameAt w (byteAt q.body 0) = some (bd, e) →
      exec (.rdname ctx) s = .next (s.mbReply ctx q s stOk
        (bytesLE 4 (rdEntry e).1 ++ bytesLE 4 bd.count ++ laneBytes (rdEntry e).2))) ∧
    (Asks s ctx q 4 c w → q.body.length = 136 → n = byteAt q.body 0 → k = byteAt q.body 1 → n < 0xC0 → 1 ≤ k → k ≤ 15 →
      zeroBytes q.body 2 6 = true → s.nameAt w n = some (bd, e) → e.st = .bound →
      exec (.wrname ctx) s = .next (s.mbReply ctx q ((s.modCore (s.coreOf w) fun u =>
        { u with vs := Tab.put u.vs bd.entry { e with lanes := bodyLanes q.body 8, bad := 0 } }).modCrew c fun y =>
        { y with arch := { y.arch with names := Tab.put y.arch.names n { bd with count := k } } }) stOk [])) ∧
    (Asks s ctx q 4 c w → q.body.length = 136 → n = byteAt q.body 0 → k = byteAt q.body 1 → n < 0xC0 → 1 ≤ k → k ≤ 15 →
      zeroBytes q.body 2 6 = true → s.nameAt w n = none → w.marks = [] → s.needOk c 1 = true → s.canBind c n = true →
      exec (.wrname ctx) s = .next (s.mbReply ctx q
        (s.rebound c n k (selLanes 0xFFFFFFFF (bodyLanes q.body 8) zeroLanes)) stOk [])) ∧
    (Asks s ctx q 5 c w → q.body.length = 1 → n = byteAt q.body 0 → n < 0xC0 →
      (s.nameAt w n = none → exec (.dropname ctx) s = .next (s.mbReply ctx q s stUnbound [])) ∧
      (s.nameAt w n = some (bd, e) → e.st ≠ .leased → (∀ p, s.named c n = some p → p.2.st ≠ .leased) →
        exec (.dropname ctx) s = .next (s.mbReply ctx q (((s.modCrew c fun y =>
          { y.heal (.name n) with atHalt := Tab.del y.atHalt n }).dropped c n).bumpSeq c) stOk []))) ∧
    (Asks s ctx q 6 c w → q.body.length = 2 → n = byteAt q.body 0 → k = byteAt q.body 1 → 1 ≤ k → k ≤ 32 → n + k ≤ 63 →
      exec (.rdscal ctx) s = .next (s.mbReply ctx q s stOk
        ((List.range k).map fun j => bytesLE 8 (w.arch.scalar (n + j)).toNat).flatten)) ∧
    (Asks s ctx q 7 c w → q.body.length = 16 → byteAt q.body 0 ≤ 62 → zeroBytes q.body 1 7 = true →
      exec (.wrscal ctx) s = .next (s.mbReply ctx q (s.modCrew c fun y =>
        { y.heal (.scalar (byteAt q.body 0)) with
          arch := y.arch.setScalar (byteAt q.body 0) (BitVec.ofNat 64 (ofBytesLE ((q.body.drop 8).take 8))) }) stOk [])) ∧
    (Asks s ctx q 8 c w → q.body.length = 16 → n = ofBytesLE (q.body.take 2) → mbCsr n = true →
      zeroBytes q.body 2 6 = true → s.gang? w.gang = some g → v = BitVec.ofNat 64 (ofBytesLE ((q.body.drop 8).take 8)) →
      exec (.wrcsr ctx) s = .next (s.mbReply ctx q
        (s.csrWrite c w g n (if n = 0x058 then v &&& ~~~ 0x10000#64 else v)) stOk [])) ∧
    (Asks s ctx q 9 c w → q.body = [] → w.notice = none →
      exec (.cont ctx) s = .next (s.mbReply ctx q (s.modCrew c fun y =>
        { y with halt := false, park := none, atHalt := [] }) stOk [])) ∧
    (s.request ctx = some q → q.op = 10 → q.zeros = true → q.body.length = 10 →
      n = ofBytesLE ((q.body.drop 8).take 2) → 1 ≤ n → n ≤ 496 → s.readRange ctx (ofBytesLE (q.body.take 8)) n = .ok b →
      exec (.rdmem ctx) s = .next (s.mbReply ctx q (s.passSys ctx .read (ofBytesLE (q.body.take 8)) n) stOk b)) ∧
    (r = (s.core core).smp → r.en = true → r.per ≠ 0 → i = r.sampled → Tab.at? (s.core core).slots i = none →
      exec (.sample core) s = .next ({ s with cur := none }.modCore core fun u =>
        { u with smp := { r with n := r.n + 1, empty := r.empty + 1 } })) ∧
    (r = (s.core core).smp → r.en = true → r.per ≠ 0 → i = r.sampled → Tab.at? (s.core core).slots i = some sl →
      sl.crew = some c → s.crew? c = some w → w.empty = false → s.observes r (s.ctxOf w) = true →
      (∀ p, w.park = some p → s.cur ≠ some c → k = parkReason p) →
      ((w.park = none ∨ s.cur = some c) → k = if s.triable w then readyReason (Config.freePick s.tick) else 15) →
      out = ringPut s.mem { r with n := r.n + 1 } (sampleBytes s w i k ((r.n + 1) * r.per.toNat % 2 ^ 64)) →
      exec (.sample core) s = .next ({ s with tick := s.tick + 1, mem := out.1, cur := none }.modCore core fun u =>
        { u with smp := out.2 })) ∧
    (core < 192 → exec (.smpcfg core v) s = .next (s.modCore core fun u =>
      { u with
        smp := { u.smp with
          ctx := v.extractLsb' 48 16
          slot := v.extractLsb' 44 4
          rot := v[40]
          en := v[32]
          per := v.extractLsb' 0 32
          n := if v[32] then 0 else u.smp.n } }))

/-- R354 to R361: the key commands, the firmware hand-over, attestation, the version fuse and the assignment lists. The
signature of a report is a free one of those that verify under the identity key, where there is one (log 11); which slots a ZERO
completes at once is the model's reading (log 56, DEDUCED). -/
def Obligations.SecurityCommands : Prop :=
  ∀ (s t : State) (slot : BitVec 7) (v : DWord) (h body : List Byte) (es : List AsgEntry) (c n : Nat),
    (s.fillRefused slot.toNat = true →
      exec (.gen slot) s = .next (s.keyStatus slot 2) ∧ exec (.load slot) s = .next (s.keyStatus slot 2)) ∧
    (s.fillRefused slot.toNat = false →
      exec (.gen slot) s = .next (({ s with tick := s.tick + 1 }.fillSlot slot.toNat
        (bytesLE 64 (Config.freeKey s.tick).toNat) true).keyStatus slot 0) ∧
      ((s.ctxs.any fun p => p.2.prot && p.2.keyslot == slot) = false →
        t = (s.fillSlot slot.toNat s.sec.keyData false).keyStatus slot 0 →
        exec (.load slot) s = .next { t with sec := { t.sec with keyData := List.replicate 64 0#8 } })) ∧
    exec (.zero slot) s = .next (if s.zeroDone slot.toNat then (s.markZeroised slot.toNat).keyStatus slot 0
      else (s.beginZero slot.toNat).keyStatus slot 1) ∧
    (s.sec.boot = 3 → s.sec.fwState ≠ 1 → s.readFree s.sec.fwimg 4096 = some h → headerOk h [2, 3] = true →
      s.readFree (s.sec.fwimg + 4096) (imgField h 16 8) = some body →
      exec .stage s = .next (match verifyImage h body [2, 3] s.sec.rootdig s.sec.minsvn with
        | .error e => s.fwResult (BitVec.ofNat 8 e)
        | .ok d => { s with
          sec := { s.sec with
            fwErr := 0
            hstage := BitVec.ofNat 2 d.stage
            smeas := measure d.digest
            staged := d.ver
            fwState := 1 } })) ∧
    (s.sec.boot = 3 → s.sec.fwState = 1 → exec .stage s = .next (s.fwResult 8)) ∧
    (s.sec.fwState ≠ 1 → exec .commit s = .next (s.fwResult 8) ∧ exec .abort s = .next (s.fwResult 8)) ∧
    (s.sec.fwState = 1 →
      exec .commit s = .next { s with
        sec := { s.sec with
          fwErr := 0
          meas := s.sec.meas.setIfInBounds s.sec.hstage.toNat s.sec.smeas
          run2 := if s.sec.hstage = 2 then s.sec.staged else s.sec.run2
          run3 := if s.sec.hstage = 3 then s.sec.staged else s.sec.run3
          smeas := List.replicate 64 0#8
          hstage := 0
          staged := ⟨0, 0⟩
          fwState := 2 } } ∧
      exec .abort s = .next { s with
        sec := { s.sec with
          fwErr := 0
          smeas := List.replicate 64 0#8
          hstage := 0
          staged := ⟨0, 0⟩
          fwState := 0 } }) ∧
    (v[0] = false → exec (.attctlGo v) s = .next { s with sec := { s.sec with attAddr := fld v 51 12 * 4096 } }) ∧
    (v[0] = true → t = { s with
      sec := { s.sec with
        attAddr := fld v 51 12 * 4096
        attDone := false } } →
      exec (.attctlGo v) s = .next (if hbmOk (fld v 51 12 * 4096) 2048 && (s.ownerOf (.frame (fld v 51 12 * 4096 / 65536))).isNone then
        { t.writeKey 0 (fld v 51 12 * 4096) t.report with
          tick := (t.writeKey 0 (fld v 51 12 * 4096) t.report).tick + 1
          sec := { (t.writeKey 0 (fld v 51 12 * 4096) t.report).sec with attDone := true } } else t) ∧
      ((∀ g, Falcon.verify identityKey g (digest64 t.sec.reportHead) = false) ∨
        Falcon.verify identityKey (t.signature (digest64 t.sec.reportHead)) (digest64 t.sec.reportHead) = true)) ∧
    exec (.minsvnset v) s = .next (if s.sec.minsvn.toNat < v.toNat then { s with sec := { s.sec with minsvn := v } } else s) ∧
    (v[0] = false → exec (.ctxasgGo v) s = .next { s with
      sec := { s.sec with
        asgCtx := v.extractLsb' 48 16
        asgCount := v.extractLsb' 32 13 } }) ∧
    (v[0] = true → s.sec.scrub.state = 1 → exec (.ctxasgGo v) s = .next { s with
      sec := { s.sec with
        asgCtx := v.extractLsb' 48 16
        asgCount := v.extractLsb' 32 13
        asgRes := 3 } }) ∧
    (v[0] = true → s.sec.scrub.state ≠ 1 → c = fld v 63 48 → n = fld v 44 32 → 1 ≤ n → n ≤ 4096 →
      (s.readFree s.sec.asgAddr (16 * n)).isSome = true → (s.ctx c).prot = true →
      es = (List.range n).map (fun i => asgEntry (s.mem.read (s.sec.asgAddr + 16 * i) 16)) → asgOk es = true →
      (((es.map AsgEntry.resources).flatten.any fun r => (s.ownerOf r).isSome) = false) →
      exec (.ctxasgGo v) s = .next { s with
        sec := { s.sec with
          asgCtx := v.extractLsb' 48 16
          asgCount := v.extractLsb' 32 13
          asgRes := 0
          owned := s.sec.owned ++ (es.map AsgEntry.resources).flatten.map fun r => ⟨r, some c⟩ } })

/-- R375 to R384, R398, R320, R390: the power table is loaded, the power cap is written, temperatures are sampled, grants are deferred, moved and take
effect, undervolt steps are written and re-enabled. That a table outside this device's HBM, in a frame that is not FREE or on a poisoned line is refused is the
model's choice (log 27): R376 does not list it. A revoked step that stays 0 until it is written is its reading (log 39, DEDUCED). -/
def Obligations.ArbiterHappenings : Prop :=
  ∀ (s t : State) (v : DWord) (tab : List Byte) (d : GrantDue) (k dom temp : Nat) (n : BitVec 3) (m : Uv),
    (s.sec.boot = 3 → v[0] = false → exec (.arbtabLoad (v, temp)) s = .next { s with arb := { s.arb with tabAddr := fld v 51 11 * 2048 } }) ∧
    (s.sec.boot = 3 → v[0] = true → tab = s.mem.read (fld v 51 11 * 2048) 2048 →
      (hbmOk (fld v 51 11 * 2048) 2048 = true → s.frameFree (fld v 51 11 * 2048) = true → s.badLines (fld v 51 11 * 2048) 2048 = false → tableOk tab = true →
        exec (.arbtabLoad (v, temp)) s = .next ({ s with
          arb := { s.arb with
            tabAddr := fld v 51 11 * 2048
            table := some tab
            tabErr := false
            temp := BitVec.ofNat 8 (min temp 255)
            band := riseBand tab (min temp 255) } }.evaluate 7 true)) ∧
      (hbmOk (fld v 51 11 * 2048) 2048 = false ∨ s.frameFree (fld v 51 11 * 2048) = false ∨ s.badLines (fld v 51 11 * 2048) 2048 = true ∨ tableOk tab = false →
        exec (.arbtabLoad (v, temp)) s = .next { s with
        arb := { s.arb with
          tabAddr := fld v 51 11 * 2048
          tabErr := true } })) ∧
    (fld v 11 0 < 900 ∨ 2600 < fld v 11 0 ∨ fld v 11 0 = s.arb.cap.toNat → exec (.pwrcap v) s = .next s) ∧
    (900 ≤ fld v 11 0 → fld v 11 0 ≤ 2600 → fld v 11 0 ≠ s.arb.cap.toNat →
      exec (.pwrcap v) s = .next (({ s with arb := { s.arb with cap := BitVec.ofNat 12 (fld v 11 0) } }.raiseAll 2).evaluate 3
        (decide (fld v 11 0 < s.arb.cap.toNat)))) ∧
    (s.arb.table = some tab → s.arb.move = none → (s.found tab).same s.arb.grant = false →
      s.evaluate k true = { s with
        arb := { s.arb with
          pend := none
          move := some { grant := s.found tab, cause := BitVec.ofNat 4 (if s.arb.hot then 4 else k) } } }) ∧
    (s.arb.pend = some d → exec .grantDeferTimeout s = .next { s with arb := { s.arb with pend := none, move := some d } }) ∧
    (s.arb.move = some d →
      exec .grantMoveComplete s = .next ({ s with arb := { s.arb with move := none } }.applyGrant d).gathered) ∧
    (s.arb.table = none → temp ≤ 255 →
      exec (.temperatureSample temp) s = .next { s with arb := { s.arb with temp := BitVec.ofNat 8 temp } }) ∧
    (s.arb.table = some tab → temp ≤ 255 →
      t = { s with
        arb := { s.arb with
          temp := BitVec.ofNat 8 temp
          band := nextBand tab s.arb.band temp } } →
      exec (.temperatureSample temp) s = .next (if t.arb.band = s.arb.band ∧ s.arb.hot = t.arb.hot then t
        else t.evaluate 4 (decide (s.arb.band < t.arb.band) || (t.arb.hot && !s.arb.hot)))) ∧
    (uvExists k dom = true → m = s.uv k dom →
      exec (.uvstepStep k dom n) s = .next (if m.rev then s else (s.setUv k dom { m with step := n }).afterStep s) ∧
      exec (.uvstepRev k dom) s = .next ((s.setUv k dom { m with rev := false }).afterStep s))

/-- R305, R306, R309, R319 to R321, R259 to R261: errors are counted, recorded and marked; windows and counters move on; a
range of pages is promoted. That the error which takes the count one above the threshold is the crossing, once in a window, is
the model's reading (log 38, DEDUCED). -/
def Obligations.ErrorHappenings : Prop :=
  ∀ (s t u : State) (big interfered : Bool) (kind : BitVec 8) (inst inst2 : BitVec 16) (addr : DWord) (loc : ErrLoc) (n d : Nat) (ctx va target size : Nat)
    (first : Nat) (es : List DWord) (e0 : DWord),
    (unitExists kind.toNat inst.toNat = true → n = Tab.getD s.rel.window (unitKey kind.toNat inst.toNat) 0 + 1 →
      t = { s with rel := { s.rel with window := Tab.put s.rel.window (unitKey kind.toNat inst.toNat) n } }.modLife
        kind.toNat inst.toNat (fun l => l.countCe (s.unitStep kind.toNat inst.toNat) s.arb.band) →
      u = (if n = 1 then t.record { Rec.of none 0x01 kind.toNat inst.toNat with addr := addr.toNat } else t) →
      (kindDomain kind.toNat = none ∨ n ≠ Config.errThreshold kind + 1 →
        exec (.correctedError kind inst (addr, [])) s = .next u) ∧
      (kindDomain kind.toNat = some d → n = Config.errThreshold kind + 1 →
        exec (.correctedError kind inst (addr, [])) s = .next (if 0 < s.unitStep kind.toNat inst.toNat
          then u.revoke kind.toNat inst.toNat d else u.lowerCeiling kind.toNat inst.toNat d))) ∧
    (unitExists kind.toNat inst.toNat = true → unitExists kind.toNat inst2.toNat = true →
      inst.toNat / 4096 = inst2.toNat / 4096 → kindDomain kind.toNat = some d →
      0 < s.unitStep kind.toNat inst.toNat → 0 < s.unitStep kind.toNat inst2.toNat →
      (s.countError kind inst addr).crosses kind inst = true →
      u = (s.countError kind inst addr).countError kind inst2 addr →
      u.crosses kind inst2 = true →
      exec (.correctedError kind inst (addr, [(kind, inst2, addr)])) s
        = .next ((u.revoke kind.toNat inst.toNat d).revokeToo kind.toNat inst2.toNat d)) ∧
    ((kind = 0x0E ∨ unitExists kind.toNat inst.toNat = true) → locFits loc s kind.toNat inst.toNat = true →
      (s.modLife kind.toNat inst.toNat fun l => { l with ue := min (l.ue + 1) (2 ^ 64 - 1) }).markError kind.toNat inst.toNat
        loc = some t →
      exec (.uncorrectableError kind inst loc) s = .next t) ∧
    exec .rateWindowExpiry s = .next { s with rel := { s.rel with window := [] } } ∧
    exec .errstatOvfClear s = .next { s with rel := { s.rel with ovf := false, drops := 0 } } ∧
    exec .ontimeTick s = .next { s with rel := { s.rel with ontime := min (s.rel.ontime + 1) (2 ^ 64 - 1) } } ∧
    ((s.ctx ctx).promote = true → size = (if big then 0x2000000 else 0x200000) → va % size = 0 → target % size = 0 →
      hbmOk target size = true → s.walkTo ctx va = .ok first →
      s.leaves ctx (first - 8 * leafIx va) va (size / 65536) = some (e0 :: es) →
      ((e0 :: es).all fun e => sourceOk e0 e big) = true → pteAddr e0 / 0x2000000000 = target / 0x2000000000 →
      (((List.range (size / 65536)).zip (e0 :: es)).all fun p => s.frameOk ctx (piecePa p.1 p.2)) = true →
      (((List.range (size / 65536)).map fun i => target + 65536 * i).all fun f =>
        (s.poolOf (hbmDie target)).contains f && s.frameOk ctx f) = true →
      (s.xlatInUse ctx fun a => decide (va ≤ a) && decide (a < va + size)) = false →
      t = (s.purgeTlb fun e => e.ctx == ctx && decide (e.va < va + size) && decide (va < e.va + e.size)) →
      exec (.promoteRange ctx va big target interfered) s = .next (if interfered then t
        else t.promoted ctx va big target (first - 8 * leafIx va) e0 es))

/-- R387 to R397, R353 to R356: requests of the host, of peers and of storage controllers, links that go down and are trained,
a reset, and writes of registers. The key slot and the frame of a storage transfer (log 71, DESIGN CHOICE), the answer to an atomic
of another size or misaligned (log 74, DEDUCED), the requests outstanding on a link (log 40, DEDUCED) and what memory keeps over a reset (log 37,
DESIGN CHOICE) are the model's. -/
def Obligations.HostHappenings : Prop :=
  ∀ (s t : State) (pa n l port pair off size : Nat) (bs : List Byte) (op : HostAtom) (peer : BitVec 16) (v : DWord) (k d : Link) (e : Pair)
    (key : Nat) (lost : List Nat) (ports : List BootPort) (ctxs : Tab Ctx) (n4 : BitVec 3) (ty : Ty) (a b : DWord),
    (s.net.host = true →
      exec (.hostRead pa n) s = .next (if s.outerOk pa n then (s.outerCanary pa 0x0B (instOf 4 0) (some 1)).outerRead 0 pa n
        else s.answerReq .abort) ∧
      exec (.hostWrite pa bs) s = .next (if s.outerOk pa bs.length
        then (s.outerCanary pa 0x0B (instOf 4 0) none).outerWrite 0 pa bs else s.answerReq .abort) ∧
      (¬((n = 4 ∨ n = 8) ∧ pa % n = 0) → exec (.hostAtomic pa n op) s = .next (s.answerReq .unsupported)) ∧
      (n = 4 ∨ n = 8 → pa % n = 0 → exec (.hostAtomic pa n op) s = .next (if s.outerOk pa n then
        (match op with
          | .fetchAdd b => (s.outerCanary pa 0x0B (instOf 4 0) (some 1)).outerAtom 0 pa 0 (if n = 4 then .n32 else .n64) b.toNat 0
          | .swap b => (s.outerCanary pa 0x0B (instOf 4 0) (some 1)).outerAtom 0 pa 6 (if n = 4 then .n32 else .n64) b.toNat 0
          | .cas b d => (s.outerCanary pa 0x0B (instOf 4 0) (some 1)).outerAtom 0 pa 7 (if n = 4 then .n32 else .n64) b.toNat
              d.toNat)
        else s.answerReq .abort)) ∧
      exec .hostLinkDown s = .next { s with net := { s.net with host := false } } ∧
      (off < 0x4000000 → barOk off size = false → exec (.registerWrite off size v) s = .next (s.answerReq .unsupported)) ∧
      (off < 0x4000000 → barOk off size = true → barOf (off / 8 * 8) = .none →
        exec (.registerWrite off size v) s = .next s) ∧
      exec (.registerWrite 0x78 8 v) s = .next (if s.rel.en then s
        else { s with rel := { s.rel with base := fld v 51 6 * 64 } }) ∧
      exec (.registerWrite 0x10 8 v) s = .next { s with sec := { s.sec with fwimg := fld v 51 12 * 4096 } }) ∧
    (s.net.id.toNat < 1016 →
      exec (.peerRequest l pa (.read n)) s = .next (if s.outerOk pa n
        then (s.outerCanary pa 0x0D (instOf 4 l) (some 3)).outerRead s.peerKey pa n else s.answerReq .abort) ∧
      exec (.peerRequest l pa (.write bs)) s = .next (if s.outerOk pa bs.length
        then (s.outerCanary pa 0x0D (instOf 4 l) none).outerWrite s.peerKey pa bs else s.answerReq .abort) ∧
      exec (.peerRequest l pa (.atom n4 ty a)) s = .next (if s.outerOk pa (Ty.size ty)
        then (s.outerCanary pa 0x0D (instOf 4 l) (some 3)).outerAtom s.peerKey pa n4.toNat ty a.toNat 0
        else s.answerReq .abort) ∧
      exec (.peerRequest l pa (.cas ty a b)) s = .next (if s.outerOk pa (Ty.size ty)
        then (s.outerCanary pa 0x0D (instOf 4 l) (some 3)).outerAtom s.peerKey pa 7 ty a.toNat b.toNat
        else s.answerReq .abort)) ∧
    (k = Tab.getD s.net.links l Link.reset →
      (k.up = true → t = (s.outstandingOn l).foldl (fun x q => match x.access? q.1 q.2.1 with
        | some (y, acc) => match x.loseLanes q.1 y acc q.2.2 with
          | .next z => z
          | _ => x
        | none => x) (lost.foldl (fun x j => x.loseCmd l j) s) →
        d = { k with up := false, downs := if k.downs = 255 then 255 else k.downs + 1 } →
        exec (.linkDown (l, lost)) s = .next { t with net := { t.net with links := Tab.put t.net.links l d } }) ∧
      (k.up = false → l < 18 → exec (.linkTrained l peer) s = .next { s with
        net := { s.net with links := Tab.put s.net.links l { k with peer := peer, up := true } } })) ∧
    (port < 4 → 1 ≤ pair → pair ≤ 64 → e = { s.pair port pair with sq := v.extractLsb' 48 16, cq := v.extractLsb' 32 16 } →
      exec (.storageDoorbell port pair v) s = .next { s with
        store := { s.store with pairs := Tab.put s.store.pairs (128 * port + pair) e } }) ∧
    (hbmOk pa bs.length = true → bs ≠ [] → pa % 65536 + bs.length ≤ 65536 → s.frameKey pa = some key →
      exec (.storageDma port pa (.write bs)) s = .next ((s.outerCanary pa 0x0C (instOf 4 port) none).outerWrite key pa bs)) ∧
    (hbmOk pa n = true → n ≠ 0 → pa % 65536 + n ≤ 65536 → s.frameKey pa = some key →
      exec (.storageDma port pa (.read n)) s = .next ((s.outerCanary pa 0x0C (instOf 4 port) (some 2)).outerRead key pa n)) ∧
    (ctxs = (s.ctxs.filter fun p => p.2.prot).map (fun p => (p.1, p.2.afterReset)) →
      exec (.deviceReset ports) s = .next { State.reset with
        mem := s.mem
        poison := s.poison
        syncBad := s.syncBad
        badWord := s.badWord
        ctxs := ctxs
        rel := { State.reset.rel with
          life := s.rel.life
          ontime := s.rel.ontime
          uv := Tab.mapV s.rel.uv fun _ u => { u with step := 0 } }
        sec := s.sec.afterReset ports (fun j => j != 0 && ctxs.any fun p => p.2.keyslot.toNat == j) (s.tick + 1)
        agenda := s.agenda
        turn := s.turn
        tick := s.tick + 1
        nextId := s.nextId })

/-- R315: a POISONCLR of the form that its die takes sets the line's bytes to 0, removes the mark, writes a record of CLASS
0x0C and raises event 3 in every context that trapped POISON on the line; any other write is ignored. -/
def Obligations.PoisonClear : Prop :=
  ∀ (s s1 : State) (die line : Nat) (v : DWord) (ok : Bool), line = fld v 51 7 →
    ok = (v[0] && fld v 6 1 == 0 && fld v 63 52 == 0 && hbmOk (128 * line) 128 && hbmDie (128 * line) == die) →
    (ok = false → exec (.poisonclr die v) s = .next s) ∧
    (ok = true → s1 = { s with
        mem := s.mem.clear (128 * line) 128
        poison := s.poison.filter (· != line)
        syncBad := s.syncBad.filter (· != line) } →
      exec (.poisonclr die v) s = .next ((Tab.keysWhere s1.ctxs fun _ k => k.poison.contains line).foldl
        (fun t c => (t.modCtx c fun k => { k with poison := k.poison.filter (· != line) }).raise c 3)
        (s1.record { Rec.of none 0x0C 0x09 (stackInst (128 * line)) with addr := 128 * line })) ∧
      ∀ a, s1.mem.get a = if a / 128 = line then 0#8 else s.mem.get a)

/-! ## Frames -/

/-- R115, R30 to R32: what a lane instruction of layout T leaves unchanged: everything but its own crew's PC, SIG, the names
it reads and writes and its scalar destination, and what its checkpoint frees. -/
def Obligations.LaneFrame : Prop :=
  ∀ (i : Instr) (opc n : Nat) (f : FnT) (x : Ops) (s s0 s1 : State) (c : Nat) (w : Crew),
    laneForm i = some (opc, f, x, n) → Issues s c w x → s0 = s.opens c w opc x → s0.sourcesOk c f x n = true →
    s1 = s0.afterSources c f x n → s1.outOk c f x f.ty.wide = true →
    ∃ t, exec i s = .next t ∧ OperandFrame s t c w x (touches f x n) (writesScalar x)

/-- R164, R163: the bytes of a store that lanes of an STS are performed for: each takes the value of the highest lane of the
instruction that writes it, once that lane is performed; every other byte of memory is unchanged. -/
def Obligations.StoreBytes : Prop :=
  ∀ (s : State) (c a K : Nat) (y : Crew) (b : Access) (lanes : Mask),
    s.MemOk → s.access? c a = some (y, b) → b.kind = .store → b.spad = true → s.mayPerform c y b lanes = true →
    s.syncLanes b lanes = none → s.canaries y b lanes = s →
    b.place = some ((lanesOf b.lanes).map fun l => (l.val, ⟨K + at0 b.addr l.val, 0⟩)) → lanes &&& ~~~ b.lanes = 0 →
    (∀ l : Fin 32, lanes[l] = true → s.mergesMarked (K + at0 b.addr l.val) b.size = false) →
    ∃ t, exec (.memoryAccessPerformed c a lanes) s = .next t ∧ t.MemOk ∧
      (∀ n, t.mem.get (K + n) = match topLane b n with
        | some l => if lanes[l] then laneByte b l n else s.mem.get (K + n)
        | none => s.mem.get (K + n)) ∧
      (∀ p, p < K → t.mem.get p = s.mem.get p)

/-! ## Encoding, invariants, reset and step -/

/-- R38, R46, R48, R52: what is encoded from a well-formed instruction decodes to it, whatever follows, and whatever decodes
is well formed and is the encoding of what it decodes to. -/
def Obligations.DecodeEncode : Prop :=
  (∀ (i : Instr) (rest : List Byte), i.WellFormed → i.parts.isSome = true → decode (encodeBytes i ++ rest) = .ok (i, rest)) ∧
  ∀ (bs : List Byte) (i : Instr) (rest : List Byte), decode bs = .ok (i, rest) →
    i.WellFormed ∧ encodeBytes i ++ rest = bs

/-- Every step keeps memory in its canonical form (the model's own invariant: R243 gives memory one byte at each address). -/
def Obligations.StepKeepsMemory : Prop := ∀ (s t : State), s.MemOk → step s = .next t → t.MemOk

/-- R373, R376, R383, R384, R306, R355, R390, R263, R395: the values that the spec gives registers at reset, and memory in its
canonical form with nothing listed. -/
def Obligations.ResetState : Prop :=
  State.reset.MemOk ∧ State.reset.mem = [] ∧ State.reset.crews = [] ∧
    (∀ q, State.reset.queue q = Queue.reset) ∧ (∀ c, State.reset.ctx c = Ctx.reset) ∧
    (Queue.reset.base = 0 ∧ Queue.reset.ctx = 0 ∧ Queue.reset.log2n = 0 ∧ Queue.reset.en = false ∧ Queue.reset.head = 0 ∧
      Queue.reset.tail = 0 ∧ Queue.reset.halt = false ∧ Queue.reset.index = 0 ∧ Queue.reset.code = 0) ∧
    (Ctx.reset.root = 0 ∧ Ctx.reset.prot = false ∧ Ctx.reset.priv = 0 ∧ Ctx.reset.pre = 0 ∧ Ctx.reset.req = false ∧
      Ctx.reset.spill = 0 ∧ Ctx.reset.alog = 0 ∧ Ctx.reset.alogN = 0 ∧ Ctx.reset.mbox = 0 ∧ Ctx.reset.keyslot = 0 ∧
      Ctx.reset.evecU = 0 ∧ Ctx.reset.evecS = 0 ∧ Ctx.reset.evecW = 0) ∧
    (State.reset.arb.grant.isOver = false ∧ State.reset.arb.grant.tband = 0 ∧ State.reset.arb.grant.cap = 900 ∧
      State.reset.arb.grant.cost = 0 ∧ State.reset.arb.grant.net = 4 ∧ State.reset.arb.grant.mem = 4 ∧
      State.reset.arb.grant.vec = 4 ∧ State.reset.arb.grant.mat = 4 ∧ State.reset.arb.cap = 900 ∧
      State.reset.arb.table = none ∧ State.reset.arb.pend = none ∧ State.reset.arb.ceil = #v[12, 10, 8, 8] ∧
      State.reset.arb.band = 0 ∧ State.reset.arb.temp = 0) ∧
    (State.reset.rel.base = 0 ∧ State.reset.rel.log2n = 0 ∧ State.reset.rel.en = false ∧ State.reset.rel.tail = 0 ∧
      State.reset.rel.head = 0 ∧ State.reset.rel.ovf = false ∧ State.reset.rel.drops = 0) ∧
    (State.reset.net.id = 0x3FF ∧ State.reset.net.key = 0 ∧ State.reset.net.links = [] ∧ State.reset.net.route = [] ∧
      Link.reset.up = false ∧ Link.reset.downs = 0 ∧ Link.reset.peer = 0)

/-- R37, R40, R55, R56, R282, R312: a quadrant's issue at which crew `c` is the first that may issue runs the instruction that
the bytes at its PC decode to: step is exec of it, with the slot noted as the last that issued, GRANT0 noted (R274), and the
DEQs whose header has failed taken off their line (R207). Where the fetch brings a cause instead (bytes that cannot be read,
no instruction, a fetch block crossed), the crew traps it with its active lanes; where it consumes an uncorrectable error, the
gang is killed. A happening on the agenda is exec of it; with an empty agenda the model's own order has the next quadrant issue
(log 10). -/
def Obligations.StepRunsDecoded : Prop :=
  ∀ (s u t v z : State) (core quad c sl q a kind inst : Nat) (w : Crew) (ps : List Pending) (before after : List Nat)
    (bs rest : List Byte) (i : Instr) (cause : Cause) (b : Bool), u = { s with agenda := ps } →
    (s.agenda = .issue core quad :: ps → core < 192 → quad < 4 → u.searchOrder core quad = before ++ sl :: after →
      (∀ j ∈ before, u.crewIn core j = none) → u.crewIn core sl = some c → Ready u c w →
      (Fetches u w t bs → decode bs = .ok (i, rest) → exec i { t.issueCanaries w with cur := some c } = .next v →
        z = { v with cur := none }.noteGrant t c w →
        (wentOn u z c = true → step s = .next (z.modCore core fun k =>
          { k with last := k.last.setIfInBounds (sl / 16) (sl % 16) }).faultWaiters) ∧
        (wentOn u z c = false → after = [] → step s = .next z.faultWaiters)) ∧
      (FetchTraps u w t cause a → w.acc = [] → z = t.takeTrap c cause a w.arch.act w.arch.pc ⟨w.arch, w.seq⟩ →
        wentOn u z c = true → step s = .next (z.modCore core fun k =>
          { k with last := k.last.setIfInBounds (sl / 16) (sl % 16) }).faultWaiters) ∧
      (FetchKills u w t kind inst a → z = t.killPoison c w.arch.pc.toNat kind inst a → wentOn u z c = true →
        step s = .next (z.modCore core fun k =>
          { k with last := k.last.setIfInBounds (sl / 16) (sl % 16) }).faultWaiters)) ∧
    (s.agenda = .event i :: ps → i.WellFormed → i.parts = none → step s = thenWaiters (exec i (u.beforeEvent i))) ∧
    (s.agenda = [] → s.turn % 2 = 0 → s.nextQuad 768 (s.turn / 2) = some q → s.issueQuad (q / 4) (q % 4) = .next (v, b) →
      step s = .next { v with turn := 2 * ((q + 1) % 768) + 1 }.faultWaiters)

/-- R38, R44, R46, R48: words that the spec writes out decode to the instructions they stand for. -/
def Obligations.DecodeWords : Prop :=
  decodeTableWord 64 0x0030000090001400 = some (.dropk 3 ⟨⟨false, 0, false, false, 0⟩, 0, 0, 0x09, 0, 0, 0⟩) ∧
  decodeTableWord 96 0x400000000000000111 = some (.bra ⟨⟨false, 1, false, false, 1⟩, 0, 0, 0, 0, 0, 0x40⟩) ∧
  decodeTableWord 64 0x0000000000000790 = some (.exit ⟨⟨true, 1, false, false, 0⟩, 0, 0, 0, 0, 0, 0⟩) ∧
  decodeTableWord 64 0x0000000C31051020 = some (.mov ⟨⟨false, 2, false, false, 0⟩, 0x05, 1, 0xC3, 0, 0, 0⟩) ∧
  decodeTableWord 96 0x42060000000012B01 = some (.icmp ⟨2, false, 0, .n32⟩ ⟨⟨false, 0, false, false, 1⟩, 0x01, 0, 0, 0, 0, 0x4⟩) ∧
  decodeTableWord 64 0x007C70DC610E2D00 = some (.lea ⟨0, false, 0, .n64⟩ ⟨⟨false, 0, false, false, 0⟩, 0x0E, 1, 0xC6, 0x0D, 0xC7, 0⟩) ∧
  decodeTableWord 64 0x10D00C9051066100 = some (.qnt ⟨1, false, 0, .e2m1⟩ ⟨⟨false, 0, false, false, 0⟩, 0x06, 1, 0x05, 0xC9, 0, 0⟩) ∧
  decodeTableWord 64 0x0060000030C47208 = some (.lred ⟨0, false, 0, .n32⟩ ⟨⟨false, 0, true, false, 0⟩, 0xC4, 0, 0x03, 0, 0, 0⟩) ∧
  decodeTableWord 128 0x30001C00A00401000000C5C40008302 = some (.mma ⟨⟨false, 0, false, false, 2⟩, 0, 0, 0xC4, 0xC5, 0, 0x30001C00A004010⟩) ∧
  decodeTableWord 64 0x00800C6020009000 = some (.selk 8 ⟨⟨false, 0, false, false, 0⟩, 0, 0, 0x02, 0xC6, 0, 0⟩) ∧
  decodeTableWord 96 0x10136000904000A101 = some (.st ⟨0, 2, 3, .n32⟩ ⟨⟨false, 0, false, false, 1⟩, 0, 0, 0x04, 0x09, 0, 0x10⟩) ∧
  decodeTableWord 64 0x0360001C6102B000 = some (.atom ⟨0, 0, 3, .n32⟩ ⟨⟨false, 0, false, false, 0⟩, 0x02, 1, 0xC6, 0x01, 0, 0⟩) ∧
  decodeTableWord 64 0x0130000000C4B508 = some (.bar ⟨0, 0, 1, .i64⟩ ⟨⟨false, 0, true, false, 0⟩, 0xC4, 0, 0, 0, 0, 0⟩) ∧
  decodeTableWord 96 0x40000000003000C011 = some (.susp ⟨⟨false, 1, false, false, 1⟩, 0, 0, 0x03, 0, 0, 0x40⟩) ∧
  decodeTableWord 64 0x0000000030C5C308 = some (.binq 0 ⟨⟨false, 0, true, false, 0⟩, 0xC5, 0, 0x03, 0, 0, 0⟩) ∧
  decodeTableWord 128 0x1000000040000000DFFC9C80D4D00A = some (.ecpy ⟨0, 0, .e2m1⟩ ⟨⟨false, 0, true, false, 2⟩, 0xD4, 0, 0xC8, 0xC9, 0xFF, 0x10000000400000⟩) ∧
  decodeTableWord 64 0x0000000D4000D600 = some (.tlwait ⟨0, 0, .i8⟩ ⟨⟨false, 0, false, false, 0⟩, 0, 0, 0xD4, 0, 0, 0⟩) ∧
  decodeTableWord 64 0x0580000E80001B00 = some (.csrw 0x058 ⟨⟨false, 0, false, false, 0⟩, 0, 0, 0xE8, 0, 0, 0⟩)
end

