-- ==== Sys2Proof/Laws/Tab.lean ====
section
/-!
SUPPORT. Laws/Tab.lean: reading a sparse table after a store or a removal.
-/

namespace Sys2Proof

@[simp] theorem Tab.at?_put_self {α : Type} (t : Tab α) (k : Nat) (v : α) : Tab.at? (Tab.put t k v) k = some v := by
  induction t with
  | nil => simp [Tab.put, Tab.at?]
  | cons p t ih =>
    obtain ⟨i, w⟩ := p
    simp only [Tab.put]
    split
    · simp [Tab.at?]
    · split
      · simp [Tab.at?]
      · next h => simp [Tab.at?, Ne.symm h, ih]

theorem Tab.at?_put_ne {α : Type} (t : Tab α) (k j : Nat) (v : α) (h : k ≠ j) :
    Tab.at? (Tab.put t k v) j = Tab.at? t j := by
  induction t with
  | nil => simp [Tab.put, Tab.at?, h]
  | cons p t ih =>
    obtain ⟨i, w⟩ := p
    simp only [Tab.put]
    split
    · simp [Tab.at?, h]
    · split
      · next hk => simp [Tab.at?, h, ← hk]
      · simp [Tab.at?, ih]

@[simp] theorem Tab.put_put {α : Type} (t : Tab α) (k : Nat) (v w : α) : Tab.put (Tab.put t k v) k w = Tab.put t k w := by
  induction t with
  | nil => simp [Tab.put]
  | cons p t ih =>
    obtain ⟨i, u⟩ := p
    by_cases h1 : k < i
    · simp [Tab.put, h1]
    · by_cases h2 : k = i
      · simp [Tab.put, h2]
      · simp [Tab.put, h1, h2, ih]

@[simp] theorem Tab.getD_put_self {α : Type} (t : Tab α) (k : Nat) (v d : α) : Tab.getD (Tab.put t k v) k d = v := by
  simp [Tab.getD]

theorem Tab.getD_put_ne {α : Type} (t : Tab α) (k j : Nat) (v d : α) (h : k ≠ j) :
    Tab.getD (Tab.put t k v) j d = Tab.getD t j d := by
  simp [Tab.getD, Tab.at?_put_ne t k j v h]

theorem Tab.at?_del_self {α : Type} (t : Tab α) (k : Nat) : Tab.at? (Tab.del t k) k = none := by
  induction t with
  | nil => rfl
  | cons p t ih =>
    obtain ⟨i, v⟩ := p
    by_cases h : i = k
    · simpa [Tab.del, h] using ih
    · simpa [Tab.del, h, Tab.at?] using ih

theorem Tab.at?_del_ne {α : Type} (t : Tab α) (k j : Nat) (h : k ≠ j) : Tab.at? (Tab.del t k) j = Tab.at? t j := by
  induction t with
  | nil => rfl
  | cons p t ih =>
    obtain ⟨i, v⟩ := p
    by_cases hk : i = k
    · have : i ≠ j := hk ▸ h
      simpa [Tab.del, hk, Tab.at?, h] using ih
    · by_cases hj : i = j
      · simp [Tab.del, Tab.at?, hj, Ne.symm h]
      · simpa [Tab.del, hk, Tab.at?, hj] using ih

/-- A filter on values keeps what passes it. -/
theorem Tab.at?_filter_keep {α : Type} (t : Tab α) (p : α → Bool) (k : Nat) (v : α) (h : Tab.at? t k = some v) (hp : p v = true) :
    Tab.at? (t.filter fun q => p q.2) k = some v := by
  induction t with
  | nil => cases h
  | cons q t ih =>
    obtain ⟨i, u⟩ := q
    simp only [Tab.at?] at h
    by_cases hi : i = k
    · rw [if_pos hi] at h
      cases h
      rw [List.filter_cons_of_pos (by simpa using hp)]
      simp [Tab.at?, hi]
    · rw [if_neg hi] at h
      rw [List.filter_cons]
      split
      · simp [Tab.at?, hi, ih h]
      · exact ih h

/-- The first free key is not listed. -/
theorem Tab.firstFree_none {α : Type} (t : Tab α) (n i e : Nat) (h : Tab.firstFree t n i = some e) : Tab.at? t e = none := by
  induction n generalizing i with
  | zero => cases h
  | succ n ih =>
    unfold Tab.firstFree at h
    split at h
    · cases h; exact Option.isNone_iff_eq_none.mp ‹_›
    · exact ih _ h

end Sys2Proof
end

