-- ==== Sys2Proof/Laws/State.lean ====
section
/-!
SUPPORT. Laws/State.lean: what each update of State leaves in each field, and the lookups after the updates.
-/

namespace Sys2Proof.Machine

open Sys2Proof

/-! ## setCrew -/

@[simp] theorem State.setCrew_mem (s : State) (c : Nat) (x : Crew) : (s.setCrew c x).mem = s.mem := rfl
@[simp] theorem State.setCrew_poison (s : State) (c : Nat) (x : Crew) : (s.setCrew c x).poison = s.poison := rfl
@[simp] theorem State.setCrew_sliceBad (s : State) (c : Nat) (x : Crew) : (s.setCrew c x).sliceBad = s.sliceBad := rfl
@[simp] theorem State.setCrew_syncBad (s : State) (c : Nat) (x : Crew) : (s.setCrew c x).syncBad = s.syncBad := rfl
@[simp] theorem State.setCrew_badWord (s : State) (c : Nat) (x : Crew) : (s.setCrew c x).badWord = s.badWord := rfl
@[simp] theorem State.setCrew_outBad (s : State) (c : Nat) (x : Crew) : (s.setCrew c x).outBad = s.outBad := rfl
@[simp] theorem State.setCrew_gangs (s : State) (c : Nat) (x : Crew) : (s.setCrew c x).gangs = s.gangs := rfl
@[simp] theorem State.setCrew_grids (s : State) (c : Nat) (x : Crew) : (s.setCrew c x).grids = s.grids := rfl
@[simp] theorem State.setCrew_cores (s : State) (c : Nat) (x : Crew) : (s.setCrew c x).cores = s.cores := rfl
@[simp] theorem State.setCrew_ctxs (s : State) (c : Nat) (x : Crew) : (s.setCrew c x).ctxs = s.ctxs := rfl
@[simp] theorem State.setCrew_evAll (s : State) (c : Nat) (x : Crew) : (s.setCrew c x).evAll = s.evAll := rfl
@[simp] theorem State.setCrew_queues (s : State) (c : Nat) (x : Crew) : (s.setCrew c x).queues = s.queues := rfl
@[simp] theorem State.setCrew_pool (s : State) (c : Nat) (x : Crew) : (s.setCrew c x).pool = s.pool := rfl
@[simp] theorem State.setCrew_poolQ (s : State) (c : Nat) (x : Crew) : (s.setCrew c x).poolQ = s.poolQ := rfl
@[simp] theorem State.setCrew_arrive (s : State) (c : Nat) (x : Crew) : (s.setCrew c x).arrive = s.arrive := rfl
@[simp] theorem State.setCrew_waits (s : State) (c : Nat) (x : Crew) : (s.setCrew c x).waits = s.waits := rfl
@[simp] theorem State.setCrew_cmds (s : State) (c : Nat) (x : Crew) : (s.setCrew c x).cmds = s.cmds := rfl
@[simp] theorem State.setCrew_lltlb (s : State) (c : Nat) (x : Crew) : (s.setCrew c x).lltlb = s.lltlb := rfl
@[simp] theorem State.setCrew_frames (s : State) (c : Nat) (x : Crew) : (s.setCrew c x).frames = s.frames := rfl
@[simp] theorem State.setCrew_round (s : State) (c : Nat) (x : Crew) : (s.setCrew c x).round = s.round := rfl
@[simp] theorem State.setCrew_arb (s : State) (c : Nat) (x : Crew) : (s.setCrew c x).arb = s.arb := rfl
@[simp] theorem State.setCrew_rel (s : State) (c : Nat) (x : Crew) : (s.setCrew c x).rel = s.rel := rfl
@[simp] theorem State.setCrew_sec (s : State) (c : Nat) (x : Crew) : (s.setCrew c x).sec = s.sec := rfl
@[simp] theorem State.setCrew_net (s : State) (c : Nat) (x : Crew) : (s.setCrew c x).net = s.net := rfl
@[simp] theorem State.setCrew_store (s : State) (c : Nat) (x : Crew) : (s.setCrew c x).store = s.store := rfl
@[simp] theorem State.setCrew_agenda (s : State) (c : Nat) (x : Crew) : (s.setCrew c x).agenda = s.agenda := rfl
@[simp] theorem State.setCrew_cur (s : State) (c : Nat) (x : Crew) : (s.setCrew c x).cur = s.cur := rfl
@[simp] theorem State.setCrew_turn (s : State) (c : Nat) (x : Crew) : (s.setCrew c x).turn = s.turn := rfl
@[simp] theorem State.setCrew_tick (s : State) (c : Nat) (x : Crew) : (s.setCrew c x).tick = s.tick := rfl
@[simp] theorem State.setCrew_nextId (s : State) (c : Nat) (x : Crew) : (s.setCrew c x).nextId = s.nextId := rfl
@[simp] theorem State.setCrew_resp (s : State) (c : Nat) (x : Crew) : (s.setCrew c x).resp = s.resp := rfl
@[simp] theorem State.setCrew_crews (s : State) (c : Nat) (x : Crew) : (s.setCrew c x).crews = Tab.put s.crews c x := rfl

/-! ## setGang -/

@[simp] theorem State.setGang_mem (s : State) (g : Nat) (x : Gang) : (s.setGang g x).mem = s.mem := rfl
@[simp] theorem State.setGang_poison (s : State) (g : Nat) (x : Gang) : (s.setGang g x).poison = s.poison := rfl
@[simp] theorem State.setGang_sliceBad (s : State) (g : Nat) (x : Gang) : (s.setGang g x).sliceBad = s.sliceBad := rfl
@[simp] theorem State.setGang_syncBad (s : State) (g : Nat) (x : Gang) : (s.setGang g x).syncBad = s.syncBad := rfl
@[simp] theorem State.setGang_badWord (s : State) (g : Nat) (x : Gang) : (s.setGang g x).badWord = s.badWord := rfl
@[simp] theorem State.setGang_outBad (s : State) (g : Nat) (x : Gang) : (s.setGang g x).outBad = s.outBad := rfl
@[simp] theorem State.setGang_crews (s : State) (g : Nat) (x : Gang) : (s.setGang g x).crews = s.crews := rfl
@[simp] theorem State.setGang_grids (s : State) (g : Nat) (x : Gang) : (s.setGang g x).grids = s.grids := rfl
@[simp] theorem State.setGang_cores (s : State) (g : Nat) (x : Gang) : (s.setGang g x).cores = s.cores := rfl
@[simp] theorem State.setGang_ctxs (s : State) (g : Nat) (x : Gang) : (s.setGang g x).ctxs = s.ctxs := rfl
@[simp] theorem State.setGang_evAll (s : State) (g : Nat) (x : Gang) : (s.setGang g x).evAll = s.evAll := rfl
@[simp] theorem State.setGang_queues (s : State) (g : Nat) (x : Gang) : (s.setGang g x).queues = s.queues := rfl
@[simp] theorem State.setGang_pool (s : State) (g : Nat) (x : Gang) : (s.setGang g x).pool = s.pool := rfl
@[simp] theorem State.setGang_poolQ (s : State) (g : Nat) (x : Gang) : (s.setGang g x).poolQ = s.poolQ := rfl
@[simp] theorem State.setGang_arrive (s : State) (g : Nat) (x : Gang) : (s.setGang g x).arrive = s.arrive := rfl
@[simp] theorem State.setGang_waits (s : State) (g : Nat) (x : Gang) : (s.setGang g x).waits = s.waits := rfl
@[simp] theorem State.setGang_cmds (s : State) (g : Nat) (x : Gang) : (s.setGang g x).cmds = s.cmds := rfl
@[simp] theorem State.setGang_lltlb (s : State) (g : Nat) (x : Gang) : (s.setGang g x).lltlb = s.lltlb := rfl
@[simp] theorem State.setGang_frames (s : State) (g : Nat) (x : Gang) : (s.setGang g x).frames = s.frames := rfl
@[simp] theorem State.setGang_round (s : State) (g : Nat) (x : Gang) : (s.setGang g x).round = s.round := rfl
@[simp] theorem State.setGang_arb (s : State) (g : Nat) (x : Gang) : (s.setGang g x).arb = s.arb := rfl
@[simp] theorem State.setGang_rel (s : State) (g : Nat) (x : Gang) : (s.setGang g x).rel = s.rel := rfl
@[simp] theorem State.setGang_sec (s : State) (g : Nat) (x : Gang) : (s.setGang g x).sec = s.sec := rfl
@[simp] theorem State.setGang_net (s : State) (g : Nat) (x : Gang) : (s.setGang g x).net = s.net := rfl
@[simp] theorem State.setGang_store (s : State) (g : Nat) (x : Gang) : (s.setGang g x).store = s.store := rfl
@[simp] theorem State.setGang_agenda (s : State) (g : Nat) (x : Gang) : (s.setGang g x).agenda = s.agenda := rfl
@[simp] theorem State.setGang_cur (s : State) (g : Nat) (x : Gang) : (s.setGang g x).cur = s.cur := rfl
@[simp] theorem State.setGang_turn (s : State) (g : Nat) (x : Gang) : (s.setGang g x).turn = s.turn := rfl
@[simp] theorem State.setGang_tick (s : State) (g : Nat) (x : Gang) : (s.setGang g x).tick = s.tick := rfl
@[simp] theorem State.setGang_nextId (s : State) (g : Nat) (x : Gang) : (s.setGang g x).nextId = s.nextId := rfl
@[simp] theorem State.setGang_resp (s : State) (g : Nat) (x : Gang) : (s.setGang g x).resp = s.resp := rfl
@[simp] theorem State.setGang_gangs (s : State) (g : Nat) (x : Gang) : (s.setGang g x).gangs = Tab.put s.gangs g x := rfl

/-! ## setGrid -/

@[simp] theorem State.setGrid_mem (s : State) (l : Nat) (x : Grid) : (s.setGrid l x).mem = s.mem := rfl
@[simp] theorem State.setGrid_poison (s : State) (l : Nat) (x : Grid) : (s.setGrid l x).poison = s.poison := rfl
@[simp] theorem State.setGrid_sliceBad (s : State) (l : Nat) (x : Grid) : (s.setGrid l x).sliceBad = s.sliceBad := rfl
@[simp] theorem State.setGrid_syncBad (s : State) (l : Nat) (x : Grid) : (s.setGrid l x).syncBad = s.syncBad := rfl
@[simp] theorem State.setGrid_badWord (s : State) (l : Nat) (x : Grid) : (s.setGrid l x).badWord = s.badWord := rfl
@[simp] theorem State.setGrid_outBad (s : State) (l : Nat) (x : Grid) : (s.setGrid l x).outBad = s.outBad := rfl
@[simp] theorem State.setGrid_crews (s : State) (l : Nat) (x : Grid) : (s.setGrid l x).crews = s.crews := rfl
@[simp] theorem State.setGrid_gangs (s : State) (l : Nat) (x : Grid) : (s.setGrid l x).gangs = s.gangs := rfl
@[simp] theorem State.setGrid_cores (s : State) (l : Nat) (x : Grid) : (s.setGrid l x).cores = s.cores := rfl
@[simp] theorem State.setGrid_ctxs (s : State) (l : Nat) (x : Grid) : (s.setGrid l x).ctxs = s.ctxs := rfl
@[simp] theorem State.setGrid_evAll (s : State) (l : Nat) (x : Grid) : (s.setGrid l x).evAll = s.evAll := rfl
@[simp] theorem State.setGrid_queues (s : State) (l : Nat) (x : Grid) : (s.setGrid l x).queues = s.queues := rfl
@[simp] theorem State.setGrid_pool (s : State) (l : Nat) (x : Grid) : (s.setGrid l x).pool = s.pool := rfl
@[simp] theorem State.setGrid_poolQ (s : State) (l : Nat) (x : Grid) : (s.setGrid l x).poolQ = s.poolQ := rfl
@[simp] theorem State.setGrid_arrive (s : State) (l : Nat) (x : Grid) : (s.setGrid l x).arrive = s.arrive := rfl
@[simp] theorem State.setGrid_waits (s : State) (l : Nat) (x : Grid) : (s.setGrid l x).waits = s.waits := rfl
@[simp] theorem State.setGrid_cmds (s : State) (l : Nat) (x : Grid) : (s.setGrid l x).cmds = s.cmds := rfl
@[simp] theorem State.setGrid_lltlb (s : State) (l : Nat) (x : Grid) : (s.setGrid l x).lltlb = s.lltlb := rfl
@[simp] theorem State.setGrid_frames (s : State) (l : Nat) (x : Grid) : (s.setGrid l x).frames = s.frames := rfl
@[simp] theorem State.setGrid_round (s : State) (l : Nat) (x : Grid) : (s.setGrid l x).round = s.round := rfl
@[simp] theorem State.setGrid_arb (s : State) (l : Nat) (x : Grid) : (s.setGrid l x).arb = s.arb := rfl
@[simp] theorem State.setGrid_rel (s : State) (l : Nat) (x : Grid) : (s.setGrid l x).rel = s.rel := rfl
@[simp] theorem State.setGrid_sec (s : State) (l : Nat) (x : Grid) : (s.setGrid l x).sec = s.sec := rfl
@[simp] theorem State.setGrid_net (s : State) (l : Nat) (x : Grid) : (s.setGrid l x).net = s.net := rfl
@[simp] theorem State.setGrid_store (s : State) (l : Nat) (x : Grid) : (s.setGrid l x).store = s.store := rfl
@[simp] theorem State.setGrid_agenda (s : State) (l : Nat) (x : Grid) : (s.setGrid l x).agenda = s.agenda := rfl
@[simp] theorem State.setGrid_cur (s : State) (l : Nat) (x : Grid) : (s.setGrid l x).cur = s.cur := rfl
@[simp] theorem State.setGrid_turn (s : State) (l : Nat) (x : Grid) : (s.setGrid l x).turn = s.turn := rfl
@[simp] theorem State.setGrid_tick (s : State) (l : Nat) (x : Grid) : (s.setGrid l x).tick = s.tick := rfl
@[simp] theorem State.setGrid_nextId (s : State) (l : Nat) (x : Grid) : (s.setGrid l x).nextId = s.nextId := rfl
@[simp] theorem State.setGrid_resp (s : State) (l : Nat) (x : Grid) : (s.setGrid l x).resp = s.resp := rfl
@[simp] theorem State.setGrid_grids (s : State) (l : Nat) (x : Grid) : (s.setGrid l x).grids = Tab.put s.grids l x := rfl

/-! ## setCore -/

@[simp] theorem State.setCore_mem (s : State) (k : Nat) (x : Core) : (s.setCore k x).mem = s.mem := rfl
@[simp] theorem State.setCore_poison (s : State) (k : Nat) (x : Core) : (s.setCore k x).poison = s.poison := rfl
@[simp] theorem State.setCore_sliceBad (s : State) (k : Nat) (x : Core) : (s.setCore k x).sliceBad = s.sliceBad := rfl
@[simp] theorem State.setCore_syncBad (s : State) (k : Nat) (x : Core) : (s.setCore k x).syncBad = s.syncBad := rfl
@[simp] theorem State.setCore_badWord (s : State) (k : Nat) (x : Core) : (s.setCore k x).badWord = s.badWord := rfl
@[simp] theorem State.setCore_outBad (s : State) (k : Nat) (x : Core) : (s.setCore k x).outBad = s.outBad := rfl
@[simp] theorem State.setCore_crews (s : State) (k : Nat) (x : Core) : (s.setCore k x).crews = s.crews := rfl
@[simp] theorem State.setCore_gangs (s : State) (k : Nat) (x : Core) : (s.setCore k x).gangs = s.gangs := rfl
@[simp] theorem State.setCore_grids (s : State) (k : Nat) (x : Core) : (s.setCore k x).grids = s.grids := rfl
@[simp] theorem State.setCore_ctxs (s : State) (k : Nat) (x : Core) : (s.setCore k x).ctxs = s.ctxs := rfl
@[simp] theorem State.setCore_evAll (s : State) (k : Nat) (x : Core) : (s.setCore k x).evAll = s.evAll := rfl
@[simp] theorem State.setCore_queues (s : State) (k : Nat) (x : Core) : (s.setCore k x).queues = s.queues := rfl
@[simp] theorem State.setCore_pool (s : State) (k : Nat) (x : Core) : (s.setCore k x).pool = s.pool := rfl
@[simp] theorem State.setCore_poolQ (s : State) (k : Nat) (x : Core) : (s.setCore k x).poolQ = s.poolQ := rfl
@[simp] theorem State.setCore_arrive (s : State) (k : Nat) (x : Core) : (s.setCore k x).arrive = s.arrive := rfl
@[simp] theorem State.setCore_waits (s : State) (k : Nat) (x : Core) : (s.setCore k x).waits = s.waits := rfl
@[simp] theorem State.setCore_cmds (s : State) (k : Nat) (x : Core) : (s.setCore k x).cmds = s.cmds := rfl
@[simp] theorem State.setCore_lltlb (s : State) (k : Nat) (x : Core) : (s.setCore k x).lltlb = s.lltlb := rfl
@[simp] theorem State.setCore_frames (s : State) (k : Nat) (x : Core) : (s.setCore k x).frames = s.frames := rfl
@[simp] theorem State.setCore_round (s : State) (k : Nat) (x : Core) : (s.setCore k x).round = s.round := rfl
@[simp] theorem State.setCore_arb (s : State) (k : Nat) (x : Core) : (s.setCore k x).arb = s.arb := rfl
@[simp] theorem State.setCore_rel (s : State) (k : Nat) (x : Core) : (s.setCore k x).rel = s.rel := rfl
@[simp] theorem State.setCore_sec (s : State) (k : Nat) (x : Core) : (s.setCore k x).sec = s.sec := rfl
@[simp] theorem State.setCore_net (s : State) (k : Nat) (x : Core) : (s.setCore k x).net = s.net := rfl
@[simp] theorem State.setCore_store (s : State) (k : Nat) (x : Core) : (s.setCore k x).store = s.store := rfl
@[simp] theorem State.setCore_agenda (s : State) (k : Nat) (x : Core) : (s.setCore k x).agenda = s.agenda := rfl
@[simp] theorem State.setCore_cur (s : State) (k : Nat) (x : Core) : (s.setCore k x).cur = s.cur := rfl
@[simp] theorem State.setCore_turn (s : State) (k : Nat) (x : Core) : (s.setCore k x).turn = s.turn := rfl
@[simp] theorem State.setCore_tick (s : State) (k : Nat) (x : Core) : (s.setCore k x).tick = s.tick := rfl
@[simp] theorem State.setCore_nextId (s : State) (k : Nat) (x : Core) : (s.setCore k x).nextId = s.nextId := rfl
@[simp] theorem State.setCore_resp (s : State) (k : Nat) (x : Core) : (s.setCore k x).resp = s.resp := rfl
@[simp] theorem State.setCore_cores (s : State) (k : Nat) (x : Core) : (s.setCore k x).cores = Tab.put s.cores k x := rfl

/-! ## setCtx -/

@[simp] theorem State.setCtx_mem (s : State) (c : Nat) (x : Ctx) : (s.setCtx c x).mem = s.mem := rfl
@[simp] theorem State.setCtx_poison (s : State) (c : Nat) (x : Ctx) : (s.setCtx c x).poison = s.poison := rfl
@[simp] theorem State.setCtx_sliceBad (s : State) (c : Nat) (x : Ctx) : (s.setCtx c x).sliceBad = s.sliceBad := rfl
@[simp] theorem State.setCtx_syncBad (s : State) (c : Nat) (x : Ctx) : (s.setCtx c x).syncBad = s.syncBad := rfl
@[simp] theorem State.setCtx_badWord (s : State) (c : Nat) (x : Ctx) : (s.setCtx c x).badWord = s.badWord := rfl
@[simp] theorem State.setCtx_outBad (s : State) (c : Nat) (x : Ctx) : (s.setCtx c x).outBad = s.outBad := rfl
@[simp] theorem State.setCtx_crews (s : State) (c : Nat) (x : Ctx) : (s.setCtx c x).crews = s.crews := rfl
@[simp] theorem State.setCtx_gangs (s : State) (c : Nat) (x : Ctx) : (s.setCtx c x).gangs = s.gangs := rfl
@[simp] theorem State.setCtx_grids (s : State) (c : Nat) (x : Ctx) : (s.setCtx c x).grids = s.grids := rfl
@[simp] theorem State.setCtx_cores (s : State) (c : Nat) (x : Ctx) : (s.setCtx c x).cores = s.cores := rfl
@[simp] theorem State.setCtx_evAll (s : State) (c : Nat) (x : Ctx) : (s.setCtx c x).evAll = s.evAll := rfl
@[simp] theorem State.setCtx_queues (s : State) (c : Nat) (x : Ctx) : (s.setCtx c x).queues = s.queues := rfl
@[simp] theorem State.setCtx_pool (s : State) (c : Nat) (x : Ctx) : (s.setCtx c x).pool = s.pool := rfl
@[simp] theorem State.setCtx_poolQ (s : State) (c : Nat) (x : Ctx) : (s.setCtx c x).poolQ = s.poolQ := rfl
@[simp] theorem State.setCtx_arrive (s : State) (c : Nat) (x : Ctx) : (s.setCtx c x).arrive = s.arrive := rfl
@[simp] theorem State.setCtx_waits (s : State) (c : Nat) (x : Ctx) : (s.setCtx c x).waits = s.waits := rfl
@[simp] theorem State.setCtx_cmds (s : State) (c : Nat) (x : Ctx) : (s.setCtx c x).cmds = s.cmds := rfl
@[simp] theorem State.setCtx_lltlb (s : State) (c : Nat) (x : Ctx) : (s.setCtx c x).lltlb = s.lltlb := rfl
@[simp] theorem State.setCtx_frames (s : State) (c : Nat) (x : Ctx) : (s.setCtx c x).frames = s.frames := rfl
@[simp] theorem State.setCtx_round (s : State) (c : Nat) (x : Ctx) : (s.setCtx c x).round = s.round := rfl
@[simp] theorem State.setCtx_arb (s : State) (c : Nat) (x : Ctx) : (s.setCtx c x).arb = s.arb := rfl
@[simp] theorem State.setCtx_rel (s : State) (c : Nat) (x : Ctx) : (s.setCtx c x).rel = s.rel := rfl
@[simp] theorem State.setCtx_sec (s : State) (c : Nat) (x : Ctx) : (s.setCtx c x).sec = s.sec := rfl
@[simp] theorem State.setCtx_net (s : State) (c : Nat) (x : Ctx) : (s.setCtx c x).net = s.net := rfl
@[simp] theorem State.setCtx_store (s : State) (c : Nat) (x : Ctx) : (s.setCtx c x).store = s.store := rfl
@[simp] theorem State.setCtx_agenda (s : State) (c : Nat) (x : Ctx) : (s.setCtx c x).agenda = s.agenda := rfl
@[simp] theorem State.setCtx_cur (s : State) (c : Nat) (x : Ctx) : (s.setCtx c x).cur = s.cur := rfl
@[simp] theorem State.setCtx_turn (s : State) (c : Nat) (x : Ctx) : (s.setCtx c x).turn = s.turn := rfl
@[simp] theorem State.setCtx_tick (s : State) (c : Nat) (x : Ctx) : (s.setCtx c x).tick = s.tick := rfl
@[simp] theorem State.setCtx_nextId (s : State) (c : Nat) (x : Ctx) : (s.setCtx c x).nextId = s.nextId := rfl
@[simp] theorem State.setCtx_resp (s : State) (c : Nat) (x : Ctx) : (s.setCtx c x).resp = s.resp := rfl
@[simp] theorem State.setCtx_ctxs (s : State) (c : Nat) (x : Ctx) : (s.setCtx c x).ctxs = Tab.put s.ctxs c x := rfl

/-! ## setQueue -/

@[simp] theorem State.setQueue_mem (s : State) (q : Nat) (x : Queue) : (s.setQueue q x).mem = s.mem := rfl
@[simp] theorem State.setQueue_poison (s : State) (q : Nat) (x : Queue) : (s.setQueue q x).poison = s.poison := rfl
@[simp] theorem State.setQueue_sliceBad (s : State) (q : Nat) (x : Queue) : (s.setQueue q x).sliceBad = s.sliceBad := rfl
@[simp] theorem State.setQueue_syncBad (s : State) (q : Nat) (x : Queue) : (s.setQueue q x).syncBad = s.syncBad := rfl
@[simp] theorem State.setQueue_badWord (s : State) (q : Nat) (x : Queue) : (s.setQueue q x).badWord = s.badWord := rfl
@[simp] theorem State.setQueue_outBad (s : State) (q : Nat) (x : Queue) : (s.setQueue q x).outBad = s.outBad := rfl
@[simp] theorem State.setQueue_crews (s : State) (q : Nat) (x : Queue) : (s.setQueue q x).crews = s.crews := rfl
@[simp] theorem State.setQueue_gangs (s : State) (q : Nat) (x : Queue) : (s.setQueue q x).gangs = s.gangs := rfl
@[simp] theorem State.setQueue_grids (s : State) (q : Nat) (x : Queue) : (s.setQueue q x).grids = s.grids := rfl
@[simp] theorem State.setQueue_cores (s : State) (q : Nat) (x : Queue) : (s.setQueue q x).cores = s.cores := rfl
@[simp] theorem State.setQueue_ctxs (s : State) (q : Nat) (x : Queue) : (s.setQueue q x).ctxs = s.ctxs := rfl
@[simp] theorem State.setQueue_evAll (s : State) (q : Nat) (x : Queue) : (s.setQueue q x).evAll = s.evAll := rfl
@[simp] theorem State.setQueue_pool (s : State) (q : Nat) (x : Queue) : (s.setQueue q x).pool = s.pool := rfl
@[simp] theorem State.setQueue_poolQ (s : State) (q : Nat) (x : Queue) : (s.setQueue q x).poolQ = s.poolQ := rfl
@[simp] theorem State.setQueue_arrive (s : State) (q : Nat) (x : Queue) : (s.setQueue q x).arrive = s.arrive := rfl
@[simp] theorem State.setQueue_waits (s : State) (q : Nat) (x : Queue) : (s.setQueue q x).waits = s.waits := rfl
@[simp] theorem State.setQueue_cmds (s : State) (q : Nat) (x : Queue) : (s.setQueue q x).cmds = s.cmds := rfl
@[simp] theorem State.setQueue_lltlb (s : State) (q : Nat) (x : Queue) : (s.setQueue q x).lltlb = s.lltlb := rfl
@[simp] theorem State.setQueue_frames (s : State) (q : Nat) (x : Queue) : (s.setQueue q x).frames = s.frames := rfl
@[simp] theorem State.setQueue_round (s : State) (q : Nat) (x : Queue) : (s.setQueue q x).round = s.round := rfl
@[simp] theorem State.setQueue_arb (s : State) (q : Nat) (x : Queue) : (s.setQueue q x).arb = s.arb := rfl
@[simp] theorem State.setQueue_rel (s : State) (q : Nat) (x : Queue) : (s.setQueue q x).rel = s.rel := rfl
@[simp] theorem State.setQueue_sec (s : State) (q : Nat) (x : Queue) : (s.setQueue q x).sec = s.sec := rfl
@[simp] theorem State.setQueue_net (s : State) (q : Nat) (x : Queue) : (s.setQueue q x).net = s.net := rfl
@[simp] theorem State.setQueue_store (s : State) (q : Nat) (x : Queue) : (s.setQueue q x).store = s.store := rfl
@[simp] theorem State.setQueue_agenda (s : State) (q : Nat) (x : Queue) : (s.setQueue q x).agenda = s.agenda := rfl
@[simp] theorem State.setQueue_cur (s : State) (q : Nat) (x : Queue) : (s.setQueue q x).cur = s.cur := rfl
@[simp] theorem State.setQueue_turn (s : State) (q : Nat) (x : Queue) : (s.setQueue q x).turn = s.turn := rfl
@[simp] theorem State.setQueue_tick (s : State) (q : Nat) (x : Queue) : (s.setQueue q x).tick = s.tick := rfl
@[simp] theorem State.setQueue_nextId (s : State) (q : Nat) (x : Queue) : (s.setQueue q x).nextId = s.nextId := rfl
@[simp] theorem State.setQueue_resp (s : State) (q : Nat) (x : Queue) : (s.setQueue q x).resp = s.resp := rfl
@[simp] theorem State.setQueue_queues (s : State) (q : Nat) (x : Queue) : (s.setQueue q x).queues = Tab.put s.queues q x := rfl

/-! ## Lookups after updates of another table -/

@[simp] theorem State.setCrew_gangOpt (s : State) (c : Nat) (x : Crew) (j : Nat) : (s.setCrew c x).gang? j = s.gang? j := rfl
@[simp] theorem State.setCrew_gridOpt (s : State) (c : Nat) (x : Crew) (j : Nat) : (s.setCrew c x).grid? j = s.grid? j := rfl
@[simp] theorem State.setCrew_core (s : State) (c : Nat) (x : Crew) (j : Nat) : (s.setCrew c x).core j = s.core j := rfl
@[simp] theorem State.setCrew_ctx (s : State) (c : Nat) (x : Crew) (j : Nat) : (s.setCrew c x).ctx j = s.ctx j := rfl
@[simp] theorem State.setCrew_queue (s : State) (c : Nat) (x : Crew) (j : Nat) : (s.setCrew c x).queue j = s.queue j := rfl
@[simp] theorem State.setGang_crewOpt (s : State) (g : Nat) (x : Gang) (j : Nat) : (s.setGang g x).crew? j = s.crew? j := rfl
@[simp] theorem State.setGang_gridOpt (s : State) (g : Nat) (x : Gang) (j : Nat) : (s.setGang g x).grid? j = s.grid? j := rfl
@[simp] theorem State.setGang_core (s : State) (g : Nat) (x : Gang) (j : Nat) : (s.setGang g x).core j = s.core j := rfl
@[simp] theorem State.setGang_ctx (s : State) (g : Nat) (x : Gang) (j : Nat) : (s.setGang g x).ctx j = s.ctx j := rfl
@[simp] theorem State.setGang_queue (s : State) (g : Nat) (x : Gang) (j : Nat) : (s.setGang g x).queue j = s.queue j := rfl
@[simp] theorem State.setGrid_crewOpt (s : State) (l : Nat) (x : Grid) (j : Nat) : (s.setGrid l x).crew? j = s.crew? j := rfl
@[simp] theorem State.setGrid_gangOpt (s : State) (l : Nat) (x : Grid) (j : Nat) : (s.setGrid l x).gang? j = s.gang? j := rfl
@[simp] theorem State.setGrid_core (s : State) (l : Nat) (x : Grid) (j : Nat) : (s.setGrid l x).core j = s.core j := rfl
@[simp] theorem State.setGrid_ctx (s : State) (l : Nat) (x : Grid) (j : Nat) : (s.setGrid l x).ctx j = s.ctx j := rfl
@[simp] theorem State.setGrid_queue (s : State) (l : Nat) (x : Grid) (j : Nat) : (s.setGrid l x).queue j = s.queue j := rfl
@[simp] theorem State.setCore_crewOpt (s : State) (k : Nat) (x : Core) (j : Nat) : (s.setCore k x).crew? j = s.crew? j := rfl
@[simp] theorem State.setCore_gangOpt (s : State) (k : Nat) (x : Core) (j : Nat) : (s.setCore k x).gang? j = s.gang? j := rfl
@[simp] theorem State.setCore_gridOpt (s : State) (k : Nat) (x : Core) (j : Nat) : (s.setCore k x).grid? j = s.grid? j := rfl
@[simp] theorem State.setCore_ctx (s : State) (k : Nat) (x : Core) (j : Nat) : (s.setCore k x).ctx j = s.ctx j := rfl
@[simp] theorem State.setCore_queue (s : State) (k : Nat) (x : Core) (j : Nat) : (s.setCore k x).queue j = s.queue j := rfl
@[simp] theorem State.setCtx_crewOpt (s : State) (c : Nat) (x : Ctx) (j : Nat) : (s.setCtx c x).crew? j = s.crew? j := rfl
@[simp] theorem State.setCtx_gangOpt (s : State) (c : Nat) (x : Ctx) (j : Nat) : (s.setCtx c x).gang? j = s.gang? j := rfl
@[simp] theorem State.setCtx_gridOpt (s : State) (c : Nat) (x : Ctx) (j : Nat) : (s.setCtx c x).grid? j = s.grid? j := rfl
@[simp] theorem State.setCtx_core (s : State) (c : Nat) (x : Ctx) (j : Nat) : (s.setCtx c x).core j = s.core j := rfl
@[simp] theorem State.setCtx_queue (s : State) (c : Nat) (x : Ctx) (j : Nat) : (s.setCtx c x).queue j = s.queue j := rfl
@[simp] theorem State.setQueue_crewOpt (s : State) (q : Nat) (x : Queue) (j : Nat) : (s.setQueue q x).crew? j = s.crew? j := rfl
@[simp] theorem State.setQueue_gangOpt (s : State) (q : Nat) (x : Queue) (j : Nat) : (s.setQueue q x).gang? j = s.gang? j := rfl
@[simp] theorem State.setQueue_gridOpt (s : State) (q : Nat) (x : Queue) (j : Nat) : (s.setQueue q x).grid? j = s.grid? j := rfl
@[simp] theorem State.setQueue_core (s : State) (q : Nat) (x : Queue) (j : Nat) : (s.setQueue q x).core j = s.core j := rfl
@[simp] theorem State.setQueue_ctx (s : State) (q : Nat) (x : Queue) (j : Nat) : (s.setQueue q x).ctx j = s.ctx j := rfl

/-! ## Lookups after updates of the same table -/

@[simp] theorem State.crew_setCrew (s : State) (c : Nat) (x : Crew) : (s.setCrew c x).crew? c = some x :=
  Tab.at?_put_self s.crews c x
theorem State.crew_setCrew_ne (s : State) (c d : Nat) (x : Crew) (h : c ≠ d) : (s.setCrew c x).crew? d = s.crew? d :=
  Tab.at?_put_ne s.crews c d x h
@[simp] theorem State.gang_setGang (s : State) (g : Nat) (x : Gang) : (s.setGang g x).gang? g = some x :=
  Tab.at?_put_self s.gangs g x
theorem State.gang_setGang_ne (s : State) (g d : Nat) (x : Gang) (h : g ≠ d) : (s.setGang g x).gang? d = s.gang? d :=
  Tab.at?_put_ne s.gangs g d x h
@[simp] theorem State.grid_setGrid (s : State) (l : Nat) (x : Grid) : (s.setGrid l x).grid? l = some x :=
  Tab.at?_put_self s.grids l x
@[simp] theorem State.core_setCore (s : State) (k : Nat) (x : Core) : (s.setCore k x).core k = x :=
  Tab.getD_put_self s.cores k x _
theorem State.core_setCore_ne (s : State) (k j : Nat) (x : Core) (h : k ≠ j) : (s.setCore k x).core j = s.core j :=
  Tab.getD_put_ne s.cores k j x _ h
@[simp] theorem State.ctx_setCtx (s : State) (c : Nat) (x : Ctx) : (s.setCtx c x).ctx c = x :=
  Tab.getD_put_self s.ctxs c x _
theorem State.ctx_setCtx_ne (s : State) (c d : Nat) (x : Ctx) (h : c ≠ d) : (s.setCtx c x).ctx d = s.ctx d :=
  Tab.getD_put_ne s.ctxs c d x _ h
@[simp] theorem State.queue_setQueue (s : State) (q : Nat) (x : Queue) : (s.setQueue q x).queue q = x :=
  Tab.getD_put_self s.queues q x _

/-! ## Two updates of one key, and updates of different tables -/

@[simp] theorem State.setCrew_setCrew (s : State) (c : Nat) (x y : Crew) : (s.setCrew c x).setCrew c y = s.setCrew c y := by
  simp [State.setCrew]
@[simp] theorem State.setCore_setCore (s : State) (k : Nat) (x y : Core) : (s.setCore k x).setCore k y = s.setCore k y := by
  simp [State.setCore]
@[simp] theorem State.setGang_setGang (s : State) (g : Nat) (x y : Gang) : (s.setGang g x).setGang g y = s.setGang g y := by
  simp [State.setGang]
theorem State.setCore_setCrew (s : State) (k c : Nat) (w : Core) (x : Crew) :
    (s.setCore k w).setCrew c x = (s.setCrew c x).setCore k w := rfl
theorem State.setGang_setCrew (s : State) (g c : Nat) (w : Gang) (x : Crew) :
    (s.setGang g w).setCrew c x = (s.setCrew c x).setGang g w := rfl

/-! ## The conditional updates -/

theorem State.modCrew_of (s : State) (c : Nat) (x : Crew) (f : Crew → Crew) (h : s.crew? c = some x) :
    s.modCrew c f = s.setCrew c (f x) := by
  simp [State.modCrew, h]
theorem State.modGang_of (s : State) (g : Nat) (x : Gang) (f : Gang → Gang) (h : s.gang? g = some x) :
    s.modGang g f = s.setGang g (f x) := by
  simp [State.modGang, h]
theorem State.modGrid_of (s : State) (l : Nat) (x : Grid) (f : Grid → Grid) (h : s.grid? l = some x) :
    s.modGrid l f = s.setGrid l (f x) := by
  simp [State.modGrid, h]
@[simp] theorem State.modCrew_mem (s : State) (c : Nat) (f : Crew → Crew) : (s.modCrew c f).mem = s.mem := by
  unfold State.modCrew; split <;> rfl
@[simp] theorem State.modCrew_poison (s : State) (c : Nat) (f : Crew → Crew) : (s.modCrew c f).poison = s.poison := by
  unfold State.modCrew; split <;> rfl
@[simp] theorem State.modCrew_sliceBad (s : State) (c : Nat) (f : Crew → Crew) : (s.modCrew c f).sliceBad = s.sliceBad := by
  unfold State.modCrew; split <;> rfl
@[simp] theorem State.modCrew_syncBad (s : State) (c : Nat) (f : Crew → Crew) : (s.modCrew c f).syncBad = s.syncBad := by
  unfold State.modCrew; split <;> rfl
@[simp] theorem State.modCrew_badWord (s : State) (c : Nat) (f : Crew → Crew) : (s.modCrew c f).badWord = s.badWord := by
  unfold State.modCrew; split <;> rfl
@[simp] theorem State.modCrew_outBad (s : State) (c : Nat) (f : Crew → Crew) : (s.modCrew c f).outBad = s.outBad := by
  unfold State.modCrew; split <;> rfl
@[simp] theorem State.modCrew_gangs (s : State) (c : Nat) (f : Crew → Crew) : (s.modCrew c f).gangs = s.gangs := by
  unfold State.modCrew; split <;> rfl
@[simp] theorem State.modCrew_grids (s : State) (c : Nat) (f : Crew → Crew) : (s.modCrew c f).grids = s.grids := by
  unfold State.modCrew; split <;> rfl
@[simp] theorem State.modCrew_cores (s : State) (c : Nat) (f : Crew → Crew) : (s.modCrew c f).cores = s.cores := by
  unfold State.modCrew; split <;> rfl
@[simp] theorem State.modCrew_ctxs (s : State) (c : Nat) (f : Crew → Crew) : (s.modCrew c f).ctxs = s.ctxs := by
  unfold State.modCrew; split <;> rfl
@[simp] theorem State.modCrew_evAll (s : State) (c : Nat) (f : Crew → Crew) : (s.modCrew c f).evAll = s.evAll := by
  unfold State.modCrew; split <;> rfl
@[simp] theorem State.modCrew_queues (s : State) (c : Nat) (f : Crew → Crew) : (s.modCrew c f).queues = s.queues := by
  unfold State.modCrew; split <;> rfl
@[simp] theorem State.modCrew_pool (s : State) (c : Nat) (f : Crew → Crew) : (s.modCrew c f).pool = s.pool := by
  unfold State.modCrew; split <;> rfl
@[simp] theorem State.modCrew_poolQ (s : State) (c : Nat) (f : Crew → Crew) : (s.modCrew c f).poolQ = s.poolQ := by
  unfold State.modCrew; split <;> rfl
@[simp] theorem State.modCrew_arrive (s : State) (c : Nat) (f : Crew → Crew) : (s.modCrew c f).arrive = s.arrive := by
  unfold State.modCrew; split <;> rfl
@[simp] theorem State.modCrew_waits (s : State) (c : Nat) (f : Crew → Crew) : (s.modCrew c f).waits = s.waits := by
  unfold State.modCrew; split <;> rfl
@[simp] theorem State.modCrew_cmds (s : State) (c : Nat) (f : Crew → Crew) : (s.modCrew c f).cmds = s.cmds := by
  unfold State.modCrew; split <;> rfl
@[simp] theorem State.modCrew_lltlb (s : State) (c : Nat) (f : Crew → Crew) : (s.modCrew c f).lltlb = s.lltlb := by
  unfold State.modCrew; split <;> rfl
@[simp] theorem State.modCrew_frames (s : State) (c : Nat) (f : Crew → Crew) : (s.modCrew c f).frames = s.frames := by
  unfold State.modCrew; split <;> rfl
@[simp] theorem State.modCrew_round (s : State) (c : Nat) (f : Crew → Crew) : (s.modCrew c f).round = s.round := by
  unfold State.modCrew; split <;> rfl
@[simp] theorem State.modCrew_arb (s : State) (c : Nat) (f : Crew → Crew) : (s.modCrew c f).arb = s.arb := by
  unfold State.modCrew; split <;> rfl
@[simp] theorem State.modCrew_rel (s : State) (c : Nat) (f : Crew → Crew) : (s.modCrew c f).rel = s.rel := by
  unfold State.modCrew; split <;> rfl
@[simp] theorem State.modCrew_sec (s : State) (c : Nat) (f : Crew → Crew) : (s.modCrew c f).sec = s.sec := by
  unfold State.modCrew; split <;> rfl
@[simp] theorem State.modCrew_net (s : State) (c : Nat) (f : Crew → Crew) : (s.modCrew c f).net = s.net := by
  unfold State.modCrew; split <;> rfl
@[simp] theorem State.modCrew_store (s : State) (c : Nat) (f : Crew → Crew) : (s.modCrew c f).store = s.store := by
  unfold State.modCrew; split <;> rfl
@[simp] theorem State.modCrew_agenda (s : State) (c : Nat) (f : Crew → Crew) : (s.modCrew c f).agenda = s.agenda := by
  unfold State.modCrew; split <;> rfl
@[simp] theorem State.modCrew_cur (s : State) (c : Nat) (f : Crew → Crew) : (s.modCrew c f).cur = s.cur := by
  unfold State.modCrew; split <;> rfl
@[simp] theorem State.modCrew_turn (s : State) (c : Nat) (f : Crew → Crew) : (s.modCrew c f).turn = s.turn := by
  unfold State.modCrew; split <;> rfl
@[simp] theorem State.modCrew_tick (s : State) (c : Nat) (f : Crew → Crew) : (s.modCrew c f).tick = s.tick := by
  unfold State.modCrew; split <;> rfl
@[simp] theorem State.modCrew_nextId (s : State) (c : Nat) (f : Crew → Crew) : (s.modCrew c f).nextId = s.nextId := by
  unfold State.modCrew; split <;> rfl
@[simp] theorem State.modCrew_resp (s : State) (c : Nat) (f : Crew → Crew) : (s.modCrew c f).resp = s.resp := by
  unfold State.modCrew; split <;> rfl
@[simp] theorem State.modGang_mem (s : State) (c : Nat) (f : Gang → Gang) : (s.modGang c f).mem = s.mem := by
  unfold State.modGang; split <;> rfl
@[simp] theorem State.modGang_poison (s : State) (c : Nat) (f : Gang → Gang) : (s.modGang c f).poison = s.poison := by
  unfold State.modGang; split <;> rfl
@[simp] theorem State.modGang_sliceBad (s : State) (c : Nat) (f : Gang → Gang) : (s.modGang c f).sliceBad = s.sliceBad := by
  unfold State.modGang; split <;> rfl
@[simp] theorem State.modGang_syncBad (s : State) (c : Nat) (f : Gang → Gang) : (s.modGang c f).syncBad = s.syncBad := by
  unfold State.modGang; split <;> rfl
@[simp] theorem State.modGang_badWord (s : State) (c : Nat) (f : Gang → Gang) : (s.modGang c f).badWord = s.badWord := by
  unfold State.modGang; split <;> rfl
@[simp] theorem State.modGang_outBad (s : State) (c : Nat) (f : Gang → Gang) : (s.modGang c f).outBad = s.outBad := by
  unfold State.modGang; split <;> rfl
@[simp] theorem State.modGang_crews (s : State) (c : Nat) (f : Gang → Gang) : (s.modGang c f).crews = s.crews := by
  unfold State.modGang; split <;> rfl
@[simp] theorem State.modGang_grids (s : State) (c : Nat) (f : Gang → Gang) : (s.modGang c f).grids = s.grids := by
  unfold State.modGang; split <;> rfl
@[simp] theorem State.modGang_cores (s : State) (c : Nat) (f : Gang → Gang) : (s.modGang c f).cores = s.cores := by
  unfold State.modGang; split <;> rfl
@[simp] theorem State.modGang_ctxs (s : State) (c : Nat) (f : Gang → Gang) : (s.modGang c f).ctxs = s.ctxs := by
  unfold State.modGang; split <;> rfl
@[simp] theorem State.modGang_evAll (s : State) (c : Nat) (f : Gang → Gang) : (s.modGang c f).evAll = s.evAll := by
  unfold State.modGang; split <;> rfl
@[simp] theorem State.modGang_queues (s : State) (c : Nat) (f : Gang → Gang) : (s.modGang c f).queues = s.queues := by
  unfold State.modGang; split <;> rfl
@[simp] theorem State.modGang_pool (s : State) (c : Nat) (f : Gang → Gang) : (s.modGang c f).pool = s.pool := by
  unfold State.modGang; split <;> rfl
@[simp] theorem State.modGang_poolQ (s : State) (c : Nat) (f : Gang → Gang) : (s.modGang c f).poolQ = s.poolQ := by
  unfold State.modGang; split <;> rfl
@[simp] theorem State.modGang_arrive (s : State) (c : Nat) (f : Gang → Gang) : (s.modGang c f).arrive = s.arrive := by
  unfold State.modGang; split <;> rfl
@[simp] theorem State.modGang_waits (s : State) (c : Nat) (f : Gang → Gang) : (s.modGang c f).waits = s.waits := by
  unfold State.modGang; split <;> rfl
@[simp] theorem State.modGang_cmds (s : State) (c : Nat) (f : Gang → Gang) : (s.modGang c f).cmds = s.cmds := by
  unfold State.modGang; split <;> rfl
@[simp] theorem State.modGang_lltlb (s : State) (c : Nat) (f : Gang → Gang) : (s.modGang c f).lltlb = s.lltlb := by
  unfold State.modGang; split <;> rfl
@[simp] theorem State.modGang_frames (s : State) (c : Nat) (f : Gang → Gang) : (s.modGang c f).frames = s.frames := by
  unfold State.modGang; split <;> rfl
@[simp] theorem State.modGang_round (s : State) (c : Nat) (f : Gang → Gang) : (s.modGang c f).round = s.round := by
  unfold State.modGang; split <;> rfl
@[simp] theorem State.modGang_arb (s : State) (c : Nat) (f : Gang → Gang) : (s.modGang c f).arb = s.arb := by
  unfold State.modGang; split <;> rfl
@[simp] theorem State.modGang_rel (s : State) (c : Nat) (f : Gang → Gang) : (s.modGang c f).rel = s.rel := by
  unfold State.modGang; split <;> rfl
@[simp] theorem State.modGang_sec (s : State) (c : Nat) (f : Gang → Gang) : (s.modGang c f).sec = s.sec := by
  unfold State.modGang; split <;> rfl
@[simp] theorem State.modGang_net (s : State) (c : Nat) (f : Gang → Gang) : (s.modGang c f).net = s.net := by
  unfold State.modGang; split <;> rfl
@[simp] theorem State.modGang_store (s : State) (c : Nat) (f : Gang → Gang) : (s.modGang c f).store = s.store := by
  unfold State.modGang; split <;> rfl
@[simp] theorem State.modGang_agenda (s : State) (c : Nat) (f : Gang → Gang) : (s.modGang c f).agenda = s.agenda := by
  unfold State.modGang; split <;> rfl
@[simp] theorem State.modGang_cur (s : State) (c : Nat) (f : Gang → Gang) : (s.modGang c f).cur = s.cur := by
  unfold State.modGang; split <;> rfl
@[simp] theorem State.modGang_turn (s : State) (c : Nat) (f : Gang → Gang) : (s.modGang c f).turn = s.turn := by
  unfold State.modGang; split <;> rfl
@[simp] theorem State.modGang_tick (s : State) (c : Nat) (f : Gang → Gang) : (s.modGang c f).tick = s.tick := by
  unfold State.modGang; split <;> rfl
@[simp] theorem State.modGang_nextId (s : State) (c : Nat) (f : Gang → Gang) : (s.modGang c f).nextId = s.nextId := by
  unfold State.modGang; split <;> rfl
@[simp] theorem State.modGang_resp (s : State) (c : Nat) (f : Gang → Gang) : (s.modGang c f).resp = s.resp := by
  unfold State.modGang; split <;> rfl
@[simp] theorem State.modGrid_mem (s : State) (c : Nat) (f : Grid → Grid) : (s.modGrid c f).mem = s.mem := by
  unfold State.modGrid; split <;> rfl
@[simp] theorem State.modGrid_poison (s : State) (c : Nat) (f : Grid → Grid) : (s.modGrid c f).poison = s.poison := by
  unfold State.modGrid; split <;> rfl
@[simp] theorem State.modGrid_sliceBad (s : State) (c : Nat) (f : Grid → Grid) : (s.modGrid c f).sliceBad = s.sliceBad := by
  unfold State.modGrid; split <;> rfl
@[simp] theorem State.modGrid_syncBad (s : State) (c : Nat) (f : Grid → Grid) : (s.modGrid c f).syncBad = s.syncBad := by
  unfold State.modGrid; split <;> rfl
@[simp] theorem State.modGrid_badWord (s : State) (c : Nat) (f : Grid → Grid) : (s.modGrid c f).badWord = s.badWord := by
  unfold State.modGrid; split <;> rfl
@[simp] theorem State.modGrid_outBad (s : State) (c : Nat) (f : Grid → Grid) : (s.modGrid c f).outBad = s.outBad := by
  unfold State.modGrid; split <;> rfl
@[simp] theorem State.modGrid_crews (s : State) (c : Nat) (f : Grid → Grid) : (s.modGrid c f).crews = s.crews := by
  unfold State.modGrid; split <;> rfl
@[simp] theorem State.modGrid_gangs (s : State) (c : Nat) (f : Grid → Grid) : (s.modGrid c f).gangs = s.gangs := by
  unfold State.modGrid; split <;> rfl
@[simp] theorem State.modGrid_cores (s : State) (c : Nat) (f : Grid → Grid) : (s.modGrid c f).cores = s.cores := by
  unfold State.modGrid; split <;> rfl
@[simp] theorem State.modGrid_ctxs (s : State) (c : Nat) (f : Grid → Grid) : (s.modGrid c f).ctxs = s.ctxs := by
  unfold State.modGrid; split <;> rfl
@[simp] theorem State.modGrid_evAll (s : State) (c : Nat) (f : Grid → Grid) : (s.modGrid c f).evAll = s.evAll := by
  unfold State.modGrid; split <;> rfl
@[simp] theorem State.modGrid_queues (s : State) (c : Nat) (f : Grid → Grid) : (s.modGrid c f).queues = s.queues := by
  unfold State.modGrid; split <;> rfl
@[simp] theorem State.modGrid_pool (s : State) (c : Nat) (f : Grid → Grid) : (s.modGrid c f).pool = s.pool := by
  unfold State.modGrid; split <;> rfl
@[simp] theorem State.modGrid_poolQ (s : State) (c : Nat) (f : Grid → Grid) : (s.modGrid c f).poolQ = s.poolQ := by
  unfold State.modGrid; split <;> rfl
@[simp] theorem State.modGrid_arrive (s : State) (c : Nat) (f : Grid → Grid) : (s.modGrid c f).arrive = s.arrive := by
  unfold State.modGrid; split <;> rfl
@[simp] theorem State.modGrid_waits (s : State) (c : Nat) (f : Grid → Grid) : (s.modGrid c f).waits = s.waits := by
  unfold State.modGrid; split <;> rfl
@[simp] theorem State.modGrid_cmds (s : State) (c : Nat) (f : Grid → Grid) : (s.modGrid c f).cmds = s.cmds := by
  unfold State.modGrid; split <;> rfl
@[simp] theorem State.modGrid_lltlb (s : State) (c : Nat) (f : Grid → Grid) : (s.modGrid c f).lltlb = s.lltlb := by
  unfold State.modGrid; split <;> rfl
@[simp] theorem State.modGrid_frames (s : State) (c : Nat) (f : Grid → Grid) : (s.modGrid c f).frames = s.frames := by
  unfold State.modGrid; split <;> rfl
@[simp] theorem State.modGrid_round (s : State) (c : Nat) (f : Grid → Grid) : (s.modGrid c f).round = s.round := by
  unfold State.modGrid; split <;> rfl
@[simp] theorem State.modGrid_arb (s : State) (c : Nat) (f : Grid → Grid) : (s.modGrid c f).arb = s.arb := by
  unfold State.modGrid; split <;> rfl
@[simp] theorem State.modGrid_rel (s : State) (c : Nat) (f : Grid → Grid) : (s.modGrid c f).rel = s.rel := by
  unfold State.modGrid; split <;> rfl
@[simp] theorem State.modGrid_sec (s : State) (c : Nat) (f : Grid → Grid) : (s.modGrid c f).sec = s.sec := by
  unfold State.modGrid; split <;> rfl
@[simp] theorem State.modGrid_net (s : State) (c : Nat) (f : Grid → Grid) : (s.modGrid c f).net = s.net := by
  unfold State.modGrid; split <;> rfl
@[simp] theorem State.modGrid_store (s : State) (c : Nat) (f : Grid → Grid) : (s.modGrid c f).store = s.store := by
  unfold State.modGrid; split <;> rfl
@[simp] theorem State.modGrid_agenda (s : State) (c : Nat) (f : Grid → Grid) : (s.modGrid c f).agenda = s.agenda := by
  unfold State.modGrid; split <;> rfl
@[simp] theorem State.modGrid_cur (s : State) (c : Nat) (f : Grid → Grid) : (s.modGrid c f).cur = s.cur := by
  unfold State.modGrid; split <;> rfl
@[simp] theorem State.modGrid_turn (s : State) (c : Nat) (f : Grid → Grid) : (s.modGrid c f).turn = s.turn := by
  unfold State.modGrid; split <;> rfl
@[simp] theorem State.modGrid_tick (s : State) (c : Nat) (f : Grid → Grid) : (s.modGrid c f).tick = s.tick := by
  unfold State.modGrid; split <;> rfl
@[simp] theorem State.modGrid_nextId (s : State) (c : Nat) (f : Grid → Grid) : (s.modGrid c f).nextId = s.nextId := by
  unfold State.modGrid; split <;> rfl
@[simp] theorem State.modGrid_resp (s : State) (c : Nat) (f : Grid → Grid) : (s.modGrid c f).resp = s.resp := by
  unfold State.modGrid; split <;> rfl
@[simp] theorem State.modCore_mem (s : State) (c : Nat) (f : Core → Core) : (s.modCore c f).mem = s.mem := rfl
@[simp] theorem State.modCore_poison (s : State) (c : Nat) (f : Core → Core) : (s.modCore c f).poison = s.poison := rfl
@[simp] theorem State.modCore_sliceBad (s : State) (c : Nat) (f : Core → Core) : (s.modCore c f).sliceBad = s.sliceBad := rfl
@[simp] theorem State.modCore_syncBad (s : State) (c : Nat) (f : Core → Core) : (s.modCore c f).syncBad = s.syncBad := rfl
@[simp] theorem State.modCore_badWord (s : State) (c : Nat) (f : Core → Core) : (s.modCore c f).badWord = s.badWord := rfl
@[simp] theorem State.modCore_outBad (s : State) (c : Nat) (f : Core → Core) : (s.modCore c f).outBad = s.outBad := rfl
@[simp] theorem State.modCore_crews (s : State) (c : Nat) (f : Core → Core) : (s.modCore c f).crews = s.crews := rfl
@[simp] theorem State.modCore_gangs (s : State) (c : Nat) (f : Core → Core) : (s.modCore c f).gangs = s.gangs := rfl
@[simp] theorem State.modCore_grids (s : State) (c : Nat) (f : Core → Core) : (s.modCore c f).grids = s.grids := rfl
@[simp] theorem State.modCore_ctxs (s : State) (c : Nat) (f : Core → Core) : (s.modCore c f).ctxs = s.ctxs := rfl
@[simp] theorem State.modCore_evAll (s : State) (c : Nat) (f : Core → Core) : (s.modCore c f).evAll = s.evAll := rfl
@[simp] theorem State.modCore_queues (s : State) (c : Nat) (f : Core → Core) : (s.modCore c f).queues = s.queues := rfl
@[simp] theorem State.modCore_pool (s : State) (c : Nat) (f : Core → Core) : (s.modCore c f).pool = s.pool := rfl
@[simp] theorem State.modCore_poolQ (s : State) (c : Nat) (f : Core → Core) : (s.modCore c f).poolQ = s.poolQ := rfl
@[simp] theorem State.modCore_arrive (s : State) (c : Nat) (f : Core → Core) : (s.modCore c f).arrive = s.arrive := rfl
@[simp] theorem State.modCore_waits (s : State) (c : Nat) (f : Core → Core) : (s.modCore c f).waits = s.waits := rfl
@[simp] theorem State.modCore_cmds (s : State) (c : Nat) (f : Core → Core) : (s.modCore c f).cmds = s.cmds := rfl
@[simp] theorem State.modCore_lltlb (s : State) (c : Nat) (f : Core → Core) : (s.modCore c f).lltlb = s.lltlb := rfl
@[simp] theorem State.modCore_frames (s : State) (c : Nat) (f : Core → Core) : (s.modCore c f).frames = s.frames := rfl
@[simp] theorem State.modCore_round (s : State) (c : Nat) (f : Core → Core) : (s.modCore c f).round = s.round := rfl
@[simp] theorem State.modCore_arb (s : State) (c : Nat) (f : Core → Core) : (s.modCore c f).arb = s.arb := rfl
@[simp] theorem State.modCore_rel (s : State) (c : Nat) (f : Core → Core) : (s.modCore c f).rel = s.rel := rfl
@[simp] theorem State.modCore_sec (s : State) (c : Nat) (f : Core → Core) : (s.modCore c f).sec = s.sec := rfl
@[simp] theorem State.modCore_net (s : State) (c : Nat) (f : Core → Core) : (s.modCore c f).net = s.net := rfl
@[simp] theorem State.modCore_store (s : State) (c : Nat) (f : Core → Core) : (s.modCore c f).store = s.store := rfl
@[simp] theorem State.modCore_agenda (s : State) (c : Nat) (f : Core → Core) : (s.modCore c f).agenda = s.agenda := rfl
@[simp] theorem State.modCore_cur (s : State) (c : Nat) (f : Core → Core) : (s.modCore c f).cur = s.cur := rfl
@[simp] theorem State.modCore_turn (s : State) (c : Nat) (f : Core → Core) : (s.modCore c f).turn = s.turn := rfl
@[simp] theorem State.modCore_tick (s : State) (c : Nat) (f : Core → Core) : (s.modCore c f).tick = s.tick := rfl
@[simp] theorem State.modCore_nextId (s : State) (c : Nat) (f : Core → Core) : (s.modCore c f).nextId = s.nextId := rfl
@[simp] theorem State.modCore_resp (s : State) (c : Nat) (f : Core → Core) : (s.modCore c f).resp = s.resp := rfl
@[simp] theorem State.modCtx_mem (s : State) (c : Nat) (f : Ctx → Ctx) : (s.modCtx c f).mem = s.mem := rfl
@[simp] theorem State.modCtx_poison (s : State) (c : Nat) (f : Ctx → Ctx) : (s.modCtx c f).poison = s.poison := rfl
@[simp] theorem State.modCtx_sliceBad (s : State) (c : Nat) (f : Ctx → Ctx) : (s.modCtx c f).sliceBad = s.sliceBad := rfl
@[simp] theorem State.modCtx_syncBad (s : State) (c : Nat) (f : Ctx → Ctx) : (s.modCtx c f).syncBad = s.syncBad := rfl
@[simp] theorem State.modCtx_badWord (s : State) (c : Nat) (f : Ctx → Ctx) : (s.modCtx c f).badWord = s.badWord := rfl
@[simp] theorem State.modCtx_outBad (s : State) (c : Nat) (f : Ctx → Ctx) : (s.modCtx c f).outBad = s.outBad := rfl
@[simp] theorem State.modCtx_crews (s : State) (c : Nat) (f : Ctx → Ctx) : (s.modCtx c f).crews = s.crews := rfl
@[simp] theorem State.modCtx_gangs (s : State) (c : Nat) (f : Ctx → Ctx) : (s.modCtx c f).gangs = s.gangs := rfl
@[simp] theorem State.modCtx_grids (s : State) (c : Nat) (f : Ctx → Ctx) : (s.modCtx c f).grids = s.grids := rfl
@[simp] theorem State.modCtx_cores (s : State) (c : Nat) (f : Ctx → Ctx) : (s.modCtx c f).cores = s.cores := rfl
@[simp] theorem State.modCtx_evAll (s : State) (c : Nat) (f : Ctx → Ctx) : (s.modCtx c f).evAll = s.evAll := rfl
@[simp] theorem State.modCtx_queues (s : State) (c : Nat) (f : Ctx → Ctx) : (s.modCtx c f).queues = s.queues := rfl
@[simp] theorem State.modCtx_pool (s : State) (c : Nat) (f : Ctx → Ctx) : (s.modCtx c f).pool = s.pool := rfl
@[simp] theorem State.modCtx_poolQ (s : State) (c : Nat) (f : Ctx → Ctx) : (s.modCtx c f).poolQ = s.poolQ := rfl
@[simp] theorem State.modCtx_arrive (s : State) (c : Nat) (f : Ctx → Ctx) : (s.modCtx c f).arrive = s.arrive := rfl
@[simp] theorem State.modCtx_waits (s : State) (c : Nat) (f : Ctx → Ctx) : (s.modCtx c f).waits = s.waits := rfl
@[simp] theorem State.modCtx_cmds (s : State) (c : Nat) (f : Ctx → Ctx) : (s.modCtx c f).cmds = s.cmds := rfl
@[simp] theorem State.modCtx_lltlb (s : State) (c : Nat) (f : Ctx → Ctx) : (s.modCtx c f).lltlb = s.lltlb := rfl
@[simp] theorem State.modCtx_frames (s : State) (c : Nat) (f : Ctx → Ctx) : (s.modCtx c f).frames = s.frames := rfl
@[simp] theorem State.modCtx_round (s : State) (c : Nat) (f : Ctx → Ctx) : (s.modCtx c f).round = s.round := rfl
@[simp] theorem State.modCtx_arb (s : State) (c : Nat) (f : Ctx → Ctx) : (s.modCtx c f).arb = s.arb := rfl
@[simp] theorem State.modCtx_rel (s : State) (c : Nat) (f : Ctx → Ctx) : (s.modCtx c f).rel = s.rel := rfl
@[simp] theorem State.modCtx_sec (s : State) (c : Nat) (f : Ctx → Ctx) : (s.modCtx c f).sec = s.sec := rfl
@[simp] theorem State.modCtx_net (s : State) (c : Nat) (f : Ctx → Ctx) : (s.modCtx c f).net = s.net := rfl
@[simp] theorem State.modCtx_store (s : State) (c : Nat) (f : Ctx → Ctx) : (s.modCtx c f).store = s.store := rfl
@[simp] theorem State.modCtx_agenda (s : State) (c : Nat) (f : Ctx → Ctx) : (s.modCtx c f).agenda = s.agenda := rfl
@[simp] theorem State.modCtx_cur (s : State) (c : Nat) (f : Ctx → Ctx) : (s.modCtx c f).cur = s.cur := rfl
@[simp] theorem State.modCtx_turn (s : State) (c : Nat) (f : Ctx → Ctx) : (s.modCtx c f).turn = s.turn := rfl
@[simp] theorem State.modCtx_tick (s : State) (c : Nat) (f : Ctx → Ctx) : (s.modCtx c f).tick = s.tick := rfl
@[simp] theorem State.modCtx_nextId (s : State) (c : Nat) (f : Ctx → Ctx) : (s.modCtx c f).nextId = s.nextId := rfl
@[simp] theorem State.modCtx_resp (s : State) (c : Nat) (f : Ctx → Ctx) : (s.modCtx c f).resp = s.resp := rfl
@[simp] theorem State.modQueue_mem (s : State) (c : Nat) (f : Queue → Queue) : (s.modQueue c f).mem = s.mem := rfl
@[simp] theorem State.modQueue_poison (s : State) (c : Nat) (f : Queue → Queue) : (s.modQueue c f).poison = s.poison := rfl
@[simp] theorem State.modQueue_sliceBad (s : State) (c : Nat) (f : Queue → Queue) : (s.modQueue c f).sliceBad = s.sliceBad := rfl
@[simp] theorem State.modQueue_syncBad (s : State) (c : Nat) (f : Queue → Queue) : (s.modQueue c f).syncBad = s.syncBad := rfl
@[simp] theorem State.modQueue_badWord (s : State) (c : Nat) (f : Queue → Queue) : (s.modQueue c f).badWord = s.badWord := rfl
@[simp] theorem State.modQueue_outBad (s : State) (c : Nat) (f : Queue → Queue) : (s.modQueue c f).outBad = s.outBad := rfl
@[simp] theorem State.modQueue_crews (s : State) (c : Nat) (f : Queue → Queue) : (s.modQueue c f).crews = s.crews := rfl
@[simp] theorem State.modQueue_gangs (s : State) (c : Nat) (f : Queue → Queue) : (s.modQueue c f).gangs = s.gangs := rfl
@[simp] theorem State.modQueue_grids (s : State) (c : Nat) (f : Queue → Queue) : (s.modQueue c f).grids = s.grids := rfl
@[simp] theorem State.modQueue_cores (s : State) (c : Nat) (f : Queue → Queue) : (s.modQueue c f).cores = s.cores := rfl
@[simp] theorem State.modQueue_ctxs (s : State) (c : Nat) (f : Queue → Queue) : (s.modQueue c f).ctxs = s.ctxs := rfl
@[simp] theorem State.modQueue_evAll (s : State) (c : Nat) (f : Queue → Queue) : (s.modQueue c f).evAll = s.evAll := rfl
@[simp] theorem State.modQueue_pool (s : State) (c : Nat) (f : Queue → Queue) : (s.modQueue c f).pool = s.pool := rfl
@[simp] theorem State.modQueue_poolQ (s : State) (c : Nat) (f : Queue → Queue) : (s.modQueue c f).poolQ = s.poolQ := rfl
@[simp] theorem State.modQueue_arrive (s : State) (c : Nat) (f : Queue → Queue) : (s.modQueue c f).arrive = s.arrive := rfl
@[simp] theorem State.modQueue_waits (s : State) (c : Nat) (f : Queue → Queue) : (s.modQueue c f).waits = s.waits := rfl
@[simp] theorem State.modQueue_cmds (s : State) (c : Nat) (f : Queue → Queue) : (s.modQueue c f).cmds = s.cmds := rfl
@[simp] theorem State.modQueue_lltlb (s : State) (c : Nat) (f : Queue → Queue) : (s.modQueue c f).lltlb = s.lltlb := rfl
@[simp] theorem State.modQueue_frames (s : State) (c : Nat) (f : Queue → Queue) : (s.modQueue c f).frames = s.frames := rfl
@[simp] theorem State.modQueue_round (s : State) (c : Nat) (f : Queue → Queue) : (s.modQueue c f).round = s.round := rfl
@[simp] theorem State.modQueue_arb (s : State) (c : Nat) (f : Queue → Queue) : (s.modQueue c f).arb = s.arb := rfl
@[simp] theorem State.modQueue_rel (s : State) (c : Nat) (f : Queue → Queue) : (s.modQueue c f).rel = s.rel := rfl
@[simp] theorem State.modQueue_sec (s : State) (c : Nat) (f : Queue → Queue) : (s.modQueue c f).sec = s.sec := rfl
@[simp] theorem State.modQueue_net (s : State) (c : Nat) (f : Queue → Queue) : (s.modQueue c f).net = s.net := rfl
@[simp] theorem State.modQueue_store (s : State) (c : Nat) (f : Queue → Queue) : (s.modQueue c f).store = s.store := rfl
@[simp] theorem State.modQueue_agenda (s : State) (c : Nat) (f : Queue → Queue) : (s.modQueue c f).agenda = s.agenda := rfl
@[simp] theorem State.modQueue_cur (s : State) (c : Nat) (f : Queue → Queue) : (s.modQueue c f).cur = s.cur := rfl
@[simp] theorem State.modQueue_turn (s : State) (c : Nat) (f : Queue → Queue) : (s.modQueue c f).turn = s.turn := rfl
@[simp] theorem State.modQueue_tick (s : State) (c : Nat) (f : Queue → Queue) : (s.modQueue c f).tick = s.tick := rfl
@[simp] theorem State.modQueue_nextId (s : State) (c : Nat) (f : Queue → Queue) : (s.modQueue c f).nextId = s.nextId := rfl
@[simp] theorem State.modQueue_resp (s : State) (c : Nat) (f : Queue → Queue) : (s.modQueue c f).resp = s.resp := rfl

end Sys2Proof.Machine
end

