-- ==== Sys2Proof/Laws/Issue.lean ====
section
/-!
SUPPORT. Laws/Issue.lean: how the effects of an instruction run, and what an instruction that ends leaves.
-/

namespace Sys2Proof.Machine

open Sys2Proof

/-! ## The effects -/

theorem M.bind_run {α β : Type} (m : M α) (f : α → M β) (s : State) :
    (m >>= f) s = match m s with
      | .ok a t => f a t
      | .error e t => .error e t := by
  show EStateM.bind m f s = _
  unfold EStateM.bind
  cases m s <;> rfl

theorem M.bind_ok {α β : Type} {m : M α} {f : α → M β} {s t : State} {a : α} (h : m s = .ok a t) :
    (m >>= f) s = f a t := by
  rw [M.bind_run, h]

theorem M.bind_error {α β : Type} {m : M α} {f : α → M β} {s t : State} {e : Stop} (h : m s = .error e t) :
    (m >>= f) s = .error e t := by
  rw [M.bind_run, h]

theorem M.map_run {α β : Type} (m : M α) (f : α → β) (s : State) :
    (f <$> m) s = match m s with
      | .ok a t => .ok (f a) t
      | .error e t => .error e t := by
  show EStateM.map f m s = _
  unfold EStateM.map
  cases m s <;> rfl

@[simp] theorem M.pure_run {α : Type} (a : α) (s : State) : (pure a : M α) s = .ok a s := rfl
@[simp] theorem getS_run (s : State) : getS s = .ok s s := rfl
@[simp] theorem setS_run (t s : State) : setS t s = .ok () t := rfl
@[simp] theorem modS_run (f : State → State) (s : State) : modS f s = .ok () (f s) := rfl

theorem crewM_run {s : State} {c : Nat} {w : Crew} (h : s.crew? c = some w) : crewM c s = .ok w s := by
  simp [crewM, h]

@[simp] theorem crewM_setCrew (s : State) (c : Nat) (w : Crew) : crewM c (s.setCrew c w) = .ok w (s.setCrew c w) :=
  crewM_run (State.crew_setCrew s c w)

theorem modC_run {s : State} {c : Nat} {w : Crew} (f : Crew → Crew) (h : s.crew? c = some w) :
    modC c f s = .ok () (s.setCrew c (f w)) := by
  simp [modC, State.modCrew_of s c w f h]

@[simp] theorem modC_setCrew (s : State) (c : Nat) (w : Crew) (f : Crew → Crew) :
    modC c f (s.setCrew c w) = .ok () (s.setCrew c (f w)) := by
  rw [modC_run f (State.crew_setCrew s c w), State.setCrew_setCrew]

@[simp] theorem modA_setCrew (s : State) (c : Nat) (w : Crew) (f : Arch → Arch) :
    modA c f (s.setCrew c w) = .ok () (s.setCrew c { w with arch := f w.arch }) := by
  simp [modA]

theorem vsM_run {s : State} {c : Nat} {w : Crew} (h : s.crew? c = some w) :
    vsM c s = .ok (s.core (s.coreOf w)).vs s := by
  simp [vsM, M.bind_run, M.map_run, crewM_run h]

/-! ## The end of an instruction -/

theorem finish_run {t : State} {c : Nat} {w y : Crew} (hy : t.crew? c = some y)
    (ha : y.arch.act = 0 → y.empty = true) : finish c w t = .ok () (t.issued c w y) := by
  have hz : ((y.afterInstr w).arch.act = 0 && !(y.afterInstr w).empty) = false := by
    have h1 : (y.afterInstr w).arch.act = y.arch.act := rfl
    have h2 : (y.afterInstr w).empty = y.empty := rfl
    rw [h1, h2]
    by_cases h : y.arch.act = 0
    · simp [h, ha h]
    · simpa using ha
  unfold finish
  refine (M.bind_ok (modC_run _ hy)).trans ((M.bind_ok (crewM_setCrew _ _ _)).trans ?_)
  rw [if_neg (by rw [hz]; simp)]
  rfl

/-- What `issue` does where nothing keeps the instruction waiting and its effect runs to its end. -/
theorem issue_run {s t : State} {c opc : Nat} {w y : Crew} {x : Ops} {ckpt folds : Bool} {body : M Unit}
    (hw : s.crew? c = some w) (hs : x.head.sw = true → switchWaits w (s.core (s.coreOf w)).vs = false)
    (hk : ckpt = true → w.acc = [])
    (hb : body (s.setCrew c (if folds then w.begun opc x else w.passed x)) = .ok () t) (hy : t.crew? c = some y)
    (ha : y.arch.act = 0 → y.empty = true) : issue c opc x ckpt folds body s = .ok () (t.issued c w y) := by
  have hsw : (x.head.sw && switchWaits w (s.core (s.coreOf w)).vs) = false := by
    cases hx : x.head.sw with
    | false => rfl
    | true => simp [hs hx]
  have hck : (ckpt && !w.acc.isEmpty) = false := by
    cases ckpt with
    | false => rfl
    | true => simp [hk rfl]
  unfold issue
  refine (M.bind_ok (crewM_run hw)).trans ?_
  refine (M.bind_ok (vsM_run hw)).trans ?_
  simp only [hsw, hck, Bool.false_eq_true, if_false]
  refine (M.bind_ok (modC_run _ hw)).trans ?_
  cases folds with
  | true =>
    simp only [if_true] at hb ⊢
    refine (M.bind_ok (modC_setCrew _ _ _ _)).trans ?_
    refine (M.bind_ok (modC_setCrew _ _ _ _)).trans ?_
    refine (M.bind_ok (f := fun _ => finish c w) hb).trans ?_
    exact finish_run hy ha
  | false =>
    simp only [Bool.false_eq_true, if_false] at hb ⊢
    refine (M.bind_ok (modC_setCrew _ _ _ _)).trans ?_
    refine (M.bind_ok (f := fun _ => finish c w) hb).trans ?_
    exact finish_run hy ha

/-- An instruction whose effect runs to its end leaves what `issued` says. -/
theorem issueStep_ok {s t : State} {c opc : Nat} {w y : Crew} {x : Ops} {ckpt : Bool} {body : Nat → M Unit}
    (h : Issues s c w x) (hk : ckpt = true → w.acc = [])
    (hb : body c (s.setCrew c (w.begun opc x)) = .ok () t) (hy : t.crew? c = some y)
    (ha : y.arch.act = 0 → y.empty = true) :
    issueStep opc x ckpt body s = .next (t.issued c w y) := by
  have hrun : issue c opc x ckpt true (body c) s = .ok () (t.issued c w y) :=
    issue_run h.crew h.sw hk (by simpa using hb) hy ha
  simp [issueStep, crewStep, h.cur, h.crew, hrun, settleIssue]

/-! ## Scalars -/

theorem useItem_clean {s : State} {c : Nat} {w : Crew} (i : RegItem) (hw : s.crew? c = some w) (hm : w.marks = []) :
    useItem c i s = .ok () s := by
  simp [useItem, M.bind_run, crewM_run hw, hm]

theorem readScalar_run {s : State} {c : Nat} {w : Crew} (code : BitVec 8) (hw : s.crew? c = some w) (hm : w.marks = []) :
    readScalar c code s = .ok (w.arch.scalar (scalarNo code)) s := by
  simp [readScalar, M.bind_run, M.map_run, useItem_clean _ hw hm, crewM_run hw]

/-- A write that heals an item leaves every other part of the crew (R403). -/
@[simp] theorem Crew.heal_arch (w : Crew) (i : RegItem) : (w.heal i).arch = w.arch := rfl

theorem Crew.heal_clean {w : Crew} (i : RegItem) (hm : w.marks = []) : w.heal i = w := by
  cases w; simp_all [Crew.heal]

theorem writeScalar_run {s : State} {c : Nat} {w : Crew} (code : BitVec 8) (v : DWord) (hw : s.crew? c = some w)
    (hm : w.marks = []) :
    writeScalar c code v s = .ok () (s.setCrew c { w with arch := w.arch.setScalar (scalarNo code) v }) := by
  rw [writeScalar, modC_run _ hw, Crew.heal_clean _ hm]

theorem emask_run {s : State} {c : Nat} {w : Crew} (h : Head) (hw : s.crew? c = some w) (hm : w.marks = []) :
    emask c h s = .ok (w.arch.emask h) s := by
  unfold emask
  by_cases h0 : h.msk = 0#3
  · simp [h0, M.map_run, crewM_run hw]
  · have h1 : (h.msk = 0#3) = False := eq_false h0
    simp [h1, M.bind_run, M.map_run, useItem_clean _ hw hm, crewM_run hw]

end Sys2Proof.Machine
end

