-- ==== Sys2Proof/Laws/Operands.lean ====
section
/-!
SUPPORT. Laws/Operands.lean: what reading a source and writing a destination do, each said once.
-/

namespace Sys2Proof.Machine

open Sys2Proof

/-! ## Reading a name (R30) -/

@[simp] theorem EState.bne_self_iff (a b : EState) : (a != b) = true ↔ a ≠ b := by simp [bne_iff_ne]

@[simp] theorem State.coreOf_setCrew (s : State) (c : Nat) (x y : Crew) : (s.setCrew c x).coreOf y = s.coreOf y := rfl
@[simp] theorem State.coreOf_modCore (s : State) (k : Nat) (f : Core → Core) (y : Crew) : (s.modCore k f).coreOf y = s.coreOf y := rfl
@[simp] theorem State.coreOf_setCore (s : State) (k : Nat) (f : Core) (y : Crew) : (s.setCore k f).coreOf y = s.coreOf y := rfl
@[simp] theorem State.crew_modCore (s : State) (k : Nat) (f : Core → Core) (c : Nat) : (s.modCore k f).crew? c = s.crew? c := rfl
@[simp] theorem State.core_setCrew (s : State) (c : Nat) (x : Crew) (k : Nat) : (s.setCrew c x).core k = s.core k := rfl
@[simp] theorem State.gang_setCrew (s : State) (c : Nat) (x : Crew) (g : Nat) : (s.setCrew c x).gang? g = s.gang? g := rfl
@[simp] theorem State.gang_modCore (s : State) (k : Nat) (f : Core → Core) (g : Nat) : (s.modCore k f).gang? g = s.gang? g := rfl

/-- A bound name whose own mark is clear is found. -/
theorem lookup_of {s : State} {c n : Nat} {w : Crew} {b : Binding} {e : Entry} (hw : s.crew? c = some w)
    (hm : useItem c (.name n) s = .ok () s) (h : s.named c n = some (b, e)) : lookup c n s = .ok (b, e) s := by
  simp only [State.named, hw] at h
  unfold lookup
  refine (M.bind_ok hm).trans ((M.bind_ok (crewM_run hw)).trans ((M.bind_ok (vsM_run hw)).trans ?_))
  revert h
  cases h1 : Tab.at? w.arch.names n with
  | none => simp
  | some b1 =>
    simp only
    cases h2 : Tab.at? (s.core (s.coreOf w)).vs b1.entry with
    | none => simp
    | some e1 => intro h; simp only [Option.some.injEq, Prod.mk.injEq] at h; simp [h.1, h.2]

theorem lookup_run {s : State} {c n : Nat} {w : Crew} {b : Binding} {e : Entry} (hw : s.crew? c = some w)
    (hm : w.marks = []) (h : s.named c n = some (b, e)) : lookup c n s = .ok (b, e) s := lookup_of hw (useItem_clean _ hw hm) h

theorem checkReadable_run {s : State} {e : Entry} (h1 : e.st ≠ .leased) (h2 : e.st ≠ .pending) (h3 : e.st ≠ .opened) :
    checkReadable e s = .ok () s := by
  unfold checkReadable
  revert h1 h2 h3
  cases e.st <;> simp

theorem consume_run {s : State} {c e : Nat} {w : Crew} {en : Entry} {use : Mask} (hw : s.crew? c = some w)
    (h : en.bad = 0#32) : consume c e en use s = .ok () s := by
  unfold consume
  refine (M.bind_ok (crewM_run hw)).trans ?_
  simp [h]

theorem consumeCount_run {s : State} {c n : Nat} {w : Crew} {b : Binding} (hw : s.crew? c = some w)
    (hb : Tab.at? w.arch.names n = some b) : consumeCount c n b s = .ok () (s.took c n) := by
  unfold consumeCount State.took
  simp only [hw, hb]
  by_cases h15 : b.count = 15
  · simp [h15]
  · by_cases h1 : b.count ≤ 1
    · simp only [ne_eq, h15, not_false_eq_true, if_true, h1, if_false]
      refine (M.bind_ok (crewM_run hw)).trans ?_
      refine (M.bind_ok (show unbind c n s = .ok () _ from modC_run _ hw)).trans ?_
      unfold modVs
      refine (M.bind_ok (crewM_setCrew _ _ _)).trans ?_
      rfl
    · simp only [ne_eq, h15, not_false_eq_true, if_true, h1, if_false]
      exact modC_run _ hw

/-- A counted read of a readable name yields its lanes and consumes one count. -/
theorem readName_run {s : State} {c n : Nat} {w : Crew} (use : Mask) (hw : s.crew? c = some w) (hm : w.marks = [])
    (h : s.readable c n = true) : readName c n use s = .ok (s.nameLanes c n) (s.took c n) := by
  unfold State.readable at h
  split at h
  · next b e hn =>
    simp only [Bool.and_eq_true, EState.bne_self_iff, beq_iff_eq] at h
    have hb : Tab.at? w.arch.names n = some b := by
      revert hn
      simp only [State.named, hw]
      split
      · simp
      · next b1 h1 =>
        split
        · simp
        · intro h2; simp only [Option.some.injEq, Prod.mk.injEq] at h2; rw [h1, h2.1]
    unfold readName
    refine (M.bind_ok (lookup_run hw hm hn)).trans ?_
    refine (M.bind_ok (checkReadable_run h.1.1.1 h.1.1.2 h.1.2)).trans ?_
    refine (M.bind_ok (consume_run hw h.2)).trans ?_
    refine (M.bind_ok (consumeCount_run hw hb)).trans ?_
    simp [State.nameLanes, hn]
  · simp at h

theorem Crew.sameButNames_refl (w : Crew) : w.sameButNames w := rfl

theorem Crew.sameButNames_trans {w x y : Crew} (h1 : w.sameButNames x) (h2 : x.sameButNames y) : w.sameButNames y := by
  simp only [Crew.sameButNames] at *
  rw [h1] at h2
  exact h2

theorem Crew.sameButNames_set (w : Crew) (ns : Tab Binding) :
    w.sameButNames { w with arch := { w.arch with names := ns } } := rfl

theorem Crew.sameButNames_marks {w y : Crew} (h : w.sameButNames y) : y.marks = w.marks := by rw [h]
theorem Crew.sameButNames_act {w y : Crew} (h : w.sameButNames y) : y.arch.act = w.arch.act := by rw [h]
theorem Crew.sameButNames_emask {w y : Crew} (h : w.sameButNames y) (d : Head) : y.arch.emask d = w.arch.emask d := by
  rw [h]; rfl
theorem Crew.sameButNames_scalar {w y : Crew} (h : w.sameButNames y) (r : Nat) : y.arch.scalar r = w.arch.scalar r := by
  rw [h]; rfl

/-- A counted read leaves the crew as it was but for the name. -/
theorem State.took_crew {s : State} {c : Nat} {w : Crew} (n : Nat) (hw : s.crew? c = some w) :
    ∃ y, (s.took c n).crew? c = some y ∧ w.sameButNames y := by
  unfold State.took
  simp only [hw]
  split
  · exact ⟨w, hw, Crew.sameButNames_refl w⟩
  · split
    · exact ⟨w, hw, Crew.sameButNames_refl w⟩
    · split
      · exact ⟨_, (State.crew_modCore _ _ _ _).trans (State.crew_setCrew s c _), Crew.sameButNames_set w _⟩
      · exact ⟨_, State.crew_setCrew s c _, Crew.sameButNames_set w _⟩

/-! ## Sources (R39, R113) -/

/-- A source that is in order yields its values. -/
theorem readSrc_run {s : State} {c : Nat} {w : Crew} {h : Head} {code : BitVec 8} {wide : Bool}
    (hw : s.crew? c = some w) (hm : w.marks = []) (ok : s.srcOk c code wide = true) :
    readSrc c h code wide s = .ok (s.srcVals c h code wide) (s.afterSrc c code wide) := by
  unfold readSrc State.srcVals State.afterSrc
  cases hv : isVec code with
  | false =>
    simp only [Bool.false_eq_true, if_false]
    refine (M.bind_ok (readScalar_run _ hw hm)).trans ?_
    simp [State.scalarOf, hw]
  | true =>
    simp only [State.srcOk, hv, Bool.not_true, Bool.false_or, Bool.and_eq_true, Bool.or_eq_true, Bool.not_eq_true'] at ok
    simp only [if_true]
    refine (M.bind_ok (emask_run h hw hm)).trans ?_
    refine (M.bind_ok (readName_run _ hw hm ok.1)).trans ?_
    cases wide with
    | false => simp
    | true =>
      obtain ⟨y, hy, hs⟩ := State.took_crew code.toNat hw
      have hmy : y.marks = [] := (Crew.sameButNames_marks hs).trans hm
      have ok2 : (s.took c code.toNat).readable c (code.toNat + 1) = true := by simpa using ok.2
      simp only [if_true]
      refine (M.bind_ok (emask_run h hy hmy)).trans ?_
      refine (M.bind_ok (readName_run _ hy hmy ok2)).trans ?_
      simp

theorem State.afterSrc_crew {s : State} {c : Nat} {w : Crew} (code : BitVec 8) (wide : Bool) (hw : s.crew? c = some w) :
    ∃ y, (s.afterSrc c code wide).crew? c = some y ∧ w.sameButNames y := by
  unfold State.afterSrc
  split
  · split
    · obtain ⟨y, hy, h1⟩ := State.took_crew code.toNat hw
      obtain ⟨z, hz, h2⟩ := State.took_crew (code.toNat + 1) hy
      exact ⟨z, hz, Crew.sameButNames_trans h1 h2⟩
    · exact State.took_crew _ hw
  · exact ⟨w, hw, Crew.sameButNames_refl w⟩

theorem readB_run {s : State} {c : Nat} {w : Crew} {ty : Ty} {wide : Bool} {x : Ops}
    (hw : s.crew? c = some w) (hm : w.marks = []) (ok : s.bOk c wide x = true) :
    readB c ty wide x s = .ok (s.bVals c ty wide x) (s.afterB c wide x) := by
  unfold readB State.bVals State.afterB
  by_cases h0 : x.head.len = 0#2
  · have : s.srcOk c x.sb wide = true := by simpa [State.bOk, h0] using ok
    simpa [h0] using readSrc_run hw hm this
  · have h1 : (x.head.len = 0#2) = False := eq_false h0
    simp [h1]

theorem State.afterB_crew {s : State} {c : Nat} {w : Crew} (wide : Bool) (x : Ops) (hw : s.crew? c = some w) :
    ∃ y, (s.afterB c wide x).crew? c = some y ∧ w.sameButNames y := by
  unfold State.afterB
  split
  · exact ⟨w, hw, Crew.sameButNames_refl w⟩
  · exact State.afterSrc_crew _ _ hw

theorem readMerge_run {s : State} {c : Nat} {w : Crew} {f : FnT} {x : Ops} (hw : s.crew? c = some w) (hm : w.marks = [])
    (ok : s.mgOk c f x = true) : readMerge c f x s = .ok (s.mgVals c f x) (s.afterMg c f x) := by
  unfold readMerge State.mgVals State.afterMg
  cases hf : f.mg with
  | false => simp
  | true =>
    have : s.readable c x.sc.toNat = true := by simpa [State.mgOk, hf] using ok
    simp only [if_true]
    refine (M.bind_ok (emask_run _ hw hm)).trans ?_
    refine (M.bind_ok (readName_run _ hw hm this)).trans ?_
    simp

theorem State.afterMg_crew {s : State} {c : Nat} {w : Crew} (f : FnT) (x : Ops) (hw : s.crew? c = some w) :
    ∃ y, (s.afterMg c f x).crew? c = some y ∧ w.sameButNames y := by
  unfold State.afterMg
  split
  · exact State.took_crew _ hw
  · exact ⟨w, hw, Crew.sameButNames_refl w⟩

/-! ## Destinations (R31, R32) -/

theorem gangM_run {s : State} {c : Nat} {w : Crew} {g : Gang} (hw : s.crew? c = some w) (hg : s.gang? w.gang = some g) :
    gangM c s = .ok g s := by
  simp [gangM, hw, hg]

theorem check_run {p : Bool} {k : Cause} {s : State} (h : p = true) : check p k s = .ok () s := by simp [check, h]

theorem modVs_run {s : State} {c : Nat} {w : Crew} (f : Tab Entry → Tab Entry) (hw : s.crew? c = some w) :
    modVs c f s = .ok () (s.modCore (s.coreOf w) fun k => { k with vs := f k.vs }) := by
  unfold modVs
  exact (M.bind_ok (crewM_run hw)).trans rfl

theorem allocOne_run {s : State} {c : Nat} {w : Crew} (count : Nat) (st : EState) (k n : Nat) (hw : s.crew? c = some w)
    (hm : w.marks = []) (ok : s.canBind c n = true) :
    allocOne c count st k n s = .ok (s.nextEntry c) (s.bindName c n count st) := by
  simp only [State.canBind, hw, Bool.and_eq_true, Bool.or_eq_true, decide_eq_true_eq] at ok
  obtain ⟨⟨hn, he⟩, hroom⟩ := ok
  obtain ⟨e, he⟩ := Option.isSome_iff_exists.mp he
  unfold allocOne State.nextEntry State.bindName
  simp only [hw]
  refine (M.bind_ok (getS_run s)).trans ((M.bind_ok (crewM_run hw)).trans ((M.bind_ok (vsM_run hw)).trans ?_))
  have hno : ¬ (heldOf (s.core (s.coreOf w)).vs c ≥ w.arch.floor ∧ s.avail w ≤ 0) := by omega
  simp only [hno, if_false, he, Option.getD_some]
  refine (M.bind_ok (modVs_run _ hw)).trans ?_
  refine (M.bind_ok (modC_run _ ((State.crew_modCore _ _ _ _).trans hw))).trans ?_
  rw [Crew.heal_clean _ hm]
  rfl

theorem State.bindName_crew {s : State} {c : Nat} {w : Crew} (n count : Nat) (st : EState) (hw : s.crew? c = some w) :
    (s.bindName c n count st).crew? c
      = some { w with arch := { w.arch with names := Tab.put w.arch.names n ⟨s.nextEntry c, count⟩ } } := by
  simp [State.bindName, State.nextEntry, hw]

theorem allocNames_one {s : State} {c : Nat} {w : Crew} (count : Nat) (st : EState) (n : Nat) (hw : s.crew? c = some w)
    (hm : w.marks = []) (need : s.needOk c 1 = true) (ok : s.canBind c n = true) :
    allocNames c [n] count st s = .ok [s.nextEntry c] (s.bindName c n count st) := by
  have hn : (Tab.at? w.arch.names n).isNone = true := by
    simp only [State.canBind, hw, Bool.and_eq_true] at ok; exact ok.1.1
  simp only [State.needOk, hw] at need
  split at need
  · simp at need
  · next g hg =>
    unfold allocNames
    refine (M.bind_ok (crewM_run hw)).trans ?_
    refine (M.bind_ok (t := s) (a := ()) ?_).trans ?_
    · simp [List.forM_cons, M.bind_run, check, Option.isNone_iff_eq_none.mp hn]
    refine (M.bind_ok (gangM_run hw hg)).trans ((M.bind_ok (vsM_run hw)).trans ?_)
    refine (M.bind_ok (check_run (by simpa using need))).trans ?_
    simp only [List.length_singleton, List.mapM_cons, List.mapM_nil]
    exact (M.bind_ok (allocOne_run count st 1 n hw hm ok)).trans rfl

theorem allocNames_two {s : State} {c : Nat} {w : Crew} (count : Nat) (st : EState) (n : Nat) (hw : s.crew? c = some w)
    (hm : w.marks = []) (need : s.needOk c 2 = true) (ok : s.canBind c n = true)
    (ok2 : (s.bindName c n count st).canBind c (n + 1) = true) :
    allocNames c [n, n + 1] count st s = .ok [s.nextEntry c, (s.bindName c n count st).nextEntry c]
      ((s.bindName c n count st).bindName c (n + 1) count st) := by
  have hn : (Tab.at? w.arch.names n).isNone = true := by
    simp only [State.canBind, hw, Bool.and_eq_true] at ok; exact ok.1.1
  have hc := State.bindName_crew n count st hw
  have hn2 : (Tab.at? w.arch.names (n + 1)).isNone = true := by
    simp only [State.canBind, hc, Bool.and_eq_true] at ok2
    have := ok2.1.1
    rwa [Tab.at?_put_ne _ _ _ _ (by omega)] at this
  simp only [State.needOk, hw] at need
  split at need
  · simp at need
  · next g hg =>
    unfold allocNames
    refine (M.bind_ok (crewM_run hw)).trans ?_
    refine (M.bind_ok (t := s) (a := ()) ?_).trans ?_
    · simp [List.forM_cons, M.bind_run, check, Option.isNone_iff_eq_none.mp hn, Option.isNone_iff_eq_none.mp hn2]
    refine (M.bind_ok (gangM_run hw hg)).trans ((M.bind_ok (vsM_run hw)).trans ?_)
    refine (M.bind_ok (check_run (by simpa using need))).trans ?_
    simp only [List.length_cons, List.length_nil, List.mapM_cons, List.mapM_nil]
    refine (M.bind_ok (allocOne_run count st 2 n hw hm ok)).trans ?_
    refine (M.bind_ok (t := (s.bindName c n count st).bindName c (n + 1) count st)
      (a := [(s.bindName c n count st).nextEntry c]) ?_).trans rfl
    exact (M.bind_ok (allocOne_run count st 2 (n + 1) hc hm ok2)).trans rfl

/-! ## Writing a destination -/

theorem putLanes_run {s : State} {c n : Nat} {w : Crew} {b : Binding} (v : Lanes) (hw : s.crew? c = some w)
    (hb : Tab.at? w.arch.names n = some b) : putLanes c b.entry v s = .ok () (s.fillName c n v) := by
  unfold putLanes State.fillName
  rw [modVs_run _ hw]
  simp only [hw, hb]
  congr 2
  funext k
  cases Tab.at? k.vs b.entry <;> rfl

theorem State.fillName_crew (s : State) (c n : Nat) (v : Lanes) : (s.fillName c n v).crew? c = s.crew? c := by
  unfold State.fillName
  split
  · rfl
  · split <;> rfl

/-- Writing a vector destination that is in order leaves what `stored` says. -/
theorem storeVec_run {s : State} {c : Nat} {w : Crew} {x : Ops} {pair : Bool} (old : Option Lanes) (v : Vals) (m : Mask)
    (hw : s.crew? c = some w) (hm : w.marks = []) (ok : s.dstOk c x pair = true) :
    storeVec c x pair old v m s = .ok () (s.stored c x pair old v m) := by
  unfold storeVec State.stored
  by_cases h0 : x.cnt = 0
  · simp [h0]
  have hn0 : x.cnt.toNat ≠ 0 := fun h => h0 (by apply BitVec.eq_of_toNat_eq; simpa using h)
  have h2 : (x.cnt == 0) = false := beq_eq_false_iff_ne.mpr h0
  rw [if_neg h0, if_neg h0]
  cases pair with
  | true =>
    simp only [State.dstOk, h2, Bool.false_or, if_true, Bool.and_eq_true] at ok
    have hc := State.bindName_crew x.dst.toNat x.cnt.toNat .bound hw
    have hc2 := State.bindName_crew (x.dst.toNat + 1) x.cnt.toNat .bound hc
    simp only [if_true]
    unfold writePair
    simp only [ne_eq, hn0, not_false_eq_true, if_true]
    refine (M.bind_ok (allocNames_two _ _ _ hw hm ok.1.1 ok.1.2 ok.2)).trans ?_
    have a0 : Tab.at? (Tab.put (Tab.put w.arch.names x.dst.toNat ⟨s.nextEntry c, x.cnt.toNat⟩) (x.dst.toNat + 1)
        ⟨(s.bindName c x.dst.toNat x.cnt.toNat .bound).nextEntry c, x.cnt.toNat⟩) x.dst.toNat
          = some ⟨s.nextEntry c, x.cnt.toNat⟩ := by
      rw [Tab.at?_put_ne _ _ _ _ (by omega), Tab.at?_put_self]
    refine (M.bind_ok (putLanes_run _ hc2 a0)).trans ?_
    exact putLanes_run (n := x.dst.toNat + 1) (b := ⟨_, x.cnt.toNat⟩) _ ((State.fillName_crew _ _ _ _).trans hc2)
      (Tab.at?_put_self _ _ _)
  | false =>
    simp only [State.dstOk, h2, Bool.false_or, Bool.false_eq_true, if_false, Bool.and_eq_true] at ok
    have hc := State.bindName_crew x.dst.toNat x.cnt.toNat .bound hw
    have key : ∀ l : Lanes, (do
        let es ← allocNames c [x.dst.toNat] x.cnt.toNat .bound
        for e in es do putLanes c e l : M Unit) s
          = .ok () ((s.bindName c x.dst.toNat x.cnt.toNat .bound).fillName c x.dst.toNat l) := by
      intro l
      refine (M.bind_ok (allocNames_one _ _ _ hw hm ok.1 ok.2)).trans ?_
      have := putLanes_run (n := x.dst.toNat) (b := ⟨s.nextEntry c, x.cnt.toNat⟩) l hc (Tab.at?_put_self _ _ _)
      simp [M.bind_run, this]
    cases old with
    | none => simpa [writeName, hn0, M.bind_run] using key (selLanes m (lowHalf v) zeroLanes)
    | some o => simpa [writeMerge, hn0, M.bind_run] using key (selLanes m (lowHalf v) o)

theorem State.bindName_some {s : State} {c : Nat} {w : Crew} (n count : Nat) (st : EState) (hw : s.crew? c = some w) :
    ∃ y, (s.bindName c n count st).crew? c = some y ∧ w.sameButNames y :=
  ⟨_, State.bindName_crew n count st hw, Crew.sameButNames_set w _⟩

/-- A vector destination written leaves the crew as it was but for its names. -/
theorem State.stored_crew {s : State} {c : Nat} {w : Crew} (x : Ops) (pair : Bool) (old : Option Lanes) (v : Vals) (m : Mask)
    (hw : s.crew? c = some w) : ∃ y, (s.stored c x pair old v m).crew? c = some y ∧ w.sameButNames y := by
  unfold State.stored
  split
  · exact ⟨w, hw, Crew.sameButNames_refl w⟩
  · obtain ⟨y, hy, h1⟩ := State.bindName_some x.dst.toNat x.cnt.toNat .bound hw
    split
    · obtain ⟨z, hz, h2⟩ := State.bindName_some (x.dst.toNat + 1) x.cnt.toNat .bound hy
      exact ⟨z, by rw [State.fillName_crew, State.fillName_crew, hz], Crew.sameButNames_trans h1 h2⟩
    · exact ⟨y, by rw [State.fillName_crew, hy], h1⟩

/-! ## Scalars, masks -/

theorem writeScalar_of {s : State} {c : Nat} {w : Crew} (code : BitVec 8) (v : DWord) (hw : s.crew? c = some w)
    (hm : w.marks = []) : writeScalar c code v s = .ok () (s.setScalarOf c code v) := by
  rw [writeScalar_run code v hw hm]
  simp [State.setScalarOf, hw]

theorem writeMask_of {s : State} {c : Nat} {w : Crew} (k : Nat) (v : Mask) (hw : s.crew? c = some w)
    (hm : w.marks = []) : writeMask c k v s = .ok () (s.setMaskOf c k v) := by
  rw [writeMask, modC_run _ hw, Crew.heal_clean _ hm]
  simp [State.setMaskOf, hw]

theorem Arch.setScalar_act (a : Arch) (r : Nat) (v : DWord) : (a.setScalar r v).act = a.act := by
  unfold Arch.setScalar; split <;> rfl

theorem Arch.setMask_act (a : Arch) (k : Nat) (v : Mask) : (a.setMask k v).act = a.act := by
  unfold Arch.setMask; split <;> rfl

theorem State.setScalarOf_crew {s : State} {c : Nat} {w : Crew} (code : BitVec 8) (v : DWord) (hw : s.crew? c = some w) :
    (s.setScalarOf c code v).crew? c = some { w with arch := w.arch.setScalar (scalarNo code) v } := by
  simp [State.setScalarOf, hw]

theorem State.setMaskOf_crew {s : State} {c : Nat} {w : Crew} (k : Nat) (v : Mask) (hw : s.crew? c = some w) :
    (s.setMaskOf c k v).crew? c = some { w with arch := w.arch.setMask k v } := by
  simp [State.setMaskOf, hw]

theorem State.emaskOf_run {s : State} {c : Nat} {w : Crew} (h : Head) (hw : s.crew? c = some w) (hm : w.marks = []) :
    emask c h s = .ok (s.emaskOf c h) s := by
  rw [emask_run h hw hm]; simp [State.emaskOf, hw]

/-! ## The end of an instruction -/

theorem State.opens_crew (s : State) (c : Nat) (w : Crew) (opc : Nat) (x : Ops) :
    (s.opens c w opc x).crew? c = some (w.begun opc x) := State.crew_setCrew _ _ _

theorem Crew.foldInstr_act (w : Crew) (opc : Nat) (h : Head) : (w.foldInstr opc h).arch.act = w.arch.act := by
  unfold Crew.foldInstr; split <;> rfl

theorem Crew.foldInstr_marks (w : Crew) (opc : Nat) (h : Head) : (w.foldInstr opc h).marks = w.marks := by
  unfold Crew.foldInstr; split <;> rfl

theorem Crew.begun_marks (w : Crew) (opc : Nat) (x : Ops) : (w.begun opc x).marks = w.marks := Crew.foldInstr_marks _ _ _
theorem Crew.begun_act (w : Crew) (opc : Nat) (x : Ops) : (w.begun opc x).arch.act = w.arch.act := Crew.foldInstr_act _ _ _

/-- The same for an instruction that may fold itself into SIG. -/
theorem issueAs_live {s t : State} {c opc : Nat} {w y : Crew} {x : Ops} {ckpt folds : Bool} {body : Nat → M Unit}
    (h : Issues s c w x) (hk : ckpt = true → w.acc = [])
    (hb : body c (s.setCrew c (if folds then w.begun opc x else w.passed x)) = .ok () t)
    (hy : t.crew? c = some y) (ha : y.arch.act = 0 → y.empty = true) :
    crewStep x.head (fun k => issue k opc x ckpt folds (body k)) s = .next (t.ended c w) := by
  have hrun := issue_run (opc := opc) h.crew h.sw hk hb hy ha
  simp [crewStep, h.cur, h.crew, hrun, settleIssue, State.ended, hy]

/-- An instruction whose effect runs to its end answers the state that `ended` says. -/
theorem issueStep_live {s t : State} {c opc : Nat} {w y : Crew} {x : Ops} {ckpt : Bool} {body : Nat → M Unit}
    (h : Issues s c w x) (hk : ckpt = true → w.acc = []) (hb : body c (s.opens c w opc x) = .ok () t)
    (hy : t.crew? c = some y) (ha : y.arch.act = 0 → y.empty = true) :
    issueStep opc x ckpt body s = .next (t.ended c w) := by
  rw [issueStep_ok h hk hb hy ha]
  simp [State.ended, hy]

/-- The same where a lane stays active. -/
theorem issueStep_ended {s t : State} {c opc : Nat} {w y : Crew} {x : Ops} {ckpt : Bool} {body : Nat → M Unit}
    (h : Issues s c w x) (hk : ckpt = true → w.acc = []) (hb : body c (s.opens c w opc x) = .ok () t)
    (hy : t.crew? c = some y) (ha : y.arch.act ≠ 0) : issueStep opc x ckpt body s = .next (t.ended c w) :=
  issueStep_live h hk hb hy fun h0 => absurd h0 ha

theorem Issues.begun_marks {s : State} {c : Nat} {w : Crew} {x : Ops} (h : Issues s c w x) (opc : Nat) :
    (w.begun opc x).marks = [] := (Crew.begun_marks w opc x).trans h.clean

theorem Issues.act_ne {s : State} {c : Nat} {w y : Crew} {x : Ops} (h : Issues s c w x) (opc : Nat)
    (e : y.arch.act = (w.begun opc x).arch.act) : y.arch.act ≠ 0 := by
  rw [e, Crew.begun_act]; exact h.awake

end Sys2Proof.Machine
end

