-- ==== Sys2Proof/Laws/Control.lean ====
section
/-!
SUPPORT. Laws/Control.lean: what transfers, the reconvergence stack and the shared checks do, each said once.
-/

namespace Sys2Proof.Machine

open Sys2Proof

theorem crewStep_run {s t : State} {c : Nat} {w : Crew} {h : Head} {body : Nat → M Unit} (hc : s.cur = some c)
    (hw : s.crew? c = some w) (hb : body c s = .ok () t) : crewStep h body s = .next t := by
  simp [crewStep, hc, hw, hb, settleIssue]

@[simp] theorem State.setCrew_ended (s : State) (c : Nat) (w y : Crew) : (s.setCrew c y).ended c w = s.issued c w y := by
  unfold State.ended
  rw [State.crew_setCrew]
  show ((s.setCrew c y).setCrew c (y.afterInstr w)).settle c = (s.setCrew c (y.afterInstr w)).settle c
  rw [State.setCrew_setCrew]

@[simp] theorem Crew.blockEntry_act (y : Crew) (p : Addr) : (y.blockEntry p).arch.act = y.arch.act := by
  unfold Crew.blockEntry
  cases y.anyAct <;> simp only [Bool.false_eq_true, if_false, if_true]
@[simp] theorem Crew.blockEntry_empty (y : Crew) (p : Addr) : (y.blockEntry p).empty = y.empty := by
  unfold Crew.blockEntry
  cases y.anyAct <;> simp only [Bool.false_eq_true, if_false, if_true]
@[simp] theorem Crew.blockEntry_marks (y : Crew) (p : Addr) : (y.blockEntry p).marks = y.marks := by
  unfold Crew.blockEntry
  cases y.anyAct <;> simp only [Bool.false_eq_true, if_false, if_true]

theorem checkTarget_run {s : State} {c : Nat} {p : Addr} (h : p.toNat % 4 = 0) : checkTarget c p s = .ok () s := by
  unfold checkTarget
  rw [if_neg (by simpa using h)]
  rfl

theorem jump_run {s : State} {c : Nat} {y : Crew} {p : Addr} (hy : s.crew? c = some y) (h : p.toNat % 4 = 0) :
    jump c p s = .ok () (s.setCrew c (y.jumped p)) :=
  (M.bind_ok (checkTarget_run h)).trans (modC_run _ hy)

theorem enterNext_run {s : State} {c : Nat} {y : Crew} (hy : s.crew? c = some y) :
    enterNext c s = .ok () (s.setCrew c (y.blockEntry y.arch.pc)) := modC_run _ hy

/-! Room on the stack: the spill write touches no crew (R82, R286). -/

/-- A store to memory through a key slot changes memory and takes marks of poison, and nothing else (R262, R312). -/
theorem State.writeKey_only (s : State) (key pa : Nat) (bs : List Byte) :
    ∃ m p q, s.writeKey key pa bs = { s with mem := m, poison := p, sliceBad := q } := by
  unfold State.writeKey; split
  · exact ⟨_, _, _, rfl⟩
  · split <;> exact ⟨_, _, _, rfl⟩

theorem State.writeKey_crews (s : State) (key pa : Nat) (bs : List Byte) : (s.writeKey key pa bs).crews = s.crews := by
  obtain ⟨m, p, q, h⟩ := s.writeKey_only key pa bs
  rw [h]

theorem State.writePte_crews (s : State) (ctx pa v : Nat) : (s.writePte ctx pa v).crews = s.crews :=
  State.writeKey_crews _ _ _ _

theorem State.zeroFrame_crews (s : State) (key frame : Nat) : (s.zeroFrame key frame).crews = s.crews := by
  unfold State.zeroFrame
  dsimp only
  split
  · rfl
  · exact State.writeKey_crews _ _ _ _

theorem State.zeroFrames_crews (l : List Nat) (s : State) (ctx : Nat) :
    (l.foldl (fun t f => t.zeroFrame (t.walkKey ctx f) f) s).crews = s.crews := by
  induction l generalizing s with
  | nil => rfl
  | cons f l ih => exact (ih _).trans (State.zeroFrame_crews _ _ _)

theorem State.mapNew_crews {s t : State} {ctx die va attr f : Nat} {mid leaf : Option Nat}
    (h : s.mapNew ctx die va attr mid leaf = .mapped t f) : t.crews = s.crews := by
  unfold State.mapNew at h
  dsimp only at h
  repeat' split at h
  all_goals first
    | (cases h; done)
    | (injection h with h _
       subst h
       simp only [State.writePte_crews, State.zeroFrames_crews, State.zeroFrame_crews]
       rfl)

theorem State.spillPage_crews {s t : State} {ctx core va : Nat} (h : s.spillPage ctx core va = some t) :
    t.crews = s.crews := by
  unfold State.spillPage at h
  split at h
  · next u f hu =>
    injection h with h
    subst h
    unfold State.mapPage at hu
    dsimp only at hu
    repeat' split at hu
    all_goals first | exact State.mapNew_crews hu | cases hu
  · injection h with h; rw [h]
  · exact nomatch h

/-- A write of the device's own agents changes memory and takes marks, and nothing else. -/
theorem State.writeSys_only {s t : State} {own : Bool} {ctx va : Nat} {bs : List Byte}
    (h : s.writeSys own ctx va bs = .ok t) : ∃ m p q b, t = { s with mem := m, poison := p, sliceBad := q, badWord := b } := by
  unfold State.writeSys at h
  dsimp only at h
  repeat' split at h
  all_goals first
    | (cases h; done)
    | (injection h with h
       subst h
       first
         | exact ⟨_, _, _, _, rfl⟩
         | (obtain ⟨m, p, q, e⟩ := State.writeKey_only s _ _ _
            exact ⟨m, p, q, s.badWord, e⟩))

theorem State.writeSys_crews {s t : State} {own : Bool} {ctx va : Nat} {bs : List Byte}
    (h : s.writeSys own ctx va bs = .ok t) : t.crews = s.crews := by
  obtain ⟨m, p, q, b, rfl⟩ := State.writeSys_only h
  rfl

theorem spillPieces_crews {ctx core fuel : Nat} {s t : State} {va : Nat} {bs : List Byte}
    (h : spillPieces ctx core fuel s va bs = .ok t) : t.crews = s.crews := by
  induction fuel generalizing s va bs with
  | zero =>
    unfold spillPieces at h
    split at h
    · injection h with h; rw [h]
    · exact nomatch h
  | succ n ih =>
    unfold spillPieces at h
    split at h
    · injection h with h; rw [h]
    · dsimp only at h
      split at h
      · exact nomatch h
      · next u hu =>
        split at h
        · next v hv => exact (ih h).trans ((State.writeSys_crews hv).trans (State.spillPage_crews hu))
        · exact nomatch h

theorem State.spillPush_crews {s t : State} {y : Crew} (h : s.spillPush y = .ok t) : t.crews = s.crews := by
  unfold State.spillPush at h
  split at h
  · injection h with h; rw [h]
  · unfold State.spillWrite at h
    split at h
    · exact nomatch h
    · exact spillPieces_crews h

theorem State.spillPush_crew {s t : State} {y : Crew} (h : s.spillPush y = .ok t) (c : Nat) : t.crew? c = s.crew? c := by
  unfold State.crew?
  rw [State.spillPush_crews h]

theorem push_run {s t : State} {c : Nat} {y : Crew} (e : StackEntry) (hy : s.crew? c = some y) (hm : y.marks = [])
    (h : y.arch.stack.length < 1024) (ht : s.spillPush y = .ok t) :
    push c e s = .ok () (t.setCrew c { y with arch := { y.arch with stack := e :: y.arch.stack } }) := by
  unfold push
  refine (M.bind_ok (crewM_run hy)).trans ((M.bind_ok (check_run (by simpa using h))).trans ?_)
  refine (M.bind_ok (t := t) (a := ()) (by unfold spillEntry; simp [M.bind_run, ht, getS, setS])).trans ?_
  rw [modC_run _ ((State.spillPush_crew ht c).trans hy), Crew.heal_clean _ hm]

theorem push_spill {s t : State} {c : Nat} {y : Crew} (e : StackEntry) (hy : s.crew? c = some y)
    (h : y.arch.stack.length < 1024) (ht : s.spillPush y = .error t) : push c e s = .error .spill t := by
  unfold push
  refine (M.bind_ok (crewM_run hy)).trans ((M.bind_ok (check_run (by simpa using h))).trans ?_)
  exact M.bind_error (by unfold spillEntry; simp [M.bind_run, ht, getS, setS, stop])

/-- The lanes of the effective mask are lanes of ACTMASK (R29). -/
theorem Arch.emask_rest (a : Arch) (h : Head) (hne : a.emask h ≠ a.act) : a.act &&& ~~~ a.emask h ≠ 0 := by
  intro h0
  apply hne
  have hsub : a.emask h &&& a.act = a.emask h := by
    unfold Arch.emask
    split
    · exact BitVec.and_self
    · ext i hi
      simp
      intro h1 _
      exact h1
  ext i hi
  have h1 := congrArg (fun v : Mask => v[i]) h0
  have h2 := congrArg (fun v : Mask => v[i]) hsub
  simp at h1 h2
  cases h3 : a.act[i] with
  | true => exact h1 h3
  | false =>
    cases h4 : (a.emask h)[i] with
    | false => rfl
    | true => rw [← h3]; exact (h2 h4).symm ▸ rfl

/-- branch(TARGET) (R83). -/
theorem branch_run {s t : State} {c : Nat} {y : Crew} {x : Ops} {p : Addr} (hy : s.crew? c = some y) (hm : y.marks = [])
    (h : y.canBranch (y.arch.emask x.head) p = true) (ht : s.branchRoom y (y.arch.emask x.head) = .ok t) :
    branch c x p s = .ok () (t.setCrew c (y.branched (y.arch.emask x.head) p)) := by
  unfold State.branchRoom at ht
  simp only [Crew.canBranch, Bool.or_eq_true, Bool.and_eq_true, beq_iff_eq, decide_eq_true_eq] at h
  unfold branch Crew.branched
  refine (M.bind_ok (emask_run _ hy hm)).trans ((M.bind_ok (crewM_run hy)).trans ?_)
  by_cases h0 : y.arch.emask x.head = 0
  · rw [if_pos (.inl h0)] at ht; cases ht
    rw [if_pos h0, if_pos h0]; exact enterNext_run hy
  · rw [if_neg h0, if_neg h0]
    obtain ⟨hp, hr⟩ := h.resolve_left h0
    refine (M.bind_ok (checkTarget_run hp)).trans ?_
    by_cases ha : y.arch.emask x.head = y.arch.act
    · rw [if_pos (.inr ha)] at ht; cases ht
      rw [if_pos ha, if_pos ha]; exact jump_run hy hp
    · rw [if_neg (not_or.2 ⟨h0, ha⟩)] at ht
      rw [if_neg ha, if_neg ha]
      refine (M.bind_ok (push_run _ hy hm (hr.resolve_left ha) ht)).trans ?_
      refine (M.bind_ok (modA_setCrew _ _ _ _)).trans ?_
      rw [enterNext_run (State.crew_setCrew _ _ _), State.setCrew_setCrew]

theorem Crew.branched_act {y : Crew} (h : Head) (p : Addr) (ha : y.arch.act ≠ 0) :
    (y.branched (y.arch.emask h) p).arch.act ≠ 0 := by
  unfold Crew.branched
  split
  · simpa using ha
  · split
    · simpa using ha
    · next h1 => simpa using Arch.emask_rest y.arch h h1

/-- A crew that has popped with no lane left is empty (R84, R86). -/
theorem Crew.popStack_live (y : Crew) (st : List StackEntry) (h : (y.popStack st).arch.act = 0) :
    (y.popStack st).empty = true := by
  induction st generalizing y with
  | nil =>
    unfold Crew.popStack at h ⊢
    split at h
    · simp_all
    · exact absurd h ‹_›
  | cons e es ih =>
    unfold Crew.popStack at h ⊢
    split at h
    · next h0 => rw [if_pos h0]; exact ih y h
    · next h0 => rw [Crew.blockEntry_act] at h; exact absurd h h0

theorem useStack_run {s : State} {c : Nat} {y : Crew} (hy : s.crew? c = some y) (hm : y.marks = []) :
    useStack c s = .ok () s := by
  refine (M.bind_ok (crewM_run hy)).trans ?_
  generalize List.range (popDepth y.arch.stack) = l
  induction l with
  | nil => rfl
  | cons k l ih => exact (M.bind_ok (useItem_clean _ hy hm)).trans ih

theorem pop_run {s : State} {c : Nat} {y : Crew} (hy : s.crew? c = some y) (hm : y.marks = []) :
    pop c s = .ok () (s.setCrew c (y.popStack y.arch.stack)) := by
  exact (M.bind_ok (useStack_run hy hm)).trans (modC_run _ hy)

theorem leaveLanes_run {s : State} {c : Nat} {y : Crew} (m : Mask) (hy : s.crew? c = some y) (hm : y.marks = []) :
    leaveLanes c m s = .ok () (s.setCrew c (y.left m)) := by
  obtain ⟨z, hz⟩ : ∃ z : Crew, z = { y with arch := y.arch.removeLanes m } := ⟨_, rfl⟩
  have hzm : z.marks = [] := by rw [hz]; exact hm
  have hzc : (s.setCrew c z).crew? c = some z := State.crew_setCrew _ _ _
  have hl : y.left m = if z.arch.act = 0 then z.popStack z.arch.stack else z.blockEntry z.arch.pc := by rw [hz]; rfl
  unfold leaveLanes
  refine (M.bind_ok (t := s.setCrew c z) (a := ()) (hz ▸ modC_run _ hy)).trans ((M.bind_ok (crewM_setCrew _ _ _)).trans ?_)
  rw [hl]
  by_cases h0 : z.arch.act = 0
  · rw [if_pos h0, if_pos h0, pop_run hzc hzm, State.setCrew_setCrew]
  · rw [if_neg h0, if_neg h0, enterNext_run hzc, State.setCrew_setCrew]

theorem Crew.left_live (y : Crew) (m : Mask) (h : (y.left m).arch.act = 0) : (y.left m).empty = true := by
  unfold Crew.left at h ⊢
  simp only at h ⊢
  split at h
  · next h0 => rw [if_pos h0]; exact Crew.popStack_live _ _ h
  · next h0 => rw [Crew.blockEntry_act] at h; exact absurd h h0

theorem Crew.foldInstr_pc (w : Crew) (opc : Nat) (h : Head) : (w.foldInstr opc h).arch.pc = w.arch.pc := by
  unfold Crew.foldInstr; split <;> rfl

theorem Crew.begun_pc (w : Crew) (opc : Nat) (x : Ops) :
    (w.begun opc x).arch.pc = w.arch.pc + BitVec.ofNat 52 (lenOf x) := by
  show ({ w with park := none }.foldInstr opc x.head).arch.pc + _ = _
  rw [Crew.foldInstr_pc]

theorem ownPc_run {s : State} {c : Nat} {y : Crew} (x : Ops) (hy : s.crew? c = some y) :
    ownPc c x s = .ok (y.arch.pc - BitVec.ofNat 52 (lenOf x)) s := (M.bind_ok (crewM_run hy)).trans rfl

theorem ownPc_begun (s : State) (c opc : Nat) (w : Crew) (x : Ops) :
    ownPc c x (s.opens c w opc x) = .ok w.arch.pc (s.opens c w opc x) := by
  rw [ownPc_run x (State.opens_crew s c w opc x), Crew.begun_pc, BitVec.add_sub_cancel]

theorem Crew.withScalar_act (y : Crew) (r : Nat) (v : DWord) :
    ({ y with arch := y.arch.setScalar r v } : Crew).arch.act = y.arch.act := Arch.setScalar_act y.arch r v

theorem Crew.jumped_act (y : Crew) (p : Addr) : (y.jumped p).arch.act = y.arch.act := by
  unfold Crew.jumped
  rw [Crew.blockEntry_act]

theorem Arch.setMask_self (a : Arch) (k : Nat) (v : Mask) (h : 1 ≤ k ∧ k ≤ 7) : (a.setMask k v).mask k = v := by
  unfold Arch.setMask Arch.mask
  rw [dif_pos h, dif_pos h]
  simp

@[simp] theorem Crew.setTrapSet_arch (y : Crew) (l : Nat) (t : TrapSet) : (y.setTrapSet l t).arch = y.arch := by
  unfold Crew.setTrapSet; split <;> rfl

@[simp] theorem Crew.setTrapSet_priv (y : Crew) (l : Nat) (t : TrapSet) : (y.setTrapSet l t).priv = y.priv := by
  unfold Crew.setTrapSet; split <;> rfl

/-- What ERET leaves of the registers (R110). -/
theorem Crew.leave_arch (y : Crew) :
    y.leave.arch = Arch.setMask { y.arch with pc := (y.trapSet y.priv.toNat).epc } 7 (y.trapSet y.priv.toNat).em7 := by
  unfold Crew.leave
  simp only [Crew.heal_arch, Crew.setTrapSet_arch]

theorem Crew.leave_priv (y : Crew) : y.leave.priv = (y.trapSet y.priv.toNat).prv := rfl

end Sys2Proof.Machine
end

