-- ==== Sys2Proof/Laws/Lanes.lean ====
section
/-!
SUPPORT. Laws/Lanes.lean: what the shared operations of the lane instructions do, each said once.
-/

namespace Sys2Proof.Machine

open Sys2Proof

/-- A result is delivered as `out` says. -/
theorem laneResult_run {s : State} {c : Nat} {w : Crew} {f : FnT} {x : Ops} {pair : Bool} (op : Nat → Nat → Nat → Nat)
    (va vb vc : Vals) (hw : s.crew? c = some w) (hm : w.marks = []) (ok : s.outOk c f x pair = true) :
    laneResult c f x pair op va vb vc s = .ok ()
      (s.out c f x pair (extend f.ty (op va[0].toNat vb[0].toNat vc[0].toNat))
        fun i => BitVec.ofNat 64 (op va[i].toNat vb[i].toNat vc[i].toNat)) := by
  simp only [State.outOk, Bool.and_eq_true, Bool.or_eq_true] at ok
  obtain ⟨y, hy, hs⟩ := State.afterMg_crew f x hw
  have hmy : y.marks = [] := (Crew.sameButNames_marks hs).trans hm
  unfold laneResult State.out
  refine (M.bind_ok (readMerge_run hw hm ok.1)).trans ((M.bind_ok (State.emaskOf_run _ hy hmy)).trans ?_)
  cases hu : x.head.uni with
  | true => exact writeScalar_of _ _ hy hmy
  | false => exact storeVec_run _ _ _ hy hmy (by simpa [hu] using ok.2)

theorem State.out_crew {s : State} {c : Nat} {w : Crew} (f : FnT) (x : Ops) (pair : Bool) (sv : DWord) (r : Fin 32 → DWord)
    (hw : s.crew? c = some w) : ∃ y, (s.out c f x pair sv r).crew? c = some y ∧ y.arch.act = w.arch.act := by
  obtain ⟨y, hy, hs⟩ := State.afterMg_crew f x hw
  unfold State.out
  cases x.head.uni with
  | true =>
    rw [if_pos rfl]
    exact ⟨_, State.setScalarOf_crew _ _ hy, (Arch.setScalar_act y.arch (scalarNo x.dst) sv).trans (Crew.sameButNames_act hs)⟩
  | false =>
    rw [if_neg (by simp)]
    obtain ⟨z, hz, h2⟩ := State.stored_crew x pair (s.mgVals c f x) (Vector.ofFn r) ((s.afterMg c f x).emaskOf c x.head) hy
    exact ⟨z, hz, (Crew.sameButNames_act h2).trans (Crew.sameButNames_act hs)⟩

/-- One source, then the result. -/
theorem laneUnary_run {s : State} {c : Nat} {w : Crew} {f : FnT} {x : Ops} (op : Nat → Nat)
    (hw : s.crew? c = some w) (hm : w.marks = []) (oa : s.srcOk c x.sa f.ty.wide = true)
    (ok : (s.afterSrc c x.sa f.ty.wide).outOk c f x f.ty.wide = true) :
    laneUnary c f x op s = .ok ()
      ((s.afterSrc c x.sa f.ty.wide).out c f x f.ty.wide
        (extend f.ty (op (s.srcVals c x.head x.sa f.ty.wide)[0].toNat))
        fun i => BitVec.ofNat 64 (op (s.srcVals c x.head x.sa f.ty.wide)[i].toNat)) := by
  obtain ⟨y, hy, hs⟩ := State.afterSrc_crew x.sa f.ty.wide hw
  exact (M.bind_ok (readSrc_run hw hm oa)).trans
    (laneResult_run _ _ _ _ hy ((Crew.sameButNames_marks hs).trans hm) ok)

/-- Two sources, then the result. -/
theorem laneBinary_run {s : State} {c : Nat} {w : Crew} {f : FnT} {x : Ops} (op : Nat → Nat → Nat)
    (hw : s.crew? c = some w) (hm : w.marks = []) (oa : s.srcOk c x.sa f.ty.wide = true)
    (ob : (s.afterSrc c x.sa f.ty.wide).bOk c f.ty.wide x = true)
    (ok : ((s.afterSrc c x.sa f.ty.wide).afterB c f.ty.wide x).outOk c f x f.ty.wide = true) :
    laneBinary c f x op s = .ok ()
      (((s.afterSrc c x.sa f.ty.wide).afterB c f.ty.wide x).out c f x f.ty.wide
        (extend f.ty (op (s.srcVals c x.head x.sa f.ty.wide)[0].toNat
          ((s.afterSrc c x.sa f.ty.wide).bVals c f.ty f.ty.wide x)[0].toNat))
        fun i => BitVec.ofNat 64 (op (s.srcVals c x.head x.sa f.ty.wide)[i].toNat
          ((s.afterSrc c x.sa f.ty.wide).bVals c f.ty f.ty.wide x)[i].toNat)) := by
  obtain ⟨y, hy, hs⟩ := State.afterSrc_crew x.sa f.ty.wide hw
  have hmy := (Crew.sameButNames_marks hs).trans hm
  obtain ⟨z, hz, h2⟩ := State.afterB_crew f.ty.wide x hy
  exact (M.bind_ok (readSrc_run hw hm oa)).trans ((M.bind_ok (readB_run hy hmy ob)).trans
    (laneResult_run _ _ _ _ hz ((Crew.sameButNames_marks h2).trans hmy) ok))

/-- Three sources, then the result. -/
theorem laneTernary_run {s : State} {c : Nat} {w : Crew} {f : FnT} {x : Ops} (op : Nat → Nat → Nat → Nat)
    (hw : s.crew? c = some w) (hm : w.marks = []) (oa : s.srcOk c x.sa f.ty.wide = true)
    (ob : (s.afterSrc c x.sa f.ty.wide).bOk c f.ty.wide x = true)
    (oc : ((s.afterSrc c x.sa f.ty.wide).afterB c f.ty.wide x).srcOk c x.sc f.ty.wide = true)
    (ok : (((s.afterSrc c x.sa f.ty.wide).afterB c f.ty.wide x).afterSrc c x.sc f.ty.wide).outOk c f x f.ty.wide = true) :
    laneTernary c f x op s = .ok ()
      ((((s.afterSrc c x.sa f.ty.wide).afterB c f.ty.wide x).afterSrc c x.sc f.ty.wide).out c f x f.ty.wide
        (extend f.ty (op (s.srcVals c x.head x.sa f.ty.wide)[0].toNat
          ((s.afterSrc c x.sa f.ty.wide).bVals c f.ty f.ty.wide x)[0].toNat
          (((s.afterSrc c x.sa f.ty.wide).afterB c f.ty.wide x).srcVals c x.head x.sc f.ty.wide)[0].toNat))
        fun i => BitVec.ofNat 64 (op (s.srcVals c x.head x.sa f.ty.wide)[i].toNat
          ((s.afterSrc c x.sa f.ty.wide).bVals c f.ty f.ty.wide x)[i].toNat
          (((s.afterSrc c x.sa f.ty.wide).afterB c f.ty.wide x).srcVals c x.head x.sc f.ty.wide)[i].toNat)) := by
  obtain ⟨y, hy, hs⟩ := State.afterSrc_crew x.sa f.ty.wide hw
  have hmy := (Crew.sameButNames_marks hs).trans hm
  obtain ⟨z, hz, h2⟩ := State.afterB_crew f.ty.wide x hy
  have hmz := (Crew.sameButNames_marks h2).trans hmy
  obtain ⟨u, hu, h3⟩ := State.afterSrc_crew x.sc f.ty.wide hz
  exact (M.bind_ok (readSrc_run hw hm oa)).trans ((M.bind_ok (readB_run hy hmy ob)).trans
    ((M.bind_ok (readSrc_run hz hmz oc)).trans
      (laneResult_run _ _ _ _ hu ((Crew.sameButNames_marks h3).trans hmz) ok)))

/-! ## Conditions, one result for all lanes, statistics, DEADSRC -/

theorem State.setMaskOf_some {s : State} {c : Nat} {w : Crew} (k : Nat) (v : Mask) (hw : s.crew? c = some w) :
    ∃ y, (s.setMaskOf c k v).crew? c = some y ∧ y.arch.act = w.arch.act :=
  ⟨_, State.setMaskOf_crew k v hw, Arch.setMask_act w.arch k v⟩

theorem State.setScalarOf_some {s : State} {c : Nat} {w : Crew} (code : BitVec 8) (v : DWord) (hw : s.crew? c = some w) :
    ∃ y, (s.setScalarOf c code v).crew? c = some y ∧ y.arch.act = w.arch.act :=
  ⟨_, State.setScalarOf_crew code v hw, Arch.setScalar_act w.arch (scalarNo code) v⟩

theorem State.stored_some {s : State} {c : Nat} {w : Crew} (x : Ops) (pair : Bool) (old : Option Lanes) (v : Vals) (m : Mask)
    (hw : s.crew? c = some w) : ∃ y, (s.stored c x pair old v m).crew? c = some y ∧ y.arch.act = w.arch.act := by
  obtain ⟨y, hy, hs⟩ := State.stored_crew x pair old v m hw
  exact ⟨y, hy, Crew.sameButNames_act hs⟩

theorem writeCond_run {s : State} {c : Nat} {w : Crew} {f : FnT} {x : Ops} (p : Fin 32 → Bool)
    (hw : s.crew? c = some w) (hm : w.marks = []) (ok : s.condOk c f x = true) :
    writeCond c f x p s = .ok () (s.condOut c f x p) := by
  simp only [State.condOk, Bool.and_eq_true, Bool.or_eq_true] at ok
  obtain ⟨y, hy, hs⟩ := State.afterMg_crew f x hw
  have hmy : y.marks = [] := (Crew.sameButNames_marks hs).trans hm
  unfold writeCond State.condOut
  refine (M.bind_ok (readMerge_run hw hm ok.1)).trans ((M.bind_ok (State.emaskOf_run _ hy hmy)).trans ?_)
  cases hu : x.head.uni with
  | true => exact writeScalar_of _ _ hy hmy
  | false =>
    cases ht : toMask x with
    | true => exact writeMask_of _ _ hy hmy
    | false => exact storeVec_run _ _ _ hy hmy (by simpa [hu, ht] using ok.2)

theorem State.condOut_crew {s : State} {c : Nat} {w : Crew} (f : FnT) (x : Ops) (p : Fin 32 → Bool)
    (hw : s.crew? c = some w) : ∃ y, (s.condOut c f x p).crew? c = some y ∧ y.arch.act = w.arch.act := by
  obtain ⟨y, hy, hs⟩ := State.afterMg_crew f x hw
  rw [← Crew.sameButNames_act hs]
  unfold State.condOut
  cases x.head.uni with
  | true => exact State.setScalarOf_some _ _ hy
  | false =>
    cases toMask x with
    | true => exact State.setMaskOf_some _ _ hy
    | false => exact State.stored_some _ _ _ _ _ hy

theorem storeOne_run {s : State} {c : Nat} {w : Crew} {x : Ops} (v : Nat) (hw : s.crew? c = some w) (hm : w.marks = [])
    (ok : s.oneOk c x = true) : storeOne c x v (s.emaskOf c x.head) s = .ok () (s.oneOut c x v) := by
  simp only [State.oneOk, Bool.or_eq_true] at ok
  unfold storeOne State.oneOut
  cases hu : x.head.uni with
  | true => exact writeScalar_of _ _ hw hm
  | false =>
    cases ht : toMask x with
    | true => exact writeMask_of _ _ hw hm
    | false => exact storeVec_run none (Vector.replicate 32 (BitVec.ofNat 64 v)) (s.emaskOf c x.head) hw hm (by simpa [hu, ht] using ok)

theorem State.oneOut_crew {s : State} {c : Nat} {w : Crew} (x : Ops) (v : Nat) (hw : s.crew? c = some w) :
    ∃ y, (s.oneOut c x v).crew? c = some y ∧ y.arch.act = w.arch.act := by
  unfold State.oneOut
  cases x.head.uni with
  | true => exact State.setScalarOf_some _ _ hw
  | false =>
    cases toMask x with
    | true => exact State.setMaskOf_some _ _ hw
    | false => exact State.stored_some _ _ _ _ _ hw

theorem plain_run {s : State} {c : Nat} {w : Crew} {x : Ops} {pair : Bool} (sv : DWord) (v : Vals)
    (hw : s.crew? c = some w) (hm : w.marks = []) (ok : s.plainOk c x pair = true) :
    (if x.head.uni then writeScalar c x.dst sv else storeVec c x pair none v (s.emaskOf c x.head)) s
      = .ok () (s.plainOut c x pair sv v) := by
  unfold State.plainOut
  cases hu : x.head.uni with
  | true => exact writeScalar_of _ _ hw hm
  | false => exact storeVec_run none v (s.emaskOf c x.head) hw hm (by simpa [State.plainOk, hu] using ok)

theorem State.plainOut_crew {s : State} {c : Nat} {w : Crew} (x : Ops) (pair : Bool) (sv : DWord) (v : Vals)
    (hw : s.crew? c = some w) : ∃ y, (s.plainOut c x pair sv v).crew? c = some y ∧ y.arch.act = w.arch.act := by
  unfold State.plainOut
  cases x.head.uni with
  | true => exact State.setScalarOf_some _ _ hw
  | false => exact State.stored_some _ _ _ _ _ hw

theorem countStat_run {s : State} {c : Nat} {w : Crew} (tid : Nat) (d : Stat) (hw : s.crew? c = some w) :
    countStat c tid d s = .ok () (s.noted c tid d) := by
  rw [countStat, modC_run _ hw]; simp [State.noted, hw]

theorem State.noted_crew {s : State} {c : Nat} {w : Crew} (tid : Nat) (d : Stat) (hw : s.crew? c = some w) :
    ∃ y, (s.noted c tid d).crew? c = some y ∧ y.arch.act = w.arch.act := by
  simp [State.noted, hw]

theorem deadRead_run {s : State} {c : Nat} {w : Crew} (p : Bool) (hw : s.crew? c = some w) :
    setDeadsrc c p s = .ok () (s.deadRead c p) :=
  (modC_run _ hw).trans (by simp [State.deadRead, hw])

theorem State.deadRead_crew {s : State} {c : Nat} {w : Crew} (p : Bool) (hw : s.crew? c = some w) :
    ∃ y, (s.deadRead c p).crew? c = some y ∧ y.arch.act = w.arch.act ∧ y.marks = w.marks :=
  ⟨{ w with deadsrc := w.deadsrc || p }, by simp [State.deadRead, hw], rfl, rfl⟩

theorem readCross_run {s : State} {c : Nat} {w : Crew} {h : Head} {code : BitVec 8} {wide : Bool} (lanes : Mask → Mask)
    (hw : s.crew? c = some w) (hm : w.marks = []) (ok : s.srcOk c code wide = true) :
    readCross c h code wide lanes s = .ok (s.srcVals c h code wide) (s.afterSrc c code wide) := by
  unfold readCross State.srcVals State.afterSrc
  cases hv : isVec code with
  | false =>
    simp only [Bool.false_eq_true, if_false]
    refine (M.bind_ok (readScalar_run _ hw hm)).trans ?_
    simp [State.scalarOf, hw]
  | true =>
    simp only [State.srcOk, hv, Bool.not_true, Bool.false_or, Bool.and_eq_true, Bool.or_eq_true, Bool.not_eq_true'] at ok
    simp only [if_true]
    refine (M.bind_ok (emask_run h hw hm)).trans ?_
    refine (M.bind_ok (readName_run _ hw hm ok.1)).trans ?_
    cases wide with
    | false => simp
    | true =>
      obtain ⟨y, hy, hs⟩ := State.took_crew code.toNat hw
      have hmy : y.marks = [] := (Crew.sameButNames_marks hs).trans hm
      have ok2 : (s.took c code.toNat).readable c (code.toNat + 1) = true := by simpa using ok.2
      simp only [if_true]
      refine (M.bind_ok (emask_run h hy hmy)).trans ?_
      refine (M.bind_ok (readName_run _ hy hmy ok2)).trans ?_
      simp

theorem readTid_run {s : State} {c : Nat} {w : Crew} (x : Ops) (hw : s.crew? c = some w) (hm : w.marks = []) :
    readTid c x s = .ok ((s.scalarOf c x.sb).toNat % 256) s := by
  unfold readTid
  refine (M.bind_ok (readScalar_run _ hw hm)).trans ?_
  simp [State.scalarOf, hw]

theorem State.deadRead_emask {s : State} {c : Nat} {w : Crew} (p : Bool) (h : Head) (hw : s.crew? c = some w) :
    (s.deadRead c p).emaskOf c h = s.emaskOf c h := by
  simp [State.deadRead, State.emaskOf, hw]

theorem State.nameLanes_named {s : State} {c n : Nat} {w : Crew} (hw : s.crew? c = some w) (h : s.readable c n = true) :
   ∃ e, (Tab.at? w.arch.names n).bind (fun b => Tab.at? (s.core (s.coreOf w)).vs b.entry) = some e ∧ s.nameLanes c n = e.lanes := by
  unfold State.readable at h
  unfold State.nameLanes
  unfold State.named at *
  simp only [hw] at *
  cases hn : Tab.at? w.arch.names n with
  | none => simp [hn] at h
  | some b =>
    cases he : Tab.at? (s.core (s.coreOf w)).vs b.entry with
    | none => simp [hn, he] at h
    | some e => exact ⟨e, by simp [he], by simp [he]⟩

theorem peekSelector_run {s : State} {c : Nat} {w : Crew} {x : Ops} (hw : s.crew? c = some w)
    (osel : isVec x.sb = true → x.head.len = 0 → s.readable c x.sb.toNat = true) :
    peekSelector c x s = .ok (s.selector c x) s := by
  simp only [peekSelector, M.bind_run, crewM_run hw, vsM_run hw, M.pure_run, State.selector]
  by_cases hl : x.head.len = 0
  · cases hb : isVec x.sb with
    | false => simp [State.scalarOf, hw, hl]
    | true =>
      obtain ⟨e, he, hl2⟩ := State.nameLanes_named hw (osel hb hl)
      simp only [hl, if_true, he, hl2]
  · simp only [ne_eq, hl, not_false_eq_true, if_true]

theorem laneNo_run {s : State} {c : Nat} {w : Crew} (x : Ops) (hw : s.crew? c = some w) (hm : w.marks = []) :
    laneNo c x s = .ok (s.laneOf c x) s := by
  unfold laneNo State.laneOf
  by_cases hl : x.head.len = 0
  · rw [if_neg (by simp [hl])]
    refine (M.bind_ok (readScalar_run _ hw hm)).trans ?_
    simp [State.scalarOf, hw, hl]
  · rw [if_pos hl, if_pos hl]; rfl

end Sys2Proof.Machine
end

