-- ==== Sys2Proof/Laws/Names.lean ====
section
/-!
SUPPORT. Laws/Names.lean: what giving counts back, and the moves of floors and cede pools do, each said once.
-/

namespace Sys2Proof.Machine

open Sys2Proof

theorem unbind_run {s : State} {c n : Nat} {w : Crew} (hw : s.crew? c = some w) :
    unbind c n s = .ok () (s.setCrew c { w with arch := { w.arch with names := Tab.del w.arch.names n } }) := modC_run _ hw

theorem setName_run {s : State} {c n : Nat} {w : Crew} (b : Binding) (hw : s.crew? c = some w) :
    setName c n b s = .ok () (s.recount c n b) := by
  rw [State.recount]; simp only [hw]; exact modC_run _ hw

/-- drop(N) of a bound name that is not leased (R33, R17). -/
theorem dropName_of {s : State} {c n : Nat} {w : Crew} {b : Binding} {e : Entry} (hw : s.crew? c = some w)
    (hm : useItem c (.name n) s = .ok () s) (hn : s.named c n = some (b, e)) (hl : e.st ≠ .leased) :
    dropName c n s = .ok () (s.dropped c n) := by
  unfold dropName State.dropped
  simp only [hw, hn]
  refine (M.bind_ok (lookup_of hw hm hn)).trans ((M.bind_ok (crewM_run hw)).trans ?_)
  obtain ⟨y, hy⟩ : ∃ y : Crew, y = { w with arch := { w.arch with names := Tab.del w.arch.names n } } := ⟨_, rfl⟩
  have hcore : (s.setCrew c y).coreOf y = s.coreOf w := by rw [hy]; rfl
  have key : ∀ f : Tab Entry → Tab Entry, (unbind c n >>= fun _ => modVs c f) s
      = .ok () ((s.setCrew c y).modCore (s.coreOf w) fun k => { k with vs := f k.vs }) := by
    intro f
    refine (M.bind_ok (hy ▸ unbind_run hw)).trans ?_
    rw [modVs_run f (State.crew_setCrew s c y), hcore]
  rw [← hy]
  revert hl
  cases e.st with
  | leased => intro h; exact absurd rfl h
  | pending => intro _; exact key _
  | opened => intro _; exact key _
  | bound => intro _; exact key _
  | released => intro _; exact key _

theorem dropName_run {s : State} {c n : Nat} {w : Crew} {b : Binding} {e : Entry} (hw : s.crew? c = some w)
    (hm : w.marks = []) (hn : s.named c n = some (b, e)) (hl : e.st ≠ .leased) :
    dropName c n s = .ok () (s.dropped c n) := dropName_of hw (useItem_clean _ hw hm) hn hl

/-- An item that has just been healed can be used. -/
theorem useItem_healed {s : State} {c : Nat} {w : Crew} (i : RegItem) (hw : s.crew? c = some (w.heal i)) :
    useItem c i s = .ok () s := by
  unfold useItem
  refine (M.bind_ok (crewM_run hw)).trans ?_
  rw [if_neg]
  · rfl
  · simp [Crew.heal]

theorem State.recount_some {s : State} {c : Nat} {w : Crew} (n : Nat) (b : Binding) (hw : s.crew? c = some w) :
    ∃ y, (s.recount c n b).crew? c = some y ∧ y.arch.act = w.arch.act := by
  simp [State.recount, hw]

theorem State.dropped_some {s : State} {c : Nat} {w : Crew} (n : Nat) (hw : s.crew? c = some w) :
    ∃ y, (s.dropped c n).crew? c = some y ∧ y.arch.act = w.arch.act := by
  unfold State.dropped
  simp only [hw]
  cases s.named c n with
  | none => exact ⟨w, hw, rfl⟩
  | some p => exact ⟨_, (State.crew_modCore _ _ _ _).trans (State.crew_setCrew _ _ _), rfl⟩

/-- The operand of CLAIM and CEDE (R95, R96). -/
theorem readCount_run {s : State} {c : Nat} {w : Crew} {x : Ops} (hw : s.crew? c = some w) (hm : w.marks = [])
    (ok : s.countOk c x = true) : readCount c x s = .ok (s.countOf c x) s := by
  unfold readCount State.countOf
  by_cases h0 : x.head.len = 0
  · rw [if_neg (by simp [h0]), if_neg (by simp [h0])]
    have hs : s.scalarOf c x.sa = w.arch.scalar (scalarNo x.sa) := by simp [State.scalarOf, hw]
    have ok2 : (w.arch.scalar (scalarNo x.sa)).toNat ≤ 4096 := by simpa [State.countOk, h0, hs] using ok
    refine (M.bind_ok (readScalar_run _ hw hm)).trans ?_
    rw [if_neg (Nat.not_lt.2 ok2), hs]
    rfl
  · rw [if_pos h0, if_pos h0]; rfl

theorem Crew.begun_gang (w : Crew) (opc : Nat) (x : Ops) : (w.begun opc x).gang = w.gang := by
  show ({ w with park := none }.foldInstr opc x.head).gang = _
  unfold Crew.foldInstr; split <;> rfl

theorem Crew.begun_home (w : Crew) (opc : Nat) (x : Ops) : (w.begun opc x).home = w.home := by
  show ({ w with park := none }.foldInstr opc x.head).home = _
  unfold Crew.foldInstr; split <;> rfl

theorem Crew.begun_priv (w : Crew) (opc : Nat) (x : Ops) : (w.begun opc x).priv = w.priv := by
  show ({ w with park := none }.foldInstr opc x.head).priv = _
  unfold Crew.foldInstr; split <;> rfl

/-- The instruction that issues stands at the PC before it (R308). -/
theorem Crew.begun_ipc (w : Crew) (opc : Nat) (x : Ops) : (w.begun opc x).ipc = w.arch.pc := by
  show ({ w with park := none }.foldInstr opc x.head).arch.pc = _
  unfold Crew.foldInstr; split <;> rfl

theorem Crew.begun_acc (w : Crew) (opc : Nat) (x : Ops) : (w.begun opc x).acc = w.acc := by
  show ({ w with park := none }.foldInstr opc x.head).acc = _
  unfold Crew.foldInstr; split <;> rfl

/-- The core of a crew depends on its home and its gang. -/
theorem State.coreOf_congr (s : State) {w y : Crew} (h : y.home = w.home) (g : y.gang = w.gang) :
    s.coreOf y = s.coreOf w := by
  unfold State.coreOf
  rw [h, g]

theorem State.coreOf_begun (s : State) (w : Crew) (opc : Nat) (x : Ops) : s.coreOf (w.begun opc x) = s.coreOf w :=
  s.coreOf_congr (Crew.begun_home w opc x) (Crew.begun_gang w opc x)

theorem needPriv_run {s : State} {c level : Nat} {w : Crew} (hw : s.crew? c = some w) (h : level ≤ w.priv.toNat) :
    needPriv c level s = .ok () s := by
  unfold needPriv
  refine (M.bind_ok (crewM_run hw)).trans ?_
  rw [if_neg (by omega)]
  rfl

end Sys2Proof.Machine
end

