-- ==== Sys2Proof/Laws/Waits.lean ====
section
/-!
SUPPORT. Laws/Waits.lean: how an instruction that waits for another agent starts its wait and ends, what an acquire leaves,
and how an instruction ends that writes a scalar last, each said once.
-/

namespace Sys2Proof.Machine

open Sys2Proof

theorem Crew.begun_waitEvt (w : Crew) (opc : Nat) (x : Ops) : (w.begun opc x).waitEvt = w.waitEvt := by
  show ({ w with park := none }.foldInstr opc x.head).waitEvt = _
  unfold Crew.foldInstr; split <;> rfl

theorem State.delivered_crew {s : State} {c : Nat} {w : Crew} (hw : s.crew? c = some w) :
    (s.delivered c).crew? c = some { w with waitEvt := none } := by
  simp [State.delivered, hw]

theorem twoPhase_start {s t : State} {c opc : Nat} {w y : Crew} {x : Ops} {ckpt : Bool} {start : M Park} {body : DWord → M Unit}
    {p : Park} (h : Issues s c w x) (hk : ckpt = true → w.acc = []) (he : w.waitEvt = none) (hs : start s = .ok p t)
    (hy : t.crew? c = some y) :
    twoPhase c opc x ckpt start body s = .ok () (t.setCrew c { y with park := some p }) := by
  have hsw : (x.head.sw && switchWaits w (s.core (s.coreOf w)).vs) = false := by
    cases hx : x.head.sw with
    | false => rfl
    | true => simp [h.sw hx]
  have hck : (ckpt && !w.acc.isEmpty) = false := by
    cases ckpt with
    | false => rfl
    | true => simp [hk rfl]
  unfold twoPhase
  refine (M.bind_ok (crewM_run h.crew)).trans ?_
  simp only [he]
  refine (M.bind_ok (vsM_run h.crew)).trans ?_
  simp only [hsw, hck, Bool.false_eq_true, if_false]
  refine (M.bind_ok hs).trans ?_
  exact modC_run _ hy

theorem deliver_run {s : State} {c : Nat} {w : Crew} {v : DWord} (body : DWord → M Unit) (hw : s.crew? c = some w)
    (he : w.waitEvt = some v) : deliver c body s = body v (s.delivered c) := by
  unfold deliver
  refine (M.bind_ok (crewM_run hw)).trans ?_
  simp only [he]
  refine (M.bind_ok (modC_run _ hw)).trans ?_
  simp [State.delivered, hw]

theorem twoPhase_done {s t : State} {c opc : Nat} {w y : Crew} {x : Ops} {ckpt : Bool} {start : M Park} {body : DWord → M Unit}
    {v : DWord} (h : Issues s c w x) (hk : ckpt = true → w.acc = []) (he : w.waitEvt = some v)
    (hb : body v ((s.opens c w opc x).delivered c) = .ok () t) (hy : t.crew? c = some y) (ha : y.arch.act = 0 → y.empty = true) :
    twoPhase c opc x ckpt start body s = .ok () (t.ended c w) := by
  unfold twoPhase
  refine (M.bind_ok (crewM_run h.crew)).trans ?_
  simp only [he]
  rw [issue_run (opc := opc) (t := t) (y := y) h.crew h.sw hk ?_ hy ha]
  · simp [State.ended, hy]
  · refine Eq.trans ?_ hb
    exact deliver_run _ (State.opens_crew s c w opc x) ((Crew.begun_waitEvt w opc x).trans he)

theorem State.delivered_same {s : State} {c : Nat} {w : Crew} (hw : s.crew? c = some w) (hm : w.marks = []) :
   ∃ y, (s.delivered c).crew? c = some y ∧ y.marks = [] ∧ y.arch = w.arch :=
  ⟨_, State.delivered_crew hw, hm, rfl⟩

theorem State.acquireL1_crew (s : State) (c core scope : Nat) : (s.acquireL1 core scope).crew? c = s.crew? c := by
  unfold State.acquireL1; split <;> rfl

theorem acquireM_run {s : State} {c : Nat} {w : Crew} (scope : Nat) (hw : s.crew? c = some w) :
    acquireM c scope s = .ok () (s.acquired c scope) := by
  unfold acquireM
  refine (M.bind_ok (crewM_run hw)).trans ?_
  simp [State.acquired, hw]

theorem State.acquired_crew (s : State) (c scope : Nat) : (s.acquired c scope).crew? c = s.crew? c := by
  unfold State.acquired
  split
  · rfl
  · rw [State.acquireL1_crew]

theorem Crew.begun_scalar (w : Crew) (opc : Nat) (x : Ops) (r : Nat) :
    (w.begun opc x).arch.scalar r = w.arch.scalar r := by
  show ({ w with park := none }.foldInstr opc x.head).arch.scalar r = _
  unfold Crew.foldInstr; split <;> rfl

/-- The end of an instruction whose last effect writes a scalar. -/
theorem issueStep_scalar {s t : State} {c opc : Nat} {w y : Crew} {x : Ops} {ckpt : Bool} {body : Nat → M Unit} (code : BitVec 8)
    (v : DWord) (h : Issues s c w x) (hk : ckpt = true → w.acc = []) (hy : t.crew? c = some y)
    (hb : body c (s.opens c w opc x) = writeScalar c code v t) (hm : y.marks = [])
    (ha : y.arch.act = w.arch.act) : issueStep opc x ckpt body s = .next ((t.setScalarOf c code v).ended c w) := by
  obtain ⟨u, hu, h2⟩ := State.setScalarOf_some code v hy
  refine issueStep_ended h hk (hb.trans (writeScalar_of code v hy hm)) hu ?_
  rw [h2, ha]; exact h.awake

theorem State.tidySlot_crew (s : State) (k c : Nat) : (s.tidySlot k).crew? c = s.crew? c := by
  unfold State.tidySlot
  simp only
  split <;> rfl

theorem State.setKeyslot_crew (s : State) (k : Nat) (v : BitVec 7) (c : Nat) : (s.setKeyslot k v).crew? c = s.crew? c := by
  unfold State.setKeyslot
  simp only
  split
  · rfl
  · exact State.tidySlot_crew _ _ _

theorem issue_error {s t : State} {c opc : Nat} {w : Crew} {x : Ops} {ckpt : Bool} {body : M Unit} {e : Stop}
    (h : Issues s c w x) (hk : ckpt = true → w.acc = []) (hb : body (s.opens c w opc x) = .error e t) :
    issue c opc x ckpt true body s = .error e t := by
  have hsw : (x.head.sw && switchWaits w (s.core (s.coreOf w)).vs) = false := by
    cases hx : x.head.sw with
    | false => rfl
    | true => simp [h.sw hx]
  have hck : (ckpt && !w.acc.isEmpty) = false := by
    cases ckpt with
    | false => rfl
    | true => simp [hk rfl]
  unfold issue
  refine (M.bind_ok (crewM_run h.crew)).trans ?_
  refine (M.bind_ok (vsM_run h.crew)).trans ?_
  simp only [hsw, hck, Bool.false_eq_true, if_false]
  refine (M.bind_ok (modC_run _ h.crew)).trans ?_
  refine (M.bind_ok (modC_setCrew _ _ _ _)).trans ?_
  refine (M.bind_ok (modC_setCrew _ _ _ _)).trans ?_
  exact M.bind_error (f := fun _ => finish c w) hb

/-- An instruction whose effect raises a fault takes its trap where the effect left the machine, once what it did to the names is
undone (R21, R23). -/
theorem issueStep_trap {s t : State} {c opc : Nat} {w y : Crew} {x : Ops} {ckpt : Bool} {body : Nat → M Unit}
    {cause : Cause} {addr : Nat} (h : Issues s c w x) (hk : ckpt = true → w.acc = [])
    (hb : body c (s.opens c w opc x) = .error (.trap cause addr none) t) (hy : t.crew? c = some y) :
    issueStep opc x ckpt body s
      = .next (t.trapped s c w cause addr ((w.arch.without y.dead).emask x.head)) := by
  have hr := issue_error (opc := opc) (body := body c) h hk hb
  simp [issueStep, crewStep, h.cur, h.crew, hr, settleIssue, hy, State.trapped]

theorem Crew.begun_dead (w : Crew) (opc : Nat) (x : Ops) : (w.begun opc x).dead = w.dead := by
  show ({ w with park := none }.foldInstr opc x.head).dead = _
  unfold Crew.foldInstr; split <;> rfl

end Sys2Proof.Machine
end

