-- ==== Sys2Proof/Laws/Frame.lean ====
section
/-!
SUPPORT. Laws/Frame.lean: reading and writing operands changes nothing of the machine but the crew that issues and the
entries of value stores.
-/

namespace Sys2Proof.Machine

open Sys2Proof

/-- `t` is `s` but for crew `c` and the entries of value stores. -/
structure State.Near (s t : State) (c : Nat) : Prop where
  rest  : t = { s with crews := t.crews, cores := t.cores }
  cores : ∀ j, t.core j = { s.core j with vs := (t.core j).vs }
  crews : ∀ d, d ≠ c → t.crew? d = s.crew? d

theorem State.Near.refl (s : State) (c : Nat) : s.Near s c := ⟨rfl, fun _ => rfl, fun _ _ => rfl⟩

theorem State.Near.trans {s t u : State} {c : Nat} (h : s.Near t c) (k : t.Near u c) : s.Near u c := by
  refine ⟨?_, fun j => ?_, fun d hd => (k.crews d hd).trans (h.crews d hd)⟩
  · have h1 := h.rest
    have k1 := k.rest
    rw [h1] at k1
    exact k1
  · have h1 := h.cores j
    have k1 := k.cores j
    rw [h1] at k1
    exact k1

theorem State.near_setCrew (s : State) (c : Nat) (w : Crew) : s.Near (s.setCrew c w) c :=
  ⟨rfl, fun _ => rfl, fun d hd => State.crew_setCrew_ne s c d w (Ne.symm hd)⟩

theorem State.near_modCore (s : State) (c k : Nat) (f : Core → Core) (hf : ∀ u, f u = { u with vs := (f u).vs }) :
    s.Near (s.modCore k f) c := by
  refine ⟨rfl, fun j => ?_, fun _ _ => rfl⟩
  by_cases hj : k = j
  · subst hj
    unfold State.modCore
    rw [State.core_setCore]
    exact hf _
  · unfold State.modCore
    rw [State.core_setCore_ne s k j _ hj]

theorem State.near_modVs (s : State) (c k : Nat) (f : Core → Tab Entry) :
    s.Near (s.modCore k fun u => { u with vs := f u }) c := State.near_modCore s c k _ fun _ => rfl

theorem State.near_opens (s : State) (c : Nat) (w : Crew) (opc : Nat) (x : Ops) : s.Near (s.opens c w opc x) c :=
  State.near_setCrew _ _ _

theorem State.near_took (s : State) (c n : Nat) : s.Near (s.took c n) c := by
  unfold State.took
  split
  · exact State.Near.refl s c
  · split
    · exact State.Near.refl s c
    · split
      · exact State.Near.refl s c
      · split
        · exact (State.near_setCrew _ _ _).trans (State.near_modVs _ _ _ _)
        · exact State.near_setCrew _ _ _

theorem State.near_afterSrc (s : State) (c : Nat) (code : BitVec 8) (wide : Bool) : s.Near (s.afterSrc c code wide) c := by
  unfold State.afterSrc
  split
  · split
    · exact (State.near_took _ _ _).trans (State.near_took _ _ _)
    · exact State.near_took _ _ _
  · exact State.Near.refl s c

theorem State.near_afterB (s : State) (c : Nat) (wide : Bool) (x : Ops) : s.Near (s.afterB c wide x) c := by
  unfold State.afterB
  split
  · exact State.Near.refl s c
  · exact State.near_afterSrc _ _ _ _

theorem State.near_afterMg (s : State) (c : Nat) (f : FnT) (x : Ops) : s.Near (s.afterMg c f x) c := by
  unfold State.afterMg
  split
  · exact State.near_took _ _ _
  · exact State.Near.refl s c

theorem State.near_setScalarOf (s : State) (c : Nat) (code : BitVec 8) (v : DWord) : s.Near (s.setScalarOf c code v) c := by
  unfold State.setScalarOf
  split
  · exact State.near_setCrew _ _ _
  · exact State.Near.refl s c

theorem State.near_bindName (s : State) (c n count : Nat) (st : EState) : s.Near (s.bindName c n count st) c := by
  unfold State.bindName
  split
  · exact State.Near.refl s c
  · exact (State.near_modVs _ _ _ _).trans (State.near_setCrew _ _ _)

theorem State.near_fillName (s : State) (c n : Nat) (v : Lanes) : s.Near (s.fillName c n v) c := by
  unfold State.fillName
  split
  · exact State.Near.refl s c
  · split
    · exact State.Near.refl s c
    · refine State.near_modCore _ _ _ _ fun k => ?_
      split <;> rfl

theorem State.near_stored (s : State) (c : Nat) (x : Ops) (pair : Bool) (old : Option Lanes) (v : Vals) (m : Mask) :
    s.Near (s.stored c x pair old v m) c := by
  unfold State.stored
  split
  · exact State.Near.refl s c
  · split
    · exact (((State.near_bindName _ _ _ _ _).trans (State.near_bindName _ _ _ _ _)).trans
        (State.near_fillName _ _ _ _)).trans (State.near_fillName _ _ _ _)
    · exact (State.near_bindName _ _ _ _ _).trans (State.near_fillName _ _ _ _)

theorem State.near_out (s : State) (c : Nat) (f : FnT) (x : Ops) (pair : Bool) (sv : DWord) (r : Fin 32 → DWord) :
    s.Near (s.out c f x pair sv r) c := by
  unfold State.out
  refine (State.near_afterMg s c f x).trans ?_
  simp only
  split
  · exact State.near_setScalarOf _ _ _ _
  · exact State.near_stored _ _ _ _ _ _ _

theorem State.Near.gang {s t : State} {c : Nat} (h : s.Near t c) (g : Nat) : t.gang? g = s.gang? g := by
  rw [h.rest]; rfl

theorem State.Near.coreOf {s t : State} {c : Nat} (h : s.Near t c) (w : Crew) : t.coreOf w = s.coreOf w := by
  rw [h.rest]; rfl

end Sys2Proof.Machine
end

