-- ==== Sys2Proof/Laws/Mask.lean ====
section
/-!
SUPPORT. Laws/Mask.lean: which lanes are in a mask that a predicate gives, and in the list of a mask's lanes.
-/

namespace Sys2Proof

theorem mem_lanesOf {m : Mask} {l : Fin 32} : l ∈ lanesOf m ↔ m[l] = true := by
  unfold lanesOf
  rw [List.mem_filter]
  constructor
  · exact fun h => h.2
  · exact fun h => ⟨by unfold allLanes; exact List.mem_finRange l, h⟩

theorem oneLane_bit (l i : Fin 32) : ((1#32 <<< l.val : BitVec 32))[i] = decide (l = i) := by
  revert l i; decide

theorem maskFold_bit (p : Fin 32 → Bool) (ls : List (Fin 32)) (m : Mask) (i : Fin 32) :
    (ls.foldl (fun m l => if p l then m ||| (1#32 <<< l.val) else m) m)[i] = (m[i] || ls.any fun l => p l && decide (l = i)) := by
  induction ls generalizing m with
  | nil => simp
  | cons l ls ih =>
    rw [List.foldl_cons, ih, List.any_cons, ← Bool.or_assoc]
    congr 1
    cases hp : p l with
    | false => simp
    | true =>
      have := oneLane_bit l i
      simp only [if_true, Bool.true_and]
      rw [← this]
      exact BitVec.getElem_or ..

/-- A lane is in the mask of a predicate that it satisfies. -/
theorem maskOf_bit (p : Fin 32 → Bool) (i : Fin 32) : (maskOf p)[i] = p i := by
  unfold maskOf
  rw [maskFold_bit]
  have h0 : (0#32)[i] = false := by simp
  rw [h0, Bool.false_or, Bool.eq_iff_iff, List.any_eq_true]
  constructor
  · rintro ⟨l, _, h⟩
    simp only [Bool.and_eq_true, decide_eq_true_eq] at h
    rw [← h.2]; exact h.1
  · intro h
    exact ⟨i, by unfold allLanes; exact List.mem_finRange i, by simp [h]⟩

end Sys2Proof
end

