-- ==== Sys2Proof/Laws/Units.lean ====
section
/-!
SUPPORT. Laws/Units.lean: the shared operations of memory instructions, barriers, bins and timelines, each said once.
-/

namespace Sys2Proof.Machine

open Sys2Proof

/-- The bin that an instruction names. -/
theorem binM_run {s : State} {c n : Nat} {w : Crew} {g : Gang} {b : Bin} (hw : s.crew? c = some w)
    (hg : s.gang? w.gang = some g) (hb : Tab.at? g.bins n = some b) : binM c n s = .ok b s := by
  unfold binM
  refine (M.bind_ok (gangM_run hw hg)).trans ?_
  simp only [hb]
  rfl

/-- A bin of the crew's gang is replaced. -/
theorem setBin_run {s : State} {c n : Nat} {w : Crew} (b : Bin) (hw : s.crew? c = some w) :
    setBin c n b s = .ok () (s.withBin w.gang n b) := by
  unfold setBin
  exact (M.bind_ok (crewM_run hw)).trans rfl

theorem State.opens_gang (s : State) (c : Nat) (w : Crew) (opc : Nat) (x : Ops) (g : Nat) :
    (s.opens c w opc x).gang? g = s.gang? g := rfl

theorem State.modGang_crew (s : State) (k : Nat) (f : Gang → Gang) (c : Nat) : (s.modGang k f).crew? c = s.crew? c := by
  unfold State.modGang; split <;> rfl

/-- A live crew and what it has. -/
theorem State.live_some {s : State} {c : Nat} (h : s.live c = true) :
    ∃ y, s.crew? c = some y ∧ y.arch.act ≠ 0 ∧ y.marks = [] := by
  unfold State.live at h
  split at h
  · next y hy =>
    simp only [Bool.and_eq_true, bne_iff_ne, ne_eq, List.isEmpty_iff] at h
    exact ⟨y, hy, h.1, h.2⟩
  · cases h

/-- R156: nothing keeps a release waiting where the crew's matrix instructions are over. -/
theorem matrixFence_run {s : State} {c : Nat} {rel : Bool} {w : Crew} (hw : s.crew? c = some w)
    (h : rel = true → s.matrixIdle c = true) : matrixFence c rel s = .ok () s := by
  unfold matrixFence
  refine (M.bind_ok (crewM_run hw)).trans ?_
  refine (M.bind_ok (getS_run s)).trans ?_
  rw [if_neg]
  · rfl
  · cases rel with
    | false => simp
    | true =>
      have := h rfl
      simp only [State.matrixIdle, hw] at this
      simpa using this

theorem Crew.begun_evsnap (w : Crew) (opc : Nat) (x : Ops) : (w.begun opc x).evsnap = w.evsnap := by
  show ({ w with park := none }.foldInstr opc x.head).evsnap = _
  unfold Crew.foldInstr; split <;> rfl

/-- R343: nothing is traced while the recorder is off. -/
theorem traceM_off {s : State} {c opc : Nat} {w : Crew} (pc : Addr) (m : Mask) (addr : Tab Nat) (sp : Bool) (ty : Ty)
    (hw : s.crew? c = some w) (ht : (s.core (s.coreOf w)).trc.en = false) :
    traceM c opc pc m addr sp ty s = .ok () s := by
  unfold traceM
  refine (M.bind_ok (crewM_run hw)).trans ((M.bind_ok (getS_run s)).trans ?_)
  simp only [ht]
  rfl

theorem Crew.sameButNames_gang {w y : Crew} (h : w.sameButNames y) : y.gang = w.gang ∧ y.home = w.home ∧ y.priv = w.priv := by
  rw [h]; exact ⟨rfl, rfl, rfl⟩

theorem State.fillTlb_crew (s : State) (core : Option Nat) (die : Nat) (e : TlbEntry) (c : Nat) :
    (s.fillTlb core die e).crew? c = s.crew? c := by
  unfold State.fillTlb
  cases core <;> rfl

theorem State.translate_crew (s : State) (core : Option Nat) (die ctx : Nat) (p : BitVec 2) (way : Way) (va n c : Nat) :
    (s.translate core die ctx p way va n).2.crew? c = s.crew? c := by
  unfold State.translate
  repeat' split
  all_goals first | rfl | exact State.fillTlb_crew _ _ _ _ _

theorem State.loadCached_crew (s : State) (core key pa n c : Nat) : (s.loadCached core key pa n).2.crew? c = s.crew? c := by
  unfold State.loadCached
  repeat' split
  all_goals rfl

/-- R166: a line that a PREF requests changes no crew. -/
theorem State.prefetch_crew (s : State) (x : Crew) (l1 : Bool) (size a : Nat) (got : List Nat) (c : Nat) :
    (s.prefetch x l1 size a got).2.crew? c = s.crew? c := by
  unfold State.prefetch
  dsimp only
  split
  · rfl
  · have h := State.translate_crew s (some (s.coreOf x)) (dieOf (s.coreOf x)) (s.ctxOf x) x.priv .read a 1 c
    generalize s.translate (some (s.coreOf x)) (dieOf (s.coreOf x)) (s.ctxOf x) x.priv .read a 1 = q at h
    obtain ⟨r, t⟩ := q
    cases r with
    | ok pl =>
      simp only
      repeat' split
      all_goals first | exact h | exact (State.loadCached_crew _ _ _ _ _ _).trans h
    | fault _ => rfl
    | poison => rfl

theorem State.prefetchAll_crew (s : State) (c : Nat) (x : Crew) (l1 : Bool) (ty : Ty) (addr : Tab Nat) (d : Nat) :
    (s.prefetchAll c x l1 ty addr).crew? d = s.crew? d := by
  have h : ∀ (l : Tab Nat) (q : List Nat × State),
      (l.foldl (fun q p => q.2.prefetch x l1 (Ty.size ty) p.2 q.1) q).2.crew? d = q.2.crew? d := by
    intro l
    induction l with
    | nil => exact fun _ => rfl
    | cons p l ih => exact fun q => (ih _).trans (State.prefetch_crew _ _ _ _ _ _ _)
  unfold State.prefetchAll
  dsimp only
  split <;> exact h addr ([], s)

/-- R204, R205: an acquire where every wait is met and no covered failure is unreported. -/
theorem awaitM_run {s : State} {c : Nat} {w : Crew} {ws : List (Nat × Nat)} (hw : s.crew? c = some w)
    (h : s.waitsMet c ws = true) : awaitM c ws s = .ok () (s.acquired c 4) := by
  unfold State.waitsMet at h
  simp only [hw] at h
  cases hg : s.gang? w.gang with
  | none => rw [hg] at h; cases h
  | some g =>
    rw [hg] at h
    unfold awaitM
    refine (M.bind_ok (crewM_run hw)).trans ((M.bind_ok (gangM_run hw hg)).trans ?_)
    have h1 : (ws.any fun q => decide ((g.timeline q.1).done < q.2)) = false := by
      rw [List.any_eq_false]
      intro q hq
      have := List.all_eq_true.mp h q hq
      simp only [Bool.and_eq_true, decide_eq_true_eq] at this
      simp only [decide_eq_true_eq]
      omega
    have h2 : (ws.findSome? fun q => ((g.timeline q.1).fails.find? fun f => decide (f.n ≤ q.2)).map fun f => (q.1, f)) = none := by
      rw [List.findSome?_eq_none_iff]
      intro q hq
      have := List.all_eq_true.mp h q hq
      simp only [Bool.and_eq_true, List.all_eq_true, decide_eq_true_eq] at this
      rw [Option.map_eq_none_iff, List.find?_eq_none]
      intro f hf
      have := this.2 f hf
      simp only [decide_eq_true_eq]
      omega
    rw [h1, h2, if_neg (by simp)]
    exact acquireM_run 4 hw

theorem State.bumpPhase_crew (s : State) (l n g c : Nat) : (s.bumpPhase l n g).crew? c = s.crew? c := by
  unfold State.bumpPhase
  split
  · rfl
  · split
    · rfl
    · unfold State.modGrid; split <;> rfl
    · unfold State.modGrid; split <;> rfl

theorem State.bumpPhase_cores (s : State) (l n g : Nat) : (s.bumpPhase l n g).cores = s.cores ∧ (s.bumpPhase l n g).cur = s.cur := by
  unfold State.bumpPhase
  split
  · exact ⟨rfl, rfl⟩
  · split
    · exact ⟨rfl, rfl⟩
    · unfold State.modGrid; split <;> exact ⟨rfl, rfl⟩
    · unfold State.modGrid; split <;> exact ⟨rfl, rfl⟩

theorem State.bumpPhase_coreOf (s : State) (l n g : Nat) (w : Crew) : (s.bumpPhase l n g).coreOf w = s.coreOf w := by
  have key : ∀ k, ((s.bumpPhase l n g).gang? k).map Gang.core = (s.gang? k).map Gang.core := by
    intro k
    unfold State.bumpPhase
    split
    · rfl
    · next x hx =>
      split
      · by_cases hk : g = k
        · subst hk; rw [State.gang_setGang, hx]; rfl
        · rw [State.gang_setGang_ne _ _ _ _ hk]
      · unfold State.modGrid; split <;> rfl
      · unfold State.modGrid; split <;> rfl
  have := key w.gang
  unfold State.coreOf
  split
  · rfl
  · rfl
  · revert this
    cases (s.bumpPhase l n g).gang? w.gang <;> cases s.gang? w.gang <;> intro h <;> simp at h <;> simp [h]

/-- What an error record leaves as it was (R307). -/
theorem State.record_keeps (s : State) (r : Rec) :
    (s.record r).crews = s.crews ∧ (s.record r).gangs = s.gangs ∧ (s.record r).cores = s.cores ∧ (s.record r).cur = s.cur := by
  unfold State.record
  dsimp only
  generalize s.recBytes r = b
  cases s.rel.open_ <;> cases r.ctx <;> exact ⟨rfl, rfl, rfl, rfl⟩

theorem State.noteSys_keeps (s : State) (ctx : Nat) (way : Way) (va n : Nat) :
    (s.noteSys ctx way va n).crews = s.crews ∧ (s.noteSys ctx way va n).gangs = s.gangs ∧
      (s.noteSys ctx way va n).cores = s.cores ∧ (s.noteSys ctx way va n).cur = s.cur := by
  unfold State.noteSys
  repeat' split
  all_goals first | exact ⟨rfl, rfl, rfl, rfl⟩ | exact State.record_keeps _ _

/-- What a record in the arrival log leaves as it was (R290). -/
theorem State.appendLog_keeps {s t : State} {ctx : Nat} {r : List Byte} (h : s.appendLog ctx r = some t) :
    t.crews = s.crews ∧ t.gangs = s.gangs ∧ t.cores = s.cores ∧ t.cur = s.cur := by
  unfold State.appendLog at h
  dsimp only at h
  split at h
  · cases h
  · split at h
    · next u hu =>
      obtain ⟨m, p, q, b, rfl⟩ := State.writeSys_only hu
      injection h with h
      rw [← h]
      exact ⟨rfl, rfl, rfl, rfl⟩
    · split at h
      · injection h with h
        rw [← h]
        exact State.noteSys_keeps _ _ _ _ _
      · exact nomatch h

theorem State.tryBarrier_crew (s : State) (l n g c : Nat) : (s.tryBarrier l n g).crew? c = s.crew? c := by
  unfold State.tryBarrier
  split
  · split
    · next a _ =>
      cases h : s.appendLog a.1 (logBarrier 2 l n (s.phase l n g) a.2) with
      | none => rfl
      | some t =>
        unfold State.crew?
        rw [Option.getD_some, (State.appendLog_keeps h).1]
    · exact State.bumpPhase_crew _ _ _ _ _
  · rfl

/-- R180 to R182: the return of BAR and BARW. -/
theorem barReturn_run {s : State} {c l n : Nat} {x : Ops} {w : Crew} (hw : s.crew? c = some w) (hm : w.marks = []) :
    barReturn c l n x s = .ok () (s.barDone c l n x) := by
  unfold barReturn State.barDone
  simp only [hw]
  refine (M.bind_ok (crewM_run hw)).trans ((M.bind_ok (getS_run s)).trans ?_)
  refine (M.bind_ok (writeScalar_of x.dst _ hw hm)).trans ?_
  have hy := State.setScalarOf_crew x.dst (barResult w l (s.waitPhase w l n)) hw
  revert hy
  generalize s.setScalarOf c x.dst (barResult w l (s.waitPhase w l n)) = t
  intro hy
  by_cases h2 : (l = 2 && w.down.getLsbD 1) = true
  · rw [if_pos h2, if_pos h2]
    refine (M.bind_ok (modS_run _ t)).trans ?_
    have hz : (t.thaw [c]).crew? c = t.crew? c := rfl
    refine (M.bind_ok (modC_run _ (hz.trans hy))).trans ?_
    rw [State.modCrew_of _ _ _ _ (hz.trans hy)]
    exact acquireM_run l (State.crew_setCrew _ _ _)
  · rw [if_neg h2, if_neg h2]
    refine (M.bind_ok (modC_run _ hy)).trans ?_
    rw [State.modCrew_of _ _ _ _ hy]
    exact acquireM_run l (State.crew_setCrew _ _ _)

theorem State.barDone_some {s : State} {c l n : Nat} {x : Ops} {w : Crew} (hw : s.crew? c = some w) :
    ∃ y, (s.barDone c l n x).crew? c = some y ∧ y.arch.act = w.arch.act := by
  unfold State.barDone
  simp only [hw]
  have hy := State.setScalarOf_crew x.dst (barResult w l (s.waitPhase w l n)) hw
  revert hy
  generalize s.setScalarOf c x.dst (barResult w l (s.waitPhase w l n)) = t
  intro hy
  have hz : (if (l = 2 && w.down.getLsbD 1) = true then t.thaw [c] else t).crew? c = t.crew? c := by split <;> rfl
  rw [State.acquired_crew, State.modCrew_of _ _ _ _ (hz.trans hy), State.crew_setCrew]
  obtain ⟨v, hv⟩ : ∃ v, v = barResult w l (s.waitPhase w l n) := ⟨_, rfl⟩
  rw [← hv]
  exact ⟨_, rfl, Crew.withScalar_act w (scalarNo x.dst) v⟩

/-- R179: the barrier exists. -/
theorem checkBarrier_run {s : State} {c l : Nat} {w : Crew} (hw : s.crew? c = some w) (h : s.barExists c l = true) :
    checkBarrier c l s = .ok () s := by
  unfold State.barExists at h
  simp only [hw] at h
  cases hg : s.gang? w.gang with
  | none => rw [hg] at h; cases h
  | some g =>
    rw [hg] at h
    unfold checkBarrier
    refine (M.bind_ok (gangM_run hw hg)).trans ((M.bind_ok (getS_run s)).trans ?_)
    simp only [h]
    rfl

theorem State.inPhase_of {s : State} {c l n : Nat} {w : Crew} (hw : s.crew? c = some w) : s.inPhase c l n = s.waits_ w l n := by
  unfold State.inPhase; rw [hw]

/-- R180: an arrival that no earlier one of the crew keeps waiting. -/
theorem arriveOrPark_run {s t : State} {c l n : Nat} {w : Crew} (hw : s.crew? c = some w) (h : s.inPhase c l n = false)
    (ht : s.arriveAt c l n = some t) : arriveOrPark c l n s = .ok () t := by
  rw [State.inPhase_of hw] at h
  unfold arriveOrPark
  refine (M.bind_ok (crewM_run hw)).trans ((M.bind_ok (getS_run s)).trans ?_)
  rw [h, if_neg (by simp), ht]
  rfl

theorem State.arriveAt_crew {s t : State} {c l n : Nat} {w : Crew} (hw : s.crew? c = some w)
    (ht : s.arriveAt c l n = some t) :
    t.crew? c = some { w with barSeen := Tab.put w.barSeen (barKey l n) (s.phase l n w.gang) } := by
  unfold State.arriveAt at ht
  simp only [hw] at ht
  split at ht
  · unfold State.crew?
    rw [(State.appendLog_keeps ht).1]
    exact State.crew_setCrew _ _ _
  · injection ht with ht
    rw [← ht, State.tryBarrier_crew, State.crew_setCrew]

/-- A crew's core depends on the gangs alone. -/
theorem State.coreOf_gangs {s t : State} (h : t.gangs = s.gangs) (v : Crew) : t.coreOf v = s.coreOf v := by
  unfold State.coreOf State.gang?
  rw [h]

theorem State.tryBarrier_core (s : State) (l n g : Nat) (v : Crew) :
    (s.tryBarrier l n g).coreOf v = s.coreOf v ∧ (s.tryBarrier l n g).cores = s.cores ∧ (s.tryBarrier l n g).cur = s.cur := by
  unfold State.tryBarrier
  split
  · split
    · next a _ =>
      cases h : s.appendLog a.1 (logBarrier 2 l n (s.phase l n g) a.2) with
      | none => exact ⟨rfl, rfl, rfl⟩
      | some t =>
        have k := State.appendLog_keeps h
        exact ⟨State.coreOf_gangs k.2.1 v, k.2.2⟩
    · exact ⟨State.bumpPhase_coreOf _ _ _ _ _, State.bumpPhase_cores _ _ _ _⟩
  · exact ⟨rfl, rfl, rfl⟩

theorem State.arriveAt_core {s t : State} {c l n : Nat} (v : Crew) (ht : s.arriveAt c l n = some t) :
    t.coreOf v = s.coreOf v ∧ t.cores = s.cores ∧ t.cur = s.cur := by
  unfold State.arriveAt at ht
  split at ht
  · injection ht with ht
    rw [ht]
    exact ⟨rfl, rfl, rfl⟩
  · dsimp only at ht
    split at ht
    · have k := State.appendLog_keeps ht
      exact ⟨State.coreOf_gangs k.2.1 v, k.2.2⟩
    · injection ht with ht
      rw [← ht]
      exact State.tryBarrier_core _ _ _ _ _

/-- R19, R156: nothing keeps a barrier instruction waiting. -/
theorem barReady_run {s : State} {c : Nat} {w : Crew} {x : Ops} (h : Issues s c w x) (ha : w.acc = [])
    (hm : s.matrixIdle c = true) : barReady c x s = .ok () s := by
  have hsw : (x.head.sw && switchWaits w (s.core (s.coreOf w)).vs) = false := by
    cases hx : x.head.sw with
    | false => rfl
    | true => simp [h.sw hx]
  unfold barReady
  refine (M.bind_ok (crewM_run h.crew)).trans ((M.bind_ok (vsM_run h.crew)).trans ?_)
  simp only [hsw, ha, List.isEmpty, Bool.not_true, Bool.false_eq_true, if_false]
  exact matrixFence_run h.crew fun _ => hm

theorem Crew.begun_barSeen (w : Crew) (opc : Nat) (x : Ops) : (w.begun opc x).barSeen = w.barSeen := by
  show ({ w with park := none }.foldInstr opc x.head).barSeen = _
  unfold Crew.foldInstr; split <;> rfl

theorem State.opens_barExists {s : State} {c l : Nat} {w : Crew} {x : Ops} (h : Issues s c w x) (opc : Nat) (hb : s.barExists c l = true) :
    (s.opens c w opc x).barExists c l = true := by
  unfold State.barExists at hb ⊢
  rw [State.opens_crew]
  simp only [h.crew] at hb
  simp only [Crew.begun_gang]
  exact hb

theorem State.opens_inPhase {s : State} {c l n : Nat} {w : Crew} {x : Ops} (h : Issues s c w x) (opc : Nat) (hb : s.inPhase c l n = false) :
    (s.opens c w opc x).inPhase c l n = false := by
  rw [State.inPhase_of h.crew] at hb
  rw [State.inPhase_of (State.opens_crew s c w opc x)]
  unfold State.waits_ Crew.arrived at hb ⊢
  rw [Crew.begun_barSeen, Crew.begun_gang]
  exact hb

theorem State.canBind_none {s : State} {c n : Nat} {w : Crew} (hw : s.crew? c = some w) (h : s.canBind c n = true) :
    (Tab.at? w.arch.names n).isNone = true := by
  unfold State.canBind at h
  simp only [hw, Bool.and_eq_true] at h
  exact h.1.1

/-- R56: no name of the destination is bound. -/
theorem checkDst_run {s : State} {c : Nat} {w : Crew} {ns : List Nat} (hw : s.crew? c = some w)
    (h : ∀ n ∈ ns, (Tab.at? w.arch.names n).isNone = true) : checkDst c ns s = .ok () s := by
  unfold checkDst
  refine (M.bind_ok (crewM_run hw)).trans ?_
  have key : ∀ (l : List Nat), (∀ n ∈ l, (Tab.at? w.arch.names n).isNone = true) →
      (forIn l PUnit.unit (fun n _ => do
        check (Tab.at? w.arch.names n).isNone cNameLive
        pure (ForInStep.yield PUnit.unit)) : M PUnit) s = .ok PUnit.unit s := by
    intro l
    induction l with
    | nil => intro _; rfl
    | cons n l ih =>
      intro hl
      rw [List.forIn_cons]
      have h1 : (do
          check (Tab.at? w.arch.names n).isNone cNameLive
          pure (ForInStep.yield PUnit.unit) : M (ForInStep PUnit)) s = .ok (ForInStep.yield PUnit.unit) s :=
        (M.bind_ok (check_run (hl n (List.mem_cons_self ..)))).trans (M.pure_run _ _)
      refine (M.bind_ok h1).trans ?_
      exact ih fun k hk => hl k (List.mem_cons_of_mem _ hk)
  exact (M.bind_ok (key ns h)).trans (M.pure_run _ _)

/-- R161: no lane of the access has the fault. -/
theorem faultLanes_run (uni : Bool) (m : Mask) (addr : Tab Nat) (cause : Cause) {p : Fin 32 → Bool} (s : State)
    (h : ∀ l ∈ lanesOf m, p l = false) : faultLanes uni m addr cause p s = .ok () s := by
  have hz : lanesOf (lanesWith m p) = [] := by
    rw [List.eq_nil_iff_forall_not_mem]
    intro l hl
    rw [mem_lanesOf] at hl
    have hl' : (m &&& maskOf p)[l] = true := hl
    have hb : (m[l] && (maskOf p)[l]) = true := by rw [← hl']; exact (BitVec.getElem_and ..).symm
    rw [maskOf_bit, Bool.and_eq_true] at hb
    have := h l (mem_lanesOf.mpr hb.1)
    rw [this] at hb
    exact absurd hb.2 (by simp)
  unfold faultLanes
  simp only [hz]
  rfl

theorem State.holding_crew {s : State} {c : Nat} {w : Crew} (p : Bool) (hw : s.crew? c = some w) :
    (s.holding c p).crew? c = some { w with hold := p } := by
  simp [State.holding, hw]

theorem State.near_holding (s : State) (c : Nat) (p : Bool) : s.Near (s.holding c p) c := by
  unfold State.holding
  split
  · exact State.near_setCrew _ _ _
  · exact State.Near.refl s c

theorem watchLanes_off (g : Gang) (m : Mask) (addr : Tab Nat) (n : Nat) (rd wr : Bool) (h : watchLanes g m addr n rd wr = 0#32) :
    lanesOf (watchLanes g m addr n rd wr) = [] := by
  rw [h]; decide

/-- R328: no watchpoint is hit. -/
theorem watchM_off {s : State} {c : Nat} {y : Crew} {g : Gang} (m : Mask) (addr : Tab Nat) (n : Nat) (rd wr : Bool)
    (hy : s.crew? c = some y) (hg : s.gang? y.gang = some g)
    (h : (y.priv != 0 || y.anyAct || y.exempt || watchLanes g m addr n rd wr == 0#32) = true) :
    watchM c m addr n rd wr s = .ok () s := by
  unfold watchM
  refine (M.bind_ok (crewM_run hy)).trans ((M.bind_ok (gangM_run hy hg)).trans ?_)
  by_cases hc : (y.priv = 0 && !y.anyAct && !y.exempt) = true
  · rw [if_pos hc]
    simp only [Bool.and_eq_true, decide_eq_true_eq, Bool.not_eq_true'] at hc
    have : watchLanes g m addr n rd wr = 0#32 := by
      simp only [hc.1.1, hc.1.2, hc.2] at h
      simpa using h
    have hz := watchLanes_off g m addr n rd wr this
    simp only [hz]
    rfl
  · rw [if_neg hc]; rfl

/-- R160, R161, R155, R328: an access that passes its checks. -/
theorem memChecks_run {s : State} {c : Nat} {y : Crew} {q : MemForm} {x : Ops} {f : FnM} {m : Mask} {addr : Tab Nat}
    (hy : s.crew? c = some y) (ok : s.accessOk c q f m addr = true) : memChecks c q x f m addr s = .ok () s := by
  unfold State.accessOk at ok
  simp only [hy] at ok
  cases hg : s.gang? y.gang with
  | none => rw [hg] at ok; cases ok
  | some g =>
    rw [hg] at ok
    simp only [Bool.and_eq_true] at ok
    obtain ⟨⟨h1, h2⟩, h3⟩ := ok
    have h4 := (Bool.not_eq_true' _).mp h3
    unfold memChecks
    refine (M.bind_ok (crewM_run hy)).trans ((M.bind_ok (gangM_run hy hg)).trans ((M.bind_ok (getS_run s)).trans ?_))
    refine (M.bind_ok (faultLanes_run _ _ _ _ s ?_)).trans ?_
    · intro l hl
      have := List.all_eq_true.mp h1 l hl
      simpa using this
    cases hq : q.glob with
    | true =>
      rw [hq] at h2 h4
      simp only [if_true] at h2 h4 ⊢
      refine (M.bind_ok (faultLanes_run _ _ _ _ s ?_)).trans ?_
      rotate_left
      · rw [if_neg fun hh => Bool.noConfusion (hh.symm.trans h4)]
        rfl
      intro l hl
      have := List.all_eq_true.mp h2 l hl
      exact decide_eq_false (Nat.not_le.mpr (of_decide_eq_true this))
    | false =>
      rw [hq] at h2 h4
      simp only [Bool.false_eq_true, if_false, Bool.and_eq_true] at h2 h4 ⊢
      refine (M.bind_ok (faultLanes_run _ _ _ _ s ?_)).trans ?_
      · intro l hl
        have := List.all_eq_true.mp h2.1.1 l hl
        simp only [decide_eq_true_eq] at this
        simp only [decide_eq_false_iff_not]
        omega
      refine (M.bind_ok (faultLanes_run _ _ _ _ s ?_)).trans ?_
      · intro l hl
        have := List.all_eq_true.mp h2.1.2 l hl
        simpa using this
      refine (M.bind_ok (watchM_off _ _ _ _ _ hy hg h2.2)).trans ?_
      rw [if_neg fun hh => Bool.noConfusion (hh.symm.trans h4)]
      rfl

theorem tagEntry_run {s : State} {c n tag id h : Nat} {w : Crew} {b : Binding} (hw : s.crew? c = some w)
    (hb : Tab.at? w.arch.names n = some b) (e : 2 * id + h = tag) : tagEntry c b.entry id h s = .ok () (s.tagName c n tag) := by
  unfold tagEntry State.tagName
  rw [modVs_run _ hw]
  simp only [hw, hb, e]
  congr 2
  funext k
  cases Tab.at? k.vs b.entry <;> rfl

theorem State.tagName_crew (s : State) (c n tag : Nat) : (s.tagName c n tag).crew? c = s.crew? c := by
  unfold State.tagName
  split
  · rfl
  · split <;> rfl

theorem State.tagNames_crew (s : State) (c id : Nat) (ns : List Nat) : (s.tagNames c id ns).crew? c = s.crew? c := by
  unfold State.tagNames
  split
  · rfl
  · exact State.tagName_crew _ _ _ _
  · rw [State.tagName_crew, State.tagName_crew]

/-- The names of a vector destination: none, one, or two that follow each other. -/
def NameList (ns : List Nat) : Prop := ns = [] ∨ (∃ n, ns = [n]) ∨ ∃ n, ns = [n, n + 1]

theorem dstNames_list (x : Ops) (pair : Bool) : NameList (dstNames x pair) := by
  unfold dstNames NameList
  split
  · exact .inl rfl
  · split
    · exact .inr (.inr ⟨_, rfl⟩)
    · exact .inr (.inl ⟨_, rfl⟩)

theorem State.near_bindNames (s : State) (c : Nat) (ns : List Nat) (count : Nat) (st : EState) : s.Near (s.bindNames c ns count st) c := by
  unfold State.bindNames
  induction ns generalizing s with
  | nil => exact State.Near.refl s c
  | cons n ns ih => exact (State.near_bindName s c n count st).trans (ih _)

theorem State.bindNames_crew {s : State} {c : Nat} {w : Crew} (ns : List Nat) (count : Nat) (st : EState) (hw : s.crew? c = some w) :
    ∃ y, (s.bindNames c ns count st).crew? c = some y ∧ w.sameButNames y := by
  unfold State.bindNames
  induction ns generalizing s w with
  | nil => exact ⟨w, hw, Crew.sameButNames_refl w⟩
  | cons n ns ih =>
    obtain ⟨y, hy, h1⟩ := State.bindName_some n count st hw
    obtain ⟨z, hz, h2⟩ := ih hy
    exact ⟨z, hz, Crew.sameButNames_trans h1 h2⟩

theorem State.unbound_all {s : State} {c : Nat} {w : Crew} {ns : List Nat} {count : Nat} {st : EState} (hw : s.crew? c = some w)
    (hl : NameList ns) (ok : s.canBindAll c ns count st = true) : ∀ n ∈ ns, (Tab.at? w.arch.names n).isNone = true := by
  obtain rfl | ⟨n, rfl⟩ | ⟨n, rfl⟩ := hl
  · simp
  · simp only [State.canBindAll, Bool.and_eq_true] at ok
    intro k hk
    rw [List.mem_singleton] at hk
    subst hk
    exact State.canBind_none hw ok.2
  · simp only [State.canBindAll, Bool.and_eq_true] at ok
    intro k hk
    rw [List.mem_cons, List.mem_singleton] at hk
    obtain rfl | rfl := hk
    · exact State.canBind_none hw ok.1.2
    · have := State.canBind_none (State.bindName_crew n count st hw) ok.2
      rw [Tab.at?_put_ne _ _ _ _ (by omega)] at this
      exact this

/-- The entries that names get, and those entries tagged. -/
theorem allocTag_run {s : State} {c : Nat} {w : Crew} {ns : List Nat} {count : Nat} {st : EState} (hw : s.crew? c = some w)
    (hm : w.marks = []) (hl : NameList ns) (ok : s.canBindAll c ns count st = true) :
    ∃ es, memNames c ns count st s = .ok es (s.bindNames c ns count st) ∧
      ∀ id, tagAll c id 0 es (s.bindNames c ns count st) = .ok () ((s.bindNames c ns count st).tagNames c id ns) := by
  obtain rfl | ⟨n, rfl⟩ | ⟨n, rfl⟩ := hl
  · exact ⟨[], rfl, fun _ => rfl⟩
  · simp only [State.canBindAll, Bool.and_eq_true] at ok
    refine ⟨_, allocNames_one count st n hw hm ok.1 ok.2, fun id => ?_⟩
    have hc := State.bindName_crew n count st hw
    exact M.bind_ok (tagEntry_run (b := ⟨s.nextEntry c, count⟩) hc (Tab.at?_put_self _ _ _) rfl)
  · simp only [State.canBindAll, Bool.and_eq_true] at ok
    refine ⟨_, allocNames_two count st n hw hm ok.1.1 ok.1.2 ok.2, fun id => ?_⟩
    have hc := State.bindName_crew n count st hw
    have hd := State.bindName_crew (n + 1) count st hc
    have e1 : Tab.at? (Tab.put (Tab.put w.arch.names n ⟨s.nextEntry c, count⟩) (n + 1)
        ⟨(s.bindName c n count st).nextEntry c, count⟩) n = some ⟨s.nextEntry c, count⟩ := by
      rw [Tab.at?_put_ne _ _ _ _ (by omega)]; exact Tab.at?_put_self _ _ _
    refine (M.bind_ok (tagEntry_run (n := n) hd e1 rfl)).trans ?_
    refine (M.bind_ok (tagEntry_run (n := n + 1) ((State.tagName_crew _ _ _ _).trans hd) (Tab.at?_put_self _ _ _) rfl)).trans rfl

/-- R18: the access is unperformed from now on. -/
theorem withAccess_run {s : State} {c : Nat} {w : Crew} (a : Access) (p : Bool) (hw : s.crew? c = some w) :
    (do
      modS fun t => { t with nextId := t.nextId + 1 }
      modC c fun z => { z with acc := z.acc ++ [a], park := if p then some (.scalar a.id) else z.park } : M Unit) s
      = .ok () (s.withAccess c a p) := by
  refine (M.bind_ok (modS_run _ s)).trans ?_
  have hw' : ({ s with nextId := s.nextId + 1 } : State).crew? c = some w := hw
  rw [modC_run _ hw']
  unfold State.withAccess
  simp only [hw]

/-- A memory instruction whose effect runs to its end. -/
theorem memStep_run {q : MemForm} {f : FnM} {x : Ops} {s t : State} {c : Nat} {w y : Crew} (h : Issues s c w x)
    (hb : accessBound q f = true → w.acc = []) (hi : f.ord = 2 ∨ f.ord = 3 → s.matrixIdle c = true)
    (hr : memBody c ⟨w.arch, w.seq⟩ q x f (s.opens c w q.opc x) = .ok () t) (hy : t.crew? c = some y)
    (ha : y.arch.act = 0 → y.empty = true) : memStep q f x s = .next (t.ended c w) := by
  refine crewStep_run h.cur h.crew ?_
  unfold memIssue
  refine (M.bind_ok (crewM_run h.crew)).trans ?_
  refine (M.bind_ok (matrixFence_run h.crew (by intro hh; exact hi (by simpa using hh)))).trans ?_
  rw [issue_run h.crew h.sw (opc := q.opc) (t := t) (y := y) ?_ hr hy ha]
  · simp only [State.ended, hy]
  · intro hh
    apply hb
    unfold accessBound
    cases hk : q.kind <;> simp_all

end Sys2Proof.Machine
end

