-- ==== Sys2Proof/Laws/Engines.lean ====
section
/-!
SUPPORT. Laws/Engines.lean: how an engine instruction issues its command, said once, and what a command leaves of its crew.
-/

namespace Sys2Proof.Machine

open Sys2Proof

theorem modGang_coreOf (s : State) (g : Nat) (f : Gang → Gang) (hf : ∀ x, (f x).core = x.core) (w : Crew) :
    (s.modGang g f).coreOf w = s.coreOf w := by
  have key : ∀ k, ((s.modGang g f).gang? k).map Gang.core = (s.gang? k).map Gang.core := by
    intro k
    unfold State.modGang
    split
    · next x hx =>
      by_cases hk : g = k
      · subst hk; rw [State.gang_setGang, hx]; simp [hf]
      · rw [State.gang_setGang_ne _ _ _ _ hk]
    · rfl
  have := key w.gang
  unfold State.coreOf
  split
  · rfl
  · rfl
  · revert this
    cases (s.modGang g f).gang? w.gang <;> cases s.gang? w.gang <;> intro h <;> simp at h <;> simp [h]

theorem setTimeline_core (x : Gang) (e : Nat) (t : Timeline) : (x.setTimeline e t).core = x.core := by
  unfold Gang.setTimeline; split <;> rfl

/-- The command that an engine instruction issues. -/
def cmdOf (s : State) (w : Crew) (g : Gang) (c e : Nat) (pc : Addr) (p : EngPlan) : Cmd :=
  { gang := w.gang, grid := g.grid, crew := c, ctx := g.ctx, priv := w.priv, core := g.core, engine := e,
    n := (g.timeline e).issued + 1, pc := pc, crewid := BitVec.ofNat 14 (s.crewId w), what := p.what, tile := p.tile,
    range := p.range, isOver := false, begun := none, did := [], saved := none, result := zeroLanes }

/-- A crew that has the number of its engine command (R323). -/
def Crew.noted (w : Crew) (pc : Addr) (e n : Nat) : Crew :=
  { w.dropEseq pc with eng := { pc := pc, kind := e, n := n } :: (w.dropEseq pc).eng }

theorem commanded_of {s : State} {c e : Nat} {w : Crew} {g : Gang} {pc : Addr} {x : Ops} {p : EngPlan} (hw : s.crew? c = some w)
    (hg : s.gang? w.gang = some g) :
    s.commanded c e pc x p = ((({ s with
        nextId := s.nextId + 1
        cmds := Tab.put s.cmds s.nextId (cmdOf s w g c e pc p) } : State).modGang w.gang
          fun k => k.setTimeline e { g.timeline e with issued := (g.timeline e).issued + 1 }).setCrew c
        (w.noted pc e ((g.timeline e).issued + 1))).setScalarOf c x.dst
          (BitVec.ofNat 64 ((g.timeline e).issued + 1)) := by
  unfold State.commanded
  simp only [hw, hg]
  rfl

theorem State.setScalarOf_same {s : State} {c : Nat} {w : Crew} (code : BitVec 8) (v : DWord) (hw : s.crew? c = some w) :
    ∃ y, (s.setScalarOf c code v).crew? c = some y ∧ y.arch.act = w.arch.act ∧ y.gang = w.gang ∧ y.park = w.park ∧ y.home = w.home :=
  ⟨_, State.setScalarOf_crew code v hw, Arch.setScalar_act w.arch (scalarNo code) v, rfl, rfl, rfl⟩

theorem commanded_crew {s : State} {c e : Nat} {w : Crew} {g : Gang} {pc : Addr} {x : Ops} {p : EngPlan} (hw : s.crew? c = some w)
    (hg : s.gang? w.gang = some g) :
    ∃ y, (s.commanded c e pc x p).crew? c = some y ∧ y.arch.act = w.arch.act ∧ y.gang = w.gang ∧ y.park = w.park ∧ y.home = w.home := by
  rw [commanded_of hw hg]
  generalize (State.modGang _ _ _) = u
  obtain ⟨z, hz⟩ : ∃ z : Crew, z = (w.noted pc e ((g.timeline e).issued + 1)) := ⟨_, rfl⟩
  have h2 : z.arch = w.arch ∧ z.gang = w.gang ∧ z.park = w.park ∧ z.home = w.home := by rw [hz]; exact ⟨rfl, rfl, rfl, rfl⟩
  rw [← hz]
  obtain ⟨y, hy, hs⟩ := State.setScalarOf_same x.dst (BitVec.ofNat 64 ((g.timeline e).issued + 1)) (State.crew_setCrew u c z)
  exact ⟨y, hy, hs.1.trans (congrArg Arch.act h2.1), hs.2.1.trans h2.2.1, hs.2.2.1.trans h2.2.2.1, hs.2.2.2.trans h2.2.2.2⟩

theorem issueCmd_run {s : State} {c e : Nat} {w : Crew} {g : Gang} {pc : Addr} {x : Ops} {p : EngPlan} {m : Mask}
    (hw : s.crew? c = some w) (hm : w.marks = []) (hg : s.gang? w.gang = some g) (hpc : ownPc c x s = .ok pc s) :
    issueCmd c e x p [] m s = .ok () (if m = 0 then (s.commanded c e pc x p).completed s.nextId else s.commanded c e pc x p) := by
  unfold issueCmd
  refine (M.bind_ok hpc).trans ((M.bind_ok (crewM_run hw)).trans ((M.bind_ok (gangM_run hw hg)).trans ((M.bind_ok (getS_run s)).trans ?_)))
  refine (M.bind_ok (modS_run _ s)).trans ?_
  refine (M.bind_ok (modS_run _ _)).trans ?_
  refine (M.bind_ok (M.pure_run _ _)).trans ?_
  have h1 : ((({ s with
        nextId := s.nextId + 1
        cmds := Tab.put s.cmds s.nextId (cmdOf s w g c e pc p) } : State).modGang w.gang
          fun k => k.setTimeline e { g.timeline e with issued := (g.timeline e).issued + 1 })).crew? c = some w := by
    rw [State.modGang_crew]; exact hw
  refine (M.bind_ok (modC_run _ h1)).trans ?_
  refine (M.bind_ok (writeScalar_of (w := w.noted pc e ((g.timeline e).issued + 1)) x.dst _ (State.crew_setCrew _ _ _) hm)).trans ?_
  rw [commanded_of hw hg]
  by_cases hz : m = 0
  · rw [if_pos hz, if_pos hz]
    rw [modS_run]
    congr 1
    unfold State.completed
    have : ∀ (u : State) (cmd : Cmd), Tab.at? u.cmds s.nextId = some cmd → u.finishCmd s.nextId cmd none zeroLanes =
      (match Tab.at? u.cmds s.nextId with
       | some d => u.finishCmd s.nextId d none zeroLanes
       | none => u) := by
      intro u cmd h; rw [h]
    refine this _ _ ?_
    have hc : ∀ (u : State) (code : BitVec 8) (v : DWord) , (u.setScalarOf c code v).cmds = u.cmds := by
      intro u code v; unfold State.setScalarOf; split <;> rfl
    rw [hc]
    show Tab.at? (State.modGang _ _ _).cmds _ = _
    have hg2 : ∀ (u : State) (k : Nat) (f : Gang → Gang), (u.modGang k f).cmds = u.cmds := by
      intro u k f; unfold State.modGang; split <;> rfl
    rw [hg2]
    exact Tab.at?_put_self _ _ _
  · rw [if_neg hz, if_neg hz]; rfl

theorem Tab.at?_mapV {α : Type} (t : Tab α) (f : Nat → α → α) (k : Nat) : Tab.at? (Tab.mapV t f) k = (Tab.at? t k).map (f k) := by
  induction t with
  | nil => rfl
  | cons p t ih =>
    obtain ⟨i, v⟩ := p
    show (if i = k then some (f i v) else Tab.at? (Tab.mapV t f) k) = _
    by_cases h : i = k
    · simp [Tab.at?, h]
    · simp [Tab.at?, h, ih]

theorem Tab.mem_keysWhere {α : Type} {t : Tab α} {p : Nat → α → Bool} {k : Nat} {v : α} (h : Tab.at? t k = some v)
    (hp : p k v = true) : k ∈ Tab.keysWhere t p := by
  unfold Tab.keysWhere
  rw [List.mem_map]
  refine ⟨(k, v), ?_, rfl⟩
  rw [List.mem_filter]
  refine ⟨?_, hp⟩
  clear hp
  induction t with
  | nil => cases h
  | cons q t ih =>
    obtain ⟨i, u⟩ := q
    unfold Tab.at? at h
    split at h
    · next hi => cases h; subst hi; exact List.mem_cons_self
    · exact List.mem_cons_of_mem _ (ih h)

theorem Tab.at?_commanded {s : State} {c e : Nat} {w : Crew} {g : Gang} {pc : Addr} {x : Ops} {p : EngPlan} (hw : s.crew? c = some w)
    (hg : s.gang? w.gang = some g) : Tab.at? (s.commanded c e pc x p).cmds s.nextId = some (cmdOf s w g c e pc p) := by
  rw [commanded_of hw hg]
  have hc : ∀ (u : State) (code : BitVec 8) (v : DWord) , (u.setScalarOf c code v).cmds = u.cmds := by
    intro u code v; unfold State.setScalarOf; split <;> rfl
  rw [hc]
  show Tab.at? (State.modGang _ _ _).cmds _ = _
  have hg2 : ∀ (u : State) (k : Nat) (f : Gang → Gang), (u.modGang k f).cmds = u.cmds := by
    intro u k f; unfold State.modGang; split <;> rfl
  rw [hg2]
  exact Tab.at?_put_self _ _ _

theorem engStep_run {s t : State} {c opc : Nat} {w : Crew} {x : Ops} {body : Nat → M Unit} (h : Issues s c w x) (ha : w.acc = [])
    (hm : s.matrixIdle c = true) (hb : body c (s.opens c w opc x) = .ok () t) (ht : t.live c = true) :
    engStep opc x body s = .next (t.ended c w) := by
  obtain ⟨y, hy, hact, -⟩ := State.live_some ht
  unfold engStep
  refine crewStep_run h.cur h.crew ((M.bind_ok (matrixFence_run h.crew fun _ => hm)).trans ?_)
  rw [issue_run (opc := opc) (t := t) (y := y) h.crew h.sw (fun _ => ha) hb hy (fun h0 => absurd h0 hact)]
  simp [State.ended, hy]

/-- The number is known while a body runs that issues its command (R323). -/
theorem withSeq_run {s t u : State} {c e : Nat} {w : Crew} {g : Gang} {body : M Unit} (hb : body s = .ok () u)
    (hw : s.crew? c = some w) (hg : s.gang? w.gang = some g)
    (ht : body (s.setCrew c { w with eng := { pc := w.ipc, kind := e, n := (g.timeline e).issued + 1 } :: w.eng }) = .ok () t) :
    withSeq c e body s = .ok () t := by
  unfold withSeq
  simp only [hb, hw, hg]
  exact ht

/-- That number stands in the crew at most once. -/
theorem Crew.noted_again (w : Crew) (pc : Addr) (e k n : Nat) :
    Crew.noted { w with eng := { pc := pc, kind := e, n := k } :: w.eng } pc e n = w.noted pc e n := by
  simp [Crew.noted, Crew.dropEseq]

theorem modGang_modCore (s : State) (g k : Nat) (f : Gang → Gang) (h : Core → Core) :
    (s.modGang g f).modCore k h = (s.modCore k h).modGang g f := by
  unfold State.modGang
  have : (s.modCore k h).gang? g = s.gang? g := rfl
  rw [this]
  split <;> rfl

theorem forIn_modVs {s : State} {c i k : Nat} {w : Crew} (hw : s.crew? c = some w) :
    (forIn [i] PUnit.unit (fun (a : Nat) _ => do modVs c (tagVs a k); pure (ForInStep.yield PUnit.unit)) : M PUnit) s
      = .ok PUnit.unit (s.modCore (s.coreOf w) fun u => { u with vs := tagVs i k u.vs }) := by
  rw [List.forIn_cons]
  refine (M.bind_ok (a := ForInStep.yield PUnit.unit) ((M.bind_ok (modVs_run _ hw)).trans (M.pure_run _ _))).trans ?_
  rfl

theorem issueCmd_tag {s : State} {c e i : Nat} {w : Crew} {g : Gang} {pc : Addr} {x : Ops} {p : EngPlan} {m : Mask}
    (hw : s.crew? c = some w) (hg : s.gang? w.gang = some g) (hpc : ∀ t, t.crew? c = some w → ownPc c x t = .ok pc t) :
    issueCmd c e x p [i] m s = issueCmd c e x p [] m (s.modCore (s.coreOf w) fun k => { k with vs := tagVs i s.nextId k.vs }) := by
  have hw' : (s.modCore (s.coreOf w) fun k => { k with vs := tagVs i s.nextId k.vs }).crew? c = some w := hw
  have hg' : (s.modCore (s.coreOf w) fun k => { k with vs := tagVs i s.nextId k.vs }).gang? w.gang = some g := hg
  unfold issueCmd
  refine (M.bind_ok (hpc _ hw)).trans ((M.bind_ok (crewM_run hw)).trans ((M.bind_ok (gangM_run hw hg)).trans ((M.bind_ok (getS_run s)).trans ?_)))
  refine Eq.symm ((M.bind_ok (hpc _ hw')).trans ((M.bind_ok (crewM_run hw')).trans ((M.bind_ok (gangM_run hw' hg')).trans ((M.bind_ok (getS_run _)).trans ?_))))
  refine (M.bind_ok (modS_run _ _)).trans ((M.bind_ok (modS_run _ _)).trans ((M.bind_ok (M.pure_run _ _)).trans (Eq.symm ?_)))
  refine (M.bind_ok (modS_run _ _)).trans ((M.bind_ok (modS_run _ _)).trans ?_)
  have h1 : ((({ s with
        nextId := s.nextId + 1
        cmds := Tab.put s.cmds s.nextId (cmdOf s w g c e pc p) } : State).modGang w.gang
          fun k => k.setTimeline e { g.timeline e with issued := (g.timeline e).issued + 1 })).crew? c = some w := by
    rw [State.modGang_crew]; exact hw
  refine (M.bind_ok (forIn_modVs h1)).trans ?_
  rw [modGang_coreOf _ _ _ (fun k => setTimeline_core k _ _), modGang_modCore]
  rfl

theorem Crew.begun_park (w : Crew) (opc : Nat) (x : Ops) : (w.begun opc x).park = none := by
  show ({ w with park := none }.foldInstr opc x.head).park = _
  unfold Crew.foldInstr; split <;> rfl

/-- What the reads of an engine instruction keep. -/
structure AfterReads (s t : State) (c : Nat) (w y : Crew) (x : Ops) : Prop where
  crew  : t.crew? c = some y
  clean : y.marks = []
  gang  : y.gang = w.gang
  home  : y.home = w.home
  park  : y.park = none
  pc    : y.arch.pc = w.arch.pc + BitVec.ofNat 52 (lenOf x)
  act   : y.arch.act = w.arch.act
  scal  : ∀ r, y.arch.scalar r = w.arch.scalar r
  gangs : t.gangs = s.gangs

theorem AfterReads.opens {s : State} {c : Nat} {w : Crew} {x : Ops} (h : Issues s c w x) (opc : Nat) :
    AfterReads s (s.opens c w opc x) c w (w.begun opc x) x :=
  ⟨State.opens_crew _ _ _ _ _, h.begun_marks opc, Crew.begun_gang _ _ _, Crew.begun_home _ _ _, Crew.begun_park _ _ _,
    Crew.begun_pc _ _ _, Crew.begun_act _ _ _, fun _r => Crew.begun_scalar _ _ _ _, rfl⟩

theorem AfterReads.src {s t : State} {c : Nat} {w y : Crew} {x : Ops} (h : AfterReads s t c w y x) (code : BitVec 8) (wide : Bool) :
    ∃ z, AfterReads s (t.afterSrc c code wide) c w z x := by
  obtain ⟨z, hz, k⟩ := State.afterSrc_crew code wide h.crew
  have g := Crew.sameButNames_gang k
  refine ⟨z, hz, (Crew.sameButNames_marks k).trans h.clean, g.1.trans h.gang, g.2.1.trans h.home, ?_, ?_,
    (Crew.sameButNames_act k).trans h.act, fun r => (Crew.sameButNames_scalar k r).trans (h.scal r), ?_⟩
  · rw [k]; exact h.park
  · rw [k]; exact h.pc
  · rw [(State.near_afterSrc t c code wide).rest]; exact h.gangs

theorem AfterReads.own {s t : State} {c : Nat} {w y : Crew} {x : Ops} (h : AfterReads s t c w y x) (u : State)
    (hu : u.crew? c = some y) : ownPc c x u = .ok w.arch.pc u := by
  rw [ownPc_run x hu, h.pc, BitVec.add_sub_cancel]

theorem AfterReads.gang? {s t : State} {c : Nat} {w y : Crew} {x : Ops} {g : Gang} (h : AfterReads s t c w y x)
    (hg : s.gang? w.gang = some g) : t.gang? y.gang = some g := by
  unfold State.gang? at hg ⊢; rw [h.gangs, h.gang]; exact hg

theorem AfterReads.reg {s t : State} {c : Nat} {w y : Crew} {x : Ops} (h : AfterReads s t c w y x) (code : BitVec 8) :
    readScalar c code t = .ok (w.arch.scalar (scalarNo code)) t := by
  rw [readScalar_run code h.crew h.clean, h.scal]

theorem AfterReads.mask {s t : State} {c : Nat} {w y : Crew} {x : Ops} (h : AfterReads s t c w y x) (d : Head) :
    emask c d t = .ok (t.emaskOf c d) t := by
  rw [emask_run d h.crew h.clean]
  simp [State.emaskOf, h.crew]

/-- The command that ends an engine instruction. -/
theorem AfterReads.command {s t u : State} {c opc : Nat} {w y : Crew} {x : Ops} {g : Gang} {e : Nat} {p : EngPlan} {m : Mask}
    {body : Nat → M Unit} (h : AfterReads s t c w y x) (hi : Issues s c w x) (ha : w.acc = []) (hm : s.matrixIdle c = true)
    (hg : s.gang? w.gang = some g) (hb : body c (s.opens c w opc x) = issueCmd c e x p [] m t)
    (hu : u = if m = 0 then (t.commanded c e w.arch.pc x p).completed t.nextId else t.commanded c e w.arch.pc x p)
    (hl : u.live c = true) : engStep opc x body s = .next (u.ended c w) :=
  engStep_run hi ha hm (hb.trans ((issueCmd_run h.crew h.clean (h.gang? hg) (h.own t h.crew)).trans (by rw [hu]))) hl

theorem regionM_ok {s : State} {c off n al : Nat} {w : Crew} (hw : s.crew? c = some w) (h : s.regionOk c off n al = true) :
    regionM c off n al s = .ok () s := by
  unfold State.regionOk at h
  simp only [hw] at h
  split at h
  · cases h
  · next g hg =>
    unfold regionM
    refine (M.bind_ok (getS_run s)).trans ((M.bind_ok (gangM_run hw hg)).trans ?_)
    rw [Option.isNone_iff_eq_none.mp h]
    rfl

theorem gatherCheck_ok {m : Mask} {addr : Tab Nat} {al : Nat} (s : State) (h : addrFault m addr al = none) :
    gatherCheck m addr al s = .ok () s := by
  unfold gatherCheck; rw [h]; rfl

theorem checked_ok {α : Type} {r : Checked α} {v : α} (s : State) (h : r = .ok v) : checked r s = .ok v s := by
  rw [h]; rfl

theorem tagName_eq {s : State} {c n tag : Nat} {w : Crew} {b : Binding} (hw : s.crew? c = some w)
    (hb : Tab.at? w.arch.names n = some b) :
    s.tagName c n tag = s.modCore (s.coreOf w) fun k => { k with vs := tagVs b.entry tag k.vs } := by
  unfold State.tagName
  simp only [hw, hb]
  congr 1
  funext k
  unfold tagVs
  cases Tab.at? k.vs b.entry <;> rfl

end Sys2Proof.Machine
end

