-- ==== Sys2Proof/Laws/Queues.lean ====
section
/-!
SUPPORT. Laws/Queues.lean: how the instructions of work queues and child grids issue, and how they take what an event left.
-/

namespace Sys2Proof.Machine

open Sys2Proof

/-- An instruction that issues by steps of its own and ends as its body leaves it. -/
theorem ownIssue {s t : State} {c opc : Nat} {w y : Crew} {x : Ops} {body : M Unit} (h : Issues s c w x) (ha : w.acc = [])
    (hb : body (s.opens c w opc x) = .ok () t) (hy : t.crew? c = some y) (hact : y.arch.act ≠ 0) :
    issue c opc x true true body s = .ok () (t.ended c w) := by
  rw [issue_run (opc := opc) (t := t) (y := y) h.crew h.sw (fun _ => ha) hb hy (fun h0 => absurd h0 hact)]
  simp [State.ended, hy]

theorem endDeq_run {s : State} {c : Nat} {w : Crew} (x : Ops) (v : DWord) (hw : s.crew? c = some w) (hm : w.marks = []) :
    endDeq c x v s = .ok () ((s.acquired c 3).setScalarOf c x.dst v) := by
  unfold endDeq
  exact (M.bind_ok (acquireM_run 3 hw)).trans (writeScalar_of _ _ ((State.acquired_crew _ _ _).trans hw) hm)

theorem endJoin_run {s : State} {c : Nat} {w : Crew} (x : Ops) (v : DWord) (hw : s.crew? c = some w) (hm : w.marks = []) :
    endJoin c x v s = .ok () ((s.acquired c 3).setScalarOf c x.dst v) := by
  unfold endJoin
  exact (M.bind_ok (acquireM_run 3 hw)).trans (writeScalar_of _ _ ((State.acquired_crew _ _ _).trans hw) hm)

/-- Taking the value that an event left, an acquire, and the value to a scalar. -/
theorem takeEvent {s : State} {c opc : Nat} {w : Crew} {x : Ops} {v : DWord} {fin : Nat → Ops → DWord → M Unit} (h : Issues s c w x)
    (ha : w.acc = []) (he : w.waitEvt = some v)
    (hf : ∀ (s : State) (w : Crew), s.crew? c = some w → w.marks = [] → fin c x v s = .ok () ((s.acquired c 3).setScalarOf c x.dst v)) :
    issue c opc x true true (deliver c (fin c x)) s
      = .ok () (((((s.opens c w opc x).delivered c).acquired c 3).setScalarOf c x.dst v).ended c w) := by
  have hw := State.opens_crew s c w opc x
  obtain ⟨y, hy, hm, ha2⟩ := State.delivered_same hw (h.begun_marks opc)
  obtain ⟨z, hz, hz2⟩ := State.setScalarOf_some x.dst v ((State.acquired_crew ((s.opens c w opc x).delivered c) c 3).trans hy)
  refine ownIssue h ha ?_ hz ?_
  · rw [deliver_run _ hw ((Crew.begun_waitEvt w opc x).trans he)]
    exact hf _ _ hy hm
  · rw [hz2, ha2, Crew.begun_act]; exact h.awake

theorem liftQueue_ok {α : Type} {c : Nat} {r : QueueRes α} {t : State} {v : α} (s : State) (h : r = .ok t v) :
    liftQueue c r s = .ok v t := by
  rw [h]; rfl

theorem modS_eq {s t : State} {f : State → State} (h : f s = t) : modS f s = .ok () t := h ▸ modS_run f s

theorem liftIo_ok {α : Type} {s t : State} {v : α} {p : Park} {k : Option Mask} {r : Io α} (h : r = .ok t v) :
    liftIo r p k s = .ok v t := by
  rw [h]; rfl

theorem launch_reads {s t q : State} {c : Nat} {y : Crew} {x : Ops} {g : Gang} {l : Grid} {a : DWord} {r : List Byte} (hw : s.crew? c = some y)
    (hm : y.marks = []) (hg : s.gang? y.gang = some g) (ea : a = y.arch.scalar (scalarNo x.sa)) (h1 : a.toNat % 64 = 0)
    (h2 : a.toNat < 2 ^ 52) (hr : s.readVa (s.crewAgent y y.ipc) .read a.toNat 256 = .ok t r) (hl : t.grid? g.grid = some l)
    (hk : endLaunch c x g l r t = .ok () q) : bodyLaunch c x s = .ok () q := by
  unfold bodyLaunch
  refine (M.bind_ok (readScalar_run _ hw hm)).trans ?_
  rw [← ea, if_neg (by omega), if_neg (by omega)]
  refine (M.bind_ok (crewM_run hw)).trans ((M.bind_ok (gangM_run hw hg)).trans
    ((M.bind_ok (getS_run s)).trans ((M.bind_ok (liftIo_ok hr)).trans ((M.bind_ok (getS_run t)).trans ?_))))
  simp only [hl]
  exact hk

end Sys2Proof.Machine
end

