-- ==== Sys2Proof/Laws/Bins.lean ====
section
/-!
SUPPORT. Laws/Bins.lean: the rows of a bin that suspended lanes take, and what writing them leaves of the machine.
-/

namespace Sys2Proof.Machine

open Sys2Proof

/-- Two masks and a lane of neither: one lane more. -/
theorem maskCount_or_laneBit {m : Mask} {i : Nat} (hi : i < 32) (hf : m.getLsbD i = false) :
    maskCount (m ||| laneBit i) = maskCount m + 1 := by
  have key : ∀ (l : List (Fin 32)), l.Nodup →
      (l.filter fun j => (m ||| laneBit i)[j]).length = (l.filter fun j => m[j]).length + (if (⟨i, hi⟩ : Fin 32) ∈ l then 1 else 0) := by
    intro l hl
    induction l with
    | nil => simp
    | cons j l ih =>
      have ⟨hn, hl2⟩ := List.nodup_cons.mp hl
      have hb : (m ||| laneBit i)[j] = (m[j] || decide ((⟨i, hi⟩ : Fin 32) = j)) := by
        have h1 := oneLane_bit ⟨i, hi⟩ j
        show (m ||| 1#32 <<< i)[j.val] = _
        rw [BitVec.getElem_or]
        exact congrArg _ h1
      by_cases hj : (⟨i, hi⟩ : Fin 32) = j
      · subst hj
        have hmj : m[(⟨i, hi⟩ : Fin 32)] = false := by
          show m[i] = false
          rw [← hf]; exact (BitVec.getLsbD_eq_getElem hi).symm
        have hnl := ih hl2
        rw [if_neg hn] at hnl
        rw [List.filter_cons_of_pos (by simp [hb]), List.filter_cons_of_neg (by simp [hmj])]
        rw [List.length_cons, hnl, if_pos List.mem_cons_self]
      · have hmem : (⟨i, hi⟩ : Fin 32) ∈ j :: l ↔ (⟨i, hi⟩ : Fin 32) ∈ l := by simp [hj]
        have hb2 : (m ||| laneBit i)[j] = m[j] := by rw [hb]; simp [hj]
        simp only [hmem]
        cases hmj : m[j] with
        | true => rw [List.filter_cons_of_pos (by rw [hb2, hmj]), List.filter_cons_of_pos (by rw [hmj]), List.length_cons, List.length_cons, ih hl2]; omega
        | false => rw [List.filter_cons_of_neg (by simp [hb2, hmj]), List.filter_cons_of_neg (by simp [hmj])]; exact ih hl2
  have := key allLanes (List.nodup_finRange 32)
  rw [if_pos (by unfold allLanes; exact List.mem_finRange _)] at this
  exact this

theorem freeRow_some {m : Mask} {i : Nat} (h : freeRow m = some i) : i < 32 ∧ m.getLsbD i = false := by
  unfold freeRow at h
  have h1 := List.mem_of_find?_eq_some h
  have h2 := List.find?_some h
  exact ⟨List.mem_range.mp h1, by simpa using h2⟩

theorem freeRow_none {m : Mask} (h : freeRow m = none) : maskCount m = 32 := by
  unfold freeRow at h
  rw [List.find?_eq_none] at h
  unfold maskCount lanesOf
  rw [List.filter_eq_self.mpr]
  · decide
  · intro j _
    have := h j.val (List.mem_range.mpr j.isLt)
    simp only [Bool.not_eq_true', Bool.not_eq_false] at this
    exact (BitVec.getLsbD_eq_getElem j.isLt).symm.trans this

theorem writeChips_keep (l : List (Nat × Nat)) (f : Nat × Nat → Nat) (v : Nat × Nat → List Byte) (s : State) :
    (l.foldl (fun u w => u.writeChip (f w) (v w)) s).crews = s.crews ∧ (l.foldl (fun u w => u.writeChip (f w) (v w)) s).gangs = s.gangs
      ∧ (l.foldl (fun u w => u.writeChip (f w) (v w)) s).cores = s.cores := by
  induction l generalizing s with
  | nil => exact ⟨rfl, rfl, rfl⟩
  | cons p l ih => exact ⟨(ih _).1.trans rfl, (ih _).2.1.trans rfl, (ih _).2.2.trans rfl⟩

theorem suspLanes_run {c core n : Nat} {y : Crew} {g : Gang} {vs : Tab Entry} (cs : List FrameCol) (ls : List (Fin 32)) :
    ∀ (s : State) (b : Bin), s.crew? c = some y → s.gang? y.gang = some g → s.coreOf y = core → (s.core core).vs = vs →
    maskCount b.occ + ls.length ≤ 32 →
    suspLanes c n cs ls b s = .ok (State.framed core g vs y.arch.names cs ls s b).2 (State.framed core g vs y.arch.names cs ls s b).1
      ∧ (State.framed core g vs y.arch.names cs ls s b).1.crews = s.crews := by
  induction ls with
  | nil => intro s b _ _ _ _ _; exact ⟨rfl, rfl⟩
  | cons l ls ih =>
    intro s b hy hg hc hv hn
    cases hr : freeRow b.occ with
    | none =>
      have := freeRow_none hr
      simp only [List.length_cons] at hn
      omega
    | some i =>
      obtain ⟨hi, hf⟩ := freeRow_some hr
      have hcnt := maskCount_or_laneBit hi hf
      obtain ⟨t, ht⟩ : ∃ t, t = (frameWords vs y.arch.names cs l).foldl (fun u w => u.writeChip (framePa core g b i w.1) (bytesLE 4 w.2)) s := ⟨_, rfl⟩
      have hk := writeChips_keep (frameWords vs y.arch.names cs l) (fun w => framePa core g b i w.1) (fun w => bytesLE 4 w.2) s
      rw [← ht] at hk
      have hy1 : t.crew? c = some y := by unfold State.crew? at hy ⊢; rw [hk.1]; exact hy
      have hg1 : t.gang? y.gang = some g := by unfold State.gang? at hg ⊢; rw [hk.2.1]; exact hg
      have hco : t.coreOf y = core := by rw [← hc]; unfold State.coreOf State.gang?; rw [hk.2.1]
      have hv1 : (t.core core).vs = vs := by rw [← hv]; unfold State.core; rw [hk.2.2]
      simp only [List.length_cons] at hn
      have := ih t { b with occ := b.occ ||| laneBit i } hy1 hg1 hco hv1 (by show maskCount (b.occ ||| laneBit i) + _ ≤ _; omega)
      unfold suspLanes State.framed
      simp only [hr]
      rw [← ht]
      refine ⟨?_, this.2.trans hk.1⟩
      rw [← this.1]
      refine (M.bind_ok (crewM_run hy)).trans ((M.bind_ok (gangM_run hy hg)).trans ((M.bind_ok (getS_run s)).trans ((M.bind_ok (vsM_run hy)).trans ?_)))
      rw [hc, hv]
      exact M.bind_ok (modS_eq (f := fun t => (frameWords vs y.arch.names cs l).foldl (fun u w => u.writeChip (framePa core g b i w.1) (bytesLE 4 w.2)) t) ht.symm)

/-- A loop each of whose rounds leaves the state alone. -/
theorem forIn_ok {β : Type} (l : List β) (s : State) (f : β → PUnit → M (ForInStep PUnit))
    (h : ∀ a ∈ l, f a PUnit.unit s = .ok (ForInStep.yield PUnit.unit) s) : (forIn l PUnit.unit f : M PUnit) s = .ok PUnit.unit s := by
  induction l with
  | nil => rfl
  | cons a l ih =>
    rw [List.forIn_cons]
    refine (M.bind_ok (h a List.mem_cons_self)).trans ?_
    exact ih fun b hb => h b (List.mem_cons_of_mem _ hb)

end Sys2Proof.Machine
end

