-- ==== Sys2Proof/Laws/Encoding.lean ====
section
/-!
SUPPORT. Laws/Encoding.lean: bytes and the numbers they make, the fields of a common word, and what the decoder builds of
the parts of an instruction.
-/

namespace Sys2Proof

theorem bytesLE_length (n v : Nat) : (bytesLE n v).length = n := by
  induction n generalizing v with
  | zero => rfl
  | succ n ih => simp [bytesLE, ih]

theorem ofBytesLE_bytesLE (n v : Nat) : ofBytesLE (bytesLE n v) = v % 2 ^ (8 * n) := by
  induction n generalizing v with
  | zero => simp [bytesLE, ofBytesLE, Nat.mod_one]
  | succ n ih =>
    simp only [bytesLE, ofBytesLE, ih, BitVec.toNat_ofNat, Nat.shiftRight_eq_div_pow]
    have h : 2 ^ (8 * (n + 1)) = 2 ^ 8 * 2 ^ (8 * n) := by rw [← Nat.pow_add]; congr 1; omega
    rw [h, Nat.mod_mul] <;> rfl

theorem bytesLE_add (k m v : Nat) : bytesLE (k + m) v = bytesLE k v ++ bytesLE m (v >>> (8 * k)) := by
  induction k generalizing v with
  | zero => simp [bytesLE]
  | succ k ih =>
    rw [show k + 1 + m = (k + m) + 1 by omega]
    simp only [bytesLE, ih, List.cons_append]
    congr 3
    rw [← Nat.shiftRight_add]; congr 1; omega

theorem Ty.ofCode_code (t : Ty) : Ty.ofCode t.code = t := by cases t <;> rfl
theorem Ty.code_ofCode (c : BitVec 4) : (Ty.ofCode c).code = c := by revert c; decide

theorem commonWord_fields (opc : BitVec 8) (fn : Fn) (x : Ops) (w : DWord) (h : w = commonWord opc fn x) :
    w.extractLsb' 0 2 = x.head.len ∧ w.extractLsb' 8 8 = opc ∧ w.extractLsb' 52 12 = fn.toBits ∧ Head.ofWord w = x.head
      ∧ w.extractLsb' 16 8 = x.dst ∧ w.extractLsb' 24 4 = x.cnt ∧ w.extractLsb' 28 8 = x.sa ∧ w.extractLsb' 36 8 = x.sb
      ∧ w.extractLsb' 44 8 = x.sc := by
  obtain ⟨⟨neg, msk, uni, sw, len⟩, dst, cnt, sa, sb, sc, ext⟩ := x
  subst h
  have key : ∀ (k n : Nat) (v : BitVec n), (∀ i, i < n → (commonWord opc fn ⟨⟨neg, msk, uni, sw, len⟩, dst, cnt, sa, sb, sc, ext⟩).getLsbD (k + i)
      = v.getLsbD i) → (commonWord opc fn ⟨⟨neg, msk, uni, sw, len⟩, dst, cnt, sa, sb, sc, ext⟩).extractLsb' k n = v := by
    intro k n v h
    apply BitVec.eq_of_getLsbD_eq
    intro i hi
    rw [BitVec.getLsbD_extractLsb', h i hi]
    simp [hi]
  have bit : ∀ (k : Nat) (h : k < 64), (commonWord opc fn ⟨⟨neg, msk, uni, sw, len⟩, dst, cnt, sa, sb, sc, ext⟩)[k]
      = (commonWord opc fn ⟨⟨neg, msk, uni, sw, len⟩, dst, cnt, sa, sb, sc, ext⟩).getLsbD k := fun k h => (BitVec.getLsbD_eq_getElem h).symm
  have hd : Head.ofWord (commonWord opc fn ⟨⟨neg, msk, uni, sw, len⟩, dst, cnt, sa, sb, sc, ext⟩) = ⟨neg, msk, uni, sw, len⟩ := by
    unfold Head.ofWord
    rw [bit 7 (by omega), bit 3 (by omega), bit 2 (by omega)]
    congr 1
    · simp only [commonWord, Head.toByte, BitVec.getLsbD_append, Nat.reduceLT, reduceIte, Nat.reduceSub, BitVec.getLsbD_ofBool]
      simp
    · refine key _ _ _ fun i hi => ?_
      simp [commonWord, Head.toByte]; grind
    · simp only [commonWord, Head.toByte, BitVec.getLsbD_append, Nat.reduceLT, reduceIte, Nat.reduceSub, BitVec.getLsbD_ofBool]
      simp
    · simp only [commonWord, Head.toByte, BitVec.getLsbD_append, Nat.reduceLT, reduceIte, Nat.reduceSub, BitVec.getLsbD_ofBool]
      simp
    · refine key _ _ _ fun i hi => ?_
      simp [commonWord, Head.toByte]; grind
  have drop : ∀ {a b : Nat} (u : BitVec a) (v : BitVec b) (k : Nat), b ≤ k → (u ++ v).getLsbD k = u.getLsbD (k - b) := by
    intro a b u v k h
    rw [BitVec.getLsbD_append, if_neg (by omega)]
  have keep : ∀ {a b : Nat} (u : BitVec a) (v : BitVec b) (k : Nat), k < b → (u ++ v).getLsbD k = v.getLsbD k := by
    intro a b u v k h
    rw [BitVec.getLsbD_append, if_pos h]
  refine ⟨congrArg Head.len hd, ?_, ?_, hd, ?_, ?_, ?_, ?_, ?_⟩ <;> refine key _ _ _ fun i hi => ?_ <;> unfold commonWord
  · rw [drop _ _ _ (by omega), keep _ _ _ (by omega)]; congr 1; omega
  · rw [drop _ _ _ (by omega), drop _ _ _ (by omega), drop _ _ _ (by omega), drop _ _ _ (by omega), drop _ _ _ (by omega),
      drop _ _ _ (by omega), drop _ _ _ (by omega)]; congr 1; omega
  · rw [drop _ _ _ (by omega), drop _ _ _ (by omega), keep _ _ _ (by omega)]; congr 1; omega
  · rw [drop _ _ _ (by omega), drop _ _ _ (by omega), drop _ _ _ (by omega), keep _ _ _ (by omega)]; congr 1; omega
  · rw [drop _ _ _ (by omega), drop _ _ _ (by omega), drop _ _ _ (by omega), drop _ _ _ (by omega), keep _ _ _ (by omega)]; congr 1; omega
  · rw [drop _ _ _ (by omega), drop _ _ _ (by omega), drop _ _ _ (by omega), drop _ _ _ (by omega), drop _ _ _ (by omega),
      keep _ _ _ (by omega)]; congr 1; omega
  · rw [drop _ _ _ (by omega), drop _ _ _ (by omega), drop _ _ _ (by omega), drop _ _ _ (by omega), drop _ _ _ (by omega),
      drop _ _ _ (by omega), keep _ _ _ (by omega)]; congr 1; omega

theorem extract_append_hi {a b : Nat} (u : BitVec a) (v : BitVec b) (k n : Nat) (h : b ≤ k) :
    (u ++ v).extractLsb' k n = u.extractLsb' (k - b) n := by
  apply BitVec.eq_of_getLsbD_eq
  intro i hi
  rw [BitVec.getLsbD_extractLsb', BitVec.getLsbD_extractLsb', BitVec.getLsbD_append, if_neg (by omega)]
  congr 2; omega

theorem extract_append_lo {a b : Nat} (u : BitVec a) (v : BitVec b) (k n : Nat) (h : k + n ≤ b) :
    (u ++ v).extractLsb' k n = v.extractLsb' k n := by
  apply BitVec.eq_of_getLsbD_eq
  intro i hi
  rw [BitVec.getLsbD_extractLsb', BitVec.getLsbD_extractLsb', BitVec.getLsbD_append, if_pos (by omega)]

theorem extract_all {a : Nat} (u : BitVec a) : u.extractLsb' 0 a = u := by
  apply BitVec.eq_of_getLsbD_eq
  intro i hi
  rw [BitVec.getLsbD_extractLsb']
  simp [hi]

theorem bit_extract {a : Nat} (u : BitVec a) (k : Nat) (h : k < a) (b : Bool) (e : u.extractLsb' k 1 = BitVec.ofBool b) : u[k] = b := by
  have := congrArg (fun v : BitVec 1 => v.getLsbD 0) e
  rw [BitVec.getLsbD_extractLsb'] at this
  simp at this
  rw [← BitVec.getLsbD_eq_getElem h, this]

theorem FnT.ofBits_toBits (f : FnT) : FnT.ofBits f.toBits = f := by
  obtain ⟨sub, mg, md, ty⟩ := f
  unfold FnT.ofBits FnT.toBits
  congr 1
  · rw [extract_append_hi _ _ _ _ (by omega), extract_append_hi _ _ _ _ (by omega), extract_append_hi _ _ _ _ (by omega)]
    exact extract_all sub
  · apply bit_extract
    rw [extract_append_hi _ _ _ _ (by omega), extract_append_hi _ _ _ _ (by omega), extract_append_lo _ _ _ _ (by omega)]
    exact extract_all _
  · rw [extract_append_hi _ _ _ _ (by omega), extract_append_lo _ _ _ _ (by omega)]
    exact extract_all _
  · rw [extract_append_lo _ _ _ _ (by omega)]
    exact (congrArg Ty.ofCode (extract_all _)).trans (Ty.ofCode_code ty)

theorem FnM.ofBits_toBits (f : FnM) : FnM.ofBits f.toBits = f := by
  obtain ⟨sub, od, sc, ty⟩ := f
  unfold FnM.ofBits FnM.toBits
  congr 1
  · rw [extract_append_hi _ _ _ _ (by omega), extract_append_hi _ _ _ _ (by omega), extract_append_hi _ _ _ _ (by omega)]
    exact extract_all sub
  · rw [extract_append_hi _ _ _ _ (by omega), extract_append_hi _ _ _ _ (by omega), extract_append_lo _ _ _ _ (by omega)]
    exact extract_all _
  · rw [extract_append_hi _ _ _ _ (by omega), extract_append_lo _ _ _ _ (by omega)]
    exact extract_all _
  · rw [extract_append_lo _ _ _ _ (by omega)]
    exact (congrArg Ty.ofCode (extract_all _)).trans (Ty.ofCode_code ty)

theorem FnE.ofBits_toBits (f : FnE) : FnE.ofBits f.toBits = f := by
  obtain ⟨sub, op, ty⟩ := f
  unfold FnE.ofBits FnE.toBits
  congr 1
  · rw [extract_append_hi _ _ _ _ (by omega), extract_append_hi _ _ _ _ (by omega)]
    exact extract_all sub
  · rw [extract_append_hi _ _ _ _ (by omega), extract_append_lo _ _ _ _ (by omega)]
    exact extract_all _
  · rw [extract_append_lo _ _ _ _ (by omega)]
    exact (congrArg Ty.ofCode (extract_all _)).trans (Ty.ofCode_code ty)

theorem build_t {opc : Nat} {f : FnT} {x : Ops} {i : Instr} (ha : opcodeAssigned opc = true) (hl : Format.layout opc = 1)
    (h : Format.legal opc (.t f) x = true) (hb : buildT f x opc = some i) : buildInstr opc (Fn.t f).toBits x = .ok i := by
  have e : FnT.ofBits (Fn.t f).toBits = f := FnT.ofBits_toBits f
  simp [buildInstr, ha, hl, e, h, hb]

theorem build_m {opc : Nat} {f : FnM} {x : Ops} {i : Instr} (ha : opcodeAssigned opc = true) (hl : Format.layout opc = 2)
    (h : Format.legal opc (.m f) x = true) (hb : buildM f x opc = some i) : buildInstr opc (Fn.m f).toBits x = .ok i := by
  have e : FnM.ofBits (Fn.m f).toBits = f := FnM.ofBits_toBits f
  simp [buildInstr, ha, hl, e, h, hb]

theorem build_e {opc : Nat} {f : FnE} {x : Ops} {i : Instr} (ha : opcodeAssigned opc = true) (hl : Format.layout opc = 3)
    (h : Format.legal opc (.e f) x = true) (hb : buildE f x opc = some i) : buildInstr opc (Fn.e f).toBits x = .ok i := by
  have e : FnE.ofBits (Fn.e f).toBits = f := FnE.ofBits_toBits f
  simp [buildInstr, ha, hl, e, h, hb]

theorem build_n {opc : Nat} {k : BitVec 12} {x : Ops} {i : Instr} (ha : opcodeAssigned opc = true) (hl : Format.layout opc = 4)
    (h : Format.legal opc (.n k) x = true) (hb : buildN k x opc = some i) : buildInstr opc (Fn.n k).toBits x = .ok i := by
  simp [buildInstr, ha, hl, Fn.toBits, h, hb]

theorem build_z {opc : Nat} {x : Ops} {i : Instr} (ha : opcodeAssigned opc = true) (hl : Format.layout opc = 0)
    (h : Format.legal opc .z x = true) (hb : buildZ x opc = some i) : buildInstr opc Fn.z.toBits x = .ok i := by
  simp [buildInstr, ha, hl, Fn.toBits, h, hb]

theorem parts_t {i : Instr} {opc : Nat} {f : FnT} {x : Ops} (hp : i.parts = some (opc, .t f, x)) :
    opc < 256 ∧ opcodeAssigned opc = true ∧ Format.layout opc = 1 ∧ buildT f x opc = some i := by
  cases i <;> first
    | (cases hp; done)
    | (cases hp; exact ⟨by decide, rfl, rfl, rfl⟩)

theorem parts_m {i : Instr} {opc : Nat} {f : FnM} {x : Ops} (hp : i.parts = some (opc, .m f, x)) :
    opc < 256 ∧ opcodeAssigned opc = true ∧ Format.layout opc = 2 ∧ buildM f x opc = some i := by
  cases i <;> first
    | (cases hp; done)
    | (cases hp; exact ⟨by decide, rfl, rfl, rfl⟩)

theorem parts_e {i : Instr} {opc : Nat} {f : FnE} {x : Ops} (hp : i.parts = some (opc, .e f, x)) :
    opc < 256 ∧ opcodeAssigned opc = true ∧ Format.layout opc = 3 ∧ buildE f x opc = some i := by
  cases i <;> first
    | (cases hp; done)
    | (cases hp; exact ⟨by decide, rfl, rfl, rfl⟩)

theorem parts_n {i : Instr} {opc : Nat} {k : BitVec 12} {x : Ops} (hp : i.parts = some (opc, .n k, x)) :
    opc < 256 ∧ opcodeAssigned opc = true ∧ Format.layout opc = 4 ∧ buildN k x opc = some i := by
  cases i <;> first
    | (cases hp; done)
    | (cases hp; exact ⟨by decide, rfl, rfl, rfl⟩)

theorem parts_z {i : Instr} {opc : Nat} {x : Ops} (hp : i.parts = some (opc, .z, x)) :
    opc < 256 ∧ opcodeAssigned opc = true ∧ Format.layout opc = 0 ∧ buildZ x opc = some i := by
  cases i <;> first
    | (cases hp; done)
    | (cases hp; exact ⟨by decide, rfl, rfl, rfl⟩)

theorem buildInstr_parts {i : Instr} {opc : Nat} {fn : Fn} {x : Ops} (hp : i.parts = some (opc, fn, x))
    (h : Format.legal opc fn x = true) : opc < 256 ∧ buildInstr opc fn.toBits x = .ok i := by
  cases fn with
  | t f => have k := parts_t hp; exact ⟨k.1, build_t k.2.1 k.2.2.1 h k.2.2.2⟩
  | m f => have k := parts_m hp; exact ⟨k.1, build_m k.2.1 k.2.2.1 h k.2.2.2⟩
  | e f => have k := parts_e hp; exact ⟨k.1, build_e k.2.1 k.2.2.1 h k.2.2.2⟩
  | n f => have k := parts_n hp; exact ⟨k.1, build_n k.2.1 k.2.2.1 h k.2.2.2⟩
  | z => have k := parts_z hp; exact ⟨k.1, build_z k.2.1 k.2.2.1 h k.2.2.2⟩

theorem decodeWords_parts {i : Instr} {opc : Nat} {fn : Fn} {x : Ops} (e : DWord) (hp : i.parts = some (opc, fn, x))
    (h : Format.legal opc fn x = true) (he : x.ext = if x.head.len = 0 then 0 else if x.head.len = 1 then (e.extractLsb' 0 32).setWidth 64 else e)
    (hl : x.head.len ≠ 3) : decodeWords (commonWord (BitVec.ofNat 8 opc) fn x) e = .ok i := by
  obtain ⟨h1, h2, h3, h4, h5, h6, h7, h8, h9⟩ := commonWord_fields (BitVec.ofNat 8 opc) fn x _ rfl
  obtain ⟨hb, hi⟩ := buildInstr_parts hp h
  unfold decodeWords
  simp only [h1, h2, h3]
  rw [if_neg hl, ← he]
  have : Ops.ofWord (commonWord (BitVec.ofNat 8 opc) fn x) x.ext = x := by
    unfold Ops.ofWord; rw [h4, h5, h6, h7, h8, h9]
  rw [this, BitVec.toNat_ofNat, Nat.mod_eq_of_lt hb]
  exact hi

theorem append_extract {a b : Nat} (w : BitVec (a + b)) : w.extractLsb' b a ++ w.extractLsb' 0 b = w := by
  apply BitVec.eq_of_getLsbD_eq
  intro i hi
  rw [BitVec.getLsbD_append]
  split
  · rw [BitVec.getLsbD_extractLsb']; simp [*]
  · rw [BitVec.getLsbD_extractLsb']
    have : i - b < a := by omega
    simp only [this, decide_true, Bool.true_and]
    congr 1; omega

theorem extract_extract {a : Nat} (w : BitVec a) (k n j m : Nat) (h : j + m ≤ n) :
    (w.extractLsb' k n).extractLsb' j m = w.extractLsb' (k + j) m := by
  apply BitVec.eq_of_getLsbD_eq
  intro i hi
  simp only [BitVec.getLsbD_extractLsb', hi, decide_true, Bool.true_and]
  rw [show decide (j + i < n) = true by simp; omega, Bool.true_and]
  congr 1; omega

theorem ofBool_bit {a : Nat} (w : BitVec a) (k : Nat) (h : k < a) : BitVec.ofBool w[k] = w.extractLsb' k 1 := by
  apply BitVec.eq_of_getLsbD_eq
  intro i hi
  have : i = 0 := by omega
  subst this
  rw [BitVec.getLsbD_extractLsb']
  simp [BitVec.getLsbD_eq_getElem h]

/-- Two pieces that follow each other. -/
theorem join_extract {a : Nat} (w : BitVec a) (k n j m : Nat) (h : k = j + m) :
    w.extractLsb' k n ++ w.extractLsb' j m = w.extractLsb' j (n + m) := by
  subst h
  have := append_extract (w.extractLsb' j (n + m))
  rw [extract_extract _ _ _ _ _ (by omega), extract_extract _ _ _ _ _ (by omega)] at this
  simpa using this

theorem FnT.toBits_ofBits (b : BitVec 12) : (FnT.ofBits b).toBits = b := by
  unfold FnT.ofBits FnT.toBits
  simp only
  rw [Ty.code_ofCode, ofBool_bit _ _ (by omega), join_extract b 8 4 7 1 rfl, join_extract b 7 5 4 3 rfl, join_extract b 4 8 0 4 rfl]
  exact extract_all b

theorem FnM.toBits_ofBits (b : BitVec 12) : (FnM.ofBits b).toBits = b := by
  unfold FnM.ofBits FnM.toBits
  simp only
  rw [Ty.code_ofCode, join_extract b 9 3 7 2 rfl, join_extract b 7 5 4 3 rfl, join_extract b 4 8 0 4 rfl]
  exact extract_all b

theorem FnE.toBits_ofBits (b : BitVec 12) : (FnE.ofBits b).toBits = b := by
  unfold FnE.ofBits FnE.toBits
  simp only
  rw [Ty.code_ofCode, join_extract b 8 4 4 4 rfl, join_extract b 4 8 0 4 rfl]
  exact extract_all b

theorem Head.toByte_ofWord (w : DWord) : (Head.ofWord w).toByte = w.extractLsb' 0 8 := by
  unfold Head.ofWord Head.toByte
  simp only
  rw [ofBool_bit _ _ (by omega), ofBool_bit _ _ (by omega), ofBool_bit _ _ (by omega), join_extract w 7 1 4 3 rfl,
    join_extract w 4 4 3 1 rfl, join_extract w 3 5 2 1 rfl, join_extract w 2 6 0 2 rfl]

theorem commonWord_ofWord (w e : DWord) (opc : BitVec 8) (fn : Fn) (h1 : opc = w.extractLsb' 8 8) (h2 : fn.toBits = w.extractLsb' 52 12) :
    commonWord opc fn (Ops.ofWord w e) = w := by
  unfold commonWord Ops.ofWord
  simp only
  rw [h1, h2, Head.toByte_ofWord, join_extract w 52 12 44 8 rfl, join_extract w 44 20 36 8 rfl, join_extract w 36 28 28 8 rfl,
    join_extract w 28 36 24 4 rfl, join_extract w 24 40 16 8 rfl, join_extract w 16 48 8 8 rfl, join_extract w 8 56 0 8 rfl]
  exact extract_all w

theorem buildT_parts {f : FnT} {x : Ops} {opc : Nat} {i : Instr} (h : buildT f x opc = some i) : i.parts = some (opc, .t f, x) := by
  unfold buildT at h
  split at h <;> cases h <;> rfl
theorem buildM_parts {f : FnM} {x : Ops} {opc : Nat} {i : Instr} (h : buildM f x opc = some i) : i.parts = some (opc, .m f, x) := by
  unfold buildM at h
  split at h <;> cases h <;> rfl
theorem buildE_parts {f : FnE} {x : Ops} {opc : Nat} {i : Instr} (h : buildE f x opc = some i) : i.parts = some (opc, .e f, x) := by
  unfold buildE at h
  split at h <;> cases h <;> rfl
theorem buildN_parts {f : BitVec 12} {x : Ops} {opc : Nat} {i : Instr} (h : buildN f x opc = some i) : i.parts = some (opc, .n f, x) := by
  unfold buildN at h
  split at h <;> cases h <;> rfl
theorem buildZ_parts {x : Ops} {opc : Nat} {i : Instr} (h : buildZ x opc = some i) : i.parts = some (opc, .z, x) := by
  unfold buildZ at h
  split at h <;> cases h <;> rfl

theorem layout_le (opc : Nat) : Format.layout opc ≤ 4 := by
  unfold Format.layout
  split
  · omega
  split
  · omega
  split
  · omega
  split <;> omega

theorem buildInstr_ok {opc : Nat} {b : BitVec 12} {x : Ops} {i : Instr} (h : buildInstr opc b x = .ok i) :
    ∃ fn, i.parts = some (opc, fn, x) ∧ fn.toBits = b ∧ Format.legal opc fn x = true := by
  unfold buildInstr at h
  split at h
  · cases h
  simp only at h
  obtain ⟨p, hp⟩ : ∃ p : Fn, p = (if Format.layout opc = 1 then .t (FnT.ofBits b) else if Format.layout opc = 2 then .m (FnM.ofBits b)
      else if Format.layout opc = 3 then .e (FnE.ofBits b) else if Format.layout opc = 4 then .n b else .z) := ⟨_, rfl⟩
  rw [← hp] at h
  split at h
  · cases h
  next hz =>
  split at h
  · cases h
  next hl =>
  have hl2 : Format.legal opc p x = true := by simpa using hl
  refine ⟨p, ?_, ?_, hl2⟩
  · split at h
    · next j hj =>
      cases h
      cases p with
      | t f => exact buildT_parts hj
      | m f => exact buildM_parts hj
      | e f => exact buildE_parts hj
      | n f => exact buildN_parts hj
      | z => exact buildZ_parts hj
    · cases h
  · rw [hp]
    split
    · exact FnT.toBits_ofBits b
    split
    · exact FnM.toBits_ofBits b
    split
    · exact FnE.toBits_ofBits b
    split
    · rfl
    · next h1 h2 h3 h4 =>
      have : Format.layout opc = 0 := by
        have := layout_le opc
        omega
      have : b = 0 := by
        apply Classical.byContradiction
        intro hb; exact hz ⟨this, hb⟩
      rw [this]; rfl

theorem bytesLE_ofBytesLE (bs : List Byte) : bytesLE bs.length (ofBytesLE bs) = bs := by
  induction bs with
  | nil => rfl
  | cons b bs ih =>
    show BitVec.ofNat 8 (b.toNat + 256 * ofBytesLE bs) :: bytesLE bs.length ((b.toNat + 256 * ofBytesLE bs) >>> 8) = _
    have h := b.isLt
    have h1 : (b.toNat + 256 * ofBytesLE bs) >>> 8 = ofBytesLE bs := by
      rw [Nat.shiftRight_eq_div_pow]; omega
    rw [h1, ih]
    congr 1
    apply BitVec.eq_of_toNat_eq
    rw [BitVec.toNat_ofNat]; omega

theorem ofBytesLE_lt (bs : List Byte) : ofBytesLE bs < 2 ^ (8 * bs.length) := by
  induction bs with
  | nil => simp [ofBytesLE]
  | cons b bs ih =>
    have h := b.isLt
    simp only [ofBytesLE, List.length_cons]
    rw [show 2 ^ (8 * (bs.length + 1)) = 2 ^ 8 * 2 ^ (8 * bs.length) by rw [← Nat.pow_add]; congr 1; omega]
    omega

end Sys2Proof
end

