-- ==== Sys2Proof/Laws/Keeps.lean ====
section
/-!
SUPPORT. Laws/Keeps.lean: what reading operands and writing a destination leaves of a crew's registers and of the entries
of value stores, and the frame of an instruction that does nothing else.
-/

namespace Sys2Proof.Machine

open Sys2Proof

/-- Entry `e` is bound to a touched name of crew `w`. -/
def Old (w : Crew) (T : Nat → Bool) (e : Nat) : Prop := ∃ n b, T n = true ∧ Tab.at? w.arch.names n = some b ∧ b.entry = e

/-- `u` comes from `s` by reading and writing names with `T` and scalars with `S` of crew `c`, which stands as `w` in `s`. -/
structure Keeps (s : State) (c : Nat) (w : Crew) (T S : Nat → Bool) (u : State) : Prop where
  crew : ∃ y, u.crew? c = some y ∧ y = { w with arch := { w.arch with names := y.arch.names, scal := y.arch.scal } } ∧
    (∀ k, S k = false → y.arch.scalar k = w.arch.scalar k) ∧
    (∀ n, T n = false → Tab.at? y.arch.names n = Tab.at? w.arch.names n) ∧
    (∀ n b, T n = true → Tab.at? y.arch.names n = some b → Old w T b.entry ∨ Tab.at? (s.core (s.coreOf w)).vs b.entry = none)
  ents : ∀ j e en, Tab.at? (s.core j).vs e = some en → (j = s.coreOf w → ¬ Old w T e) → Tab.at? (u.core j).vs e = some en
  near : s.Near u c

section keeps

variable {s u : State} {c : Nat} {w : Crew} {T S : Nat → Bool}

theorem Keeps.start (hw : s.crew? c = some w) : Keeps s c w T S s :=
  ⟨⟨w, hw, rfl, fun _ _ => rfl, fun _ _ => rfl, fun n b hn hb => .inl ⟨n, b, hn, hb, rfl⟩⟩, fun _ _ _ h _ => h, State.Near.refl _ _⟩

theorem coreOf_same {y : Crew} (e : y = { w with arch := { w.arch with names := y.arch.names, scal := y.arch.scal } }) (s : State) : s.coreOf y = s.coreOf w := by
  rw [e]; rfl

theorem releaseEntry_ne (y : Crew) (vs : Tab Entry) (e j : Nat) (h : e ≠ j) : Tab.at? (releaseEntry y vs e) j = Tab.at? vs j := by
  unfold releaseEntry
  split
  · exact Tab.at?_del_ne _ _ _ h
  · split
    · exact Tab.at?_put_ne _ _ _ _ h
    · rfl

theorem core_modCore_vs (s : State) (k j e : Nat) (f : Core → Core) (en : Entry) (h : Tab.at? (s.core j).vs e = some en)
    (hf : j = k → Tab.at? (f (s.core k)).vs e = some en) : Tab.at? ((s.modCore k f).core j).vs e = some en := by
  unfold State.modCore
  by_cases hj : k = j
  · subst hj; rw [State.core_setCore]; exact hf rfl
  · rw [State.core_setCore_ne s k j _ hj]; exact h

theorem Keeps.took (h : Keeps s c w T S u) (n : Nat) (hn : T n = true) : Keeps s c w T S (u.took c n) := by
  obtain ⟨⟨y, hy, hyw, hs, hT, hO⟩, he, hnear⟩ := h
  have hnear' := hnear.trans (State.near_took u c n)
  unfold State.took at hnear' ⊢
  rw [hy] at hnear' ⊢
  simp only at hnear' ⊢
  cases hb : Tab.at? y.arch.names n with
  | none => exact ⟨⟨y, hy, hyw, hs, hT, hO⟩, he, hnear⟩
  | some b =>
    simp only [hb] at hnear' ⊢
    split at hnear'
    · rw [if_pos ‹_›]; exact ⟨⟨y, hy, hyw, hs, hT, hO⟩, he, hnear⟩
    · rename_i h15
      rw [if_neg h15]
      split at hnear'
      · rename_i h1
        rw [if_pos h1]
        refine ⟨⟨_, State.crew_setCrew _ _ _, ?_, hs, fun k hk => ?_, fun k d hk hd => ?_⟩, fun j e en hen hold => ?_, hnear'⟩
        · rw [hyw]
        · have : n ≠ k := fun e => by subst e; rw [hn] at hk; cases hk
          exact (Tab.at?_del_ne _ _ _ this).trans (hT k hk)
        · by_cases hk2 : n = k
          · subst hk2
            exact absurd hd (by rw [Tab.at?_del_self]; simp)
          · exact hO k d hk ((Tab.at?_del_ne _ _ _ hk2).symm.trans hd)
        · refine core_modCore_vs _ _ _ _ _ _ (he j e en hen hold) fun hj => ?_
          have hcy : u.coreOf y = s.coreOf w := (hnear.coreOf y).trans (coreOf_same hyw s)
          have hjc : j = s.coreOf w := hj.trans hcy
          show Tab.at? (releaseEntry _ (u.core (u.coreOf y)).vs b.entry) e = some en
          rw [releaseEntry_ne]
          · rw [hcy, ← hjc]; exact he j e en hen hold
          · intro eb
            rcases hO n b hn hb with o | o
            · exact hold hjc (eb ▸ o)
            · rw [eb, ← hjc, hen] at o; cases o
      · rename_i h1
        rw [if_neg h1]
        refine ⟨⟨_, State.crew_setCrew _ _ _, ?_, hs, fun k hk => ?_, fun k d hk hd => ?_⟩, fun j e en hen hold => he j e en hen hold, hnear'⟩
        · rw [hyw]
        · have : n ≠ k := fun e => by subst e; rw [hn] at hk; cases hk
          exact (Tab.at?_put_ne _ _ _ _ this).trans (hT k hk)
        · by_cases hk2 : n = k
          · subst hk2
            have hd' : Tab.at? (Tab.put y.arch.names n { b with count := b.count - 1 }) n = some d := hd
            rw [Tab.at?_put_self] at hd'
            cases hd'
            exact hO n b hn hb
          · exact hO k d hk ((Tab.at?_put_ne _ _ _ _ hk2).symm.trans hd)

theorem Keeps.bindName (h : Keeps s c w T S u) (n count : Nat) (st : EState) (hn : T n = true) (hc : u.canBind c n = true) :
    Keeps s c w T S (u.bindName c n count st) := by
  obtain ⟨⟨y, hy, hyw, hs, hT, hO⟩, he, hnear⟩ := h
  have hnear' := hnear.trans (State.near_bindName u c n count st)
  unfold State.canBind at hc
  unfold State.bindName at hnear' ⊢
  rw [hy] at hnear' hc ⊢
  simp only [Bool.and_eq_true] at hnear' hc ⊢
  obtain ⟨⟨-, hf⟩, -⟩ := hc
  obtain ⟨f, hf⟩ := Option.isSome_iff_exists.mp hf
  have hfree : Tab.at? (u.core (u.coreOf y)).vs f = none := Tab.firstFree_none _ _ _ _ hf
  have hcy : u.coreOf y = s.coreOf w := (hnear.coreOf y).trans (coreOf_same hyw s)
  have hfo : Old w T f ∨ Tab.at? (s.core (s.coreOf w)).vs f = none := by
    by_cases ho : Old w T f
    · exact .inl ho
    · right
      cases hq : Tab.at? (s.core (s.coreOf w)).vs f with
      | none => rfl
      | some en =>
        have := he _ f en hq fun _ => ho
        rw [← hcy, hfree] at this; cases this
  rw [hf] at hnear' ⊢
  simp only [Option.getD_some] at hnear' ⊢
  refine ⟨⟨_, State.crew_setCrew _ _ _, ?_, hs, fun k hk => ?_, fun k d hk hd => ?_⟩, fun j e en hen hold => ?_, hnear'⟩
  · rw [hyw]
  · have : n ≠ k := fun e => by subst e; rw [hn] at hk; cases hk
    exact (Tab.at?_put_ne _ _ _ _ this).trans (hT k hk)
  · by_cases hk2 : n = k
    · subst hk2
      have hd' : Tab.at? (Tab.put y.arch.names n ⟨f, count⟩) n = some d := hd
      rw [Tab.at?_put_self] at hd'
      cases hd'
      exact hfo
    · exact hO k d hk ((Tab.at?_put_ne _ _ _ _ hk2).symm.trans hd)
  · rw [show ∀ (a : State) (b : Crew), ((a.setCrew c b).core j) = a.core j from fun _ _ => rfl]
    refine core_modCore_vs _ _ _ _ _ _ (he j e en hen hold) fun hj => ?_
    have hne : f ≠ e := by
      intro eb
      have := he j e en hen hold
      rw [hj, ← eb, hfree] at this; cases this
    exact (Tab.at?_put_ne _ _ _ _ hne).trans (by rw [← hj]; exact he j e en hen hold)

theorem Keeps.fillName (h : Keeps s c w T S u) (n : Nat) (v : Lanes) (hn : T n = true) : Keeps s c w T S (u.fillName c n v) := by
  obtain ⟨⟨y, hy, hyw, hs, hT, hO⟩, he, hnear⟩ := h
  have hnear' := hnear.trans (State.near_fillName u c n v)
  unfold State.fillName at hnear' ⊢
  rw [hy] at hnear' ⊢
  simp only at hnear' ⊢
  cases hb : Tab.at? y.arch.names n with
  | none => exact ⟨⟨y, hy, hyw, hs, hT, hO⟩, he, hnear⟩
  | some b =>
    simp only [hb] at hnear' ⊢
    refine ⟨⟨y, hy, hyw, hs, hT, hO⟩, fun j e en hen hold => ?_, hnear'⟩
    refine core_modCore_vs _ _ _ _ _ _ (he j e en hen hold) fun hj => ?_
    have hcy : u.coreOf y = s.coreOf w := (hnear.coreOf y).trans (coreOf_same hyw s)
    have hjc : j = s.coreOf w := hj.trans hcy
    have hne : b.entry ≠ e := by
      intro eb
      rcases hO n b hn hb with o | o
      · exact hold hjc (eb ▸ o)
      · rw [eb, ← hjc, hen] at o; cases o
    have h0 : Tab.at? (u.core (u.coreOf y)).vs e = some en := by rw [← hj]; exact he j e en hen hold
    split
    · exact (Tab.at?_put_ne _ _ _ _ hne).trans h0
    · exact h0

theorem Arch.setScalar_ne (a : Arch) (r k : Nat) (v : DWord) (h : r ≠ k) : (a.setScalar r v).scalar k = a.scalar k := by
  unfold Arch.setScalar Arch.scalar
  split
  · split
    · simp [h]
    · rfl
  · rfl

theorem Keeps.setScalarOf (h : Keeps s c w T S u) (code : BitVec 8) (v : DWord) (hc : S (scalarNo code) = true) :
    Keeps s c w T S (u.setScalarOf c code v) := by
  obtain ⟨⟨y, hy, hyw, hs, hT, hO⟩, he, hnear⟩ := h
  have hnear' := hnear.trans (State.near_setScalarOf u c code v)
  unfold State.setScalarOf at hnear' ⊢
  rw [hy] at hnear' ⊢
  simp only at hnear' ⊢
  obtain ⟨sc, ha⟩ : ∃ sc, y.arch.setScalar (scalarNo code) v = { y.arch with scal := sc } := by
    unfold Arch.setScalar; split
    · exact ⟨_, rfl⟩
    · exact ⟨_, rfl⟩
  refine ⟨⟨_, State.crew_setCrew _ _ _, ?_, fun k hk => ?_, ?_, ?_⟩, fun j e en hen hold => he j e en hen hold, hnear'⟩
  · rw [ha]
    clear hs hT hO ha hc hy hnear' he hnear
    show ({ y with arch := { y.arch with scal := sc } } : Crew) = { w with arch := { w.arch with names := y.arch.names, scal := sc } }
    rw [hyw]
  · have hne : scalarNo code ≠ k := fun e => by rw [e, hk] at hc; cases hc
    have e := (Arch.setScalar_ne y.arch _ k v hne).trans (hs k hk)
    clear hs hT hO ha hc hy hnear' he hnear
    dsimp only
    exact e
  · rw [ha]; exact hT
  · rw [ha]; exact hO

theorem Keeps.afterSrc (h : Keeps s c w T S u) (code : BitVec 8) (wide : Bool) (hc : ∀ k, readsName code wide k = true → T k = true) :
    Keeps s c w T S (u.afterSrc c code wide) := by
  unfold State.afterSrc
  split
  · rename_i hv
    split
    · rename_i hw
      exact (h.took _ (hc _ (by simp [readsName, hv]))).took _ (hc _ (by simp [readsName, hv, hw]))
    · exact h.took _ (hc _ (by simp [readsName, hv]))
  · exact h

theorem Keeps.out (h : Keeps s c w T S u) (f : FnT) (x : Ops) (sv : DWord) (r : Fin 32 → DWord)
    (hg : f.mg = true → T x.sc.toNat = true) (hu : x.head.uni = true → S (scalarNo x.dst) = true)
    (hd : x.head.uni = false → x.cnt ≠ 0 → T x.dst.toNat = true ∧ (f.ty.wide = true → T (x.dst.toNat + 1) = true))
    (ok : u.outOk c f x f.ty.wide = true) : Keeps s c w T S (u.out c f x f.ty.wide sv r) := by
  have hm : Keeps s c w T S (u.afterMg c f x) := by
    unfold State.afterMg
    split
    · exact h.took _ (hg ‹_›)
    · exact h
  unfold State.outOk at ok
  unfold State.out
  simp only
  generalize u.afterMg c f x = v at hm ok ⊢
  cases hx : x.head.uni with
  | true => simp only [if_true]; exact hm.setScalarOf _ _ (hu hx)
  | false =>
    simp only [Bool.false_eq_true, if_false]
    simp only [hx, Bool.false_or, Bool.and_eq_true] at ok
    have ok2 := ok.2
    unfold State.dstOk at ok2
    unfold State.stored
    by_cases h0 : x.cnt = 0
    · simp only [h0, if_true]; exact hm
    · rw [if_neg h0]
      have hb : (x.cnt == 0) = false := by simpa using h0
      simp only [hb, Bool.false_or] at ok2
      have hd' := hd hx h0
      cases hwd : f.ty.wide with
      | true =>
        simp only [hwd, if_true, Bool.and_eq_true] at ok2 ⊢
        exact (((hm.bindName _ _ _ hd'.1 ok2.1.2).bindName _ _ _ (hd'.2 hwd) ok2.2).fillName _ _ hd'.1).fillName _ _ (hd'.2 hwd)
      | false =>
        simp only [hwd, Bool.false_eq_true, if_false, Bool.and_eq_true] at ok2 ⊢
        exact (hm.bindName _ _ _ hd'.1 ok2.2).fillName _ _ hd'.1

theorem gang_count_fold (l : List StatDue) (gk : Nat) (s : State) (g : Nat) :
    (∃ d, ((l.foldl (fun t d => t.modGang gk fun g => g.count d.tid d.stat) s).gang? g) = (s.gang? g).map fun y => { y with stats := d })
    ∧ (l.foldl (fun t d => t.modGang gk fun g => g.count d.tid d.stat) s) = { s with gangs := (l.foldl (fun t d => t.modGang gk fun g => g.count d.tid d.stat) s).gangs } := by
  induction l generalizing s with
  | nil =>
    refine ⟨?_, rfl⟩
    show ∃ d, s.gang? g = _
    cases s.gang? g with
    | none => exact ⟨[], rfl⟩
    | some y => exact ⟨y.stats, rfl⟩
  | cons a l ih =>
    simp only [List.foldl_cons]
    have h1 : s.modGang gk (fun g => g.count a.tid a.stat) = { s with gangs := (s.modGang gk (fun g => g.count a.tid a.stat)).gangs } := by
      unfold State.modGang; split <;> rfl
    have h2 : ∃ d, (s.modGang gk (fun g => g.count a.tid a.stat)).gang? g = (s.gang? g).map fun y => { y with stats := d } := by
      unfold State.modGang
      split
      · rename_i y hy
        by_cases hg : gk = g
        · subst hg
          refine ⟨(y.count a.tid a.stat).stats, ?_⟩
          rw [hy]
          show Tab.at? (Tab.put s.gangs gk _) gk = _
          rw [Tab.at?_put_self]; rfl
        · have : (s.setGang gk (y.count a.tid a.stat)).gang? g = s.gang? g := Tab.at?_put_ne _ _ _ _ hg
          rw [this]
          cases s.gang? g with
          | none => exact ⟨[], rfl⟩
          | some y => exact ⟨y.stats, rfl⟩
      · cases s.gang? g with
        | none => exact ⟨[], rfl⟩
        | some y => exact ⟨y.stats, rfl⟩
    obtain ⟨⟨d, e1⟩, e2⟩ := ih (s.modGang gk (fun g => g.count a.tid a.stat))
    obtain ⟨d0, h2⟩ := h2
    refine ⟨⟨d, ?_⟩, ?_⟩
    · rw [e1, h2]; cases s.gang? g <;> rfl
    · rw [e2]
      generalize (List.foldl (fun t d => t.modGang gk fun g => g.count d.tid d.stat) (s.modGang gk fun g => g.count a.tid a.stat) l).gangs = q
      rw [h1]

/-- The frame of an instruction whose effect only reads and writes operands. -/
theorem frame_of_keeps {s : State} {c : Nat} {w : Crew} {x : Ops} {opc : Nat} {T S : Nat → Bool} {u : State}
    (h : Keeps (s.opens c w opc x) c (w.begun opc x) T S u) :
    OperandFrame s (u.ended c w) c w x T S := by
  obtain ⟨⟨y, hy, hyw, hs, hT, hO⟩, he, hnear⟩ := h
  have hn2 := (State.near_opens s c w opc x).trans hnear
  have hnames : (w.begun opc x).arch.names = w.arch.names := by
    unfold Crew.begun Crew.foldInstr; simp only; split <;> rfl
  have hcb : (s.opens c w opc x).coreOf (w.begun opc x) = s.coreOf w := by
    unfold Crew.begun Crew.foldInstr; simp only; split <;> rfl
  have hend : u.ended c w = u.issued c w y := by unfold State.ended; rw [hy]
  rw [hend]
  unfold State.issued State.settle
  rw [State.crew_setCrew]
  simp only
  rw [State.setCrew_setCrew]
  generalize hz : ({ y.afterInstr w with
          stats := List.filter (fun d => !decide (d.seq < (y.afterInstr w).ckptSeq)) (y.afterInstr w).stats,
          image := List.filter (fun p => !(p.2.crew == c && p.2.st == EState.released && decide (p.2.rel < (y.afterInstr w).ckptSeq))) (y.afterInstr w).image,
          tileImg := List.filter (fun p => match p.2.2 with
              | some r => !decide (r < (y.afterInstr w).ckptSeq)
              | none => true) (y.afterInstr w).tileImg } : Crew) = z
  have hzs : z = { y.afterInstr w with stats := z.stats, image := z.image, tileImg := z.tileImg } := by rw [← hz]
  obtain ⟨-, e2⟩ := gang_count_fold (List.filter (fun d => decide (d.seq < (y.afterInstr w).ckptSeq)) (y.afterInstr w).stats) (y.afterInstr w).gang (u.setCrew c z) 0
  have e1 := fun g => (gang_count_fold (List.filter (fun d => decide (d.seq < (y.afterInstr w).ckptSeq)) (y.afterInstr w).stats) (y.afterInstr w).gang (u.setCrew c z) g).1
  generalize (List.foldl (fun t d => t.modGang (y.afterInstr w).gang fun g => g.count d.tid d.stat) (u.setCrew c z)
                (List.filter (fun d => decide (d.seq < (y.afterInstr w).ckptSeq)) (y.afterInstr w).stats)) = v at e1 e2
  have hcrew : ∀ d, (v.crew? d) = (u.setCrew c z).crew? d := fun d => by rw [e2]; rfl
  have hcore : ∀ j, (v.core j) = u.core j := fun j => by rw [e2]; rfl
  refine ⟨?_, fun a => ?_, fun j => ?_, fun g => ?_, fun d hd => ?_, fun j e en hen hrel hold => ?_, ?_⟩
  · unfold State.modCore State.setCore
    rw [e2]
    simp only
    rw [hn2.rest]
    rfl
  · show v.mem.get a = s.mem.get a
    have h0 : v.mem = s.mem := by
      rw [e2, hn2.rest]; rfl
    rw [h0]
  · unfold State.modCore
    by_cases hj : v.coreOf (y.afterInstr w) = j
    · rw [hj, State.core_setCore, hcore, hn2.cores j]
    · rw [State.core_setCore_ne _ _ _ _ hj, hcore, hn2.cores j]
  · obtain ⟨d, e1⟩ := e1 g
    refine ⟨d, ?_⟩
    refine Eq.trans (?_ : _ = v.gang? g) (e1.trans ?_)
    · rfl
    · show Option.map _ (u.gang? g) = _
      rw [hn2.gang g]
  · refine (hcrew d).trans ?_
    rw [State.crew_setCrew_ne _ _ _ _ (Ne.symm hd)]
    exact hn2.crews d hd
  · refine core_modCore_vs _ _ _ _ _ _ ?_ fun hj => ?_
    · rw [hcore]
      refine he j e en hen fun hj => ?_
      rintro ⟨n, b, h1, h2, h3⟩
      exact hold (hj.trans hcb) n b h1 (hnames ▸ h2) h3
    · have h0 : Tab.at? (v.core (v.coreOf (y.afterInstr w))).vs e = some en := by
        rw [← hj, hcore]
        refine he j e en hen fun hj => ?_
        rintro ⟨n, b, h1, h2, h3⟩
        exact hold (hj.trans hcb) n b h1 (hnames ▸ h2) h3
      refine Tab.at?_filter_keep _ (fun en => !(en.crew == c && en.st == EState.released && decide (en.rel < (y.afterInstr w).ckptSeq))) _ _ h0 ?_
      by_cases hcr : en.crew = c
      · have := hrel hcr
        simp [this]
      · simp [hcr]
  · refine ⟨z, ?_, ?_, fun k hk => ?_, fun n hn => ?_⟩
    · exact (hcrew c).trans (State.crew_setCrew _ _ _)
    · rw [hzs]
      unfold Crew.afterInstr
      simp only
      rw [hyw]
      unfold Crew.begun Crew.foldInstr
      simp only
      split <;> rfl
    · have : z.arch = y.arch := by rw [hzs]; rfl
      rw [this, hs k hk]
      unfold Crew.begun Crew.foldInstr
      simp only
      split <;> rfl
    · have : z.arch = y.arch := by rw [hzs]; rfl
      rw [this, hT n hn, hnames]

theorem touches_sa {f : FnT} {x : Ops} {n k : Nat} (h : readsName x.sa f.ty.wide k = true) : touches f x n k = true := by
  simp [touches, h]

theorem Keeps.afterB (h : Keeps s c w T S u) (wide : Bool) (x : Ops) (hc : ∀ k, x.head.len = 0 → readsName x.sb wide k = true → T k = true) :
    Keeps s c w T S (u.afterB c wide x) := by
  unfold State.afterB
  split
  · exact h
  · exact h.afterSrc _ _ fun k => hc k (Decidable.not_not.mp ‹_›)

theorem Keeps.outT {f : FnT} {x : Ops} {n : Nat} (h : Keeps s c w (touches f x n) (writesScalar x) u) (sv : DWord) (r : Fin 32 → DWord)
    (ok : u.outOk c f x f.ty.wide = true) : Keeps s c w (touches f x n) (writesScalar x) (u.out c f x f.ty.wide sv r) := by
  refine h.out f x sv r ?_ ?_ ?_ ok
  · intro h; simp [touches, h]
  · intro h; simp [writesScalar, h]
  · intro h h0
    have h1 : ¬ x.cnt = 0#4 := h0
    constructor
    · simp [touches, h, h1]
    · intro hw; simp [touches, h, h1, hw]

end keeps

end Sys2Proof.Machine
end

