-- ==== Sys2Proof/Laws/Mem.lean ====
section
/-!
SUPPORT. Laws/Mem.lean: every operation on memory keeps its canonical form, and what a byte reads as after each.
-/

namespace Sys2Proof

/-! ## The canonical form -/

theorem Memory.wfFrom_le {lo hi : Nat} {m : Memory} (h : Memory.wfFrom hi m = true) (le : lo ≤ hi) :
    Memory.wfFrom lo m = true := by
  cases m with
  | nil => rfl
  | cons c m =>
    simp only [Memory.wfFrom, Bool.and_eq_true, decide_eq_true_eq] at h ⊢
    exact ⟨⟨Nat.le_trans le h.1.1, h.1.2⟩, h.2⟩

theorem Memory.set_wfFrom {lo a : Nat} {b : Byte} {m : Memory} (h : Memory.wfFrom lo m = true) (le : lo ≤ a) :
    Memory.wfFrom lo (m.set a b) = true := by
  induction m generalizing lo with
  | nil =>
    by_cases hb : b = Memory.blank <;> simp [Memory.set, hb, Memory.wfFrom, le]
  | cons c m ih =>
    obtain ⟨i, v⟩ := c
    simp only [Memory.wfFrom, Bool.and_eq_true, decide_eq_true_eq] at h
    have hm := h.2
    simp only [Memory.set]
    split
    · split
      · simp [Memory.wfFrom, h]
      · next h1 h2 =>
        have h3 : a + 1 ≤ i := h1
        simp [Memory.wfFrom, le, h2, h3, h.1.2, hm]
    · split
      · split
        · exact Memory.wfFrom_le hm (by omega)
        · next h1 h2 h3 =>
          subst h2
          simp [Memory.wfFrom, le, h3, hm]
      · next h1 h2 =>
        have := ih hm (by omega)
        simp [Memory.wfFrom, h.1, this]

theorem Memory.set_wf {m : Memory} (a : Nat) (b : Byte) (h : m.wf = true) : (m.set a b).wf = true :=
  Memory.set_wfFrom h (Nat.zero_le a)

theorem Memory.write_wf {m : Memory} (a : Nat) (bs : List Byte) (h : m.wf = true) : (m.write a bs).wf = true := by
  induction bs generalizing m a with
  | nil => exact h
  | cons b bs ih => exact ih _ (Memory.set_wf a b h)

theorem Memory.filter_wfFrom {lo : Nat} {m : Memory} (p : Nat × Byte → Bool) (h : Memory.wfFrom lo m = true) :
    Memory.wfFrom lo (m.filter p) = true := by
  induction m generalizing lo with
  | nil => rfl
  | cons c m ih =>
    obtain ⟨i, v⟩ := c
    simp only [Memory.wfFrom, Bool.and_eq_true, decide_eq_true_eq] at h
    have hm := ih h.2
    by_cases hp : p (i, v) = true
    · simp [List.filter, hp, Memory.wfFrom, h.1, hm]
    · simp only [List.filter, hp]
      exact Memory.wfFrom_le hm (by omega)

theorem Memory.clear_wf {m : Memory} (lo n : Nat) (h : m.wf = true) : (m.clear lo n).wf = true :=
  Memory.filter_wfFrom _ h

theorem Memory.unslice_wf {m : Memory} (lo n : Nat) (cells : Memory) (h : m.wf = true) :
    (m.unslice lo n cells).wf = true := by
  have key : ∀ (cs : Memory) (k : Memory), k.wf = true →
      (cs.foldl (fun (q : Memory) c => q.set (lo + c.1) c.2) k).wf = true := by
    intro cs
    induction cs with
    | nil => exact fun k hk => hk
    | cons c cs ih => exact fun k hk => ih _ (Memory.set_wf _ _ hk)
  exact key cells _ (Memory.clear_wf lo n h)

/-! ## Reading a byte -/

theorem Memory.get_of_lt {lo a : Nat} {m : Memory} (h : Memory.wfFrom lo m = true) (lt : a < lo) :
    m.get a = Memory.blank := by
  induction m generalizing lo with
  | nil => rfl
  | cons c m ih =>
    obtain ⟨i, v⟩ := c
    simp only [Memory.wfFrom, Bool.and_eq_true, decide_eq_true_eq] at h
    have : i ≠ a := by omega
    simp only [Memory.get, this, if_false]
    exact ih h.2 (by omega)

theorem Memory.get_set_ne {m : Memory} (a b : Nat) (v : Byte) (h : a ≠ b) : (m.set a v).get b = m.get b := by
  induction m with
  | nil => by_cases hv : v = Memory.blank <;> simp [Memory.set, hv, Memory.get, h]
  | cons c m ih =>
    obtain ⟨i, w⟩ := c
    simp only [Memory.set]
    split
    · split <;> simp [Memory.get, h]
    · split
      · next h1 h2 => split <;> simp [Memory.get, h, ← h2]
      · simp [Memory.get, ih]

theorem Memory.get_set_selfFrom {lo : Nat} {m : Memory} (a : Nat) (v : Byte) (h : Memory.wfFrom lo m = true) :
    (m.set a v).get a = v := by
  induction m generalizing lo with
  | nil => by_cases hv : v = Memory.blank <;> simp [Memory.set, hv, Memory.get]
  | cons c m ih =>
    obtain ⟨i, w⟩ := c
    have hall := h
    simp only [Memory.wfFrom, Bool.and_eq_true, decide_eq_true_eq] at h
    simp only [Memory.set]
    split
    · next h1 =>
      split
      · next hv =>
        have : i ≠ a := by omega
        simp only [Memory.get, this, if_false, hv]
        exact Memory.get_of_lt h.2 (by omega)
      · simp [Memory.get]
    · split
      · next h1 h2 =>
        split
        · next hv => rw [hv]; exact Memory.get_of_lt h.2 (by omega)
        · simp [Memory.get]
      · next h1 h2 =>
        have : i ≠ a := fun e => h2 e.symm
        simp only [Memory.get, this, if_false]
        exact ih h.2

theorem Memory.get_set_self {m : Memory} (a : Nat) (v : Byte) (h : m.wf = true) : (m.set a v).get a = v :=
  Memory.get_set_selfFrom a v h

/-- A byte outside the written range reads as before. -/
theorem Memory.get_write_outside {m : Memory} (a b : Nat) (bs : List Byte) (h : b < a ∨ a + bs.length ≤ b) :
    (m.write a bs).get b = m.get b := by
  induction bs generalizing m a with
  | nil => rfl
  | cons v bs ih =>
    simp only [List.length_cons] at h
    simp only [Memory.write]
    rw [ih (m := m.set a v) (a + 1) (by omega), Memory.get_set_ne a b v (by omega)]

/-- A byte inside the written range reads as written. -/
theorem Memory.get_write_inside {m : Memory} (a i : Nat) (bs : List Byte) (hm : m.wf = true) (h : i < bs.length) :
    (m.write a bs).get (a + i) = bs[i] := by
  induction bs generalizing m a i with
  | nil => simp at h
  | cons v bs ih =>
    simp only [Memory.write]
    cases i with
    | zero =>
      rw [Memory.get_write_outside (a + 1) (a + 0) bs (by omega)]
      exact Memory.get_set_self a v hm
    | succ i =>
      have := ih (m := m.set a v) (a + 1) i (Memory.set_wf a v hm) (by simpa using h)
      simpa [Nat.add_assoc, Nat.add_comm 1 i] using this

/-- What was written is read back. -/
theorem Memory.read_write {m : Memory} (a : Nat) (bs : List Byte) (hm : m.wf = true) :
    (m.write a bs).read a bs.length = bs := by
  have key : ∀ (k : Memory) (n b : Nat), (k.read b n) = (List.range n).map fun i => k.get (b + i) := by
    intro k n
    induction n with
    | zero => intro b; rfl
    | succ n ih =>
      intro b
      simp only [Memory.read, ih (b + 1), List.range_succ_eq_map, List.map_cons, List.map_map, Nat.add_zero]
      congr 1
      apply List.map_congr_left
      intro i _
      simp [Nat.add_assoc, Nat.add_comm 1 i]
  rw [key]
  apply List.ext_getElem
  · simp
  · intro i h1 h2
    simp only [List.getElem_map, List.getElem_range]
    exact Memory.get_write_inside a i bs hm h2

end Sys2Proof
end

