-- ==== Sys2Proof/Laws/KeptBase.lean ====
section
/-!
SUPPORT. Laws/KeptBase.lean: what it means that an operation of each kind keeps memory in its canonical form, and the rules
for sequences and loops.
-/

open Sys2Proof

namespace Sys2Proof.Machine

theorem State.MemOk.out {s : State} (h : s.MemOk) : s.mem.wf = true := h

theorem foldl_memOk {α : Type} (f : State → α → State) (hf : ∀ t x, t.MemOk → (f t x).MemOk) :
    ∀ (l : List α) {s : State}, s.MemOk → (l.foldl f s).MemOk
  | [], _, h => h
  | x :: l, _, h => foldl_memOk f hf l (hf _ x h)

/-- Effects that keep memory in its canonical form, however they end. -/
def MKept {α : Type} (m : M α) : Prop := ∀ s, s.MemOk → match m s with
  | .ok _ t => t.MemOk
  | .error _ t => t.MemOk

theorem MKept.bind {α β : Type} {m : M α} {f : α → M β} (hm : MKept m) (hf : ∀ a, MKept (f a)) : MKept (m >>= f) := by
  intro s h
  have := hm s h
  rw [M.bind_run]
  cases hr : m s with
  | ok a t => rw [hr] at this; exact hf a t this
  | error e t => rw [hr] at this; exact this

theorem MKept.pure {α : Type} (a : α) : MKept (Pure.pure a : M α) := fun _ h => h

theorem MKept.stop {α : Type} (k : Stop) : MKept (stop k : M α) := fun _ h => h

theorem MKept.setS {t : State} (h : t.MemOk) : MKept (setS t) := fun _ _ => h

theorem MKept.modS {f : State → State} (h : ∀ t, t.MemOk → (f t).MemOk) : MKept (modS f) := fun s hs => h s hs

/-- A step that keeps memory in its canonical form. -/
def OutKept (r : Host.Outcome State Fault Refusal) : Prop := ∀ t, r = .next t → t.MemOk

theorem OutKept.next {t : State} (h : t.MemOk) : OutKept (.next t) := fun _ e => by cases e; exact h

theorem OutKept.fault {f : Fault} : OutKept (.fault f) := fun _ e => by cases e

theorem OutKept.refused {f : Refusal} : OutKept (.refused f) := fun _ e => by cases e

theorem MKept.getS_bind {β : Type} {f : State → M β} (hf : ∀ s, s.MemOk → MKept (f s)) : MKept (Machine.getS >>= f) :=
  fun s h => by rw [M.bind_run]; exact hf s h s h

/-- Every state of a result keeps memory in its canonical form. -/
def IoKept {α : Type} : Io α → Prop
  | .ok s _ => s.MemOk
  | .fail s _ _ _ => s.MemOk
  | .kill s _ _ _ => s.MemOk
  | .wait => True

theorem IoKept.of_ok {α : Type} {r : Io α} {s : State} {v : α} (e : r = .ok s v) (h : IoKept r) : s.MemOk := by
  rw [e] at h; exact h

theorem IoKept.of_fail {α : Type} {r : Io α} {s : State} {c : Cause} {a p : Nat} (e : r = .fail s c a p) (h : IoKept r) :
    s.MemOk := by rw [e] at h; exact h

theorem IoKept.of_kill {α : Type} {r : Io α} {s : State} {k i a : Nat} (e : r = .kill s k i a) (h : IoKept r) : s.MemOk := by
  rw [e] at h; exact h

theorem IoKept.ok {α : Type} {s : State} {v : α} (h : s.MemOk) : IoKept (.ok s v) := h

theorem IoKept.fail {α : Type} {s : State} {c : Cause} {a p : Nat} (h : s.MemOk) : IoKept (.fail s c a p : Io α) := h

theorem IoKept.kill {α : Type} {s : State} {k i a : Nat} (h : s.MemOk) : IoKept (.kill s k i a : Io α) := h

theorem IoKept.wait {α : Type} : IoKept (.wait : Io α) := trivial

/-- What one lane of an access leaves has memory in its canonical form. -/
def LaneKept : LaneRes → Prop
  | .ok s _ => s.MemOk
  | .bad s => s.MemOk
  | _ => True

theorem LaneKept.of_ok {r : LaneRes} {s : State} {v : Nat} (e : r = .ok s v) (h : LaneKept r) : s.MemOk := by
  rw [e] at h; exact h

theorem LaneKept.of_bad {r : LaneRes} {s : State} (e : r = .bad s) (h : LaneKept r) : s.MemOk := by rw [e] at h; exact h

theorem LaneKept.ok {s : State} {v : Nat} (h : s.MemOk) : LaneKept (.ok s v) := h

theorem LaneKept.bad {s : State} (h : s.MemOk) : LaneKept (.bad s) := h

theorem LaneKept.kill {k i a : Nat} : LaneKept (.kill k i a) := trivial

theorem LaneKept.wait : LaneKept .wait := trivial

/-- What a performed access leaves has memory in its canonical form. -/
def PerfKept : PerfRes → Prop
  | .ok s => s.MemOk
  | .kill s _ _ _ => s.MemOk
  | .wait => True

/-- What a resume leaves has memory in its canonical form. -/
def ResumeKept : ResumeRes → Prop
  | .done s _ => s.MemOk
  | .kill s _ => s.MemOk
  | .wait => True

theorem ResumeKept.of_done {r : ResumeRes} {s : State} {c : Nat} (e : r = .done s c) (h : ResumeKept r) : s.MemOk := by
  rw [e] at h; exact h

theorem ResumeKept.of_kill {r : ResumeRes} {s : State} {w : KillWhy} (e : r = .kill s w) (h : ResumeKept r) : s.MemOk := by
  rw [e] at h; exact h

theorem ResumeKept.done {s : State} {c : Nat} (h : s.MemOk) : ResumeKept (.done s c) := h

theorem ResumeKept.kill {s : State} {w : KillWhy} (h : s.MemOk) : ResumeKept (.kill s w) := h

theorem ResumeKept.wait : ResumeKept .wait := trivial

/-- What an engine that reached an end leaves has memory in its canonical form. -/
def ReachedKept : Reached → Prop
  | .plan s _ => s.MemOk
  | .fail s _ => s.MemOk
  | .kill s _ _ _ => s.MemOk
  | .none => True

theorem ReachedKept.of_plan {r : Reached} {s : State} {p : EngPlan} (e : r = .plan s p) (h : ReachedKept r) : s.MemOk := by
  rw [e] at h; exact h

theorem ReachedKept.of_fail {r : Reached} {s : State} {f : CmdFail} (e : r = .fail s f) (h : ReachedKept r) :
    s.MemOk := by rw [e] at h; exact h

theorem ReachedKept.of_kill {r : Reached} {s : State} {k i a : Nat} (e : r = .kill s k i a) (h : ReachedKept r) : s.MemOk := by
  rw [e] at h; exact h

theorem ReachedKept.plan {s : State} {p : EngPlan} (h : s.MemOk) : ReachedKept (.plan s p) := h

theorem ReachedKept.fail {s : State} {f : CmdFail} (h : s.MemOk) : ReachedKept (.fail s f) := h

theorem ReachedKept.kill {s : State} {k i a : Nat} (h : s.MemOk) : ReachedKept (.kill s k i a) := h

theorem ReachedKept.none : ReachedKept .none := trivial

/-- What a fetch leaves has memory in its canonical form. -/
def FetchKept : Fetched → Prop
  | .instr s _ => s.MemOk
  | .pad s => s.MemOk
  | .trap s _ _ => s.MemOk
  | .kill s _ _ _ => s.MemOk

theorem FetchKept.of_pad {r : Fetched} {s : State} (e : r = .pad s) (h : FetchKept r) : s.MemOk := by rw [e] at h; exact h

theorem FetchKept.instr {s : State} {i : Instr} (h : s.MemOk) : FetchKept (.instr s i) := h

theorem FetchKept.pad {s : State} (h : s.MemOk) : FetchKept (.pad s) := h

theorem FetchKept.trap {s : State} {c : Cause} {a : Nat} (h : s.MemOk) : FetchKept (.trap s c a) := h

theorem FetchKept.kill {s : State} {k i a : Nat} (h : s.MemOk) : FetchKept (.kill s k i a) := h

/-- What an access to a queue leaves has memory in its canonical form. -/
def QueueKept {α : Type} : QueueRes α → Prop
  | .ok s _ => s.MemOk
  | .trap s _ _ => s.MemOk
  | .kill s _ _ _ => s.MemOk

theorem QueueKept.of_ok {α : Type} {r : QueueRes α} {s : State} {v : α} (e : r = .ok s v) (h : QueueKept r) : s.MemOk := by
  rw [e] at h; exact h

theorem QueueKept.of_trap {α : Type} {r : QueueRes α} {s : State} {c : Cause} {a : Nat} (e : r = .trap s c a)
    (h : QueueKept r) : s.MemOk := by rw [e] at h; exact h

theorem QueueKept.of_kill {α : Type} {r : QueueRes α} {s : State} {k i a : Nat} (e : r = .kill s k i a) (h : QueueKept r) :
    s.MemOk := by rw [e] at h; exact h

theorem QueueKept.ok {α : Type} {s : State} {v : α} (h : s.MemOk) : QueueKept (.ok s v) := h

theorem QueueKept.trap {α : Type} {s : State} {c : Cause} {a : Nat} (h : s.MemOk) : QueueKept (.trap s c a : QueueRes α) := h

theorem QueueKept.kill {α : Type} {s : State} {k i a : Nat} (h : s.MemOk) : QueueKept (.kill s k i a : QueueRes α) := h

/-- What a mapped page leaves has memory in its canonical form. -/
def MapKept : MapRes → Prop
  | .mapped s _ => s.MemOk
  | _ => True

theorem MapKept.of_mapped {r : MapRes} {s : State} {f : Nat} (e : r = .mapped s f) (h : MapKept r) : s.MemOk := by
  rw [e] at h; exact h

theorem MapKept.mapped {s : State} {f : Nat} (h : s.MemOk) : MapKept (.mapped s f) := h

theorem MapKept.present {f : Nat} : MapKept (.present f) := trivial

theorem MapKept.empty : MapKept .empty := trivial

theorem MapKept.malformed : MapKept .malformed := trivial

theorem MapKept.poison {p : Nat} : MapKept (.poison p) := trivial

/-- What an operation leaves where it answers has memory in its canonical form. -/
def OptKept (r : Option State) : Prop := ∀ t, r = some t → t.MemOk

theorem OptKept.of_some {r : Option State} {s : State} (e : r = some s) (h : OptKept r) : s.MemOk := h s e

theorem OptKept.some {s : State} (h : s.MemOk) : OptKept (some s) := fun _ e => by cases e; exact h

theorem OptKept.none : OptKept none := fun _ e => by cases e

theorem OptKept.map {r : Option State} {f : State → State} (h : OptKept r) (hf : ∀ t, t.MemOk → (f t).MemOk) :
    OptKept (r.map f) := by
  intro t e
  obtain ⟨u, hu, rfl⟩ := Option.map_eq_some_iff.mp e
  exact hf u (h u hu)

theorem OptKept.bindOf {α : Type} {r : Option α} {f : α → Option State} (hf : ∀ a, OptKept (f a)) : OptKept (r.bind f) := by
  intro t e
  obtain ⟨u, -, ht⟩ := Option.bind_eq_some_iff.mp e
  exact hf u t ht

theorem OutKept.of_next {r : Host.Outcome State Fault Refusal} {s : State} (e : r = .next s) (h : OutKept r) : s.MemOk :=
  h s e

theorem memOk_mk_iff {mem poison sliceBad syncBad badWord outBad crews gangs grids cores ctxs evAll queues pool poolQ arrive waits cmds lltlb frames
    round arb rel sec net store agenda cur turn tick nextId resp} :
    (State.mk mem poison sliceBad syncBad badWord outBad crews gangs grids cores ctxs evAll queues pool poolQ arrive waits cmds lltlb frames
      round arb rel sec net store agenda cur turn tick nextId resp).MemOk ↔ Memory.wf mem = true := Iff.rfl

theorem ite_memOk_iff {p : Prop} [Decidable p] {s t : State} :
    (if p then s else t).MemOk ↔ (p → s.MemOk) ∧ (¬ p → t.MemOk) := by
  split <;> simp [*]

theorem ite_optKept_iff {p : Prop} [Decidable p] {s t : Option State} :
    OptKept (if p then s else t) ↔ (p → OptKept s) ∧ (¬ p → OptKept t) := by
  split <;> simp [*]

theorem writeLines_wf (d k : List Byte) : ∀ (n : Nat) {m : Memory} (pa : Nat) (bs : List Byte), m.wf = true →
    (writeLines d k n m pa bs).wf = true
  | 0, _, _, _, h => h
  | n + 1, m, pa, bs, h => by
    unfold writeLines
    split
    · exact h
    · exact writeLines_wf d k n _ _ (Memory.write_wf _ _ h)

theorem ringWrite_wf (base n : Nat) : ∀ (k : Nat) {m : Memory} (t : Nat) (bs : List Byte), m.wf = true →
    (ringWrite m base n t k bs).wf = true
  | 0, _, _, _, h => h
  | k + 1, _, t, _, h => ringWrite_wf base n k (t + 1) _ (Memory.write_wf _ _ h)

theorem ringPut_wf {m : Memory} (r : Sampler) (bytes : List Byte) (h : m.wf = true) : (ringPut m r bytes).1.wf = true := by
  unfold ringPut
  dsimp only
  split
  · exact h
  · split
    · exact h
    · exact ringWrite_wf _ _ _ _ _ h

theorem MKept.forM {α : Type} {f : α → M PUnit} (hf : ∀ a, MKept (f a)) : ∀ l : List α, MKept (l.forM f)
  | [] => MKept.pure _
  | a :: l => MKept.bind (hf a) fun _ => MKept.forM hf l

theorem MKept.mapM {α β : Type} {f : α → M β} (hf : ∀ a, MKept (f a)) (l : List α) : MKept (l.mapM f) := by
  rw [← List.mapM'_eq_mapM]
  induction l with
  | nil => exact MKept.pure _
  | cons a l ih =>
    rw [List.mapM'_cons]
    exact MKept.bind (hf a) fun _ => MKept.bind ih fun _ => MKept.pure _

/-- Memory in its canonical form after the effects, however they ended. -/
def ResKept {α : Type} (r : EStateM.Result Stop State α) : Prop := match r with
  | .ok _ t => t.MemOk
  | .error _ t => t.MemOk

theorem MKept.run {α : Type} {m : M α} (hm : MKept m) {s : State} (h : s.MemOk) : ResKept (m s) := hm s h

theorem MKept.forIn {α β : Type} {f : α → β → M (ForInStep β)} (hf : ∀ a b, MKept (f a b)) :
    ∀ (l : List α) (b : β), MKept (ForIn.forIn l b f)
  | [], b => by rw [List.forIn_nil]; exact MKept.pure _
  | a :: l, b => by
    rw [List.forIn_cons]
    refine MKept.bind (hf a b) fun r => ?_
    cases r with
    | done b => exact MKept.pure _
    | yield b => exact MKept.forIn hf l b

/-- What an operation leaves where it succeeds; `p` finds the state has memory in its canonical form. -/
def ExcKept {ε α : Type} (p : α → State) (r : Except ε α) : Prop := ∀ a, r = .ok a → (p a).MemOk

theorem ExcKept.of_ok {ε α : Type} {p : α → State} {r : Except ε α} {a : α} (e : r = .ok a) (h : ExcKept p r) : (p a).MemOk :=
  h a e

theorem ExcKept.ok {ε α : Type} {p : α → State} {a : α} (h : (p a).MemOk) : ExcKept p (.ok a : Except ε α) :=
  fun _ e => by cases e; exact h

theorem ExcKept.error {ε α : Type} {p : α → State} {a : ε} : ExcKept p (.error a : Except ε α) := fun _ e => by cases e

/-- A write that keeps memory in its canonical form, whether it fails or not. -/
def TryKept (r : Except State State) : Prop := match r with
  | .ok t => t.MemOk
  | .error t => t.MemOk

theorem TryKept.of_ok {r : Except State State} {t : State} (e : r = .ok t) (h : TryKept r) : t.MemOk := by
  rw [e] at h; exact h

theorem TryKept.of_error {r : Except State State} {t : State} (e : r = .error t) (h : TryKept r) : t.MemOk := by
  rw [e] at h; exact h

theorem TryKept.ok {t : State} (h : t.MemOk) : TryKept (.ok t) := h

theorem TryKept.error {t : State} (h : t.MemOk) : TryKept (.error t) := h

theorem TryKept.map {r : Except State State} {f : State → State} (h : TryKept r) (hf : ∀ t, t.MemOk → (f t).MemOk) :
    TryKept (r.map f) := by
  cases r with
  | ok t => exact hf t h
  | error t => exact h

/-- What an operation leaves where it answers; `p` finds the state has memory in its canonical form. -/
def OpKept {α : Type} (p : α → State) (r : Option α) : Prop := ∀ a, r = some a → (p a).MemOk

theorem OpKept.of_some {α : Type} {p : α → State} {r : Option α} {a : α} (e : r = some a) (h : OpKept p r) : (p a).MemOk :=
  h a e

theorem OpKept.some {α : Type} {p : α → State} {a : α} (h : (p a).MemOk) : OpKept p (Option.some a) :=
  fun _ e => by cases e; exact h

theorem OpKept.none {α : Type} {p : α → State} : OpKept p Option.none := fun _ e => by cases e

theorem OpKept.map {α β : Type} {p : α → State} {q : β → State} {r : Option α} {f : α → β} (h : OpKept p r)
    (hf : ∀ a, (p a).MemOk → (q (f a)).MemOk) : OpKept q (r.map f) := by
  intro b e
  obtain ⟨a, ha, rfl⟩ := Option.map_eq_some_iff.mp e
  exact hf a (h a ha)

/-- Reads of several commands that keep memory in its canonical form. -/
def InputsKept {α β : Type} (r : Option (Except (State × α) (State × β))) : Prop := ∀ v, r = some v → match v with
  | .error u => u.1.MemOk
  | .ok u => u.1.MemOk

theorem memOk_fst_of {α : Type} {r : State × α} {s : State} {a : α} (e : r = (s, a)) (h : r.1.MemOk) : s.MemOk := by
  rw [e] at h; exact h

theorem memOk_snd_of {α : Type} {r : α × State} {s : State} {a : α} (e : r = (a, s)) (h : r.2.MemOk) : s.MemOk := by
  rw [e] at h; exact h

/-- A step and a mark that keep memory in its canonical form. -/
def OutKeptBy {α : Type} (p : α → State) (r : Host.Outcome α Fault Refusal) : Prop := ∀ a, r = .next a → (p a).MemOk

theorem OutKeptBy.of_next {α : Type} {p : α → State} {r : Host.Outcome α Fault Refusal} {a : α} (e : r = .next a)
    (h : OutKeptBy p r) : (p a).MemOk := h a e

theorem OutKeptBy.next {α : Type} {p : α → State} {a : α} (h : (p a).MemOk) :
    OutKeptBy p (.next a : Host.Outcome α Fault Refusal) := fun _ e => by cases e; exact h

theorem OutKeptBy.fault {α : Type} {p : α → State} {f : Fault} : OutKeptBy p (.fault f : Host.Outcome α Fault Refusal) :=
  fun _ e => by cases e

theorem OutKeptBy.refused {α : Type} {p : α → State} {f : Refusal} :
    OutKeptBy p (.refused f : Host.Outcome α Fault Refusal) := fun _ e => by cases e

theorem ResKept.of_ok {α : Type} {r : EStateM.Result Stop State α} {a : α} {t : State} (e : r = .ok a t) (h : ResKept r) :
    t.MemOk := by rw [e] at h; exact h

theorem ResKept.of_error {α : Type} {r : EStateM.Result Stop State α} {a : Stop} {t : State} (e : r = .error a t)
    (h : ResKept r) : t.MemOk := by rw [e] at h; exact h

theorem foldl_fst_memOk {α β : Type} (f : State × β → α → State × β) (hf : ∀ t x, t.1.MemOk → (f t x).1.MemOk) :
    ∀ (l : List α) {s : State × β}, s.1.MemOk → (l.foldl f s).1.MemOk
  | [], _, h => h
  | x :: l, _, h => foldl_fst_memOk f hf l (hf _ x h)

end Sys2Proof.Machine
end

