-- ==== Sys2Proof/Laws/KeptOps.lean ====
section
/-!
SUPPORT. Laws/KeptOps.lean: what keeps memory in its canonical form:
the shared operations over memory, the register state, errors, arbitration and accesses.
-/

open Sys2Proof

namespace Sys2Proof.Machine

/-! ## Access -/

theorem State.passOver_kept {s : State} (hks : s.MemOk) : OutKept (State.passOver s) := by
  unfold State.passOver
  simp only [*, OutKept.next]

theorem State.setCore_kept {s : State} (k : Nat) (c : Core) (hks : s.MemOk) : (State.setCore s k c).MemOk := by
  unfold State.setCore
  simp only [*, memOk_mk_iff, State.MemOk.out]

theorem State.setCtx_kept {s : State} (c : Nat) (x : Ctx) (hks : s.MemOk) : (State.setCtx s c x).MemOk := by
  unfold State.setCtx
  simp only [*, memOk_mk_iff, State.MemOk.out]

theorem State.setQueue_kept {s : State} (q : Nat) (x : Queue) (hks : s.MemOk) : (State.setQueue s q x).MemOk := by
  unfold State.setQueue
  simp only [*, memOk_mk_iff, State.MemOk.out]

theorem State.setCrew_kept {s : State} (c : Nat) (x : Crew) (hks : s.MemOk) : (State.setCrew s c x).MemOk := by
  unfold State.setCrew
  simp only [*, memOk_mk_iff, State.MemOk.out]

theorem State.setGang_kept {s : State} (g : Nat) (x : Gang) (hks : s.MemOk) : (State.setGang s g x).MemOk := by
  unfold State.setGang
  simp only [*, memOk_mk_iff, State.MemOk.out]

theorem State.setGrid_kept {s : State} (l : Nat) (x : Grid) (hks : s.MemOk) : (State.setGrid s l x).MemOk := by
  unfold State.setGrid
  simp only [*, memOk_mk_iff, State.MemOk.out]

theorem State.modCrew_kept {s : State} (c : Nat) (f : Crew → Crew) (hks : s.MemOk) : (State.modCrew s c f).MemOk := by
  unfold State.modCrew
  repeat' split
  all_goals simp only [*, State.setCrew_kept]

theorem State.modGang_kept {s : State} (g : Nat) (f : Gang → Gang) (hks : s.MemOk) : (State.modGang s g f).MemOk := by
  unfold State.modGang
  repeat' split
  all_goals simp only [*, State.setGang_kept]

theorem State.modGrid_kept {s : State} (l : Nat) (f : Grid → Grid) (hks : s.MemOk) : (State.modGrid s l f).MemOk := by
  unfold State.modGrid
  repeat' split
  all_goals simp only [*, State.setGrid_kept]

theorem State.modCore_kept {s : State} (k : Nat) (f : Core → Core) (hks : s.MemOk) : (State.modCore s k f).MemOk := by
  unfold State.modCore
  simp only [*, State.setCore_kept]

theorem State.modCtx_kept {s : State} (c : Nat) (f : Ctx → Ctx) (hks : s.MemOk) : (State.modCtx s c f).MemOk := by
  unfold State.modCtx
  simp only [*, State.setCtx_kept]

theorem State.modQueue_kept {s : State} (q : Nat) (f : Queue → Queue) (hks : s.MemOk) :
    (State.modQueue s q f).MemOk := by
  unfold State.modQueue
  simp only [*, State.setQueue_kept]

theorem State.fresh_kept {s : State} (hks : s.MemOk) : (State.fresh s).2.MemOk := by
  unfold State.fresh
  dsimp only
  simp only [*, memOk_mk_iff, State.MemOk.out]

theorem State.tidySlot_kept {s : State} (slot : Nat) (hks : s.MemOk) : (State.tidySlot s slot).MemOk := by
  unfold State.tidySlot
  dsimp only
  repeat' split
  all_goals simp only [*, memOk_mk_iff, State.MemOk.out]

theorem State.setKeyslot_kept {s : State} (ctx : Nat) (v : BitVec 7) (hks : s.MemOk) :
    (State.setKeyslot s ctx v).MemOk := by
  unfold State.setKeyslot
  dsimp only
  repeat' split
  all_goals simp only [*, State.tidySlot_kept, State.modCtx_kept]

/-! ## Err -/

theorem State.raise_kept {s : State} (ctx : Nat) (i : Nat) (hks : s.MemOk) : (State.raise s ctx i).MemOk := by
  unfold State.raise
  simp only [*, State.modCtx_kept]

theorem State.raiseAll_kept {s : State} (i : Nat) (hks : s.MemOk) : (State.raiseAll s i).MemOk := by
  unfold State.raiseAll
  simp only [*, memOk_mk_iff, State.MemOk.out]

theorem State.record_kept {s : State} (r : Rec) (hks : s.MemOk) : (State.record s r).MemOk := by
  unfold State.record
  dsimp only
  repeat' split
  all_goals simp +contextual (maxDischargeDepth := 40) only [*, memOk_mk_iff, State.MemOk.out, Memory.write_wf,
      State.raise_kept]

theorem State.records_kept {s : State} (rs : List Rec) (hks : s.MemOk) : (State.records s rs).MemOk := by
  unfold State.records
  repeat' with_reducible refine foldl_memOk _ (fun _ _ _ => ?_) _ ?_
  all_goals simp only [*, State.record_kept]

/-! ## Arbiter -/

theorem State.evaluate_kept {s : State} (cause : Nat) (now : Bool) (hks : s.MemOk) :
    (State.evaluate s cause now).MemOk := by
  unfold State.evaluate
  dsimp only
  repeat' split
  all_goals simp only [*, memOk_mk_iff, State.MemOk.out]

theorem State.applyGrant_kept {s : State} (d : GrantDue) (hks : s.MemOk) : (State.applyGrant s d).MemOk := by
  unfold State.applyGrant
  dsimp only
  simp only [*, memOk_mk_iff, State.MemOk.out, State.raiseAll_kept]

theorem State.gathered_kept {s : State} (hks : s.MemOk) : (State.gathered s).MemOk := by
  unfold State.gathered
  dsimp only
  repeat' split
  all_goals simp only [*, memOk_mk_iff, State.MemOk.out, State.evaluate_kept]

theorem State.grantAtPlacement_kept {s : State} (hks : s.MemOk) : (State.grantAtPlacement s).MemOk := by
  unfold State.grantAtPlacement
  dsimp only
  repeat' split
  all_goals simp only [*, memOk_mk_iff, State.MemOk.out, State.applyGrant_kept]

theorem execGrantMoveComplete_kept {s : State} (hks : s.MemOk) : OutKept (execGrantMoveComplete s) := by
  unfold execGrantMoveComplete
  dsimp only
  repeat' split
  all_goals simp +contextual (maxDischargeDepth := 40) only [*, memOk_mk_iff, State.MemOk.out, OutKept.next,
      State.passOver_kept, State.gathered_kept, State.applyGrant_kept]

theorem execGrantDeferTimeout_kept {s : State} (hks : s.MemOk) : OutKept (execGrantDeferTimeout s) := by
  unfold execGrantDeferTimeout
  dsimp only
  repeat' split
  all_goals simp only [*, memOk_mk_iff, State.MemOk.out, OutKept.next, State.passOver_kept]

theorem execPwrcap_kept (v : DWord) {s : State} (hks : s.MemOk) : OutKept (execPwrcap v s) := by
  unfold execPwrcap
  dsimp only
  repeat' split
  all_goals simp +contextual (maxDischargeDepth := 40) only [*, memOk_mk_iff, State.MemOk.out, OutKept.next,
      State.raiseAll_kept, State.evaluate_kept]

theorem execTemperatureSample_kept (t : Nat) {s : State} (hks : s.MemOk) : OutKept (execTemperatureSample t s) := by
  unfold execTemperatureSample
  dsimp only
  repeat' split
  all_goals simp +contextual (maxDischargeDepth := 40) only [*, memOk_mk_iff, State.MemOk.out, OutKept.next,
      State.evaluate_kept]

theorem execArbtabLoad_kept (v : DWord × Nat) {s : State} (hks : s.MemOk) : OutKept (execArbtabLoad v s) := by
  unfold execArbtabLoad
  dsimp only
  repeat' split
  all_goals simp +contextual (maxDischargeDepth := 40) only [*, memOk_mk_iff, State.MemOk.out, OutKept.next,
      State.passOver_kept, State.evaluate_kept]

theorem State.setUv_kept {s : State} (die : Nat) (dom : Nat) (u : Uv) (hks : s.MemOk) :
    (State.setUv s die dom u).MemOk := by
  unfold State.setUv
  dsimp only
  simp only [*, memOk_mk_iff, State.MemOk.out]

theorem State.afterStep_kept {s : State} {old : State} (hks : s.MemOk) (_hkold : old.MemOk) :
    (State.afterStep s old).MemOk := by
  unfold State.afterStep
  repeat' split
  all_goals simp only [*, State.evaluate_kept]

theorem execUvstepStep_kept (die : Nat) (dom : Nat) (v : BitVec 3) {s : State} (hks : s.MemOk) :
    OutKept (execUvstepStep die dom v s) := by
  unfold execUvstepStep
  dsimp only
  repeat' split
  all_goals simp +contextual (maxDischargeDepth := 40) only [*, OutKept.next, State.passOver_kept,
      State.afterStep_kept, State.setUv_kept]

theorem execUvstepRev_kept (die : Nat) (dom : Nat) {s : State} (hks : s.MemOk) :
    OutKept (execUvstepRev die dom s) := by
  unfold execUvstepRev
  dsimp only
  repeat' split
  all_goals simp +contextual (maxDischargeDepth := 40) only [*, OutKept.next, State.passOver_kept,
      State.afterStep_kept, State.setUv_kept]

/-! ## Phys -/

theorem State.unpoison_kept {s : State} (pa : Nat) (n : Nat) (hks : s.MemOk) : (State.unpoison s pa n).MemOk := by
  unfold State.unpoison
  simp only [*, memOk_mk_iff, State.MemOk.out]

theorem State.writeKey_kept {s : State} (key : Nat) (pa : Nat) (bs : List Byte) (hks : s.MemOk) :
    (State.writeKey s key pa bs).MemOk := by
  unfold State.writeKey
  dsimp only
  repeat' split
  all_goals simp only [*, memOk_mk_iff, State.MemOk.out, Memory.write_wf, writeLines_wf]

theorem State.writeChip_kept {s : State} (pa : Nat) (bs : List Byte) (hks : s.MemOk) :
    (State.writeChip s pa bs).MemOk := by
  unfold State.writeChip
  simp only [*, memOk_mk_iff, State.MemOk.out, Memory.write_wf]

theorem State.clearChip_kept {s : State} (pa : Nat) (n : Nat) (hks : s.MemOk) : (State.clearChip s pa n).MemOk := by
  unfold State.clearChip
  simp only [*, memOk_mk_iff, State.MemOk.out, Memory.clear_wf]

theorem State.flushL1_kept {s : State} (core : Nat) (hks : s.MemOk) : (State.flushL1 s core).MemOk := by
  unfold State.flushL1
  simp only [*, State.modCore_kept]

theorem State.dropLine_kept {s : State} (core : Nat) (pa : Nat) (hks : s.MemOk) :
    (State.dropLine s core pa).MemOk := by
  unfold State.dropLine
  simp only [*, State.modCore_kept]

theorem State.dropLines_kept {s : State} (core : Nat) (pa : Nat) (n : Nat) (hks : s.MemOk) :
    (State.dropLines s core pa n).MemOk := by
  unfold State.dropLines
  simp only [*, State.modCore_kept]

theorem State.acquireL1_kept {s : State} (core : Nat) (scope : Nat) (hks : s.MemOk) :
    (State.acquireL1 s core scope).MemOk := by
  unfold State.acquireL1
  repeat' split
  all_goals simp only [*, State.flushL1_kept]

theorem State.fetchLine_kept {s : State} (core : Nat) (key : Nat) (pa : Nat) (hks : s.MemOk) :
    (State.fetchLine s core key pa).MemOk := by
  unfold State.fetchLine
  dsimp only
  simp only [*, memOk_mk_iff, State.MemOk.out, State.modCore_kept]

theorem State.loadCached_kept {s : State} (core : Nat) (key : Nat) (pa : Nat) (n : Nat) (hks : s.MemOk) :
    (State.loadCached s core key pa n).2.MemOk := by
  unfold State.loadCached
  repeat' split
  all_goals simp only [*, State.fetchLine_kept]

theorem State.storeThrough_kept {s : State} (core : Nat) (key : Nat) (pa : Nat) (bs : List Byte) (hks : s.MemOk) :
    (State.storeThrough s core key pa bs).MemOk := by
  unfold State.storeThrough
  dsimp only
  repeat' split
  all_goals simp only [*, State.writeKey_kept, State.modCore_kept]

/-! ## Canary -/

theorem State.setCanary_kept {s : State} (kind : Nat) (inst : Nat) (v : Nat) (hks : s.MemOk) :
    (State.setCanary s kind inst v).MemOk := by
  unfold State.setCanary
  dsimp only
  repeat' split
  all_goals simp only [*, memOk_mk_iff, State.MemOk.out, State.modCore_kept]

theorem State.canaryHit_kept {s : State} (ctx : Option Nat) (kind : Nat) (inst : Nat) (addr : Nat) (exit : Option (Nat
    × Nat)) (hks : s.MemOk) :
    (State.canaryHit s ctx kind inst addr exit).MemOk := by
  unfold State.canaryHit
  dsimp only
  repeat' split
  all_goals simp +contextual (maxDischargeDepth := 40) only [*, State.record_kept, State.setCanary_kept]

theorem State.passUnits_kept {s : State} (ctx : Option Nat) (addr : Nat) (us : List Passed) (hks : s.MemOk) :
    (State.passUnits s ctx addr us).MemOk := by
  unfold State.passUnits
  repeat' with_reducible refine foldl_memOk _ (fun _ _ _ => ?_) _ ?_
  all_goals simp only [*, State.canaryHit_kept]

/-! ## Walk -/

theorem State.fillTlb_kept {s : State} (core : Option Nat) (die : Nat) (e : TlbEntry) (hks : s.MemOk) :
    (State.fillTlb s core die e).MemOk := by
  unfold State.fillTlb
  dsimp only
  repeat' split
  all_goals simp only [*, memOk_mk_iff, State.MemOk.out, State.modCore_kept]

theorem State.translate_kept {s : State} (core : Option Nat) (die : Nat) (ctx : Nat) (priv : BitVec 2) (way : Way) (va
    : Nat) (n : Nat) (hks : s.MemOk) :
    (State.translate s core die ctx priv way va n).2.MemOk := by
  unfold State.translate
  repeat' split
  all_goals simp only [*, State.fillTlb_kept]

theorem State.purgeTlb_kept {s : State} (p : TlbEntry → Bool) (hks : s.MemOk) : (State.purgeTlb s p).MemOk := by
  unfold State.purgeTlb
  simp only [*, memOk_mk_iff, State.MemOk.out]

theorem State.linkRecord_kept {s : State} (b : Rec) (r : Region) (pa : Nat) (hks : s.MemOk) :
    (State.linkRecord s b r pa).MemOk := by
  unfold State.linkRecord
  dsimp only
  simp only [*, State.record_kept]

theorem State.passWalk_kept {s : State} (ctx : Nat) (va : Nat) (hks : s.MemOk) : (State.passWalk s ctx va).MemOk := by
  unfold State.passWalk
  repeat' first
    | split
    | with_reducible refine foldl_memOk _ (fun _ _ _ => ?_) _ ?_
  all_goals simp only [*, State.passUnits_kept]

theorem State.passSys_kept {s : State} (ctx : Nat) (way : Way) (va : Nat) (n : Nat) (hks : s.MemOk) :
    (State.passSys s ctx way va n).MemOk := by
  unfold State.passSys
  dsimp only
  repeat' split
  all_goals simp only [*, State.passWalk_kept, State.passUnits_kept]

theorem State.writeSys_kept {s : State} (own : Bool) (ctx : Nat) (va : Nat) (bs : List Byte) (hks : s.MemOk) :
    ExcKept id (State.writeSys s own ctx va bs) := by
  unfold State.writeSys
  dsimp only
  repeat' split
  all_goals simp only [*, ExcKept.ok, ExcKept.error, id_eq, State.writeChip_kept, State.writeKey_kept]

theorem State.noteSys_kept {s : State} (ctx : Nat) (way : Way) (va : Nat) (n : Nat) (hks : s.MemOk) :
    (State.noteSys s ctx way va n).MemOk := by
  unfold State.noteSys
  repeat' split
  all_goals simp only [*, State.linkRecord_kept]

/-! ## Spill -/

theorem State.dropRange_kept {s : State} (pa : Nat) (n : Nat) (hks : s.MemOk) : (State.dropRange s pa n).MemOk := by
  unfold State.dropRange
  simp only [*, memOk_mk_iff, State.MemOk.out]

theorem State.zeroFrame_kept {s : State} (key : Nat) (frame : Nat) (hks : s.MemOk) :
    (State.zeroFrame s key frame).MemOk := by
  unfold State.zeroFrame
  dsimp only
  repeat' split
  all_goals simp +contextual (maxDischargeDepth := 40) only [*, memOk_mk_iff, State.MemOk.out, Memory.clear_wf,
      State.dropRange_kept, State.writeKey_kept]

theorem State.setPool_kept {s : State} (die : Nat) (l : List Nat) (hks : s.MemOk) :
    (State.setPool s die l).MemOk := by
  unfold State.setPool
  simp only [*, memOk_mk_iff, State.MemOk.out]

theorem State.writePte_kept {s : State} (ctx : Nat) (pa : Nat) (v : Nat) (hks : s.MemOk) :
    (State.writePte s ctx pa v).MemOk := by
  unfold State.writePte
  simp only [*, State.writeKey_kept, State.dropRange_kept]

theorem State.mapNew_kept {s : State} (ctx : Nat) (die : Nat) (va : Nat) (attr : Nat) (mid : Option Nat) (leaf :
    Option Nat) (hks : s.MemOk) :
    MapKept (State.mapNew s ctx die va attr mid leaf) := by
  unfold State.mapNew
  dsimp only
  repeat' first
    | split
    | with_reducible refine MapKept.mapped ?_
  all_goals simp +contextual (maxDischargeDepth := 40) only [*, foldl_memOk, implies_true, MapKept.empty,
      State.zeroFrame_kept, State.setPool_kept, State.writePte_kept]

theorem State.mapPage_kept {s : State} (ctx : Nat) (die : Nat) (va : Nat) (attr : Nat) (hks : s.MemOk) :
    MapKept (State.mapPage s ctx die va attr) := by
  unfold State.mapPage
  dsimp only
  repeat' split
  all_goals simp only [*, MapKept.present, MapKept.malformed, MapKept.poison, State.mapNew_kept]

theorem State.spillPage_kept {s : State} (ctx : Nat) (core : Nat) (va : Nat) (hks : s.MemOk) :
    OptKept (State.spillPage s ctx core va) := by
  unfold State.spillPage
  repeat' first
    | (rename _ = MapRes.mapped _ _ => e
       replace e := MapKept.of_mapped e (by
           clear e
           simp only [*, State.mapPage_kept]))
    | split
  all_goals simp only [*, OptKept.some, OptKept.none]

theorem spillPieces_kept (ctx : Nat) (core : Nat) (x2 : Nat) {x3 : State} (x4 : Nat) (x5 : List Byte) (hkx3 :
    x3.MemOk) :
    TryKept (spillPieces ctx core x2 x3 x4 x5) := by
  induction x2 generalizing x3 x4 x5 <;>
  ( unfold spillPieces
    try dsimp only
    repeat' first
      | (rename (_ : Option State) = some _ => e
         replace e := OptKept.of_some e (by
             clear e
             simp only [*, State.spillPage_kept]))
      | (rename (_ : Except Cause State) = Except.ok _ => e
         replace e := ExcKept.of_ok (p := id) e (by
             clear e
             simp only [*, State.writeSys_kept])
         try dsimp only [id] at e)
      | split
    all_goals simp only [*, TryKept.ok, TryKept.error, State.noteSys_kept] )

theorem State.spillWrite_kept {s : State} (ctx : Nat) (core : Nat) (va : Nat) (bs : List Byte) (hks : s.MemOk) :
    TryKept (State.spillWrite s ctx core va bs) := by
  unfold State.spillWrite
  repeat' split
  all_goals simp only [*, TryKept.error, spillPieces_kept]

theorem State.noteImage_kept {s : State} (ctx : Nat) (va : Nat) (n : Nat) (hks : s.MemOk) :
    (State.noteImage s ctx va n).MemOk := by
  unfold State.noteImage
  repeat' split
  all_goals simp only [*, State.noteSys_kept]

theorem State.noteGangImage_kept {s : State} (g : Gang) (hks : s.MemOk) : (State.noteGangImage s g).MemOk := by
  unfold State.noteGangImage
  simp only [*, State.noteImage_kept]

theorem State.noteBstack_kept {s : State} (ctx : Nat) (core : Nat) (hks : s.MemOk) :
    (State.noteBstack s ctx core).MemOk := by
  unfold State.noteBstack
  exact foldl_memOk _ (fun t b h => State.noteImage_kept _ _ _ h) _ hks

theorem State.noteCrewImage_kept {s : State} (x : Crew) (hks : s.MemOk) : (State.noteCrewImage s x).MemOk := by
  unfold State.noteCrewImage
  simp only [*, State.noteImage_kept]

theorem State.putImage_kept {s : State} (pa : Nat) (n : Nat) (i : Image) (hks : s.MemOk) :
    (State.putImage s pa n i).MemOk := by
  unfold State.putImage
  dsimp only
  simp +contextual (maxDischargeDepth := 40) only [*, memOk_mk_iff, State.MemOk.out, Memory.unslice_wf,
      State.clearChip_kept]

theorem State.spillCrew_kept {s : State} (c : Nat) (hks : s.MemOk) : TryKept (State.spillCrew s c) := by
  unfold State.spillCrew
  dsimp only
  repeat' split
  all_goals simp +contextual (maxDischargeDepth := 40) only [*, implies_true, TryKept.ok, TryKept.map,
      State.modCrew_kept, State.spillWrite_kept]

theorem spillCrews_kept (x0 : List Nat) {x1 : State} (hkx1 : x1.MemOk) : TryKept (spillCrews x0 x1) := by
  induction x0 generalizing x1 with
  | nil => exact hkx1
  | cons c cs ih =>
    have h := State.spillCrew_kept c hkx1
    unfold spillCrews
    split
    · next e => exact TryKept.of_error e h
    · next e => exact ih (TryKept.of_ok e h)

theorem State.spillGang_kept {s : State} (gk : Nat) (cs : List Nat) (hks : s.MemOk) :
    TryKept (State.spillGang s gk cs) := by
  unfold State.spillGang
  split
  · exact hks
  · next g _ =>
    have h := State.spillWrite_kept g.ctx g.core (areaVa (s.ctx g.ctx).spill g.area) g.bytes hks
    split
    · next e => exact TryKept.of_error e h
    · next e => exact spillCrews_kept _ (State.modGang_kept _ _ (TryKept.of_ok e h))

theorem State.saveBstack_kept {s : State} (ctx : Nat) (core : Nat) (hks : s.MemOk) :
    TryKept (State.saveBstack s ctx core) := by
  unfold State.saveBstack
  dsimp only
  exact (State.spillWrite_kept _ _ _ _ hks).map fun _ h => State.modCtx_kept _ _ h

/-! ## Ops -/

theorem crewM_kept (c : Nat) : MKept (crewM c) := by
  intro s h
  unfold crewM
  split <;> (rename_i e; split at e <;> cases e <;> exact h)

theorem modC_kept (c : Nat) (f : Crew → Crew) : MKept ((modC c f) : M Unit) := by
  unfold modC
  simp +contextual (maxDischargeDepth := 40) only [*, MKept.modS, implies_true, State.modCrew_kept]

theorem modA_kept (c : Nat) (f : Arch → Arch) : MKept ((modA c f) : M Unit) := by
  unfold modA
  simp only [*, modC_kept]

theorem gangM_kept (c : Nat) : MKept (gangM c) := by
  intro s h
  unfold gangM
  split <;> (rename_i e; split at e <;> cases e <;> exact h)

theorem fault_kept {α : Type} (cause : Cause) : MKept ((fault cause) : M α) := by
  unfold fault
  simp only [*, MKept.stop]

theorem faultAt_kept {α : Type} (cause : Cause) (addr : Nat) (lanes : Mask) :
    MKept ((faultAt cause addr lanes) : M α) := by
  unfold faultAt
  simp only [*, MKept.stop]

theorem check_kept (p : Bool) (cause : Cause) : MKept ((check p cause) : M Unit) := by
  unfold check
  repeat' split
  all_goals simp only [*, MKept.pure, fault_kept]

theorem park_kept {α : Type} (p : Park) : MKept ((park p) : M α) := by
  unfold park
  simp only [*, MKept.stop]

theorem useItem_kept (c : Nat) (i : RegItem) : MKept ((useItem c i) : M Unit) := by
  unfold useItem
  repeat' first
    | with_reducible refine MKept.getS_bind fun _ _ => ?_
    | with_reducible refine MKept.bind ?_ fun _ => ?_
    | split
  all_goals simp only [*, MKept.pure, MKept.stop, crewM_kept]

theorem readScalar_kept (c : Nat) (code : BitVec 8) : MKept ((readScalar c code) : M DWord) := by
  unfold readScalar
  repeat' with_reducible refine MKept.bind ?_ fun _ => ?_
  all_goals simp only [*, MKept.pure, useItem_kept, crewM_kept]

theorem writeScalar_kept (c : Nat) (code : BitVec 8) (v : DWord) : MKept ((writeScalar c code v) : M Unit) := by
  unfold writeScalar
  dsimp only
  simp only [*, modC_kept]

theorem writeMask_kept (c : Nat) (k : Nat) (v : Mask) : MKept ((writeMask c k v) : M Unit) := by
  unfold writeMask
  dsimp only
  simp only [*, modC_kept]

theorem emask_kept (c : Nat) (h : Head) : MKept ((emask c h) : M Mask) := by
  unfold emask
  dsimp only
  repeat' first
    | with_reducible refine MKept.bind ?_ fun _ => ?_
    | split
  all_goals simp only [*, MKept.pure, crewM_kept, useItem_kept]

theorem modVs_kept (c : Nat) (f : Tab Entry → Tab Entry) : MKept ((modVs c f) : M Unit) := by
  unfold modVs
  repeat' with_reducible refine MKept.bind ?_ fun _ => ?_
  all_goals simp +contextual (maxDischargeDepth := 40) only [*, MKept.modS, implies_true, crewM_kept,
      State.modCore_kept]

theorem vsM_kept (c : Nat) : MKept ((vsM c) : M (Tab Entry)) := by
  unfold vsM
  repeat' first
    | with_reducible refine MKept.getS_bind fun _ _ => ?_
    | with_reducible refine MKept.bind ?_ fun _ => ?_
  all_goals simp only [*, MKept.pure, crewM_kept]

theorem lookup_kept (c : Nat) (n : Nat) : MKept ((lookup c n) : M (Binding × Entry)) := by
  unfold lookup
  repeat' first
    | with_reducible refine MKept.bind ?_ fun _ => ?_
    | split
  all_goals simp only [*, MKept.pure, useItem_kept, crewM_kept, vsM_kept, fault_kept]

theorem setName_kept (c : Nat) (n : Nat) (b : Binding) : MKept ((setName c n b) : M Unit) := by
  unfold setName
  simp only [*, modA_kept]

theorem unbind_kept (c : Nat) (n : Nat) : MKept ((unbind c n) : M Unit) := by
  unfold unbind
  simp only [*, modA_kept]

theorem checkReadable_kept (e : Entry) : MKept ((checkReadable e) : M Unit) := by
  unfold checkReadable
  repeat' split
  all_goals simp only [*, MKept.pure, fault_kept]

theorem consume_kept (c : Nat) (e : Nat) (en : Entry) (use : Mask) : MKept ((consume c e en use) : M Unit) := by
  unfold consume
  dsimp only
  repeat' first
    | with_reducible refine MKept.bind ?_ fun _ => ?_
    | split
  all_goals simp +contextual (maxDischargeDepth := 40) only [*, MKept.pure, MKept.modS, implies_true, crewM_kept,
      modC_kept, State.record_kept]

theorem consumeCount_kept (c : Nat) (n : Nat) (b : Binding) : MKept ((consumeCount c n b) : M Unit) := by
  unfold consumeCount
  repeat' first
    | with_reducible refine MKept.bind ?_ fun _ => ?_
    | split
  all_goals simp only [*, MKept.pure, crewM_kept, unbind_kept, modVs_kept, setName_kept]

theorem readName_kept (c : Nat) (n : Nat) (use : Mask) : MKept ((readName c n use) : M Lanes) := by
  unfold readName
  dsimp only
  repeat' with_reducible refine MKept.bind ?_ fun _ => ?_
  all_goals simp only [*, MKept.pure, lookup_kept, checkReadable_kept, consume_kept, consumeCount_kept]

theorem allocOne_kept (c : Nat) (count : Nat) (st : EState) (k : Nat) (n : Nat) :
    MKept ((allocOne c count st k n) : M Nat) := by
  unfold allocOne
  dsimp only
  repeat' first
    | with_reducible refine MKept.getS_bind fun _ _ => ?_
    | with_reducible refine MKept.bind ?_ fun _ => ?_
    | split
  all_goals simp only [*, MKept.pure, crewM_kept, vsM_kept, park_kept, modVs_kept, modC_kept]

theorem allocNames_kept (c : Nat) (ns : List Nat) (count : Nat) (st : EState) :
    MKept ((allocNames c ns count st) : M (List Nat)) := by
  unfold allocNames
  repeat' with_reducible refine MKept.bind ?_ fun _ => ?_
  all_goals simp only [*, MKept.forM, MKept.mapM, implies_true, crewM_kept, check_kept, gangM_kept, vsM_kept,
      allocOne_kept]

theorem putLanes_kept (c : Nat) (e : Nat) (v : Lanes) : MKept ((putLanes c e v) : M Unit) := by
  unfold putLanes
  simp only [*, modVs_kept]

theorem writeName_kept (c : Nat) (n : Nat) (count : Nat) (v : Lanes) (m : Mask) :
    MKept ((writeName c n count v m) : M Unit) := by
  unfold writeName
  repeat' first
    | with_reducible refine MKept.bind ?_ fun _ => ?_
    | with_reducible refine MKept.forIn (fun _ _ => ?_) _ _
    | split
  all_goals simp only [*, MKept.pure, allocNames_kept, putLanes_kept]

theorem writePair_kept (c : Nat) (n : Nat) (count : Nat) (lo : Lanes) (hi : Lanes) (m : Mask) :
    MKept ((writePair c n count lo hi m) : M Unit) := by
  unfold writePair
  repeat' first
    | with_reducible refine MKept.bind ?_ fun _ => ?_
    | split
  all_goals simp only [*, MKept.pure, allocNames_kept, putLanes_kept]

theorem writeMerge_kept (c : Nat) (n : Nat) (count : Nat) (v : Lanes) (m : Mask) (old : Lanes) :
    MKept ((writeMerge c n count v m old) : M Unit) := by
  unfold writeMerge
  repeat' first
    | with_reducible refine MKept.bind ?_ fun _ => ?_
    | with_reducible refine MKept.forIn (fun _ _ => ?_) _ _
    | split
  all_goals simp only [*, MKept.pure, allocNames_kept, putLanes_kept]

theorem dropName_kept (c : Nat) (n : Nat) : MKept ((dropName c n) : M Unit) := by
  unfold dropName
  dsimp only
  repeat' first
    | with_reducible refine MKept.bind ?_ fun _ => ?_
    | split
  all_goals simp only [*, lookup_kept, crewM_kept, fault_kept, unbind_kept, modVs_kept]

theorem useStack_kept (c : Nat) : MKept ((useStack c) : M Unit) := by
  unfold useStack
  repeat' with_reducible refine MKept.bind ?_ fun _ => ?_
  all_goals simp only [*, MKept.forM, implies_true, crewM_kept, useItem_kept]

theorem pop_kept (c : Nat) : MKept ((pop c) : M Unit) := by
  unfold pop
  repeat' with_reducible refine MKept.bind ?_ fun _ => ?_
  all_goals simp only [*, useStack_kept, modC_kept]

theorem State.spillPush_kept {s : State} (x : Crew) (hks : s.MemOk) : TryKept (State.spillPush s x) := by
  unfold State.spillPush
  repeat' split
  all_goals simp only [*, TryKept.ok, State.spillWrite_kept]

theorem spillEntry_kept (x : Crew) : MKept ((spillEntry x) : M Unit) := by
  unfold spillEntry
  refine MKept.getS_bind fun s hs => ?_
  have h := State.spillPush_kept x hs
  split
  · next e => exact MKept.setS (TryKept.of_ok e h)
  · next e => exact MKept.bind (MKept.setS (TryKept.of_error e h)) fun _ => MKept.stop _

theorem push_kept (c : Nat) (e : StackEntry) : MKept ((push c e) : M Unit) := by
  unfold push
  dsimp only
  repeat' with_reducible refine MKept.bind ?_ fun _ => ?_
  all_goals simp only [*, crewM_kept, check_kept, spillEntry_kept, modC_kept]

theorem illop_kept {α : Type} (c : Nat) : MKept ((illop c) : M α) := by
  unfold illop
  dsimp only
  repeat' first
    | with_reducible refine MKept.bind ?_ fun _ => ?_
    | split
  all_goals simp only [*, crewM_kept, fault_kept, park_kept]

theorem raiseAtCheckpoint_kept (c : Nat) (cause : Cause) (addr : Nat) (lanes : Option Mask) :
    MKept ((raiseAtCheckpoint c cause addr lanes) : M Unit) := by
  unfold raiseAtCheckpoint
  dsimp only
  repeat' first
    | with_reducible refine MKept.bind ?_ fun _ => ?_
    | split
  all_goals simp only [*, MKept.stop, crewM_kept, park_kept]

theorem checkTarget_kept (c : Nat) (p : Addr) : MKept ((checkTarget c p) : M Unit) := by
  unfold checkTarget
  repeat' first
    | with_reducible refine MKept.bind ?_ fun _ => ?_
    | split
  all_goals simp only [*, MKept.pure, crewM_kept, raiseAtCheckpoint_kept]

theorem jump_kept (c : Nat) (p : Addr) : MKept ((jump c p) : M Unit) := by
  unfold jump
  dsimp only
  repeat' with_reducible refine MKept.bind ?_ fun _ => ?_
  all_goals simp only [*, checkTarget_kept, modC_kept]

theorem State.settle_kept {s : State} (c : Nat) (hks : s.MemOk) : (State.settle s c).MemOk := by
  unfold State.settle
  dsimp only
  repeat' split
  all_goals simp +contextual (maxDischargeDepth := 40) only [*, foldl_memOk, implies_true, State.setCrew_kept,
      State.modGang_kept, State.modCore_kept]

theorem State.rollback_kept {s : State} (c : Nat) (now : Snap) (hks : s.MemOk) : (State.rollback s c now).MemOk := by
  unfold State.rollback
  dsimp only
  repeat' split
  all_goals simp +contextual (maxDischargeDepth := 40) only [*, memOk_mk_iff, State.MemOk.out, State.modCore_kept,
      State.setCrew_kept]

theorem State.notePoison_kept {s : State} (ctx : Nat) (pa : Nat) (hks : s.MemOk) :
    (State.notePoison s ctx pa).MemOk := by
  unfold State.notePoison
  simp only [*, State.modCtx_kept]

theorem State.appendLog_kept {s : State} (ctx : Nat) (r : List Byte) (hks : s.MemOk) :
    OptKept (State.appendLog s ctx r) := by
  unfold State.appendLog
  dsimp only
  repeat' first
    | (rename (_ : Except _ State) = Except.ok _ => e
       replace e := ExcKept.of_ok (p := id) e (by
           clear e
           simp only [*, State.writeSys_kept])
       try dsimp only [id] at e)
    | split
  all_goals simp only [*, OptKept.some, OptKept.none, State.modCtx_kept, State.noteSys_kept]

theorem State.bumpPhase_kept {s : State} (level : Nat) (n : Nat) (g : Nat) (hks : s.MemOk) :
    (State.bumpPhase s level n g).MemOk := by
  unfold State.bumpPhase
  dsimp only
  repeat' split
  all_goals simp only [*, State.setGang_kept, State.modGrid_kept]

theorem State.tryBarrier_kept {s : State} (level : Nat) (n : Nat) (g : Nat) (hks : s.MemOk) :
    (State.tryBarrier s level n g).MemOk := by
  unfold State.tryBarrier
  split
  · split
    · next a _ =>
      have h := State.appendLog_kept a.1 (logBarrier 2 level n (s.phase level n g) a.2) hks
      revert h
      cases s.appendLog a.1 (logBarrier 2 level n (s.phase level n g) a.2) with
      | none => exact fun _ => hks
      | some t => exact fun h => h t rfl
    · exact State.bumpPhase_kept _ _ _ hks
  · exact hks

theorem State.tryBarriers_kept {s : State} (g : Nat) (hks : s.MemOk) : (State.tryBarriers s g).MemOk := by
  unfold State.tryBarriers
  dsimp only
  repeat' with_reducible refine foldl_memOk _ (fun _ _ _ => ?_) _ ?_
  all_goals simp only [*, State.tryBarrier_kept]

theorem State.clearSlots_kept {s : State} (p : Slot → Bool) (hks : s.MemOk) : (State.clearSlots s p).MemOk := by
  unfold State.clearSlots
  simp only [*, memOk_mk_iff, State.MemOk.out]

theorem State.dropCrews_kept {s : State} (cs : List Nat) (hks : s.MemOk) : (State.dropCrews s cs).MemOk := by
  unfold State.dropCrews
  simp only [*, memOk_mk_iff, State.MemOk.out]

theorem State.markDown_kept {s : State} (cs : List Nat) (bit : BitVec 3) (hks : s.MemOk) :
    (State.markDown s cs bit).MemOk := by
  unfold State.markDown
  simp only [*, memOk_mk_iff, State.MemOk.out]

theorem State.thaw_kept {s : State} (cs : List Nat) (hks : s.MemOk) : (State.thaw s cs).MemOk := by
  unfold State.thaw
  dsimp only
  simp only [*, memOk_mk_iff, State.MemOk.out]

theorem State.drained_kept {s : State} (ctx : Nat) (hks : s.MemOk) : (State.drained s ctx).MemOk := by
  unfold State.drained
  repeat' split
  all_goals simp +contextual (maxDischargeDepth := 40) only [*, State.evaluate_kept, State.raise_kept,
      State.modCtx_kept]

theorem State.gangKill_kept {s : State} (g : Nat) (why : KillWhy) (hks : s.MemOk) :
    (State.gangKill s g why).MemOk := by
  unfold State.gangKill
  dsimp only
  repeat' split
  all_goals simp +contextual (maxDischargeDepth := 40) only [*, foldl_memOk, memOk_mk_iff, State.MemOk.out,
      implies_true, State.clearSlots_kept, State.dropCrews_kept, State.markDown_kept, State.thaw_kept,
      State.setGang_kept, State.tryBarriers_kept, State.modGrid_kept, State.record_kept, State.drained_kept,
      State.modCtx_kept]

theorem State.respill_kept {s : State} (c : Nat) (hks : s.MemOk) : (State.respill s c).MemOk := by
  unfold State.respill
  have h := State.spillCrew_kept c hks
  repeat' split
  · exact hks
  · exact hks
  · next e => exact TryKept.of_ok e h
  · next e => exact State.gangKill_kept _ _ (TryKept.of_error e h)

theorem State.takeTrap_kept {s : State} (c : Nat) (cause : Cause) (addr : Nat) (lanes : Mask) (efpc : Addr) (now :
    Snap) (hks : s.MemOk) :
    (State.takeTrap s c cause addr lanes efpc now).MemOk := by
  unfold State.takeTrap
  dsimp only
  repeat' split
  all_goals simp only [*, State.rollback_kept, State.gangKill_kept, State.setCrew_kept]

theorem finish_kept (c : Nat) (w : Crew) : MKept ((finish c w) : M Unit) := by
  unfold finish
  dsimp only
  repeat' first
    | with_reducible refine MKept.bind ?_ fun _ => ?_
    | split
  all_goals simp +contextual (maxDischargeDepth := 40) only [*, MKept.modS, implies_true, modC_kept, crewM_kept,
      State.settle_kept, pop_kept]

theorem issue_kept (c : Nat) (opc : Nat) (x : Ops) (ckpt : Bool) (folds : Bool) (body : M Unit) (hbody : MKept body) :
    MKept ((issue c opc x ckpt folds body) : M Unit) := by
  unfold issue
  dsimp only
  repeat' first
    | with_reducible refine MKept.bind ?_ fun _ => ?_
    | split
  all_goals simp only [*, crewM_kept, vsM_kept, modC_kept, finish_kept, park_kept]

theorem State.undoIssue_kept {s : State} {s0 : State} (c : Nat) (w : Crew) (hks : s.MemOk) (_hks0 : s0.MemOk) :
    (State.undoIssue s s0 c w).MemOk := by
  unfold State.undoIssue
  simp only [*, State.modCrew_kept, State.modCore_kept]

theorem settleIssue_kept (c : Nat) (w : Crew) (h : Head) {s0 : State} (r : EStateM.Result Stop State Unit) (hs0 :
    s0.MemOk)
    (hr : ResKept r) : (settleIssue c w h s0 r).MemOk := by
  unfold settleIssue
  split
  · exact hr
  · exact State.takeTrap_kept _ _ _ _ _ _ (State.undoIssue_kept _ _ hr hs0)
  · exact State.modCrew_kept _ _ hs0
  · exact State.gangKill_kept _ _ hr
  · exact State.gangKill_kept _ _ hr
  · exact hr

theorem crewStep_kept (h : Head) (body : Nat → M Unit) {s : State} (hbody : ∀ c, MKept (body c)) (hks : s.MemOk) :
    OutKept (crewStep h body s) := by
  unfold crewStep
  repeat' split
  all_goals simp +contextual (maxDischargeDepth := 40) only [*, MKept.run, OutKept.next, OutKept.fault,
      settleIssue_kept]

theorem issueStep_kept (opc : Nat) (x : Ops) (ckpt : Bool) (body : Nat → M Unit) {s : State} (hbody : ∀ c, MKept (body
    c)) (hks : s.MemOk) :
    OutKept (issueStep opc x ckpt body s) := by
  unfold issueStep
  simp only [*, implies_true, crewStep_kept, issue_kept]

theorem needPriv_kept (c : Nat) (level : Nat) : MKept ((needPriv c level) : M Unit) := by
  unfold needPriv
  repeat' first
    | with_reducible refine MKept.bind ?_ fun _ => ?_
    | split
  all_goals simp only [*, MKept.pure, crewM_kept, raiseAtCheckpoint_kept]

/-! ## Operands -/

theorem readSrc_kept (c : Nat) (h : Head) (code : BitVec 8) (wide : Bool) :
    MKept ((readSrc c h code wide) : M Vals) := by
  unfold readSrc
  repeat' first
    | with_reducible refine MKept.bind ?_ fun _ => ?_
    | split
  all_goals simp only [*, MKept.pure, emask_kept, readName_kept, readScalar_kept]

theorem readB_kept (c : Nat) (ty : Ty) (wide : Bool) (x : Ops) : MKept ((readB c ty wide x) : M Vals) := by
  unfold readB
  repeat' split
  all_goals simp only [*, MKept.pure, readSrc_kept]

theorem storeVec_kept (c : Nat) (x : Ops) (pair : Bool) (old : Option Lanes) (v : Vals) (m : Mask) :
    MKept ((storeVec c x pair old v m) : M Unit) := by
  unfold storeVec
  repeat' split
  all_goals simp only [*, MKept.pure, writePair_kept, writeMerge_kept, writeName_kept]

theorem readMerge_kept (c : Nat) (f : FnT) (x : Ops) : MKept ((readMerge c f x) : M (Option Lanes)) := by
  unfold readMerge
  repeat' first
    | with_reducible refine MKept.bind ?_ fun _ => ?_
    | split
  all_goals simp only [*, MKept.pure, emask_kept, readName_kept]

theorem laneResult_kept (c : Nat) (f : FnT) (x : Ops) (pair : Bool) (op : Nat → Nat → Nat → Nat) (va : Vals) (vb :
    Vals) (vc : Vals) :
    MKept ((laneResult c f x pair op va vb vc) : M Unit) := by
  unfold laneResult
  repeat' first
    | with_reducible refine MKept.bind ?_ fun _ => ?_
    | split
  all_goals simp only [*, readMerge_kept, emask_kept, writeScalar_kept, storeVec_kept]

theorem laneUnary_kept (c : Nat) (f : FnT) (x : Ops) (op : Nat → Nat) : MKept ((laneUnary c f x op) : M Unit) := by
  unfold laneUnary
  repeat' with_reducible refine MKept.bind ?_ fun _ => ?_
  all_goals simp only [*, readSrc_kept, laneResult_kept]

theorem laneBinary_kept (c : Nat) (f : FnT) (x : Ops) (op : Nat → Nat → Nat) :
    MKept ((laneBinary c f x op) : M Unit) := by
  unfold laneBinary
  repeat' with_reducible refine MKept.bind ?_ fun _ => ?_
  all_goals simp only [*, readSrc_kept, readB_kept, laneResult_kept]

theorem laneTernary_kept (c : Nat) (f : FnT) (x : Ops) (op : Nat → Nat → Nat → Nat) :
    MKept ((laneTernary c f x op) : M Unit) := by
  unfold laneTernary
  repeat' with_reducible refine MKept.bind ?_ fun _ => ?_
  all_goals simp only [*, readSrc_kept, readB_kept, laneResult_kept]

/-! ## Flags -/

theorem writeCond_kept (c : Nat) (f : FnT) (x : Ops) (p : Fin 32 → Bool) : MKept ((writeCond c f x p) : M Unit) := by
  unfold writeCond
  repeat' first
    | with_reducible refine MKept.bind ?_ fun _ => ?_
    | split
  all_goals simp only [*, readMerge_kept, emask_kept, writeScalar_kept, writeMask_kept, storeVec_kept]

theorem countStat_kept (c : Nat) (tid : Nat) (d : Stat) : MKept ((countStat c tid d) : M Unit) := by
  unfold countStat
  simp only [*, modC_kept]

theorem setDeadsrc_kept (c : Nat) (p : Bool) : MKept ((setDeadsrc c p) : M Unit) := by
  unfold setDeadsrc
  simp only [*, modC_kept]

/-! ## MemOps -/

theorem faultLanes_kept (uni : Bool) (m : Mask) (addr : Tab Nat) (cause : Cause) (p : Fin 32 → Bool) :
    MKept ((faultLanes uni m addr cause p) : M Unit) := by
  unfold faultLanes
  dsimp only
  repeat' split
  all_goals simp only [*, MKept.pure, MKept.stop]

theorem traceM_kept (c : Nat) (opc : Nat) (pc : Addr) (m : Mask) (addr : Tab Nat) (spad : Bool) (ty : Ty) :
    MKept ((traceM c opc pc m addr spad ty) : M Unit) := by
  unfold traceM
  dsimp only
  repeat' first
    | with_reducible refine MKept.getS_bind fun _ _ => ?_
    | with_reducible refine MKept.bind ?_ fun _ => ?_
    | split
  all_goals simp +contextual (maxDischargeDepth := 40) only [*, MKept.pure, MKept.modS, memOk_mk_iff, State.MemOk.out,
      ringPut_wf, implies_true, crewM_kept, State.modCore_kept]

theorem State.writeEntry_kept {s : State} (ctx : Nat) (k : Nat) (off : Nat) (n : Nat) (v : Nat) (hks : s.MemOk) :
    OptKept (State.writeEntry s ctx k off n v) := by
  unfold State.writeEntry
  dsimp only
  repeat' split
  all_goals simp only [*, OptKept.some, OptKept.none, State.modCore_kept, State.appendLog_kept]

theorem State.laneXlat_kept {s : State} (x : Crew) (a : Access) (va : Nat) (hks : s.MemOk) :
    (State.laneXlat s x a va).2.MemOk := by
  unfold State.laneXlat
  dsimp only
  repeat' split
  all_goals simp only [*, State.translate_kept]

theorem storeLane_kept (a : Access) (lane : Nat) (pa : Nat) (putB : State → Nat → List Byte → State) {s : State}
    (hp : ∀ t q bs, t.MemOk → (putB t q bs).MemOk) (hs : s.MemOk) : (storeLane a lane pa putB s).MemOk := by
  unfold storeLane
  dsimp only
  split
  · exact hp _ _ _ hs
  · refine foldl_memOk _ (fun t x h => ?_) _ hs
    split
    · exact hp _ _ _ h
    · exact h

theorem State.chipMark_kept {s : State} (core : Nat) (off : Nat) (r : Reader) (hks : s.MemOk) :
    OptKept (State.chipMark s core off r) := by
  unfold State.chipMark
  repeat' split
  all_goals simp only [*, OptKept.some, OptKept.none, State.gangKill_kept]

theorem performChip_kept {s : State} (core : Nat) (r : Reader) (a : Access) (lane : Nat) (pa : Nat) (hks : s.MemOk) :
    LaneKept (performChip s core r a lane pa) := by
  unfold performChip
  dsimp only
  repeat' first
    | (rename (_ : Option State) = some _ => e
       replace e := OptKept.of_some e (by
           clear e
           simp +contextual (maxDischargeDepth := 40) only [*, implies_true, and_true, State.chipMark_kept,
               OptKept.some, ite_optKept_iff]))
    | split
  all_goals simp +contextual (maxDischargeDepth := 40) only [*, implies_true, LaneKept.ok, LaneKept.kill,
      storeLane_kept, State.writeChip_kept]

theorem performMem_kept {s : State} (core : Nat) (a : Access) (lane : Nat) (p : Place) (hks : s.MemOk) :
    LaneKept (performMem s core a lane p) := by
  unfold performMem
  dsimp only
  repeat' split
  all_goals simp +contextual (maxDischargeDepth := 40) only [*, implies_true, LaneKept.ok, LaneKept.bad,
      State.loadCached_kept, State.dropLine_kept, storeLane_kept, State.storeThrough_kept,
      State.writeKey_kept]

theorem State.endAccess_kept {s : State} (c : Nat) (a : Access) (hks : s.MemOk) : (State.endAccess s c a).MemOk := by
  unfold State.endAccess
  dsimp only
  repeat' split
  all_goals simp +contextual (maxDischargeDepth := 40) only [*, memOk_mk_iff, State.MemOk.out, State.modCrew_kept,
      State.settle_kept]

theorem performLanes_kept (one : State → Access → Nat → Place → LaneRes) (c : Nat)
    (h1 : ∀ t a l p, t.MemOk → LaneKept (one t a l p)) :
    ∀ (x2 : List (Fin 32)) (x3 : Access) {x4 : State}, x4.MemOk → PerfKept (performLanes one c x2 x3 x4)
  | [], a, s, h => by
    unfold performLanes
    split
    · exact State.endAccess_kept _ _ h
    · exact State.modCrew_kept _ _ h
  | l :: ls, a, s, h => by
    unfold performLanes
    split
    · exact performLanes_kept one c h1 ls _ h
    · rename_i p _
      have hk := h1 s a l.val p h
      split
      · exact h
      · trivial
      · rename_i e
        exact performLanes_kept one c h1 ls _ (LaneKept.of_ok e hk)
      · rename_i e
        have := LaneKept.of_bad e hk
        split
        · exact this
        · exact performLanes_kept one c h1 ls _ this

theorem watchM_kept (c : Nat) (m : Mask) (addr : Tab Nat) (n : Nat) (rd : Bool) (wr : Bool) :
    MKept ((watchM c m addr n rd wr) : M Unit) := by
  unfold watchM
  dsimp only
  repeat' first
    | with_reducible refine MKept.bind ?_ fun _ => ?_
    | split
  all_goals simp +contextual (maxDischargeDepth := 40) only [*, MKept.pure, MKept.modS, implies_true, crewM_kept,
      gangM_kept, State.modGang_kept, faultAt_kept]

end Sys2Proof.Machine
end

