-- ==== Sys2Proof/Laws/KeptUnits.lean ====
section
/-!
SUPPORT. Laws/KeptUnits.lean: what keeps memory in its canonical form:
control flow, barriers, bins, the matrix unit, launches, pages and crew swaps.
-/

open Sys2Proof

namespace Sys2Proof.Machine

/-! ## Control -/

theorem ownPc_kept (c : Nat) (x : Ops) : MKept ((ownPc c x) : M Addr) := by
  unfold ownPc
  repeat' with_reducible refine MKept.bind ?_ fun _ => ?_
  all_goals simp only [*, MKept.pure, crewM_kept]

theorem enterNext_kept (c : Nat) : MKept ((enterNext c) : M Unit) := by
  unfold enterNext
  simp only [*, modC_kept]

theorem branch_kept (c : Nat) (x : Ops) (target : Addr) : MKept ((branch c x target) : M Unit) := by
  unfold branch
  repeat' first
    | with_reducible refine MKept.bind ?_ fun _ => ?_
    | split
  all_goals simp only [*, emask_kept, crewM_kept, enterNext_kept, checkTarget_kept, jump_kept, push_kept, modA_kept]

theorem execNop_kept (x : Ops) {s : State} (hks : s.MemOk) : OutKept (execNop x s) := by
  unfold execNop
  simp only [*, MKept.pure, implies_true, issueStep_kept]

theorem bodyBra_kept (c : Nat) (x : Ops) : MKept ((bodyBra c x) : M Unit) := by
  unfold bodyBra
  repeat' with_reducible refine MKept.bind ?_ fun _ => ?_
  all_goals simp only [*, ownPc_kept, branch_kept]

theorem execBra_kept (x : Ops) {s : State} (hks : s.MemOk) : OutKept (execBra x s) := by
  unfold execBra
  simp only [*, implies_true, issueStep_kept, bodyBra_kept]

theorem bodyBrx_kept (c : Nat) (x : Ops) : MKept ((bodyBrx c x) : M Unit) := by
  unfold bodyBrx
  repeat' with_reducible refine MKept.bind ?_ fun _ => ?_
  all_goals simp only [*, readScalar_kept, branch_kept]

theorem execBrx_kept (x : Ops) {s : State} (hks : s.MemOk) : OutKept (execBrx x s) := by
  unfold execBrx
  simp only [*, implies_true, issueStep_kept, bodyBrx_kept]

theorem bodyDvg_kept (c : Nat) (x : Ops) : MKept ((bodyDvg c x) : M Unit) := by
  unfold bodyDvg
  repeat' with_reducible refine MKept.bind ?_ fun _ => ?_
  all_goals simp only [*, ownPc_kept, crewM_kept, push_kept, enterNext_kept]

theorem execDvg_kept (x : Ops) {s : State} (hks : s.MemOk) : OutKept (execDvg x s) := by
  unfold execDvg
  simp only [*, implies_true, issueStep_kept, bodyDvg_kept]

theorem execCvg_kept (x : Ops) {s : State} (hks : s.MemOk) : OutKept (execCvg x s) := by
  unfold execCvg
  simp only [*, implies_true, issueStep_kept, pop_kept]

theorem bodyCall_kept (c : Nat) (x : Ops) : MKept ((bodyCall c x) : M Unit) := by
  unfold bodyCall
  repeat' with_reducible refine MKept.bind ?_ fun _ => ?_
  all_goals simp only [*, ownPc_kept, crewM_kept, writeScalar_kept, jump_kept]

theorem execCall_kept (x : Ops) {s : State} (hks : s.MemOk) : OutKept (execCall x s) := by
  unfold execCall
  simp only [*, implies_true, issueStep_kept, bodyCall_kept]

theorem bodyRet_kept (c : Nat) (x : Ops) : MKept ((bodyRet c x) : M Unit) := by
  unfold bodyRet
  repeat' with_reducible refine MKept.bind ?_ fun _ => ?_
  all_goals simp only [*, readScalar_kept, jump_kept]

theorem execRet_kept (x : Ops) {s : State} (hks : s.MemOk) : OutKept (execRet x s) := by
  unfold execRet
  simp only [*, implies_true, issueStep_kept, bodyRet_kept]

theorem leaveLanes_kept (c : Nat) (m : Mask) : MKept ((leaveLanes c m) : M Unit) := by
  unfold leaveLanes
  repeat' first
    | with_reducible refine MKept.bind ?_ fun _ => ?_
    | split
  all_goals simp only [*, modA_kept, crewM_kept, pop_kept, enterNext_kept]

theorem bodyExit_kept (c : Nat) (x : Ops) : MKept ((bodyExit c x) : M Unit) := by
  unfold bodyExit
  repeat' with_reducible refine MKept.bind ?_ fun _ => ?_
  all_goals simp only [*, emask_kept, leaveLanes_kept]

theorem execExit_kept (x : Ops) {s : State} (hks : s.MemOk) : OutKept (execExit x s) := by
  unfold execExit
  simp only [*, implies_true, issueStep_kept, bodyExit_kept]

theorem bodyLoop_kept (c : Nat) (x : Ops) : MKept ((bodyLoop c x) : M Unit) := by
  unfold bodyLoop
  repeat' first
    | with_reducible refine MKept.bind ?_ fun _ => ?_
    | split
  all_goals simp only [*, ownPc_kept, readScalar_kept, writeScalar_kept, jump_kept, enterNext_kept]

theorem execLoop_kept (x : Ops) {s : State} (hks : s.MemOk) : OutKept (execLoop x s) := by
  unfold execLoop
  simp only [*, implies_true, issueStep_kept, bodyLoop_kept]

theorem bodyPpt_kept (c : Nat) (k : BitVec 12) : MKept ((bodyPpt c k) : M Unit) := by
  unfold bodyPpt
  dsimp only
  repeat' first
    | with_reducible refine MKept.getS_bind fun _ _ => ?_
    | with_reducible refine MKept.bind ?_ fun _ => ?_
  all_goals simp only [*, crewM_kept, modC_kept]

theorem execPpt_kept (k : BitVec 12) (x : Ops) {s : State} (hks : s.MemOk) : OutKept (execPpt k x s) := by
  unfold execPpt
  simp only [*, implies_true, issueStep_kept, bodyPpt_kept]

theorem bodyTrap_kept (c : Nat) (x : Ops) (cause : Cause) : MKept ((bodyTrap c x cause) : M Unit) := by
  unfold bodyTrap
  repeat' first
    | with_reducible refine MKept.bind ?_ fun _ => ?_
    | split
  all_goals simp only [*, MKept.pure, emask_kept, raiseAtCheckpoint_kept]

theorem execTrap_kept (k : BitVec 12) (x : Ops) {s : State} (hks : s.MemOk) : OutKept (execTrap k x s) := by
  unfold execTrap
  simp only [*, implies_true, issueStep_kept, bodyTrap_kept]

theorem bodyEret_kept (c : Nat) : MKept ((bodyEret c) : M Unit) := by
  unfold bodyEret
  dsimp only
  repeat' with_reducible refine MKept.bind ?_ fun _ => ?_
  all_goals simp only [*, crewM_kept, check_kept, checkTarget_kept, modC_kept]

theorem execEret_kept (x : Ops) {s : State} (hks : s.MemOk) : OutKept (execEret x s) := by
  unfold execEret
  simp only [*, implies_true, issueStep_kept, bodyEret_kept]

theorem execBkpt_kept (x : Ops) {s : State} (hks : s.MemOk) : OutKept (execBkpt x s) := by
  unfold execBkpt
  simp only [*, implies_true, issueStep_kept, bodyTrap_kept]

theorem bodySigchk_kept (c : Nat) (x : Ops) : MKept ((bodySigchk c x) : M Unit) := by
  unfold bodySigchk
  dsimp only
  repeat' first
    | with_reducible refine MKept.bind ?_ fun _ => ?_
    | split
  all_goals simp +contextual (maxDischargeDepth := 40) only [*, MKept.pure, MKept.modS, implies_true, crewM_kept,
      modC_kept, ownPc_kept, State.record_kept, faultAt_kept]

theorem execSigchk_kept (x : Ops) {s : State} (hks : s.MemOk) : OutKept (execSigchk x s) := by
  unfold execSigchk
  simp only [*, implies_true, crewStep_kept, issue_kept, bodySigchk_kept]

theorem bodySigrst_kept (c : Nat) (x : Ops) : MKept ((bodySigrst c x) : M Unit) := by
  unfold bodySigrst
  dsimp only
  simp only [*, modC_kept]

theorem execSigrst_kept (x : Ops) {s : State} (hks : s.MemOk) : OutKept (execSigrst x s) := by
  unfold execSigrst
  simp only [*, implies_true, crewStep_kept, issue_kept, bodySigrst_kept]

/-! ## MemInstr -/

theorem checkDst_kept (c : Nat) (ns : List Nat) : MKept ((checkDst c ns) : M Unit) := by
  unfold checkDst
  repeat' first
    | with_reducible refine MKept.bind ?_ fun _ => ?_
    | with_reducible refine MKept.forIn (fun _ _ => ?_) _ _
  all_goals simp only [*, MKept.pure, crewM_kept, check_kept]

theorem tagEntry_kept (c : Nat) (e : Nat) (id : Nat) (h : Nat) : MKept ((tagEntry c e id h) : M Unit) := by
  unfold tagEntry
  simp only [*, modVs_kept]

theorem tagAll_kept (c id : Nat) : ∀ (x2 : Nat) (x3 : List Nat), MKept (tagAll c id x2 x3)
  | _, [] => MKept.pure _
  | h, e :: es => MKept.bind (tagEntry_kept c e id h) fun _ => tagAll_kept c id (h + 1) es

theorem memChecks_kept (c : Nat) (q : MemForm) (x : Ops) (f : FnM) (m : Mask) (addr : Tab Nat) :
    MKept ((memChecks c q x f m addr) : M Unit) := by
  unfold memChecks
  dsimp only
  repeat' first
    | with_reducible refine MKept.getS_bind fun _ _ => ?_
    | with_reducible refine MKept.bind ?_ fun _ => ?_
    | split
  all_goals simp only [*, MKept.pure, crewM_kept, gangM_kept, faultLanes_kept, park_kept, watchM_kept]

theorem memData_kept (c : Nat) (q : MemForm) (x : Ops) (f : FnM) : MKept ((memData c q x f) : M Vals) := by
  unfold memData
  repeat' split
  all_goals simp only [*, MKept.pure, readSrc_kept]

theorem memCompare_kept (c : Nat) (q : MemForm) (x : Ops) (f : FnM) : MKept ((memCompare c q x f) : M Vals) := by
  unfold memCompare
  repeat' split
  all_goals simp only [*, MKept.pure, readSrc_kept]

theorem memNames_kept (c : Nat) (names : List Nat) (count : Nat) (st : EState) :
    MKept ((memNames c names count st) : M (List Nat)) := by
  unfold memNames
  repeat' split
  all_goals simp only [*, MKept.pure, allocNames_kept]

theorem traceLanes_kept (c : Nat) (q : MemForm) (x : Ops) (f : FnM) (pc : Addr) (base : Fin 32 → DWord) :
    MKept ((traceLanes c q x f pc base) : M Unit) := by
  unfold traceLanes
  repeat' with_reducible refine MKept.bind ?_ fun _ => ?_
  all_goals simp only [*, emask_kept, traceM_kept]

theorem traced_kept {α : Type} (tr : M Unit) (act : M α) (htr : MKept tr) (hact : MKept act) :
    MKept (traced tr act : M α) := by
  intro s h
  have ha := hact s h
  unfold traced
  cases e : act s with
  | ok v t => rw [e] at ha; exact ha
  | error st t =>
    rw [e] at ha
    cases st with
    | trap k a m =>
      have hb := htr t ha
      cases e2 : tr t with
      | ok v u => rw [e2] at hb; simpa only [e2] using hb
      | error x u => simpa only [e2] using ha
    | _ => exact ha

theorem traceNoBase_kept (c : Nat) (q : MemForm) (x : Ops) (f : FnM) (pc : Addr) :
    MKept ((traceNoBase c q x f pc) : M Unit) := by
  unfold traceNoBase
  repeat' with_reducible refine MKept.getS_bind fun _ _ => ?_
  all_goals simp only [*, traceLanes_kept]

theorem accessM_kept (c : Nat) (k : Snap) (q : MemForm) (x : Ops) (f : FnM) (pc : Addr) (m : Mask) (addr : Tab Nat)
    (vb : Vals) (vc : Vals) :
    MKept ((accessM c k q x f pc m addr vb vc) : M Access) := by
  unfold accessM
  dsimp only
  repeat' first
    | with_reducible refine MKept.getS_bind fun _ _ => ?_
    | with_reducible refine MKept.bind ?_ fun _ => ?_
    | split
  all_goals simp only [*, MKept.pure, crewM_kept, gangM_kept, park_kept]

theorem memBody_kept (c : Nat) (k : Snap) (q : MemForm) (x : Ops) (f : FnM) :
    MKept ((memBody c k q x f) : M Unit) := by
  unfold memBody
  dsimp only
  repeat' first
    | with_reducible refine MKept.bind ?_ fun _ => ?_
    | split
  all_goals simp +contextual (maxDischargeDepth := 40) only [*, MKept.pure, MKept.modS, memOk_mk_iff, State.MemOk.out,
      implies_true, ownPc_kept, emask_kept, modC_kept, traced_kept, traceNoBase_kept, readSrc_kept, traceLanes_kept,
      memData_kept, memCompare_kept, checkDst_kept, memChecks_kept, accessM_kept, memNames_kept, tagAll_kept]

theorem matrixFence_kept (c : Nat) (rel : Bool) : MKept ((matrixFence c rel) : M Unit) := by
  unfold matrixFence
  repeat' first
    | with_reducible refine MKept.getS_bind fun _ _ => ?_
    | with_reducible refine MKept.bind ?_ fun _ => ?_
    | split
  all_goals simp only [*, MKept.pure, crewM_kept, park_kept]

theorem memIssue_kept (q : MemForm) (x : Ops) (f : FnM) (c : Nat) : MKept ((memIssue q x f c) : M Unit) := by
  unfold memIssue
  dsimp only
  repeat' first
    | with_reducible refine MKept.bind ?_ fun _ => ?_
    | split
  all_goals simp only [*, crewM_kept, matrixFence_kept, issue_kept, memBody_kept]

theorem memStep_kept (q : MemForm) (f : FnM) (x : Ops) {s : State} (hks : s.MemOk) : OutKept (memStep q f x s) := by
  unfold memStep
  simp only [*, implies_true, crewStep_kept, memIssue_kept]

theorem execLd_kept (f : FnM) (x : Ops) {s : State} (hks : s.MemOk) : OutKept (execLd f x s) := by
  unfold execLd
  simp only [*, memStep_kept]

theorem execSt_kept (f : FnM) (x : Ops) {s : State} (hks : s.MemOk) : OutKept (execSt f x s) := by
  unfold execSt
  simp only [*, memStep_kept]

theorem execLds_kept (f : FnM) (x : Ops) {s : State} (hks : s.MemOk) : OutKept (execLds f x s) := by
  unfold execLds
  simp only [*, memStep_kept]

theorem execSts_kept (f : FnM) (x : Ops) {s : State} (hks : s.MemOk) : OutKept (execSts f x s) := by
  unfold execSts
  simp only [*, memStep_kept]

theorem execAtom_kept (f : FnM) (x : Ops) {s : State} (hks : s.MemOk) : OutKept (execAtom f x s) := by
  unfold execAtom
  simp only [*, memStep_kept]

theorem execCas_kept (f : FnM) (x : Ops) {s : State} (hks : s.MemOk) : OutKept (execCas f x s) := by
  unfold execCas
  simp only [*, memStep_kept]

theorem execRed_kept (f : FnM) (x : Ops) {s : State} (hks : s.MemOk) : OutKept (execRed f x s) := by
  unfold execRed
  simp only [*, memStep_kept]

theorem execAtoms_kept (f : FnM) (x : Ops) {s : State} (hks : s.MemOk) : OutKept (execAtoms f x s) := by
  unfold execAtoms
  simp only [*, memStep_kept]

theorem State.prefetch_kept {s : State} (x : Crew) (l1 : Bool) (size : Nat) (a : Nat) (got : List Nat) (hks : s.MemOk) :
    (State.prefetch s x l1 size a got).2.MemOk := by
  unfold State.prefetch
  dsimp only
  repeat' first
    | (rename _ = (_, _) => e
       replace e := memOk_snd_of e (by
           clear e
           simp only [*, State.translate_kept]))
    | split
  all_goals simp only [*, State.loadCached_kept]

theorem State.prefetchAll_kept {s : State} (c : Nat) (x : Crew) (l1 : Bool) (ty : Ty) (addr : Tab Nat) (hks : s.MemOk) :
    (State.prefetchAll s c x l1 ty addr).MemOk := by
  have h : ∀ (l : Tab Nat) (q : List Nat × State), q.2.MemOk →
      (l.foldl (fun q p => q.2.prefetch x l1 (Ty.size ty) p.2 q.1) q).2.MemOk := by
    intro l
    induction l with
    | nil => exact fun _ h => h
    | cons p l ih => exact fun q h => ih _ (State.prefetch_kept _ _ _ _ _ h)
  unfold State.prefetchAll
  dsimp only
  split
  · exact h addr ([], s) hks
  · exact h addr ([], s) hks

theorem prefBody_kept (c : Nat) (f : FnM) (x : Ops) : MKept ((prefBody c f x) : M Unit) := by
  unfold prefBody
  dsimp only
  repeat' first
    | with_reducible refine MKept.getS_bind fun _ _ => ?_
    | with_reducible refine MKept.bind ?_ fun _ => ?_
    | split
  all_goals simp +contextual (maxDischargeDepth := 40) only [*, MKept.modS, implies_true, ownPc_kept, crewM_kept,
      readSrc_kept, traceLanes_kept, emask_kept, State.prefetchAll_kept, traceNoBase_kept]

theorem execPref_kept (f : FnM) (x : Ops) {s : State} (hks : s.MemOk) : OutKept (execPref f x s) := by
  unfold execPref
  simp only [*, implies_true, issueStep_kept, prefBody_kept]

theorem deliver_kept (c : Nat) (body : DWord → M Unit) (hbody : ∀ v, MKept (body v)) :
    MKept ((deliver c body) : M Unit) := by
  unfold deliver
  repeat' first
    | with_reducible refine MKept.bind ?_ fun _ => ?_
    | split
  all_goals simp only [*, MKept.pure, crewM_kept, modC_kept]

theorem twoPhase_kept (c : Nat) (opc : Nat) (x : Ops) (ckpt : Bool) (start : M Park) (body : DWord → M Unit) (hstart :
    MKept start) (hbody : ∀ v, MKept (body v)) :
    MKept ((twoPhase c opc x ckpt start body) : M Unit) := by
  unfold twoPhase
  dsimp only
  repeat' first
    | with_reducible refine MKept.bind ?_ fun _ => ?_
    | split
  all_goals simp only [*, implies_true, crewM_kept, issue_kept, deliver_kept, vsM_kept, modC_kept, park_kept]

theorem runPmap_kept (c : Nat) (x : Ops) : MKept ((runPmap c x) : M Unit) := by
  unfold runPmap
  repeat' with_reducible refine MKept.bind ?_ fun _ => ?_
  all_goals simp +contextual (maxDischargeDepth := 40) only [*, MKept.bind, MKept.pure, implies_true, needPriv_kept,
      twoPhase_kept, readScalar_kept, writeScalar_kept]

theorem execPmap_kept (x : Ops) {s : State} (hks : s.MemOk) : OutKept (execPmap x s) := by
  unfold execPmap
  simp only [*, implies_true, crewStep_kept, runPmap_kept]

theorem runTlbinv_kept (c : Nat) (f : FnM) (x : Ops) : MKept ((runTlbinv c f x) : M Unit) := by
  unfold runTlbinv
  repeat' first
    | with_reducible refine MKept.bind ?_ fun _ => ?_
    | split
  all_goals simp only [*, MKept.bind, MKept.pure, implies_true, needPriv_kept, twoPhase_kept, readScalar_kept]

theorem execTlbinv_kept (f : FnM) (x : Ops) {s : State} (hks : s.MemOk) : OutKept (execTlbinv f x s) := by
  unfold execTlbinv
  simp only [*, implies_true, crewStep_kept, runTlbinv_kept]

theorem acquireM_kept (c : Nat) (scope : Nat) : MKept ((acquireM c scope) : M Unit) := by
  unfold acquireM
  repeat' with_reducible refine MKept.bind ?_ fun _ => ?_
  all_goals simp +contextual (maxDischargeDepth := 40) only [*, MKept.modS, implies_true, crewM_kept,
      State.acquireL1_kept]

theorem runFence_kept (c : Nat) (f : FnM) (x : Ops) : MKept ((runFence c f x) : M Unit) := by
  unfold runFence
  repeat' first
    | with_reducible refine MKept.bind ?_ fun _ => ?_
    | split
  all_goals simp only [*, MKept.pure, matrixFence_kept, issue_kept, acquireM_kept]

theorem execFence_kept (f : FnM) (x : Ops) {s : State} (hks : s.MemOk) : OutKept (execFence f x s) := by
  unfold execFence
  simp only [*, implies_true, crewStep_kept, runFence_kept]

/-! ## Barrier -/

theorem barReturn_kept (c : Nat) (level : Nat) (n : Nat) (x : Ops) : MKept ((barReturn c level n x) : M Unit) := by
  unfold barReturn
  dsimp only
  repeat' first
    | with_reducible refine MKept.getS_bind fun _ _ => ?_
    | with_reducible refine MKept.bind ?_ fun _ => ?_
    | split
  all_goals simp +contextual (maxDischargeDepth := 40) only [*, MKept.modS, implies_true, crewM_kept,
      writeScalar_kept, modC_kept, acquireM_kept, State.thaw_kept]

theorem State.arriveAt_kept {s : State} (c : Nat) (level : Nat) (n : Nat) (hks : s.MemOk) :
    OptKept (State.arriveAt s c level n) := by
  unfold State.arriveAt
  dsimp only
  repeat' split
  all_goals simp +contextual (maxDischargeDepth := 40) only [*, OptKept.some, State.setCrew_kept,
      State.appendLog_kept, State.tryBarrier_kept]

theorem checkBarrier_kept (c : Nat) (level : Nat) : MKept ((checkBarrier c level) : M Unit) := by
  unfold checkBarrier
  repeat' first
    | with_reducible refine MKept.getS_bind fun _ _ => ?_
    | with_reducible refine MKept.bind ?_ fun _ => ?_
    | split
  all_goals simp only [*, MKept.pure, gangM_kept, illop_kept]

theorem barReady_kept (c : Nat) (x : Ops) : MKept ((barReady c x) : M Unit) := by
  unfold barReady
  dsimp only
  repeat' first
    | with_reducible refine MKept.bind ?_ fun _ => ?_
    | split
  all_goals simp only [*, crewM_kept, vsM_kept, matrixFence_kept, park_kept]

theorem arriveOrPark_kept (c : Nat) (level : Nat) (n : Nat) : MKept ((arriveOrPark c level n) : M Unit) := by
  unfold arriveOrPark
  dsimp only
  repeat' first
    | (rename (_ : Option State) = some _ => e
       replace e := OptKept.of_some e (by
           clear e
           simp only [*, State.arriveAt_kept]))
    | with_reducible refine MKept.getS_bind fun _ _ => ?_
    | with_reducible refine MKept.bind ?_ fun _ => ?_
    | split
  all_goals simp only [*, MKept.setS, crewM_kept, park_kept]

theorem runBar_kept (c : Nat) (f : FnM) (x : Ops) : MKept ((runBar c f x) : M Unit) := by
  unfold runBar
  dsimp only
  repeat' first
    | with_reducible refine MKept.getS_bind fun _ _ => ?_
    | with_reducible refine MKept.bind ?_ fun _ => ?_
    | split
  all_goals simp only [*, crewM_kept, modC_kept, issue_kept, barReturn_kept, barReady_kept, checkBarrier_kept,
      arriveOrPark_kept]

theorem execBar_kept (f : FnM) (x : Ops) {s : State} (hks : s.MemOk) : OutKept (execBar f x s) := by
  unfold execBar
  simp only [*, implies_true, crewStep_kept, runBar_kept]

theorem runBara_kept (c : Nat) (f : FnM) (x : Ops) : MKept ((runBara c f x) : M Unit) := by
  unfold runBara
  repeat' with_reducible refine MKept.bind ?_ fun _ => ?_
  all_goals simp only [*, MKept.bind, implies_true, matrixFence_kept, issue_kept, checkBarrier_kept,
      arriveOrPark_kept]

theorem execBara_kept (f : FnM) (x : Ops) {s : State} (hks : s.MemOk) : OutKept (execBara f x s) := by
  unfold execBara
  simp only [*, implies_true, crewStep_kept, runBara_kept]

theorem bodyBarw_kept (c : Nat) (f : FnM) (x : Ops) : MKept ((bodyBarw c f x) : M Unit) := by
  unfold bodyBarw
  dsimp only
  repeat' first
    | with_reducible refine MKept.getS_bind fun _ _ => ?_
    | with_reducible refine MKept.bind ?_ fun _ => ?_
    | split
  all_goals simp only [*, checkBarrier_kept, crewM_kept, barReturn_kept, park_kept]

theorem execBarw_kept (f : FnM) (x : Ops) {s : State} (hks : s.MemOk) : OutKept (execBarw f x s) := by
  unfold execBarw
  simp only [*, implies_true, issueStep_kept, bodyBarw_kept]

/-! ## Agent -/

theorem State.xlatAgent_kept {s : State} (g : Agent) (way : Way) (va : Nat) (n : Nat) (hks : s.MemOk) :
    (State.xlatAgent s g way va n).2.MemOk := by
  unfold State.xlatAgent
  dsimp only
  repeat' first
    | (rename _ = (_, _) => e
       replace e := memOk_snd_of e (by
           clear e
           simp only [*, ite_memOk_iff, implies_true, and_true, State.passWalk_kept, State.translate_kept]))
    | split
  all_goals simp only [*, State.passWalk_kept, State.translate_kept, State.passUnits_kept]

theorem State.readPiece_kept {s : State} (g : Agent) (way : Way) (va n : Nat) (hs : s.MemOk) :
    IoKept (State.readPiece s g way va n) := by
  unfold State.readPiece
  have ht := State.xlatAgent_kept g way va n hs
  generalize s.xlatAgent g way va n = q at ht
  generalize 2 ^ 52 = b0
  generalize (va - winBase) / 0x800000 = k
  generalize (va - winBase) % 0x800000 = off
  extract_lets +lift
  split
  · exact hs
  · split
    · split
      · exact hs
      · next pa _ =>
        have hp := State.passUnits_kept (some g.win.ctx) (pa - winOf k) [(windowKind off, coreInst k, none)] hs
        extract_lets +lift
        split
        · exact hp
        · next t e =>
          refine OptKept.of_some e ?_
          split
          · exact State.chipMark_kept _ _ _ hp
          · exact OptKept.some hp
    · split
      · exact ht
      · exact ht
      · split
        · exact State.linkRecord_kept _ _ _ ht
        · split <;> exact ht

theorem readAll_kept (g : Agent) (way : Way) : ∀ (x2 : Nat) {x3 : State} (x4 x5 : Nat), x3.MemOk →
    IoKept (readAll g way x2 x3 x4 x5)
  | 0, s, _, _, h => h
  | fuel + 1, s, va, n, h => by
    unfold readAll
    dsimp only
    split
    · exact h
    · have hp := State.readPiece_kept g way va (pieceLen va n) h
      cases hr : s.readPiece g way va (pieceLen va n) with
      | ok t bs =>
        have ih := readAll_kept g way fuel (va + pieceLen va n) (n - pieceLen va n) (IoKept.of_ok hr hp)
        dsimp only
        cases hq : readAll g way fuel t (va + pieceLen va n) (n - pieceLen va n) <;> rw [hq] at ih <;> exact ih
      | _ => rw [hr] at hp; exact hp

theorem State.readVa_kept {s : State} (g : Agent) (way : Way) (va : Nat) (n : Nat) (hks : s.MemOk) :
    IoKept (State.readVa s g way va n) := by
  unfold State.readVa
  simp only [*, readAll_kept]

theorem State.writePiece_kept {s : State} (g : Agent) (va : Nat) (bs : List Byte) (hs : s.MemOk) :
    IoKept (State.writePiece s g va bs) := by
  unfold State.writePiece
  have ht := State.xlatAgent_kept g .write va bs.length hs
  generalize 2 ^ 52 = b0
  generalize (va - winBase) / 0x800000 = k
  generalize (va - winBase) % 0x800000 = off
  generalize (2097152 : Nat) = b1
  generalize (2621440 : Nat) = b2
  extract_lets +lift
  split
  · exact hs
  · split
    · split
      · exact hs
      · next pa _ =>
        have hp := State.passUnits_kept (some g.win.ctx) (pa - winOf k) [(windowKind off, coreInst k, none)] hs
        extract_lets +lift
        split
        · split
          · rename_i e
            exact OptKept.of_some e (State.writeEntry_kept _ _ _ _ _ hp)
          · trivial
        · split
          · exact hp
          · next t e =>
            refine State.writeChip_kept _ _ (OptKept.of_some e ?_)
            split
            · exact State.chipMark_kept _ _ _ hp
            · exact OptKept.some hp
    · split
      · exact ht
      · exact ht
      · split
        · exact State.linkRecord_kept _ _ _ ht
        · split
          · exact ht
          · show State.MemOk _
            split
            · exact State.dropLines_kept _ _ _ (State.writeKey_kept _ _ _ ht)
            · exact State.writeKey_kept _ _ _ ht

theorem writeAll_kept (g : Agent) : ∀ (x1 : Nat) {x2 : State} (x3 : Nat) (x4 : List Byte), x2.MemOk →
    IoKept (writeAll g x1 x2 x3 x4)
  | 0, s, _, _, h => h
  | fuel + 1, s, va, bs, h => by
    unfold writeAll
    dsimp only
    split
    · exact h
    · have hp := State.writePiece_kept g va (bs.take (writeLen va bs.length)) h
      cases hr : s.writePiece g va (bs.take (writeLen va bs.length)) with
      | ok t _ => exact writeAll_kept g fuel _ _ (IoKept.of_ok hr hp)
      | _ => rw [hr] at hp; exact hp

theorem State.writeVa_kept {s : State} (g : Agent) (va : Nat) (bs : List Byte) (hks : s.MemOk) :
    IoKept (State.writeVa s g va bs) := by
  unfold State.writeVa
  simp only [*, writeAll_kept]

theorem State.writableAt_kept {s : State} (g : Agent) (va : Nat) (n : Nat) (hks : s.MemOk) :
    IoKept (State.writableAt s g va n) := by
  unfold State.writableAt
  dsimp only
  repeat' split
  all_goals simp only [*, IoKept.ok, IoKept.fail, State.xlatAgent_kept]

theorem writable_kept (g : Agent) :
    ∀ (x1 : Nat) {x2 : State} (x3 x4 : Nat), x2.MemOk → IoKept (writable g x1 x2 x3 x4)
  | 0, s, _, _, h => h
  | fuel + 1, s, va, n, h => by
    unfold writable
    dsimp only
    split
    · exact h
    · have hp := State.writableAt_kept g va (writeLen va n) h
      cases hr : s.writableAt g va (writeLen va n) with
      | ok t _ => exact writable_kept g fuel _ _ (IoKept.of_ok hr hp)
      | _ => rw [hr] at hp; exact hp

theorem liftIo_kept {α : Type} (r : Io α) (p : Park) (lanes : Option Mask) (hr : IoKept r) :
    MKept (liftIo r p lanes : M α) := by
  unfold liftIo
  split
  · exact MKept.bind (MKept.setS hr) fun _ => MKept.pure _
  · refine MKept.bind (MKept.setS hr) fun _ => ?_
    split <;> exact MKept.stop _
  · exact MKept.bind (MKept.setS hr) fun _ => MKept.stop _
  · exact park_kept _

/-! ## Create -/

theorem State.createCrew_kept {s : State} (gk : Nat) (g : Gang) (sl : Nat) (index : Nat) (pc : Addr) (act : Mask)
    (floor : Nat) (hks : s.MemOk) :
    (State.createCrew s gk g sl index pc act floor).2.MemOk := by
  unfold State.createCrew
  dsimp only
  repeat' split
  all_goals simp +contextual (maxDischargeDepth := 40) only [*, memOk_mk_iff, State.MemOk.out, State.setCore_kept,
      State.setCrew_kept]

/-! ## Bins -/

theorem binM_kept (c : Nat) (n : Nat) : MKept ((binM c n) : M Bin) := by
  unfold binM
  repeat' first
    | with_reducible refine MKept.bind ?_ fun _ => ?_
    | split
  all_goals simp only [*, MKept.pure, gangM_kept, illop_kept]

theorem setBin_kept (c : Nat) (n : Nat) (b : Bin) : MKept ((setBin c n b) : M Unit) := by
  unfold setBin
  repeat' with_reducible refine MKept.bind ?_ fun _ => ?_
  all_goals simp +contextual (maxDischargeDepth := 40) only [*, MKept.modS, implies_true, crewM_kept,
      State.modGang_kept]

theorem State.readFrame_kept {s : State} (g : Agent) (fd : Nat) (hks : s.MemOk) :
    IoKept (State.readFrame s g fd) := by
  unfold State.readFrame
  dsimp only
  repeat' first
    | (rename _ = Io.ok _ _ => e
       replace e := IoKept.of_ok e (by
           clear e
           simp only [*, State.readVa_kept]))
    | (rename _ = Io.fail _ _ _ _ => e
       replace e := IoKept.of_fail e (by
           clear e
           simp only [*, State.readVa_kept]))
    | (rename _ = Io.kill _ _ _ _ => e
       replace e := IoKept.of_kill e (by
           clear e
           simp only [*, State.readVa_kept]))
    | split
  all_goals simp only [*, IoKept.ok, IoKept.fail, IoKept.kill, IoKept.wait]

theorem suspLanes_kept (c : Nat) (n : Nat) (cs : List FrameCol) (x3 : List (Fin 32)) (x4 : Bin) :
    MKept ((suspLanes c n cs x3 x4) : M Bin) := by
  induction x3 generalizing x4 <;>
  ( unfold suspLanes
    try dsimp only
    repeat' first
      | with_reducible refine MKept.getS_bind fun _ _ => ?_
      | with_reducible refine MKept.bind ?_ fun _ => ?_
      | with_reducible refine MKept.forIn (fun _ _ => ?_) _ _
      | split
    all_goals simp +contextual (maxDischargeDepth := 40) only [*, foldl_memOk, MKept.pure, MKept.modS, implies_true,
        crewM_kept, gangM_kept, vsM_kept, State.writeChip_kept, liftIo_kept, State.writeVa_kept] )

theorem bodySusp_kept (c : Nat) (x : Ops) : MKept ((bodySusp c x) : M Unit) := by
  unfold bodySusp
  dsimp only
  repeat' first
    | with_reducible refine MKept.getS_bind fun _ _ => ?_
    | with_reducible refine MKept.bind ?_ fun _ => ?_
    | with_reducible refine MKept.forIn (fun _ _ => ?_) _ _
    | split
  all_goals simp only [*, MKept.pure, ownPc_kept, crewM_kept, binM_kept, liftIo_kept, State.readFrame_kept,
      fault_kept, check_kept, lookup_kept, checkReadable_kept, emask_kept, consume_kept, enterNext_kept,
      suspLanes_kept, setBin_kept, leaveLanes_kept, writable_kept, park_kept]

theorem runSusp_kept (c : Nat) (x : Ops) : MKept ((runSusp c x) : M Unit) := by
  unfold runSusp
  repeat' with_reducible refine MKept.bind ?_ fun _ => ?_
  all_goals simp only [*, matrixFence_kept, issue_kept, bodySusp_kept]

theorem execSusp_kept (x : Ops) {s : State} (hks : s.MemOk) : OutKept (execSusp x s) := by
  unfold execSusp
  simp only [*, implies_true, crewStep_kept, runSusp_kept]

theorem bodyWake_kept (c : Nat) (x : Ops) : MKept ((bodyWake c x) : M Unit) := by
  unfold bodyWake
  repeat' first
    | with_reducible refine MKept.bind ?_ fun _ => ?_
    | split
  all_goals simp only [*, MKept.pure, binM_kept, setBin_kept]

theorem execWake_kept (x : Ops) {s : State} (hks : s.MemOk) : OutKept (execWake x s) := by
  unfold execWake
  simp only [*, implies_true, issueStep_kept, bodyWake_kept]

theorem bodyBinq_kept (c : Nat) (k : Nat) (x : Ops) : MKept ((bodyBinq c k x) : M Unit) := by
  unfold bodyBinq
  repeat' with_reducible refine MKept.bind ?_ fun _ => ?_
  all_goals simp only [*, binM_kept, writeScalar_kept]

theorem execBinq_kept (k : BitVec 12) (x : Ops) {s : State} (hks : s.MemOk) : OutKept (execBinq k x s) := by
  unfold execBinq
  simp only [*, implies_true, issueStep_kept, bodyBinq_kept]

theorem killOf_kept {s : State} (g : Gang) (cause : Cause) (kind : Nat) (inst : Nat) (addr : Nat) (hks : s.MemOk) :
    ResumeKept (killOf s g cause kind inst addr) := by
  unfold killOf
  repeat' split
  all_goals simp only [*, ResumeKept.kill]

theorem refill_kept (g : Gang) (gk : Nat) (b : Bin) (x3 : Nat) (x4 : Nat) {x5 : State} (hkx5 : x5.MemOk) :
    IoKept (refill g gk b x3 x4 x5) := by
  induction x3 generalizing x4 x5 <;>
  ( unfold refill
    repeat' first
      | (rename _ = Io.ok _ _ => e
         replace e := IoKept.of_ok e (by
             clear e
             simp only [*, State.readVa_kept]))
      | (rename _ = Io.fail _ _ _ _ => e
         replace e := IoKept.of_fail e (by
             clear e
             simp only [*, State.readVa_kept]))
      | (rename _ = Io.kill _ _ _ _ => e
         replace e := IoKept.of_kill e (by
             clear e
             simp only [*, State.readVa_kept]))
      | split
    all_goals simp only [*, IoKept.ok, IoKept.fail, IoKept.kill, IoKept.wait, State.writeChip_kept] )

theorem State.resumeBin_kept {s : State} (gk : Nat) (n : Nat) (hks : s.MemOk) :
    ResumeKept (State.resumeBin s gk n) := by
  unfold State.resumeBin
  dsimp only
  repeat' first
    | (rename _ = Io.ok _ _ => e
       replace e := IoKept.of_ok e (by
           clear e
           simp +contextual (maxDischargeDepth := 40) only [*, State.readFrame_kept, State.createCrew_kept,
               State.modCrew_kept, refill_kept]))
    | (rename _ = Io.fail _ _ _ _ => e
       replace e := IoKept.of_fail e (by
           clear e
           simp +contextual (maxDischargeDepth := 40) only [*, State.readFrame_kept, State.createCrew_kept,
               State.modCrew_kept, refill_kept]))
    | (rename _ = Io.kill _ _ _ _ => e
       replace e := IoKept.of_kill e (by
           clear e
           simp +contextual (maxDischargeDepth := 40) only [*, State.readFrame_kept, State.createCrew_kept,
               State.modCrew_kept, refill_kept]))
    | split
  all_goals simp +contextual (maxDischargeDepth := 40) only [*, ResumeKept.done, ResumeKept.wait, killOf_kept,
      State.modGang_kept]

theorem bodyResume_kept (c : Nat) (x : Ops) : MKept ((bodyResume c x) : M Unit) := by
  unfold bodyResume
  dsimp only
  repeat' first
    | (rename _ = ResumeRes.done _ _ => e
       replace e := ResumeKept.of_done e (by
           clear e
           simp only [*, State.resumeBin_kept]))
    | (rename _ = ResumeRes.kill _ _ => e
       replace e := ResumeKept.of_kill e (by
           clear e
           simp only [*, State.resumeBin_kept]))
    | with_reducible refine MKept.getS_bind fun _ _ => ?_
    | with_reducible refine MKept.bind ?_ fun _ => ?_
    | split
  all_goals simp only [*, MKept.pure, MKept.stop, MKept.setS, crewM_kept, binM_kept, writeScalar_kept, park_kept,
      State.gangKill_kept]

theorem execResume_kept (x : Ops) {s : State} (hks : s.MemOk) : OutKept (execResume x s) := by
  unfold execResume
  simp only [*, implies_true, issueStep_kept, bodyResume_kept]

theorem execAutomaticResume_kept (g : Nat) (bin : Nat) {s : State} (hks : s.MemOk) :
    OutKept (execAutomaticResume g bin s) := by
  unfold execAutomaticResume
  repeat' first
    | (rename _ = ResumeRes.done _ _ => e
       replace e := ResumeKept.of_done e (by
           clear e
           simp only [*, State.resumeBin_kept]))
    | (rename _ = ResumeRes.kill _ _ => e
       replace e := ResumeKept.of_kill e (by
           clear e
           simp only [*, State.resumeBin_kept]))
    | split
  all_goals simp only [*, OutKept.next, State.passOver_kept, State.gangKill_kept]

theorem bindAll_kept (c : Nat) (x1 : List FrameName) : MKept ((bindAll c x1) : M Unit) := by
  induction x1 <;>
  ( unfold bindAll
    repeat' with_reducible refine MKept.bind ?_ fun _ => ?_
    all_goals simp only [*, MKept.pure, writeName_kept] )

theorem execResumedCrewBind_kept (c : Nat) {s : State} (hks : s.MemOk) : OutKept (execResumedCrewBind c s) := by
  unfold execResumedCrewBind
  repeat' first
    | (rename _ = EStateM.Result.ok _ _ => e
       replace e := ResKept.of_ok e (by
           clear e
           simp only [*, MKept.run, bindAll_kept]))
    | (rename _ = EStateM.Result.error _ _ => e
       replace e := ResKept.of_error e (by
           clear e
           simp only [*, MKept.run, bindAll_kept]))
    | split
  all_goals simp only [*, OutKept.next, State.passOver_kept, State.gangKill_kept, State.modCrew_kept]

/-! ## CrossLane -/

theorem readTid_kept (c : Nat) (x : Ops) : MKept ((readTid c x) : M Nat) := by
  unfold readTid
  repeat' with_reducible refine MKept.bind ?_ fun _ => ?_
  all_goals simp only [*, MKept.pure, readScalar_kept]

theorem bodyCvt_kept (c : Nat) (f : FnT) (x : Ops) : MKept ((bodyCvt c f x) : M Unit) := by
  unfold bodyCvt
  dsimp only
  repeat' with_reducible refine MKept.bind ?_ fun _ => ?_
  all_goals simp only [*, readSrc_kept, readTid_kept, readMerge_kept, emask_kept, storeVec_kept, countStat_kept]

theorem execCvt_kept (f : FnT) (x : Ops) {s : State} (hks : s.MemOk) : OutKept (execCvt f x s) := by
  unfold execCvt
  simp only [*, implies_true, issueStep_kept, bodyCvt_kept]

theorem bodyQnt_kept (c : Nat) (f : FnT) (x : Ops) : MKept ((bodyQnt c f x) : M Unit) := by
  unfold bodyQnt
  repeat' with_reducible refine MKept.bind ?_ fun _ => ?_
  all_goals simp only [*, readSrc_kept, readTid_kept, readMerge_kept, emask_kept, storeVec_kept, countStat_kept]

theorem execQnt_kept (f : FnT) (x : Ops) {s : State} (hks : s.MemOk) : OutKept (execQnt f x s) := by
  unfold execQnt
  simp only [*, implies_true, issueStep_kept, bodyQnt_kept]

theorem readCross_kept (c : Nat) (h : Head) (code : BitVec 8) (wide : Bool) (lanes : Mask → Mask) :
    MKept ((readCross c h code wide lanes) : M Vals) := by
  unfold readCross
  repeat' first
    | with_reducible refine MKept.bind ?_ fun _ => ?_
    | split
  all_goals simp only [*, MKept.pure, emask_kept, readName_kept, readScalar_kept]

theorem bodyDqnt_kept (c : Nat) (f : FnT) (x : Ops) : MKept ((bodyDqnt c f x) : M Unit) := by
  unfold bodyDqnt
  dsimp only
  repeat' first
    | with_reducible refine MKept.bind ?_ fun _ => ?_
    | split
  all_goals simp only [*, readCross_kept, readMerge_kept, emask_kept, crewM_kept, setDeadsrc_kept, storeVec_kept]

theorem execDqnt_kept (f : FnT) (x : Ops) {s : State} (hks : s.MemOk) : OutKept (execDqnt f x s) := by
  unfold execDqnt
  simp only [*, implies_true, issueStep_kept, bodyDqnt_kept]

theorem bodyPack_kept (c : Nat) (f : FnT) (x : Ops) : MKept ((bodyPack c f x) : M Unit) := by
  unfold bodyPack
  repeat' with_reducible refine MKept.bind ?_ fun _ => ?_
  all_goals simp only [*, readSrc_kept, emask_kept, crewM_kept, storeVec_kept]

theorem execPack_kept (f : FnT) (x : Ops) {s : State} (hks : s.MemOk) : OutKept (execPack f x s) := by
  unfold execPack
  simp only [*, implies_true, issueStep_kept, bodyPack_kept]

theorem bodyUnpk_kept (c : Nat) (f : FnT) (x : Ops) : MKept ((bodyUnpk c f x) : M Unit) := by
  unfold bodyUnpk
  dsimp only
  repeat' first
    | with_reducible refine MKept.bind ?_ fun _ => ?_
    | split
  all_goals simp only [*, readCross_kept, emask_kept, crewM_kept, setDeadsrc_kept, storeVec_kept]

theorem execUnpk_kept (f : FnT) (x : Ops) {s : State} (hks : s.MemOk) : OutKept (execUnpk f x s) := by
  unfold execUnpk
  simp only [*, implies_true, issueStep_kept, bodyUnpk_kept]

theorem peekSelector_kept (c : Nat) (x : Ops) : MKept ((peekSelector c x) : M Vals) := by
  unfold peekSelector
  repeat' first
    | with_reducible refine MKept.bind ?_ fun _ => ?_
    | split
  all_goals simp only [*, MKept.pure, crewM_kept, vsM_kept]

theorem bodyShfl_kept (c : Nat) (f : FnT) (x : Ops) : MKept ((bodyShfl c f x) : M Unit) := by
  unfold bodyShfl
  dsimp only
  repeat' first
    | with_reducible refine MKept.bind ?_ fun _ => ?_
    | split
  all_goals simp only [*, peekSelector_kept, readCross_kept, emask_kept, crewM_kept, setDeadsrc_kept, storeVec_kept,
      readSrc_kept]

theorem execShfl_kept (f : FnT) (x : Ops) {s : State} (hks : s.MemOk) : OutKept (execShfl f x s) := by
  unfold execShfl
  simp only [*, implies_true, issueStep_kept, bodyShfl_kept]

theorem storeOne_kept (c : Nat) (x : Ops) (v : Nat) (m : Mask) : MKept ((storeOne c x v m) : M Unit) := by
  unfold storeOne
  repeat' split
  all_goals simp only [*, writeScalar_kept, writeMask_kept, storeVec_kept]

theorem bodyVote_kept (c : Nat) (f : FnT) (x : Ops) : MKept ((bodyVote c f x) : M Unit) := by
  unfold bodyVote
  repeat' with_reducible refine MKept.bind ?_ fun _ => ?_
  all_goals simp only [*, readSrc_kept, emask_kept, storeOne_kept]

theorem execVote_kept (f : FnT) (x : Ops) {s : State} (hks : s.MemOk) : OutKept (execVote f x s) := by
  unfold execVote
  simp only [*, implies_true, issueStep_kept, bodyVote_kept]

theorem bodyLred_kept (c : Nat) (f : FnT) (x : Ops) : MKept ((bodyLred c f x) : M Unit) := by
  unfold bodyLred
  dsimp only
  repeat' first
    | with_reducible refine MKept.bind ?_ fun _ => ?_
    | split
  all_goals simp only [*, readSrc_kept, emask_kept, writeScalar_kept, storeVec_kept]

theorem execLred_kept (f : FnT) (x : Ops) {s : State} (hks : s.MemOk) : OutKept (execLred f x s) := by
  unfold execLred
  simp only [*, implies_true, issueStep_kept, bodyLred_kept]

theorem bodyLscan_kept (c : Nat) (f : FnT) (x : Ops) : MKept ((bodyLscan c f x) : M Unit) := by
  unfold bodyLscan
  repeat' with_reducible refine MKept.bind ?_ fun _ => ?_
  all_goals simp only [*, readSrc_kept, emask_kept, storeVec_kept]

theorem execLscan_kept (f : FnT) (x : Ops) {s : State} (hks : s.MemOk) : OutKept (execLscan f x s) := by
  unfold execLscan
  simp only [*, implies_true, issueStep_kept, bodyLscan_kept]

theorem bodyMatch_kept (c : Nat) (f : FnT) (x : Ops) : MKept ((bodyMatch c f x) : M Unit) := by
  unfold bodyMatch
  repeat' with_reducible refine MKept.bind ?_ fun _ => ?_
  all_goals simp only [*, readSrc_kept, emask_kept, storeVec_kept]

theorem execMatchLanes_kept (f : FnT) (x : Ops) {s : State} (hks : s.MemOk) : OutKept (execMatchLanes f x s) := by
  unfold execMatchLanes
  simp only [*, implies_true, issueStep_kept, bodyMatch_kept]

theorem laneNo_kept (c : Nat) (x : Ops) : MKept ((laneNo c x) : M (Fin 32)) := by
  unfold laneNo
  repeat' first
    | with_reducible refine MKept.bind ?_ fun _ => ?_
    | split
  all_goals simp only [*, MKept.pure, readScalar_kept]

theorem bodyLaneGet_kept (c : Nat) (f : FnT) (x : Ops) : MKept ((bodyLaneGet c f x) : M Unit) := by
  unfold bodyLaneGet
  dsimp only
  repeat' first
    | with_reducible refine MKept.bind ?_ fun _ => ?_
    | split
  all_goals simp only [*, crewM_kept, readCross_kept, laneNo_kept, emask_kept, setDeadsrc_kept, writeScalar_kept,
      storeVec_kept]

theorem bodyLanePut_kept (c : Nat) (f : FnT) (x : Ops) : MKept ((bodyLanePut c f x) : M Unit) := by
  unfold bodyLanePut
  repeat' with_reducible refine MKept.bind ?_ fun _ => ?_
  all_goals simp only [*, readScalar_kept, laneNo_kept, readSrc_kept, emask_kept, storeVec_kept]

theorem execLane_kept (f : FnT) (x : Ops) {s : State} (hks : s.MemOk) : OutKept (execLane f x s) := by
  unfold execLane
  repeat' split
  all_goals simp only [*, implies_true, issueStep_kept, bodyLaneGet_kept, bodyLanePut_kept]

/-! ## Matrix -/

theorem tileM_kept (c : Nat) (h : Nat) : MKept ((tileM c h) : M Nat) := by
  unfold tileM
  dsimp only
  repeat' first
    | with_reducible refine MKept.getS_bind fun _ _ => ?_
    | with_reducible refine MKept.bind ?_ fun _ => ?_
    | split
  all_goals simp only [*, MKept.pure, crewM_kept, fault_kept]

theorem regionM_kept (c : Nat) (off : Nat) (n : Nat) (align : Nat) : MKept ((regionM c off n align) : M Unit) := by
  unfold regionM
  repeat' first
    | with_reducible refine MKept.getS_bind fun _ _ => ?_
    | with_reducible refine MKept.bind ?_ fun _ => ?_
    | split
  all_goals simp only [*, MKept.pure, MKept.stop, gangM_kept]

theorem offsetM_kept (c : Nat) (code : BitVec 8) : MKept ((offsetM c code) : M Nat) := by
  unfold offsetM
  repeat' with_reducible refine MKept.bind ?_ fun _ => ?_
  all_goals simp only [*, MKept.pure, readScalar_kept]

theorem tileWait_kept (c : Nat) (t : Nat) : MKept ((tileWait c t) : M Unit) := by
  unfold tileWait
  repeat' first
    | with_reducible refine MKept.getS_bind fun _ _ => ?_
    | with_reducible refine MKept.bind ?_ fun _ => ?_
    | split
  all_goals simp only [*, MKept.pure, crewM_kept, park_kept]

theorem spadWait_kept (c : Nat) (rs : List (Nat × Nat)) (writes : Bool) :
    MKept ((spadWait c rs writes) : M Unit) := by
  unfold spadWait
  repeat' first
    | with_reducible refine MKept.getS_bind fun _ _ => ?_
    | with_reducible refine MKept.bind ?_ fun _ => ?_
    | split
  all_goals simp only [*, MKept.pure, crewM_kept, park_kept]

theorem enqueueM_kept (c : Nat) (pc : Addr) (t : Nat) (m : Mask) (k : MatKind) :
    MKept ((enqueueM c pc t m k) : M Unit) := by
  unfold enqueueM
  dsimp only
  repeat' first
    | with_reducible refine MKept.getS_bind fun _ _ => ?_
    | with_reducible refine MKept.bind ?_ fun _ => ?_
    | split
  all_goals simp +contextual (maxDischargeDepth := 40) only [*, MKept.modS, implies_true, crewM_kept,
      State.modCore_kept, park_kept]

theorem bodyAclaim_kept (c : Nat) (x : Ops) : MKept ((bodyAclaim c x) : M Unit) := by
  unfold bodyAclaim
  dsimp only
  repeat' first
    | with_reducible refine MKept.getS_bind fun _ _ => ?_
    | with_reducible refine MKept.bind ?_ fun _ => ?_
    | split
  all_goals simp +contextual (maxDischargeDepth := 40) only [*, MKept.modS, implies_true, crewM_kept, check_kept,
      park_kept, State.clearChip_kept, State.modCore_kept, modA_kept]

theorem execAclaim_kept (x : Ops) {s : State} (hks : s.MemOk) : OutKept (execAclaim x s) := by
  unfold execAclaim
  simp only [*, implies_true, issueStep_kept, bodyAclaim_kept]

theorem bodyAfree_kept (c : Nat) (x : Ops) : MKept ((bodyAfree c x) : M Unit) := by
  unfold bodyAfree
  dsimp only
  repeat' first
    | with_reducible refine MKept.getS_bind fun _ _ => ?_
    | with_reducible refine MKept.bind ?_ fun _ => ?_
    | split
  all_goals simp +contextual (maxDischargeDepth := 40) only [*, MKept.modS, implies_true, tileM_kept, tileWait_kept,
      crewM_kept, modA_kept, State.modCore_kept]

theorem execAfree_kept (x : Ops) {s : State} (hks : s.MemOk) : OutKept (execAfree x s) := by
  unfold execAfree
  simp only [*, implies_true, issueStep_kept, bodyAfree_kept]

theorem bodyAzero_kept (c : Nat) (x : Ops) : MKept ((bodyAzero c x) : M Unit) := by
  unfold bodyAzero
  repeat' with_reducible refine MKept.bind ?_ fun _ => ?_
  all_goals simp only [*, ownPc_kept, emask_kept, tileM_kept, tileWait_kept, enqueueM_kept]

theorem execAzero_kept (x : Ops) {s : State} (hks : s.MemOk) : OutKept (execAzero x s) := by
  unfold execAzero
  simp only [*, implies_true, issueStep_kept, bodyAzero_kept]

theorem bodyMma_kept (c : Nat) (x : Ops) : MKept ((bodyMma c x) : M Unit) := by
  unfold bodyMma
  dsimp only
  repeat' first
    | with_reducible refine MKept.bind ?_ fun _ => ?_
    | split
  all_goals simp only [*, MKept.pure, MKept.stop, ownPc_kept, offsetM_kept, emask_kept, tileM_kept, regionM_kept,
      tileWait_kept, spadWait_kept, enqueueM_kept]

theorem execMma_kept (x : Ops) {s : State} (hks : s.MemOk) : OutKept (execMma x s) := by
  unfold execMma
  simp only [*, implies_true, issueStep_kept, bodyMma_kept]

theorem bodyAld_kept (c : Nat) (x : Ops) : MKept ((bodyAld c x) : M Unit) := by
  unfold bodyAld
  repeat' with_reducible refine MKept.bind ?_ fun _ => ?_
  all_goals simp only [*, ownPc_kept, offsetM_kept, emask_kept, tileM_kept, regionM_kept, tileWait_kept,
      spadWait_kept, enqueueM_kept]

theorem execAld_kept (x : Ops) {s : State} (hks : s.MemOk) : OutKept (execAld x s) := by
  unfold execAld
  simp only [*, implies_true, issueStep_kept, bodyAld_kept]

theorem bodyAst_kept (c : Nat) (x : Ops) : MKept ((bodyAst c x) : M Unit) := by
  unfold bodyAst
  repeat' with_reducible refine MKept.bind ?_ fun _ => ?_
  all_goals simp only [*, ownPc_kept, offsetM_kept, emask_kept, tileM_kept, regionM_kept, tileWait_kept,
      spadWait_kept, enqueueM_kept]

theorem execAst_kept (x : Ops) {s : State} (hks : s.MemOk) : OutKept (execAst x s) := by
  unfold execAst
  simp only [*, implies_true, issueStep_kept, bodyAst_kept]

theorem bodyAscl_kept (c : Nat) (x : Ops) : MKept ((bodyAscl c x) : M Unit) := by
  unfold bodyAscl
  repeat' with_reducible refine MKept.bind ?_ fun _ => ?_
  all_goals simp only [*, ownPc_kept, readSrc_kept, emask_kept, tileM_kept, tileWait_kept, enqueueM_kept]

theorem execAscl_kept (x : Ops) {s : State} (hks : s.MemOk) : OutKept (execAscl x s) := by
  unfold execAscl
  simp only [*, implies_true, issueStep_kept, bodyAscl_kept]

theorem bodySelk_kept (c : Nat) (k : Nat) (x : Ops) : MKept ((bodySelk c k x) : M Unit) := by
  unfold bodySelk
  repeat' with_reducible refine MKept.bind ?_ fun _ => ?_
  all_goals simp only [*, ownPc_kept, offsetM_kept, emask_kept, tileM_kept, regionM_kept, tileWait_kept,
      spadWait_kept, enqueueM_kept]

theorem execSelk_kept (k : BitVec 12) (x : Ops) {s : State} (hks : s.MemOk) : OutKept (execSelk k x s) := by
  unfold execSelk
  simp only [*, implies_true, issueStep_kept, bodySelk_kept]

theorem useElems_kept (core : Nat) (pas : List Nat) : MKept ((useElems core pas) : M Unit) := by
  unfold useElems
  repeat' first
    | with_reducible refine MKept.getS_bind fun _ _ => ?_
    | split
  all_goals simp only [*, MKept.pure, MKept.stop]

theorem bodyArd_kept (c : Nat) (f : FnT) (x : Ops) : MKept ((bodyArd c f x) : M Unit) := by
  unfold bodyArd
  dsimp only
  repeat' first
    | with_reducible refine MKept.getS_bind fun _ _ => ?_
    | with_reducible refine MKept.bind ?_ fun _ => ?_
    | split
  all_goals simp only [*, readScalar_kept, emask_kept, tileM_kept, tileWait_kept, crewM_kept, useElems_kept,
      storeVec_kept]

theorem execArd_kept (f : FnT) (x : Ops) {s : State} (hks : s.MemOk) : OutKept (execArd f x s) := by
  unfold execArd
  simp only [*, implies_true, issueStep_kept, bodyArd_kept]

theorem bodyAwr_kept (c : Nat) (f : FnT) (x : Ops) : MKept ((bodyAwr c f x) : M Unit) := by
  unfold bodyAwr
  dsimp only
  repeat' with_reducible refine MKept.bind ?_ fun _ => ?_
  all_goals simp +contextual (maxDischargeDepth := 40) only [*, foldl_memOk, MKept.modS, implies_true, readSrc_kept,
      readScalar_kept, emask_kept, tileM_kept, tileWait_kept, crewM_kept, State.writeChip_kept]

theorem execAwr_kept (f : FnT) (x : Ops) {s : State} (hks : s.MemOk) : OutKept (execAwr f x s) := by
  unfold execAwr
  simp only [*, implies_true, issueStep_kept, bodyAwr_kept]

theorem bodyAstat_kept (c : Nat) (k : Nat) (x : Ops) : MKept ((bodyAstat c k x) : M Unit) := by
  unfold bodyAstat
  dsimp only
  repeat' first
    | with_reducible refine MKept.getS_bind fun _ _ => ?_
    | with_reducible refine MKept.bind ?_ fun _ => ?_
    | split
  all_goals simp only [*, crewM_kept, gangM_kept, writeScalar_kept, park_kept]

theorem execAstat_kept (k : BitVec 12) (x : Ops) {s : State} (hks : s.MemOk) : OutKept (execAstat k x s) := by
  unfold execAstat
  simp only [*, implies_true, issueStep_kept, bodyAstat_kept]

theorem State.mmaRun_kept {s : State} (v : State) (p : MmaPlace) (rows : List Nat) (hks : s.MemOk) :
    ExcKept Prod.fst (State.mmaRun s v p rows) := by
  unfold State.mmaRun
  dsimp only
  repeat' first
    | split
    | with_reducible exact ExcKept.error
    | with_reducible refine ExcKept.ok ?_
  all_goals simp +contextual (maxDischargeDepth := 40) only [*, foldl_fst_memOk, implies_true, State.writeChip_kept]

theorem State.asclRow_kept {s : State} (core : Nat) (t : Nat) (r : Nat) (k : Word) (hks : s.MemOk) :
    (State.asclRow s core t r k).MemOk := by
  unfold State.asclRow
  dsimp only
  simp only [*, State.writeChip_kept]

theorem State.writeRest_kept {s : State} (did : List Nat) (pa : Nat) (bs : List Byte) (hks : s.MemOk) :
    (State.writeRest s did pa bs).MemOk := by
  unfold State.writeRest
  split
  · exact State.writeChip_kept _ _ hks
  · refine foldl_memOk _ (fun t i h => ?_) _ hks
    split
    · exact h
    · exact State.writeChip_kept _ _ h

theorem State.matRun_kept {s : State} (core : Nat) (spad : Nat) (o : MatOp) (hks : s.MemOk) :
    ExcKept Prod.fst (State.matRun s core spad o) := by
  unfold State.matRun
  dsimp only
  repeat' first
    | split
    | with_reducible refine foldl_memOk _ (fun _ _ _ => ?_) _ ?_
    | with_reducible exact ExcKept.error
    | with_reducible refine ExcKept.ok ?_
  all_goals simp only [*, State.clearChip_kept, State.writeChip_kept, State.writeRest_kept, State.asclRow_kept,
      State.mmaRun_kept]

/-! ## Launch -/

theorem State.newGrid_kept {s : State} (ctx : Nat) (r : List Byte) (binTab : List Byte) (priv : BitVec 2) (parent :
    Option Nat) (pool : Option Nat) (queue : Option Nat) (unit : Nat) (hks : s.MemOk) :
    (State.newGrid s ctx r binTab priv parent pool queue unit).2.MemOk := by
  unfold State.newGrid
  dsimp only
  simp +contextual (maxDischargeDepth := 40) only [*, memOk_mk_iff, State.MemOk.out, State.setGrid_kept,
      State.modCtx_kept]

/-! ## Pages -/

theorem State.answer_kept {s : State} (c : Nat) (v : DWord) (hks : s.MemOk) : (State.answer s c v).MemOk := by
  unfold State.answer
  simp only [*, State.modCrew_kept]

theorem execPmapComplete_kept (c : Nat) {s : State} (hks : s.MemOk) : OutKept (execPmapComplete c s) := by
  unfold execPmapComplete
  repeat' first
    | (rename _ = MapRes.mapped _ _ => e
       replace e := MapKept.of_mapped e (by
           clear e
           simp +contextual (maxDischargeDepth := 40) only [*, State.mapPage_kept]))
    | split
  all_goals simp +contextual (maxDischargeDepth := 40) only [*, memOk_mk_iff, State.MemOk.out, OutKept.next,
      State.passOver_kept, State.answer_kept, State.gangKill_kept]

theorem execTlbinvComplete_kept (c : Nat) {s : State} (hks : s.MemOk) : OutKept (execTlbinvComplete c s) := by
  unfold execTlbinvComplete
  dsimp only
  repeat' split
  all_goals simp +contextual (maxDischargeDepth := 40) only [*, OutKept.next, State.passOver_kept, State.answer_kept,
      State.purgeTlb_kept]

theorem execCtxroot_kept (ctx : Nat) (v : DWord) {s : State} (hks : s.MemOk) : OutKept (execCtxroot ctx v s) := by
  unfold execCtxroot
  dsimp only
  repeat' split
  all_goals simp +contextual (maxDischargeDepth := 40) only [*, OutKept.next, State.passOver_kept,
      State.purgeTlb_kept, State.modCtx_kept]

theorem State.copyPiece_kept {s : State} (key : Nat) (fromPa : Nat) (toPa : Nat) (hks : s.MemOk) :
    (State.copyPiece s key fromPa toPa).MemOk := by
  unfold State.copyPiece
  dsimp only
  simp only [*, memOk_mk_iff, State.MemOk.out, State.writeKey_kept]

theorem copyPieces_kept (key : Nat) (target : Nat) (x2 : Nat) (x3 : List Nat) {x4 : State} (hkx4 : x4.MemOk) :
    (copyPieces key target x2 x3 x4).MemOk := by
  induction x3 generalizing x2 x4 <;>
  ( unfold copyPieces
    all_goals simp only [*, State.copyPiece_kept] )

theorem writeLeaves_kept (ctx : Nat) (leaf : Nat) (va : Nat) (v : Nat) (x4 : Nat) {x5 : State} (hkx5 : x5.MemOk) :
    (writeLeaves ctx leaf va v x4 x5).MemOk := by
  induction x4 generalizing x5 <;>
  ( unfold writeLeaves
    all_goals simp only [*, State.writePte_kept] )

theorem execPromoteRange_kept (ctx : Nat) (va : Nat) (big : Bool) (target : Nat) (interfered : Bool) {s : State}
    (hs : s.MemOk) : OutKept (execPromoteRange ctx va big target interfered s) := by
  unfold execPromoteRange
  have hp : OutKept s.passOver := State.passOver_kept hs
  generalize (if big = true then 0x2000000 else 0x200000) = size
  extract_lets n die fs inRange s1 s2
  split
  · exact hp
  · split
    · exact hp
    · extract_lets leaf
      split
      · exact hp
      · exact hp
      · extract_lets
        split
        · exact hp
        · split
          · exact OutKept.next (State.purgeTlb_kept _ hs)
          · exact OutKept.next (State.setPool_kept _ _ (writeLeaves_kept _ _ _ _ _ (copyPieces_kept _ _ _ _
              (State.dropRange_kept _ _ (State.setPool_kept _ _ (State.purgeTlb_kept _ hs))))))

/-! ## Swap -/

theorem State.noteRun_kept {s : State} (ctx : Nat) (hks : s.MemOk) : (State.noteRun s ctx).MemOk := by
  unfold State.noteRun
  simp only [*, State.modCtx_kept]

theorem State.liftCrew_kept {s : State} (c : Nat) (keep : Nat → Bool) (home : Home) (hks : s.MemOk) :
    (State.liftCrew s c keep home).MemOk := by
  unfold State.liftCrew
  dsimp only
  repeat' split
  all_goals simp +contextual (maxDischargeDepth := 40) only [*, State.noteRun_kept, State.setCore_kept,
      State.setCrew_kept]

theorem State.landCrew_kept {s : State} (c : Nat) (core : Nat) (sl : Nat) (hks : s.MemOk) :
    OptKept (State.landCrew s c core sl) := by
  unfold State.landCrew
  dsimp only
  repeat' first
    | split
    | with_reducible refine foldl_memOk _ (fun _ _ _ => ?_) _ ?_
    | with_reducible exact OptKept.none
    | with_reducible refine OptKept.some ?_
  all_goals simp +contextual (maxDischargeDepth := 40) only [*, memOk_mk_iff, State.MemOk.out, State.setCore_kept,
      State.setCrew_kept, State.putImage_kept]

theorem State.saveGang_kept {s : State} (gk : Nat) (home : GangHome) (hks : s.MemOk) :
    (State.saveGang s gk home).MemOk := by
  unfold State.saveGang
  dsimp only
  split
  · exact hks
  · have h1 := foldl_memOk (fun (t : State) c => t.liftCrew c (match t.crew? c with
      | some x => x.keepsTile
      | none => fun _ => true) .saved) (fun t c h => State.liftCrew_kept c _ _ h) (s.gangResidents gk) hks
    split
    · next e => exact TryKept.of_ok e (State.spillGang_kept _ _ (State.modGang_kept _ _ h1))
    · next e => exact State.gangKill_kept _ _ (TryKept.of_error e (State.spillGang_kept _ _ (State.modGang_kept _ _ h1)))

theorem State.holdSlots_kept {s : State} (gk : Nat) (hks : s.MemOk) : (State.holdSlots s gk).MemOk := by
  unfold State.holdSlots
  dsimp only
  repeat' first
    | split
    | with_reducible refine foldl_memOk _ (fun _ _ _ => ?_) _ ?_
  all_goals simp only [*, State.modCore_kept]

theorem landAll_kept (g : Gang) (x1 : List Nat) {x2 : State} (hkx2 : x2.MemOk) : OptKept (landAll g x1 x2) := by
  induction x1 generalizing x2 <;>
  ( unfold landAll
    repeat' first
      | (rename (_ : Option State) = some _ => e
         replace e := OptKept.of_some e (by
             clear e
             simp only [*, State.landCrew_kept]))
      | split
    all_goals simp only [*, OptKept.some, OptKept.none] )

theorem State.noteRest_kept {s : State} (gk : Nat) (g : Gang) (hks : s.MemOk) : (State.noteRest s gk g).MemOk := by
  unfold State.noteRest
  exact foldl_memOk _ (fun t x h => State.noteCrewImage_kept x h) _ (State.noteGangImage_kept g hks)

theorem State.landGang_kept {s : State} (gk : Nat) (hks : s.MemOk) : OptKept (State.landGang s gk) := by
  unfold State.landGang
  dsimp only
  repeat' first
    | split
    | with_reducible exact OptKept.none
    | with_reducible refine OptKept.some ?_
  all_goals simp +contextual (maxDischargeDepth := 40) only [*, foldl_memOk, implies_true, OptKept.map,
      State.gangKill_kept, State.putImage_kept, State.setGang_kept, State.holdSlots_kept, State.modCrew_kept,
      landAll_kept, State.noteRest_kept]

theorem State.replayWrite_kept {s : State} (ctx : Nat) (core : Nat) (entry : Nat) (n : Nat) (word : Nat) (v : Nat)
    (hks : s.MemOk) :
    (State.replayWrite s ctx core entry n word v).MemOk := by
  unfold State.replayWrite
  repeat' split
  all_goals simp only [*, State.respill_kept, State.modCrew_kept, State.modCore_kept]

theorem State.replayBarrier_kept {s : State} (ctx : Nat) (level : Nat) (n : Nat) (phase : Nat) (gid : Nat) (hks :
    s.MemOk) :
    (State.replayBarrier s ctx level n phase gid).MemOk := by
  unfold State.replayBarrier
  repeat' first
    | split
    | with_reducible refine foldl_memOk _ (fun _ _ _ => ?_) _ ?_
  all_goals simp only [*, State.bumpPhase_kept]

theorem State.replayRecord_kept {s : State} (ctx : Nat) (r : List Byte) (hks : s.MemOk) :
    (State.replayRecord s ctx r).MemOk := by
  unfold State.replayRecord
  dsimp only
  repeat' split
  all_goals simp only [*, State.replayWrite_kept, State.replayBarrier_kept]

theorem replayN_kept (ctx : Nat) (x1 : Nat) {x2 : State} (hkx2 : x2.MemOk) : TryKept (replayN ctx x1 x2) := by
  induction x1 generalizing x2 with
  | zero => exact hkx2
  | succ n ih =>
    unfold replayN
    dsimp only
    split
    · exact State.noteSys_kept _ _ _ _ hkx2
    · exact ih (State.modCtx_kept _ _ (State.replayRecord_kept _ _ hkx2))

theorem State.dropOldNumbers_kept {s : State} (hks : s.MemOk) : (State.dropOldNumbers s).MemOk := hks

theorem State.replayLog_kept {s : State} (ctx : Nat) (hks : s.MemOk) : TryKept (State.replayLog s ctx) := by
  unfold State.replayLog
  exact (replayN_kept _ _ hks).map fun _ h => State.dropOldNumbers_kept h

theorem State.bstackFails_kept {s : State} (ctx : Nat) (core : Nat) (p : GangHome → Bool) (hks : s.MemOk) :
    (State.bstackFails s ctx core p).MemOk := by
  unfold State.bstackFails
  repeat' with_reducible refine foldl_memOk _ (fun _ _ _ => ?_) _ ?_
  all_goals simp only [*, State.gangKill_kept]

theorem State.putBstack_kept {s : State} (ctx : Nat) (core : Nat) (hks : s.MemOk) :
    (State.putBstack s ctx core).MemOk := by
  unfold State.putBstack
  have h := State.saveBstack_kept ctx core hks
  split
  · next e => exact TryKept.of_ok e h
  · next e => exact State.bstackFails_kept _ _ _ (TryKept.of_error e h)

theorem State.loadBstack_kept {s : State} (ctx : Nat) (core : Nat) (p : GangHome → Bool) (hks : s.MemOk) :
    (State.loadBstack s ctx core p).MemOk := by
  unfold State.loadBstack
  dsimp only
  repeat' split
  all_goals simp +contextual (maxDischargeDepth := 40) only [*, State.modCtx_kept, State.putImage_kept,
      State.bstackFails_kept, State.noteBstack_kept]

theorem State.trySwapOut_kept {s : State} (gk : Nat) (hks : s.MemOk) : (State.trySwapOut s gk).MemOk := by
  unfold State.trySwapOut
  dsimp only
  repeat' split
  all_goals simp only [*, State.putBstack_kept, State.saveGang_kept]

/-! ## MatrixDone -/

theorem execMatrixInstructionComplete_kept (core : Nat) {s : State} (hks : s.MemOk) :
    OutKept (execMatrixInstructionComplete core s) := by
  unfold execMatrixInstructionComplete
  dsimp only
  repeat' first
    | (rename _ = Except.ok _ => e
       replace e := ExcKept.of_ok (p := Prod.fst) e (by
           clear e
           simp +contextual (maxDischargeDepth := 40) only [*, foldl_memOk, implies_true, State.modCore_kept,
               State.canaryHit_kept, State.matRun_kept])
       try dsimp only [id] at e)
    | split
    | with_reducible refine OutKept.next ?_
  all_goals simp +contextual (maxDischargeDepth := 40) only [*, foldl_memOk, implies_true, State.passOver_kept,
      State.modCore_kept, State.canaryHit_kept, State.gangKill_kept, State.modGang_kept, State.trySwapOut_kept]

/-! ## Lifecycle -/

theorem execTakeTrap_kept (c : Nat) (cause : BitVec 8) (addr : DWord) (lanes : Mask) {s : State} (hks : s.MemOk) :
    OutKept (execTakeTrap c cause addr lanes s) := by
  unfold execTakeTrap
  repeat' split
  all_goals simp only [*, OutKept.next, State.passOver_kept, State.takeTrap_kept]

theorem execGangKill_kept (g : Nat) (cause : BitVec 8) (addr : DWord) {s : State} (hks : s.MemOk) :
    OutKept (execGangKill g cause addr s) := by
  unfold execGangKill
  repeat' split
  all_goals simp only [*, OutKept.next, State.passOver_kept, State.gangKill_kept]

theorem execCrewRetire_kept (c : Nat) {s : State} (hks : s.MemOk) : OutKept (execCrewRetire c s) := by
  unfold execCrewRetire
  dsimp only
  repeat' split
  all_goals simp +contextual (maxDischargeDepth := 40) only [*, memOk_mk_iff, State.MemOk.out, OutKept.next,
      State.passOver_kept, State.modCore_kept, State.settle_kept, State.thaw_kept, State.trySwapOut_kept,
      State.noteRun_kept, State.tryBarriers_kept]

theorem execGangRetire_kept (g : Nat) {s : State} (hks : s.MemOk) : OutKept (execGangRetire g s) := by
  unfold execGangRetire
  dsimp only
  repeat' split
  all_goals simp +contextual (maxDischargeDepth := 40) only [*, memOk_mk_iff, State.MemOk.out, OutKept.next,
      State.passOver_kept, State.modGrid_kept, State.drained_kept]

theorem execCrewEvict_kept (core : Nat) {s : State} (hks : s.MemOk) : OutKept (execCrewEvict core s) := by
  unfold execCrewEvict
  dsimp only
  repeat' split
  · exact State.passOver_kept hks
  · exact State.passOver_kept hks
  · exact State.passOver_kept hks
  · next e =>
    exact OutKept.next (State.gangKill_kept _ _ (TryKept.of_error e (State.spillCrew_kept _ (State.liftCrew_kept _ _ _ hks))))
  · next e =>
    exact OutKept.next (State.trySwapOut_kept _ (TryKept.of_ok e (State.spillCrew_kept _ (State.liftCrew_kept _ _ _ hks))))

theorem execCrewRestore_kept (c : Nat) (slot : Nat) {s : State} (hks : s.MemOk) :
    OutKept (execCrewRestore c slot s) := by
  unfold execCrewRestore
  dsimp only
  repeat' first
    | (rename (_ : Option State) = some _ => e
       replace e := OptKept.of_some e (by
           clear e
           simp only [*, State.landCrew_kept]))
    | split
  all_goals simp +contextual (maxDischargeDepth := 40) only [*, OutKept.next, State.passOver_kept, State.gangKill_kept,
      State.modCrew_kept, State.noteCrewImage_kept]

theorem execGangSwapIn_kept (g : Nat) {s : State} (hks : s.MemOk) : OutKept (execGangSwapIn g s) := by
  unfold execGangSwapIn
  dsimp only
  repeat' first
    | (rename (_ : Option State) = some _ => e
       replace e := OptKept.of_some e (by
           clear e
           simp only [*, ite_memOk_iff, implies_true, and_true, State.loadBstack_kept, State.landGang_kept]))
    | split
  all_goals first
    | (rename (_ : Except State State) = Except.ok _ => e
       exact OutKept.next (State.noteRun_kept _ (State.tryBarriers_kept _ (TryKept.of_ok e
         (State.replayLog_kept _ (by assumption))))))
    | (rename (_ : Except State State) = Except.error _ => e
       exact OutKept.next (State.gangKill_kept _ _ (TryKept.of_error e (State.replayLog_kept _ (by assumption)))))
    | simp only [*, OutKept.next, State.passOver_kept, State.holdSlots_kept]

end Sys2Proof.Machine
end

