-- ==== Sys2Proof/Laws/KeptEngines.lean ====
section
/-!
SUPPORT. Laws/KeptEngines.lean: what keeps memory in its canonical form:
queues, grids, preemption, debug, the engines and the performing of accesses.
-/

open Sys2Proof

namespace Sys2Proof.Machine

/-! ## QueueOps -/

theorem State.queueHead_kept {s : State} (x : Crew) (va : Nat) (hks : s.MemOk) :
    QueueKept (State.queueHead s x va) := by
  unfold State.queueHead
  dsimp only
  repeat' split
  all_goals simp +contextual (maxDischargeDepth := 40) only [*, QueueKept.ok, QueueKept.trap, QueueKept.kill,
      State.translate_kept, State.notePoison_kept, State.dropLine_kept]

theorem State.itemRes_kept {α : Type} {s : State} (r : Io α) (ctx : Nat) (hks : s.MemOk) (hr : IoKept r) :
    QueueKept (State.itemRes s r ctx) := by
  unfold State.itemRes
  repeat' first
    | (dsimp only [IoKept] at hr)
    | split
  all_goals simp only [*, QueueKept.ok, QueueKept.trap, QueueKept.kill, State.notePoison_kept]

theorem State.takeItem_kept {s : State} (x : Crew) (va : Nat) (hks : s.MemOk) :
    QueueKept (State.takeItem s x va) := by
  unfold State.takeItem
  repeat' first
    | (rename _ = QueueRes.ok _ _ => e
       replace e := QueueKept.of_ok e (by
           clear e
           simp only [*, State.queueHead_kept, State.itemRes_kept, State.readVa_kept]))
    | (rename _ = QueueRes.trap _ _ _ => e
       replace e := QueueKept.of_trap e (by
           clear e
           simp only [*, State.queueHead_kept, State.itemRes_kept, State.readVa_kept]))
    | (rename _ = QueueRes.kill _ _ _ _ => e
       replace e := QueueKept.of_kill e (by
           clear e
           simp only [*, State.queueHead_kept, State.itemRes_kept, State.readVa_kept]))
    | split
  all_goals simp only [*, QueueKept.ok, QueueKept.trap, QueueKept.kill, State.writeKey_kept]

theorem State.addItem_kept {s : State} (x : Crew) (va : Nat) (v : DWord) (hks : s.MemOk) :
    QueueKept (State.addItem s x va v) := by
  unfold State.addItem
  repeat' first
    | (rename _ = QueueRes.ok _ _ => e
       replace e := QueueKept.of_ok e (by
           clear e
           simp only [*, State.queueHead_kept, State.itemRes_kept, State.writeVa_kept]))
    | (rename _ = QueueRes.trap _ _ _ => e
       replace e := QueueKept.of_trap e (by
           clear e
           simp only [*, State.queueHead_kept, State.itemRes_kept, State.writeVa_kept]))
    | (rename _ = QueueRes.kill _ _ _ _ => e
       replace e := QueueKept.of_kill e (by
           clear e
           simp only [*, State.queueHead_kept, State.itemRes_kept, State.writeVa_kept]))
    | split
  all_goals simp only [*, QueueKept.ok, QueueKept.trap, QueueKept.kill, State.writeKey_kept]

theorem serveLine_kept (x0 : Nat) (x1 : Nat) {x2 : State} (hkx2 : x2.MemOk) : (serveLine x0 x1 x2).MemOk := by
  induction x0 generalizing x1 x2 <;>
  ( unfold serveLine
    repeat' first
      | (rename _ = QueueRes.ok _ _ => e
         replace e := QueueKept.of_ok e (by
             clear e
             simp +contextual (maxDischargeDepth := 40) only [*, State.takeItem_kept]))
      | split
    all_goals simp +contextual (maxDischargeDepth := 40) only [*, memOk_mk_iff, State.MemOk.out, State.modCrew_kept] )

theorem liftQueue_kept {α : Type} (c : Nat) (r : QueueRes α) (hr : QueueKept r) : MKept ((liftQueue c r) : M α) := by
  unfold liftQueue
  repeat' first
    | (dsimp only [QueueKept] at hr)
    | with_reducible refine MKept.bind ?_ fun _ => ?_
    | split
  all_goals simp only [*, MKept.pure, MKept.stop, MKept.setS, memOk_mk_iff, State.MemOk.out]

theorem joinLine_kept (w : Waiter) {s : State} (hks : s.MemOk) : (joinLine w s).MemOk := by
  unfold joinLine
  repeat' split
  all_goals simp only [*, memOk_mk_iff, State.MemOk.out]

theorem State.faultWaiter_kept {s : State} (w : Waiter) (cause : Cause) (hks : s.MemOk) :
    (State.faultWaiter s w cause).MemOk := by
  unfold State.faultWaiter
  dsimp only
  repeat' split
  all_goals simp +contextual (maxDischargeDepth := 40) only [*, memOk_mk_iff, State.MemOk.out, State.notePoison_kept,
      State.respill_kept, State.takeTrap_kept]

theorem State.faultWaiters_kept {s : State} (hks : s.MemOk) : (State.faultWaiters s).MemOk := by
  unfold State.faultWaiters
  repeat' first
    | split
    | with_reducible refine foldl_memOk _ (fun _ _ _ => ?_) _ ?_
  all_goals simp only [*, State.faultWaiter_kept]

theorem thenWaiters_kept (r : Host.Outcome State Fault Refusal) (hr : OutKept r) : OutKept (thenWaiters r) := by
  unfold thenWaiters
  split
  · exact OutKept.next (State.faultWaiters_kept (OutKept.of_next rfl hr))
  all_goals exact hr

theorem endDeq_kept (c : Nat) (x : Ops) (v : DWord) : MKept ((endDeq c x v) : M Unit) := by
  unfold endDeq
  repeat' with_reducible refine MKept.bind ?_ fun _ => ?_
  all_goals simp only [*, acquireM_kept, writeScalar_kept]

theorem runDeq_kept (c : Nat) (x : Ops) : MKept ((runDeq c x) : M Unit) := by
  unfold runDeq
  dsimp only
  repeat' first
    | with_reducible refine MKept.getS_bind fun _ _ => ?_
    | with_reducible refine MKept.bind ?_ fun _ => ?_
    | split
  all_goals simp +contextual (maxDischargeDepth := 40) only [*, MKept.modS, implies_true, crewM_kept, issue_kept,
      deliver_kept, endDeq_kept, vsM_kept, readScalar_kept, emask_kept, liftQueue_kept, State.queueHead_kept,
      joinLine_kept, serveLine_kept, modC_kept, State.takeItem_kept, park_kept]

theorem execDeq_kept (x : Ops) {s : State} (hks : s.MemOk) : OutKept (execDeq x s) := by
  unfold execDeq
  simp only [*, implies_true, crewStep_kept, runDeq_kept]

theorem bodyEnq_kept (c : Nat) (x : Ops) : MKept ((bodyEnq c x) : M Unit) := by
  unfold bodyEnq
  dsimp only
  repeat' first
    | with_reducible refine MKept.getS_bind fun _ _ => ?_
    | with_reducible refine MKept.bind ?_ fun _ => ?_
    | split
  all_goals simp +contextual (maxDischargeDepth := 40) only [*, MKept.modS, implies_true, readScalar_kept, crewM_kept,
      liftQueue_kept, State.queueHead_kept, State.addItem_kept, park_kept, writeScalar_kept, serveLine_kept]

theorem runEnq_kept (c : Nat) (x : Ops) : MKept ((runEnq c x) : M Unit) := by
  unfold runEnq
  repeat' with_reducible refine MKept.bind ?_ fun _ => ?_
  all_goals simp only [*, matrixFence_kept, issue_kept, bodyEnq_kept]

theorem execEnq_kept (x : Ops) {s : State} (hks : s.MemOk) : OutKept (execEnq x s) := by
  unfold execEnq
  simp only [*, implies_true, crewStep_kept, runEnq_kept]

theorem placeChild_kept (c : Nat) (x : Ops) (parent : Nat) (i : Nat) (q : Nat × State) (hq : q.2.MemOk) :
    MKept ((placeChild c x parent i q) : M Unit) := by
  unfold placeChild
  dsimp only
  repeat' first
    | with_reducible refine MKept.getS_bind fun _ _ => ?_
    | with_reducible refine MKept.bind ?_ fun _ => ?_
  all_goals simp only [*, MKept.setS, memOk_mk_iff, State.MemOk.out, writeScalar_kept]

theorem refuseChild_kept (c : Nat) (x : Ops) (full : Bool) (bad : Bool) :
    MKept ((refuseChild c x full bad) : M Unit) := by
  unfold refuseChild
  repeat' first
    | with_reducible refine MKept.getS_bind fun _ _ => ?_
    | with_reducible refine MKept.bind ?_ fun _ => ?_
  all_goals simp +contextual (maxDischargeDepth := 40) only [*, MKept.modS, memOk_mk_iff, State.MemOk.out,
      implies_true, writeScalar_kept]

theorem endLaunch_kept (c : Nat) (x : Ops) (g : Gang) (l : Grid) (r : List Byte) :
    MKept ((endLaunch c x g l r) : M Unit) := by
  unfold endLaunch
  with_reducible refine MKept.getS_bind fun t ht => ?_
  generalize t.freePoolSlot = a
  generalize t.checkRecord g.ctx l.priv.toNat r = b
  split
  · exact placeChild_kept _ _ _ _ _ (State.newGrid_kept _ _ _ _ _ _ _ _ ht)
  · exact refuseChild_kept _ _ _ _

theorem bodyLaunch_kept (c : Nat) (x : Ops) : MKept ((bodyLaunch c x) : M Unit) := by
  unfold bodyLaunch
  dsimp only
  repeat' first
    | with_reducible refine MKept.getS_bind fun _ _ => ?_
    | with_reducible refine MKept.bind ?_ fun _ => ?_
    | split
  all_goals simp only [*, MKept.stop, readScalar_kept, crewM_kept, gangM_kept, liftIo_kept, State.readVa_kept,
      endLaunch_kept]

theorem runLaunch_kept (c : Nat) (x : Ops) : MKept ((runLaunch c x) : M Unit) := by
  unfold runLaunch
  repeat' with_reducible refine MKept.bind ?_ fun _ => ?_
  all_goals simp only [*, matrixFence_kept, issue_kept, bodyLaunch_kept]

theorem execLaunch_kept (x : Ops) {s : State} (hks : s.MemOk) : OutKept (execLaunch x s) := by
  unfold execLaunch
  simp only [*, implies_true, crewStep_kept, runLaunch_kept]

theorem State.freePoolAt_kept {s : State} (i : Nat) (hks : s.MemOk) : (State.freePoolAt s i).MemOk := by
  unfold State.freePoolAt
  dsimp only
  simp only [*, memOk_mk_iff, State.MemOk.out]

theorem endJoin_kept (c : Nat) (x : Ops) (v : DWord) : MKept ((endJoin c x v) : M Unit) := by
  unfold endJoin
  repeat' with_reducible refine MKept.bind ?_ fun _ => ?_
  all_goals simp only [*, acquireM_kept, writeScalar_kept]

theorem joinChild_kept (c : Nat) (x : Ops) (gk : Nat) : MKept ((joinChild c x gk) : M Unit) := by
  unfold joinChild
  repeat' first
    | with_reducible refine MKept.getS_bind fun _ _ => ?_
    | with_reducible refine MKept.bind ?_ fun _ => ?_
    | split
  all_goals simp +contextual (maxDischargeDepth := 40) only [*, MKept.modS, memOk_mk_iff, State.MemOk.out,
      implies_true, readScalar_kept, gangM_kept, issue_kept, endJoin_kept, State.freePoolAt_kept, modC_kept,
      State.trySwapOut_kept]

theorem runLjoin_kept (c : Nat) (x : Ops) : MKept ((runLjoin c x) : M Unit) := by
  unfold runLjoin
  dsimp only
  repeat' first
    | with_reducible refine MKept.bind ?_ fun _ => ?_
    | split
  all_goals simp only [*, implies_true, crewM_kept, issue_kept, deliver_kept, endJoin_kept, vsM_kept, joinChild_kept,
      park_kept]

theorem execLjoin_kept (x : Ops) {s : State} (hks : s.MemOk) : OutKept (execLjoin x s) := by
  unfold execLjoin
  simp only [*, implies_true, crewStep_kept, runLjoin_kept]

/-! ## Grids -/

theorem State.writeOrLose_kept {s : State} (ctx : Nat) (va : Nat) (bs : List Byte) (hks : s.MemOk) :
    (State.writeOrLose s ctx va bs).MemOk := by
  unfold State.writeOrLose
  repeat' first
    | (rename (_ : Except _ State) = Except.ok _ => e
       replace e := ExcKept.of_ok (p := id) e (by
           clear e
           simp only [*, State.writeSys_kept])
       try dsimp only [id] at e)
    | split
  all_goals simp only [*, State.noteSys_kept]

theorem State.writeStats_kept {s : State} (g : Grid) (hks : s.MemOk) : (State.writeStats s g).MemOk := by
  unfold State.writeStats
  dsimp only
  repeat' first
    | split
    | with_reducible refine foldl_memOk _ (fun _ _ _ => ?_) _ ?_
  all_goals simp only [*, State.writeOrLose_kept]

theorem State.writeCompl_kept {s : State} (g : Grid) (status : Nat) (cause : Nat) (reject : Bool) (hks : s.MemOk) :
    (State.writeCompl s g status cause reject).MemOk := by
  unfold State.writeCompl
  dsimp only
  repeat' split
  all_goals simp only [*, memOk_mk_iff, State.MemOk.out, State.writeOrLose_kept]

theorem State.noteBack_kept {s : State} (hks : s.MemOk) : (State.noteBack s).MemOk := by
  unfold State.noteBack
  repeat' first
    | split
    | with_reducible refine foldl_memOk _ (fun _ _ _ => ?_) _ ?_
  all_goals simp only [*, memOk_mk_iff, State.MemOk.out, State.modGang_kept]

theorem State.endPool_kept {s : State} (i : Nat) (status : Nat) (cause : Nat) (hks : s.MemOk) :
    (State.endPool s i status cause).MemOk := by
  unfold State.endPool
  dsimp only
  repeat' split
  all_goals simp +contextual (maxDischargeDepth := 40) only [*, memOk_mk_iff, State.MemOk.out, State.freePoolAt_kept,
      State.noteBack_kept]

theorem State.dropGrid_kept {s : State} (l : Nat) (g : Grid) (status : Nat) (cause : Nat) (hks : s.MemOk) :
    (State.dropGrid s l g status cause).MemOk := by
  unfold State.dropGrid
  dsimp only
  repeat' first
    | split
    | with_reducible refine foldl_memOk _ (fun _ _ _ => ?_) _ ?_
  all_goals simp +contextual (maxDischargeDepth := 40) only [*, memOk_mk_iff, State.MemOk.out, State.modQueue_kept,
      State.endPool_kept, State.clearSlots_kept, State.freePoolAt_kept]

theorem execGridEnd_kept (l : Nat) {s : State} (hks : s.MemOk) : OutKept (execGridEnd l s) := by
  unfold execGridEnd
  dsimp only
  repeat' split
  all_goals simp +contextual (maxDischargeDepth := 40) only [*, OutKept.next, State.passOver_kept,
      State.writeCompl_kept, State.writeStats_kept, State.evaluate_kept, State.dropGrid_kept]

theorem State.bindSlots_kept {s : State} (g : Grid) (slots : List (Nat × Nat)) (hks : s.MemOk) :
    (State.bindSlots s g slots).MemOk := by
  unfold State.bindSlots
  dsimp only
  repeat' with_reducible refine foldl_memOk _ (fun _ _ _ => ?_) _ ?_
  all_goals simp only [*, State.modCore_kept]

theorem execLaunchAdmit_kept (l : Nat × List (Nat × Nat)) {s : State} (hks : s.MemOk) :
    OutKept (execLaunchAdmit l s) := by
  unfold execLaunchAdmit
  dsimp only
  repeat' split
  all_goals simp +contextual (maxDischargeDepth := 40) only [*, OutKept.next, State.passOver_kept,
      State.bindSlots_kept, State.evaluate_kept, State.setGrid_kept, State.writeCompl_kept, State.noteSys_kept,
      State.dropGrid_kept]

theorem State.placeImages_kept {s : State} (l : Nat) (g : Grid) (core : Nat) (base : Nat) (hks : s.MemOk) :
    (State.placeImages s l g core base).1.MemOk := by
  unfold State.placeImages
  dsimp only
  repeat' split
  all_goals simp +contextual (maxDischargeDepth := 40) only [*, State.clearChip_kept, State.writeChip_kept,
      State.modGrid_kept]

theorem createCrews_kept (gk : Nat) (g : Gang) (r : List Byte) (x3 : Nat) (x4 : Nat) {x5 : State} (hkx5 : x5.MemOk) :
    (createCrews gk g r x3 x4 x5).MemOk := by
  induction x3 generalizing x4 x5 <;>
  ( unfold createCrews
    repeat' split
    all_goals simp only [*, State.createCrew_kept] )

theorem State.createGang_kept {s : State} (l : Nat) (g : Grid) (gid : Nat) (core : Nat) (base : Nat) (hks : s.MemOk) :
    (State.createGang s l g gid core base).MemOk := by
  unfold State.createGang
  dsimp only
  repeat' first
    | (rename _ = (_, _) => e
       replace e := memOk_fst_of e (by
           clear e
           simp +contextual (maxDischargeDepth := 40) only [*, memOk_mk_iff, State.MemOk.out, State.modGrid_kept,
               State.setGang_kept, State.placeImages_kept]))
    | split
  all_goals simp +contextual (maxDischargeDepth := 40) only [*, State.gangKill_kept, State.noteSys_kept,
      State.flushL1_kept, createCrews_kept]

theorem placeAll_kept (l : Nat) (g : Grid) (x2 : List (Nat × Nat)) {x3 : State} (hkx3 : x3.MemOk) :
    OptKept (placeAll l g x2 x3) := by
  induction x2 generalizing x3 <;>
  ( unfold placeAll
    try dsimp only
    repeat' split
    all_goals simp only [*, OptKept.some, OptKept.none, State.createGang_kept] )

theorem State.placed_kept {s : State} (l : Nat) (next : Nat) (hks : s.MemOk) : (State.placed s l next).MemOk := by
  unfold State.placed
  dsimp only
  repeat' split
  all_goals simp +contextual (maxDischargeDepth := 40) only [*, State.noteRun_kept, State.setGrid_kept,
      State.clearSlots_kept]

theorem execGangPlace_kept (l : Nat) (cores : List Nat) {s : State} (hks : s.MemOk) :
    OutKept (execGangPlace l cores s) := by
  unfold execGangPlace
  dsimp only
  repeat' first
    | (rename (_ : Option State) = some _ => e
       replace e := OptKept.of_some e (by
           clear e
           simp only [*, placeAll_kept, State.grantAtPlacement_kept]))
    | split
  all_goals simp only [*, OutKept.next, State.passOver_kept, State.placed_kept]

theorem execGangRelaunch_kept (l : Nat) (gid : Nat) (core : Nat) {s : State} (hks : s.MemOk) :
    OutKept (execGangRelaunch l gid core s) := by
  unfold execGangRelaunch
  dsimp only
  repeat' first
    | (rename (_ : Option State) = some _ => e
       replace e := OptKept.of_some e (by
           clear e
           simp +contextual (maxDischargeDepth := 40) only [*, placeAll_kept, State.grantAtPlacement_kept,
               State.setGrid_kept]))
    | split
  all_goals simp +contextual (maxDischargeDepth := 40) only [*, OutKept.next, State.passOver_kept, State.placed_kept]

/-! ## Hoist -/

theorem State.haltRecord_kept {s : State} (q : Nat) (hks : s.MemOk) : (State.haltRecord s q).MemOk := by
  unfold State.haltRecord
  dsimp only
  simp only [*, State.record_kept]

theorem State.haltQueue_kept {s : State} (q : Nat) (code : Nat) (va : Nat) (hks : s.MemOk) :
    (State.haltQueue s q code va).MemOk := by
  unfold State.haltQueue
  dsimp only
  repeat' split
  all_goals simp +contextual (maxDischargeDepth := 40) only [*, State.noteSys_kept, State.haltRecord_kept,
      State.setQueue_kept]

theorem State.started_kept {s : State} (q : Nat) (units : Nat) (p : Option Packet) (hks : s.MemOk) :
    (State.started s q units p).MemOk := by
  unfold State.started
  simp only [*, State.modQueue_kept]

theorem State.haltAt_kept {s : State} (q : Nat) (u : Nat) (way : Way) (va : Nat) (hks : s.MemOk) :
    (State.haltAt s q u way va).MemOk := by
  unfold State.haltAt
  dsimp only
  simp +contextual (maxDischargeDepth := 40) only [*, State.noteSys_kept, State.haltRecord_kept, State.modQueue_kept]

theorem State.performSignal_kept {s : State} (q : Nat) (p : Packet) (hks : s.MemOk) :
    (State.performSignal s q p).MemOk := by
  unfold State.performSignal
  repeat' first
    | (rename (_ : Except _ State) = Except.ok _ => e
       replace e := ExcKept.of_ok (p := id) e (by
           clear e
           simp only [*, State.writeSys_kept])
       try dsimp only [id] at e)
    | split
  all_goals simp only [*, State.modQueue_kept, State.haltAt_kept]

theorem State.startSignal_kept {s : State} (q : Nat) (bs : List Byte) (hks : s.MemOk) :
    (State.startSignal s q bs).MemOk := by
  unfold State.startSignal
  dsimp only
  simp only [*, State.performSignal_kept, State.started_kept]

theorem State.startWait_kept {s : State} (q : Nat) (bs : List Byte) (hks : s.MemOk) :
    (State.startWait s q bs).MemOk := by
  unfold State.startWait
  simp only [*, State.started_kept]

theorem State.startEvent_kept {s : State} (q : Nat) (bs : List Byte) (hks : s.MemOk) :
    (State.startEvent s q bs).MemOk := by
  unfold State.startEvent
  simp only [*, State.started_kept, State.raise_kept]

theorem State.startLaunch_kept {s : State} (q : Nat) (r : List Byte) (hks : s.MemOk) :
    (State.startLaunch s q r).MemOk := by
  unfold State.startLaunch
  dsimp only
  repeat' split
  all_goals simp only [*, State.started_kept, State.writeCompl_kept, State.newGrid_kept]

theorem State.startPacket_kept {s : State} (q : Nat) (opc : Nat) (bs : List Byte) (hks : s.MemOk) :
    (State.startPacket s q opc bs).MemOk := by
  unfold State.startPacket
  repeat' split
  all_goals simp only [*, State.started_kept, State.startLaunch_kept, State.startSignal_kept, State.startWait_kept,
      State.startEvent_kept]

theorem packetStep_kept (q : Nat) (opc : Nat) {s : State} (hks : s.MemOk) : OutKept (packetStep q opc s) := by
  unfold packetStep
  repeat' split
  all_goals simp only [*, OutKept.next, State.passOver_kept, State.haltQueue_kept, State.startPacket_kept]

theorem execPacketNop_kept (q : Nat) {s : State} (hks : s.MemOk) : OutKept (execPacketNop q s) := by
  unfold execPacketNop
  simp only [*, packetStep_kept]

theorem execPacketLaunch_kept (q : Nat) {s : State} (hks : s.MemOk) : OutKept (execPacketLaunch q s) := by
  unfold execPacketLaunch
  simp only [*, packetStep_kept]

theorem execPacketSignal_kept (q : Nat) {s : State} (hks : s.MemOk) : OutKept (execPacketSignal q s) := by
  unfold execPacketSignal
  simp only [*, packetStep_kept]

theorem execPacketWait_kept (q : Nat) {s : State} (hks : s.MemOk) : OutKept (execPacketWait q s) := by
  unfold execPacketWait
  simp only [*, packetStep_kept]

theorem execPacketEvent_kept (q : Nat) {s : State} (hks : s.MemOk) : OutKept (execPacketEvent q s) := by
  unfold execPacketEvent
  simp only [*, packetStep_kept]

theorem startType_kept (opc : Nat) (hs : List (Nat × HeadRes)) {s : State} (hks : s.MemOk) :
    (startType opc hs s).MemOk := by
  unfold startType
  repeat' first
    | split
    | with_reducible refine foldl_memOk _ (fun _ _ _ => ?_) _ ?_
  all_goals simp only [*, State.startPacket_kept]

theorem execHoistRound_kept {s : State} (hks : s.MemOk) : OutKept (execHoistRound s) := by
  unfold execHoistRound
  dsimp only
  repeat' first
    | split
    | with_reducible refine foldl_memOk _ (fun _ _ _ => ?_) _ ?_
    | with_reducible refine OutKept.next ?_
  all_goals simp only [*, memOk_mk_iff, State.MemOk.out, State.passOver_kept, State.haltQueue_kept, startType_kept]

theorem execWaitPacketComplete_kept (q : Nat) (u : Nat) {s : State} (hks : s.MemOk) :
    OutKept (execWaitPacketComplete q u s) := by
  unfold execWaitPacketComplete
  repeat' split
  all_goals simp only [*, OutKept.next, State.passOver_kept, State.modQueue_kept]

theorem execWaitPollFailure_kept (q : Nat) (u : Nat) {s : State} (hks : s.MemOk) :
    OutKept (execWaitPollFailure q u s) := by
  unfold execWaitPollFailure
  repeat' split
  all_goals simp only [*, OutKept.next, State.passOver_kept, State.haltAt_kept]

theorem execQtail_kept (q : Nat) (v : DWord) {s : State} (hks : s.MemOk) : OutKept (execQtail q v s) := by
  unfold execQtail
  repeat' split
  all_goals simp only [*, OutKept.next, State.modQueue_kept, State.passOver_kept]

theorem execQstatHalt_kept (q : Nat) (halt : Bool) {s : State} (hks : s.MemOk) :
    OutKept (execQstatHalt q halt s) := by
  unfold execQstatHalt
  dsimp only
  repeat' first
    | split
    | with_reducible refine foldl_memOk _ (fun _ _ _ => ?_) _ ?_
    | with_reducible refine OutKept.next ?_
  all_goals simp only [*, State.passOver_kept, State.modQueue_kept, State.performSignal_kept]

/-! ## Preempt -/

theorem State.setPre_kept {s : State} (ctx : Nat) (v : BitVec 2) (hks : s.MemOk) : (State.setPre s ctx v).MemOk := by
  unfold State.setPre
  simp only [*, State.raise_kept, State.modCtx_kept]

theorem execCtxpreReqSet_kept (ctx : Nat) (deadline : BitVec 32) {s : State} (hks : s.MemOk) :
    OutKept (execCtxpreReqSet ctx deadline s) := by
  unfold execCtxpreReqSet
  dsimp only
  repeat' split
  all_goals simp +contextual (maxDischargeDepth := 40) only [*, OutKept.next, State.passOver_kept, State.modCtx_kept,
      State.setPre_kept, State.drained_kept]

theorem execCtxpreReqClear_kept (ctx : Nat) {s : State} (hks : s.MemOk) : OutKept (execCtxpreReqClear ctx s) := by
  unfold execCtxpreReqClear
  dsimp only
  repeat' split
  all_goals simp +contextual (maxDischargeDepth := 40) only [*, memOk_mk_iff, State.MemOk.out, OutKept.next,
      State.passOver_kept, State.modCtx_kept, State.setPre_kept]

theorem execSoftDeadlineExpiry_kept (ctx : Nat) {s : State} (hks : s.MemOk) :
    OutKept (execSoftDeadlineExpiry ctx s) := by
  unfold execSoftDeadlineExpiry
  repeat' split
  all_goals simp only [*, OutKept.next, State.setPre_kept, State.passOver_kept]

theorem State.stopCrew_kept {s : State} (c : Nat) (hks : s.MemOk) : (State.stopCrew s c).MemOk := by
  unfold State.stopCrew
  dsimp only
  repeat' split
  all_goals simp only [*, State.rollback_kept, State.modCrew_kept]

theorem execHardStop_kept (ctx : Nat) {s : State} (hks : s.MemOk) : OutKept (execHardStop ctx s) := by
  unfold execHardStop
  dsimp only
  repeat' first
    | split
    | with_reducible refine OutKept.next ?_
  all_goals simp +contextual (maxDischargeDepth := 40) only [*, foldl_memOk, memOk_mk_iff, State.MemOk.out,
      implies_true, State.passOver_kept, State.stopCrew_kept, State.putBstack_kept, State.saveGang_kept,
      State.modCrew_kept, State.evaluate_kept, State.setPre_kept, State.clearSlots_kept]

theorem reloadAll_kept (ctx : Nat) (x1 : List Nat) {x2 : State} (hkx2 : x2.MemOk) :
    OptKept (reloadAll ctx x1 x2) := by
  induction x1 generalizing x2 <;>
  ( unfold reloadAll
    repeat' split
    all_goals simp only [*, OptKept.some, OptKept.none, State.loadBstack_kept] )

theorem landGangs_kept (x0 : List Nat) {x1 : State} (hkx1 : x1.MemOk) : OptKept (landGangs x0 x1) := by
  induction x0 generalizing x1 <;>
  ( unfold landGangs
    repeat' first
      | (rename (_ : Option State) = some _ => e
         replace e := OptKept.of_some e (by
             clear e
             simp only [*, State.landGang_kept]))
      | split
    all_goals simp only [*, OptKept.some, OptKept.none] )

theorem State.tryAll_kept {s : State} (ctx : Nat) (hks : s.MemOk) : (State.tryAll s ctx).MemOk := by
  unfold State.tryAll
  exact foldl_memOk _ (fun _ _ h => State.tryBarriers_kept _ h) _ hks

theorem State.resumeCtx_kept {s : State} (ctx : Nat) (hks : s.MemOk) : (State.resumeCtx s ctx).MemOk := by
  unfold State.resumeCtx
  dsimp only
  repeat' split
  all_goals simp +contextual (maxDischargeDepth := 40) only [*, memOk_mk_iff, State.MemOk.out, State.modCtx_kept,
      State.evaluate_kept, State.setPre_kept, State.noteRun_kept, State.tryAll_kept]

theorem State.holdAll_kept {s : State} (ctx : Nat) (hks : s.MemOk) : (State.holdAll s ctx).MemOk := by
  unfold State.holdAll
  repeat' with_reducible refine foldl_memOk _ (fun _ _ _ => ?_) _ ?_
  all_goals simp only [*, State.holdSlots_kept]

theorem execContextRestore_kept (ctx : Nat) {s : State} (hks : s.MemOk) : OutKept (execContextRestore ctx s) := by
  unfold execContextRestore
  dsimp only
  repeat' split
  · exact State.passOver_kept hks
  · exact State.passOver_kept hks
  · exact OutKept.next (State.holdAll_kept _ hks)
  all_goals
    obtain ⟨u, hu, ht⟩ := Option.bind_eq_some_iff.mp ‹_ = some _›
    have hk := State.replayLog_kept ctx (landGangs_kept _ (reloadAll_kept _ _ hks u hu) _ ht)
  · exact OutKept.next (State.resumeCtx_kept _ (TryKept.of_ok ‹_› hk))
  · exact OutKept.next (State.resumeCtx_kept _ (foldl_memOk _ (fun _ _ h => State.gangKill_kept _ _ h) _
      (TryKept.of_error ‹_› hk)))

theorem execEvraise_kept (ctx : Nat) (v : DWord) {s : State} (hks : s.MemOk) : OutKept (execEvraise ctx v s) := by
  unfold execEvraise
  repeat' first
    | split
    | with_reducible refine foldl_memOk _ (fun _ _ _ => ?_) _ ?_
    | with_reducible refine OutKept.next ?_
  all_goals simp only [*, State.passOver_kept, State.raise_kept]

/-! ## Sysreg -/

theorem State.csrWrite_kept {s : State} (c : Nat) (x : Crew) (g : Gang) (k : Nat) (v : DWord) (hs : s.MemOk) :
    (State.csrWrite s c x g k v).MemOk := by
  unfold State.csrWrite
  repeat' first
    | exact hs
    | with_reducible refine ite_memOk_iff.2 ⟨fun _ => ?_, fun _ => ?_⟩
    | with_reducible exact State.modCrew_kept _ _ hs
    | with_reducible exact State.modGang_kept _ _ hs
    | with_reducible exact State.setKeyslot_kept _ _ hs

theorem bodyCsrr_kept (c : Nat) (k : Nat) (x : Ops) : MKept ((bodyCsrr c k x) : M Unit) := by
  unfold bodyCsrr
  dsimp only
  repeat' first
    | with_reducible refine MKept.getS_bind fun _ _ => ?_
    | with_reducible refine MKept.bind ?_ fun _ => ?_
    | split
  all_goals simp only [*, needPriv_kept, crewM_kept, gangM_kept, modC_kept, emask_kept, writeScalar_kept,
      storeVec_kept]

theorem execCsrr_kept (k : BitVec 12) (x : Ops) {s : State} (hks : s.MemOk) : OutKept (execCsrr k x s) := by
  unfold execCsrr
  simp only [*, implies_true, crewStep_kept, issue_kept, bodyCsrr_kept]

theorem bodyCsrw_kept (c : Nat) (k : Nat) (x : Ops) : MKept ((bodyCsrw c k x) : M Unit) := by
  unfold bodyCsrw
  repeat' with_reducible refine MKept.bind ?_ fun _ => ?_
  all_goals simp +contextual (maxDischargeDepth := 40) only [*, MKept.modS, implies_true, needPriv_kept,
      readScalar_kept, crewM_kept, gangM_kept, State.csrWrite_kept]

theorem execCsrw_kept (k : BitVec 12) (x : Ops) {s : State} (hks : s.MemOk) : OutKept (execCsrw k x s) := by
  unfold execCsrw
  simp only [*, implies_true, issueStep_kept, bodyCsrw_kept]

theorem bodyEvwait_kept (c : Nat) (k : Nat) (x : Ops) : MKept ((bodyEvwait c k x) : M Unit) := by
  unfold bodyEvwait
  repeat' first
    | with_reducible refine MKept.getS_bind fun _ _ => ?_
    | with_reducible refine MKept.bind ?_ fun _ => ?_
  all_goals simp only [*, crewM_kept, modC_kept, writeScalar_kept]

theorem runEvwait_kept (c : Nat) (k : Nat) (x : Ops) : MKept ((runEvwait c k x) : M Unit) := by
  unfold runEvwait
  dsimp only
  repeat' first
    | with_reducible refine MKept.getS_bind fun _ _ => ?_
    | with_reducible refine MKept.bind ?_ fun _ => ?_
    | split
  all_goals simp only [*, crewM_kept, vsM_kept, issue_kept, bodyEvwait_kept, modC_kept, park_kept]

theorem execEvwait_kept (k : BitVec 12) (x : Ops) {s : State} (hks : s.MemOk) : OutKept (execEvwait k x s) := by
  unfold execEvwait
  simp only [*, implies_true, crewStep_kept, runEvwait_kept]

/-! ## Fetch -/

theorem fetchRead_kept {s : State} (x : Crew) (va : Nat) (n : Nat) (f : State → List Byte → Fetched) (hks : s.MemOk)
    (hf : ∀ t v, t.MemOk → FetchKept (f t v)) :
    FetchKept (fetchRead s x va n f) := by
  unfold fetchRead
  repeat' first
    | (rename _ = Io.ok _ _ => e
       replace e := IoKept.of_ok e (by
           clear e
           simp only [*, State.readVa_kept]))
    | (rename _ = Io.fail _ _ _ _ => e
       replace e := IoKept.of_fail e (by
           clear e
           simp only [*, State.readVa_kept]))
    | (rename _ = Io.kill _ _ _ _ => e
       replace e := IoKept.of_kill e (by
           clear e
           simp only [*, State.readVa_kept]))
    | split
  all_goals simp only [*, FetchKept.trap, FetchKept.kill]

theorem decodeAt_kept (pc : Nat) {t : State} (bs : List Byte) (hkt : t.MemOk) : FetchKept (decodeAt pc t bs) := by
  unfold decodeAt
  repeat' split
  all_goals simp only [*, FetchKept.instr, FetchKept.trap]

theorem State.fetchAt_kept {s : State} (x : Crew) (hks : s.MemOk) : FetchKept (State.fetchAt s x) := by
  unfold State.fetchAt
  dsimp only
  repeat' first
    | split
    | with_reducible refine fetchRead_kept _ _ _ _ (by assumption) fun _ _ _ => ?_
  all_goals simp only [*, FetchKept.pad, FetchKept.trap, decodeAt_kept]

/-! ## Debug -/

theorem State.mbWrite_kept {s : State} (ctx : Nat) (off : Nat) (header : List Byte) (body : List Byte) (hks : s.MemOk)
    :
    OptKept (State.mbWrite s ctx off header body) := by
  unfold State.mbWrite
  dsimp only
  repeat' first
    | (rename (_ : Except _ State) = Except.ok _ => e
       replace e := ExcKept.of_ok (p := id) e (by
           clear e
           simp only [*, State.writeSys_kept])
       try dsimp only [id] at e)
    | split
  all_goals simp only [*, OptKept.some, OptKept.none, State.passSys_kept]

theorem State.mbReply_kept {s : State} (ctx : Nat) (q : MbReq) {t : State} (status : Nat) (body : List Byte) (hks :
    s.MemOk) (hkt : t.MemOk) :
    (State.mbReply s ctx q t status body).MemOk := by
  unfold State.mbReply
  repeat' first
    | (rename (_ : Option State) = some _ => e
       replace e := OptKept.of_some e (by
           clear e
           simp only [*, State.mbWrite_kept]))
    | split
  all_goals simp only [*, State.modCtx_kept]

theorem execDbgbell_kept (ctx : Nat) {s : State} (hks : s.MemOk) : OutKept (execDbgbell ctx s) := by
  unfold execDbgbell
  dsimp only
  repeat' split
  all_goals simp +contextual (maxDischargeDepth := 40) only [*, OutKept.next, State.passOver_kept, State.passSys_kept,
      State.mbReply_kept, State.modCtx_kept]

theorem execDbgmbox_kept (ctx : Nat) (v : DWord) {s : State} (hks : s.MemOk) : OutKept (execDbgmbox ctx v s) := by
  unfold execDbgmbox
  dsimp only
  repeat' split
  all_goals simp only [*, OutKept.next, State.passOver_kept, State.modCtx_kept]

theorem serve_kept (ctx : Nat) (op : Nat) (len : Nat) (good : List Byte → Bool) {s : State} (f : Nat → Crew → List
    Byte → State × Nat × List Byte) (hks : s.MemOk) (hf : ∀ v0 v1 v2, (f v0 v1 v2).1.MemOk) :
    OutKept (serve ctx op len good s f) := by
  unfold serve
  dsimp only
  repeat' split
  all_goals simp only [*, OutKept.next, State.passOver_kept, State.mbReply_kept]

theorem execPing_kept (ctx : Nat) {s : State} (hks : s.MemOk) : OutKept (execPing ctx s) := by
  unfold execPing
  repeat' split
  all_goals simp only [*, OutKept.next, State.passOver_kept, State.mbReply_kept]

theorem execRdstate_kept (ctx : Nat) {s : State} (hks : s.MemOk) : OutKept (execRdstate ctx s) := by
  unfold execRdstate
  repeat' with_reducible refine serve_kept _ _ _ _ _ (by assumption) (fun _ _ _ => ?_)
  all_goals simp only [*]

theorem execRdname_kept (ctx : Nat) {s : State} (hks : s.MemOk) : OutKept (execRdname ctx s) := by
  unfold execRdname
  dsimp only
  repeat' first
    | split
    | with_reducible refine serve_kept _ _ _ _ _ (by assumption) (fun _ _ _ => ?_)
  all_goals simp only [*]

theorem State.bumpSeq_kept {s : State} (c : Nat) (hks : s.MemOk) : (State.bumpSeq s c).MemOk := by
  unfold State.bumpSeq
  simp only [*, State.modCrew_kept]

theorem wrName_kept {s : State} (c : Nat) (x : Crew) (b : List Byte) (hks : s.MemOk) : (wrName s c x b).1.MemOk := by
  unfold wrName
  dsimp only
  repeat' first
    | (rename _ = EStateM.Result.ok _ _ => e
       replace e := ResKept.of_ok e (by
           clear e
           simp only [*, MKept.run, writeName_kept]))
    | (rename _ = EStateM.Result.error _ _ => e
       replace e := ResKept.of_error e (by
           clear e
           simp only [*, MKept.run, writeName_kept]))
    | split
  all_goals simp only [*, State.bumpSeq_kept, State.modCrew_kept, State.modCore_kept]

theorem execWrname_kept (ctx : Nat) {s : State} (hks : s.MemOk) : OutKept (execWrname ctx s) := by
  unfold execWrname
  repeat' with_reducible refine serve_kept _ _ _ _ _ (by assumption) (fun _ _ _ => ?_)
  all_goals simp only [*, wrName_kept]

theorem dropNameReq_kept {s : State} (c : Nat) (x : Crew) (n : Nat) (hks : s.MemOk) :
    (dropNameReq s c x n).1.MemOk := by
  unfold dropNameReq
  dsimp only
  repeat' first
    | (rename _ = EStateM.Result.ok _ _ => e
       replace e := ResKept.of_ok e (by
           clear e
           simp only [*, MKept.run, dropName_kept, State.modCrew_kept]))
    | (rename _ = EStateM.Result.error _ _ => e
       replace e := ResKept.of_error e (by
           clear e
           simp only [*, MKept.run, dropName_kept, State.modCrew_kept]))
    | split
  all_goals simp only [*, State.bumpSeq_kept]

theorem execDropname_kept (ctx : Nat) {s : State} (hks : s.MemOk) : OutKept (execDropname ctx s) := by
  unfold execDropname
  repeat' with_reducible refine serve_kept _ _ _ _ _ (by assumption) (fun _ _ _ => ?_)
  all_goals simp only [*, dropNameReq_kept]

theorem execRdscal_kept (ctx : Nat) {s : State} (hks : s.MemOk) : OutKept (execRdscal ctx s) := by
  unfold execRdscal
  repeat' with_reducible refine serve_kept _ _ _ _ _ (by assumption) (fun _ _ _ => ?_)
  all_goals simp only [*]

theorem execWrscal_kept (ctx : Nat) {s : State} (hks : s.MemOk) : OutKept (execWrscal ctx s) := by
  unfold execWrscal
  dsimp only
  repeat' with_reducible refine serve_kept _ _ _ _ _ (by assumption) (fun _ _ _ => ?_)
  all_goals simp only [*, State.modCrew_kept]

theorem execWrcsr_kept (ctx : Nat) {s : State} (hks : s.MemOk) : OutKept (execWrcsr ctx s) := by
  unfold execWrcsr
  dsimp only
  repeat' first
    | split
    | with_reducible refine serve_kept _ _ _ _ _ (by assumption) (fun _ _ _ => ?_)
  all_goals simp only [*, State.csrWrite_kept]

theorem execCont_kept (ctx : Nat) {s : State} (hks : s.MemOk) : OutKept (execCont ctx s) := by
  unfold execCont
  repeat' first
    | split
    | with_reducible refine serve_kept _ _ _ _ _ (by assumption) (fun _ _ _ => ?_)
  all_goals simp only [*, State.passOver_kept, State.modCrew_kept]

theorem execRdmem_kept (ctx : Nat) {s : State} (hks : s.MemOk) : OutKept (execRdmem ctx s) := by
  unfold execRdmem
  dsimp only
  repeat' split
  all_goals simp +contextual (maxDischargeDepth := 40) only [*, OutKept.next, State.passOver_kept, State.mbReply_kept,
      State.passSys_kept, State.noteSys_kept]

theorem execStopNotice_kept (c : Nat) {s : State} (hs : s.MemOk) : OutKept (execStopNotice c s) := by
  unfold execStopNotice
  have hp : OutKept s.passOver := State.passOver_kept hs
  generalize 64 = b64
  split
  · exact hp
  · rename_i x _
    extract_lets ctx k
    split
    · exact hp
    · split
      · exact hp
      · split
        · exact hp
        · split
          · exact hp
          · split
            · exact hp
            · rename_i e
              exact OutKept.next (State.modCrew_kept _ _ (State.modCtx_kept _ _ (OptKept.of_some e (State.mbWrite_kept
                  _ _ _ _ hs))))

theorem execSample_kept (core : Nat) {s : State} (hks : s.MemOk) : OutKept (execSample core s) := by
  unfold execSample
  dsimp only
  repeat' split
  all_goals simp +contextual (maxDischargeDepth := 40) only [*, memOk_mk_iff, State.MemOk.out, ringPut_wf,
      OutKept.next, State.passOver_kept, State.modCore_kept]

theorem execSmpcfg_kept (core : Nat) (v : DWord) {s : State} (hks : s.MemOk) : OutKept (execSmpcfg core v s) := by
  unfold execSmpcfg
  dsimp only
  repeat' split
  all_goals simp only [*, OutKept.next, State.passOver_kept, State.modCore_kept]

/-! ## Engine -/

theorem State.freeTile_kept {s : State} (m : Cmd) (hks : s.MemOk) : (State.freeTile s m).MemOk := by
  unfold State.freeTile
  repeat' split
  all_goals simp only [*, State.modCore_kept]

theorem State.endCmd_kept {s : State} (k : Nat) (m : Cmd) (hks : s.MemOk) : (State.endCmd s k m).MemOk := by
  unfold State.endCmd
  simp +contextual (maxDischargeDepth := 40) only [*, memOk_mk_iff, State.MemOk.out, State.respill_kept,
      State.freeTile_kept]

theorem State.cmdRecord_kept {s : State} (m : Cmd) (cause : Cause) (addr : Nat) (hks : s.MemOk) :
    (State.cmdRecord s m cause addr).MemOk := by
  unfold State.cmdRecord
  dsimp only
  repeat' split
  all_goals simp only [*, State.record_kept]

theorem State.passCmds_kept {s : State} (gang : Nat) (e : Nat) (hks : s.MemOk) : (State.passCmds s gang e).MemOk := by
  unfold State.passCmds
  repeat' first
    | split
    | with_reducible refine foldl_memOk _ (fun _ _ _ => ?_) _ ?_
  all_goals simp only [*, State.endCmd_kept]

theorem State.noteUnrep_kept {s : State} (m : Cmd) (g : Gang) (hks : s.MemOk) : (State.noteUnrep s m g).MemOk := by
  unfold State.noteUnrep
  repeat' split
  all_goals simp only [*, State.modGrid_kept]

theorem State.finishCmd_kept {s : State} (k : Nat) (m : Cmd) (fail : Option CmdFail) (result : Lanes) (hks : s.MemOk)
    :
    (State.finishCmd s k m fail result).MemOk := by
  unfold State.finishCmd
  dsimp only
  repeat' split
  all_goals simp +contextual (maxDischargeDepth := 40) only [*, memOk_mk_iff, State.MemOk.out, State.cmdRecord_kept,
      State.endCmd_kept, State.noteUnrep_kept, State.trySwapOut_kept, State.thaw_kept, State.passCmds_kept,
      State.setGang_kept]

theorem issueCmd_kept (c : Nat) (e : Nat) (x : Ops) (p : EngPlan) (es : List Nat) (m : Mask) :
    MKept ((issueCmd c e x p es m) : M Unit) := by
  unfold issueCmd
  dsimp only
  repeat' first
    | with_reducible refine MKept.getS_bind fun _ _ => ?_
    | with_reducible refine MKept.bind ?_ fun _ => ?_
    | with_reducible refine MKept.forIn (fun _ _ => ?_) _ _
    | split
  all_goals simp +contextual (maxDischargeDepth := 40) only [*, MKept.pure, MKept.modS, memOk_mk_iff, State.MemOk.out,
      implies_true, ownPc_kept, crewM_kept, gangM_kept, State.modGang_kept, modVs_kept, modC_kept, writeScalar_kept,
      State.finishCmd_kept]

theorem checked_kept {α : Type} (r : Checked α) : MKept ((checked r) : M α) := by
  unfold checked
  repeat' split
  all_goals simp only [*, MKept.pure, MKept.stop]

theorem engStep_kept (opc : Nat) (x : Ops) (body : Nat → M Unit) {s : State} (hbody : ∀ c, MKept (body c)) (hks :
    s.MemOk) :
    OutKept (engStep opc x body s) := by
  unfold engStep
  simp +contextual (maxDischargeDepth := 40) only [*, MKept.bind, implies_true, crewStep_kept, matrixFence_kept,
      issue_kept]

theorem withSeq_kept (c e : Nat) (body : M Unit) (hbody : MKept body) : MKept (withSeq c e body : M Unit) := by
  intro s h
  have hb := hbody s h
  unfold withSeq
  cases r : body s with
  | ok v t =>
    rw [r] at hb
    cases hc : s.crew? c with
    | none => exact hb
    | some x => exact hbody _ (State.setCrew_kept _ _ h)
  | error v t => rw [r] at hb; exact hb

theorem bodyEcpy_kept (f : FnE) (x : Ops) (c : Nat) : MKept ((bodyEcpy f x c) : M Unit) := by
  unfold bodyEcpy
  repeat' first
    | with_reducible refine MKept.getS_bind fun _ _ => ?_
    | with_reducible refine MKept.bind ?_ fun _ => ?_
  all_goals simp only [*, readScalar_kept, gangM_kept, checked_kept, issueCmd_kept]

theorem execEcpy_kept (f : FnE) (x : Ops) {s : State} (hks : s.MemOk) : OutKept (execEcpy f x s) := by
  unfold execEcpy
  simp only [*, implies_true, engStep_kept, bodyEcpy_kept]

theorem gatherCheck_kept (m : Mask) (addr : Tab Nat) (align : Nat) : MKept ((gatherCheck m addr align) : M Unit) := by
  unfold gatherCheck
  repeat' split
  all_goals simp only [*, MKept.pure, faultAt_kept]

theorem bodyEgath_kept (f : FnE) (x : Ops) (c : Nat) : MKept ((bodyEgath f x c) : M Unit) := by
  unfold bodyEgath
  dsimp only
  repeat' first
    | with_reducible refine MKept.bind ?_ fun _ => ?_
    | split
  all_goals simp only [*, readSrc_kept, readScalar_kept, emask_kept, checkDst_kept, check_kept, gatherCheck_kept,
      allocNames_kept, issueCmd_kept, checked_kept, regionM_kept]

theorem execEgath_kept (f : FnE) (x : Ops) {s : State} (hks : s.MemOk) : OutKept (execEgath f x s) := by
  unfold execEgath
  simp only [*, implies_true, engStep_kept, withSeq_kept, bodyEgath_kept]

theorem bodyEscat_kept (f : FnE) (x : Ops) (c : Nat) : MKept ((bodyEscat f x c) : M Unit) := by
  unfold bodyEscat
  dsimp only
  repeat' first
    | with_reducible refine MKept.bind ?_ fun _ => ?_
    | split
  all_goals simp only [*, readSrc_kept, readScalar_kept, emask_kept, check_kept, gatherCheck_kept, issueCmd_kept,
      checked_kept, regionM_kept]

theorem execEscat_kept (f : FnE) (x : Ops) {s : State} (hks : s.MemOk) : OutKept (execEscat f x s) := by
  unfold execEscat
  simp only [*, implies_true, engStep_kept, withSeq_kept, bodyEscat_kept]

theorem bodyEcoll_kept (f : FnE) (x : Ops) (c : Nat) : MKept ((bodyEcoll f x c) : M Unit) := by
  unfold bodyEcoll
  repeat' with_reducible refine MKept.bind ?_ fun _ => ?_
  all_goals simp only [*, readScalar_kept, checked_kept, issueCmd_kept]

theorem execEcoll_kept (f : FnE) (x : Ops) {s : State} (hks : s.MemOk) : OutKept (execEcoll f x s) := by
  unfold execEcoll
  simp only [*, implies_true, engStep_kept, bodyEcoll_kept]

theorem bodyFork_kept (f : FnE) (x : Ops) (c : Nat) : MKept ((bodyFork f x c) : M Unit) := by
  unfold bodyFork
  dsimp only
  repeat' first
    | with_reducible refine MKept.bind ?_ fun _ => ?_
    | split
  all_goals simp only [*, MKept.stop, readScalar_kept, check_kept, crewM_kept, issueCmd_kept]

theorem execFork_kept (f : FnE) (x : Ops) {s : State} (hks : s.MemOk) : OutKept (execFork f x s) := by
  unfold execFork
  simp only [*, implies_true, engStep_kept, bodyFork_kept]

theorem awaitM_kept (c : Nat) (ws : List (Nat × Nat)) : MKept ((awaitM c ws) : M Unit) := by
  unfold awaitM
  dsimp only
  repeat' first
    | with_reducible refine MKept.bind ?_ fun _ => ?_
    | split
  all_goals simp +contextual (maxDischargeDepth := 40) only [*, MKept.stop, MKept.modS, implies_true, crewM_kept,
      gangM_kept, State.modGang_kept, State.notePoison_kept, acquireM_kept, park_kept]

theorem bodyTlwait_kept (c : Nat) (f : FnE) (x : Ops) : MKept ((bodyTlwait c f x) : M Unit) := by
  unfold bodyTlwait
  repeat' with_reducible refine MKept.bind ?_ fun _ => ?_
  all_goals simp only [*, readScalar_kept, awaitM_kept]

theorem execTlwait_kept (f : FnE) (x : Ops) {s : State} (hks : s.MemOk) : OutKept (execTlwait f x s) := by
  unfold execTlwait
  simp only [*, implies_true, issueStep_kept, bodyTlwait_kept]

theorem bodyRdv_kept (c : Nat) (x : Ops) : MKept ((bodyRdv c x) : M Unit) := by
  unfold bodyRdv
  repeat' with_reducible refine MKept.bind ?_ fun _ => ?_
  all_goals simp only [*, readScalar_kept, awaitM_kept]

theorem execRdv_kept (f : FnE) (x : Ops) {s : State} (hks : s.MemOk) : OutKept (execRdv f x s) := by
  unfold execRdv
  simp only [*, MKept.bind, implies_true, issueStep_kept, check_kept, bodyRdv_kept]

theorem bodyTlq_kept (c : Nat) (f : FnE) (x : Ops) : MKept ((bodyTlq c f x) : M Unit) := by
  unfold bodyTlq
  dsimp only
  repeat' with_reducible refine MKept.bind ?_ fun _ => ?_
  all_goals simp only [*, gangM_kept, writeScalar_kept]

theorem execTlq_kept (f : FnE) (x : Ops) {s : State} (hks : s.MemOk) : OutKept (execTlq f x s) := by
  unfold execTlq
  simp only [*, implies_true, issueStep_kept, bodyTlq_kept]

theorem chipRead_kept {s : State} (ctx : Nat) (kind : Nat) (core : Nat) (pa : Nat) (n : Nat) (hks : s.MemOk) :
    IoKept (chipRead s ctx kind core pa n) := by
  unfold chipRead
  dsimp only
  repeat' split
  all_goals simp only [*, IoKept.ok, IoKept.kill, State.passUnits_kept]

theorem Io.bind_kept {α : Type} {β : Type} (r : Io α) (f : State → α → Io β) (hr : IoKept r) (hf : ∀ t v, t.MemOk →
    IoKept (f t v)) :
    IoKept (Io.bind r f) := by
  unfold Io.bind
  repeat' first
    | (dsimp only [IoKept] at hr)
    | split
  all_goals simp only [*, IoKept.fail, IoKept.kill, IoKept.wait]

theorem State.m2s_kept {s : State} (m : Cmd) (off : Nat) (data : List Byte) (ts : List Nat) (hks : s.MemOk) :
    OptKept (State.m2s s m off data ts) := by
  unfold State.m2s
  dsimp only
  repeat' first
    | split
    | with_reducible refine foldl_memOk _ (fun _ _ _ => ?_) _ ?_
    | with_reducible exact OptKept.none
    | with_reducible refine OptKept.some ?_
  all_goals simp only [*, State.writeChip_kept]

theorem tileRead_kept {s : State} (m : Cmd) (p : Nat) (o : Nat) (n : Nat) (hks : s.MemOk) : IoKept (tileRead s m p o n) := by
  unfold tileRead
  repeat' split
  all_goals simp only [*, IoKept.ok, IoKept.kill, chipRead_kept]

theorem State.tileWrite_kept {s : State} (m : Cmd) (p : Nat) (o : Nat) (data : List Byte) (hks : s.MemOk) :
    (State.tileWrite s m p o data).MemOk := by
  unfold State.tileWrite
  repeat' split
  all_goals simp only [*, State.respill_kept, State.modCrew_kept, State.writeChip_kept]

theorem State.m2b_kept {s : State} (ctx : Nat) (ts : List Nat) (ws : List (Nat × List Byte)) (hks : s.MemOk) :
    IoKept (State.m2b s ctx ts ws) := by
  unfold State.m2b
  split
  · exact IoKept.ok (foldl_memOk _ (fun _ _ h => foldl_memOk _ (fun _ _ h => State.writeChip_kept _ _ h) _ h) _ hks)
  · exact IoKept.fail hks

theorem State.runEcpy_kept {s : State} (m : Cmd) (kind : Nat) (ty : Ty) (va : Nat) (len : Nat) (sb : Nat) (sc : Nat)
    (hks : s.MemOk) :
    IoKept (State.runEcpy s m kind ty va len sb sc) := by
  unfold State.runEcpy
  dsimp only
  repeat' first
    | (rename (_ : Option State) = some _ => e
       replace e := OptKept.of_some e (by
           clear e
           simp only [*, State.m2s_kept]))
    | split
    | with_reducible refine Io.bind_kept _ _ ?_ fun _ _ _ => ?_
    | with_reducible refine foldl_memOk _ (fun _ _ _ => ?_) _ ?_
    | with_reducible refine IoKept.ok ?_
    | with_reducible refine IoKept.fail ?_
  all_goals simp only [*, State.readVa_kept, State.m2b_kept, State.tileWrite_kept, chipRead_kept,
      State.writeVa_kept, tileRead_kept]

theorem gatherName_kept (a : Agent) (size : Nat) (x2 : Tab Nat) {x3 : State} (x4 : Lanes) (hkx3 : x3.MemOk) :
    IoKept (gatherName a size x2 x3 x4) := by
  induction x2 generalizing x3 x4 <;>
  ( unfold gatherName
    repeat' with_reducible refine Io.bind_kept _ _ ?_ fun _ _ _ => ?_
    all_goals simp only [*, IoKept.ok, State.readVa_kept] )

theorem gatherRows_kept (a : Agent) (rb : Nat) (base : Option Nat) (x3 : Tab Nat) {x4 : State} (hkx4 : x4.MemOk) :
    IoKept (gatherRows a rb base x3 x4) := by
  induction x3 generalizing x4 <;>
  ( unfold gatherRows
    repeat' first
      | split
      | with_reducible refine Io.bind_kept _ _ ?_ fun _ _ _ => ?_
    all_goals simp only [*, IoKept.ok, State.readVa_kept, State.writeChip_kept] )

theorem scatterName_kept (a : Agent) (size : Nat) (data : Lanes) (x3 : Tab Nat) {x4 : State} (hkx4 : x4.MemOk) :
    IoKept (scatterName a size data x3 x4) := by
  induction x3 generalizing x4 <;>
  ( unfold scatterName
    repeat' with_reducible refine Io.bind_kept _ _ ?_ fun _ _ _ => ?_
    all_goals simp only [*, IoKept.ok, State.writeVa_kept] )

theorem scatterRows_kept (a : Agent) (core : Nat) (rb : Nat) (base : Nat) (x4 : Tab Nat) {x5 : State} (hkx5 :
    x5.MemOk) :
    IoKept (scatterRows a core rb base x4 x5) := by
  induction x4 generalizing x5 <;>
  ( unfold scatterRows
    repeat' with_reducible refine Io.bind_kept _ _ ?_ fun _ _ _ => ?_
    all_goals simp only [*, IoKept.ok, chipRead_kept, State.writeVa_kept] )

theorem State.runCmd_kept {s : State} (m : Cmd) (w : CmdKind) (hks : s.MemOk) : IoKept (State.runCmd s m w) := by
  unfold State.runCmd
  dsimp only
  repeat' first
    | split
    | with_reducible refine Io.bind_kept _ _ ?_ fun _ _ _ => ?_
  all_goals simp only [*, IoKept.ok, IoKept.wait, State.runEcpy_kept, gatherName_kept, gatherRows_kept,
      scatterName_kept, scatterRows_kept, State.writeVa_kept]

theorem State.partEcpy_kept {s : State} (m : Cmd) (kind : Nat) (ty : Ty) (va : Nat) (len : Nat) (sb : Nat) (sc : Nat)
    (o : Nat) (k : Nat) (hks : s.MemOk) :
    IoKept (State.partEcpy s m kind ty va len sb sc o k) := by
  unfold State.partEcpy
  dsimp only
  repeat' first
    | (rename (_ : Option State) = some _ => e
       replace e := OptKept.of_some e (by
           clear e
           simp only [*, State.m2s_kept]))
    | split
    | with_reducible refine Io.bind_kept _ _ ?_ fun _ _ _ => ?_
    | with_reducible refine IoKept.ok ?_
    | with_reducible refine IoKept.fail ?_
  all_goals simp only [*, State.readVa_kept, State.m2b_kept, State.tileWrite_kept, chipRead_kept,
      State.writeVa_kept, tileRead_kept]

theorem State.partCmd_kept {s : State} (m : Cmd) (w : CmdKind) (o : Nat) (k : Nat) (v : Lanes) (hks : s.MemOk) :
    IoKept (State.partCmd s m w o k v) := by
  unfold State.partCmd
  dsimp only
  repeat' first
    | split
    | with_reducible refine Io.bind_kept _ _ ?_ fun _ _ _ => ?_
    | with_reducible refine IoKept.ok ?_
  all_goals simp only [*, IoKept.wait, State.partEcpy_kept, gatherName_kept, scatterName_kept, State.readVa_kept,
      chipRead_kept, State.writeChip_kept, State.writeVa_kept]

theorem partRuns_kept (m : Cmd) (w : CmdKind) (x2 : List (Nat × Nat)) {x3 : State} (x4 : Lanes) (hkx3 : x3.MemOk) :
    IoKept (partRuns m w x2 x3 x4) := by
  induction x2 generalizing x3 x4 with
  | nil => exact IoKept.ok hkx3
  | cons r rs ih => exact Io.bind_kept _ _ (State.partCmd_kept _ _ _ _ _ hkx3) fun _ _ h => ih _ h

theorem State.runRest_kept {s : State} (m : Cmd) (w : CmdKind) (hks : s.MemOk) : IoKept (State.runRest s m w) := by
  unfold State.runRest
  dsimp only
  split
  · exact State.runCmd_kept _ _ hks
  · exact partRuns_kept _ _ _ _ hks

theorem State.cmdKill_kept {s : State} (m : Cmd) (kind : Nat) (inst : Nat) (addr : Nat) (hks : s.MemOk) :
    (State.cmdKill s m kind inst addr).MemOk := by
  unfold State.cmdKill
  repeat' split
  all_goals simp only [*, State.gangKill_kept]

theorem State.endIo_kept {s : State} (k : Nat) (m : Cmd) (r : Io Lanes) (done : State → Lanes → State) (hs : s.MemOk)
    (hr : IoKept r) (hd : ∀ t v, t.MemOk → (done t v).MemOk) : OutKept (State.endIo s k m r done) := by
  unfold State.endIo
  split
  · exact State.passOver_kept hs
  · exact OutKept.next (hd _ _ hr)
  · exact OutKept.next (State.finishCmd_kept _ _ _ _ hr)
  · exact OutKept.next (State.finishCmd_kept _ _ _ _ (State.cmdKill_kept _ _ _ _ hr))

theorem execEngineCommandComplete_kept (k : Nat) {s : State} (hks : s.MemOk) :
    OutKept (execEngineCommandComplete k s) := by
  unfold execEngineCommandComplete
  repeat' split
  all_goals simp +contextual (maxDischargeDepth := 40) only [*, implies_true, State.passOver_kept, State.endIo_kept,
      State.runRest_kept, State.finishCmd_kept]

theorem State.reached_kept {s : State} (m : Cmd) (hks : s.MemOk) : ReachedKept (State.reached s m) := by
  unfold State.reached
  repeat' first
    | (rename _ = Io.ok _ _ => e
       replace e := IoKept.of_ok e (by
           clear e
           simp only [*, State.readVa_kept]))
    | (rename _ = Io.fail _ _ _ _ => e
       replace e := IoKept.of_fail e (by
           clear e
           simp only [*, State.readVa_kept]))
    | (rename _ = Io.kill _ _ _ _ => e
       replace e := IoKept.of_kill e (by
           clear e
           simp only [*, State.readVa_kept]))
    | split
  all_goals simp only [*, ReachedKept.plan, ReachedKept.fail, ReachedKept.kill, ReachedKept.none]

theorem State.nextRecord_kept {s : State} (k : Nat) (m : Cmd) (hks : s.MemOk) : (State.nextRecord s k m).MemOk := by
  unfold State.nextRecord
  repeat' split
  all_goals simp only [*, memOk_mk_iff, State.MemOk.out, State.finishCmd_kept]

theorem execEngineRecordComplete_kept (k : Nat) {s : State} (hks : s.MemOk) :
    OutKept (execEngineRecordComplete k s) := by
  unfold execEngineRecordComplete
  repeat' first
    | (rename _ = Reached.plan _ _ => e
       replace e := ReachedKept.of_plan e (by
           clear e
           simp +contextual (maxDischargeDepth := 40) only [*, State.reached_kept]))
    | (rename _ = Reached.fail _ _ => e
       replace e := ReachedKept.of_fail e (by
           clear e
           simp +contextual (maxDischargeDepth := 40) only [*, State.reached_kept]))
    | (rename _ = Reached.kill _ _ _ _ => e
       replace e := ReachedKept.of_kill e (by
           clear e
           simp +contextual (maxDischargeDepth := 40) only [*, State.reached_kept]))
    | split
  all_goals simp +contextual (maxDischargeDepth := 40) only [*, implies_true, OutKept.next, State.passOver_kept,
      State.finishCmd_kept, State.cmdKill_kept, State.endIo_kept, State.runRest_kept, State.nextRecord_kept]

theorem State.cmdPart_kept {s : State} (k : Nat) (i : Nat) (hks : s.MemOk) : OutKept (State.cmdPart s k i) := by
  unfold State.cmdPart
  split
  · exact State.passOver_kept hks
  · split
    · exact State.passOver_kept hks
    · split
      · next e =>
        extract_lets m1
        split
        · exact State.passOver_kept hks
        · exact State.endIo_kept _ _ _ _ hks
            (State.partCmd_kept _ _ _ _ _ (ReachedKept.of_plan e (State.reached_kept _ hks))) fun _ _ h => h
      · exact State.passOver_kept hks

theorem State.collOf_kept {s : State} (m : Cmd) (hks : s.MemOk) : OpKept Prod.fst (State.collOf s m) := by
  unfold State.collOf
  repeat' first
    | (rename _ = Reached.plan _ _ => e
       replace e := ReachedKept.of_plan e (by
           clear e
           simp only [*, State.reached_kept]))
    | split
  all_goals simp only [*, OpKept.some, OpKept.none]

theorem State.groupAt_kept {s : State} (m : Cmd) (q : Coll) (hks : s.MemOk) : IoKept (State.groupAt s m q) := by
  unfold State.groupAt
  dsimp only
  repeat' first
    | split
    | with_reducible refine Io.bind_kept _ _ ?_ fun _ _ _ => ?_
  all_goals simp only [*, IoKept.ok, State.readVa_kept]

theorem State.meet_kept : ∀ (ks : List Nat) {s : State}, s.MemOk → OpKept Prod.fst (State.meet s ks)
  | [], s, h => OpKept.some (p := Prod.fst) h
  | k :: ks, s, h => by
    unfold State.meet
    split
    · exact OpKept.none
    · next m _ =>
      have hq := State.collOf_kept m h
      split
      · exact OpKept.none
      · next t q e =>
        have ht : t.MemOk := OpKept.of_some (p := Prod.fst) e hq
        have hg := State.groupAt_kept m q ht
        split
        · next e2 => exact OpKept.map (State.meet_kept ks (IoKept.of_ok e2 hg)) fun _ ha => ha
        · next e2 => exact OpKept.map (State.meet_kept ks (IoKept.of_fail e2 hg)) fun _ ha => ha
        · next e2 => exact OpKept.map (State.meet_kept ks (State.cmdKill_kept _ _ _ _ (IoKept.of_kill e2 hg))) fun _
            ha => ha
        · exact OpKept.none

theorem State.failEach_kept {s : State} (fs : List (Nat × CmdFail)) (hks : s.MemOk) :
    (State.failEach s fs).MemOk := by
  unfold State.failEach
  repeat' first
    | split
    | with_reducible refine foldl_memOk _ (fun _ _ _ => ?_) _ ?_
  all_goals simp only [*, State.finishCmd_kept]

theorem State.failAll_kept {s : State} (ms : List Member) (f : CmdFail) (hks : s.MemOk) :
    (State.failAll s ms f).MemOk := by
  unfold State.failAll
  simp only [*, State.failEach_kept]

theorem State.someCause_kept {s : State} (hks : s.MemOk) : (State.someCause s).2.MemOk := by
  unfold State.someCause
  dsimp only
  simp only [*, memOk_mk_iff, State.MemOk.out]

theorem State.endColl_kept {s : State} (k : Nat) (m : Cmd) (hks : s.MemOk) : (State.endColl s k m).MemOk := by
  unfold State.endColl
  repeat' split
  all_goals simp only [*, State.nextRecord_kept, State.finishCmd_kept]

theorem readInputs_kept (roots : List Nat) :
    ∀ (ps : List Member) {s : State}, s.MemOk → InputsKept (readInputs roots ps s)
  | [], s, h => fun _ e => by cases e; exact h
  | p :: ps, s, h => by
    unfold readInputs
    dsimp only
    have hr := State.readVa_kept p.cmd.agent .read (p.coll.va + (p.coll.input roots p.group.nrank p.group.me).1)
      (p.coll.input roots p.group.nrank p.group.me).2 h
    split
    · next e =>
      intro v hv
      obtain ⟨u, hu, rfl⟩ := Option.map_eq_some_iff.mp hv
      have := readInputs_kept roots ps (IoKept.of_ok e hr) u hu
      cases u <;> exact this
    · next e => exact fun _ hv => by cases hv; exact IoKept.of_fail e hr
    · next e => exact fun _ hv => by cases hv; exact State.cmdKill_kept _ _ _ _ (IoKept.of_kill e hr)
    · exact fun _ hv => nomatch hv

theorem writeOutputs_kept (ins : List (List Byte)) (x1 : List Member) {x2 : State} (hkx2 : x2.MemOk) :
    OptKept (writeOutputs ins x1 x2) := by
  induction x1 generalizing x2 <;>
  ( unfold writeOutputs
    try dsimp only
    repeat' first
      | (rename _ = Io.ok _ _ => e
         replace e := IoKept.of_ok e (by
             clear e
             simp +contextual (maxDischargeDepth := 40) only [*, State.writeVa_kept]))
      | (rename _ = Io.fail _ _ _ _ => e
         replace e := IoKept.of_fail e (by
             clear e
             simp +contextual (maxDischargeDepth := 40) only [*, State.writeVa_kept]))
      | (rename _ = Io.kill _ _ _ _ => e
         replace e := IoKept.of_kill e (by
             clear e
             simp +contextual (maxDischargeDepth := 40) only [*, State.writeVa_kept]))
      | split
    all_goals simp +contextual (maxDischargeDepth := 40) only [*, OptKept.some, OptKept.none, State.endColl_kept,
        State.finishCmd_kept, State.cmdKill_kept] )

theorem leaveOutputs_kept (ins : List (List Byte)) (ps : List Member) {s : State} (hks : s.MemOk) :
    OptKept (leaveOutputs ins ps s) := by
  unfold leaveOutputs
  refine OptKept.some (foldl_memOk _ (fun t p h => ?_) _ hks)
  exact h

theorem State.collect_kept {s : State} (p : Member) (ms : List Member) (remote : List (Nat × List Byte)) (fails : Bool)
    (out : List (List Byte) → List Member → State → Option State)
    (ho : ∀ ins ps t, t.MemOk → OptKept (out ins ps t)) (hs : s.MemOk) :
    OptKept (State.collect s p ms remote fails out) := by
  unfold State.collect
  split
  · exact OptKept.some (State.failAll_kept _ _ hs)
  · split
    · exact OptKept.some (State.failAll_kept _ _ (State.someCause_kept hs))
    · extract_lets n roots
      split
      · intro t e
        obtain ⟨v, hv, e2⟩ := Option.bind_eq_some_iff.mp e
        have h := readInputs_kept roots ms hs v hv
        split at e2
        · cases e2; exact State.failAll_kept _ _ h
        · obtain ⟨ins, -, e3⟩ := Option.bind_eq_some_iff.mp e2
          exact ho _ _ _ h t e3
      · exact OptKept.none

theorem State.ranksMeet_kept {s : State} (ks : List Nat) (remote : List (Nat × List Byte)) (fails : Bool)
    (out : List (List Byte) → List Member → State → Option State)
    (ho : ∀ ins ps t, t.MemOk → OptKept (out ins ps t)) (hks : s.MemOk) :
    OutKept (State.ranksMeet ks remote fails out s) := by
  unfold State.ranksMeet
  dsimp only
  have hm := State.meet_kept ks hks
  repeat' split
  · exact State.passOver_kept hks
  · next e => exact OutKept.next (State.failEach_kept _ (OpKept.of_some (p := Prod.fst) e hm))
  · exact State.passOver_kept hks
  · next e _ _ _ h =>
    exact OutKept.next (OptKept.of_some h (State.collect_kept _ _ _ _ _ ho (OpKept.of_some (p := Prod.fst) e hm)))
  · exact State.passOver_kept hks
  · exact State.passOver_kept hks

theorem execCollectiveMatch_kept (ks : List Nat) (remote : List (Nat × List Byte)) (fails : Bool) {s : State} (hks :
    s.MemOk) :
    OutKept (execCollectiveMatch ks remote fails s) := by
  unfold execCollectiveMatch
  exact State.ranksMeet_kept _ _ _ _ (fun _ _ _ h => writeOutputs_kept _ _ h) hks

theorem State.collMeet_kept {s : State} (ks : List Nat) (remote : List (Nat × List Byte)) (hks : s.MemOk) :
    OutKept (State.collMeet s ks remote) := by
  unfold State.collMeet
  exact State.ranksMeet_kept _ _ _ _ (fun _ _ _ h => leaveOutputs_kept _ _ h) hks

/-! ## FloatAlu -/

theorem execFadd_kept (f : FnT) (x : Ops) {s : State} (hks : s.MemOk) : OutKept (execFadd f x s) := by
  unfold execFadd
  simp only [*, implies_true, issueStep_kept, laneBinary_kept]

theorem execFsub_kept (f : FnT) (x : Ops) {s : State} (hks : s.MemOk) : OutKept (execFsub f x s) := by
  unfold execFsub
  simp only [*, implies_true, issueStep_kept, laneBinary_kept]

theorem execFmul_kept (f : FnT) (x : Ops) {s : State} (hks : s.MemOk) : OutKept (execFmul f x s) := by
  unfold execFmul
  simp only [*, implies_true, issueStep_kept, laneBinary_kept]

theorem execFfma_kept (f : FnT) (x : Ops) {s : State} (hks : s.MemOk) : OutKept (execFfma f x s) := by
  unfold execFfma
  simp only [*, implies_true, issueStep_kept, laneTernary_kept]

theorem execFmin_kept (f : FnT) (x : Ops) {s : State} (hks : s.MemOk) : OutKept (execFmin f x s) := by
  unfold execFmin
  simp only [*, implies_true, issueStep_kept, laneBinary_kept]

theorem execFmax_kept (f : FnT) (x : Ops) {s : State} (hks : s.MemOk) : OutKept (execFmax f x s) := by
  unfold execFmax
  simp only [*, implies_true, issueStep_kept, laneBinary_kept]

theorem bodyFcmp_kept (c : Nat) (f : FnT) (x : Ops) : MKept ((bodyFcmp c f x) : M Unit) := by
  unfold bodyFcmp
  repeat' with_reducible refine MKept.bind ?_ fun _ => ?_
  all_goals simp only [*, readSrc_kept, readB_kept, writeCond_kept]

theorem execFcmp_kept (f : FnT) (x : Ops) {s : State} (hks : s.MemOk) : OutKept (execFcmp f x s) := by
  unfold execFcmp
  simp only [*, implies_true, issueStep_kept, bodyFcmp_kept]

theorem execFrcp_kept (f : FnT) (x : Ops) {s : State} (hks : s.MemOk) : OutKept (execFrcp f x s) := by
  unfold execFrcp
  simp only [*, implies_true, issueStep_kept, laneUnary_kept]

theorem execFrsq_kept (f : FnT) (x : Ops) {s : State} (hks : s.MemOk) : OutKept (execFrsq f x s) := by
  unfold execFrsq
  simp only [*, implies_true, issueStep_kept, laneUnary_kept]

theorem execFsqrt_kept (f : FnT) (x : Ops) {s : State} (hks : s.MemOk) : OutKept (execFsqrt f x s) := by
  unfold execFsqrt
  simp only [*, implies_true, issueStep_kept, laneUnary_kept]

theorem execFexp2_kept (f : FnT) (x : Ops) {s : State} (hks : s.MemOk) : OutKept (execFexp2 f x s) := by
  unfold execFexp2
  simp only [*, implies_true, issueStep_kept, laneUnary_kept]

theorem execFlog2_kept (f : FnT) (x : Ops) {s : State} (hks : s.MemOk) : OutKept (execFlog2 f x s) := by
  unfold execFlog2
  simp only [*, implies_true, issueStep_kept, laneUnary_kept]

theorem execFtanh_kept (f : FnT) (x : Ops) {s : State} (hks : s.MemOk) : OutKept (execFtanh f x s) := by
  unfold execFtanh
  simp only [*, implies_true, issueStep_kept, laneUnary_kept]

theorem bodyFclass_kept (c : Nat) (f : FnT) (x : Ops) : MKept ((bodyFclass c f x) : M Unit) := by
  unfold bodyFclass
  dsimp only
  repeat' first
    | with_reducible refine MKept.bind ?_ fun _ => ?_
    | split
  all_goals simp only [*, readSrc_kept, readMerge_kept, emask_kept, writeScalar_kept, storeVec_kept]

theorem execFclass_kept (f : FnT) (x : Ops) {s : State} (hks : s.MemOk) : OutKept (execFclass f x s) := by
  unfold execFclass
  simp only [*, implies_true, issueStep_kept, bodyFclass_kept]

theorem execHadd_kept (f : FnT) (x : Ops) {s : State} (hks : s.MemOk) : OutKept (execHadd f x s) := by
  unfold execHadd
  simp only [*, implies_true, issueStep_kept, laneBinary_kept]

theorem execHmul_kept (f : FnT) (x : Ops) {s : State} (hks : s.MemOk) : OutKept (execHmul f x s) := by
  unfold execHmul
  simp only [*, implies_true, issueStep_kept, laneBinary_kept]

theorem execHfma_kept (f : FnT) (x : Ops) {s : State} (hks : s.MemOk) : OutKept (execHfma f x s) := by
  unfold execHfma
  simp only [*, implies_true, issueStep_kept, laneTernary_kept]

/-! ## MemEvents -/

theorem State.accessTrap_kept {s : State} (c : Nat) (a : Access) (cause : Cause) (addr : Nat) (lanes : Mask) (hks :
    s.MemOk) :
    (State.accessTrap s c a cause addr lanes).MemOk := by
  unfold State.accessTrap
  repeat' split
  all_goals simp only [*, State.takeTrap_kept]

theorem State.killPoison_kept {s : State} (c : Nat) (pc : Nat) (kind : Nat) (inst : Nat) (addr : Nat) (hks : s.MemOk)
    :
    (State.killPoison s c pc kind inst addr).MemOk := by
  unfold State.killPoison
  repeat' split
  all_goals simp only [*, State.gangKill_kept]

theorem xlatLanes_kept (x : Crew) (a : Access) (x2 : List (Fin 32)) {x3 : State} (hkx3 : x3.MemOk) :
    (xlatLanes x a x2 x3).2.MemOk := by
  induction x2 generalizing x3 <;>
  ( unfold xlatLanes
    try dsimp only
    all_goals simp only [*, State.laneXlat_kept] )

theorem State.walkCanaries_kept {s : State} (x : Crew) (a : Access) (hks : s.MemOk) :
    (State.walkCanaries s x a).MemOk := by
  unfold State.walkCanaries
  dsimp only
  repeat' first
    | split
    | with_reducible refine foldl_memOk _ (fun _ _ _ => ?_) _ ?_
  all_goals simp only [*, State.passWalk_kept]

theorem execTranslationWalkComplete_kept (c : Nat) (a : Nat) {s : State} (hks : s.MemOk) :
    OutKept (execTranslationWalkComplete c a s) := by
  unfold execTranslationWalkComplete
  dsimp only
  repeat' split
  all_goals simp +contextual (maxDischargeDepth := 40) only [*, OutKept.next, State.passOver_kept, xlatLanes_kept,
      State.walkCanaries_kept, State.killPoison_kept, State.accessTrap_kept, State.modCrew_kept]

theorem State.canaries_kept {s : State} (x : Crew) (a : Access) (lanes : Mask) (hks : s.MemOk) :
    (State.canaries s x a lanes).MemOk := by
  unfold State.canaries
  dsimp only
  repeat' first
    | split
    | with_reducible refine foldl_memOk _ (fun _ _ _ => ?_) _ ?_
  all_goals simp only [*, State.passUnits_kept]

theorem afterPerform_kept {s : State} (c : Nat) (a : Access) (r : PerfRes) (_hks : s.MemOk) (hr : PerfKept r) :
    OutKept (afterPerform s c a r) := by
  unfold afterPerform
  dsimp only
  repeat' first
    | (dsimp only [PerfKept] at hr)
    | split
  all_goals simp only [*, OutKept.next, State.passOver_kept, State.killPoison_kept, State.acquireL1_kept]

theorem State.syncTrap_kept {s : State} (c : Nat) (x : Crew) (a : Access) (line : Nat) (l : Nat) (m : Mask) (hks :
    s.MemOk) :
    (State.syncTrap s c x a line l m).MemOk := by
  unfold State.syncTrap
  simp only [*, State.accessTrap_kept, State.notePoison_kept]

theorem State.linkRecords_kept {s : State} (who : Rec) (lines : List Nat) (hks : s.MemOk) :
    (State.linkRecords s who lines).MemOk := by
  unfold State.linkRecords
  exact foldl_memOk _ (fun _ _ h => State.linkRecord_kept _ _ _ h) _ hks

theorem execMemoryAccessPerformed_kept (c : Nat) (a : Nat) (lanes : Mask) {s : State} (hks : s.MemOk) :
    OutKept (execMemoryAccessPerformed c a lanes s) := by
  unfold execMemoryAccessPerformed
  dsimp only
  repeat' first
    | split
    | with_reducible refine afterPerform_kept _ _ _ (by assumption) ?_
    | with_reducible refine performLanes_kept _ _ (fun _ _ _ _ _ => ?_) _ _ ?_
  all_goals simp +contextual (maxDischargeDepth := 40) only [*, OutKept.next, State.passOver_kept,
      State.syncTrap_kept, State.canaries_kept, State.linkRecords_kept, performChip_kept, performMem_kept]

theorem State.throughWindow_kept {s : State} (x : Crew) (c : Nat) (b : Access) (all : Mask) (m : Mask) (ls : List (Fin
    32)) (one : State → Access → Nat → Place → LaneRes) (hks : s.MemOk) (hone : ∀ t a l p, t.MemOk → LaneKept (one t a
    l p)) :
    OutKept (State.throughWindow s x c b all m ls one) := by
  unfold State.throughWindow
  repeat' first
    | split
    | with_reducible refine afterPerform_kept _ _ _ (by assumption) ?_
    | with_reducible refine performLanes_kept _ _ (fun _ _ _ _ _ => ?_) _ _ ?_
  all_goals simp only [*, OutKept.next, State.passOver_kept, State.accessTrap_kept, State.canaries_kept]

theorem windowOne_kept (x : Crew) {t : State} (d : Access) (l : Nat) (x4 : Place) (hkt : t.MemOk) :
    LaneKept (windowOne x t d l x4) := by
  unfold windowOne
  repeat' split
  all_goals simp only [*, LaneKept.wait, performChip_kept]

theorem execWindowRead_kept (c : Nat) (a : Nat × Mask) {s : State} (hks : s.MemOk) :
    OutKept (execWindowRead c a s) := by
  unfold execWindowRead
  dsimp only
  repeat' split
  all_goals simp +contextual (maxDischargeDepth := 40) only [*, implies_true, State.passOver_kept,
      State.throughWindow_kept, windowOne_kept]

theorem entryOne_kept (x : Crew) {t : State} (d : Access) (l : Nat) (x4 : Place) (hkt : t.MemOk) :
    LaneKept (entryOne x t d l x4) := by
  unfold entryOne
  dsimp only
  repeat' first
    | (rename (_ : Option State) = some _ => e
       replace e := OptKept.of_some e (by
           clear e
           simp only [*, State.writeEntry_kept]))
    | split
  all_goals simp only [*, LaneKept.ok, LaneKept.wait]

theorem execWindowWrite_kept (c : Nat) (a : Nat × Mask) {s : State} (hks : s.MemOk) :
    OutKept (execWindowWrite c a s) := by
  unfold execWindowWrite
  dsimp only
  repeat' split
  all_goals simp +contextual (maxDischargeDepth := 40) only [*, implies_true, State.passOver_kept,
      State.throughWindow_kept, entryOne_kept]

theorem execLoadDataArrival_kept (a : Nat) {s : State} (hks : s.MemOk) : OutKept (execLoadDataArrival a s) := by
  unfold execLoadDataArrival
  dsimp only
  repeat' split
  all_goals simp +contextual (maxDischargeDepth := 40) only [*, memOk_mk_iff, State.MemOk.out, OutKept.next,
      State.passOver_kept, State.respill_kept, State.modCrew_kept]

end Sys2Proof.Machine
end

