-- ==== Sys2Proof/Laws/KeptInstr.lean ====
section
/-!
SUPPORT. Laws/KeptInstr.lean: what keeps memory in its canonical form:
the steward, security, the host link and every instruction.
-/

open Sys2Proof

namespace Sys2Proof.Machine

/-! ## Reliability -/

theorem State.modLife_kept {s : State} (kind : Nat) (inst : Nat) (f : Life → Life) (hks : s.MemOk) :
    (State.modLife s kind inst f).MemOk := by
  unfold State.modLife
  dsimp only
  repeat' split
  all_goals simp only [*, memOk_mk_iff, State.MemOk.out]

theorem State.revoke_kept {s : State} (kind : Nat) (inst : Nat) (d : Nat) (hks : s.MemOk) :
    (State.revoke s kind inst d).MemOk := by
  unfold State.revoke
  dsimp only
  simp +contextual (maxDischargeDepth := 40) only [*, State.modLife_kept, State.setUv_kept, State.evaluate_kept,
      State.record_kept]

theorem State.revokeToo_kept {s : State} (kind : Nat) (inst : Nat) (d : Nat) (hks : s.MemOk) :
    (State.revokeToo s kind inst d).MemOk := by
  unfold State.revokeToo
  dsimp only
  simp only [*, State.record_kept, State.modLife_kept]

theorem State.lowerCeiling_kept {s : State} (kind : Nat) (inst : Nat) (d : Nat) (hks : s.MemOk) :
    (State.lowerCeiling s kind inst d).MemOk := by
  unfold State.lowerCeiling
  dsimp only
  repeat' split
  all_goals simp +contextual (maxDischargeDepth := 40) only [*, memOk_mk_iff, State.MemOk.out, State.modLife_kept,
      State.record_kept, State.evaluate_kept]

theorem State.countError_kept {s : State} (kind : BitVec 8) (inst : BitVec 16) (addr : DWord) (hks : s.MemOk) :
    (State.countError s kind inst addr).MemOk := by
  unfold State.countError
  dsimp only
  repeat' split
  all_goals simp +contextual (maxDischargeDepth := 40) only [*, memOk_mk_iff, State.MemOk.out, State.modLife_kept,
      State.record_kept]

theorem State.crossed_kept {s : State} (told : List (Nat × Nat)) (kind : Nat) (inst : Nat) (step : Nat) (hks :
    s.MemOk) :
    (State.crossed s told kind inst step).1.MemOk := by
  unfold State.crossed
  dsimp only
  repeat' split
  all_goals simp only [*, State.revokeToo_kept, State.revoke_kept, State.lowerCeiling_kept]

theorem State.countAll_kept (x1 : List (BitVec 8 × BitVec 16 × DWord)) {x0 : State} (hkx0 : x0.MemOk) :
    (State.countAll x0 x1).1.MemOk := by
  induction x1 generalizing x0 with
  | nil => exact hkx0
  | cons e es ih => exact ih (State.countError_kept _ _ _ hkx0)

theorem State.crossAll_kept (x2 : List (Nat × Nat × Nat)) {x0 : State} (x1 : List (Nat × Nat)) (hkx0 : x0.MemOk) :
    (State.crossAll x0 x1 x2).MemOk := by
  induction x2 generalizing x0 x1 with
  | nil => exact hkx0
  | cons e es ih => exact ih _ (State.crossed_kept _ _ _ _ hkx0)

theorem State.correct_kept {s : State} (es : List (BitVec 8 × BitVec 16 × DWord)) (hks : s.MemOk) :
    (State.correct s es).MemOk := by
  unfold State.correct
  exact State.crossAll_kept _ _ (State.countAll_kept _ hks)

theorem execCorrectedError_kept (kind : BitVec 8) (inst : BitVec 16) (addr : DWord × List (BitVec 8 × BitVec 16
    × DWord)) {s : State} (hks : s.MemOk) :
    OutKept (execCorrectedError kind inst addr s) := by
  unfold execCorrectedError
  dsimp only
  repeat' split
  all_goals simp only [*, OutKept.next, State.correct_kept, State.passOver_kept]

theorem execRateWindowExpiry_kept {s : State} (hks : s.MemOk) : OutKept (execRateWindowExpiry s) := by
  unfold execRateWindowExpiry
  dsimp only
  simp only [*, memOk_mk_iff, State.MemOk.out, OutKept.next]

theorem execErrstatOvfClear_kept {s : State} (hks : s.MemOk) : OutKept (execErrstatOvfClear s) := by
  unfold execErrstatOvfClear
  dsimp only
  simp only [*, memOk_mk_iff, State.MemOk.out, OutKept.next]

theorem execOntimeTick_kept {s : State} (hks : s.MemOk) : OutKept (execOntimeTick s) := by
  unfold execOntimeTick
  dsimp only
  simp only [*, memOk_mk_iff, State.MemOk.out, OutKept.next]

theorem State.poisonLine_kept {s : State} (line : Nat) (slice : Option Nat) (r : Rec) (hks : s.MemOk) :
    (State.poisonLine s line slice r).MemOk := by
  unfold State.poisonLine
  repeat' split
  all_goals simp only [*, memOk_mk_iff, State.MemOk.out, State.record_kept]

theorem State.trapAtomics_kept {s : State} (line : Nat) (hks : s.MemOk) : (State.trapAtomics s line).MemOk := by
  unfold State.trapAtomics
  repeat' first
    | split
    | with_reducible refine foldl_memOk _ (fun _ _ _ => ?_) _ ?_
  all_goals simp only [*, State.syncTrap_kept]

theorem State.poisonSync_kept {s : State} (line : Nat) (inst : Nat) (hks : s.MemOk) :
    (State.poisonSync s line inst).MemOk := by
  unfold State.poisonSync
  dsimp only
  repeat' split
  all_goals simp +contextual (maxDischargeDepth := 40) only [*, memOk_mk_iff, State.MemOk.out, State.trapAtomics_kept,
      State.record_kept]

theorem State.arrayFails_kept {s : State} (core : Nat) (hks : s.MemOk) : OptKept (State.arrayFails s core) := by
  unfold State.arrayFails
  split
  · exact OptKept.none
  · refine OptKept.some ?_
    split
    · exact hks
    · exact State.gangKill_kept _ _ hks

theorem State.markError_kept {s : State} (kind : Nat) (inst : Nat) (loc : ErrLoc) (hks : s.MemOk) :
    OptKept (State.markError s kind inst loc) := by
  unfold State.markError
  dsimp only
  repeat' split
  all_goals simp only [*, memOk_mk_iff, State.MemOk.out, OptKept.some, State.modCore_kept, State.arrayFails_kept,
      State.poisonLine_kept, State.poisonSync_kept, State.modCrew_kept]

theorem execUncorrectableError_kept (kind : BitVec 8) (inst : BitVec 16) (loc : ErrLoc) {s : State} (hks : s.MemOk) :
    OutKept (execUncorrectableError kind inst loc s) := by
  unfold execUncorrectableError
  dsimp only
  repeat' first
    | (rename (_ : Option State) = some _ => e
       replace e := OptKept.of_some e (by
           clear e
           simp only [*, State.markError_kept, State.modLife_kept]))
    | split
  all_goals simp only [*, OutKept.next, State.passOver_kept]

theorem State.clearLine_kept {s : State} (line : Nat) (hks : s.MemOk) : (State.clearLine s line).MemOk := by
  unfold State.clearLine
  dsimp only
  repeat' with_reducible refine foldl_memOk _ (fun _ _ _ => ?_) _ ?_
  all_goals simp +contextual (maxDischargeDepth := 40) only [*, memOk_mk_iff, State.MemOk.out, Memory.clear_wf,
      State.record_kept, State.raise_kept, State.modCtx_kept]

theorem execPoisonclr_kept (die : Nat) (v : DWord) {s : State} (hks : s.MemOk) : OutKept (execPoisonclr die v s) := by
  unfold execPoisonclr
  dsimp only
  repeat' split
  all_goals simp only [*, OutKept.next, State.clearLine_kept]

/-! ## Steward -/

theorem State.setKeySlot_kept {s : State} (k : Nat) (x : KeySlot) (hks : s.MemOk) :
    (State.setKeySlot s k x).MemOk := by
  unfold State.setKeySlot
  dsimp only
  simp only [*, memOk_mk_iff, State.MemOk.out]

theorem State.markZeroised_kept {s : State} (k : Nat) (hks : s.MemOk) : (State.markZeroised s k).MemOk := by
  unfold State.markZeroised
  repeat' split
  all_goals simp only [*, memOk_mk_iff, State.MemOk.out]

theorem State.dropTagged_kept {s : State} (k : Nat) (hks : s.MemOk) : (State.dropTagged s k).MemOk := by
  unfold State.dropTagged
  simp only [*, memOk_mk_iff, State.MemOk.out]

theorem State.zeroSlot_kept {s : State} (k : Nat) (hks : s.MemOk) : (State.zeroSlot s k).MemOk := by
  unfold State.zeroSlot
  dsimp only
  repeat' split
  all_goals simp +contextual (maxDischargeDepth := 40) only [*, memOk_mk_iff, State.MemOk.out,
      State.markZeroised_kept, State.setKeySlot_kept, State.dropTagged_kept]

theorem State.beginZero_kept {s : State} (k : Nat) (hks : s.MemOk) : (State.beginZero s k).MemOk := by
  unfold State.beginZero
  dsimp only
  repeat' split
  all_goals simp only [*, memOk_mk_iff, State.MemOk.out]

theorem runKzero_kept (c : Nat) (x : Ops) : MKept ((runKzero c x) : M Unit) := by
  unfold runKzero
  dsimp only
  repeat' first
    | with_reducible refine MKept.getS_bind fun _ _ => ?_
    | with_reducible refine MKept.bind ?_ fun _ => ?_
    | split
  all_goals simp +contextual (maxDischargeDepth := 40) only [*, MKept.bind, MKept.pure, MKept.modS, implies_true,
      needPriv_kept, crewM_kept, issue_kept, readScalar_kept, State.markZeroised_kept, twoPhase_kept,
      State.beginZero_kept]

theorem execKzero_kept (x : Ops) {s : State} (hks : s.MemOk) : OutKept (execKzero x s) := by
  unfold execKzero
  simp only [*, implies_true, crewStep_kept, runKzero_kept]

theorem execKzeroComplete_kept (slot : BitVec 7) {s : State} (hks : s.MemOk) :
    OutKept (execKzeroComplete slot s) := by
  unfold execKzeroComplete
  dsimp only
  repeat' split
  all_goals simp +contextual (maxDischargeDepth := 40) only [*, memOk_mk_iff, State.MemOk.out, OutKept.next,
      State.passOver_kept, State.tidySlot_kept, State.zeroSlot_kept]

theorem State.startScrub_kept {s : State} (l : List (Nat × Nat)) (hks : s.MemOk) : (State.startScrub s l).MemOk := by
  unfold State.startScrub
  dsimp only
  simp only [*, memOk_mk_iff, State.MemOk.out]

theorem bodyScrub_kept (c : Nat) (x : Ops) : MKept ((bodyScrub c x) : M Unit) := by
  unfold bodyScrub
  repeat' first
    | with_reducible refine MKept.getS_bind fun _ _ => ?_
    | with_reducible refine MKept.bind ?_ fun _ => ?_
    | split
  all_goals simp +contextual (maxDischargeDepth := 40) only [*, MKept.modS, implies_true, needPriv_kept,
      readScalar_kept, writeScalar_kept, State.startScrub_kept]

theorem execScrub_kept (x : Ops) {s : State} (hks : s.MemOk) : OutKept (execScrub x s) := by
  unfold execScrub
  simp only [*, implies_true, issueStep_kept, bodyScrub_kept]

theorem State.freeCtx_kept {s : State} (n : Nat) (hks : s.MemOk) : (State.freeCtx s n).MemOk := by
  unfold State.freeCtx
  dsimp only
  simp +contextual (maxDischargeDepth := 40) only [*, memOk_mk_iff, State.MemOk.out, State.setKeyslot_kept,
      State.modCtx_kept]

theorem bodyCtxfree_kept (c : Nat) (x : Ops) : MKept ((bodyCtxfree c x) : M Unit) := by
  unfold bodyCtxfree
  dsimp only
  repeat' first
    | with_reducible refine MKept.getS_bind fun _ _ => ?_
    | with_reducible refine MKept.bind ?_ fun _ => ?_
    | split
  all_goals simp +contextual (maxDischargeDepth := 40) only [*, MKept.stop, MKept.modS, implies_true, needPriv_kept,
      readScalar_kept, writeScalar_kept, State.freeCtx_kept, acquireM_kept]

theorem execCtxfree_kept (x : Ops) {s : State} (hks : s.MemOk) : OutKept (execCtxfree x s) := by
  unfold execCtxfree
  simp only [*, implies_true, issueStep_kept, bodyCtxfree_kept]

theorem State.zeroPiece_kept {s : State} (base : Nat) (pa : Nat) (hks : s.MemOk) :
    (State.zeroPiece s base pa).MemOk := by
  unfold State.zeroPiece
  dsimp only
  repeat' split
  all_goals simp +contextual (maxDischargeDepth := 40) only [*, memOk_mk_iff, State.MemOk.out, Memory.clear_wf,
      State.clearChip_kept, State.unpoison_kept]

theorem State.freeReleasing_kept {s : State} (hks : s.MemOk) : (State.freeReleasing s).MemOk := by
  unfold State.freeReleasing
  dsimp only
  simp +contextual (maxDischargeDepth := 40) only [*, memOk_mk_iff, State.MemOk.out]

theorem execScrubPieceComplete_kept (fails : Bool) {s : State} (hks : s.MemOk) :
    OutKept (execScrubPieceComplete fails s) := by
  unfold execScrubPieceComplete
  dsimp only
  repeat' split
  all_goals simp +contextual (maxDischargeDepth := 40) only [*, memOk_mk_iff, State.MemOk.out, OutKept.next,
      State.passOver_kept, State.record_kept, State.zeroPiece_kept, State.freeReleasing_kept]

/-! ## Security -/

theorem State.keyStatus_kept {s : State} (slot : BitVec 7) (st : BitVec 8) (hks : s.MemOk) :
    (State.keyStatus s slot st).MemOk := by
  unfold State.keyStatus
  dsimp only
  repeat' split
  all_goals simp only [*, memOk_mk_iff, State.MemOk.out]

theorem State.fillSlot_kept {s : State} (k : Nat) (bytes : List Byte) (gen : Bool) (hks : s.MemOk) :
    (State.fillSlot s k bytes gen).MemOk := by
  unfold State.fillSlot
  dsimp only
  simp only [*, State.setKeySlot_kept]

theorem execGen_kept (slot : BitVec 7) {s : State} (hks : s.MemOk) : OutKept (execGen slot s) := by
  unfold execGen
  dsimp only
  repeat' split
  all_goals simp +contextual (maxDischargeDepth := 40) only [*, memOk_mk_iff, State.MemOk.out, OutKept.next,
      State.keyStatus_kept, State.fillSlot_kept]

theorem execLoad_kept (slot : BitVec 7) {s : State} (hks : s.MemOk) : OutKept (execLoad slot s) := by
  unfold execLoad
  dsimp only
  repeat' split
  all_goals simp +contextual (maxDischargeDepth := 40) only [*, memOk_mk_iff, State.MemOk.out, OutKept.next,
      State.keyStatus_kept, State.fillSlot_kept]

theorem execZero_kept (slot : BitVec 7) {s : State} (hks : s.MemOk) : OutKept (execZero slot s) := by
  unfold execZero
  dsimp only
  repeat' split
  all_goals simp +contextual (maxDischargeDepth := 40) only [*, OutKept.next, State.keyStatus_kept,
      State.markZeroised_kept, State.beginZero_kept]

theorem State.fwResult_kept {s : State} (e : BitVec 8) (hks : s.MemOk) : (State.fwResult s e).MemOk := by
  unfold State.fwResult
  dsimp only
  simp only [*, memOk_mk_iff, State.MemOk.out]

theorem execStage_kept {s : State} (hks : s.MemOk) : OutKept (execStage s) := by
  unfold execStage
  dsimp only
  repeat' split
  all_goals simp only [*, memOk_mk_iff, State.MemOk.out, OutKept.next, State.passOver_kept, State.fwResult_kept]

theorem execCommit_kept {s : State} (hks : s.MemOk) : OutKept (execCommit s) := by
  unfold execCommit
  dsimp only
  repeat' split
  all_goals simp only [*, memOk_mk_iff, State.MemOk.out, OutKept.next, State.fwResult_kept]

theorem execAbort_kept {s : State} (hks : s.MemOk) : OutKept (execAbort s) := by
  unfold execAbort
  repeat' split
  all_goals simp only [*, memOk_mk_iff, State.MemOk.out, OutKept.next, State.fwResult_kept]

theorem execAttctlGo_kept (v : DWord) {s : State} (hks : s.MemOk) : OutKept (execAttctlGo v s) := by
  unfold execAttctlGo
  dsimp only
  repeat' split
  all_goals simp +contextual (maxDischargeDepth := 40) only [*, memOk_mk_iff, State.MemOk.out, OutKept.next,
      State.writeKey_kept]

theorem execMinsvnset_kept (v : DWord) {s : State} (hks : s.MemOk) : OutKept (execMinsvnset v s) := by
  unfold execMinsvnset
  dsimp only
  repeat' split
  all_goals simp only [*, memOk_mk_iff, State.MemOk.out, OutKept.next]

theorem execCtxasgGo_kept (v : DWord) {s : State} (hks : s.MemOk) : OutKept (execCtxasgGo v s) := by
  unfold execCtxasgGo
  dsimp only
  repeat' split
  all_goals simp only [*, memOk_mk_iff, State.MemOk.out, OutKept.next]

theorem execDeviceReset_kept (ports : List BootPort) {s : State} (hks : s.MemOk) :
    OutKept (execDeviceReset ports s) := by
  unfold execDeviceReset
  dsimp only
  simp only [*, memOk_mk_iff, State.MemOk.out, OutKept.next]

/-! ## HostLink -/

theorem State.answerReq_kept {s : State} (r : Resp) (hks : s.MemOk) : (State.answerReq s r).MemOk := by
  unfold State.answerReq
  simp only [*, memOk_mk_iff, State.MemOk.out]

theorem State.outerCanary_kept {s : State} (pa : Nat) (kind : Nat) (inst : Nat) (exit : Option Nat) (hks : s.MemOk) :
    (State.outerCanary s pa kind inst exit).MemOk := by
  unfold State.outerCanary
  simp only [*, State.canaryHit_kept]

theorem State.outerRead_kept {s : State} (key : Nat) (pa : Nat) (n : Nat) (hks : s.MemOk) :
    (State.outerRead s key pa n).MemOk := by
  unfold State.outerRead
  simp only [*, State.answerReq_kept]

theorem State.outerWrite_kept {s : State} (key : Nat) (pa : Nat) (bs : List Byte) (hks : s.MemOk) :
    (State.outerWrite s key pa bs).MemOk := by
  unfold State.outerWrite
  repeat' split
  all_goals simp only [*, State.answerReq_kept, State.writeKey_kept]

theorem State.outerAtom_kept {s : State} (key : Nat) (pa : Nat) (op : Nat) (ty : Ty) (b : Nat) (c : Nat) (hks :
    s.MemOk) :
    (State.outerAtom s key pa op ty b c).MemOk := by
  unfold State.outerAtom
  dsimp only
  repeat' split
  all_goals simp only [*, State.answerReq_kept, State.writeKey_kept]

theorem State.hostReq_kept {s : State} (pa : Nat) (n : Nat) {f : State} (hks : s.MemOk) (hkf : f.MemOk) :
    OutKept (State.hostReq s pa n f) := by
  unfold State.hostReq
  repeat' split
  all_goals simp only [*, OutKept.next, State.passOver_kept, State.answerReq_kept]

theorem execHostRead_kept (pa : Nat) (n : Nat) {s : State} (hks : s.MemOk) : OutKept (execHostRead pa n s) := by
  unfold execHostRead
  simp +contextual (maxDischargeDepth := 40) only [*, State.hostReq_kept, State.outerRead_kept,
      State.outerCanary_kept]

theorem execHostWrite_kept (pa : Nat) (bytes : List Byte) {s : State} (hks : s.MemOk) :
    OutKept (execHostWrite pa bytes s) := by
  unfold execHostWrite
  simp +contextual (maxDischargeDepth := 40) only [*, State.hostReq_kept, State.outerWrite_kept,
      State.outerCanary_kept]

theorem execHostAtomic_kept (pa : Nat) (size : Nat) (op : HostAtom) {s : State} (hks : s.MemOk) :
    OutKept (execHostAtomic pa size op s) := by
  unfold execHostAtomic
  dsimp only
  repeat' split
  all_goals simp +contextual (maxDischargeDepth := 40) only [*, OutKept.next, State.answerReq_kept,
      State.passOver_kept, State.outerCanary_kept, State.hostReq_kept, State.outerAtom_kept]

theorem execPeerRequest_kept (l : Nat) (pa : Nat) (req : PeerReq) {s : State} (hks : s.MemOk) :
    OutKept (execPeerRequest l pa req s) := by
  unfold execPeerRequest
  dsimp only
  repeat' split
  all_goals simp +contextual (maxDischargeDepth := 40) only [*, OutKept.next, State.passOver_kept,
      State.answerReq_kept, State.outerCanary_kept, State.outerRead_kept, State.outerWrite_kept, State.outerAtom_kept]

theorem lostLane_kept {t : State} (x2 : Access) (x3 : Nat) (p : Place) (hkt : t.MemOk) :
    LaneKept (lostLane t x2 x3 p) := by
  unfold lostLane
  simp only [*, LaneKept.bad]

theorem State.loseLanes_kept {s : State} (c : Nat) (x : Crew) (a : Access) (m : Mask) (hks : s.MemOk) :
    OutKept (State.loseLanes s c x a m) := by
  unfold State.loseLanes
  repeat' first
    | with_reducible refine afterPerform_kept _ _ _ (by assumption) ?_
    | with_reducible refine performLanes_kept _ _ (fun _ _ _ _ _ => ?_) _ _ ?_
  all_goals simp only [*, lostLane_kept, State.linkRecords_kept]

theorem execRequestTimeout_kept (c : Nat) (a : Nat) {s : State} (hks : s.MemOk) :
    OutKept (execRequestTimeout c a s) := by
  unfold execRequestTimeout
  dsimp only
  repeat' split
  all_goals simp only [*, State.passOver_kept, State.loseLanes_kept]

theorem State.loseCmd_kept {s : State} (l : Nat) (k : Nat) (hks : s.MemOk) : (State.loseCmd s l k).MemOk := by
  unfold State.loseCmd
  repeat' split
  all_goals simp only [*, State.finishCmd_kept, State.linkRecord_kept]

theorem execLinkDown_kept (l : Nat × List Nat) {s : State} (hks : s.MemOk) :
    OutKept (execLinkDown l s) := by
  unfold execLinkDown
  dsimp only
  repeat' first
    | (rename (_ : Host.Outcome State Fault Refusal) = Host.Outcome.next _ => e
       replace e := OutKept.of_next e (by
           clear e
           simp only [*, State.loseLanes_kept]))
    | split
    | with_reducible refine foldl_memOk _ (fun _ _ _ => ?_) _ ?_
    | (with_reducible refine memOk_mk_iff.2 ?_
       with_reducible refine State.MemOk.out ?_
       with_reducible refine foldl_memOk _ (fun _ _ _ => ?_) _ ?_)
    | with_reducible refine OutKept.next ?_
  all_goals simp only [*, State.passOver_kept, State.loseCmd_kept]

theorem execLinkTrained_kept (l : Nat) (peer : BitVec 16) {s : State} (hks : s.MemOk) :
    OutKept (execLinkTrained l peer s) := by
  unfold execLinkTrained
  dsimp only
  repeat' split
  all_goals simp only [*, memOk_mk_iff, State.MemOk.out, OutKept.next, State.passOver_kept]

theorem execHostLinkDown_kept {s : State} (hks : s.MemOk) : OutKept (execHostLinkDown s) := by
  unfold execHostLinkDown
  dsimp only
  repeat' split
  all_goals simp only [*, memOk_mk_iff, State.MemOk.out, OutKept.next, State.passOver_kept]

theorem State.makePair_kept {s : State} (port : Nat) (pair : Nat) (p : Pair) (hks : s.MemOk) :
    OutKept (State.makePair s port pair p) := by
  unfold State.makePair
  dsimp only
  repeat' split
  all_goals simp only [*, memOk_mk_iff, State.MemOk.out, OutKept.next, State.passOver_kept]

theorem execStorageDoorbell_kept (port : Nat) (pair : Nat) (v : DWord) {s : State} (hks : s.MemOk) :
    OutKept (execStorageDoorbell port pair v s) := by
  unfold execStorageDoorbell
  dsimp only
  repeat' split
  all_goals simp only [*, memOk_mk_iff, State.MemOk.out, OutKept.next, State.passOver_kept]

theorem execStorageDma_kept (port : Nat) (pa : Nat) (req : DmaReq) {s : State} (hks : s.MemOk) :
    OutKept (execStorageDma port pa req s) := by
  unfold execStorageDma
  dsimp only
  repeat' split
  all_goals simp +contextual (maxDischargeDepth := 40) only [*, OutKept.next, State.answerReq_kept,
      State.outerRead_kept, State.outerCanary_kept, State.outerWrite_kept]

theorem State.hostBar_kept {s : State} (off : Nat) (size : Nat) (hks : s.MemOk) :
    OutKept (State.hostBar s off size) := by
  unfold State.hostBar
  repeat' split
  all_goals simp only [*, OutKept.next, State.passOver_kept, State.answerReq_kept]

theorem writeFwho_kept (w : RegWrite) {s : State} (hks : s.MemOk) : OutKept (writeFwho w s) := by
  unfold writeFwho
  repeat' split
  all_goals simp only [*, OutKept.next, execStage_kept, execCommit_kept, execAbort_kept]

theorem writeKeycmd_kept (w : RegWrite) {s : State} (hks : s.MemOk) : OutKept (writeKeycmd w s) := by
  unfold writeKeycmd
  dsimp only
  repeat' split
  all_goals simp only [*, memOk_mk_iff, State.MemOk.out, OutKept.next, execGen_kept, execLoad_kept, execZero_kept]

theorem writeDeviceReg_kept (i : Nat) (w : RegWrite) {s : State} (hks : s.MemOk) :
    OutKept (writeDeviceReg i w s) := by
  unfold writeDeviceReg
  dsimp only
  repeat' split
  all_goals simp only [*, memOk_mk_iff, State.MemOk.out, OutKept.next, execMinsvnset_kept, writeFwho_kept,
      execAttctlGo_kept, writeKeycmd_kept, execCtxasgGo_kept, execPwrcap_kept, execErrstatOvfClear_kept]

theorem writeDevice_kept (off : Nat) (w : RegWrite) {s : State} (hks : s.MemOk) : OutKept (writeDevice off w s) := by
  unfold writeDevice
  dsimp only
  repeat' split
  all_goals simp only [*, memOk_mk_iff, State.MemOk.out, OutKept.next, writeDeviceReg_kept]

theorem writeUv_kept (die : Nat) (dom : Nat) (w : RegWrite) {s : State} (hks : s.MemOk) :
    OutKept (writeUv die dom w s) := by
  unfold writeUv
  dsimp only
  repeat' first
    | (rename (_ : Host.Outcome State Fault Refusal) = Host.Outcome.next _ => e
       replace e := OutKept.of_next e (by
           clear e
           split <;> simp only [*, OutKept.next, execUvstepRev_kept]))
    | split
  all_goals simp only [*, OutKept.next, execUvstepRev_kept, execUvstepStep_kept]

theorem writeDie_kept (die : Nat) (off : Nat) (w : RegWrite) {s : State} (hks : s.MemOk) :
    OutKept (writeDie die off w s) := by
  unfold writeDie
  repeat' split
  all_goals simp only [*, OutKept.next, execPoisonclr_kept, writeUv_kept, State.setCanary_kept]

theorem writeNet_kept (off : Nat) (w : RegWrite) {s : State} (hks : s.MemOk) : OutKept (writeNet off w s) := by
  unfold writeNet
  dsimp only
  repeat' split
  all_goals simp only [*, memOk_mk_iff, State.MemOk.out, OutKept.next]

theorem writeStore_kept (port : Nat) (off : Nat) (w : RegWrite) {s : State} (hks : s.MemOk) :
    OutKept (writeStore port off w s) := by
  unfold writeStore
  dsimp only
  repeat' split
  all_goals simp only [*, memOk_mk_iff, State.MemOk.out, OutKept.next, execStorageDoorbell_kept]

theorem writeQueue_kept (q : Nat) (off : Nat) (w : RegWrite) {s : State} (hks : s.MemOk) :
    OutKept (writeQueue q off w s) := by
  unfold writeQueue
  repeat' split
  all_goals simp only [*, OutKept.next, State.modQueue_kept, execQtail_kept, execQstatHalt_kept]

theorem writeCore_kept (k : Nat) (off : Nat) (w : RegWrite) {s : State} (hks : s.MemOk) :
    OutKept (writeCore k off w s) := by
  unfold writeCore
  dsimp only
  repeat' split
  all_goals simp only [*, OutKept.next, execSmpcfg_kept, State.modCore_kept, State.setCanary_kept]

theorem writeCtxpre_kept (c : Nat) (w : RegWrite) {s : State} (hks : s.MemOk) : OutKept (writeCtxpre c w s) := by
  unfold writeCtxpre
  dsimp only
  repeat' split
  all_goals simp only [*, OutKept.next, State.modCtx_kept, execCtxpreReqSet_kept, execCtxpreReqClear_kept]

theorem writeCtx_kept (c : Nat) (off : Nat) (w : RegWrite) {s : State} (hks : s.MemOk) :
    OutKept (writeCtx c off w s) := by
  unfold writeCtx
  dsimp only
  repeat' split
  all_goals simp only [*, OutKept.next, State.modCtx_kept, execCtxroot_kept, writeCtxpre_kept, execDbgmbox_kept,
      execDbgbell_kept, execEvraise_kept, State.setKeyslot_kept]

theorem writeBar_kept (b : Bar) (w : RegWrite) {s : State} (hks : s.MemOk) : OutKept (writeBar b w s) := by
  unfold writeBar
  repeat' split
  all_goals simp only [*, OutKept.next, writeDevice_kept, writeDie_kept, writeNet_kept, writeStore_kept,
      writeQueue_kept, writeCore_kept, writeCtx_kept]

theorem execRegisterWrite_kept (off : Nat) (size : Nat) (v : DWord) {s : State} (hks : s.MemOk) :
    OutKept (execRegisterWrite off size v s) := by
  unfold execRegisterWrite
  repeat' split
  all_goals simp only [*, OutKept.next, State.passOver_kept, State.answerReq_kept, writeBar_kept]

/-! ## IntAlu -/

theorem execIadd_kept (f : FnT) (x : Ops) {s : State} (hks : s.MemOk) : OutKept (execIadd f x s) := by
  unfold execIadd
  simp only [*, implies_true, issueStep_kept, laneBinary_kept]

theorem execIsub_kept (f : FnT) (x : Ops) {s : State} (hks : s.MemOk) : OutKept (execIsub f x s) := by
  unfold execIsub
  simp only [*, implies_true, issueStep_kept, laneBinary_kept]

theorem execImul_kept (f : FnT) (x : Ops) {s : State} (hks : s.MemOk) : OutKept (execImul f x s) := by
  unfold execImul
  simp only [*, implies_true, issueStep_kept, laneBinary_kept]

theorem execImulh_kept (f : FnT) (x : Ops) {s : State} (hks : s.MemOk) : OutKept (execImulh f x s) := by
  unfold execImulh
  simp only [*, implies_true, issueStep_kept, laneBinary_kept]

theorem execImad_kept (f : FnT) (x : Ops) {s : State} (hks : s.MemOk) : OutKept (execImad f x s) := by
  unfold execImad
  simp only [*, implies_true, issueStep_kept, laneTernary_kept]

theorem execIdiv_kept (f : FnT) (x : Ops) {s : State} (hks : s.MemOk) : OutKept (execIdiv f x s) := by
  unfold execIdiv
  simp only [*, implies_true, issueStep_kept, laneBinary_kept]

theorem execIrem_kept (f : FnT) (x : Ops) {s : State} (hks : s.MemOk) : OutKept (execIrem f x s) := by
  unfold execIrem
  simp only [*, implies_true, issueStep_kept, laneBinary_kept]

theorem execImin_kept (f : FnT) (x : Ops) {s : State} (hks : s.MemOk) : OutKept (execImin f x s) := by
  unfold execImin
  simp only [*, implies_true, issueStep_kept, laneBinary_kept]

theorem execImax_kept (f : FnT) (x : Ops) {s : State} (hks : s.MemOk) : OutKept (execImax f x s) := by
  unfold execImax
  simp only [*, implies_true, issueStep_kept, laneBinary_kept]

theorem execIabs_kept (f : FnT) (x : Ops) {s : State} (hks : s.MemOk) : OutKept (execIabs f x s) := by
  unfold execIabs
  simp only [*, implies_true, issueStep_kept, laneUnary_kept]

theorem execIneg_kept (f : FnT) (x : Ops) {s : State} (hks : s.MemOk) : OutKept (execIneg f x s) := by
  unfold execIneg
  simp only [*, implies_true, issueStep_kept, laneUnary_kept]

theorem bodyIcmp_kept (c : Nat) (f : FnT) (x : Ops) : MKept ((bodyIcmp c f x) : M Unit) := by
  unfold bodyIcmp
  repeat' with_reducible refine MKept.bind ?_ fun _ => ?_
  all_goals simp only [*, readSrc_kept, readB_kept, writeCond_kept]

theorem execIcmp_kept (f : FnT) (x : Ops) {s : State} (hks : s.MemOk) : OutKept (execIcmp f x s) := by
  unfold execIcmp
  simp only [*, implies_true, issueStep_kept, bodyIcmp_kept]

theorem bodyIaddc_kept (c : Nat) (f : FnT) (x : Ops) : MKept ((bodyIaddc c f x) : M Unit) := by
  unfold bodyIaddc
  dsimp only
  repeat' first
    | with_reducible refine MKept.bind ?_ fun _ => ?_
    | split
  all_goals simp only [*, readSrc_kept, readB_kept, emask_kept, writeScalar_kept, storeVec_kept]

theorem bodyLea_kept (c : Nat) (x : Ops) : MKept ((bodyLea c x) : M Unit) := by
  unfold bodyLea
  dsimp only
  repeat' first
    | with_reducible refine MKept.bind ?_ fun _ => ?_
    | split
  all_goals simp only [*, readSrc_kept, readB_kept, emask_kept, writeScalar_kept, storeVec_kept]

theorem execIaddc_kept (f : FnT) (x : Ops) {s : State} (hks : s.MemOk) : OutKept (execIaddc f x s) := by
  unfold execIaddc
  simp only [*, implies_true, issueStep_kept, bodyIaddc_kept]

theorem execLea_kept (_f : FnT) (x : Ops) {s : State} (hks : s.MemOk) : OutKept (execLea _f x s) := by
  unfold execLea
  simp only [*, implies_true, issueStep_kept, bodyLea_kept]

theorem execAndB_kept (f : FnT) (x : Ops) {s : State} (hks : s.MemOk) : OutKept (execAndB f x s) := by
  unfold execAndB
  simp only [*, implies_true, issueStep_kept, laneBinary_kept]

theorem execOrB_kept (f : FnT) (x : Ops) {s : State} (hks : s.MemOk) : OutKept (execOrB f x s) := by
  unfold execOrB
  simp only [*, implies_true, issueStep_kept, laneBinary_kept]

theorem execXorB_kept (f : FnT) (x : Ops) {s : State} (hks : s.MemOk) : OutKept (execXorB f x s) := by
  unfold execXorB
  simp only [*, implies_true, issueStep_kept, laneBinary_kept]

theorem execAndnB_kept (f : FnT) (x : Ops) {s : State} (hks : s.MemOk) : OutKept (execAndnB f x s) := by
  unfold execAndnB
  simp only [*, implies_true, issueStep_kept, laneBinary_kept]

theorem execNotB_kept (f : FnT) (x : Ops) {s : State} (hks : s.MemOk) : OutKept (execNotB f x s) := by
  unfold execNotB
  simp only [*, implies_true, issueStep_kept, laneUnary_kept]

theorem execShl_kept (f : FnT) (x : Ops) {s : State} (hks : s.MemOk) : OutKept (execShl f x s) := by
  unfold execShl
  simp only [*, implies_true, issueStep_kept, laneBinary_kept]

theorem execShr_kept (f : FnT) (x : Ops) {s : State} (hks : s.MemOk) : OutKept (execShr f x s) := by
  unfold execShr
  simp only [*, implies_true, issueStep_kept, laneBinary_kept]

theorem execSar_kept (f : FnT) (x : Ops) {s : State} (hks : s.MemOk) : OutKept (execSar f x s) := by
  unfold execSar
  simp only [*, implies_true, issueStep_kept, laneBinary_kept]

theorem execRot_kept (f : FnT) (x : Ops) {s : State} (hks : s.MemOk) : OutKept (execRot f x s) := by
  unfold execRot
  simp only [*, implies_true, issueStep_kept, laneBinary_kept]

theorem execPopc_kept (f : FnT) (x : Ops) {s : State} (hks : s.MemOk) : OutKept (execPopc f x s) := by
  unfold execPopc
  simp only [*, implies_true, issueStep_kept, laneUnary_kept]

theorem execClz_kept (f : FnT) (x : Ops) {s : State} (hks : s.MemOk) : OutKept (execClz f x s) := by
  unfold execClz
  simp only [*, implies_true, issueStep_kept, laneUnary_kept]

theorem execBrev_kept (f : FnT) (x : Ops) {s : State} (hks : s.MemOk) : OutKept (execBrev f x s) := by
  unfold execBrev
  simp only [*, implies_true, issueStep_kept, laneUnary_kept]

theorem execBfx_kept (f : FnT) (x : Ops) {s : State} (hks : s.MemOk) : OutKept (execBfx f x s) := by
  unfold execBfx
  simp only [*, implies_true, issueStep_kept, laneBinary_kept]

theorem execBfi_kept (f : FnT) (x : Ops) {s : State} (hks : s.MemOk) : OutKept (execBfi f x s) := by
  unfold execBfi
  simp only [*, implies_true, issueStep_kept, laneTernary_kept]

/-! ## Names -/

theorem bodyMov_kept (c : Nat) (x : Ops) : MKept ((bodyMov c x) : M Unit) := by
  unfold bodyMov
  repeat' first
    | with_reducible refine MKept.bind ?_ fun _ => ?_
    | split
  all_goals simp only [*, readSrc_kept, emask_kept, writeScalar_kept, storeVec_kept]

theorem execMov_kept (x : Ops) {s : State} (hks : s.MemOk) : OutKept (execMov x s) := by
  unfold execMov
  simp only [*, implies_true, issueStep_kept, bodyMov_kept]

theorem bodyMovi_kept (c : Nat) (x : Ops) : MKept ((bodyMovi c x) : M Unit) := by
  unfold bodyMovi
  repeat' first
    | with_reducible refine MKept.bind ?_ fun _ => ?_
    | split
  all_goals simp only [*, emask_kept, writeScalar_kept, storeVec_kept]

theorem execMovi_kept (x : Ops) {s : State} (hks : s.MemOk) : OutKept (execMovi x s) := by
  unfold execMovi
  simp only [*, implies_true, issueStep_kept, bodyMovi_kept]

theorem bodySel_kept (c : Nat) (x : Ops) : MKept ((bodySel c x) : M Unit) := by
  unfold bodySel
  dsimp only
  repeat' first
    | with_reducible refine MKept.bind ?_ fun _ => ?_
    | split
  all_goals simp only [*, readSrc_kept, emask_kept, writeScalar_kept, storeVec_kept]

theorem execSel_kept (x : Ops) {s : State} (hks : s.MemOk) : OutKept (execSel x s) := by
  unfold execSel
  simp only [*, implies_true, issueStep_kept, bodySel_kept]

theorem execDrop_kept (x : Ops) {s : State} (hks : s.MemOk) : OutKept (execDrop x s) := by
  unfold execDrop
  simp only [*, implies_true, issueStep_kept, dropName_kept]

theorem bodyDropk_kept (c : Nat) (n : Nat) (k : Nat) : MKept ((bodyDropk c n k) : M Unit) := by
  unfold bodyDropk
  dsimp only
  repeat' first
    | with_reducible refine MKept.bind ?_ fun _ => ?_
    | split
  all_goals simp only [*, lookup_kept, check_kept, dropName_kept, setName_kept]

theorem execDropk_kept (k : BitVec 12) (x : Ops) {s : State} (hks : s.MemOk) : OutKept (execDropk k x s) := by
  unfold execDropk
  simp only [*, implies_true, issueStep_kept, bodyDropk_kept]

theorem bodyKeep_kept (c : Nat) (n : Nat) (k : Nat) : MKept ((bodyKeep c n k) : M Unit) := by
  unfold bodyKeep
  dsimp only
  repeat' first
    | with_reducible refine MKept.bind ?_ fun _ => ?_
    | split
  all_goals simp only [*, MKept.pure, lookup_kept, check_kept, setName_kept]

theorem execKeep_kept (k : BitVec 12) (x : Ops) {s : State} (hks : s.MemOk) : OutKept (execKeep k x s) := by
  unfold execKeep
  simp only [*, implies_true, issueStep_kept, bodyKeep_kept]

theorem bodyOpen_kept (c : Nat) (x : Ops) : MKept ((bodyOpen c x) : M Unit) := by
  unfold bodyOpen
  repeat' first
    | with_reducible refine MKept.getS_bind fun _ _ => ?_
    | with_reducible refine MKept.bind ?_ fun _ => ?_
    | split
  all_goals simp only [*, MKept.pure, allocNames_kept, crewM_kept, writeScalar_kept]

theorem execOpenName_kept (x : Ops) {s : State} (hks : s.MemOk) : OutKept (execOpenName x s) := by
  unfold execOpenName
  simp only [*, implies_true, issueStep_kept, bodyOpen_kept]

theorem readCount_kept (c : Nat) (x : Ops) : MKept ((readCount c x) : M Nat) := by
  unfold readCount
  dsimp only
  repeat' first
    | with_reducible refine MKept.bind ?_ fun _ => ?_
    | split
  all_goals simp only [*, MKept.pure, readScalar_kept, illop_kept]

theorem bodyClaim_kept (c : Nat) (x : Ops) : MKept ((bodyClaim c x) : M Unit) := by
  unfold bodyClaim
  dsimp only
  repeat' first
    | with_reducible refine MKept.getS_bind fun _ _ => ?_
    | with_reducible refine MKept.bind ?_ fun _ => ?_
    | split
  all_goals simp +contextual (maxDischargeDepth := 40) only [*, MKept.pure, MKept.modS, implies_true, readCount_kept,
      crewM_kept, gangM_kept, vsM_kept, check_kept, State.modGang_kept, modA_kept, park_kept]

theorem execClaim_kept (x : Ops) {s : State} (hks : s.MemOk) : OutKept (execClaim x s) := by
  unfold execClaim
  simp only [*, implies_true, issueStep_kept, bodyClaim_kept]

theorem bodyCede_kept (c : Nat) (x : Ops) : MKept ((bodyCede c x) : M Unit) := by
  unfold bodyCede
  dsimp only
  repeat' first
    | with_reducible refine MKept.bind ?_ fun _ => ?_
    | split
  all_goals simp +contextual (maxDischargeDepth := 40) only [*, MKept.modS, implies_true, readCount_kept, crewM_kept,
      vsM_kept, State.modGang_kept, modA_kept, park_kept, illop_kept]

theorem execCede_kept (x : Ops) {s : State} (hks : s.MemOk) : OutKept (execCede x s) := by
  unfold execCede
  simp only [*, implies_true, issueStep_kept, bodyCede_kept]

theorem bodyPoolq_kept (c : Nat) (x : Ops) : MKept ((bodyPoolq c x) : M Unit) := by
  unfold bodyPoolq
  repeat' first
    | with_reducible refine MKept.getS_bind fun _ _ => ?_
    | with_reducible refine MKept.bind ?_ fun _ => ?_
  all_goals simp only [*, crewM_kept, gangM_kept, vsM_kept, writeScalar_kept]

theorem execPoolq_kept (x : Ops) {s : State} (hks : s.MemOk) : OutKept (execPoolq x s) := by
  unfold execPoolq
  simp only [*, implies_true, issueStep_kept, bodyPoolq_kept]

/-! ## Dispatch -/

theorem exec_kept (i : Instr) {s : State} (hks : s.MemOk) : OutKept (exec i s) := by
  unfold exec
  repeat' split
  all_goals simp only [*, execNop_kept, execBra_kept, execBrx_kept, execDvg_kept, execCvg_kept, execCall_kept,
      execRet_kept, execExit_kept, execLoop_kept, execPpt_kept, execMov_kept, execMovi_kept, execSel_kept,
      execDrop_kept, execDropk_kept, execKeep_kept, execOpenName_kept, execClaim_kept, execCede_kept, execPoolq_kept,
      execCsrr_kept, execCsrw_kept, execEvwait_kept, execTrap_kept, execEret_kept, execBkpt_kept, execSigchk_kept,
      execSigrst_kept, execIadd_kept, execIsub_kept, execImul_kept, execImulh_kept, execImad_kept, execIdiv_kept,
      execIrem_kept, execImin_kept, execImax_kept, execIabs_kept, execIneg_kept, execIcmp_kept, execIaddc_kept,
      execLea_kept, execAndB_kept, execOrB_kept, execXorB_kept, execAndnB_kept, execNotB_kept, execShl_kept,
      execShr_kept, execSar_kept, execRot_kept, execPopc_kept, execClz_kept, execBrev_kept, execBfx_kept,
      execBfi_kept, execFadd_kept, execFsub_kept, execFmul_kept, execFfma_kept, execFmin_kept, execFmax_kept,
      execFcmp_kept, execFrcp_kept, execFrsq_kept, execFsqrt_kept, execFexp2_kept, execFlog2_kept, execFtanh_kept,
      execFclass_kept, execHadd_kept, execHmul_kept, execHfma_kept, execCvt_kept, execQnt_kept, execDqnt_kept,
      execPack_kept, execUnpk_kept, execShfl_kept, execVote_kept, execLred_kept, execLscan_kept, execMatchLanes_kept,
      execLane_kept, execAclaim_kept, execAfree_kept, execAzero_kept, execMma_kept, execAld_kept, execAst_kept,
      execArd_kept, execAwr_kept, execAscl_kept, execAstat_kept, execSelk_kept, execLd_kept, execSt_kept,
      execLds_kept, execSts_kept, execPref_kept, execPmap_kept, execTlbinv_kept, execAtom_kept, execCas_kept,
      execRed_kept, execAtoms_kept, execFence_kept, execBar_kept, execBara_kept, execBarw_kept, execSusp_kept,
      execWake_kept, execResume_kept, execBinq_kept, execEcpy_kept, execEgath_kept, execEscat_kept, execEcoll_kept,
      execFork_kept, execRdv_kept, execTlwait_kept, execTlq_kept, execDeq_kept, execEnq_kept, execLaunch_kept,
      execLjoin_kept, execKzero_kept, execScrub_kept, execCtxfree_kept, execTakeTrap_kept,
      execMemoryAccessPerformed_kept, execLoadDataArrival_kept, execWindowWrite_kept, execWindowRead_kept,
      execTranslationWalkComplete_kept, execMatrixInstructionComplete_kept, execCrewRetire_kept, execGangRetire_kept,
      execGridEnd_kept, execCrewEvict_kept, execCrewRestore_kept, execAutomaticResume_kept, execResumedCrewBind_kept,
      execEngineCommandComplete_kept, execEngineRecordComplete_kept, execCollectiveMatch_kept, execPmapComplete_kept,
      execTlbinvComplete_kept, execKzeroComplete_kept, execGangKill_kept, execGangRelaunch_kept, execGangSwapIn_kept,
      execHoistRound_kept, execPacketNop_kept, execPacketLaunch_kept, execPacketSignal_kept, execPacketWait_kept,
      execWaitPacketComplete_kept, execPacketEvent_kept, execLaunchAdmit_kept, execGangPlace_kept, execQtail_kept,
      execQstatHalt_kept, execCtxpreReqSet_kept, execCtxpreReqClear_kept, execSoftDeadlineExpiry_kept,
      execHardStop_kept, execContextRestore_kept, execCtxroot_kept, execEvraise_kept, execDbgbell_kept,
      execDbgmbox_kept, execPing_kept, execRdstate_kept, execRdname_kept, execWrname_kept, execDropname_kept,
      execRdscal_kept, execWrscal_kept, execWrcsr_kept, execCont_kept, execRdmem_kept, execStopNotice_kept,
      execSample_kept, execSmpcfg_kept, execGen_kept, execLoad_kept, execZero_kept, execStage_kept, execCommit_kept,
      execAbort_kept, execAttctlGo_kept, execMinsvnset_kept, execCtxasgGo_kept, execScrubPieceComplete_kept,
      execArbtabLoad_kept, execPwrcap_kept, execGrantDeferTimeout_kept, execGrantMoveComplete_kept,
      execTemperatureSample_kept, execUvstepStep_kept, execUvstepRev_kept, execCorrectedError_kept,
      execUncorrectableError_kept, execRateWindowExpiry_kept, execErrstatOvfClear_kept, execPoisonclr_kept,
      execPromoteRange_kept, execHostRead_kept, execHostWrite_kept, execHostAtomic_kept, execPeerRequest_kept,
      execRequestTimeout_kept, execLinkDown_kept, execHostLinkDown_kept, execStorageDoorbell_kept,
      execDeviceReset_kept, execRegisterWrite_kept, execStorageDma_kept, execLinkTrained_kept,
      execWaitPollFailure_kept, execOntimeTick_kept]

end Sys2Proof.Machine
end

