-- ==== Sys2Proof/Laws/KeptStep.lean ====
section
/-!
SUPPORT. Laws/KeptStep.lean: what keeps memory in its canonical form:
fetch, issue, the automatic happenings and the placing of an instruction.
-/

open Sys2Proof

namespace Sys2Proof.Machine

/-! ## Issue -/

theorem State.preTrap_kept {s : State} (c : Nat) (x : Crew) (cause : Cause) (addr : Nat) (hks : s.MemOk) :
    (State.preTrap s c x cause addr).MemOk := by
  unfold State.preTrap
  repeat' split
  all_goals simp only [*, State.takeTrap_kept, State.modCrew_kept]

theorem State.issueCanaries_kept {s : State} (x : Crew) (hks : s.MemOk) : (State.issueCanaries s x).MemOk := by
  unfold State.issueCanaries
  dsimp only
  repeat' split
  all_goals simp only [*, State.canaryHit_kept]

theorem State.noteGrant_kept {t : State} {s : State} (c : Nat) (x : Crew) (hkt : t.MemOk) (_hks : s.MemOk) :
    (State.noteGrant t s c x).MemOk := by
  unfold State.noteGrant
  repeat' split
  all_goals simp only [*, State.modGrid_kept]

theorem State.runInstr_kept {s : State} (c : Nat) (x : Crew) (i : Instr) (hks : s.MemOk) :
    OutKept (State.runInstr s c x i) := by
  unfold State.runInstr
  dsimp only
  repeat' first
    | (rename (_ : Host.Outcome State Fault Refusal) = Host.Outcome.next _ => e
       replace e := OutKept.of_next e (by
           clear e
           simp +contextual (maxDischargeDepth := 40) only [*, memOk_mk_iff, State.MemOk.out, exec_kept,
               State.issueCanaries_kept]))
    | split
  all_goals simp +contextual (maxDischargeDepth := 40) only [*, memOk_mk_iff, State.MemOk.out, OutKept.next,
      exec_kept, State.issueCanaries_kept, State.noteGrant_kept]

theorem State.atPc_kept {s : State} (c : Nat) (x : Crew) (r : Fetched) (hks : s.MemOk) (hr : FetchKept r) :
    OutKept (State.atPc s c x r) := by
  unfold State.atPc
  repeat' first
    | (dsimp only [FetchKept] at hr)
    | split
  all_goals simp only [*, OutKept.next, State.preTrap_kept, State.runInstr_kept, State.killPoison_kept]

theorem State.attempt_kept {s : State} (c : Nat) (hks : s.MemOk) : OutKept (State.attempt s c) := by
  unfold State.attempt
  dsimp only
  repeat' first
    | (rename _ = Fetched.pad _ => e
       replace e := FetchKept.of_pad e (by
           clear e
           simp +contextual (maxDischargeDepth := 40) only [*, State.fetchAt_kept]))
    | split
  all_goals simp +contextual (maxDischargeDepth := 40) only [*, OutKept.next, State.fetchAt_kept, State.modCrew_kept,
      State.atPc_kept]

theorem State.tryCrew_kept {s : State} (core : Nat) (c : Nat) (x : Crew) (hks : s.MemOk) :
    OutKept (State.tryCrew s core c x) := by
  unfold State.tryCrew
  dsimp only
  repeat' split
  all_goals simp +contextual (maxDischargeDepth := 40) only [*, OutKept.next, State.takeTrap_kept, State.setCrew_kept,
      State.attempt_kept]

theorem searchSlots_kept (core : Nat) (x1 : List Nat) {x2 : State} (hkx2 : x2.MemOk) :
    OutKeptBy Prod.fst (searchSlots core x1 x2) := by
  induction x1 generalizing x2 <;>
  ( unfold searchSlots
    repeat' first
      | (rename (_ : Host.Outcome State Fault Refusal) = Host.Outcome.next _ => e
         replace e := OutKept.of_next e (by
             clear e
             simp only [*, State.tryCrew_kept]))
      | split
    all_goals simp only [*, OutKeptBy.next, OutKeptBy.fault, OutKeptBy.refused, State.modCore_kept] )

theorem State.issueQuad_kept {s : State} (core : Nat) (quad : Nat) (hks : s.MemOk) :
    OutKeptBy Prod.fst (State.issueQuad s core quad) := by
  unfold State.issueQuad
  simp only [*, searchSlots_kept]

/-! ## Auto -/

theorem firstOf_kept (x0 : List Instr) {x1 : State} (hkx1 : x1.MemOk) : OptKept (firstOf x0 x1) := by
  induction x0 generalizing x1 <;>
  ( unfold firstOf
    repeat' first
      | (rename (_ : Host.Outcome State Fault Refusal) = Host.Outcome.next _ => e
         replace e := OutKept.of_next e (by
             clear e
             simp only [*, exec_kept]))
      | split
    all_goals simp only [*, OptKept.some, OptKept.none] )

theorem State.autoEvent_kept {s : State} (hks : s.MemOk) : OptKept (State.autoEvent s) := by
  unfold State.autoEvent
  simp only [*, firstOf_kept]

theorem State.trySampled_kept {s : State} (core : Nat) (c : Nat) (x : Crew) (hks : s.MemOk) :
    (State.trySampled s core c x).MemOk := by
  unfold State.trySampled
  have h := State.attempt_kept (s := s) c hks
  split
  · exact hks
  · split
    · rename_i e
      rw [e] at h
      split
      · exact hks
      · split
        · exact h _ rfl
        · exact hks
    · exact hks

theorem State.beforeEvent_kept {s : State} (i : Instr) (hks : s.MemOk) : (State.beforeEvent s i).MemOk := by
  unfold State.beforeEvent
  repeat' split
  all_goals first | exact hks | exact State.trySampled_kept _ _ _ hks

theorem State.modHead_kept {s : State} (core : Nat) (f : MatOp → MatOp) (hks : s.MemOk) :
    (State.modHead s core f).MemOk := State.modCore_kept _ _ hks

theorem State.matReads_kept {s : State} (core : Nat) (w : Nat) (hks : s.MemOk) : OutKept (State.matReads s core w) := by
  unfold State.matReads
  repeat' split
  all_goals simp only [hks, OutKept.next, State.modHead_kept, State.passOver_kept]

theorem State.matWrites_kept {s : State} (core : Nat) (w : Nat) (hks : s.MemOk) : OutKept (State.matWrites s core w) := by
  unfold State.matWrites
  dsimp only
  repeat' split
  all_goals first
    | exact State.passOver_kept hks
    | exact .next (State.modHead_kept _ _ (State.writeChip_kept _ _ hks))

theorem State.outsideWrite_kept {s : State} (pa : Nat) (bs : List Byte) (hks : s.MemOk) :
    OutKept (State.outsideWrite s pa bs) := by
  unfold State.outsideWrite
  repeat' split
  all_goals simp +contextual (maxDischargeDepth := 40) only [*, memOk_mk_iff, State.MemOk.out, Memory.write_wf,
      OutKept.next, State.passOver_kept]

theorem State.markOut_kept {s : State} (line : Nat) (bad : Bool) (hks : s.MemOk) :
    OutKept (State.markOut s line bad) := by
  unfold State.markOut
  dsimp only
  repeat' split
  all_goals simp only [*, memOk_mk_iff, State.MemOk.out, OutKept.next, State.passOver_kept]

theorem State.loseTlb_kept {s : State} (core : Nat) (i : Nat) (hks : s.MemOk) : (State.loseTlb s core i).MemOk := by
  unfold State.loseTlb
  simp only [*, State.modCore_kept]

theorem State.refillPool_kept {s : State} (die : Nat) (fs : List Nat) (hks : s.MemOk) :
    OutKept (State.refillPool s die fs) := by
  unfold State.refillPool
  dsimp only
  repeat' split
  all_goals simp only [*, OutKept.next, State.setPool_kept, State.passOver_kept]

/-! ## Place -/

theorem State.clearFix_kept {s : State} (hks : s.MemOk) : (State.clearFix s).MemOk := by
  unfold State.clearFix
  dsimp only
  simp only [*, memOk_mk_iff, State.MemOk.out, State.purgeTlb_kept]

theorem State.placeCrew_kept {s : State} (hks : s.MemOk) : (State.placeCrew s).MemOk := by
  unfold State.placeCrew
  dsimp only
  simp +contextual (maxDischargeDepth := 40) only [*, memOk_mk_iff, State.MemOk.out, State.setGang_kept,
      State.setGrid_kept, State.createCrew_kept, State.modCore_kept]

theorem State.placeBytes_kept {s : State} (bs : List Byte) (hs : s.MemOk) : (State.placeBytes s bs).MemOk := by
  unfold State.placeBytes
  refine Memory.write_wf _ _ (Memory.write_wf _ _ (Memory.write_wf _ _ (Memory.write_wf _ _ ?_)))
  exact State.MemOk.out (State.placeCrew_kept (State.setCtx_kept _ _ (State.clearFix_kept hs)))

/-! ## Step -/

theorem State.clock_kept {s : State} (core : Nat) (quad : Nat) (hks : s.MemOk) :
    OutKept (State.clock s core quad) := by
  unfold State.clock
  repeat' first
    | (rename _ = Host.Outcome.next _ => e
       replace e := OutKeptBy.of_next (p := Prod.fst) e (by
           clear e
           simp only [*, State.issueQuad_kept])
       try dsimp only [id] at e)
    | split
  all_goals simp only [*, OutKept.next, OutKept.fault, OutKept.refused]

theorem State.turnIssue_kept {s : State} {r : Host.Outcome State Fault Refusal} (hs : s.MemOk) (h : s.turnIssue = some
    r) :
    OutKept r := by
  unfold State.turnIssue at h
  split at h
  · cases h
  · rename_i q _
    have hq := State.issueQuad_kept (s := s) (q / 4) (q % 4) hs
    split at h <;> cases h
    · rename_i e
      exact OutKept.next (OutKeptBy.of_next (p := Prod.fst) e hq)
    · exact OutKept.fault
    · exact OutKept.refused

theorem State.turnAuto_kept {s : State} {r : Host.Outcome State Fault Refusal} (hs : s.MemOk) (h : s.turnAuto = some
    r) :
    OutKept r := by
  unfold State.turnAuto at h
  cases e : s.autoEvent with
  | none => rw [e] at h; cases h
  | some t =>
    rw [e] at h
    cases h
    have ht : t.MemOk := OptKept.of_some e (State.autoEvent_kept hs)
    exact OutKept.next (by exact ht)

theorem State.withFetchWord_kept {s : State} (nbits : Nat) (w : Nat) (hks : s.MemOk) :
    (State.withFetchWord s nbits w).MemOk := by
  unfold State.withFetchWord
  simp only [*, State.placeBytes_kept]

end Sys2Proof.Machine
end

