-- ==== Sys2Proof/Laws/Security.lean ====
section
/-!
SUPPORT. Laws/Security.lean: the signature of a report verifies (R358): what `State.signature` picks lies among the signatures
that verify, if there is one.
-/

namespace Sys2Proof.Machine

open Sys2Proof

theorem mem_byteLists (l : List Byte) : l ∈ byteLists l.length := by
  induction l with
  | nil => exact List.mem_singleton.mpr rfl
  | cons b l ih =>
    rw [List.length_cons, byteLists, List.mem_flatten]
    refine ⟨_, List.mem_map_of_mem ih, List.mem_map.mpr ⟨b.toNat, List.mem_range.mpr b.isLt, ?_⟩⟩
    simp

theorem and_left {a b : Bool} (h : (a && b) = true) : a = true := by simp_all
theorem and_right {a b : Bool} (h : (a && b) = true) : b = true := by simp_all

/-- A signature of any other length is refused (R354). -/
theorem verify_beq {k g d : List Byte} (h : Falcon.verify k g d = true) : (g.length == 1280) = true :=
  and_right (and_left (and_left (and_left h)))

theorem verify_length {k g d : List Byte} (h : Falcon.verify k g d = true) : g.length = 1280 :=
  eq_of_beq (verify_beq h)

theorem mem_goodSignatures {g d : List Byte} (h : Falcon.verify identityKey g d = true) : g ∈ goodSignatures d :=
  List.mem_filter.mpr ⟨verify_length h ▸ mem_byteLists g, h⟩

theorem pick_mem {α : Type} {l : List α} {a d : α} (n : Nat) (h : a ∈ l) : l[n % l.length]?.getD d ∈ l := by
  have hl := Nat.mod_lt n (List.length_pos_of_mem h)
  rw [List.getElem?_eq_getElem hl]
  exact List.getElem_mem hl

/-- R358: the signature of a digest verifies under the identity key, where any signature does. -/
theorem State.signature_verifies (s : State) {g d : List Byte} (h : Falcon.verify identityKey g d = true) :
    Falcon.verify identityKey (s.signature d) d = true := by
  have hm : s.signature d ∈ goodSignatures d := by
    unfold State.signature
    exact pick_mem _ (mem_goodSignatures h)
  exact (List.mem_filter.mp hm).2

end Sys2Proof.Machine
end

