-- ==== Sys2Proof/Laws/Stores.lean ====
section
/-!
SUPPORT. Laws/Stores.lean: the bytes that the lanes of a store on the scratchpad leave in memory.
-/

namespace Sys2Proof.Machine

open Sys2Proof

/-- Lane `l` of a store writes offset `n`. -/
abbrev covers (b : Access) (l : Fin 32) (n : Nat) : Prop := at0 b.addr l.val ≤ n ∧ n < at0 b.addr l.val + b.size

theorem lanesOf_sorted (m : Mask) : (lanesOf m).Pairwise (· < ·) := by
  unfold lanesOf allLanes
  exact List.Pairwise.filter _ (List.pairwise_lt_finRange 32)

/-- The places of a store on the scratchpad at `K`. -/
abbrev spadPlaces (b : Access) (K : Nat) : Prop :=
  b.place = some ((lanesOf b.lanes).map fun l => (l.val, ⟨K + at0 b.addr l.val, 0⟩))

theorem winsByte_iff {b : Access} {K : Nat} (hp : spadPlaces b K) (l n : Nat) :
    winsByte b l (K + n) = true ↔ ∀ k : Fin 32, b.lanes[k] = true → l < k.val → ¬ covers b k n := by
  unfold winsByte covers
  rw [hp]
  simp only [Bool.not_eq_true', List.any_eq_false, Bool.and_eq_true, decide_eq_true_eq, List.mem_map, mem_lanesOf,
    forall_exists_index, and_imp, forall_apply_eq_imp_iff₂]
  constructor
  · rintro h k hk hl ⟨h1, h2⟩; exact h k hk ⟨⟨hl, by omega⟩, by omega⟩
  · rintro h k hk ⟨⟨hl, h1⟩, h2⟩; exact h k hk hl ⟨by omega, by omega⟩

/-- A lane of such a store and its place. -/
theorem spadPlaces_at {b : Access} {K : Nat} (hp : spadPlaces b K) {l : Fin 32} (hl : b.lanes[l] = true) :
    (b.place.bind fun t => Tab.at? t l.val) = some ⟨K + at0 b.addr l.val, 0⟩ := by
  rw [hp]
  show Tab.at? _ l.val = _
  have key : ∀ ls : List (Fin 32), l ∈ ls →
      Tab.at? (ls.map fun k => (k.val, (⟨K + at0 b.addr k.val, 0⟩ : Place))) l.val = some ⟨K + at0 b.addr l.val, 0⟩ := by
    intro ls
    induction ls with
    | nil => intro h; cases h
    | cons k ls ih =>
      intro h
      show (if k.val = l.val then some _ else Tab.at? _ l.val) = _
      by_cases e : k.val = l.val
      · rw [if_pos e, e]
      · rw [if_neg e]
        refine ih ?_
        rcases List.mem_cons.mp h with h | h
        · exact absurd (congrArg Fin.val h.symm) e
        · exact h
  exact key _ (mem_lanesOf.mpr hl)

/-- The top lane at an offset covers it and no higher lane does. -/
theorem topLane_iff {b : Access} {K : Nat} (hp : spadPlaces b K) (l : Fin 32) (n : Nat) :
    topLane b n = some l ↔ b.lanes[l] = true ∧ covers b l n ∧ winsByte b l.val (K + n) = true := by
  unfold topLane
  rw [List.find?_eq_some_iff_append, winsByte_iff hp]
  have hs : (lanesOf b.lanes).reverse.Pairwise (· > ·) := by
    rw [List.pairwise_reverse]; exact lanesOf_sorted _
  constructor
  · rintro ⟨hc, as, bs, he, hn⟩
    simp only [Bool.and_eq_true, decide_eq_true_eq] at hc
    have hl : l ∈ (lanesOf b.lanes).reverse := by rw [he]; simp
    refine ⟨mem_lanesOf.mp (List.mem_reverse.mp hl), hc, fun k hk hlt hck => ?_⟩
    have hk2 : k ∈ (lanesOf b.lanes).reverse := List.mem_reverse.mpr (mem_lanesOf.mpr hk)
    rw [he] at hk2 hs
    rcases List.mem_append.mp hk2 with h | h
    · have := hn k h
      simp only [covers] at hck
      simp [hck.1, hck.2] at this
    · rw [List.pairwise_append] at hs
      rcases List.mem_cons.mp h with h | h
      · subst h; omega
      · have := (List.pairwise_cons.mp hs.2.1).1 k h
        omega
  · rintro ⟨hl, hc, hw⟩
    have hl2 : l ∈ (lanesOf b.lanes).reverse := List.mem_reverse.mpr (mem_lanesOf.mpr hl)
    obtain ⟨as, bs, he⟩ := List.append_of_mem hl2
    refine ⟨by simp only [Bool.and_eq_true, decide_eq_true_eq]; exact hc, as, bs, he, fun k hk => ?_⟩
    rw [he, List.pairwise_append] at hs
    have hgt : l < k := hs.2.2 k hk l (by simp)
    have hkl : b.lanes[k] = true := mem_lanesOf.mp (List.mem_reverse.mp (by rw [he]; simp [hk]))
    have := hw k hkl hgt
    simp only [covers] at this
    simp only [Bool.not_and, Bool.or_eq_true, Bool.not_eq_true', decide_eq_false_iff_not]
    by_cases h1 : at0 b.addr k.val ≤ n
    · right; exact fun h2 => this ⟨h1, h2⟩
    · left; exact h1

theorem bytesLE_getElem (k v i : Nat) (h : i < (bytesLE k v).length) : (bytesLE k v)[i] = BitVec.ofNat 8 (v / 2 ^ (8 * i)) := by
  induction k generalizing v i with
  | zero => simp [bytesLE] at h
  | succ k ih =>
    cases i with
    | zero => simp [bytesLE]
    | succ i =>
      simp only [bytesLE, List.getElem_cons_succ]
      rw [ih]
      · rw [Nat.shiftRight_eq_div_pow, Nat.div_div_eq_div_mul, ← Nat.pow_add]
        rw [show 8 + 8 * i = 8 * (i + 1) by omega]

/-- What one lane of a store does to memory. -/
structure Stores (b : Access) (l : Fin 32) (K : Nat) (s t : State) : Prop where
  rest : t = { s with mem := t.mem, badWord := t.badWord }
  ok   : t.MemOk
  low  : ∀ p, p < K → t.mem.get p = s.mem.get p
  high : ∀ n, t.mem.get (K + n) = if covers b l n ∧ winsByte b l.val (K + n) = true then laneByte b l n else s.mem.get (K + n)
  bad  : ∀ w, w ∈ t.badWord → w ∈ s.badWord

theorem writeChip_fold (b : Access) (l : Fin 32) (K : Nat) (s : State) (h : s.MemOk) (m : Nat) (hm : m ≤ b.size) :
    let t := (List.range m).foldl (fun t i =>
      if winsByte b l.val (K + at0 b.addr l.val + i) then State.writeChip t (K + at0 b.addr l.val + i)
        (((bytesLE b.size (at0 b.datB l.val)).drop i).take 1) else t) s
    t = { s with mem := t.mem, badWord := t.badWord } ∧ t.MemOk ∧ (∀ p, p < K → t.mem.get p = s.mem.get p) ∧
      (∀ n, t.mem.get (K + n) = if (at0 b.addr l.val ≤ n ∧ n < at0 b.addr l.val + m) ∧ winsByte b l.val (K + n) = true then laneByte b l n
        else s.mem.get (K + n)) ∧ (∀ w, w ∈ t.badWord → w ∈ s.badWord) := by
  induction m with
  | zero =>
    refine ⟨rfl, h, fun _ _ => rfl, fun n => ?_, fun _ h => h⟩
    rw [if_neg (by omega)]; rfl
  | succ m ih =>
    obtain ⟨h1, h2, h3, h4, h5⟩ := ih (by omega)
    simp only [List.range_succ, List.foldl_append, List.foldl_cons, List.foldl_nil]
    generalize (List.range m).foldl (fun t i =>
      if winsByte b l.val (K + at0 b.addr l.val + i) then State.writeChip t (K + at0 b.addr l.val + i)
        (((bytesLE b.size (at0 b.datB l.val)).drop i).take 1) else t) s = u at h1 h2 h3 h4 h5 ⊢
    have hlen : m < (bytesLE b.size (at0 b.datB l.val)).length := by rw [bytesLE_length]; omega
    have htk : ((bytesLE b.size (at0 b.datB l.val)).drop m).take 1 = [BitVec.ofNat 8 (at0 b.datB l.val / 2 ^ (8 * m))] := by
      rw [List.drop_eq_getElem_cons hlen, bytesLE_getElem]; rfl
    rw [htk]
    cases hw : winsByte b l.val (K + at0 b.addr l.val + m) with
    | false =>
      simp only [Bool.false_eq_true, if_false]
      refine ⟨h1, h2, h3, fun n => ?_, h5⟩
      rw [h4]
      by_cases e : n = at0 b.addr l.val + m
      · subst e; rw [← Nat.add_assoc, hw]; simp
      · by_cases hc : (at0 b.addr l.val ≤ n ∧ n < at0 b.addr l.val + m)
        · have : at0 b.addr l.val ≤ n ∧ n < at0 b.addr l.val + (m + 1) := by omega
          simp only [hc, this, and_self]
        · have : ¬ (at0 b.addr l.val ≤ n ∧ n < at0 b.addr l.val + (m + 1)) := by omega
          simp only [hc, this, false_and]
    | true =>
      simp only [if_true]
      have hmem : (u.writeChip (K + at0 b.addr l.val + m) [BitVec.ofNat 8 (at0 b.datB l.val / 2 ^ (8 * m))]).mem
          = u.mem.set (K + at0 b.addr l.val + m) (BitVec.ofNat 8 (at0 b.datB l.val / 2 ^ (8 * m))) := rfl
      refine ⟨?_, ?_, fun p hp => ?_, fun n => ?_, fun w hw => ?_⟩
      · unfold State.writeChip; rw [h1]
      · exact Memory.set_wf _ _ h2
      · rw [hmem, Memory.get_set_ne _ _ _ (by omega)]; exact h3 p hp
      · rw [hmem]
        by_cases e : n = at0 b.addr l.val + m
        · subst e
          rw [← Nat.add_assoc, Memory.get_set_self _ _ h2, if_pos ⟨by omega, hw⟩]
          unfold laneByte
          rw [Nat.add_sub_cancel_left]
        · rw [Memory.get_set_ne _ _ _ (by omega), h4]
          by_cases hc : (at0 b.addr l.val ≤ n ∧ n < at0 b.addr l.val + m)
          · have : at0 b.addr l.val ≤ n ∧ n < at0 b.addr l.val + (m + 1) := by omega
            simp only [hc, this, and_self]
          · have : ¬ (at0 b.addr l.val ≤ n ∧ n < at0 b.addr l.val + (m + 1)) := by omega
            simp only [hc, this, false_and]
      · exact h5 w ((List.mem_filter.mp hw).1)

/-- One lane of a store on the scratchpad. -/
theorem storeLane_chip (b : Access) (l : Fin 32) (K : Nat) (s : State) (h : s.MemOk) :
    Stores b l K s (storeLane b l.val (K + at0 b.addr l.val) State.writeChip s) := by
  unfold storeLane
  simp only
  split
  · rename_i hall
    have hmem : (s.writeChip (K + at0 b.addr l.val) (bytesLE b.size (at0 b.datB l.val))).mem
        = s.mem.write (K + at0 b.addr l.val) (bytesLE b.size (at0 b.datB l.val)) := rfl
    rw [List.all_eq_true] at hall
    refine ⟨rfl, Memory.write_wf _ _ h, fun p hp => ?_, fun n => ?_, fun w hw => (List.mem_filter.mp hw).1⟩
    · rw [hmem, Memory.get_write_outside _ _ _ (by left; omega)]
    · rw [hmem]
      by_cases hc : covers b l n
      · obtain ⟨h1, h2⟩ := hc
        obtain ⟨i, rfl⟩ : ∃ i, n = at0 b.addr l.val + i := ⟨n - at0 b.addr l.val, by omega⟩
        have hw := hall i (by simp; omega)
        rw [← Nat.add_assoc, if_pos ⟨⟨h1, h2⟩, hw⟩,
          Memory.get_write_inside _ i _ h (by rw [bytesLE_length]; omega), bytesLE_getElem]
        unfold laneByte
        rw [Nat.add_sub_cancel_left]
      · rw [if_neg (fun h => hc h.1), Memory.get_write_outside]
        rw [bytesLE_length]
        unfold covers at hc; omega
  · obtain ⟨h1, h2, h3, h4, h5⟩ := writeChip_fold b l K s h b.size (Nat.le_refl _)
    exact ⟨h1, h2, h3, h4, h5⟩

theorem settle_mem (s : State) (c : Nat) : (s.settle c).mem = s.mem := by
  unfold State.settle
  split
  · rfl
  · rename_i x hx
    simp only
    have : ∀ (l : List StatDue) (g : Nat) (u : State), (l.foldl (fun t d => t.modGang g fun g => g.count d.tid d.stat) u).mem = u.mem := by
      intro l g u
      induction l generalizing u with
      | nil => rfl
      | cons d l ih =>
        rw [List.foldl_cons, ih]
        unfold State.modGang
        split <;> rfl
    exact this _ _ _

theorem modCrew_mem (s : State) (c : Nat) (f : Crew → Crew) : (s.modCrew c f).mem = s.mem := by
  unfold State.modCrew; split <;> rfl

theorem endAccess_mem (s : State) (c : Nat) (a : Access) : (s.endAccess c a).mem = s.mem := by
  unfold State.endAccess
  simp only
  rw [settle_mem]
  split
  · exact modCrew_mem _ _ _
  · exact modCrew_mem _ _ _

/-- Performing lanes of a scratchpad store gives every byte the value of its top lane. -/
theorem performLanes_store (core c K : Nat) (r : Reader) (b : Access) (hk : b.kind = .store) (hsp : b.spad = true)
    (hq : spadPlaces b K) (ls : List (Fin 32)) :
    ∀ (a : Access) (s : State), a = { b with done := a.done, value := a.value } → s.MemOk →
      (∀ l ∈ ls, b.lanes[l] = true) →
      (∀ l ∈ ls, s.mergesMarked (K + at0 b.addr l.val) b.size = false) →
      ∃ t, performLanes (laneIn core r) c ls a s = .ok t ∧ t.MemOk ∧ (∀ p, p < K → t.mem.get p = s.mem.get p) ∧
        (∀ n, t.mem.get (K + n) = match topLane b n with
          | some l => if l ∈ ls then laneByte b l n else s.mem.get (K + n)
          | none => s.mem.get (K + n)) := by
  induction ls with
  | nil =>
    intro a s _ hok _ _
    unfold performLanes
    have e : ∀ n, (match topLane b n with
          | some l => if l ∈ ([] : List (Fin 32)) then laneByte b l n else s.mem.get (K + n)
          | none => s.mem.get (K + n)) = s.mem.get (K + n) := by
      intro n; split <;> simp
    split
    · refine ⟨_, rfl, ?_, fun p _ => ?_, fun n => ?_⟩
      · unfold State.MemOk; rw [endAccess_mem]; exact hok
      · rw [endAccess_mem]
      · rw [endAccess_mem, e]
    · refine ⟨_, rfl, ?_, fun p _ => ?_, fun n => ?_⟩
      · unfold State.MemOk; rw [modCrew_mem]; exact hok
      · rw [modCrew_mem]
      · rw [modCrew_mem, e]
  | cons l ls ih =>
    intro a s ha hok hp hm
    have hl := hp l (List.mem_cons_self ..)
    have hpl := spadPlaces_at hq hl
    unfold performLanes
    have hpa : (a.place.bind fun t => Tab.at? t l.val) = some ⟨K + at0 b.addr l.val, 0⟩ := by rw [ha]; exact hpl
    rw [hpa]
    have hone : laneIn core r s a l.val ⟨K + at0 b.addr l.val, 0⟩ = .ok (storeLane b l.val (K + at0 b.addr l.val) State.writeChip s) 0 := by
      have h1 : a.spad = true := by rw [ha]; exact hsp
      have h2 : a.kind = .store := by rw [ha]; exact hk
      have h3 : a.size = b.size := by rw [ha]
      unfold laneIn performChip
      simp only [h1, h2, if_true, h3, State.mergesBad, hm l (List.mem_cons_self ..), Bool.and_false, Bool.false_eq_true,
        if_false]
      congr 1
      rw [ha]
      rfl
    simp only [hone]
    obtain ⟨r1, r2, r3, r4, r5⟩ := storeLane_chip b l K s hok
    generalize storeLane b l.val (K + at0 b.addr l.val) State.writeChip s = u at r1 r2 r3 r4 r5
    obtain ⟨t, e1, e2, e3, e4⟩ := ih { a with done := a.done ||| laneBit l.val, value := Tab.put a.value l.val 0 } u
      (by rw [ha]) r2 (fun k hk => hp k (List.mem_cons_of_mem _ hk)) (fun k hk => by
        have := hm k (List.mem_cons_of_mem _ hk)
        unfold State.mergesMarked at this ⊢
        rw [List.any_eq_false] at this ⊢
        exact fun w hw => this w (r5 w hw))
    refine ⟨t, e1, e2, fun p hp => (e3 p hp).trans (r3 p hp), fun n => ?_⟩
    rw [e4, r4]
    have hiff := topLane_iff hq l n
    cases ht : topLane b n with
    | none =>
      simp only
      rw [if_neg]
      intro h
      rw [hiff.mpr ⟨hl, h⟩] at ht; cases ht
    | some k =>
      simp only
      by_cases hkl : k = l
      · subst hkl
        have := hiff.mp ht
        rw [if_pos this.2, ite_self, if_pos (List.mem_cons_self ..)]
      · have : ¬ (covers b l n ∧ winsByte b l.val (K + n) = true) := by
          intro h
          rw [hiff.mpr ⟨hl, h⟩] at ht
          cases ht; exact hkl rfl
        rw [if_neg this]
        simp only [List.mem_cons, hkl, false_or]

end Sys2Proof.Machine
end

