-- ==== Sys2Proof/Laws/Traps.lean ====
section
/-!
SUPPORT. Laws/Traps.lean: what rolling a crew back and entering a handler leave, each said once.
-/

namespace Sys2Proof.Machine

open Sys2Proof

theorem Crew.trapSet_setTrapSet (y : Crew) (l : Nat) (t : TrapSet) : (y.setTrapSet l t).trapSet l = t := by
  match l with
  | 0 => rfl
  | 1 => rfl
  | _ + 2 => rfl

theorem trapLevel_congr (w y : Crew) (k : Ctx) (h1 : y.setU = w.setU) (h2 : y.setS = w.setS) (h3 : y.setW = w.setW)
    (n l : Nat) : trapLevel y k n l = trapLevel w k n l := by
  induction n generalizing l with
  | zero => rfl
  | succ n ih =>
    unfold trapLevel
    have : y.trapSet l = w.trapSet l := by unfold Crew.trapSet; split <;> assumption
    rw [this, ih]

/-- The crew after its rollback, where no access is outstanding (R21): as the checkpoint has it, but for the names whose
entries are gone and the dead lanes. -/
theorem State.rollback_crew {s : State} {c : Nat} {w : Crew} (now : Snap) (hw : s.crew? c = some w) (ha : w.acc = []) :
    ∃ y, (s.rollback c now).crew? c = some y ∧ y.gang = w.gang ∧ y.setU = w.setU ∧ y.setS = w.setS ∧ y.setW = w.setW ∧
      y.priv = w.priv ∧ (∃ ns, y.arch = { now.arch.without w.dead with names := ns }) := by
  unfold State.rollback
  simp only [hw]
  have hk : w.checkpoint now = now := by simp [Crew.checkpoint, ha]
  simp only [hk]
  exact ⟨_, State.crew_setCrew _ _ _, rfl, rfl, rfl, rfl, rfl, ⟨_, rfl⟩⟩

theorem State.rollback_ctxs {s : State} {c : Nat} {w : Crew} (now : Snap) (hw : s.crew? c = some w) (ha : w.acc = []) :
    (s.rollback c now).ctxs = s.ctxs ∧ (s.rollback c now).gangs = s.gangs ∧ (s.rollback c now).mem = s.mem := by
  unfold State.rollback
  simp only [hw]
  simp [ha]

/-- A crew in its handler (R23). -/
theorem Crew.enter_regs (x : Crew) (l : Nat) (cause : Cause) (addr : Nat) (lanes : Mask) (efpc vec : Addr) :
    (x.enter l cause addr lanes efpc vec).trapSet l
        = { epc := x.arch.pc, efpc := efpc, act := true, prv := x.priv, code := cause, eaddr := BitVec.ofNat 64 addr,
            em7 := x.arch.mask 7 }
      ∧ (x.enter l cause addr lanes efpc vec).arch.pc = vec
      ∧ (x.enter l cause addr lanes efpc vec).priv = BitVec.ofNat 2 l
      ∧ (x.enter l cause addr lanes efpc vec).arch.mask 7 = lanes
      ∧ (x.enter l cause addr lanes efpc vec).arch.scal = x.arch.scal
      ∧ (x.enter l cause addr lanes efpc vec).arch.act = x.arch.act := by
  match l with
  | 0 => exact ⟨rfl, rfl, rfl, Arch.setMask_self _ 7 _ (by decide), rfl, rfl⟩
  | 1 => exact ⟨rfl, rfl, rfl, Arch.setMask_self _ 7 _ (by decide), rfl, rfl⟩
  | _ + 2 => exact ⟨rfl, rfl, rfl, Arch.setMask_self _ 7 _ (by decide), rfl, rfl⟩

end Sys2Proof.Machine
end

