-- ==== Sys2Proof/Tests/Slice0.lean ====
section
/-!
SUPPORT. Tests/Slice0.lean: the author's own tests: ill-formed terms that are refused, words of the spec's encodings that
decode to their instructions, small runs of one instruction, and for every statement a state and operands that meet its
hypotheses.
-/

namespace Sys2Proof.Tests

open Sys2Proof Sys2Proof.Machine

set_option Elab.async false

/-! ## Helpers -/

/-- A crew of the fixture, at steward level. -/
def w0 : Crew := Crew.new 1 0 (.slot 0 0) 0x200000 0xFFFFFFFF 0 0 2

/-- The fixture with its crew about to issue. -/
def m0 : State := { State.reset.withFetchWord 64 0 with cur := some 2 }

/-- The crew of a machine. -/
def me (s : State) : Crew := (s.crew? 2).getD w0

/-- The gang of a machine. -/
def gg (s : State) : Gang := (s.gang? 1).getD (Gang.new 0 fixGrid 0 0 0)

/-- `s` with name `n` bound, every lane of it `v`. -/
def named (s : State) (n count : Nat) (v : Word) : State :=
  (s.bindName 2 n count .bound).fillName 2 n (Vector.replicate 32 v)

/-- Names v1 to v4 bound, three reads each. -/
def m1 : State := named (named (named (named m0 1 3 5) 2 3 7) 3 3 9) 4 3 0

/-- `s` with its crew changed. -/
def withMe (s : State) (f : Crew → Crew) : State := s.setCrew 2 (f (me s))

/-- `s` with its gang changed. -/
def withGg (s : State) (f : Gang → Gang) : State := s.setGang 1 (f (gg s))

/-- `s` with scalar `k` of its crew `v`. -/
def scal (s : State) (k : Nat) (v : DWord) : State := withMe s fun w => { w with arch := w.arch.setScalar k v }

/-- Vector operands: v16 with count 1 from v1, v2, v3. -/
def o1 : Ops := ⟨⟨false, 0, false, false, 0⟩, 16, 1, 1, 2, 3, 0⟩

/-- Scalar operands: s16 from s1, s2, s3. -/
def o2 : Ops := ⟨⟨false, 0, true, false, 0⟩, 0xD0, 0, 0xC1, 0xC2, 0xC3, 0⟩

/-- No operands but an immediate. -/
def o3 (v : DWord) : Ops := ⟨⟨false, 0, false, false, 1⟩, 0, 0, 0, 0, 0, v⟩

def issuesB (s : State) (c : Nat) (w : Crew) (x : Ops) : Bool :=
  decide (s.cur = some c) && decide (s.crew? c = some w) && decide (w.marks = []) && decide (w.arch.act ≠ 0) && !w.empty
    && (!x.head.sw || !switchWaits w (s.core (s.coreOf w)).vs)

theorem issues_of {s : State} {c : Nat} {w : Crew} {x : Ops} (h : issuesB s c w x = true) : Issues s c w x := by
  unfold issuesB at h
  simp only [Bool.and_eq_true, decide_eq_true_eq, Bool.or_eq_true, Bool.not_eq_true'] at h
  obtain ⟨⟨⟨⟨⟨h1, h2⟩, h3⟩, h4⟩, h5⟩, h6⟩ := h
  exact ⟨h1, h2, h3, h4, h5, fun hs => h6.resolve_left (by rw [hs]; simp)⟩

/-- A crew with a tile, in a gang with the whole scratchpad. -/
def m2 : State := withGg (m1.claimedTile 2 0 0) fun g => { g with spLen := 0x60000 }

/-- Matrix operands at offset 0, tile 0. -/
def o4 (v : DWord) : Ops := ⟨⟨false, 0, false, false, 2⟩, 0, 0, 0xFF, 0xFF, 0, v⟩

/-- Tile 0 as source, a scalar of value 0 as the other. -/
def o5 : Ops := ⟨⟨false, 0, false, false, 0⟩, 16, 1, 0, 0xFF, 0, 0⟩

def ioS {α : Type} (r : Io α) : State := match r with
  | .ok s _ => s
  | _ => m0

def ioV {α : Type} (d : α) (r : Io α) : α := match r with
  | .ok _ v => v
  | _ => d

def ioIs {α : Type} [DecidableEq α] (r : Io α) (s : State) (v : α) : Bool := match r with
  | .ok t w => decide (t = s) && decide (w = v)
  | _ => false

theorem io_is {α : Type} [DecidableEq α] {r : Io α} {s : State} {v : α} (h : ioIs r s v = true) : r = .ok s v := by
  cases r <;> simp_all [ioIs]

def quS {α : Type} (r : QueueRes α) : State := match r with
  | .ok s _ => s
  | _ => m0

def quIs {α : Type} [DecidableEq α] (r : QueueRes α) (s : State) (v : α) : Bool := match r with
  | .ok t w => decide (t = s) && decide (w = v)
  | _ => false

theorem qu_is {α : Type} [DecidableEq α] {r : QueueRes α} {s : State} {v : α} (h : quIs r s v = true) : r = .ok s v := by
  cases r <;> simp_all [quIs]

def optD {α : Type} (d : α) (o : Option α) : α := o.getD d

theorem opt_is {α : Type} {o : Option α} {d : α} (h : o.isSome = true) : o = some (optD d o) := by
  cases o <;> simp_all [optD]

def okS (r : Except State State) : State := match r with
  | .ok s => s
  | .error _ => m0

def errS (r : Except State State) : State := match r with
  | .ok _ => m0
  | .error s => s

theorem ok_is {r : Except State State} (h : r.isOk = true) : r = .ok (okS r) := by
  cases r <;> simp_all [okS, Except.isOk, Except.toBool]

theorem err_is {r : Except State State} (h : r.isOk = false) : r = .error (errS r) := by
  cases r <;> simp_all [errS, Except.isOk, Except.toBool]

def plan0 : EngPlan := { what := .fork 0 0 0 0, tile := none, range := [] }

def exV (r : Checked EngPlan) : EngPlan := match r with
  | .ok p => p
  | .error _ => plan0

def exIs {α : Type} [DecidableEq α] (r : Checked α) (v : α) : Bool := match r with
  | .ok w => decide (w = v)
  | .error _ => false

theorem ex_is {α : Type} [DecidableEq α] {r : Checked α} {v : α} (h : exIs r v = true) : r = .ok v := by
  cases r <;> simp_all [exIs]

def reS (r : ResumeRes) : State := match r with
  | .done s _ => s
  | _ => m0


/-- `s` with bytes of the fixture's page written. -/
def poked (s : State) (pa : Nat) (bs : List Byte) : State := { s with mem := s.mem.write pa bs }

/-- A bin of one column without names. -/
def b0 : Bin :=
  { auto := false, ready := false, ovcnt := 0, occ := 0, toff := 0, width := 1, thresh := 4, spc := 0x200000, fdp := 0x200040,
    ovp := 0, rcnt := 0 }

/-- The fixture with bin 3 and a frame descriptor that names nothing. -/
def m3 (occ : Mask) : State :=
  withGg (poked m0 0x200040 [0#8, 1#8, 0#8, 0#8]) fun g => { g with spLen := 0x1000, bins := [(3, { b0 with occ := occ })] }

/-- Bin 3 as source. -/
def o6 : Ops := ⟨⟨false, 0, true, false, 0⟩, 0xC5, 0, 3, 0, 0, 0⟩

/-- A work queue of 16 items with `n` items at 0x200100, its address in s1. -/
def m4 (n : Nat) : State :=
  scal (poked m0 0x200100 (bytesLE 8 0x200200 ++ bytesLE 8 4 ++ bytesLE 8 0 ++ bytesLE 8 n)) 1 0x200100

def h4 (n : Nat) : Header := { place := ⟨0x200100, 0⟩, ring := 0x200200, cap := 16, head := 0, tail := n }

/-- A launch record at 0x200400, its address in s1. -/
def m5 : State := scal (poked (poked m0 0x200400 (bytesLE 8 0x0301)) 0x200420 [0x44#8, 0x44#8]) 1 0x200400

/-- A record whose ENTRY is no multiple of 4, its address in s1. -/
def m5b : State := scal (poked m0 0x200408 [1#8]) 1 0x200400

/-- A child of the grid in slot 5 of the pool. -/
def p5 (done : Bool) : PoolSlot :=
  { gen := 7, grid := some 9, parent := 0, done := done, status := 0, cause := 0, joined := false }

def m6 (done : Bool) : State := scal { m0 with pool := [(5, p5 done)] } 1 0x7005

/-- The scrub engine in a state. -/
def m7 (state : BitVec 2) (prog total : DWord) : State :=
  { m0 with sec := { m0.sec with scrub := { m0.sec.scrub with state := state, prog := prog, total := total } } }

/-- Context 7 protected. -/
def guarded (s : State) (z : Bool) : State := scal (s.modCtx 7 fun k => { k with prot := true, zeroised := z }) 1 7


/-! ### Accesses -/

/-- A scalar store of one word at 0x200100 that is not translated. -/
def a0 : Access :=
  { id := 50, snap := ⟨(me m0).arch, 0⟩, pc := 0x200000, opc := 0xA3, kind := .store, ty := .n32, size := 4, ord := 0, scope := 0,
    spad := false, priv := 2, lanes := 1, addr := [(0, 0x200100)], datB := [(0, 5)], datC := [], place := none, done := 0,
    value := [], bad := 0, dest := .none, slots := [], exempt := false }

/-- `a0` at another address, translated. -/
def a1 (pa : Nat) : Access := { a0 with addr := [(0, pa)], place := some [(0, ⟨pa, 0⟩)] }

/-- A machine whose crew has an access. -/
def withAcc (s : State) (a : Access) : State := withMe s fun w => { w with acc := [a] }

def pfS (r : PerfRes) : State := match r with
  | .ok s => s
  | _ => m0

def pfIs (r : PerfRes) (s : State) : Bool := match r with
  | .ok t => decide (t = s)
  | _ => false

theorem pf_is {r : PerfRes} {s : State} (h : pfIs r s = true) : r = .ok s := by
  cases r <;> simp_all [pfIs]

/-- An open entry of the fixture's crew. -/
def e0 : Entry :=
  { st := .opened, crew := 2, gang := 1, lanes := Vector.replicate 32 0, fill := 0, bad := 0, birth := 0, rel := 0, tag := 0,
    gone := false }

def m8 : State := m0.modCore 0 fun k => { k with vs := [(0, e0)] }

def d0 : Arrival := { crew := 2, ty := .n32, dest := .scalar 1, lanes := 1, value := [(0, 9)], bad := 0, slots := [] }

/-! ### Crews and gangs -/

/-- `s` with a spill area on the fixture's page. -/
def spills (s : State) : State := s.modCtx 1 fun k => { k with spill := 0x200000 }

/-- `s` with a spill area and frames in the page pool of die 0 for one page of it and its tables. -/
def pooled (s : State) : State := { spills s with frames := [(0, [0x800000, 0x810000, 0x820000])] }

/-- A second crew. -/
def w7 : Crew := { w0 with home := .slot 0 1, age := 5, park := some (.alloc 5000) }

/-- The fixture with two crews that wait for more names than there are. -/
def m9 : State := (withMe (pooled m0) fun w => { w with park := some (.alloc 5000) }).setCrew 7 w7

/-- The fixture with its crew evicted. -/
def m10 : State := okS ((withMe (pooled m0) fun w => { w with home := .evicted 0 }).spillCrew 2)

/-- The fixture with bin 3 automatic. -/
def m11 : State :=
  withGg (m3 1) fun g => { g with bins := [(3, { b0 with auto := true, ready := true, occ := 1 })] }

def rsS (r : ResumeRes) : State × Nat := match r with
  | .done s d => (s, d)
  | _ => (m0, 0)

def rsIs (r : ResumeRes) (s : State) (d : Nat) : Bool := match r with
  | .done t e => decide (t = s) && decide (e = d)
  | _ => false

theorem rs_is {r : ResumeRes} {s : State} {d : Nat} (h : rsIs r s d = true) : r = .done s d := by
  cases r <;> simp_all [rsIs]

def moS {α : Type} (r : EStateM.Result Stop State α) : State := match r with
  | .ok _ s => s
  | _ => m0

def moIs {α : Type} [DecidableEq α] (r : EStateM.Result Stop State α) (v : α) (s : State) : Bool := match r with
  | .ok w t => decide (t = s) && decide (w = v)
  | _ => false

theorem mo_is {α : Type} [DecidableEq α] {r : EStateM.Result Stop State α} {s : State} {v : α} (h : moIs r v s = true) :
    r = .ok v s := by
  cases r <;> simp_all [moIs]

/-- A crew with one frame name to bind. -/
def m12 : State := withMe m0 fun w => { w with frame := [⟨1, 2, Vector.replicate 32 7⟩] }

/-- A debug-halted crew that owes a STOP notice, its mailbox on the fixture's page. -/
def m13 : State :=
  withMe (m0.modCtx 1 fun k => { k with mbox := 0x201000 }) fun w => { w with notice := some false, park := some .debug }

def xcIs {α : Type} [DecidableEq α] (r : Except Cause α) (v : Except Cause α) : Bool := match r, v with
  | .ok x, .ok y => decide (x = y)
  | .error x, .error y => decide (x = y)
  | _, _ => false

theorem xc_is {α : Type} [DecidableEq α] {r v : Except Cause α} (h : xcIs r v = true) : r = v := by
  cases r <;> cases v <;> simp_all [xcIs]

def xcS (r : Except Cause State) : State := match r with
  | .ok s => s
  | _ => m0

theorem opt2_is {α β : Type} {o : Option (α × β)} {d : α × β} (h : o.isSome = true) :
    o = some ((optD d o).1, (optD d o).2) := by
  cases o <;> simp_all [optD]

/-- The fixture's gang swapped out, its crew's join over. -/
def m14 : State :=
  withGg (withMe (({ pooled m0 with frames := [(0, [0x800000, 0x810000, 0x820000, 0x830000])] }).saveGang 1 .swapped)
    fun w => { w with waitEvt := some 0 }) fun g => { g with back := some 0 }

/-- That gang with no slot left on its core. -/
def m14b : State :=
  m14.modCore 0 fun k => { k with slots := (List.range 64).map fun i => (i, ⟨2, 1, 0, 0, 0, some (100 + i)⟩) }

/-- A booted device with launch 3 in a state, its record as given. -/
def m15 (st : GridState) (r : List Byte) : State :=
  { m0.setGrid 3 { fixGrid with state := st, next := 0, record := r } with
    sec := { m0.sec with boot := 3 }, arb := { m0.arb with table := some [] } }

/-- A record without dependences, and one whose dependence word lies at 0x300000. -/
def r0 : List Byte := List.replicate 256 0#8
def r1 : List Byte := List.replicate 192 0#8 ++ bytesLE 8 0x300000 ++ List.replicate 56 0#8

def grd (s : State) (l : Nat) : Grid := (s.grid? l).getD fixGrid

/-- Slots 0 and 1 of core 1 reserved for a launch. -/
def rsv (s : State) (l : Nat) : State := s.bindSlots (grd s l) [(1, 0), (1, 1)]

/-- The fixture with its gang to be placed again. -/
def m16 : State := rsv { m0.modGrid 0 (fun k => { k with due := [0] }) with sec := { m0.sec with boot := 3 } } 0

/-- The grid of that gang once it is due no more. -/
def g16 : Grid := { grd m16 0 with due := (grd m16 0).due.erase 0, again := (grd m16 0).again + 1 }

/-! ### Engines -/

/-- An engine command of the fixture's crew. -/
def c0 (engine : Nat) (what : CmdKind) : Cmd :=
  { gang := 1, grid := 0, crew := 2, ctx := 1, priv := 2, core := 0, engine := engine, n := 1, pc := 0x200000, crewid := 0,
    what := what, tile := none, range := [], isOver := false, result := zeroLanes, begun := none, did := [], saved := none }

def withCmd (s : State) (m : Cmd) : State := { s with cmds := [(60, m)] }

/-- A record that copies 64 bytes of the fixture's page to another place of it. -/
def rec0 : List Byte :=
  encodeBytes (.ecpy ⟨0, 0, .i8⟩ ⟨⟨false, 0, true, false, 2⟩, 0xFF, 0, 0xC1, 0xC2, 0xFF, 0x0050000000200000⟩)
    ++ bytesLE 8 64 ++ bytesLE 8 0x200040 ++ List.replicate 32 0#8

def m17 : State := withCmd (poked m0 0x200800 rec0) (c0 0 (.fork 0x200800 1 0 1))

def rdP (r : Reached) : State × EngPlan := match r with
  | .plan s p => (s, p)
  | _ => (m0, plan0)

def rdIs (r : Reached) (s : State) (p : EngPlan) : Bool := match r with
  | .plan t q => decide (t = s) && decide (q = p)
  | _ => false

theorem rd_is {r : Reached} {s : State} {p : EngPlan} (h : rdIs r s p = true) : r = .plan s p := by
  cases r <;> simp_all [rdIs]

/-- A collective of two ranks with tag `tag`, the other one on device 1, whose link is up or not. -/
def m18 (up : Bool) (tag : Nat) : State :=
  { withCmd (poked m0 0x200900 (bytesLE 8 2 ++ bytesLE 8 tag ++ bytesLE 8 0 ++ bytesLE 8 1))
      (c0 2 (.ecoll 0 0 .n32 0x200000 1 0x200900 0)) with
    net := { m0.net with id := 0, links := [(0, { Link.reset with up := up, peer := 1 })], route := [(1, 1)] } }

/-- What its local command meets, the machine then, and its contribution. -/
def met (s : State) : State × List Member × List (Nat × CmdFail) := (s.meet [60]).getD (m0, [], [])
def mem0 (s : State) : Member :=
  (met s).2.1.headD { key := 0, cmd := c0 0 .nothing, coll := ⟨0, 0, .n32, 0, 0, 0, 0⟩, group := ⟨0, 0, 0, [], false⟩ }
def inpOf (r : Option (Except (State × CmdFail) (State × List (Nat × List Byte)))) : State × List (Nat × List Byte) :=
  match r with
  | some (.ok p) => p
  | _ => (m0, [])

def inpB (r : Option (Except (State × CmdFail) (State × List (Nat × List Byte)))) : Bool := match r with
  | some (.ok _) => true
  | _ => false

theorem inp_is {r : Option (Except (State × CmdFail) (State × List (Nat × List Byte)))} (h : inpB r = true) :
    r = some (.ok ((inpOf r).1, (inpOf r).2)) := by
  unfold inpB at h
  split at h <;> simp_all [inpOf]

def inp (s : State) : State × List (Nat × List Byte) :=
  inpOf (readInputs [(mem0 s).coll.root] [mem0 s] (met s).1)

def mrS (r : Except (Nat × Nat) (State × Stat)) : State × Stat := match r with
  | .ok p => p
  | _ => (m0, ⟨0, 0, 0⟩)

def mrIs (r : Except (Nat × Nat) (State × Stat)) : Bool := match r with
  | .ok _ => true
  | _ => false

theorem mr_is {r : Except (Nat × Nat) (State × Stat)} (h : mrIs r = true) : r = .ok ((mrS r).1, (mrS r).2) := by
  cases r <;> simp_all [mrIs, mrS]

/-- A tile to be cleared. -/
def mat0 : MatOp :=
  { crew := 2, gang := 1, seq := 0, pc := 0x200000, tile := 0, lanes := 1, kind := .azero, early := [], did := [] }

def m19 : State := m0.modCore 0 fun k => { k with mats := [mat0] }

/-- The fixture's crew in PMAP or TLBINV, the page pool of die 0 as given. -/
def m20 (p : Park) (pool : List Nat) : State := withMe { m0 with frames := [(0, pool)] } fun w => { w with park := some p }

def mpS (r : MapRes) : State := match r with
  | .mapped s _ => s
  | _ => m0

def mpIs (r : MapRes) (s : State) (f : Nat) : Bool := match r with
  | .mapped t g => decide (t = s) && decide (g = f)
  | _ => false

theorem mp_is {r : MapRes} {s : State} {f : Nat} (h : mpIs r s f = true) : r = .mapped s f := by
  cases r <;> simp_all [mpIs]

/-- A scrub of one line that runs. -/
def m21 : State :=
  { m0 with sec := { m0.sec with scrub := { m0.sec.scrub with state := 1, list := [(0x300000, 0x1000)] } } }

def ioF {α : Type} (r : Io α) : State := match r with
  | .fail s _ _ _ => s
  | _ => m0

def iofIs {α : Type} (r : Io α) (s : State) (c : Cause) (a f : Nat) : Bool := match r with
  | .fail t d b g => decide (t = s) && decide (d = c) && decide (b = a) && decide (g = f)
  | _ => false

theorem iof_is {α : Type} {r : Io α} {s : State} {c : Cause} {a f : Nat} (h : iofIs r s c a f = true) :
    r = .fail s c a f := by
  cases r <;> simp_all [iofIs]

/-- The fixture's crew with 32 stack entries, a spill area and a page pool that holds `pool`. -/
def m40 (pool : List Nat) : State :=
  withMe { spills m1 with frames := [(0, pool)] } fun w =>
    { w with arch := { w.arch.setMask 1 1 with stack := List.replicate 32 ⟨.join, 0x200000, 1⟩ } }

/-- That crew where the page pool suffices, and the operands of a branch of the lanes of mask 1. -/
def half : State := m40 [0x800000, 0x810000, 0x820000]
def o7 : Ops := ⟨⟨false, 1, false, false, 1⟩, 0, 0, 0, 0, 0, 0x40⟩

/-- The fixture's crew at a level, with a vector for level 2. -/
def m41 (p : BitVec 2) (v : Addr) : State := (withMe m0 fun w => { w with priv := p }).modCtx 1 fun k => { k with evecW := v }

/-- The fixture's crew with an address of its page in s1, and a scalar load from there to s16. -/
def m42 : State := scal m1 1 0x200100
def o8 : Ops := ⟨⟨false, 0, true, false, 0⟩, 0xD0, 0, 0xC1, 0, 0, 0⟩

/-- An instruction of two sources, v16 from names v1 and v2. -/
def add0 : Instr := .iadd ⟨0, false, 0, .n32⟩ o1

/-- `s` with the entries of core 0 in another state. -/
def inState (s : State) (st : EState) : State :=
  s.modCore 0 fun k => { k with vs := Tab.mapV k.vs fun _ e => { e with st := st } }

/-- `s` with L(g) of its gang `n`. -/
def lim (s : State) (n : Nat) : State := withGg s fun g => { g with vslim := n }

/-! ### Queues, contexts and the mailbox -/

/-- A queue of four units on the fixture's page with `n` units queued, the first with header `h` and words `a` and `v`. -/
def m23 (n h a v : Nat) : State :=
  (poked { m0 with sec := { m0.sec with boot := 3 } } 0x200400 (bytesLE 8 h ++ bytesLE 8 a ++ bytesLE 8 v)).setQueue 0
    { Queue.reset with base := 0x200400, ctx := 1, log2n := 2, en := true, tail := BitVec.ofNat 64 n }

/-- That queue with a SIGNAL to `a` at its head; page 0x210000 lies in host memory, whose request for line 6 of it failed. -/
def m44 (a : Nat) : State :=
  { poked (m23 1 2 a 5) (fixLeaf + 8 * leafIx 0x210000) (bytesLE 8 0x400000000000F) with
    outBad := [0x4000000000000 / 128 + 6] }

def p1 (a : Nat) : Packet := ⟨((m44 a).queue 0).head.toNat, 2, a, 5, none, false⟩
def sig0 (a : Nat) : State := (m44 a).started 0 1 (some (p1 a))

/-- The units of such a queue. -/
def units (n h a v : Nat) : List Byte := bytesLE 8 h ++ bytesLE 8 a ++ bytesLE 8 v ++ List.replicate (64 * n - 24) 0#8

/-- A WAIT packet that has started. -/
def p0 (addr : Nat) : Packet := { unit := 0, opc := 3, addr := addr, val := 0, grid := none, halt := false }

/-- A SIGNAL packet that has started and failed. -/
def m24b : State := m0.setQueue 0
  { Queue.reset with ctx := 1, halt := true, open_ := [{ p0 0x200300 with opc := 2, halt := true }] }

def m24 (addr : Nat) : State := m0.setQueue 0 { Queue.reset with ctx := 1, open_ := [p0 addr] }

/-- The fixture with context 1 in a state. -/
def pre (v : BitVec 2) (restore : Option Nat) : State := m0.modCtx 1 fun k => { k with pre := v, restore := restore }

/-- A saved context without gangs. -/
def m25 : State := { pre 3 (some 0) with gangs := [], crews := [] }

/-- A mailbox request to the fixture's crew, debug-halted. -/
def req0 (op : Nat) (body : List Byte) : MbReq := ⟨op, 1, 0, true, body⟩

def m26 (s : State) (op : Nat) (body : List Byte) : State :=
  withMe (s.modCtx 1 fun k => { k with mbReq := some (req0 op body) }) fun w => { w with park := some .debug }

def asksB (s : State) (ctx : Nat) (q : MbReq) (op c : Nat) (w : Crew) : Bool :=
  decide (s.request ctx = some q) && decide (q.op = op) && q.zeros && decide (s.haltedCrew ctx q.crew = some c)
    && decide (s.crew? c = some w)

theorem asks_of {s : State} {ctx op c : Nat} {q : MbReq} {w : Crew} (h : asksB s ctx q op c w = true) : Asks s ctx q op c w := by
  unfold asksB at h
  simp only [Bool.and_eq_true, decide_eq_true_eq] at h
  obtain ⟨⟨⟨⟨h1, h2⟩, h3⟩, h4⟩, h5⟩ := h
  exact ⟨h1, h2, h3, h4, h5⟩

/-- A machine whose core 0 samples slot 0, with a crew there or not. -/
def smp0 : Sampler := { Sampler.reset with en := true, per := 100, ctx := 1 }

def m27 (occupied : Bool) : State :=
  (if occupied then m0 else m0.modCore 0 fun k => { k with slots := [] }).modCore 0 fun k => { k with smp := smp0 }

/-- That machine with the crew parked. -/
def m27b : State := withMe { m27 true with cur := none } fun w => { w with park := some .matrix }

/-- A context with a mailbox that holds a request with header `h`. -/
def m28 (h : List Byte) : State := (poked m0 0x201000 h).modCtx 1 fun k => { k with mbox := 0x201000 }

/-! ### Security, arbiter, errors, links -/

/-- A firmware header with a body of 4,096 bytes, the version tested before its signature. -/
def hdr0 : List Byte :=
  bytesLE 4 0x4D49395A ++ bytesLE 4 2 ++ List.replicate 8 0#8 ++ bytesLE 8 4096 ++ List.replicate 4072 0#8

def m29 : State := poked { m0 with sec := { m0.sec with boot := 3, fwimg := 0x300000 } } 0x300000 hdr0

theorem read_poked (s : State) (pa n : Nat) (bs : List Byte) (hw : s.mem.wf = true) (hn : bs.length = n) :
    (poked s pa bs).mem.read pa n = bs := by
  subst hn
  exact Memory.read_write pa bs hw

theorem m29_header : State.readFree m29 0x300000 4096 = some hdr0 := by
  unfold State.readFree
  rw [if_pos (by decide +kernel), m29, read_poked _ _ _ _ (by decide +kernel) (by decide +kernel)]

theorem m29_body : State.readFree m29 (m29.sec.fwimg + 4096) (imgField hdr0 16 8) = some (m29.mem.read 0x301000 4096) := by
  have h : imgField hdr0 16 8 = 4096 := by decide +kernel
  rw [h]
  exact if_pos (by decide +kernel)

/-- A protected context 7 and a list that assigns it core 1. -/
def m30 : State :=
  poked ({ m0 with sec := { m0.sec with asgAddr := 0x300000 } }.modCtx 7 fun k => { k with prot := true }) 0x300000 [1, 0, 1]

/-- A power table whose limits rise, at 0x300000. -/
def band0 (b : Nat) : List Byte := [0#8, 0#8, BitVec.ofNat 8 (10 * b + 10)] ++ List.replicate 253 0#8
def tab0 : List Byte := (List.range' 0 8).flatMap band0

theorem band0_length (b : Nat) : (band0 b).length = 256 := by
  rw [band0, List.length_append, List.length_replicate]; rfl

theorem bands_get (n k b i : Nat) (hb : b < n) (hi : i < 256) :
    ((List.range' k n).flatMap band0)[256 * b + i]? = (band0 (k + b))[i]? := by
  induction n generalizing k b with
  | zero => omega
  | succ n ih =>
    have hl := band0_length k
    rw [List.range'_succ, List.flatMap_cons]
    cases b with
    | zero => rw [List.getElem?_append_left (by omega), Nat.mul_zero, Nat.zero_add, Nat.add_zero]
    | succ b =>
      rw [List.getElem?_append_right (by omega), hl, show 256 * (b + 1) + i - 256 = 256 * b + i by omega,
        ih (k + 1) b (by omega), show k + 1 + b = k + (b + 1) by omega]

theorem tab0_zero (b i : Nat) (hb : b < 8) (hi : i < 256) (h : 8 ≤ i) : tab0.getD (256 * b + i) 0#8 = 0#8 := by
  rw [List.getD_eq_getElem?_getD, tab0, bands_get 8 0 b i hb hi, band0, List.getElem?_append_right (Nat.le_trans (show 3 ≤ 8 by decide) h),
    List.getElem?_replicate]
  split <;> rfl

theorem tab0_length : (tab0.length == 2048) = true := by
  rw [tab0, List.length_flatMap, List.map_congr_left (fun b _ => band0_length b)]; rfl

theorem tab0_ok : tableOk tab0 = true := by
  have h1 := tab0_length
  have h2 : ((List.range 6).all fun b => decide (tabLimit tab0 b < tabLimit tab0 (b + 1))) = true := by decide +kernel
  have h3 : ∀ b < 8, ((List.range 4).all fun d => decide (tabDisc tab0 b d ≤ 36)) = true := by decide +kernel
  unfold tableOk
  rw [h1, h2, Bool.true_and, Bool.and_true, List.all_eq_true]
  intro b hb
  rw [List.mem_range] at hb
  rw [h3 b hb, Bool.and_true, List.all_eq_true]
  intro i hi
  rw [List.mem_range] at hi
  by_cases h : i < 8
  · simp [mustBeZero, h]
  · rw [tab0_zero b i hb hi (by omega)]; simp

def m31 : State := poked { m0 with sec := { m0.sec with boot := 3 } } 0x300000 tab0

theorem m31_table : tab0 = m31.mem.read (fld 0x300001#64 51 11 * 2048) 2048 := by
  have h : fld 0x300001#64 51 11 * 2048 = 0x300000 := by decide +kernel
  rw [h, m31, read_poked _ _ _ _ (by decide +kernel)
    (eq_of_beq tab0_length)]

/-- A grant that waits. -/
def due0 : GrantDue := ⟨Grant.floor, 1⟩

/-- The fixture with 32 pages mapped from 0x200000 on and as many in the pool of die 0. -/
def m32 : State :=
  (poked { m0 with frames := [(0, (List.range 32).map fun i => 0x800000 + 0x10000 * i)] } (fixLeaf + 8 * leafIx fixPage)
    ((List.range 32).flatMap fun i => bytesLE 8 (0x200000 + 0x10000 * i + 15))).modCtx 1 fun k => { k with promote := true }

/-- Two cores of a die at undervolt step 1, one error each short of their threshold. -/
def m45 : State :=
  { m0 with rel := { m0.rel with window := [(unitKey 1 0, Config.errThreshold 1), (unitKey 1 1, Config.errThreshold 1)] } }.setUv
    0 1 { (m0.uv 0 1) with step := 1 }

theorem record_window (s : State) (r : Rec) : (s.record r).rel.window = s.rel.window := by
  unfold State.record
  dsimp only
  split <;> split <;> rfl

theorem modLife_window (s : State) (k i : Nat) (f : Life → Life) : (s.modLife k i f).rel.window = s.rel.window := by
  unfold State.modLife
  split <;> rfl

theorem countError_window (s : State) (k : BitVec 8) (i : BitVec 16) (a : DWord) :
    (s.countError k i a).rel.window = Tab.put s.rel.window (unitKey k.toNat i.toNat)
      (Tab.getD s.rel.window (unitKey k.toNat i.toNat) 0 + 1) := by
  unfold State.countError
  dsimp only
  split
  · rw [record_window, modLife_window]
  · rw [modLife_window]

theorem crosses_of {s : State} {k : BitVec 8} {i : BitVec 16}
    (h : Tab.getD s.rel.window (unitKey k.toNat i.toNat) 0 = Config.errThreshold k + 1) : s.crosses k i = true := by
  unfold State.crosses
  rw [h]
  exact beq_self_eq_true _

theorem m45_one : (m45.countError 1 0 0).crosses 1 0 = true :=
  crosses_of (by rw [countError_window]; rfl)

theorem m45_two : ((m45.countError 1 0 0).countError 1 1 0).crosses 1 1 = true :=
  crosses_of (by rw [countError_window, countError_window]; rfl)

/-- A table under which another grant than the present one is found. -/
def m46 : State := { m0 with arb := { m0.arb with table := some [], grant := { m0.arb.grant with cap := 901 } } }

/-- One unit's errors in the rate window. -/
def m33 (n : Nat) : State := { m0 with rel := { m0.rel with window := [(unitKey 1 0, n)] } }

def wkS (r : Except (Option Cause) Nat) : Nat := match r with
  | .ok n => n
  | _ => 0

def wkIs (r : Except (Option Cause) Nat) : Bool := match r with
  | .ok _ => true
  | _ => false

theorem wk_is {r : Except (Option Cause) Nat} (h : wkIs r = true) : r = .ok (wkS r) := by
  cases r <;> simp_all [wkIs, wkS]

theorem optc_is {α : Type} {o : Option (List α)} {d : α} (h : o.any (fun l => !l.isEmpty) = true) :
    o = some ((optD [] o).headD d :: (optD [] o).drop 1) := by
  cases o with
  | none => simp at h
  | some l => cases l <;> simp_all [optD]

/-- The leaf entries of the 32 pages. -/
def lv : List DWord := optD [] (State.leaves m32 1 (wkS (State.walkTo m32 1 0x200000) - 8 * leafIx 0x200000) 0x200000 32)

/-! ### Stores and steps -/

/-- A scratchpad store of the fixture's crew that is translated. -/
def a2 : Access := { a1 (winBase + 0x100) with spad := true, addr := [(0, 0x100)] }

theorem one_lane {l : Fin 32} (h : (1 : Mask)[l] = true) : l = 0 := by revert l; decide

theorem m0_ok : (withAcc m0 a2).MemOk := by
  show Memory.wf _ = true
  decide +kernel

/-- The fixture about to step. -/
def n0 : State := State.reset.withFetchWord 64 0

def nx (r : Host.Outcome State Fault Refusal) : State := match r with
  | .next s => s
  | _ => m0

def nxB (r : Host.Outcome State Fault Refusal) : Bool := match r with
  | .next _ => true
  | _ => false

theorem nx_is {r : Host.Outcome State Fault Refusal} (h : nxB r = true) : r = .next (nx r) := by
  cases r <;> simp_all [nxB, nx]

def fetchesB (s : State) (w : Crew) (t : State) (bs : List Byte) : Bool :=
  let r := s.readVa (s.crewAgent w w.arch.pc) .fetch w.arch.pc.toNat 4
  let hd := ioV [] r
  let n := lenBytes ((hd.headD 0#8).extractLsb' 0 2)
  ioIs r (ioS r) hd && !(decide (w.arch.pc.toNat % 32 = 28 ∧ ofBytesLE hd = 0)) && decide (n ≠ 0)
    && ioIs ((ioS r).readVa ((ioS r).crewAgent w w.arch.pc) .fetch w.arch.pc.toNat n) t bs
    && decide (w.arch.pc.toNat % 32 + bs.length ≤ 32)

theorem fetches_of {s t : State} {w : Crew} {bs : List Byte} (h : fetchesB s w t bs = true) : Fetches s w t bs := by
  unfold fetchesB at h
  simp only [Bool.and_eq_true, decide_eq_true_eq, Bool.not_eq_true', decide_eq_false_iff_not] at h
  obtain ⟨⟨⟨⟨h1, h2⟩, h3⟩, h4⟩, h5⟩ := h
  exact ⟨⟨_, _, io_is h1, h2, h3, io_is h4⟩, h5⟩

def readyB (s : State) (c : Nat) (w : Crew) : Bool :=
  decide (s.crew? c = some w) && !w.empty && decide (w.frame = []) && s.ctxLets w
    && decide (w.park = none) && decide (w.stepDue = none) && !w.breaks

theorem ready_of {s : State} {c : Nat} {w : Crew} (h : readyB s c w = true) : Ready s c w := by
  unfold readyB at h
  simp only [Bool.and_eq_true, decide_eq_true_eq, Bool.not_eq_true'] at h
  obtain ⟨⟨⟨⟨⟨⟨h1, h2⟩, h3⟩, h4⟩, h5⟩, h6⟩, h7⟩ := h
  exact ⟨h1, h2, h3, h4, h5, h6, h7⟩

/-- The fixture's instruction, a NOP, and an EVWAIT. -/
def nop0 : Instr := .nop ⟨⟨false, 0, false, false, 0⟩, 0, 0, 0, 0, 0, 0⟩
def ew0 : Instr := .evwait 5 ⟨⟨false, 0, true, false, 0⟩, 0xC1, 0, 0, 0, 0, 0⟩

def qnS (r : Host.Outcome (State × Bool) Fault Refusal) : State × Bool := match r with
  | .next p => p
  | _ => (m0, false)

def qnB (r : Host.Outcome (State × Bool) Fault Refusal) : Bool := match r with
  | .next _ => true
  | _ => false

theorem qn_is {r : Host.Outcome (State × Bool) Fault Refusal} (h : qnB r = true) : r = .next ((qnS r).1, (qnS r).2) := by
  cases r <;> simp_all [qnB, qnS]


def decB (bs : List Byte) (i : Instr) : Bool := match decode bs with
  | .ok (j, r) => decide (j = i) && r.isEmpty
  | .error _ => false

theorem dec_is {bs : List Byte} {i : Instr} (h : decB bs i = true) : decode bs = .ok (i, []) := by
  unfold decB at h
  split at h <;> simp_all

/-- Why bytes do not decode. -/
def decE (bs : List Byte) : DecodeError := match decode bs with
  | .ok _ => .tooShort
  | .error e => e

theorem decE_is {bs : List Byte} (h : (decode bs).isOk = false) : decode bs = .error (decE bs) := by
  unfold decE
  cases hd : decode bs with
  | ok p => rw [hd] at h; cases h
  | error e => rfl

/-! ## Ill-formed terms are refused (R11, R39 to R55) -/

/-- No operands: the common word's fields all zero but LEN. -/
def none0 (len : BitVec 2) : Ops := ⟨⟨false, 0, false, false, len⟩, 0, 0, 0, 0, 0, 0⟩

/-- A field that the instruction does not use is not zero; NEG without a mask; a length that the opcode has not; a predicate
where none may stand (R40, R11, R53, R81). -/
theorem test_ill_formed_common :
    Instr.wellFormed (.nop { none0 0 with sa := 1 }) = false ∧
    Instr.wellFormed (.nop ⟨⟨true, 0, false, false, 0⟩, 0, 0, 0, 0, 0, 0⟩) = false ∧
    Instr.wellFormed (.nop (none0 1)) = false ∧ Instr.wellFormed (.nop { none0 0 with ext := 1 }) = false ∧
    Instr.wellFormed (.cvg ⟨⟨false, 1, false, false, 0⟩, 0, 0, 0, 0, 0, 0⟩) = false := by decide +kernel

/-- Destinations and sources of the wrong kind: a count without a name, a scalar name without UNI, a mask number above 7, a
tile number above 7, a bin above 31, a vector name where a scalar must stand (R41, R39, R43). -/
theorem test_ill_formed_operands :
    Instr.wellFormed (.mov ⟨⟨false, 0, false, false, 0⟩, 5, 0, 1, 0, 0, 0⟩) = false ∧
    Instr.wellFormed (.mov ⟨⟨false, 0, false, false, 0⟩, 0xC1, 1, 1, 0, 0, 0⟩) = false ∧
    Instr.wellFormed (.icmp ⟨2, false, 0, .n32⟩ ⟨⟨false, 0, false, false, 0⟩, 8, 0, 1, 2, 0, 0⟩) = false ∧
    Instr.wellFormed (.aclaim ⟨⟨false, 0, false, false, 0⟩, 8, 0, 0, 0, 0, 0⟩) = false ∧
    Instr.wellFormed (.wake ⟨⟨false, 0, false, false, 0⟩, 0, 0, 32, 0, 0, 0⟩) = false ∧
    Instr.wellFormed (.brx ⟨⟨false, 0, false, false, 0⟩, 0, 0, 1, 0, 0, 0⟩) = false := by decide +kernel

/-- FN: a type, a MOD, a SUB, an ORD or a number that the entry does not list; MG on a scalar (R48 to R54). -/
theorem test_ill_formed_fn :
    Instr.wellFormed (.iadd ⟨0, false, 0, .f32⟩ o1) = false ∧ Instr.wellFormed (.fadd ⟨0, false, 5, .f32⟩ { o1 with sc := 0 }) = false ∧
    Instr.wellFormed (.iadd ⟨1, false, 0, .n32⟩ { o1 with sc := 0 }) = false ∧
    Instr.wellFormed (.fence ⟨0, 0, 5, .i8⟩ (none0 0)) = false ∧ Instr.wellFormed (.ppt 0x100 (none0 0)) = false ∧
    Instr.wellFormed (.iadd ⟨0, true, 0, .n32⟩ o2) = false := by decide +kernel

/-- A happening whose arguments are out of range. -/
theorem test_ill_formed_happening : Instr.wellFormed (.qtail 1024 0) = false ∧ Instr.wellFormed (.qtail 1023 0) = true := by
  decide +kernel

/-- Reserved opcodes, LEN 3 and words cut short do not decode (R36, R52). -/
theorem test_decode_refuses :
    decodeTableWord 64 0x0A00 = none ∧ decodeTableWord 64 0xFF00 = none ∧ decodeTableWord 64 3 = none ∧
    (decode [0, 0, 0, 0, 0, 0, 0]).isOk = false := by decide +kernel

/-! ## Words of R38, R46 and R48 to R54, with operands written into their fields -/

/-- The control instructions. -/
theorem test_words_control :
    decodeTableWord 64 0x0000000000000004 = some (.nop ⟨⟨false, 0, false, true, 0⟩, 0, 0, 0, 0, 0, 0⟩) ∧
    decodeTableWord 96 0xFFFFFFC00000000000000191 = some (.bra ⟨⟨true, 1, false, false, 1⟩, 0, 0, 0, 0, 0, 0xffffffc0⟩) ∧
    decodeTableWord 64 0x0000000C40000220 = some (.brx ⟨⟨false, 2, false, false, 0⟩, 0, 0, 0xC4, 0, 0, 0⟩) ∧
    decodeTableWord 96 0x3C0000000000000301 = some (.dvg ⟨⟨false, 0, false, false, 1⟩, 0, 0, 0, 0, 0, 0x3c⟩) ∧
    decodeTableWord 64 0x0000000000000400 = some (.cvg ⟨⟨false, 0, false, false, 0⟩, 0, 0, 0, 0, 0, 0⟩) ∧
    decodeTableWord 96 0x1000000000000C20509 = some (.call ⟨⟨false, 0, true, false, 1⟩, 0xC2, 0, 0, 0, 0, 0x100⟩) ∧
    decodeTableWord 64 0x0000000C20000600 = some (.ret ⟨⟨false, 0, false, false, 0⟩, 0, 0, 0xC2, 0, 0, 0⟩) ∧
    decodeTableWord 64 0x0000000000000790 = some (.exit ⟨⟨true, 1, false, false, 0⟩, 0, 0, 0, 0, 0, 0⟩) ∧
    decodeTableWord 96 0xFFFFFFE00000000C30C30809 = some (.loop ⟨⟨false, 0, true, false, 1⟩, 0xC3, 0, 0xC3, 0, 0,
    0xffffffe0⟩) ∧
    decodeTableWord 64 0x0A50000000000900 = some (.ppt 0xA5 ⟨⟨false, 0, false, false, 0⟩, 0, 0, 0, 0, 0, 0⟩) := by
  decide +kernel

/-- The names instructions. -/
theorem test_words_names :
    decodeTableWord 64 0x0000000C31051020 = some (.mov ⟨⟨false, 2, false, false, 0⟩, 5, 1, 0xC3, 0, 0, 0⟩) ∧
    decodeTableWord 96 0x800000000000000000E81109 = some (.movi ⟨⟨false, 0, true, false, 1⟩, 0xE8, 0, 0, 0, 0,
    0x80000000⟩) ∧
    decodeTableWord 64 0x00013C5112101230 = some (.sel ⟨⟨false, 3, false, false, 0⟩, 0x10, 2, 0x11, 0xC5, 0x13, 0⟩) ∧
    decodeTableWord 64 0x0000000210001300 = some (.drop ⟨⟨false, 0, false, false, 0⟩, 0, 0, 0x21, 0, 0, 0⟩) ∧
    decodeTableWord 64 0x0030000090001400 = some (.dropk 3 ⟨⟨false, 0, false, false, 0⟩, 0, 0, 9, 0, 0, 0⟩) ∧
    decodeTableWord 64 0x00E00000A0001500 = some (.keep 0x0E ⟨⟨false, 0, false, false, 0⟩, 0, 0, 0x0A, 0, 0, 0⟩) ∧
    decodeTableWord 64 0x0000000C61121600 = some (.openName ⟨⟨false, 0, false, false, 0⟩, 0x12, 1, 0xC6, 0, 0, 0⟩) ∧
    decodeTableWord 64 0x0000000C10001700 = some (.claim ⟨⟨false, 0, false, false, 0⟩, 0, 0, 0xC1, 0, 0, 0⟩) ∧
    decodeTableWord 96 0x50000000000001801 = some (.cede ⟨⟨false, 0, false, false, 1⟩, 0, 0, 0, 0, 0, 0x5⟩) ∧
    decodeTableWord 64 0x0000000000C71908 = some (.poolq ⟨⟨false, 0, true, false, 0⟩, 0xC7, 0, 0, 0, 0, 0⟩) ∧
    decodeTableWord 64 0x0100000000D51A08 = some (.csrr 0x10 ⟨⟨false, 0, true, false, 0⟩, 0xD5, 0, 0, 0, 0, 0⟩) ∧
    decodeTableWord 64 0x0580000E80001B00 = some (.csrw 0x58 ⟨⟨false, 0, false, false, 0⟩, 0, 0, 0xE8, 0, 0, 0⟩) := by
  decide +kernel

/-- The integer instructions. -/
theorem test_words_integer :
    decodeTableWord 64 0x00200C2212102000 = some (.iadd ⟨0, false, 0, .i32⟩ ⟨⟨false, 0, false, false, 0⟩, 0x10, 2, 0x21,
    0xC2, 0, 0⟩) ∧
    decodeTableWord 64 0x00200C2212102100 = some (.isub ⟨0, false, 0, .i32⟩ ⟨⟨false, 0, false, false, 0⟩, 0x10, 2, 0x21,
    0xC2, 0, 0⟩) ∧
    decodeTableWord 64 0x00200C2212102200 = some (.imul ⟨0, false, 0, .i32⟩ ⟨⟨false, 0, false, false, 0⟩, 0x10, 2, 0x21,
    0xC2, 0, 0⟩) ∧
    decodeTableWord 64 0x00200C2212102300 = some (.imulh ⟨0, false, 0, .i32⟩ ⟨⟨false, 0, false, false, 0⟩, 0x10, 2, 0x21,
    0xC2, 0, 0⟩) ∧
    decodeTableWord 64 0x00223C2212102400 = some (.imad ⟨0, false, 0, .i32⟩ ⟨⟨false, 0, false, false, 0⟩, 0x10, 2, 0x21,
    0xC2, 0x23, 0⟩) ∧
    decodeTableWord 64 0x00200C2212102500 = some (.idiv ⟨0, false, 0, .i32⟩ ⟨⟨false, 0, false, false, 0⟩, 0x10, 2, 0x21,
    0xC2, 0, 0⟩) ∧
    decodeTableWord 64 0x00200C2212102600 = some (.irem ⟨0, false, 0, .i32⟩ ⟨⟨false, 0, false, false, 0⟩, 0x10, 2, 0x21,
    0xC2, 0, 0⟩) ∧
    decodeTableWord 64 0x00200C2212102700 = some (.imin ⟨0, false, 0, .i32⟩ ⟨⟨false, 0, false, false, 0⟩, 0x10, 2, 0x21,
    0xC2, 0, 0⟩) ∧
    decodeTableWord 64 0x00200C2212102800 = some (.imax ⟨0, false, 0, .i32⟩ ⟨⟨false, 0, false, false, 0⟩, 0x10, 2, 0x21,
    0xC2, 0, 0⟩) ∧
    decodeTableWord 64 0x0020000212102900 = some (.iabs ⟨0, false, 0, .i32⟩ ⟨⟨false, 0, false, false, 0⟩, 0x10, 2, 0x21,
    0, 0, 0⟩) ∧
    decodeTableWord 64 0x0020000212102A00 = some (.ineg ⟨0, false, 0, .i32⟩ ⟨⟨false, 0, false, false, 0⟩, 0x10, 2, 0x21,
    0, 0, 0⟩) ∧
    decodeTableWord 64 0x20600C2210032B00 = some (.icmp ⟨2, false, 0, .n32⟩ ⟨⟨false, 0, false, false, 0⟩, 3, 0, 0x21,
    0xC2, 0, 0⟩) ∧
    decodeTableWord 64 0x006C4C2212102C00 = some (.iaddc ⟨0, false, 0, .n32⟩ ⟨⟨false, 0, false, false, 0⟩, 0x10, 2, 0x21,
    0xC2, 0xC4, 0⟩) ∧
    decodeTableWord 64 0x007C70DC62102D00 = some (.lea ⟨0, false, 0, .n64⟩ ⟨⟨false, 0, false, false, 0⟩, 0x10, 2, 0xC6,
    0x0D, 0xC7, 0⟩) := by
  decide +kernel

/-- The logic instructions. -/
theorem test_words_logic :
    decodeTableWord 64 0x00600C2212103000 = some (.andB ⟨0, false, 0, .n32⟩ ⟨⟨false, 0, false, false, 0⟩, 0x10, 2, 0x21,
    0xC2, 0, 0⟩) ∧
    decodeTableWord 64 0x00600C2212103100 = some (.orB ⟨0, false, 0, .n32⟩ ⟨⟨false, 0, false, false, 0⟩, 0x10, 2, 0x21,
    0xC2, 0, 0⟩) ∧
    decodeTableWord 64 0x00600C2212103200 = some (.xorB ⟨0, false, 0, .n32⟩ ⟨⟨false, 0, false, false, 0⟩, 0x10, 2, 0x21,
    0xC2, 0, 0⟩) ∧
    decodeTableWord 64 0x00600C2212103300 = some (.andnB ⟨0, false, 0, .n32⟩ ⟨⟨false, 0, false, false, 0⟩, 0x10, 2, 0x21,
    0xC2, 0, 0⟩) ∧
    decodeTableWord 64 0x0060000212103400 = some (.notB ⟨0, false, 0, .n32⟩ ⟨⟨false, 0, false, false, 0⟩, 0x10, 2, 0x21,
    0, 0, 0⟩) ∧
    decodeTableWord 64 0x00600C2212103500 = some (.shl ⟨0, false, 0, .n32⟩ ⟨⟨false, 0, false, false, 0⟩, 0x10, 2, 0x21,
    0xC2, 0, 0⟩) ∧
    decodeTableWord 64 0x00600C2212103600 = some (.shr ⟨0, false, 0, .n32⟩ ⟨⟨false, 0, false, false, 0⟩, 0x10, 2, 0x21,
    0xC2, 0, 0⟩) ∧
    decodeTableWord 64 0x00600C2212103700 = some (.sar ⟨0, false, 0, .n32⟩ ⟨⟨false, 0, false, false, 0⟩, 0x10, 2, 0x21,
    0xC2, 0, 0⟩) ∧
    decodeTableWord 64 0x00600C2212103800 = some (.rot ⟨0, false, 0, .n32⟩ ⟨⟨false, 0, false, false, 0⟩, 0x10, 2, 0x21,
    0xC2, 0, 0⟩) ∧
    decodeTableWord 64 0x0060000212103900 = some (.popc ⟨0, false, 0, .n32⟩ ⟨⟨false, 0, false, false, 0⟩, 0x10, 2, 0x21,
    0, 0, 0⟩) ∧
    decodeTableWord 64 0x0060000212103A00 = some (.clz ⟨0, false, 0, .n32⟩ ⟨⟨false, 0, false, false, 0⟩, 0x10, 2, 0x21,
    0, 0, 0⟩) ∧
    decodeTableWord 64 0x0060000212103B00 = some (.brev ⟨0, false, 0, .n32⟩ ⟨⟨false, 0, false, false, 0⟩, 0x10, 2, 0x21,
    0, 0, 0⟩) ∧
    decodeTableWord 64 0x00600C2212103C00 = some (.bfx ⟨0, false, 0, .n32⟩ ⟨⟨false, 0, false, false, 0⟩, 0x10, 2, 0x21,
    0xC2, 0, 0⟩) ∧
    decodeTableWord 64 0x00623C2212103D00 = some (.bfi ⟨0, false, 0, .n32⟩ ⟨⟨false, 0, false, false, 0⟩, 0x10, 2, 0x21,
    0xC2, 0x23, 0⟩) := by
  decide +kernel

/-- The float instructions. -/
theorem test_words_float :
    decodeTableWord 64 0x02800C2212104000 = some (.fadd ⟨0, false, 2, .f32⟩ ⟨⟨false, 0, false, false, 0⟩, 0x10, 2, 0x21,
    0xC2, 0, 0⟩) ∧
    decodeTableWord 64 0x02800C2212104100 = some (.fsub ⟨0, false, 2, .f32⟩ ⟨⟨false, 0, false, false, 0⟩, 0x10, 2, 0x21,
    0xC2, 0, 0⟩) ∧
    decodeTableWord 64 0x02800C2212104200 = some (.fmul ⟨0, false, 2, .f32⟩ ⟨⟨false, 0, false, false, 0⟩, 0x10, 2, 0x21,
    0xC2, 0, 0⟩) ∧
    decodeTableWord 64 0x02823C2212104300 = some (.ffma ⟨0, false, 2, .f32⟩ ⟨⟨false, 0, false, false, 0⟩, 0x10, 2, 0x21,
    0xC2, 0x23, 0⟩) ∧
    decodeTableWord 64 0x00800C2212104400 = some (.fmin ⟨0, false, 0, .f32⟩ ⟨⟨false, 0, false, false, 0⟩, 0x10, 2, 0x21,
    0xC2, 0, 0⟩) ∧
    decodeTableWord 64 0x00800C2212104500 = some (.fmax ⟨0, false, 0, .f32⟩ ⟨⟨false, 0, false, false, 0⟩, 0x10, 2, 0x21,
    0xC2, 0, 0⟩) ∧
    decodeTableWord 64 0x70800C2210044600 = some (.fcmp ⟨7, false, 0, .f32⟩ ⟨⟨false, 0, false, false, 0⟩, 4, 0, 0x21,
    0xC2, 0, 0⟩) ∧
    decodeTableWord 64 0x0080000212104700 = some (.frcp ⟨0, false, 0, .f32⟩ ⟨⟨false, 0, false, false, 0⟩, 0x10, 2, 0x21,
    0, 0, 0⟩) ∧
    decodeTableWord 64 0x0080000212104800 = some (.frsq ⟨0, false, 0, .f32⟩ ⟨⟨false, 0, false, false, 0⟩, 0x10, 2, 0x21,
    0, 0, 0⟩) ∧
    decodeTableWord 64 0x0080000212104900 = some (.fsqrt ⟨0, false, 0, .f32⟩ ⟨⟨false, 0, false, false, 0⟩, 0x10, 2, 0x21,
    0, 0, 0⟩) ∧
    decodeTableWord 64 0x0080000212104A00 = some (.fexp2 ⟨0, false, 0, .f32⟩ ⟨⟨false, 0, false, false, 0⟩, 0x10, 2, 0x21,
    0, 0, 0⟩) ∧
    decodeTableWord 64 0x0080000212104B00 = some (.flog2 ⟨0, false, 0, .f32⟩ ⟨⟨false, 0, false, false, 0⟩, 0x10, 2, 0x21,
    0, 0, 0⟩) ∧
    decodeTableWord 64 0x0080000212104C00 = some (.ftanh ⟨0, false, 0, .f32⟩ ⟨⟨false, 0, false, false, 0⟩, 0x10, 2, 0x21,
    0, 0, 0⟩) ∧
    decodeTableWord 64 0x0080000212104D00 = some (.fclass ⟨0, false, 0, .f32⟩ ⟨⟨false, 0, false, false, 0⟩, 0x10, 2,
    0x21, 0, 0, 0⟩) ∧
    decodeTableWord 64 0x00E00C2212105000 = some (.hadd ⟨0, false, 0, .bf16x2⟩ ⟨⟨false, 0, false, false, 0⟩, 0x10, 2,
    0x21, 0xC2, 0, 0⟩) ∧
    decodeTableWord 64 0x00E00C2212105100 = some (.hmul ⟨0, false, 0, .bf16x2⟩ ⟨⟨false, 0, false, false, 0⟩, 0x10, 2,
    0x21, 0xC2, 0, 0⟩) ∧
    decodeTableWord 64 0x00E23C2212105200 = some (.hfma ⟨0, false, 0, .bf16x2⟩ ⟨⟨false, 0, false, false, 0⟩, 0x10, 2,
    0x21, 0xC2, 0x23, 0⟩) := by
  decide +kernel

/-- The conversion and lanes instructions. -/
theorem test_words_conversion :
    decodeTableWord 64 0x20800FF212106000 = some (.cvt ⟨2, false, 0, .f32⟩ ⟨⟨false, 0, false, false, 0⟩, 0x10, 2, 0x21,
    0xFF, 0, 0⟩) ∧
    decodeTableWord 64 0x10D00C9212106100 = some (.qnt ⟨1, false, 0, .e2m1⟩ ⟨⟨false, 0, false, false, 0⟩, 0x10, 2, 0x21,
    0xC9, 0, 0⟩) ∧
    decodeTableWord 64 0x20D0000212106200 = some (.dqnt ⟨2, false, 0, .e2m1⟩ ⟨⟨false, 0, false, false, 0⟩, 0x10, 2, 0x21,
    0, 0, 0⟩) ∧
    decodeTableWord 64 0x0050000212106300 = some (.pack ⟨0, false, 0, .n16⟩ ⟨⟨false, 0, false, false, 0⟩, 0x10, 2, 0x21,
    0, 0, 0⟩) ∧
    decodeTableWord 64 0x0050000212106400 = some (.unpk ⟨0, false, 0, .n16⟩ ⟨⟨false, 0, false, false, 0⟩, 0x10, 2, 0x21,
    0, 0, 0⟩) ∧
    decodeTableWord 64 0x30600C2212107000 = some (.shfl ⟨3, false, 0, .n32⟩ ⟨⟨false, 0, false, false, 0⟩, 0x10, 2, 0x21,
    0xC2, 0, 0⟩) ∧
    decodeTableWord 64 0x2060000040C47108 = some (.vote ⟨2, false, 0, .n32⟩ ⟨⟨false, 0, true, false, 0⟩, 0xC4, 0, 4, 0,
    0, 0⟩) ∧
    decodeTableWord 64 0x0060000030C47208 = some (.lred ⟨0, false, 0, .n32⟩ ⟨⟨false, 0, true, false, 0⟩, 0xC4, 0, 3, 0,
    0, 0⟩) ∧
    decodeTableWord 64 0x8060000212107300 = some (.lscan ⟨8, false, 0, .n32⟩ ⟨⟨false, 0, false, false, 0⟩, 0x10, 2, 0x21,
    0, 0, 0⟩) ∧
    decodeTableWord 64 0x0060000212107400 = some (.matchLanes ⟨0, false, 0, .n32⟩ ⟨⟨false, 0, false, false, 0⟩, 0x10, 2,
    0x21, 0, 0, 0⟩) ∧
    decodeTableWord 64 0x00600C2210C47508 = some (.lane ⟨0, false, 0, .n32⟩ ⟨⟨false, 0, true, false, 0⟩, 0xC4, 0, 0x21,
    0xC2, 0, 0⟩) := by
  decide +kernel

/-- The matrix instructions. -/
theorem test_words_matrix :
    decodeTableWord 64 0x0000000000038000 = some (.aclaim ⟨⟨false, 0, false, false, 0⟩, 3, 0, 0, 0, 0, 0⟩) ∧
    decodeTableWord 64 0x0000000000038100 = some (.afree ⟨⟨false, 0, false, false, 0⟩, 3, 0, 0, 0, 0, 0⟩) ∧
    decodeTableWord 64 0x0000000000038210 = some (.azero ⟨⟨false, 1, false, false, 0⟩, 3, 0, 0, 0, 0, 0⟩) ∧
    decodeTableWord 128 0x30001C00A00401000000C5C40008302 = some (.mma ⟨⟨false, 0, false, false, 2⟩, 0, 0, 0xC4, 0xC5, 0,
    0x30001c00a004010⟩) ∧
    decodeTableWord 64 0x0000000C40038400 = some (.ald ⟨⟨false, 0, false, false, 0⟩, 3, 0, 0xC4, 0, 0, 0⟩) ∧
    decodeTableWord 64 0x00000C4030008500 = some (.ast ⟨⟨false, 0, false, false, 0⟩, 0, 0, 3, 0xC4, 0, 0⟩) ∧
    decodeTableWord 64 0x00800C4032108600 = some (.ard ⟨0, false, 0, .f32⟩ ⟨⟨false, 0, false, false, 0⟩, 0x10, 2, 3,
    0xC4, 0, 0⟩) ∧
    decodeTableWord 64 0x00800C4210038700 = some (.awr ⟨0, false, 0, .f32⟩ ⟨⟨false, 0, false, false, 0⟩, 3, 0, 0x21,
    0xC4, 0, 0⟩) ∧
    decodeTableWord 64 0x00000C2210038800 = some (.ascl ⟨⟨false, 0, false, false, 0⟩, 3, 0, 0x21, 0xC2, 0, 0⟩) ∧
    decodeTableWord 64 0x1050000000C48908 = some (.astat 0x105 ⟨⟨false, 0, true, false, 0⟩, 0xC4, 0, 0, 0, 0, 0⟩) ∧
    decodeTableWord 64 0x00800C6020009000 = some (.selk 8 ⟨⟨false, 0, false, false, 0⟩, 0, 0, 2, 0xC6, 0, 0⟩) := by
  decide +kernel

/-- The memory instructions. -/
theorem test_words_memory :
    decodeTableWord 96 0x100B60000C4210A001 = some (.ld ⟨0, 1, 3, .n32⟩ ⟨⟨false, 0, false, false, 1⟩, 0x10, 2, 0xC4, 0,
    0, 0x10⟩) ∧
    decodeTableWord 96 0x10136000904000A101 = some (.st ⟨0, 2, 3, .n32⟩ ⟨⟨false, 0, false, false, 1⟩, 0, 0, 4, 9, 0,
    0x10⟩) ∧
    decodeTableWord 64 0x006000020102A200 = some (.lds ⟨0, 0, 0, .n32⟩ ⟨⟨false, 0, false, false, 0⟩, 2, 1, 0x20, 0, 0, 0⟩) ∧
    decodeTableWord 96 0x40006000210000A301 = some (.sts ⟨0, 0, 0, .n32⟩ ⟨⟨false, 0, false, false, 1⟩, 0, 0, 0x10, 2, 0,
    0x40⟩) ∧
    decodeTableWord 64 0x200000020000A400 = some (.pref ⟨1, 0, 0, .i8⟩ ⟨⟨false, 0, false, false, 0⟩, 0, 0, 0x20, 0, 0, 0⟩) ∧
    decodeTableWord 64 0x00000C6C50C4A508 = some (.pmap ⟨⟨false, 0, true, false, 0⟩, 0xC4, 0, 0xC5, 0xC6, 0, 0⟩) ∧
    decodeTableWord 64 0x0000000C4000A600 = some (.tlbinv ⟨0, 0, 0, .i8⟩ ⟨⟨false, 0, false, false, 0⟩, 0, 0, 0xC4, 0, 0,
    0⟩) ∧
    decodeTableWord 64 0x2360001C6102B000 = some (.atom ⟨1, 0, 3, .n32⟩ ⟨⟨false, 0, false, false, 0⟩, 2, 1, 0xC6, 1, 0,
    0⟩) ∧
    decodeTableWord 64 0x1C7141210210B100 = some (.cas ⟨0, 3, 4, .n64⟩ ⟨⟨false, 0, false, false, 0⟩, 0x10, 2, 0x10, 0x12,
    0x14, 0⟩) ∧
    decodeTableWord 64 0x636001210000B200 = some (.red ⟨3, 0, 3, .n32⟩ ⟨⟨false, 0, false, false, 0⟩, 0, 0, 0x10, 0x12, 0,
    0⟩) ∧
    decodeTableWord 64 0xC16001210210B300 = some (.atoms ⟨6, 0, 1, .n32⟩ ⟨⟨false, 0, false, false, 0⟩, 0x10, 2, 0x10,
    0x12, 0, 0⟩) ∧
    decodeTableWord 64 0x1B0000000000B400 = some (.fence ⟨0, 3, 3, .i8⟩ ⟨⟨false, 0, false, false, 0⟩, 0, 0, 0, 0, 0, 0⟩) ∧
    decodeTableWord 64 0x0130000000C4B508 = some (.bar ⟨0, 0, 1, .i64⟩ ⟨⟨false, 0, true, false, 0⟩, 0xC4, 0, 0, 0, 0, 0⟩) ∧
    decodeTableWord 64 0x021000000000B600 = some (.bara ⟨0, 0, 2, .i16⟩ ⟨⟨false, 0, false, false, 0⟩, 0, 0, 0, 0, 0, 0⟩) ∧
    decodeTableWord 64 0x0330000000C4B708 = some (.barw ⟨0, 0, 3, .i64⟩ ⟨⟨false, 0, true, false, 0⟩, 0xC4, 0, 0, 0, 0, 0⟩) := by
  decide +kernel

/-- The bins, engines and launches instructions. -/
theorem test_words_engines :
    decodeTableWord 96 0x40000000003000C011 = some (.susp ⟨⟨false, 1, false, false, 1⟩, 0, 0, 3, 0, 0, 0x40⟩) ∧
    decodeTableWord 64 0x00000001F000C100 = some (.wake ⟨⟨false, 0, false, false, 0⟩, 0, 0, 0x1F, 0, 0, 0⟩) ∧
    decodeTableWord 64 0x0000000030C4C208 = some (.resume ⟨⟨false, 0, true, false, 0⟩, 0xC4, 0, 3, 0, 0, 0⟩) ∧
    decodeTableWord 64 0x0050000030C5C308 = some (.binq 5 ⟨⟨false, 0, true, false, 0⟩, 0xC5, 0, 3, 0, 0, 0⟩) ∧
    decodeTableWord 128 0x1000000040000000DFFC9C80D4D00A = some (.ecpy ⟨0, 0, .e2m1⟩ ⟨⟨false, 0, true, false, 2⟩, 0xD4,
    0, 0xC8, 0xC9, 0xFF, 0x10000000400000⟩) ∧
    decodeTableWord 128 0x110000000020000000600C2040D4D10A = some (.egath ⟨0, 0, .n32⟩ ⟨⟨false, 0, true, false, 2⟩, 0xD4,
    0, 4, 0xC2, 0, 0x1100000000200000⟩) ∧
    decodeTableWord 128 0x20000000601C2040D4D20A = some (.escat ⟨0, 0, .n32⟩ ⟨⟨false, 0, true, false, 2⟩, 0xD4, 0, 4,
    0xC2, 1, 0x200000⟩) ∧
    decodeTableWord 128 0x200000218FFC2C10D4D30A = some (.ecoll ⟨2, 1, .f32⟩ ⟨⟨false, 0, true, false, 2⟩, 0xD4, 0, 0xC1,
    0xC2, 0xFF, 0x200000⟩) ∧
    decodeTableWord 64 0x10000C2C10D4D408 = some (.fork ⟨1, 0, .i8⟩ ⟨⟨false, 0, true, false, 0⟩, 0xD4, 0, 0xC1, 0xC2, 0,
    0⟩) ∧
    decodeTableWord 64 0x000C3C2C1000D500 = some (.rdv ⟨0, 0, .i8⟩ ⟨⟨false, 0, false, false, 0⟩, 0, 0, 0xC1, 0xC2, 0xC3,
    0⟩) ∧
    decodeTableWord 64 0x2000000C4000D600 = some (.tlwait ⟨2, 0, .i8⟩ ⟨⟨false, 0, false, false, 0⟩, 0, 0, 0xC4, 0, 0, 0⟩) ∧
    decodeTableWord 64 0x1000000000C5D708 = some (.tlq ⟨1, 0, .i8⟩ ⟨⟨false, 0, true, false, 0⟩, 0xC5, 0, 0, 0, 0, 0⟩) ∧
    decodeTableWord 64 0x0000000C10C4E008 = some (.deq ⟨⟨false, 0, true, false, 0⟩, 0xC4, 0, 0xC1, 0, 0, 0⟩) ∧
    decodeTableWord 64 0x00000C2C10C4E108 = some (.enq ⟨⟨false, 0, true, false, 0⟩, 0xC4, 0, 0xC1, 0xC2, 0, 0⟩) ∧
    decodeTableWord 64 0x0000000C10C4E208 = some (.launch ⟨⟨false, 0, true, false, 0⟩, 0xC4, 0, 0xC1, 0, 0, 0⟩) ∧
    decodeTableWord 64 0x0000000C10C4E308 = some (.ljoin ⟨⟨false, 0, true, false, 0⟩, 0xC4, 0, 0xC1, 0, 0, 0⟩) ∧
    decodeTableWord 64 0x03F0000000C4E408 = some (.evwait 0x3F ⟨⟨false, 0, true, false, 0⟩, 0xC4, 0, 0, 0, 0, 0⟩) := by
  decide +kernel

/-- The traps and steward instructions. -/
theorem test_words_traps :
    decodeTableWord 64 0x07F000000000F010 = some (.trap 0x7F ⟨⟨false, 1, false, false, 0⟩, 0, 0, 0, 0, 0, 0⟩) ∧
    decodeTableWord 64 0x000000000000F100 = some (.eret ⟨⟨false, 0, false, false, 0⟩, 0, 0, 0, 0, 0, 0⟩) ∧
    decodeTableWord 64 0x000000000000F200 = some (.bkpt ⟨⟨false, 0, false, false, 0⟩, 0, 0, 0, 0, 0, 0⟩) ∧
    decodeTableWord 96 0xDEADBEEF000000000000F301 = some (.sigchk ⟨⟨false, 0, false, false, 1⟩, 0, 0, 0, 0, 0,
    0xdeadbeef⟩) ∧
    decodeTableWord 96 0x1000000000000F401 = some (.sigrst ⟨⟨false, 0, false, false, 1⟩, 0, 0, 0, 0, 0, 0x1⟩) ∧
    decodeTableWord 64 0x0000000C5000F500 = some (.kzero ⟨⟨false, 0, false, false, 0⟩, 0, 0, 0xC5, 0, 0, 0⟩) ∧
    decodeTableWord 64 0x00000C6C50C4F608 = some (.scrub ⟨⟨false, 0, true, false, 0⟩, 0xC4, 0, 0xC5, 0xC6, 0, 0⟩) ∧
    decodeTableWord 64 0x0000000C50C4F708 = some (.ctxfree ⟨⟨false, 0, true, false, 0⟩, 0xC4, 0, 0xC5, 0, 0, 0⟩) := by
  decide +kernel

/-! ## One instruction -/

/-- Lane `l` of name `n` after a step. -/
def laneOf (r : Host.Outcome State Fault Refusal) (n l : Nat) : Option Nat :=
  ((nx r).nameAt (me (nx r)) n).map fun p => (p.2.lanes.toList.getD l 0#32).toNat

/-- Scalar `k` after a step. -/
def scalarOf (r : Host.Outcome State Fault Refusal) (k : Nat) : Nat := ((me (nx r)).arch.scal.toList.getD k 0#64).toNat

/-- Destination v16 with count 2 from v1 and v2, which hold 5 and 7. -/
def oo : Ops := { o1 with cnt := 2, sc := 0 }

/-- R115: 5 + 7, and 5 - 7 modulo 2 ^ 32. -/
theorem test_add_sub :
    laneOf (exec (.iadd ⟨0, false, 0, .n32⟩ oo) m1) 16 31 = some 12 ∧
    laneOf (exec (.isub ⟨0, false, 0, .n32⟩ oo) m1) 16 0 = some 0xFFFFFFFE := by decide +kernel

/-- R30: a read lowers the count of a source, and the last one releases it. -/
theorem test_reads_count :
    ((nx (exec (.iadd ⟨0, false, 0, .n32⟩ oo) m1)).nameAt (me (nx (exec (.iadd ⟨0, false, 0, .n32⟩ oo) m1))) 1).map
      (fun p => p.1.count) = some 2 ∧
    (nx (exec (.iadd ⟨0, false, 0, .n32⟩ oo) (named (named m0 1 1 5) 2 1 7))).nameAt
      (me (nx (exec (.iadd ⟨0, false, 0, .n32⟩ oo) (named (named m0 1 1 5) 2 1 7)))) 1 = none := by decide +kernel

/-- R121: 1.5 + 2.25 = 3.75, and a product that rounds to even. -/
theorem test_float :
    laneOf (exec (.fadd ⟨0, false, 0, .f32⟩ oo) (named (named m0 1 3 0x3FC00000) 2 3 0x40100000)) 16 0 = some 0x40700000 ∧
    laneOf (exec (.fmul ⟨0, false, 0, .f32⟩ oo) (named (named m0 1 3 0x3F800001) 2 3 0x3F800001)) 16 0 = some 0x3F800002 := by
  decide +kernel

/-- The block of R70. -/
def blk : Lanes :=
  Vector.ofFn fun i => [0x3F666666#32, 0xC019999A#32, 0#32, 0x40466666#32, 0x3E4CCCCD#32, 0xBE99999A#32, 0x3FD9999A#32,
    0x40A00000#32].getD i.val 0#32

/-- Fragment (5.2) of the spec, before QNT. -/
def m34 : State :=
  scal (withMe ((m0.bindName 2 5 1 .bound).fillName 2 5 blk) fun w => { w with arch := { w.arch with act := 0xFF } }) 9 3

def m35 : State :=
  nx (exec (.qnt ⟨1, false, 0, .e2m1⟩ ⟨⟨false, 0, false, false, 0⟩, 6, 1, 5, 0xC9, 0, 0⟩) m34)

/-- Fragment (5.2): v6 after QNT, and lane 0 of v7 after PACK. -/
theorem test_quantise :
    ((List.range 9).map fun l => (m35.nameAt (me m35) 6).map fun p => (p.2.lanes.toList.getD l 0#32).toNat)
      = [some 0x7602, some 0x760D, some 0x7600, some 0x7606, some 0x7600, some 0x7608, some 0x7604, some 0x7607, some 0] ∧
    laneOf (exec (.pack ⟨0, false, 0, .e2m1⟩ ⟨⟨false, 0, false, false, 0⟩, 7, 1, 6, 0, 0, 0⟩) m35) 7 0 = some 0x748060D2 := by
  decide +kernel

/-- R88: MOVI of 96 bits to a scalar zero-extends IMM32. -/
theorem test_movi :
    scalarOf (exec (.movi ⟨⟨false, 0, true, false, 1⟩, 0xC8, 0, 0, 0, 0, 0x80000000⟩) m0) 8 = 0x80000000 := by
  decide +kernel

/-- A step runs the fixture's NOP: the PC moves on by its 8 bytes, and slot 0 is the last that issued. -/
theorem test_step : (me (nx (step n0))).arch.pc = 0x200008 ∧ ((nx (step n0)).core 0).last = #v[0, 15, 15, 15] := by
  decide +kernel

/-! ## For every statement, a state and operands that meet its hypotheses, clause by clause -/

theorem witness_OneSourceLanes :
    ∃ (i : Instr) (opc : Nat) (f : FnT) (x : Ops) (op : Nat → Nat) (s s0 s1 : State) (c : Nat) (w : Crew), unaryOf i =
    some (opc, f, x, op) ∧ Issues s c w x ∧ s0 = s.opens c w opc x ∧ s0.srcOk c x.sa f.ty.wide = true ∧ s1 = s0.afterSrc
    c x.sa f.ty.wide ∧ s1.outOk c f x f.ty.wide = true :=
  ⟨.popc ⟨0, false, 0, .n32⟩ o1, _, ⟨0, false, 0, .n32⟩, o1, _, m1, _, _, 2, me m1, rfl, issues_of (by decide +kernel),
    rfl, by decide +kernel, rfl, by decide +kernel⟩

theorem witness_TwoSourceLanes :
    ∃ (i : Instr) (opc : Nat) (f : FnT) (x : Ops) (op : Nat → Nat → Nat) (s s0 s1 s2 : State) (c : Nat) (w : Crew),
    binaryOf i = some (opc, f, x, op) ∧ Issues s c w x ∧ s0 = s.opens c w opc x ∧ s0.srcOk c x.sa f.ty.wide = true ∧ s1 =
    s0.afterSrc c x.sa f.ty.wide ∧ s1.bOk c f.ty.wide x = true ∧ s2 = s1.afterB c f.ty.wide x ∧ s2.outOk c f x f.ty.wide
    = true :=
  ⟨.iadd ⟨0, false, 0, .n32⟩ o1, _, ⟨0, false, 0, .n32⟩, o1, _, m1, _, _, _, 2, me m1, rfl, issues_of (by
    decide +kernel), rfl, by decide +kernel, rfl, by decide +kernel, rfl, by decide +kernel⟩

theorem witness_ThreeSourceLanes :
    ∃ (i : Instr) (opc : Nat) (f : FnT) (x : Ops) (op : Nat → Nat → Nat → Nat) (s s0 s1 s2 s3 : State) (c : Nat) (w :
    Crew), ternaryOf i = some (opc, f, x, op) ∧ Issues s c w x ∧ s0 = s.opens c w opc x ∧ s0.srcOk c x.sa f.ty.wide =
    true ∧ s1 = s0.afterSrc c x.sa f.ty.wide ∧ s1.bOk c f.ty.wide x = true ∧ s2 = s1.afterB c f.ty.wide x ∧ s2.srcOk c
    x.sc f.ty.wide = true ∧ s3 = s2.afterSrc c x.sc f.ty.wide ∧ s3.outOk c f x f.ty.wide = true :=
  ⟨.imad ⟨0, false, 0, .n32⟩ o1, _, ⟨0, false, 0, .n32⟩, o1, _, m1, _, _, _, _, 2, me m1, rfl, issues_of (by
    decide +kernel), rfl, by decide +kernel, rfl, by decide +kernel, rfl, by decide +kernel, rfl, by decide +kernel⟩

theorem witness_Compares :
    ∃ (f : FnT) (x : Ops) (s s0 s1 s2 : State) (c : Nat) (w : Crew) (float wide : Bool), wide = (!float && f.ty.wide) ∧
    Issues s c w x ∧ (s0 = s.opens c w (if float then 0x46 else 0x2B) x) ∧ s0.srcOk c x.sa wide = true ∧ s1 = s0.afterSrc
    c x.sa wide ∧ s1.bOk c wide x = true ∧ s2 = s1.afterB c wide x ∧ s2.condOk c f x = true :=
  ⟨⟨0, false, 0, .n32⟩, o1, m1, _, _, _, 2, me m1, true, _, rfl, issues_of (by decide +kernel), rfl, by decide +kernel,
    rfl, by decide +kernel, rfl, by decide +kernel⟩

theorem witness_CarryAddressClass :
    (∃ (x : Ops) (s s0 s1 s2 s3 : State) (c : Nat) (w : Crew) (lea : Bool), Issues s c w x ∧ (s0 = s.opens c w (if lea
    then 0x2D else 0x2C) x) ∧ s0.srcOk c x.sa lea = true ∧ s1 = s0.afterSrc c x.sa lea ∧ s1.bOk c false x = true ∧ s2 =
    s1.afterB c false x ∧ s2.srcOk c x.sc false = true ∧ s3 = s2.afterSrc c x.sc false ∧ s3.plainOk c x true = true) ∧
    (∃ (f : FnT) (x : Ops) (s s0 s1 : State) (c : Nat) (w : Crew), Issues s c w x ∧ s0 = s.opens c w 0x4D x ∧ s0.srcOk c
    x.sa false = true ∧ s1 = s0.afterSrc c x.sa false ∧ s1.outOk c f x false = true) :=
  ⟨⟨o1, m1, _, _, _, _, 2, me m1, false, issues_of (by decide +kernel), rfl, by decide +kernel, rfl, by decide +kernel,
    rfl, by decide +kernel, rfl, by decide +kernel⟩,
   ⟨⟨0, false, 0, .n32⟩, o1, m1, _, _, 2, me m1, issues_of (by decide +kernel), rfl, by decide +kernel, rfl, by
    decide +kernel⟩⟩

theorem witness_Conversions :
    ∃ (f : FnT) (x : Ops) (s s0 s1 : State) (c : Nat) (w : Crew) (qnt wide pair : Bool), wide = (!qnt && (Ty.ofCode
    f.sub).wide) ∧ pair = (!qnt && f.ty.wide) ∧ Issues s c w x ∧ (s0 = s.opens c w (if qnt then 0x61 else 0x60) x) ∧
    s0.srcOk c x.sa wide = true ∧ s1 = s0.afterSrc c x.sa wide ∧ s1.mgOk c f x = true ∧ (s1.afterMg c f x).dstOk c x pair
    = true :=
  ⟨⟨1, false, 0, .e2m1⟩, ⟨⟨false, 0, false, false, 0⟩, 16, 1, 1, 0xFF, 0, 0⟩, m1, _, _, 2, me m1, true, _, _, rfl, rfl,
    issues_of (by decide +kernel), rfl, by decide +kernel, rfl, by decide +kernel⟩

theorem witness_PackedData :
    (∃ (f : FnT) (x : Ops) (s s0 s1 s2 s3 : State) (c : Nat) (w : Crew) (dqnt : Bool) (m dead : Mask) (src : Fin 32 → Fin
    32), (src = (if dqnt then scaleLane f else unpkLane f)) ∧ Issues s c w x ∧ (s0 = s.opens c w (if dqnt then 0x62 else
    0x64) x) ∧ s0.srcOk c x.sa false = true ∧ s1 = s0.afterSrc c x.sa false ∧ (dqnt = true → s1.mgOk c f x = true) ∧ (s2
    = (if dqnt then s1.afterMg c f x else s1)) ∧ m = s2.emaskOf c x.head ∧ dead = s2.deadOf c ∧ s3 = s2.deadRead c (isVec
    x.sa && readsDead dead m src) ∧ s3.dstOk c x false = true) ∧
    (∃ (x : Ops) (s s0 s1 : State) (c : Nat) (w : Crew), Issues s c w x ∧ s0 = s.opens c w 0x63 x ∧ s0.srcOk c x.sa false
    = true ∧ s1 = s0.afterSrc c x.sa false ∧ s1.dstOk c x false = true) :=
  ⟨⟨⟨1, false, 0, .e2m1⟩, o1, m1, _, _, _, _, 2, me m1, true, _, _, _, rfl, issues_of (by decide +kernel), rfl, by
    decide +kernel, rfl, by decide +kernel, rfl, rfl, rfl, rfl, by decide +kernel⟩,
   ⟨o1, m1, _, _, 2, me m1, issues_of (by decide +kernel), rfl, by decide +kernel, rfl, by decide +kernel⟩⟩

theorem witness_LaneMoves :
    (∃ (f : FnT) (x : Ops) (s s0 s1 s2 s3 : State) (c : Nat) (w : Crew) (m dead : Mask) (src : Fin 32 → Fin 32), Issues s
    c w x ∧ s0 = s.opens c w 0x70 x ∧ s0.srcOk c x.sa f.ty.wide = true ∧ (src = fun l => shflLane f.sub.toNat l
    ((s0.selector c x)[l].toNat % 32)) ∧ (isVec x.sb = true → x.head.len = 0 → s0.readable c x.sb.toNat = true) ∧ s1 =
    s0.afterSrc c x.sa f.ty.wide ∧ s1.bOk c false x = true ∧ s2 = s1.afterB c false x ∧ m = s2.emaskOf c x.head ∧ dead =
    s2.deadOf c ∧ s3 = s2.deadRead c (isVec x.sa && readsDead dead m src) ∧ s3.dstOk c x f.ty.wide = true) ∧
    (∃ (f : FnT) (x : Ops) (s s0 s1 s2 : State) (c : Nat) (w : Crew) (m dead : Mask) (t : Fin 32), Issues s c w x ∧ s0 =
    s.opens c w 0x75 x ∧ t = s0.laneOf c x ∧ f.sub = 0 ∧ s0.srcOk c x.sa f.ty.wide = true ∧ s1 = s0.afterSrc c x.sa
    f.ty.wide ∧ m = s1.emaskOf c x.head ∧ dead = s1.deadOf c ∧ s2 = s1.deadRead c (isVec x.sa && dead[t] && (x.head.uni
    || m != 0)) ∧ s2.plainOk c x f.ty.wide = true) ∧
    (∃ (f : FnT) (x : Ops) (s s0 s1 : State) (c : Nat) (w : Crew), Issues s c w x ∧ s0 = s.opens c w 0x75 x ∧ f.sub ≠ 0 ∧
    s0.srcOk c x.sc f.ty.wide = true ∧ s1 = s0.afterSrc c x.sc f.ty.wide ∧ s1.dstOk c x f.ty.wide = true) :=
  ⟨⟨⟨0, false, 0, .n32⟩, o1, m1, _, _, _, _, 2, me m1, _, _, _, issues_of (by decide +kernel), rfl, by decide +kernel,
    rfl, by decide +kernel, rfl, by decide +kernel, rfl, rfl, rfl, rfl, by decide +kernel⟩,
   ⟨⟨0, false, 0, .n32⟩, o1, m1, _, _, _, 2, me m1, _, _, _, issues_of (by decide +kernel), rfl, rfl, by decide +kernel,
    by decide +kernel, rfl, rfl, rfl, rfl, by decide +kernel⟩,
   ⟨⟨1, false, 0, .n32⟩, o1, m1, _, _, 2, me m1, issues_of (by decide +kernel), rfl, by decide +kernel, by decide +kernel,
    rfl, by decide +kernel⟩⟩

theorem witness_AcrossLanes :
    (∃ (f : FnT) (x : Ops) (s s0 s1 : State) (c : Nat) (w : Crew) (opc : Nat), Issues s c w x ∧ s0 = s.opens c w opc x ∧
    s0.srcOk c x.sa f.ty.wide = true ∧ s1 = s0.afterSrc c x.sa f.ty.wide ∧ opc = 0x71 ∧ s1.oneOk c x = true) ∧
    (∃ (f : FnT) (x : Ops) (s s0 s1 : State) (c : Nat) (w : Crew) (opc : Nat), Issues s c w x ∧ s0 = s.opens c w opc x ∧
    s0.srcOk c x.sa f.ty.wide = true ∧ s1 = s0.afterSrc c x.sa f.ty.wide ∧ opc = 0x72 ∧ s1.plainOk c x f.ty.wide = true) ∧
    (∃ (f : FnT) (x : Ops) (s s0 s1 : State) (c : Nat) (w : Crew) (opc : Nat), Issues s c w x ∧ s0 = s.opens c w opc x ∧
    s0.srcOk c x.sa f.ty.wide = true ∧ s1 = s0.afterSrc c x.sa f.ty.wide ∧ opc = 0x73 ∧ s1.dstOk c x f.ty.wide = true) ∧
    (∃ (f : FnT) (x : Ops) (s s0 s1 : State) (c : Nat) (w : Crew) (opc : Nat), Issues s c w x ∧ s0 = s.opens c w opc x ∧
    s0.srcOk c x.sa f.ty.wide = true ∧ s1 = s0.afterSrc c x.sa f.ty.wide ∧ opc = 0x74 ∧ s1.dstOk c x false = true) :=
  ⟨⟨⟨0, false, 0, .n32⟩, o1, m1, _, _, 2, me m1, _, issues_of (by decide +kernel), rfl, by decide +kernel, rfl, rfl, by
    decide +kernel⟩,
   ⟨⟨0, false, 0, .n32⟩, o1, m1, _, _, 2, me m1, _, issues_of (by decide +kernel), rfl, by decide +kernel, rfl, rfl, by
    decide +kernel⟩,
   ⟨⟨0, false, 0, .n32⟩, o1, m1, _, _, 2, me m1, _, issues_of (by decide +kernel), rfl, by decide +kernel, rfl, rfl, by
    decide +kernel⟩,
   ⟨⟨0, false, 0, .n32⟩, o1, m1, _, _, 2, me m1, _, issues_of (by decide +kernel), rfl, by decide +kernel, rfl, rfl, by
    decide +kernel⟩⟩

theorem witness_Moves :
    (∃ (x : Ops) (s s0 s1 : State) (c : Nat) (w : Crew), Issues s c w x ∧ s0 = s.opens c w 0x10 x ∧ s0.srcOk c x.sa false
    = true ∧ s1 = s0.afterSrc c x.sa false ∧ s1.plainOk c x false = true) ∧
    (∃ (x : Ops) (s s0 : State) (c : Nat) (w : Crew), Issues s c w x ∧ s0 = s.opens c w 0x11 x ∧ s0.plainOk c x false =
    true) ∧
    (∃ (x : Ops) (s s0 s1 s2 s3 : State) (c : Nat) (w : Crew), Issues s c w x ∧ s0 = s.opens c w 0x12 x ∧ s0.srcOk c x.sa
    false = true ∧ s1 = s0.afterSrc c x.sa false ∧ s1.srcOk c x.sb false = true ∧ s2 = s1.afterSrc c x.sb false ∧
    s2.srcOk c x.sc false = true ∧ s3 = s2.afterSrc c x.sc false ∧ s3.plainOk c x false = true) :=
  ⟨⟨o1, m1, _, _, 2, me m1, issues_of (by decide +kernel), rfl, by decide +kernel, rfl, by decide +kernel⟩,
   ⟨o1, m1, _, 2, me m1, issues_of (by decide +kernel), rfl, by decide +kernel⟩,
   ⟨o1, m1, _, _, _, _, 2, me m1, issues_of (by decide +kernel), rfl, by decide +kernel, rfl, by decide +kernel, rfl, by
    decide +kernel, rfl, by decide +kernel⟩⟩

theorem witness_Branches :
    (∃ (x : Ops) (s s1 : State) (c : Nat) (w y : Crew) (t : Mask) (p : Addr), Issues s c w x ∧ t = y.arch.emask x.head ∧
    y.canBranch t p = true ∧ (s.setCrew c y).branchRoom y t = .ok s1 ∧ y = w.begun 0x01 x ∧ p = relTarget w.arch.pc x) ∧
    (∃ (x : Ops) (s s1 : State) (c : Nat) (w y : Crew) (t : Mask) (p : Addr), Issues s c w x ∧ t = y.arch.emask x.head ∧
    y.canBranch t p = true ∧ (s.setCrew c y).branchRoom y t = .ok s1 ∧ t ≠ 0 ∧ t ≠ y.arch.act ∧ y.arch.stack.length = 32 ∧
    y = w.begun 0x01 x ∧ p = relTarget w.arch.pc x) ∧
    (∃ (x : Ops) (s s1 : State) (c : Nat) (w y : Crew) (t : Mask) (p : Addr), Issues s c w x ∧ t = y.arch.emask x.head ∧
    y.canBranch t p = true ∧ (s.setCrew c y).branchRoom y t = .ok s1 ∧ y = w.begun 0x02 x ∧
    p = targetOf (y.arch.scalar (scalarNo x.sa))) :=
  ⟨⟨o1, m1, _, 2, me m1, _, _, _, issues_of (by decide +kernel), rfl, by decide +kernel, rfl, rfl, rfl⟩,
   ⟨o7, half, okS ((half.setCrew 2 ((me half).begun 0x01 o7)).branchRoom ((me half).begun 0x01 o7) 1), 2, me half,
    (me half).begun 0x01 o7, 1, relTarget 0x200000 o7, issues_of (by decide +kernel), by decide +kernel, by decide +kernel,
    ok_is (by decide +kernel), by decide +kernel⟩,
   ⟨o1, m1, _, 2, me m1, _, _, _, issues_of (by decide +kernel), rfl, by decide +kernel, rfl, rfl, rfl⟩⟩

theorem witness_CallsAndLoops :
    (∃ (x : Ops) (s : State) (c : Nat) (w : Crew) (p : Addr), Issues s c w x ∧ p = relTarget w.arch.pc x ∧ p.toNat % 4 = 0) ∧
    (∃ (x : Ops) (s : State) (c : Nat) (w y : Crew) (p : Addr), Issues s c w x ∧ y = w.begun 0x06 x ∧ p = targetOf
    (y.arch.scalar (scalarNo x.sa)) ∧ p.toNat % 4 = 0) ∧
    (∃ (x : Ops) (s : State) (c : Nat) (w y : Crew) (v : DWord) (p : Addr), Issues s c w x ∧ y = w.begun 0x08 x ∧ v =
    y.arch.scalar (scalarNo x.dst) - 1 ∧ p = relTarget w.arch.pc x ∧ (v ≠ 0 → p.toNat % 4 = 0)) :=
  ⟨⟨o1, m1, 2, me m1, _, issues_of (by decide +kernel), rfl, by decide +kernel⟩,
   ⟨o1, m1, 2, me m1, _, _, issues_of (by decide +kernel), rfl, rfl, by decide +kernel⟩,
   ⟨o1, m1, 2, me m1, _, _, _, issues_of (by decide +kernel), rfl, rfl, rfl, by decide +kernel⟩⟩

theorem witness_Reconvergence :
    (∃ (x : Ops) (s s1 : State) (c : Nat) (w y : Crew), Issues s c w x ∧ y = w.begun 0x03 x ∧ y.arch.stack.length < 1024 ∧
    (s.setCrew c y).spillPush y = .error s1) ∧
    (∃ (x : Ops) (s s1 : State) (c : Nat) (w y : Crew), Issues s c w x ∧ y = w.begun 0x03 x ∧ y.arch.stack.length < 1024 ∧
    (s.setCrew c y).spillPush y = .ok s1) ∧
    (∃ (x : Ops) (s : State) (c : Nat) (w : Crew), Issues s c w x) :=
  ⟨⟨o1, m40 [], errS (((m40 []).setCrew 2 ((me (m40 [])).begun 0x03 o1)).spillPush ((me (m40 [])).begun 0x03 o1)), 2,
    me (m40 []), _, issues_of (by decide +kernel), rfl, by decide +kernel, err_is (by decide +kernel)⟩,
   ⟨o1, half, okS ((half.setCrew 2 ((me half).begun 0x03 o1)).spillPush ((me half).begun 0x03 o1)), 2, me half, _,
    issues_of (by decide +kernel), rfl, by decide +kernel, ok_is (by decide +kernel)⟩,
   ⟨o1, m1, 2, me m1, issues_of (by decide +kernel)⟩⟩

theorem witness_SignatureChecks :
    (∃ (x : Ops) (s : State) (c : Nat) (w y : Crew), Issues s c w x ∧ y = w.passed x ∧ y.anyAct = false ∧ y.arch.sig ≠
    x.ext.extractLsb' 0 32) ∧
    (∃ (x : Ops) (s : State) (c : Nat) (w y : Crew), Issues s c w x ∧ y = w.passed x ∧ y.anyAct = false ∧ y.arch.sig =
    x.ext.extractLsb' 0 32) ∧
    (∃ (x : Ops) (s : State) (c : Nat) (w y : Crew), Issues s c w x ∧ y = w.passed x ∧ y.anyAct = true) ∧
    (∃ (x : Ops) (s : State) (c : Nat) (w : Crew), Issues s c w x) :=
  ⟨⟨o3 0, m0, 2, me m0, _, issues_of (by decide +kernel), rfl, by decide +kernel⟩,
   ⟨o3 ((me m0).arch.sig.setWidth 64), m0, 2, me m0, _, issues_of (by decide +kernel), rfl, by decide +kernel⟩,
   ⟨o3 0, withMe m0 fun w => { w with setU := { w.setU with act := true } }, 2, me (withMe m0 fun w => { w with setU :=
    { w.setU with act := true } }), _, issues_of (by decide +kernel), rfl, by decide +kernel⟩,
   ⟨o3 0, m0, 2, me m0, issues_of (by decide +kernel)⟩⟩

theorem witness_TrapReturn :
    ∃ (x : Ops) (s : State) (c : Nat) (w y : Crew), Issues s c w x ∧ w.acc = [] ∧ y = w.begun 0xF1 x ∧ (y.trapSet
    y.priv.toNat).act = true ∧ (y.trapSet y.priv.toNat).epc.toNat % 4 = 0 :=
  ⟨o1, withMe m0 fun w => { w with setW := { w.setW with act := true } }, 2, me (withMe m0 fun w => { w with setW :=
    { w.setW with act := true } }), _, issues_of (by decide +kernel), by decide +kernel, rfl, by decide +kernel⟩

theorem witness_CountsAndOpen :
    (∃ (x : Ops) (s s0 : State) (c n : Nat) (w : Crew) (b : Binding) (e : Entry), Issues s c w x ∧ n = x.sa.toNat ∧
    s0.named c n = some (b, e) ∧ e.st ≠ .leased ∧ s0 = s.opens c w 0x13 x) ∧
    (∃ (k : BitVec 12) (x : Ops) (s s0 : State) (c n : Nat) (w : Crew) (b : Binding) (e : Entry), Issues s c w x ∧ n =
    x.sa.toNat ∧ s0.named c n = some (b, e) ∧ e.st ≠ .leased ∧ s0 = s.opens c w 0x14 x ∧ b.count ≠ 15 ∧ k.toNat ≤ b.count) ∧
    (∃ (k : BitVec 12) (x : Ops) (s s0 : State) (c n : Nat) (w : Crew) (b : Binding) (e : Entry), Issues s c w x ∧ n =
    x.sa.toNat ∧ s0.named c n = some (b, e) ∧ e.st ≠ .leased ∧ s0 = s.opens c w 0x15 x ∧ (b.count ≠ 15 → b.count +
    k.toNat ≤ 14)) ∧
    (∃ (x : Ops) (s s0 : State) (c : Nat) (w : Crew), Issues s c w x ∧ s0 = s.opens c w 0x16 x ∧ s0.needOk c 1 = true ∧
    s0.canBind c x.dst.toNat = true) :=
  ⟨⟨o1, m1, _, 2, _, me m1, _, _, issues_of (by decide +kernel), rfl, rfl, by decide +kernel, rfl⟩,
   ⟨3, o1, m1, _, 2, _, me m1, _, _, issues_of (by decide +kernel), rfl, rfl, by decide +kernel, rfl, by decide +kernel⟩,
   ⟨11, o1, m1, _, 2, _, me m1, _, _, issues_of (by decide +kernel), rfl, rfl, by decide +kernel, rfl, by decide +kernel⟩,
   ⟨o1, m1, _, 2, me m1, issues_of (by decide +kernel), rfl, by decide +kernel⟩⟩

/-- The clauses of CountsAndOpen about the name faults. -/
theorem witness_NameFaults :
    (∃ (i : Instr) (opc n : Nat) (f : FnT) (x : Ops) (s s0 : State) (c : Nat) (w : Crew), laneForm i = some (opc, f, x, n) ∧
    Issues s c w x ∧ s0 = s.opens c w opc x ∧ isVec x.sa = true ∧ s0.named c x.sa.toNat = none) ∧
    (∃ (i : Instr) (opc n : Nat) (f : FnT) (x : Ops) (s s0 : State) (c : Nat) (w : Crew) (b : Binding) (e : Entry),
    laneForm i = some (opc, f, x, n) ∧ Issues s c w x ∧ s0 = s.opens c w opc x ∧ isVec x.sa = true ∧
    s0.named c x.sa.toNat = some (b, e) ∧ e.st = .leased) ∧
    (∃ (i : Instr) (opc n : Nat) (f : FnT) (x : Ops) (s s0 : State) (c : Nat) (w : Crew) (b : Binding) (e : Entry),
    laneForm i = some (opc, f, x, n) ∧ Issues s c w x ∧ s0 = s.opens c w opc x ∧ isVec x.sa = true ∧
    s0.named c x.sa.toNat = some (b, e) ∧ (e.st = .pending ∨ e.st = .opened)) ∧
    (∃ (i : Instr) (opc n : Nat) (f : FnT) (x : Ops) (s s0 s1 : State) (c : Nat) (w : Crew), laneForm i = some (opc, f, x, n) ∧
    Issues s c w x ∧ s0 = s.opens c w opc x ∧ (s.gang? w.gang).isSome = true ∧ x.head.uni = false ∧
    s0.sourcesOk c f x n = true ∧ (s0.afterSources c f x n).mgOk c f x = true ∧ s1 = (s0.afterSources c f x n).afterMg c f x ∧
    s1.unbound c (dstNames x f.ty.wide) = false) ∧
    (∃ (i : Instr) (opc n : Nat) (f : FnT) (x : Ops) (s s0 s1 : State) (c : Nat) (w : Crew), laneForm i = some (opc, f, x, n) ∧
    Issues s c w x ∧ s0 = s.opens c w opc x ∧ (s.gang? w.gang).isSome = true ∧ x.head.uni = false ∧
    s0.sourcesOk c f x n = true ∧ (s0.afterSources c f x n).mgOk c f x = true ∧ s1 = (s0.afterSources c f x n).afterMg c f x ∧
    s1.unbound c (dstNames x f.ty.wide) = true ∧ x.cnt ≠ 0 ∧ s1.needOk c (if f.ty.wide then 2 else 1) = false) ∧
    (∃ (x : Ops) (s s0 : State) (c : Nat) (w : Crew), Issues s c w x ∧ s0 = s.opens c w 0x13 x ∧
    s0.named c x.sa.toNat = none) ∧
    (∃ (x : Ops) (s s0 : State) (c : Nat) (w : Crew) (b : Binding) (e : Entry), Issues s c w x ∧ s0 = s.opens c w 0x13 x ∧
    s0.named c x.sa.toNat = some (b, e) ∧ e.st = .leased) :=
  ⟨⟨add0, _, _, _, _, m0, _, 2, me m0, rfl, issues_of (by decide +kernel), rfl, by decide +kernel⟩,
   ⟨add0, _, _, _, _, inState m1 .leased, _, 2, me (inState m1 .leased), _, _, rfl, issues_of (by decide +kernel), rfl,
    by decide +kernel, rfl, rfl⟩,
   ⟨add0, _, _, _, _, inState m1 .pending, _, 2, me (inState m1 .pending), _, _, rfl, issues_of (by decide +kernel), rfl,
    by decide +kernel, rfl, .inl rfl⟩,
   ⟨add0, _, _, _, _, named m1 16 1 0, _, _, 2, me (named m1 16 1 0), rfl, issues_of (by decide +kernel), rfl,
    by decide +kernel, by decide +kernel, by decide +kernel, by decide +kernel, rfl, by decide +kernel⟩,
   ⟨add0, _, _, _, _, lim m1 2, _, _, 2, me (lim m1 2), rfl, issues_of (by decide +kernel), rfl,
    by decide +kernel, by decide +kernel, by decide +kernel, by decide +kernel, rfl, by decide +kernel⟩,
   ⟨o1, m0, _, 2, me m0, issues_of (by decide +kernel), rfl, by decide +kernel⟩,
   ⟨o1, inState m1 .leased, _, 2, me (inState m1 .leased), _, _, issues_of (by decide +kernel), rfl, rfl, rfl⟩⟩

theorem witness_Floors :
    (∃ (x : Ops) (s s0 : State) (c k : Nat) (w y : Crew) (g : Gang) (vs : Tab Entry), Issues s c w x ∧ s.gang? w.gang =
    some g ∧ vs = (s.core (s.coreOf w)).vs ∧ k = s0.countOf c x ∧ s0 = s.opens c w 0x17 x ∧ y = w.begun 0x17 x ∧ w.acc =
    [] ∧ s0.countOk c x = true ∧ (k ≠ 0 → y.arch.floor + k ≤ g.vslim ∧ claimDelta y.arch.floor (heldOf vs c) k - (min k
    g.cede : Nat) ≤ s0.avail y)) ∧
    (∃ (x : Ops) (s s0 : State) (c k : Nat) (w y : Crew) (g : Gang) (vs : Tab Entry), Issues s c w x ∧ s.gang? w.gang =
    some g ∧ vs = (s.core (s.coreOf w)).vs ∧ k = s0.countOf c x ∧ s0 = s.opens c w 0x18 x ∧ y = w.begun 0x18 x ∧ w.acc =
    [] ∧ s0.countOk c x = true ∧ heldOf vs c + k ≤ y.arch.floor) ∧
    (∃ (x : Ops) (s : State) (c : Nat) (w : Crew) (g : Gang), Issues s c w x ∧ s.gang? w.gang = some g) :=
  ⟨⟨o3 5, m1, _, 2, _, me m1, _, gg m1, _, issues_of (by decide +kernel), by decide +kernel, rfl, rfl, rfl, rfl, by decide +kernel⟩,
   ⟨o3 5, withMe m0 fun w => { w with arch := { w.arch with floor := 5 } }, _, 2, _, me (withMe m0 fun w => { w with arch
    := { w.arch with floor := 5 } }), _, gg (withMe m0 fun w => { w with arch := { w.arch with floor := 5 } }), _,
    issues_of (by decide +kernel), by decide +kernel, rfl, rfl, rfl, rfl, by decide +kernel⟩,
   ⟨o1, m1, 2, me m1, gg m1, issues_of (by decide +kernel), by decide +kernel⟩⟩

theorem witness_ReadRegister :
    ∃ (k : BitVec 12) (x : Ops) (s s1 : State) (c : Nat) (w : Crew) (g : Gang), Issues s c w x ∧ csrReadLevel k.toNat ≤
    w.priv.toNat ∧ s.gang? w.gang = some g ∧ s1 = s.setCrew c ((w.passed x).foldInstr 0x1A x.head) ∧ s1.plainOk c x false
    = true :=
  ⟨0x002, o1, m1, _, 2, me m1, gg m1, issues_of (by decide +kernel), by decide +kernel, by decide +kernel, rfl, by
    decide +kernel⟩

theorem witness_WriteRegister :
    ∃ (k : BitVec 12) (x : Ops) (s : State) (c : Nat) (w : Crew) (g : Gang), Issues s c w x ∧ csrWriteLevel k.toNat ≤
    w.priv.toNat ∧ w.acc = [] ∧ s.gang? w.gang = some g :=
  ⟨0x058, o1, m1, 2, me m1, gg m1, issues_of (by decide +kernel), by decide +kernel⟩

theorem witness_EventWait :
    (∃ (k : BitVec 12) (x : Ops) (s : State) (c now : Nat) (w : Crew) (e : EvSnap), Issues s c w x ∧ now = s.eventCount
    (s.ctxOf w) k.toNat ∧ e = evStart w k.toNat now ∧ e.count < now) ∧
    (∃ (k : BitVec 12) (x : Ops) (s : State) (c now : Nat) (w : Crew) (e : EvSnap), Issues s c w x ∧ now = s.eventCount
    (s.ctxOf w) k.toNat ∧ e = evStart w k.toNat now ∧ ¬ e.count < now) :=
  ⟨⟨5, o1, withMe (m0.raise 1 5) fun w => { w with evsnap := some ⟨0x200000, 5, 0⟩ }, 2, _, me (withMe (m0.raise 1 5) fun
    w => { w with evsnap := some ⟨0x200000, 5, 0⟩ }), _, issues_of (by decide +kernel), rfl, rfl, by decide +kernel⟩,
   ⟨5, o1, m0.raise 1 5, 2, _, me (m0.raise 1 5), _, issues_of (by decide +kernel), rfl, rfl, by decide +kernel⟩⟩

theorem witness_SoftwareTraps :
    (∃ (x : Ops) (s s0 : State) (c : Nat) (w : Crew) (m : Mask), Issues s c w x ∧ m = s0.emaskOf c x.head ∧ s0 = s.opens c
    w 0xF0 x ∧ m ≠ 0 ∧ w.acc = []) ∧
    (∃ (x : Ops) (s s0 : State) (c : Nat) (w : Crew) (m : Mask), Issues s c w x ∧ m = s0.emaskOf c x.head ∧ s0 = s.opens c
    w 0xF0 x ∧ m = 0) ∧
    (∃ (x : Ops) (s s0 : State) (c : Nat) (w : Crew) (m : Mask), Issues s c w x ∧ m = s0.emaskOf c x.head ∧ s0 = s.opens c
    w 0xF2 x ∧ m ≠ 0 ∧ w.acc = []) ∧
    (∃ (x : Ops) (s s0 : State) (c : Nat) (w : Crew) (m : Mask), Issues s c w x ∧ m = s0.emaskOf c x.head ∧ s0 = s.opens c
    w 0xF2 x ∧ m = 0) :=
  ⟨⟨o1, m1, _, 2, me m1, _, issues_of (by decide +kernel), rfl, rfl, by decide +kernel⟩,
   ⟨⟨⟨false, 1, false, false, 0⟩, 0, 0, 0, 0, 0, 0⟩, m0, _, 2, me m0, _, issues_of (by decide +kernel), rfl, rfl, by
    decide +kernel⟩,
   ⟨o1, m1, _, 2, me m1, _, issues_of (by decide +kernel), rfl, rfl, by decide +kernel⟩,
   ⟨⟨⟨false, 1, false, false, 0⟩, 0, 0, 0, 0, 0, 0⟩, m0, _, 2, me m0, _, issues_of (by decide +kernel), rfl, rfl, by
    decide +kernel⟩⟩

theorem witness_TrapEntry :
    ∃ (s : State) (c : Nat) (w : Crew) (cause : Cause) (l l0 : Nat) (k : Ctx), s.crew? c = some w ∧ w.acc = [] ∧ k =
    s.ctx (s.ctxOf w) ∧ l0 = max (causeTarget cause) w.priv.toNat ∧ trapLevel w k (3 - l0) l0 = some l :=
  ⟨m0.modCtx 1 fun k => { k with evecW := 0x300000 }, 2, me (m0.modCtx 1 fun k => { k with evecW := 0x300000 }), cBkpt,
    2, _, _, by decide +kernel, by decide +kernel, rfl, rfl, by decide +kernel⟩

theorem witness_TrapLevels :
    (∃ (s : State) (c l l0 : Nat) (w : Crew) (cause : Cause) (k : Ctx), s.crew? c = some w ∧ k = s.ctx (s.ctxOf w) ∧
    l0 = max (causeTarget cause) w.priv.toNat ∧ l0 ≤ l ∧ l ≤ 2 ∧ (w.trapSet l).act = false ∧ vector (k.evec l) ≠ 0#52 ∧
    ∀ j, l0 ≤ j → j < l → (w.trapSet j).act = true ∨ vector (k.evec j) = 0#52) ∧
    (∃ (s : State) (c l0 : Nat) (w z : Crew) (cause : Cause) (now : Snap) (k : Ctx), s.crew? c = some w ∧
    k = s.ctx (s.ctxOf w) ∧ l0 = max (causeTarget cause) w.priv.toNat ∧
    (∀ j, l0 ≤ j → j ≤ 2 → (w.trapSet j).act = true ∨ vector (k.evec j) = 0#52) ∧ (s.rollback c now).crew? c = some z) :=
  ⟨⟨m41 1 0x300000, 2, 2, 1, me (m41 1 0x300000), cMemFault, (m41 1 0x300000).ctx 1, by decide +kernel, by decide +kernel,
    by decide +kernel, by decide, by decide, by decide +kernel, by decide +kernel,
    fun j h1 h2 => .inr (by obtain rfl : j = 1 := by omega
                            decide +kernel)⟩,
   ⟨m41 2 0, 2, 2, me (m41 2 0), me (m41 2 0), cBkpt, ⟨(me (m41 2 0)).arch, (me (m41 2 0)).seq⟩, (m41 2 0).ctx 1,
    by decide +kernel, by decide +kernel, by decide +kernel,
    fun j h1 h2 => .inr (by obtain rfl : j = 2 := by omega
                            decide +kernel), by decide +kernel⟩⟩

theorem witness_Privilege :
    ∃ (i : Instr) (x : Ops) (s t : State) (c level : Nat) (w : Crew), Issues s c w x ∧ w.acc = [] ∧ privForm s c w i =
    some (x, level, t) ∧ w.priv.toNat < level :=
  ⟨.kzero o2, o2, withMe m0 fun w => { w with priv := 1 }, _, 2, _, me (withMe m0 fun w => { w with priv := 1 }),
    issues_of (by decide +kernel), by decide +kernel, rfl, by decide +kernel⟩

theorem witness_Tiles :
    (∃ (x : Ops) (s s0 : State) (c h t : Nat) (w : Crew), Issues s c w x ∧ h = x.dst.toNat % 8 ∧ s0 = s.opens c w 0x80 x ∧
    Tab.at? w.arch.tiles h = none ∧ 0 < s0.tavail (w.begun 0x80 x) ∧ Tab.firstFree (s.core (s.coreOf w)).tiles 8 0 = some
    t) ∧
    (∃ (x : Ops) (s s0 : State) (c h t : Nat) (w : Crew), Issues s c w x ∧ h = x.dst.toNat % 8 ∧ s0 = s.opens c w 0x81 x ∧
    s0.tileOk c h t = true) :=
  ⟨⟨o1, m1, _, 2, _, 0, me m1, issues_of (by decide +kernel), rfl, rfl, by decide +kernel⟩,
   ⟨o5, m2, _, 2, _, 0, me m2, issues_of (by decide +kernel), rfl, rfl, by decide +kernel⟩⟩

theorem witness_MatrixQueue :
    (∃ (x : Ops) (s s0 : State) (c t : Nat) (w : Crew), Issues s c w x ∧ s0.queueFree c = true ∧ s0 = s.opens c w 0x82 x ∧
    s0.tileOk c (x.dst.toNat % 8) t = true) ∧
    (∃ (x : Ops) (s s0 : State) (c t a b : Nat) (w : Crew), Issues s c w x ∧ a = s0.offsetOf c x.sa ∧ b = s0.offsetOf c
    x.sb ∧ s0.queueFree c = true ∧ s0 = s.opens c w 0x83 x ∧ w.acc = [] ∧ s0.tileOk c (x.dst.toNat % 8) t = true ∧
    s0.mmaOk c a b x.ext = true ∧ s0.spadFree c (MatKind.mma a b x.ext).reads false = true) ∧
    (∃ (x : Ops) (s s0 : State) (c t a : Nat) (w : Crew), Issues s c w x ∧ a = s0.offsetOf c x.sa ∧ s0.queueFree c = true
    ∧ s0 = s.opens c w 0x84 x ∧ s0.tileOk c (x.dst.toNat % 8) t = true ∧ s0.regionOk c a 32768 256 = true ∧ s0.spadFree c
    [(a, 32768)] false = true) ∧
    (∃ (x : Ops) (s s0 : State) (c t b : Nat) (w : Crew), Issues s c w x ∧ b = s0.offsetOf c x.sb ∧ s0.queueFree c = true
    ∧ s0 = s.opens c w 0x85 x ∧ s0.tileOk c (x.sa.toNat % 8) t = true ∧ s0.regionOk c b 32768 256 = true ∧ s0.spadFree c
    [(b, 32768)] true = true) ∧
    (∃ (k : BitVec 12) (x : Ops) (s s0 : State) (c t b : Nat) (w : Crew), Issues s c w x ∧ b = s0.offsetOf c x.sb ∧
    s0.queueFree c = true ∧ s0 = s.opens c w 0x90 x ∧ s0.tileOk c (x.sa.toNat % 8) t = true ∧ s0.regionOk c b (768 *
    k.toNat) 64 = true ∧ s0.spadFree c [(b, 768 * k.toNat)] true = true) :=
  ⟨⟨o4 0, m2, _, 2, 0, me m2, issues_of (by decide +kernel), by decide +kernel, rfl, by decide +kernel⟩,
   ⟨o4 0x030001C00A004010, m2, _, 2, 0, _, _, me m2, issues_of (by decide +kernel), rfl, rfl, by decide +kernel, rfl, by decide +kernel⟩,
   ⟨o4 0, m2, _, 2, 0, _, me m2, issues_of (by decide +kernel), rfl, by decide +kernel, rfl, by decide +kernel⟩,
   ⟨o5, m2, _, 2, 0, _, me m2, issues_of (by decide +kernel), rfl, by decide +kernel, rfl, by decide +kernel⟩,
   ⟨8, o5, m2, _, 2, 0, _, me m2, issues_of (by decide +kernel), rfl, by decide +kernel, rfl, by decide +kernel⟩⟩

theorem witness_ScaleTile :
    ∃ (x : Ops) (s s0 s1 s2 : State) (c t : Nat) (w : Crew), Issues s c w x ∧ w.acc = [] ∧ s0 = s.opens c w 0x88 x ∧
    s0.srcOk c x.sa false = true ∧ s1 = s0.afterSrc c x.sa false ∧ s1.srcOk c x.sb false = true ∧ s2 = s1.afterSrc c x.sb
    false ∧ s2.tileOk c (x.dst.toNat % 8) t = true ∧ s2.queueFree c = true :=
  ⟨o1, m2, _, _, _, 2, 0, me m2, issues_of (by decide +kernel), by decide +kernel, rfl, by decide +kernel, rfl, by
    decide +kernel, rfl, by decide +kernel⟩

theorem witness_TileElements :
    (∃ (f : FnT) (x : Ops) (s s0 : State) (c t core : Nat) (w : Crew) (m : Mask) (v : DWord) (pa : Nat → Nat → Nat),
    Issues s c w x ∧ core = s.coreOf w ∧ v = s0.scalarOf c x.sb ∧ s0 = s.opens c w 0x86 x ∧ m = s0.emaskOf c x.head ∧
    s0.tileOk c (x.sa.toNat % 8) t = true ∧ (pa = fun l k => elemPa core t (selRow v l) (selCol f.ty v + k)) ∧
    (s0.unmarked (((lanesOf m).map fun l => if f.ty == .bf16x2 || f.ty == .f16x2 then [pa l.val 0, pa l.val 1] else [pa
    l.val 0]).flatten) = true) ∧ s0.dstOk c x false = true) ∧
    (∃ (x : Ops) (s s0 s1 : State) (c t : Nat) (w : Crew), Issues s c w x ∧ s0 = s.opens c w 0x87 x ∧ s0.srcOk c x.sa
    false = true ∧ s1 = s0.afterSrc c x.sa false ∧ s1.tileOk c (x.dst.toNat % 8) t = true) :=
  ⟨⟨⟨0, false, 0, .f32⟩, o5, m2, _, 2, 0, _, me m2, _, _, _, issues_of (by decide +kernel), rfl, rfl, rfl, rfl, by
    decide +kernel, rfl, by decide +kernel⟩,
   ⟨⟨⟨false, 0, false, false, 0⟩, 0, 0, 1, 0xFF, 0, 0⟩, m2, _, _, 2, 0, me m2, issues_of (by decide +kernel), rfl, by
    decide +kernel, rfl, by decide +kernel⟩⟩

theorem witness_TileCounters :
    ∃ (x : Ops) (s : State) (c : Nat) (w : Crew) (g : Gang), Issues s c w x ∧ s.gang? w.gang = some g ∧ s.hasMatrix
    (s.coreOf w) c = false :=
  ⟨o1, m2, 2, me m2, gg m2, issues_of (by decide +kernel), by decide +kernel⟩

theorem witness_MemoryAccesses :
    ∃ (i : Instr) (q : MemForm) (f : FnM) (x : Ops) (s s0 s1 s2 s3 s4 : State) (c : Nat) (w y : Crew) (g : Gang) (em m :
    Mask) (base vb vc : Vals) (addr : Tab Nat) (ns : List Nat) (a a0 : Access), accessOf i = some (q, f, x) ∧ Issues s c w x ∧
    (accessBound q f = true → w.acc = []) ∧ (f.ord = 2 ∨ f.ord = 3 → s.matrixIdle c = true) ∧ s.gang? w.gang = some g ∧
    (s.core (s.coreOf w)).trc.en = false ∧ s0 = s.opens c w q.opc x ∧ s1 = s0.holding c (s0.emaskOf c x.head != 0) ∧
    s1.srcOk c x.sa q.glob = true ∧ base = s1.srcVals c x.head x.sa q.glob ∧ s2 = s1.afterSrc c x.sa q.glob ∧
    (q.kind ≠ .load → s2.srcOk c x.sb f.ty.wide = true) ∧
    (vb = (if q.kind = .load then noVals else s2.srcVals c x.head x.sb f.ty.wide)) ∧
    (s3 = (if q.kind = .load then s2 else s2.afterSrc c x.sb f.ty.wide)) ∧ (q.kind = .rmw 7 →
    s3.srcOk c x.sc f.ty.wide = true) ∧ (vc = (if q.kind = .rmw 7 then s3.srcVals c x.head x.sc f.ty.wide else noVals)) ∧
    (s4 = (if q.kind = .rmw 7 then s3.afterSrc c x.sc f.ty.wide else s3)) ∧ em =
    s4.emaskOf c x.head ∧ (m = (if x.head.uni then 1#32 else em)) ∧ (addr = perLane m (fun l => memAddr q.glob base[l]
    x)) ∧ (ns = (if q.dst && !x.head.uni then dstNames x f.ty.wide else [])) ∧ s4.accessOk c q f m addr = true ∧
    s4.crew? c = some y ∧ (s4.canBindAll c ns x.cnt.toNat (if m = 0 then .bound else .pending) = true) ∧
    (a0 = { id := s4.nextId, snap := ⟨w.arch, w.seq⟩, pc := w.arch.pc, opc := q.opc, kind := q.kind, ty := f.ty,
            size := Ty.size f.ty, ord := f.ord, scope := f.scope, spad := !q.glob, priv := w.priv, lanes := m, addr := addr,
            datB := perLane m fun l => vb[l].toNat, datC := perLane m fun l => vc[l].toNat,
            place := if q.glob then none
              else some ((lanesOf m).map fun l => (l.val, ⟨spadPa (s.coreOf w) (g.spad + at0 addr l.val), 0⟩)),
            done := 0, value := [], bad := 0, dest := destOf x q.dst f.ty.wide, slots := [], exempt := w.exempt }) ∧
    (a = { a0 with slots := if q.glob then s4.missLines y a0 else [] }) ∧ s4.slotStall (s.coreOf w) a.slots = none :=
  ⟨.ld ⟨0, 0, 0, .n32⟩ o8, _, ⟨0, 0, 0, .n32⟩, o8, m42, _, _, _, _, _, 2, me m42, optD w0 (((m42.opens 2 (me m42) 0xA0
    o8).holding 2 true).crew? 2), gg m42, _, _, _, _, _, _, _, _, _, rfl, issues_of (by decide +kernel), by decide +kernel, by
    decide +kernel, by decide +kernel, by decide +kernel, rfl, rfl, by decide +kernel, rfl, rfl, by decide +kernel, rfl, rfl,
    by decide +kernel, rfl, rfl, rfl, rfl, rfl, rfl, by decide +kernel, by decide +kernel, by decide +kernel, rfl, rfl,
    by decide +kernel⟩

theorem witness_Misaligned :
    ∃ (i : Instr) (q : MemForm) (f : FnM) (x : Ops) (s s0 s1 s2 s3 s4 : State) (c : Nat) (w : Crew) (m bad : Mask) (base
    : Vals) (addr : Tab Nat) (l : Fin 32) (ls : List (Fin 32)), accessOf i = some (q, f, x) ∧ Issues s c w x ∧
    (accessBound q f = true → w.acc = []) ∧ (f.ord = 2 ∨ f.ord = 3 → s.matrixIdle c = true) ∧ (s.gang? w.gang).isSome =
    true ∧ (s.core (s.coreOf w)).trc.en = false ∧ s0 = s.opens c w q.opc x ∧ s1 = s0.holding c (s0.emaskOf c x.head != 0)
    ∧ s1.srcOk c x.sa q.glob = true ∧ base = s1.srcVals c x.head x.sa q.glob ∧ s2 = s1.afterSrc c x.sa q.glob ∧ (q.kind ≠
    .load → s2.srcOk c x.sb f.ty.wide = true) ∧ (s3 = (if q.kind = .load then s2 else s2.afterSrc c x.sb f.ty.wide)) ∧
    (q.kind = .rmw 7 → s3.srcOk c x.sc f.ty.wide = true) ∧ (s4 = (if q.kind = .rmw 7 then s3.afterSrc c x.sc f.ty.wide
    else s3)) ∧ (m = (if x.head.uni then 1#32 else s4.emaskOf c x.head)) ∧ (addr = perLane m (fun j => memAddr q.glob
    base[j] x)) ∧ (s4.unbound c (if q.dst && !x.head.uni then dstNames x f.ty.wide else []) = true) ∧ (bad = lanesWith m
    (fun j => at0 addr j.val % Ty.size f.ty != 0)) ∧ lanesOf bad = l :: ls :=
  ⟨.sts ⟨0, 0, 0, .n32⟩ ⟨⟨false, 0, false, false, 0⟩, 0, 0, 1, 4, 0, 0⟩, _, ⟨0, 0, 0, .n32⟩, ⟨⟨false, 0, false, false,
    0⟩, 0, 0, 1, 4, 0, 0⟩, m2, _, _, _, _, _, 2, me m2, _, _, _, _, 0, (lanesOf 0xFFFFFFFF#32).tail, rfl, issues_of (by
    decide +kernel), by decide +kernel, by decide +kernel, by decide +kernel, by decide +kernel, rfl, rfl, by
    decide +kernel, rfl, rfl, by decide +kernel, rfl, by decide +kernel, rfl, rfl, rfl, by decide +kernel, rfl, by
    decide +kernel⟩

theorem witness_MemoryControl :
    (∃ (x : Ops) (s s0 s1 : State) (c : Nat) (w y : Crew), Issues s c w x ∧ s0 = s.opens c w 0xA4 x ∧ (s.core (s.coreOf
    w)).trc.en = false ∧ s0.canRead (w.begun 0xA4 x) x.sa true = true ∧ s0.srcOk c x.sa true = true ∧
    s1 = s0.afterSrc c x.sa true ∧ s1.crew? c = some y) ∧
    (∃ (x : Ops) (s s0 : State) (c : Nat) (w : Crew), Issues s c w x ∧ s0 = s.opens c w 0xA4 x ∧ (s.core (s.coreOf
    w)).trc.en = false ∧ s0.canRead (w.begun 0xA4 x) x.sa true = false) ∧
    (∃ (x : Ops) (s : State) (c : Nat) (w : Crew), Issues s c w x ∧ 1 ≤ w.priv.toNat ∧ w.waitEvt = none) ∧
    (∃ (x : Ops) (s : State) (c : Nat) (w : Crew) (v : DWord), Issues s c w x ∧ 1 ≤ w.priv.toNat ∧ w.waitEvt = some v) ∧
    (∃ (x : Ops) (s : State) (c : Nat) (w : Crew), Issues s c w x ∧ 1 ≤ w.priv.toNat ∧ w.acc = [] ∧ w.waitEvt = none) ∧
    (∃ (x : Ops) (s : State) (c : Nat) (w : Crew) (v : DWord), Issues s c w x ∧ 1 ≤ w.priv.toNat ∧ w.acc = [] ∧ w.waitEvt
    = some v) ∧
    (∃ (x : Ops) (s : State) (c : Nat) (w : Crew), Issues s c w x ∧ w.acc = [] ∧ s.matrixIdle c = true) :=
  ⟨⟨⟨⟨false, 0, false, false, 0⟩, 0, 0, 3, 0, 0, 0⟩, m1, _, _, 2, me m1, me ((m1.opens 2 (me m1) 0xA4 ⟨⟨false, 0, false,
    false, 0⟩, 0, 0, 3, 0, 0, 0⟩).afterSrc 2 3 true), issues_of (by decide +kernel), rfl, by decide +kernel, by
    decide +kernel, by decide +kernel, rfl, by decide +kernel⟩,
   ⟨o1, m0, _, 2, me m0, issues_of (by decide +kernel), rfl, by decide +kernel⟩,
   ⟨o1, m1, 2, me m1, issues_of (by decide +kernel), by decide +kernel⟩,
   ⟨o1, withMe m0 fun w => { w with waitEvt := some 3 }, 2, me (withMe m0 fun w => { w with waitEvt := some 3 }), 3,
    issues_of (by decide +kernel), by decide +kernel⟩,
   ⟨o1, m1, 2, me m1, issues_of (by decide +kernel), by decide +kernel⟩,
   ⟨o1, withMe m0 fun w => { w with waitEvt := some 3 }, 2, me (withMe m0 fun w => { w with waitEvt := some 3 }), 3,
    issues_of (by decide +kernel), by decide +kernel⟩,
   ⟨o1, m1, 2, me m1, issues_of (by decide +kernel), by decide +kernel⟩⟩

/-- The crew of a machine once it has arrived at barrier 3 of its gang. -/
def arr (s : State) (y : Crew) : Crew := { y with barSeen := Tab.put y.barSeen (barKey 1 3) (s.phase 1 3 1) }

theorem arr_open (t : State) (h : (m1.opens 2 (me m1) 0xB6 o1).arriveAt 2 1 3 = some t) :
    t.crew? 2 = some { (me m1).begun 0xB6 o1 with
      barSeen := Tab.put (me m1).barSeen (barKey 1 3) (m1.phase 1 3 (me m1).gang) } := by
  have h1 : (me m1).barSeen = ((me m1).begun 0xB6 o1).barSeen := by decide +kernel
  have h2 : m1.phase 1 3 (me m1).gang = (m1.opens 2 (me m1) 0xB6 o1).phase 1 3 ((me m1).begun 0xB6 o1).gang := by
    decide +kernel
  rw [h1, h2]
  exact State.arriveAt_crew (State.crew_setCrew _ _ _) h

theorem witness_Barriers :
    (∃ (f : FnM) (x : Ops) (s u : State) (c l n : Nat) (w v : Crew), Issues s c w x ∧ w.acc = [] ∧ l = barLevel f ∧ n = barNo
    f ∧ w.park ≠ some (.barrier l n true) ∧ s.matrixIdle c = true ∧ s.barExists c l = true ∧ s.inPhase c l n = false ∧
    s.arriveAt c l n = some u ∧ v = { w with barSeen := Tab.put w.barSeen (barKey l n) (s.phase l n w.gang) } ∧
    u.crew? c = some v) ∧
    (∃ (f : FnM) (x : Ops) (s : State) (c l n : Nat) (w : Crew), Issues s c w x ∧ w.acc = [] ∧ l = barLevel f ∧ n = barNo
    f ∧ w.park = some (.barrier l n true) ∧ s.inPhase c l n = false) ∧
    (∃ (f : FnM) (x : Ops) (s s0 u : State) (c l n : Nat) (w v : Crew), Issues s c w x ∧ w.acc = [] ∧ l = barLevel f ∧ n =
    barNo f ∧ s0 = s.opens c w 0xB6 x ∧ s.matrixIdle c = true ∧ s.barExists c l = true ∧ s.inPhase c l n = false ∧
    s0.arriveAt c l n = some u ∧
    v = { w.begun 0xB6 x with barSeen := Tab.put w.barSeen (barKey l n) (s.phase l n w.gang) } ∧ u.crew? c = some v) ∧
    (∃ (f : FnM) (x : Ops) (s : State) (c l n : Nat) (w : Crew), Issues s c w x ∧ w.acc = [] ∧ l = barLevel f ∧ n = barNo
    f ∧ s.barExists c l = true ∧ s.inPhase c l n = false) :=
  ⟨⟨⟨0, 0, 1, .i64⟩, o1, m1, optD m0 (m1.arriveAt 2 1 3), 2, 1, 3, me m1, arr m1 (me m1), issues_of (by decide +kernel),
    by decide +kernel, by decide +kernel, by decide +kernel, by decide +kernel, by decide +kernel, by decide +kernel, by
    decide +kernel, opt_is (by decide +kernel), rfl, by decide +kernel⟩,
   ⟨⟨0, 0, 1, .i64⟩, o1, withMe m0 fun w => { w with park := some (.barrier 1 3 true) }, 2, 1, 3, me (withMe m0
    fun w => { w with park := some (.barrier 1 3 true) }), issues_of (by decide +kernel), by decide +kernel⟩,
   ⟨⟨0, 0, 1, .i64⟩, o1, m1, _, optD m0 ((m1.opens 2 (me m1) 0xB6 o1).arriveAt 2 1 3), 2, 1, 3, me m1,
    _, issues_of (by decide +kernel), by decide +kernel, by decide +kernel, by decide +kernel,
    rfl, by decide +kernel, by decide +kernel, by decide +kernel, opt_is (by decide +kernel), rfl,
    arr_open _ (opt_is (by decide +kernel))⟩,
   ⟨⟨0, 0, 1, .i64⟩, o1, m1, 2, 1, 3, me m1, issues_of (by decide +kernel), by decide +kernel⟩⟩

theorem witness_Suspend :
    ∃ (x : Ops) (s s0 s1 : State) (c n : Nat) (w y : Crew) (g : Gang) (b : Bin) (cs : List FrameCol) (m : Mask) (fd :
    Addr), Issues s c w x ∧ w.acc = [] ∧ s.matrixIdle c = true ∧ n = x.sa.toNat % 32 ∧ y = w.begun 0xC0 x ∧ s0 = s.opens
    c w 0xC0 x ∧ s.gang? w.gang = some g ∧ Tab.at? g.bins n = some b ∧ fd = w.arch.pc + BitVec.ofInt 52 (signedOf 32
    x.ext.toNat) ∧ s0.readFrame (s0.crewAgent y w.arch.pc) fd.toNat = .ok s1 (some (b.width, cs)) ∧ s1.crew? c = some y ∧ s1.gang?
    w.gang = some g ∧ s1.coreOf y = s.coreOf w ∧ (b.occ = 0 ∧ b.ovcnt = 0 ∨ b.spc = w.arch.pc + 12) ∧ s1.frameFits c cs =
    true ∧ m = s1.emaskOf c x.head ∧ maskCount b.occ + maskCount m ≤ 32 :=
  ⟨⟨⟨false, 0, false, false, 1⟩, 0, 0, 3, 0, 0, 0x40⟩, m3 0, _, ioS (State.readFrame (State.opens (m3 0) 2 (me (m3 0))
    0xC0 ⟨⟨false, 0, false, false, 1⟩, 0, 0, 3, 0, 0, 0x40⟩) (State.crewAgent (State.opens (m3 0) 2 (me (m3 0)) 0xC0
    ⟨⟨false, 0, false, false, 1⟩, 0, 0, 3, 0, 0, 0x40⟩) (me (State.opens (m3 0) 2 (me (m3 0)) 0xC0 ⟨⟨false, 0, false,
    false, 1⟩, 0, 0, 3, 0, 0, 0x40⟩)) 0x200000) 0x200040), 2, _, me (m3 0), _, gg (m3 0), b0, [], _, _, issues_of (by
    decide +kernel), by decide +kernel, by decide +kernel, rfl, rfl, rfl, by decide +kernel, by decide +kernel, rfl,
    io_is (by decide +kernel), by decide +kernel, by decide +kernel, by decide +kernel, by decide +kernel, by
    decide +kernel, rfl, by decide +kernel⟩

theorem witness_BinOperations :
    (∃ (x : Ops) (s : State) (c n : Nat) (w : Crew) (g : Gang) (b : Bin), Issues s c w x ∧ n = x.sa.toNat % 32 ∧ s.gang?
    w.gang = some g ∧ Tab.at? g.bins n = some b ∧ w.acc = []) ∧
    (∃ (x : Ops) (s : State) (c n : Nat) (w : Crew) (g : Gang) (b : Bin), Issues s c w x ∧ n = x.sa.toNat % 32 ∧ s.gang?
    w.gang = some g ∧ Tab.at? g.bins n = some b) ∧
    (∃ (x : Ops) (s : State) (c n : Nat) (w : Crew) (g : Gang) (b : Bin), Issues s c w x ∧ n = x.sa.toNat % 32 ∧ s.gang?
    w.gang = some g ∧ Tab.at? g.bins n = some b ∧ w.acc = [] ∧ b.occ = 0) ∧
    (∃ (x : Ops) (s s0 t : State) (c n d : Nat) (w z : Crew) (g : Gang) (b : Bin), Issues s c w x ∧ n = x.sa.toNat % 32 ∧
    s.gang? w.gang = some g ∧ Tab.at? g.bins n = some b ∧ s0 = s.opens c w 0xC2 x ∧ w.acc = [] ∧ b.occ ≠ 0 ∧ s0.resumeBin
    w.gang n = .done t d ∧ t.crew? d = some z ∧ t.live c = true) :=
  ⟨⟨o6, m3 0, 2, _, me (m3 0), gg (m3 0), b0, issues_of (by decide +kernel), rfl, by decide +kernel⟩,
   ⟨o6, m3 0, 2, _, me (m3 0), gg (m3 0), b0, issues_of (by decide +kernel), rfl, by decide +kernel⟩,
   ⟨o6, m3 0, 2, _, me (m3 0), gg (m3 0), b0, issues_of (by decide +kernel), rfl, by decide +kernel⟩,
   ⟨o6, m3 1, _, reS ((State.opens (m3 1) 2 (me (m3 1)) 0xC2 o6).resumeBin 1 3), 2, _, 3, me (m3 1), optD w0 ((reS
    ((State.opens (m3 1) 2 (me (m3 1)) 0xC2 o6).resumeBin 1 3)).crew? 3), gg (m3 1), { b0 with occ := 1 }, issues_of (by
    decide +kernel), rfl, by decide +kernel, by decide +kernel, rfl, by decide +kernel⟩⟩

/-- Operands of an ECPY, of an EGATH to a name and of one to rows, and four rows of 32 bytes in s2. -/
def x0 : Ops := ⟨⟨false, 0, true, false, 2⟩, 0xD4, 0, 0xC1, 0xC2, 0xFF, 0x0010000000400000⟩
def x1 : Ops := ⟨⟨false, 0, false, false, 2⟩, 0xD4, 0, 4, 0xC2, 0xC3, 0x1100000000200000⟩
def x2 : Ops := ⟨⟨false, 0, false, false, 2⟩, 0xD4, 0, 4, 0xC2, 0xC3, 0x200000⟩
def m43 : State := scal m2 2 0x400000000

theorem witness_EngineCommands :
    (∃ (f : FnE) (x : Ops) (s s0 : State) (c : Nat) (w : Crew) (g : Gang) (a b v : DWord) (p : EngPlan), Issues s c w x ∧ w.acc = [] ∧ s.matrixIdle c = true ∧ s.gang? w.gang = some g ∧ a = w.arch.scalar (scalarNo x.sa)
    ∧ b = w.arch.scalar (scalarNo x.sb) ∧ v = w.arch.scalar (scalarNo x.sc) ∧ s0 = s.opens c w 0xD0 x ∧ s0.ecpyPlan g c
    f.ty x.ext a.toNat b.toNat v.toNat = .ok p) ∧
    (∃ (f : FnE) (x : Ops) (s s0 s1 s2 u r : State) (c va n cnt : Nat) (w : Crew) (g : Gang) (b : DWord) (idx : Vals) (m : Mask)
    (addr : Tab Nat), Issues s c w x ∧ w.acc = [] ∧ s.matrixIdle c = true ∧ s.gang? w.gang = some g ∧
    b = w.arch.scalar (scalarNo x.sb) ∧ va = fld x.ext 51 0 ∧ cnt = fld x.ext 63 52 / 256 ∧ n = fld x.ext 59 52 ∧ (addr =
    perLane m (fun l => gatherAddr va (b.toNat % 2 ^ 32) idx[l].toNat)) ∧ s0 = s.opens c w 0xD1 x ∧ s0.srcOk c x.sa false
    = true ∧ idx = s0.srcVals c x.head x.sa false ∧ s1 = s0.afterSrc c x.sa false ∧ m = s1.emaskOf c x.head ∧ cnt ≠ 0 ∧
    b.toNat < 2 ^ 32 ∧ addrFault m addr (Ty.size f.ty) = none ∧ s1.canBindAll c [n] cnt .leased = true ∧
    s2 = (s1.bindName c n cnt .leased).tagName c n s1.nextId ∧
    u = s2.commanded c 1 w.arch.pc x { what := .egathName f.ty addr n cnt, tile := none, range := [] } ∧
    r = (if m = 0 then u.completed s1.nextId else u) ∧ r.live c = true) ∧
    (∃ (x : Ops) (s s0 s1 u r : State) (c va rows off cnt : Nat) (w : Crew) (g : Gang) (b v : DWord) (idx : Vals) (m : Mask)
    (addr : Tab Nat), Issues s c w x ∧ w.acc = [] ∧ s.matrixIdle c = true ∧ s.gang? w.gang = some g ∧
    b = w.arch.scalar (scalarNo x.sb) ∧ v = w.arch.scalar (scalarNo x.sc) ∧ va = fld x.ext 51 0 ∧ cnt = fld x.ext 63 52 /
    256 ∧ (addr = perLane m (fun l => gatherAddr va (b.toNat % 2 ^ 32) idx[l].toNat)) ∧ s0 = s.opens c w 0xD1 x ∧
    s0.srcOk c x.sa false = true ∧ idx = s0.srcVals c x.head x.sa false ∧ s1 = s0.afterSrc c x.sa false ∧ m = s1.emaskOf
    c x.head ∧ cnt = 0 ∧ rowForm b.toNat v.toNat = .ok (rows, off) ∧ addrFault m addr 4 = none ∧ s1.regionOk c off (32 *
    rows) 1 = true ∧
    u = s1.commanded c 1 w.arch.pc x { what := .egathRow addr rows off, tile := none, range := [(off, 32 * rows)] } ∧
    r = (if m = 0 then u.completed s1.nextId else u) ∧ r.live c = true) ∧
    (∃ (f : FnE) (x : Ops) (s s0 s1 s2 u r : State) (c va : Nat) (w : Crew) (g : Gang) (b : DWord) (idx data : Vals) (m : Mask)
    (addr : Tab Nat), Issues s c w x ∧ w.acc = [] ∧ s.matrixIdle c = true ∧ s.gang? w.gang = some g ∧
    b = w.arch.scalar (scalarNo x.sb) ∧ va = fld x.ext 51 0 ∧ (addr = perLane m (fun l => gatherAddr va (b.toNat % 2 ^
    32) idx[l].toNat)) ∧ s0 = s.opens c w 0xD2 x ∧ s0.srcOk c x.sa false = true ∧ idx = s0.srcVals c x.head x.sa false ∧
    s1 = s0.afterSrc c x.sa false ∧ isVec x.sc = true ∧ s1.srcOk c x.sc false = true ∧
    data = s1.srcVals c x.head x.sc false ∧ s2 = s1.afterSrc c x.sc false ∧ m
    = s2.emaskOf c x.head ∧ b.toNat < 2 ^ 32 ∧ addrFault m addr (Ty.size f.ty) = none ∧
    u = s2.commanded c 1 w.arch.pc x { what := .escatName f.ty addr (lowHalf data), tile := none, range := [] } ∧
    r = (if m = 0 then u.completed s2.nextId else u) ∧ r.live c = true) ∧
    (∃ (x : Ops) (s s0 s1 u r : State) (c va rows off : Nat) (w : Crew) (g : Gang) (b v : DWord) (idx : Vals) (m : Mask) (addr
    : Tab Nat), Issues s c w x ∧ w.acc = [] ∧ s.matrixIdle c = true ∧ s.gang? w.gang = some g ∧ b =
    w.arch.scalar (scalarNo x.sb) ∧ v = w.arch.scalar (scalarNo x.sc) ∧ va = fld x.ext 51 0 ∧ (addr = perLane m (fun l =>
    gatherAddr va (b.toNat % 2 ^ 32) idx[l].toNat)) ∧ s0 = s.opens c w 0xD2 x ∧ s0.srcOk c x.sa false = true ∧ idx =
    s0.srcVals c x.head x.sa false ∧ s1 = s0.afterSrc c x.sa false ∧ isVec x.sc = false ∧ m = s1.emaskOf c x.head ∧
    rowForm b.toNat v.toNat = .ok (rows, off) ∧ addrFault m addr 4 = none ∧ s1.regionOk c off (32 * rows) 1 = true ∧
    u = s1.commanded c 1 w.arch.pc x { what := .escatRow addr rows off, tile := none, range := [(off, 32 * rows)] } ∧
    r = (if m = 0 then u.completed s1.nextId else u) ∧ r.live c = true) ∧
    (∃ (f : FnE) (x : Ops) (s : State) (c : Nat) (w : Crew) (g : Gang) (a b v : DWord) (p : EngPlan), Issues s c w x ∧ w.acc = [] ∧ s.matrixIdle c = true ∧ s.gang? w.gang = some g ∧ a = w.arch.scalar (scalarNo x.sa)
    ∧ b = w.arch.scalar (scalarNo x.sb) ∧ v = w.arch.scalar (scalarNo x.sc) ∧ ecollPlan f.sub.toNat f.op.toNat f.ty x.ext
    a.toNat b.toNat v.toNat = .ok p) ∧
    (∃ (x : Ops) (s : State) (c : Nat) (w : Crew) (g : Gang) (a b : DWord), Issues s c w x ∧ w.acc =
    [] ∧ s.matrixIdle c = true ∧ s.gang? w.gang = some g ∧ a = w.arch.scalar (scalarNo x.sa) ∧ b = w.arch.scalar
    (scalarNo x.sb) ∧ 1 ≤ b.toNat ∧ b.toNat ≤ 65536 ∧ a.toNat % 64 = 0 ∧ a.toNat < 2 ^ 52) :=
  ⟨⟨⟨0, 0, .e2m1⟩, x0, scal m2 1 0x8000, _, 2, me (scal m2 1 0x8000), gg (scal m2 1 0x8000), _, _, _, exV (((scal m2 1
    0x8000).opens 2 (me (scal m2 1 0x8000)) 0xD0 x0).ecpyPlan (gg m2) 2 .e2m1 0x0010000000400000 0x8000 0 0), issues_of (by
    decide +kernel), by decide +kernel, by decide +kernel, by decide +kernel, rfl, rfl, rfl, rfl, ex_is (by decide +kernel)⟩,
   ⟨⟨0, 0, .n32⟩, x1, m2, _, _, _, _, _, 2, _, _, _, me m2, gg m2, _, _, _, _, issues_of (by decide +kernel), by
    decide +kernel, by decide +kernel, by decide +kernel, rfl, rfl, rfl, rfl, rfl, rfl, by decide +kernel, rfl, rfl, rfl,
    by decide +kernel, by decide +kernel, by decide +kernel, by decide +kernel, rfl, rfl, rfl, by decide +kernel⟩,
   ⟨x2, m43, _, _, _, _, 2, _, 4, 0, _, me m43, gg m43, _, _, _, _, _, issues_of (by decide +kernel), by decide +kernel, by
    decide +kernel, by decide +kernel, rfl, rfl, rfl, rfl, rfl, rfl, by decide +kernel, rfl, rfl, rfl,
    by decide +kernel, ex_is (by decide +kernel), by decide +kernel, by decide +kernel, rfl, rfl, by decide +kernel⟩,
   ⟨⟨0, 0, .n32⟩, { x2 with sc := 1 }, m2, _, _, _, _, _, 2, _, me m2, gg m2, _, _, _, _, _, issues_of (by decide +kernel), by
    decide +kernel, by decide +kernel, by decide +kernel, rfl, rfl, rfl, rfl, by decide +kernel, rfl, rfl, by decide +kernel,
    by decide +kernel, rfl, rfl, rfl, by decide +kernel, by decide +kernel, rfl, rfl, by decide +kernel⟩,
   ⟨x2, m43, _, _, _, _, 2, _, 4, 0, me m43, gg m43, _, _, _, _, _, issues_of (by decide +kernel), by decide +kernel, by
    decide +kernel, by decide +kernel, rfl, rfl, rfl, rfl, rfl, by decide +kernel, rfl, rfl, by decide +kernel, rfl, ex_is
    (by decide +kernel), by decide +kernel, by decide +kernel, rfl, rfl, by decide +kernel⟩,
   ⟨⟨0, 0, .n32⟩, { x0 with ext := 0x200000 }, scal m2 1 64, 2, me (scal m2 1 64), gg (scal m2 1 64), _, _, _, exV (ecollPlan
    0 0 .n32 0x200000 64 0 0), issues_of (by decide +kernel), by decide +kernel, by decide +kernel, by decide +kernel, rfl,
    rfl, rfl, ex_is (by decide +kernel)⟩,
   ⟨o2, scal (scal m2 1 0x200000) 2 65536, 2, me (scal (scal m2 1 0x200000) 2 65536), gg (scal (scal m2 1 0x200000) 2
    65536), _, _, issues_of (by decide +kernel), by decide +kernel, by decide +kernel, by decide +kernel, rfl, rfl, by
    decide +kernel⟩⟩

theorem witness_Timelines :
    (∃ (f : FnE) (x : Ops) (s s0 : State) (c : Nat) (w : Crew), Issues s c w x ∧ s0 = s.opens c w 0xD6 x ∧ s0.waitsMet c
    [(f.sub.toNat, (w.arch.scalar (scalarNo x.sa)).toNat)] = true) ∧
    (∃ (f : FnE) (x : Ops) (s s0 : State) (c : Nat) (w : Crew), Issues s c w x ∧ s0 = s.opens c w 0xD5 x ∧ w.acc = [] ∧
    f.sub = 0 ∧ s0.waitsMet c [(0, (w.arch.scalar (scalarNo x.sa)).toNat), (1, (w.arch.scalar (scalarNo x.sb)).toNat),
    (2, (w.arch.scalar (scalarNo x.sc)).toNat)] = true) ∧
    (∃ (x : Ops) (s : State) (c : Nat) (w : Crew) (g : Gang), Issues s c w x ∧ s.gang? w.gang = some g) :=
  ⟨⟨⟨0, 0, .n32⟩, o1, m1, _, 2, me m1, issues_of (by decide +kernel), rfl, by decide +kernel⟩,
   ⟨⟨0, 0, .n32⟩, o1, m1, _, 2, me m1, issues_of (by decide +kernel), rfl, by decide +kernel⟩,
   ⟨o1, m1, 2, me m1, gg m1, issues_of (by decide +kernel), by decide +kernel⟩⟩

/-- The queue head of that crew, and the crew in the queue's line. -/
def qh : State := quS (State.queueHead (m4 1) (me (m4 1)) 0x200100)
def qj : State := joinLine ⟨2, 0x200100, 0x200100, 0, 0xFFFFFFFF⟩ qh

/-- The machine of an ENQ once it has read the header. -/
def qe : State := quS ((State.opens (m4 0) 2 (me (m4 0)) 0xE1 o2).queueHead ((me (m4 0)).begun 0xE1 o2) 0x200100)

theorem witness_WorkQueues :
    (∃ (x : Ops) (s : State) (c : Nat) (w : Crew) (v : DWord), Issues s c w x ∧ w.acc = [] ∧ w.waitEvt = some v) ∧
    (∃ (x : Ops) (s s1 t u : State) (c : Nat) (w z : Crew) (h : Header) (a v : DWord), Issues s c w x ∧ w.acc = [] ∧ a =
    w.arch.scalar (scalarNo x.sa) ∧ w.waitEvt = none ∧ s.queueHead w a.toNat = .ok t h ∧ s1 = joinLine
    ⟨c, a.toNat, h.place.pa, h.place.key, w.arch.emask x.head⟩ t ∧ u = serveLine (s1.waits.length + 1) h.place.pa s1 ∧ Issues u c z x ∧ z.acc = [] ∧
    z.waitEvt = some v) ∧
    (∃ (x : Ops) (s s0 s1 s2 u : State) (c : Nat) (w y : Crew) (h : Header) (a : DWord) (added : Bool), Issues s c w x ∧
    w.acc = [] ∧ a = w.arch.scalar (scalarNo x.sa) ∧ s.matrixIdle c = true ∧ s0 = s.opens c w 0xE1 x ∧ y = w.begun 0xE1 x
    ∧ s0.queueHead y a.toNat = .ok s1 h ∧ s1.addItem y a.toNat (w.arch.scalar (scalarNo x.sb)) = .ok s2 (some added) ∧ (u
    = (if added then serveLine (s2.waits.length + 1) h.place.pa s2 else s2)) ∧ u.live c = true) :=
  ⟨⟨o2, withMe m0 fun w => { w with waitEvt := some 3 }, 2, me (withMe m0 fun w => { w with waitEvt := some 3 }), 3,
    issues_of (by decide +kernel), by decide +kernel⟩,
   ⟨o2, m4 1, qj, qh, serveLine (qj.waits.length + 1) 0x200100 qj, 2, me (m4 1), me (serveLine (qj.waits.length + 1) 0x200100
    qj), h4 1, _, 0, issues_of (by decide +kernel), by decide +kernel, rfl, by decide +kernel, qu_is (by decide +kernel),
    by decide +kernel, rfl, issues_of (by decide +kernel), by decide +kernel⟩,
   ⟨o2, m4 0, _, qe, quS (qe.addItem ((me (m4 0)).begun 0xE1 o2) 0x200100 0), _, 2, me (m4 0), _, h4 0, _, true,
    issues_of (by decide +kernel), by decide +kernel, rfl, by decide +kernel, rfl, rfl, qu_is (by decide +kernel),
    qu_is (by decide +kernel), rfl, by decide +kernel⟩⟩

/-- The reading of a launch record by LAUNCH. -/
def lrec (m : State) : Io (List Byte) :=
  (State.opens m 2 (me m) 0xE2 o2).readVa ((State.opens m 2 (me m) 0xE2 o2).crewAgent ((me m).begun 0xE2 o2) 0x200000) .read
    0x200400 256

theorem witness_ChildGrids :
    (∃ (x : Ops) (s s0 t u : State) (c i : Nat) (w y : Crew) (g : Gang) (l : Grid) (a : DWord) (r tab : List Byte), Issues
    s c w x ∧ w.acc = [] ∧ s.gang? w.gang = some g ∧ a = w.arch.scalar (scalarNo x.sa) ∧ s0 = s.opens c w 0xE2 x ∧ y =
    w.begun 0xE2 x ∧ s.matrixIdle c = true ∧ a.toNat % 64 = 0 ∧ a.toNat < 2 ^ 52 ∧ s0.readVa (s0.crewAgent y w.arch.pc) .read
    a.toNat 256 = .ok t r ∧ t.grid? g.grid = some l ∧ t.live c = true ∧ t.freePoolSlot = some i ∧ t.checkRecord g.ctx
    l.priv.toNat r = some tab ∧ u = t.childPlaced g.grid i (t.newGrid g.ctx r tab l.priv (some g.grid) (some i) none 0) ∧
    u.live c = true) ∧
    (∃ (x : Ops) (s s0 t : State) (c : Nat) (w y : Crew) (g : Gang) (l : Grid) (a : DWord) (r : List Byte), Issues s c w x
    ∧ w.acc = [] ∧ s.gang? w.gang = some g ∧ a = w.arch.scalar (scalarNo x.sa) ∧ s0 = s.opens c w 0xE2 x ∧ y = w.begun
    0xE2 x ∧ s.matrixIdle c = true ∧ a.toNat % 64 = 0 ∧ a.toNat < 2 ^ 52 ∧ s0.readVa (s0.crewAgent y w.arch.pc) .read a.toNat 256 =
    .ok t r ∧ t.grid? g.grid = some l ∧ t.live c = true ∧ (t.freePoolSlot = none ∨ t.checkRecord g.ctx l.priv.toNat r =
    none)) ∧
    (∃ (x : Ops) (s : State) (c : Nat) (w : Crew) (g : Gang) (v : DWord), Issues s c w x ∧ w.acc = [] ∧ s.gang? w.gang =
    some g ∧ w.waitEvt = some v) ∧
    (∃ (x : Ops) (s : State) (c : Nat) (w : Crew) (g : Gang) (a : DWord), Issues s c w x ∧ w.acc = [] ∧ s.gang? w.gang =
    some g ∧ a = w.arch.scalar (scalarNo x.sa) ∧ w.waitEvt = none ∧ s.childSlot g.grid a = none) ∧
    (∃ (x : Ops) (s : State) (c : Nat) (w : Crew) (g : Gang) (a : DWord) (p : PoolSlot), Issues s c w x ∧ w.acc = [] ∧
    s.gang? w.gang = some g ∧ a = w.arch.scalar (scalarNo x.sa) ∧ w.waitEvt = none ∧ s.childSlot g.grid a = some p ∧
    p.done = true) ∧
    (∃ (x : Ops) (s : State) (c : Nat) (w : Crew) (g : Gang) (a : DWord) (p : PoolSlot), Issues s c w x ∧ w.acc = [] ∧
    s.gang? w.gang = some g ∧ a = w.arch.scalar (scalarNo x.sa) ∧ w.waitEvt = none ∧ s.childSlot g.grid a = some p ∧
    p.done = false) :=
  ⟨⟨o2, m5, _, ioS (lrec m5), _, 2, 0, me m5, _, gg m5, optD fixGrid ((ioS (lrec m5)).grid? 0), _, ioV [] (lrec m5),
    List.replicate 512 0#8, issues_of (by decide +kernel), by decide +kernel, by decide +kernel, rfl, rfl, rfl,
    by decide +kernel, by decide +kernel, by decide +kernel, io_is (by decide +kernel), by decide +kernel,
    by decide +kernel, by decide +kernel, by decide +kernel, rfl, by decide +kernel⟩,
   ⟨o2, m5b, _, ioS (lrec m5b), 2, me m5b, _, gg m5b, optD fixGrid ((ioS (lrec m5b)).grid? 0), _, ioV [] (lrec m5b),
    issues_of (by decide +kernel), by decide +kernel, by decide +kernel, rfl, rfl, rfl, by decide +kernel, by decide +kernel,
    by decide +kernel, io_is (by decide +kernel), by decide +kernel, by decide +kernel, .inr (by decide +kernel)⟩,
   ⟨o2, withMe m0 fun w => { w with waitEvt := some 3 }, 2, me (withMe m0 fun w => { w with waitEvt := some 3 }), gg
    (withMe m0 fun w => { w with waitEvt := some 3 }), 3, issues_of (by decide +kernel), by decide +kernel⟩,
   ⟨o2, m1, 2, me m1, gg m1, _, issues_of (by decide +kernel), by decide +kernel, by decide +kernel, rfl, by decide +kernel⟩,
   ⟨o2, m6 true, 2, me (m6 true), gg (m6 true), _, p5 true, issues_of (by decide +kernel), by decide +kernel, by
    decide +kernel, rfl, by decide +kernel⟩,
   ⟨o2, m6 false, 2, me (m6 false), gg (m6 false), _, p5 false, issues_of (by decide +kernel), by decide +kernel, by
    decide +kernel, rfl, by decide +kernel⟩⟩

theorem witness_StewardInstructions :
    (∃ (x : Ops) (s : State) (c k : Nat) (w : Crew) (a : DWord), Issues s c w x ∧ w.acc = [] ∧ w.priv = 2 ∧ a =
    w.arch.scalar (scalarNo x.sa) ∧ k = a.toNat % 128 ∧ w.waitEvt = none ∧ s.zeroDone k = true) ∧
    (∃ (x : Ops) (s : State) (c k : Nat) (w : Crew) (a : DWord), Issues s c w x ∧ w.acc = [] ∧ w.priv = 2 ∧ a =
    w.arch.scalar (scalarNo x.sa) ∧ k = a.toNat % 128 ∧ w.waitEvt = none ∧ s.zeroDone k = false) ∧
    (∃ (x : Ops) (s : State) (c : Nat) (w : Crew) (v : DWord), Issues s c w x ∧ w.acc = [] ∧ w.priv = 2 ∧ w.waitEvt = some
    v) ∧
    (∃ (x : Ops) (s : State) (c : Nat) (w : Crew), Issues s c w x ∧ w.acc = [] ∧ w.priv = 2 ∧ s.sec.scrub.state = 1) ∧
    (∃ (x : Ops) (s s0 : State) (c : Nat) (w : Crew) (a : DWord), Issues s c w x ∧ w.acc = [] ∧ w.priv = 2 ∧ a =
    w.arch.scalar (scalarNo x.sa) ∧ s0 = s.opens c w 0xF6 x ∧ s.sec.scrub.state ≠ 1 ∧ s0.rangeList a.toNat (w.arch.scalar
    (scalarNo x.sb)).toNat = none) ∧
    (∃ (x : Ops) (s s0 : State) (c : Nat) (w : Crew) (a : DWord) (l : List (Nat × Nat)), Issues s c w x ∧ w.acc = [] ∧
    w.priv = 2 ∧ a = w.arch.scalar (scalarNo x.sa) ∧ s0 = s.opens c w 0xF6 x ∧ s.sec.scrub.state ≠ 1 ∧ s0.rangeList
    a.toNat (w.arch.scalar (scalarNo x.sb)).toNat = some l) ∧
    (∃ (x : Ops) (s : State) (c n : Nat) (w : Crew) (a : DWord), Issues s c w x ∧ w.acc = [] ∧ w.priv = 2 ∧ a =
    w.arch.scalar (scalarNo x.sa) ∧ n = a.toNat % 65536 ∧ (s.ctx n).prot = false) ∧
    (∃ (x : Ops) (s s0 : State) (c n : Nat) (w : Crew) (a : DWord), Issues s c w x ∧ w.acc = [] ∧ w.priv = 2 ∧ a =
    w.arch.scalar (scalarNo x.sa) ∧ n = a.toNat % 65536 ∧ s0 = s.opens c w 0xF7 x ∧ (s.ctx n).prot = true ∧ s0.ctxBusy n
    = true) ∧
    (∃ (x : Ops) (s s0 : State) (c n : Nat) (w : Crew) (a : DWord), Issues s c w x ∧ w.acc = [] ∧ w.priv = 2 ∧ a =
    w.arch.scalar (scalarNo x.sa) ∧ n = a.toNat % 65536 ∧ s0 = s.opens c w 0xF7 x ∧ (s.ctx n).prot = true ∧ s0.ctxBusy n
    = false ∧ (s.ctx n).zeroised = false) ∧
    (∃ (x : Ops) (s s0 : State) (c n : Nat) (w : Crew) (a : DWord), Issues s c w x ∧ w.acc = [] ∧ w.priv = 2 ∧ a =
    w.arch.scalar (scalarNo x.sa) ∧ n = a.toNat % 65536 ∧ s0 = s.opens c w 0xF7 x ∧ (s.ctx n).prot = true ∧ s0.ctxBusy n
    = false ∧ (s.ctx n).zeroised = true ∧ s.sec.scrub.state = 2) ∧
    (∃ (x : Ops) (s s0 : State) (c n : Nat) (w : Crew) (a : DWord), Issues s c w x ∧ w.acc = [] ∧ w.priv = 2 ∧ a =
    w.arch.scalar (scalarNo x.sa) ∧ n = a.toNat % 65536 ∧ s0 = s.opens c w 0xF7 x ∧ (s.ctx n).prot = true ∧ s0.ctxBusy n
    = false ∧ (s.ctx n).zeroised = true ∧ s.sec.scrub.state ≠ 2 ∧ s.sec.scrub.prog.toNat < s.sec.scrub.total.toNat) ∧
    (∃ (x : Ops) (s s0 : State) (c n : Nat) (w : Crew) (a : DWord), Issues s c w x ∧ w.acc = [] ∧ w.priv = 2 ∧ a =
    w.arch.scalar (scalarNo x.sa) ∧ n = a.toNat % 65536 ∧ s0 = s.opens c w 0xF7 x ∧ (s.ctx n).prot = true ∧ s0.ctxBusy n
    = false ∧ (s.ctx n).zeroised = true ∧ s.sec.scrub.state ≠ 2 ∧ s.sec.scrub.total.toNat ≤ s.sec.scrub.prog.toNat) :=
  ⟨⟨o2, scal m0 1 5, 2, _, me (scal m0 1 5), _, issues_of (by decide +kernel), by decide +kernel, by decide +kernel, rfl,
    rfl, by decide +kernel⟩,
   ⟨o2, scal { m0 with sec := { m0.sec with slots := [(5, { KeySlot.reset with state := 1 })] } } 1 5, 2, _, me (scal { m0
    with sec := { m0.sec with slots := [(5, { KeySlot.reset with state := 1 })] } } 1 5), _, issues_of (by
    decide +kernel), by decide +kernel, by decide +kernel, rfl, rfl, by decide +kernel⟩,
   ⟨o2, withMe m0 fun w => { w with waitEvt := some 3 }, 2, me (withMe m0 fun w => { w with waitEvt := some 3 }), 3,
    issues_of (by decide +kernel), by decide +kernel⟩,
   ⟨o2, m7 1 0 0, 2, me (m7 1 0 0), issues_of (by decide +kernel), by decide +kernel⟩,
   ⟨o2, scal (m7 0 0 0) 1 1, _, 2, me (scal (m7 0 0 0) 1 1), _, issues_of (by decide +kernel), by decide +kernel, by
    decide +kernel, rfl, rfl, by decide +kernel⟩,
   ⟨o2, scal (scal (poked m0 0x200040 (bytesLE 8 0x300000 ++ bytesLE 8 0x1000)) 1 0x200040) 2 1, _, 2, me (scal (scal
    (poked m0 0x200040 (bytesLE 8 0x300000 ++ bytesLE 8 0x1000)) 1 0x200040) 2 1), _, [(0x300000, 0x1000)], issues_of (by
    decide +kernel), by decide +kernel, by decide +kernel, rfl, rfl, by decide +kernel⟩,
   ⟨o2, scal m0 1 7, 2, _, me (scal m0 1 7), _, issues_of (by decide +kernel), by decide +kernel, by decide +kernel, rfl,
    rfl, by decide +kernel⟩,
   ⟨o2, scal (m0.modCtx 1 fun k => { k with prot := true }) 1 1, _, 2, _, me (scal (m0.modCtx 1 fun k =>
    { k with prot := true }) 1 1), _, issues_of (by decide +kernel), by decide +kernel, by decide +kernel, rfl, rfl, rfl,
    by decide +kernel⟩,
   ⟨o2, guarded m0 false, _, 2, _, me (guarded m0 false), _, issues_of (by decide +kernel), by decide +kernel, by
    decide +kernel, rfl, rfl, rfl, by decide +kernel⟩,
   ⟨o2, guarded (m7 2 0 1) true, _, 2, _, me (guarded (m7 2 0 1) true), _, issues_of (by decide +kernel), by
    decide +kernel, by decide +kernel, rfl, rfl, rfl, by decide +kernel⟩,
   ⟨o2, guarded (m7 0 0 1) true, _, 2, _, me (guarded (m7 0 0 1) true), _, issues_of (by decide +kernel), by
    decide +kernel, by decide +kernel, rfl, rfl, rfl, by decide +kernel⟩,
   ⟨o2, guarded (m7 0 1 1) true, _, 2, _, me (guarded (m7 0 1 1) true), _, issues_of (by decide +kernel), by
    decide +kernel, by decide +kernel, rfl, rfl, rfl, by decide +kernel⟩⟩

/-- A machine with an access to memory, and those that read and write through a window. -/
def am : State := withAcc m0 (a1 0x200100)
def ar : State := withAcc m0 (a1 (winBase + 0x100000))
def aw : State := withAcc m8 (a1 (winBase + 0x200000))
def ax : State := withAcc m0 (a1 0x4000000000000)

theorem witness_AccessHappenings :
    (∃ (s : State) (c a : Nat) (y : Crew) (b : Access) (q : List (Nat × Xlat) × State) (ps : List (Nat × Place)),
    s.access? c a = some (y, b) ∧ b.place = none ∧ q = xlatLanes y b (lanesOf b.lanes) (s.walkCanaries y b) ∧
    (q.1 = ps.map (fun p => (p.1, Xlat.ok p.2))) ∧ lanesWith b.lanes (s.ownLease c y b) = 0) ∧
    (∃ (s t : State) (c a : Nat) (y : Crew) (b : Access) (lanes : Mask), s.access? c a = some (y, b) ∧ s.mayPerform c y b
    lanes = true ∧ b.together lanes = true ∧ ((lanesOf lanes).all fun l => !b.windowLane l.val) = true ∧
    s.syncLanes b lanes = none ∧ performLanes (laneIn (s.coreOf y) (s.accessReader y b)) c (lanesOf lanes) b
    ((s.canaries y b lanes).linkRecords (s.accessWho y b) (s.lostLines b lanes)) = .ok t) ∧
    (∃ (s t : State) (c a : Nat) (y : Crew) (b : Access) (lanes m : Mask), s.access? c a = some (y, b) ∧
    m = windowLanes b false ∧ lanes &&& ~~~ m = 0 ∧ s.mayPerform c y b lanes = true ∧
    firstFault (s.recheck y b (lanesOf m)) = none ∧
    performLanes (windowOne y) c (lanesOf lanes) b (s.canaries y b lanes) = .ok t) ∧
    (∃ (s t : State) (c a : Nat) (y : Crew) (b : Access) (lanes m : Mask), s.access? c a = some (y, b) ∧
    m = windowLanes b true ∧ lanes &&& ~~~ m = 0 ∧ s.mayPerform c y b lanes = true ∧
    firstFault (s.recheck y b (lanesOf m)) = none ∧ (performLanes (entryOne y) c ((lanesOf
    lanes).filter (fun l => s.filledLane b l.val) ++ (lanesOf lanes).filter fun l => !s.filledLane b l.val) b
    (s.canaries y b lanes) = .ok t)) ∧
    (∃ (s t : State) (c a : Nat) (y : Crew) (b : Access) (m : Mask), s.access? c a = some (y, b) ∧ m = b.lanesIn
    Region.outside ∧ m ≠ 0 ∧ s.mayPerform c y b m = true ∧
    performLanes lostLane c (lanesOf m) b (s.linkRecords (s.accessWho y b) (b.newLines m fun _ => true)) = .ok t) ∧
    (∃ (s : State) (a : Nat) (d : Arrival), Tab.at? s.arrive a = some d) :=
  ⟨⟨withAcc m0 a0, 2, 50, me (withAcc m0 a0), a0, xlatLanes (me (withAcc m0 a0)) a0 (lanesOf a0.lanes)
    ((withAcc m0 a0).walkCanaries (me (withAcc m0 a0)) a0), [(0, ⟨0x200100, 0⟩)], by decide +kernel, by decide +kernel, rfl,
    by decide +kernel⟩,
   ⟨am, pfS (performLanes (laneIn (am.coreOf (me am)) (am.accessReader (me am) (a1 0x200100))) 2 (lanesOf 1) (a1 0x200100)
    ((am.canaries (me am) (a1 0x200100) 1).linkRecords (am.accessWho (me am) (a1 0x200100)) (am.lostLines (a1 0x200100) 1))), 2, 50, me am, a1 0x200100, 1, by
    decide +kernel, by decide +kernel, by decide +kernel, by decide +kernel, by decide +kernel, pf_is (by decide +kernel)⟩,
   ⟨ar, pfS (performLanes (windowOne (me ar)) 2 (lanesOf 1) (a1 (winBase + 0x100000)) (ar.canaries (me ar) (a1 (winBase +
    0x100000)) 1)), 2, 50, me ar, a1 (winBase + 0x100000), 1, _, by decide +kernel, rfl, by decide +kernel, by
    decide +kernel, by decide +kernel, pf_is (by decide +kernel)⟩,
   ⟨aw, pfS (performLanes (entryOne (me aw)) 2 ((lanesOf 1).filter (fun l => aw.filledLane (a1 (winBase + 0x200000)) l.val)
    ++ (lanesOf 1).filter fun l => !aw.filledLane (a1 (winBase + 0x200000)) l.val) (a1 (winBase + 0x200000)) (aw.canaries
    (me aw) (a1 (winBase + 0x200000)) 1)), 2, 50, me aw, a1 (winBase + 0x200000), 1, _, by decide +kernel, rfl, by
    decide +kernel, by decide +kernel, by decide +kernel, pf_is (by decide +kernel)⟩,
   ⟨ax, pfS (performLanes lostLane 2 (lanesOf (Access.lanesIn (a1 0x4000000000000) Region.outside)) (a1 0x4000000000000)
    (ax.linkRecords (ax.accessWho (me ax) (a1 0x4000000000000)) (Access.newLines (a1 0x4000000000000) (Access.lanesIn (a1
    0x4000000000000) Region.outside) fun _ => true))), 2, 50, me ax, a1 0x4000000000000, _, by decide +kernel,
    rfl, by decide +kernel, by decide +kernel, pf_is (by decide +kernel)⟩,
   ⟨{ m0 with arrive := [(50, d0)] }, 50, d0, by decide +kernel⟩⟩

theorem witness_CrewHappenings :
    (∃ (s : State) (c : Nat) (w : Crew) (cause : BitVec 8), s.crew? c = some w ∧ causeRaised cause = true) ∧
    (∃ (s : State) (c core sl : Nat) (w : Crew), s.crew? c = some w ∧ w.home = .slot core sl ∧ w.empty = true ∧ w.acc = []
    ∧ s.hasMatrix core c = false ∧ w.frame = []) ∧
    (∃ (s t : State) (c core : Nat) (w : Crew), s.victim core = some c ∧ s.crew? c = some w ∧ s.hasMatrix core c = false ∧
    (s.liftCrew c (fun _ => true) (.evicted core)).spillCrew c = .ok t) ∧
    (∃ (s t : State) (c core sl : Nat) (w : Crew), s.crew? c = some w ∧ core = s.coreOf w ∧ s.restorable core c w = true ∧
    sl < 64 ∧ Tab.at? (s.core core).slots sl = none ∧ s.crewIntact w = true ∧ s.landCrew c core
    sl = some t) ∧
    (∃ (s t : State) (d g bin : Nat), s.autoBin g bin = true ∧ s.resumeBin g bin = .done t d) ∧
    (∃ (s t : State) (c : Nat) (w : Crew) (y : Gang), s.crew? c = some w ∧ w.frame ≠ [] ∧ w.resident = true ∧ s.gang?
    w.gang = some y ∧ w.frame.length ≤ y.vslim ∧ (w.want = none ∨ s.yieldsSpace (s.coreOf w) c w = false) ∧
    bindAll c w.frame s = .ok () t) ∧
    (∃ (s u : State) (c ctx : Nat) (w : Crew) (b : List Byte) (old : Bool), s.crew? c = some w ∧ ctx = s.ctxOf w ∧
    w.notice = some old ∧ w.park = some .debug ∧ w.resident = true ∧ (s.ctx ctx).mbox ≠ 0 ∧ (s.ctx ctx).prot = false ∧
    s.readSys false ctx ((s.ctx ctx).mbox + 0x600) 8 = .ok b ∧ ofBytesLE b = (s.ctx ctx).mbNtc.toNat ∧ (s.mbWrite ctx 0x400
    (mbHeader ((s.ctx ctx).mbNtc + 1).toNat 64 0 0x81 (s.crewId w)) (stopBody w (if old then 0 else w.setS.code.toNat)) =
    some u)) :=
  ⟨⟨m0, 2, me m0, cBkpt, by decide +kernel⟩,
   ⟨withMe m0 fun w => { w with empty := true }, 2, 0, 0, me (withMe m0 fun w => { w with empty := true }), by decide +kernel⟩,
   ⟨m9, okS ((m9.liftCrew 7 (fun _ => true) (.evicted 0)).spillCrew 7), 7, 0, w7, by decide +kernel, by decide +kernel,
    by decide +kernel, ok_is (by decide +kernel)⟩,
   ⟨m10, optD m0 (State.landCrew m10 2 0 1), 2, _, 1, me m10, by decide +kernel, by decide +kernel, by decide +kernel, by
    decide +kernel, by decide +kernel, by decide +kernel, opt_is (by decide +kernel)⟩,
   ⟨m11, (rsS (State.resumeBin m11 1 3)).1, (rsS (State.resumeBin m11 1 3)).2, 1, 3, by decide +kernel, rs_is (by
    decide +kernel)⟩,
   ⟨m12, moS (bindAll 2 (me m12).frame m12), 2, me m12, gg m12, by decide +kernel, by decide +kernel, by decide +kernel,
    by decide +kernel, by decide +kernel, .inl (by decide +kernel), mo_is (by decide +kernel)⟩,
   ⟨m13, optD m0 (State.mbWrite m13 1 0x400 (mbHeader 1 64 0 0x81 (State.crewId m13 (me m13))) (stopBody (me m13) (me
    m13).setS.code.toNat)), 2, _, me m13, List.replicate 8 0#8, false, by decide +kernel, by decide +kernel, by
    decide +kernel, by decide +kernel, by decide +kernel, by decide +kernel, by decide +kernel, xc_is (by
    decide +kernel), by decide +kernel, opt_is (by decide +kernel)⟩⟩

theorem witness_GangHappenings :
    (∃ (s : State) (g : Nat) (y : Gang), s.gang? g = some y ∧ y.home = .core ∧ s.crewsOf g = [] ∧ y.resumable = false ∧
    ((s.cmds.any fun p => p.2.gang == g && !p.2.isOver) = false)) ∧
    (∃ (s : State) (g : Nat) (y : Gang), s.gang? g = some y ∧ y.alive = true) ∧
    (∃ (s t u : State) (g n : Nat) (y : Gang), s.gang? g = some y ∧ y.home = .swapped ∧ y.back = some n ∧
    (s.ctx y.ctx).pre.toNat < 2 ∧ s.olderRestore n [y.core] = false ∧
    (s.owesBstack y.ctx y.core = true → s.gangsOn y.core = []) ∧ (s.gangRoom g).isSome = true ∧
    (if s.owesBstack y.ctx y.core then s.loadBstack y.ctx y.core (· == .swapped) else s).landGang g = some t ∧
    t.replayLog y.ctx = .ok u) ∧
    (∃ (s : State) (g n : Nat) (y : Gang), s.gang? g = some y ∧ y.home = .swapped ∧ y.back = some n ∧
    (s.ctx y.ctx).pre.toNat < 2 ∧ s.olderRestore n [y.core] = false ∧ s.gangRoom g = none) ∧
    (∃ (s t : State) (l : Nat) (z : Grid) (cores : List Nat), s.grid? l = some z ∧ z.nextUnit ≠ [] ∧ z.nextUnit.length =
    cores.length ∧ z.groupsOk (z.nextUnit.zip cores) = true ∧ s.mayPlace l z = true ∧ placeAll l z (z.nextUnit.zip cores)
    s.grantAtPlacement = some t) ∧
    (∃ (s t : State) (l gid core : Nat) (z h : Grid), s.grid? l = some z ∧ z.due.contains gid = true ∧ s.sec.boot = 3 ∧
    (s.ctx z.ctx).pre = 0 ∧ s.killRuns l gid = false ∧ s.relaunchCore l z gid core = true ∧ h =
    { z with due := z.due.erase gid, again := z.again + 1 } ∧ placeAll l h [(gid, core)] (s.setGrid l h).grantAtPlacement
    = some t) ∧
    (∃ (s : State) (l : Nat) (z : Grid) (slots : List (Nat × Nat)), s.grid? l = some z ∧ s.sec.boot = 3 ∧
    s.arb.table.isSome = true ∧ s.mayReserve l z slots = true ∧ z.admitted = true ∧ (z.next < recGangs z.record ∨ z.due ≠ [])) ∧
    (∃ (s : State) (l : Nat) (z : Grid) (slots : List (Nat × Nat)), s.grid? l = some z ∧ s.sec.boot = 3 ∧
    s.arb.table.isSome = true ∧ s.mayReserve l z slots = true ∧ z.admitted = false ∧ s.settled z =
    true ∧ s.poolBefore l z = false ∧ ((s.grids.any fun p => s.settled p.2 && goesBefore p.1 p.2 l z) = false) ∧ s.deps z
    = .met) ∧
    (∃ (s : State) (l a : Nat) (z : Grid) (slots : List (Nat × Nat)) (cause : BitVec 8), s.grid? l = some z ∧ s.sec.boot = 3 ∧
    s.arb.table.isSome = true ∧ s.mayReserve l z slots = true ∧ z.admitted = false ∧ s.settled z = true ∧
    s.poolBefore l z = false ∧ ((s.grids.any fun p => s.settled p.2 && goesBefore p.1 p.2 l
    z) = false) ∧ s.deps z = .bad cause a) ∧
    (∃ (s : State) (l : Nat) (z : Grid), s.grid? l = some z ∧ s.gridOver l z = true) :=
  ⟨⟨{ m0 with crews := [] }, 1, gg m0, by decide +kernel⟩,
   ⟨m0, 1, gg m0, by decide +kernel⟩,
   ⟨m14, _, _, 1, 0, gg m14, by decide +kernel, by decide +kernel, by decide +kernel, by
    decide +kernel, by decide +kernel, by decide +kernel, by decide +kernel, opt_is (d := m0) (by decide +kernel),
    ok_is (by decide +kernel)⟩,
   ⟨m14b, 1, 0, gg m14b, by decide +kernel⟩,
   ⟨rsv (m15 .admitted r0) 3, optD m0 (placeAll 3 (grd (m15 .admitted r0) 3) ((grd (m15 .admitted r0) 3).nextUnit.zip [1])
    (rsv (m15 .admitted r0) 3).grantAtPlacement), 3, grd (m15 .admitted r0) 3, [1], by decide +kernel, by decide +kernel,
    by decide +kernel, by decide +kernel, by decide +kernel, opt_is (by decide +kernel)⟩,
   ⟨m16, optD m0 (placeAll 0 g16 [(0, 1)] (m16.setGrid 0 g16).grantAtPlacement), 0, 0, 1, grd m16 0, g16, by decide +kernel,
    by decide +kernel, by decide +kernel, by decide +kernel, by decide +kernel, by decide +kernel, rfl, opt_is (by
    decide +kernel)⟩,
   ⟨m15 .admitted r0, 3, grd (m15 .admitted r0) 3, [(191, 63)], by decide +kernel, by decide +kernel, by decide +kernel,
    by decide +kernel, by decide +kernel, .inl (by decide +kernel)⟩,
   ⟨m15 .waiting r0, 3, grd (m15 .waiting r0) 3, [(0, 63)], by decide +kernel⟩,
   ⟨m15 .waiting r1, 3, 0x300000, grd (m15 .waiting r1) 3, [], cMemFault, by decide +kernel⟩,
   ⟨{ m0 with gangs := [] }, 0, fixGrid, by decide +kernel⟩⟩

/-- A copy from a page that is not mapped, and the program of one record, its command and its run. -/
def k1 : CmdKind := .ecpy 5 .n8 0x300000 64 0x200040 0
def k17 : Cmd := c0 0 (.fork 0x200800 1 0 1)
def at17 : State × EngPlan := rdP (m17.reached k17)
def run17 : Io Lanes := at17.1.runCmd { k17 with tile := at17.2.tile } at17.2.what

theorem witness_EngineHappenings :
    (∃ (s t u : State) (core : Nat) (o : MatOp) (rest : List MatOp) (g : Gang) (d : Stat), (s.core core).mats = o :: rest
    ∧ (t = s.modCore core (fun x => { x with mats := rest })) ∧ t.gang? o.gang = some g ∧ g.alive = true ∧
    s.matrixHeld core (spadPa core g.spad) o = false ∧ (((matTouched
    o).foldl (fun x j => x.canaryHit (some g.ctx) j (coreInst core) 0 none) t).matRun core (spadPa core g.spad) o = .ok
    (u, d))) ∧
    (∃ (s t : State) (k : Nat) (m : Cmd) (v : Lanes), Tab.at? s.cmds k = some m ∧ m.isOver = false ∧ s.runRest m m.what = .ok t v) ∧
    (∃ (s t : State) (k : Nat) (m : Cmd) (a f : Nat) (cause : Cause), Tab.at? s.cmds k = some m ∧ m.isOver = false ∧
    s.runRest m m.what = .fail t cause a f) ∧
    (∃ (s t u : State) (k : Nat) (m : Cmd) (v : Lanes) (p : EngPlan) (a f r mk : Nat), Tab.at? s.cmds k = some m ∧ m.isOver
    = false ∧ m.what = .fork a f r (BitVec.ofNat 32 mk) ∧ s.reached m = .plan t p ∧ t.runRest
    { m with tile := p.tile } p.what = .ok u v) ∧
    (∃ (s t : State) (ms : List Member) (q : Member) (ks : List Nat) (fails : Bool), s.meet ks = some (t, q :: ms, []) ∧ t.allHere (q :: ms) = true ∧
    ((q :: ms).all fun x => x.group.tag == q.group.tag && !t.collBefore x) = true ∧ t.cutOff (q :: ms) = false ∧
    (fails = true ∨ ((q :: ms).all fun x => x.group.ok && agree q x) = false)) ∧
    (∃ (s t u z : State) (ms : List Member) (q : Member) (ks : List Nat) (loc rem : List (Nat × List Byte)) (ins : List (List
    Byte)), s.meet ks = some (t, q :: ms, []) ∧ t.allHere (q :: ms) = true ∧
    ((q :: ms).all fun x => x.group.tag == q.group.tag && !t.collBefore x) = true ∧ t.cutOff (q :: ms) = false ∧ ((q :: ms).all fun x => x.group.ok && agree q x) = true ∧
    (rem.all fun r => !t.ownRank (q.group.ranks.getD r.1 0)
      && r.2.length == (q.coll.input ((q :: ms).map fun x => x.coll.root) q.group.nrank r.1).2) = true ∧
    readInputs ((q :: ms).map fun x => x.coll.root) (q :: ms) t = some (.ok (u, loc)) ∧
    byRank q.group.nrank (loc ++ rem) = some ins ∧ writeOutputs ins (q :: ms) u = some z) ∧
    (∃ (s t : State) (ms : List Member) (q : Member) (ks : List Nat), s.meet ks = some (t, q :: ms, []) ∧ t.allHere (q :: ms) = true ∧
    ((q :: ms).all fun x => x.group.tag == q.group.tag && !t.collBefore x) = true ∧ t.cutOff (q :: ms) = true) ∧
    (∃ (s : State) (c va attr : Nat) (w : Crew), s.crew? c = some w ∧ w.park = some (.pmap va attr) ∧ w.waitEvt = none ∧ 8
    ≤ attr) ∧
    (∃ (s t : State) (c va attr : Nat) (w : Crew) (f : Nat), s.crew? c = some w ∧ w.park = some (.pmap va attr) ∧
    w.waitEvt = none ∧ attr < 8 ∧ s.mapPage (s.ctxOf w) (dieOf (s.coreOf w)) va attr = .mapped t f) ∧
    (∃ (s : State) (c va attr : Nat) (w : Crew) (f : Nat), s.crew? c = some w ∧ w.park = some (.pmap va attr) ∧ w.waitEvt
    = none ∧ attr < 8 ∧ s.mapPage (s.ctxOf w) (dieOf (s.coreOf w)) va attr = .present f) ∧
    (∃ (s : State) (c va attr : Nat) (w : Crew), s.crew? c = some w ∧ w.park = some (.pmap va attr) ∧ w.waitEvt = none ∧
    attr < 8 ∧ s.mapPage (s.ctxOf w) (dieOf (s.coreOf w)) va attr = .empty) ∧
    (∃ (s : State) (c : Nat) (w : Crew) (page : Option Nat), s.crew? c = some w ∧ w.park = some (.tlbinv page) ∧ w.waitEvt
    = none ∧ s.xlatInUse (s.ctxOf w) (s.purged (s.ctxOf w) page) = false) ∧
    (∃ (s : State) (slot : BitVec 7), s.sec.zeroing.contains slot.toNat = true) ∧
    (∃ (s : State) (i b n e : Nat), s.sec.scrub.state = 1 ∧ scrubPlace s.sec.scrub.list 0 s.sec.scrub.prog.toNat = some
    (i, b, n, e)) ∧
    (∃ (s : State) (i b n e : Nat), s.sec.scrub.state = 1 ∧ scrubPlace s.sec.scrub.list 0 s.sec.scrub.prog.toNat = some
    (i, b, n, e)) :=
  ⟨⟨m19, (m19.modCore 0 fun x => { x with mats := [] }), (mrS (State.matRun ((matTouched mat0).foldl (fun x j =>
    State.canaryHit x (some (gg m19).ctx) j (coreInst 0) 0 none) (m19.modCore 0 fun x => { x with mats := [] })) 0
    (spadPa 0 (gg m19).spad) mat0)).1, 0, mat0, [], gg m19, (mrS (State.matRun ((matTouched mat0).foldl (fun x j =>
    State.canaryHit x (some (gg m19).ctx) j (coreInst 0) 0 none) (m19.modCore 0 fun x => { x with mats := [] })) 0
    (spadPa 0 (gg m19).spad) mat0)).2, by decide +kernel, rfl, by decide +kernel, by decide +kernel, by decide +kernel, mr_is (by
    decide +kernel)⟩,
   ⟨withCmd m0 (c0 0 .nothing), ioS (State.runCmd (withCmd m0 (c0 0 .nothing)) (c0 0 .nothing) .nothing), 60, c0 0
    .nothing, ioV zeroLanes (State.runCmd (withCmd m0 (c0 0 .nothing)) (c0 0 .nothing) .nothing), by decide +kernel, by
    decide +kernel, io_is (by decide +kernel)⟩,
   ⟨withCmd m0 (c0 0 k1), ioF (State.runCmd (withCmd m0 (c0 0 k1)) (c0 0 k1) k1), 60, c0 0 k1, 0x300000, 0, cMemFault, by
    decide +kernel, by decide +kernel, iof_is (by decide +kernel)⟩,
   ⟨m17, at17.1, ioS run17, 60, k17, ioV zeroLanes run17, at17.2, 0x200800, 1, 0, 1, by decide +kernel, by decide +kernel, by
    decide +kernel, rd_is (by decide +kernel), io_is (by decide +kernel)⟩,
   ⟨m18 true 5, (met (m18 true 5)).1, [], mem0 (m18 true 5), [60], true, by decide +kernel, by decide +kernel, by
    decide +kernel, by decide +kernel, .inl rfl⟩,
   ⟨m18 true 5, (met (m18 true 5)).1, (inp (m18 true 5)).1, _, [], mem0 (m18 true 5), [60], (inp (m18 true 5)).2, [(1,
    bytesLE 4 7)], optD [] (byRank 2 ((inp (m18 true 5)).2 ++ [(1, bytesLE 4 7)])), by decide +kernel, by decide +kernel, by
    decide +kernel, by decide +kernel, by decide +kernel, by decide +kernel, inp_is (by decide +kernel), opt_is (by
    decide +kernel), opt_is (d := m0) (by decide +kernel)⟩,
   ⟨m18 false 5, (met (m18 false 5)).1, [], mem0 (m18 false 5), [60], by decide +kernel⟩,
   ⟨m20 (.pmap 0x210000 9) [], 2, 0x210000, 9, me (m20 (.pmap 0x210000 9) []), by decide +kernel⟩,
   ⟨m20 (.pmap 0x210000 7) [0x300000], mpS (State.mapPage (m20 (.pmap 0x210000 7) [0x300000]) 1 0 0x210000 7), 2,
    0x210000, 7, me (m20 (.pmap 0x210000 7) [0x300000]), 0x300000, by decide +kernel, by decide +kernel, by
    decide +kernel, by decide +kernel, mp_is (by decide +kernel)⟩,
   ⟨m20 (.pmap 0x200000 7) [], 2, 0x200000, 7, me (m20 (.pmap 0x200000 7) []), 0x200000, by decide +kernel⟩,
   ⟨m20 (.pmap 0x210000 7) [], 2, 0x210000, 7, me (m20 (.pmap 0x210000 7) []), by decide +kernel⟩,
   ⟨m20 (.tlbinv none) [], 2, me (m20 (.tlbinv none) []), none, by decide +kernel⟩,
   ⟨{ m0 with sec := { m0.sec with zeroing := [5] } }, 5, by decide +kernel⟩,
   ⟨m21, 0, 0x300000, 0x1000, 0, by decide +kernel⟩,
   ⟨m21, 0, 0x300000, 0x1000, 0, by decide +kernel⟩⟩

theorem witness_QueueHappenings :
    (∃ (s : State) (q opc : Nat) (bs : List Byte), s.headOf q = .ready opc bs ∧ opc = 0) ∧
    (∃ (s : State) (q opc : Nat) (bs : List Byte), s.headOf q = .ready opc bs ∧ opc = 1) ∧
    (∃ (s t : State) (q opc : Nat) (bs : List Byte) (p : Packet), s.headOf q = .ready opc bs ∧ opc = 2 ∧
    p = { unit := (s.queue q).head.toNat, opc := 2, addr := recField bs 8 63 0, val := recField bs 16 63 0,
          grid := none, halt := false } ∧
    (s.started q 1 (some p)).writeSys false (s.queue q).ctx p.addr (bytesLE 8 p.val) = .ok t) ∧
    (∃ (s : State) (q opc : Nat) (bs : List Byte) (p : Packet) (e : Cause), s.headOf q = .ready opc bs ∧ opc = 2 ∧
    p = { unit := (s.queue q).head.toNat, opc := 2, addr := recField bs 8 63 0, val := recField bs 16 63 0,
          grid := none, halt := false } ∧
    (s.started q 1 (some p)).writeSys false (s.queue q).ctx p.addr (bytesLE 8 p.val) = .error e) ∧
    (∃ (s : State) (q opc : Nat) (bs : List Byte), s.headOf q = .ready opc bs ∧ opc = 3) ∧
    (∃ (s : State) (q opc : Nat) (bs : List Byte), s.headOf q = .ready opc bs ∧ opc = 4) ∧
    (∃ (s : State) (q code va : Nat) (o : Option Nat), s.headOf q = .halt code o va ∧ o = some 0) ∧
    (∃ (s : State) (q code va : Nat) (o : Option Nat), s.headOf q = .halt code o va ∧ o = some 1) ∧
    (∃ (s : State) (q code va : Nat) (o : Option Nat), s.headOf q = .halt code o va ∧ o = some 2) ∧
    (∃ (s : State) (q code va : Nat) (o : Option Nat), s.headOf q = .halt code o va ∧ o = some 3) ∧
    (∃ (s : State) (q code va : Nat) (o : Option Nat), s.headOf q = .halt code o va ∧ o = some 4) ∧
    (∃ (s : State), s.sec.boot = 3) ∧
    (∃ (s : State) (q u : Nat) (bs : List Byte) (p : Packet), s.waitAt q u = some p ∧ s.readSys false (s.queue q).ctx p.addr 8 =
    .ok bs ∧ p.val ≤ ofBytesLE bs) ∧
    (∃ (s : State) (q u : Nat) (p : Packet) (e : Cause), s.waitAt q u = some p ∧ s.readSys false (s.queue q).ctx p.addr 8 =
    .error e) ∧
    (∃ (q : Nat), q < 1024) ∧
    (∃ (s : State) (q : Nat), q < 1024 ∧ (s.queue q).halt = false) ∧
    (∃ (s : State) (q : Nat), q < 1024 ∧ (s.queue q).halt = true) ∧
    (∃ (s : State) (q : Nat), q < 1024 ∧ ((s.queue q).open_.any fun r => r.opc == 2) = false) ∧
    (∃ (s : State) (q : Nat) (p : Packet), q < 1024 ∧ (s.queue q).open_ = [p] ∧ p.opc = 2) :=
  ⟨⟨m23 1 (0) 0 0, 0, 0, units 1 (0) 0 0, by decide +kernel⟩,
   ⟨m23 4 (1 + 3 * 512) 0 0, 0, 1, units 4 (1 + 3 * 512) 0 0, by decide +kernel⟩,
   ⟨m44 0x200300, xcS ((sig0 0x200300).writeSys false 1 0x200300 (bytesLE 8 5)), 0, 2, units 1 2 0x200300 5, p1 0x200300,
    by decide +kernel, by decide +kernel, by decide +kernel, xc_is (by decide +kernel)⟩,
   ⟨m44 0x210300, 0, 2, units 1 2 0x210300 5, p1 0x210300, cPoison, by decide +kernel, by decide +kernel, by decide +kernel,
    xc_is (by decide +kernel)⟩,
   ⟨m23 1 (3) 0x200300 5, 0, 3, units 1 (3) 0x200300 5, by decide +kernel⟩,
   ⟨m23 1 (4 + 5 * 65536) 0 0, 0, 4, units 1 (4 + 5 * 65536) 0 0, by decide +kernel⟩,
   ⟨m23 1 (0 + 2 ^ 15) 0 0, 0, 2, 0, some 0, by decide +kernel⟩,
   ⟨m23 4 (1 + 3 * 512 + 2 ^ 15) 0 0, 0, 2, 0, some 1, by decide +kernel⟩,
   ⟨m23 1 (2 + 2 ^ 15) 0 0, 0, 2, 0, some 2, by decide +kernel⟩,
   ⟨m23 1 (3 + 2 ^ 15) 0 0, 0, 2, 0, some 3, by decide +kernel⟩,
   ⟨m23 1 (4 + 2 ^ 15) 0 0, 0, 2, 0, some 4, by decide +kernel⟩,
   ⟨{ m0 with sec := { m0.sec with boot := 3 } }, by decide +kernel⟩,
   ⟨m24 0x200300, 0, 0, List.replicate 8 0#8, p0 0x200300, by decide +kernel, xc_is (by decide +kernel), by decide +kernel⟩,
   ⟨m24 0x300000, 0, 0, p0 0x300000, cMemFault, by decide +kernel, xc_is (by decide +kernel)⟩,
   ⟨0, by decide +kernel⟩,
   ⟨m1, 0, by decide +kernel⟩,
   ⟨m0.setQueue 0 { Queue.reset with halt := true }, 0, by decide +kernel⟩,
   ⟨m24 0x300000, 0, by decide +kernel⟩,
   ⟨m24b, 0, { p0 0x200300 with opc := 2, halt := true }, by decide +kernel⟩⟩

theorem witness_ContextHappenings :
    (∃ (s : State) (c : Nat), c < 65536 ∧ (s.ctx c).pre = 0) ∧
    (∃ (s : State) (c : Nat) (d : BitVec 32), c < 65536 ∧ (s.ctx c).pre = 0 ∧ d ≠ 0) ∧
    (∃ (s : State) (c : Nat), c < 65536 ∧ (s.ctx c).pre ≠ 0) ∧
    (∃ (s : State) (c : Nat), c < 65536 ∧ (s.ctx c).pre = 0) ∧
    (∃ (s : State) (c : Nat), c < 65536 ∧ (s.ctx c).pre = 1) ∧
    (∃ (s : State) (c : Nat), c < 65536 ∧ 2 ≤ (s.ctx c).pre.toNat ∧ (s.ctx c).restore = none) ∧
    (∃ (s : State) (c : Nat), c < 65536 ∧ (s.ctx c).pre = 1) ∧
    (∃ (s : State) (c : Nat), c < 65536 ∧ (s.ctx c).pre = 2 ∧ s.stopReady c = true) ∧
    (∃ (s t u z : State) (c n : Nat), c < 65536 ∧ (s.ctx c).restore = some n ∧ (s.ctx c).pre = 3 ∧ s.olderRestore n (s.restoreCores c) =
    false ∧ reloadAll c (s.restoreCores c) s = some t ∧ landGangs (s.savedGangs c) t = some u ∧ u.replayLog c = .ok z) ∧
    (∃ (c : Nat), c < 65536) :=
  ⟨⟨pre 0 none, 1, by decide +kernel⟩,
   ⟨pre 0 none, 1, 1, by decide +kernel⟩,
   ⟨pre 1 none, 1, by decide +kernel⟩,
   ⟨pre 0 none, 1, by decide +kernel⟩,
   ⟨pre 1 none, 1, by decide +kernel⟩,
   ⟨pre 3 none, 1, by decide +kernel⟩,
   ⟨pre 1 none, 1, by decide +kernel⟩,
   ⟨pre 2 none, 1, by decide +kernel⟩,
   ⟨m25, _, _, _, 1, 0, by decide +kernel, by decide +kernel, by decide +kernel, by decide +kernel,
    opt_is (d := m0) (by decide +kernel), opt_is (d := m0) (by decide +kernel), ok_is (by decide +kernel)⟩,
   ⟨1, by decide +kernel⟩⟩

theorem witness_DebugHappenings :
    (∃ (s t : State) (ctx : Nat) (h b : List Byte), ctx < 65536 ∧ (s.ctx ctx).mbox ≠ 0 ∧ (s.ctx ctx).prot = false ∧
    s.readSys false ctx (s.ctx ctx).mbox 16 = .ok h ∧ t = s.passSys ctx .read (s.ctx ctx).mbox 512 ∧ recField h 0 63 32 = ((s.ctx ctx).mbSeq + 1).toNat ∧ t.readSys false ctx
    ((s.ctx ctx).mbox + 16) (min (recField h 0 31 16) 496) = .ok b ∧ 1 ≤ recField h 0 7 0 ∧ recField h 0 7 0 ≤ 10) ∧
    (∃ (ctx : Nat), ctx < 65536) ∧
    (∃ (s : State) (ctx : Nat) (q : MbReq), s.request ctx = some q ∧ q.op = 1 ∧ q.zeros = true ∧ q.body = []) ∧
    (∃ (s : State) (ctx c : Nat) (q : MbReq) (w : Crew), Asks s ctx q 2 c w ∧ q.body = []) ∧
    (∃ (s : State) (ctx c : Nat) (q : MbReq) (w : Crew) (bd : Binding) (e : Entry), Asks s ctx q 3 c w ∧ q.body.length = 1
    ∧ byteAt q.body 0 < 0xC0 ∧ s.nameAt w (byteAt q.body 0) = some (bd, e)) ∧
    (∃ (s : State) (ctx c : Nat) (q : MbReq) (w : Crew) (bd : Binding) (e : Entry) (k n : Nat), Asks s ctx q 4 c w ∧
    q.body.length = 136 ∧ n = byteAt q.body 0 ∧ k = byteAt q.body 1 ∧ n < 0xC0 ∧ 1 ≤ k ∧ k ≤ 15 ∧ zeroBytes q.body 2 6 =
    true ∧ s.nameAt w n = some (bd, e) ∧ e.st = .bound) ∧
    (∃ (s : State) (ctx c : Nat) (q : MbReq) (w : Crew) (k n : Nat), Asks s ctx q 4 c w ∧ q.body.length = 136 ∧ n = byteAt
    q.body 0 ∧ k = byteAt q.body 1 ∧ n < 0xC0 ∧ 1 ≤ k ∧ k ≤ 15 ∧ zeroBytes q.body 2 6 = true ∧ s.nameAt w n = none ∧
    w.marks = [] ∧ s.needOk c 1 = true ∧ s.canBind c n = true) ∧
    (∃ (s : State) (ctx c : Nat) (q : MbReq) (w : Crew) (n : Nat), Asks s ctx q 5 c w ∧ q.body.length = 1 ∧ n = byteAt
    q.body 0 ∧ n < 0xC0 ∧ s.nameAt w n = none) ∧
    (∃ (s : State) (ctx c : Nat) (q : MbReq) (w : Crew) (bd : Binding) (e : Entry) (n : Nat), Asks s ctx q 5 c w ∧
    q.body.length = 1 ∧ n = byteAt q.body 0 ∧ n < 0xC0 ∧ s.nameAt w n = some (bd, e) ∧ e.st ≠ .leased ∧
    ∀ p, s.named c n = some p → p.2.st ≠ .leased) ∧
    (∃ (s : State) (ctx c : Nat) (q : MbReq) (w : Crew) (k n : Nat), Asks s ctx q 6 c w ∧ q.body.length = 2 ∧ n = byteAt
    q.body 0 ∧ k = byteAt q.body 1 ∧ 1 ≤ k ∧ k ≤ 32 ∧ n + k ≤ 63) ∧
    (∃ (s : State) (ctx c : Nat) (q : MbReq) (w : Crew), Asks s ctx q 7 c w ∧ q.body.length = 16 ∧ byteAt q.body 0 ≤ 62 ∧
    zeroBytes q.body 1 7 = true) ∧
    (∃ (s : State) (ctx c : Nat) (q : MbReq) (w : Crew) (g : Gang) (n : Nat), Asks s ctx q 8 c w ∧ q.body.length = 16 ∧ n
    = ofBytesLE (q.body.take 2) ∧ mbCsr n = true ∧ zeroBytes q.body 2 6 = true ∧ s.gang? w.gang = some g) ∧
    (∃ (s : State) (ctx c : Nat) (q : MbReq) (w : Crew), Asks s ctx q 9 c w ∧ q.body = [] ∧ w.notice = none) ∧
    (∃ (s : State) (ctx : Nat) (q : MbReq) (b : List Byte) (n : Nat), s.request ctx = some q ∧ q.op = 10 ∧ q.zeros =
    true ∧ q.body.length = 10 ∧ n = ofBytesLE ((q.body.drop 8).take 2) ∧ 1 ≤ n ∧ n ≤ 496 ∧ s.readRange ctx (ofBytesLE
    (q.body.take 8)) n = .ok b) ∧
    (∃ (s : State) (core i : Nat) (r : Sampler), r = (s.core core).smp ∧ r.en = true ∧ r.per ≠ 0 ∧ i = r.sampled ∧ Tab.at?
    (s.core core).slots i = none) ∧
    (∃ (s : State) (c core : Nat) (w : Crew) (i : Nat) (r : Sampler) (sl : Slot), r = (s.core core).smp ∧ r.en = true ∧
    r.per ≠ 0 ∧ i = r.sampled ∧ Tab.at? (s.core core).slots i = some sl ∧ sl.crew = some c ∧ s.crew? c = some w ∧ w.empty
    = false ∧ s.observes r (s.ctxOf w) = true ∧ w.park = none ∧ s.triable w = true) ∧
    (∃ (s : State) (c core : Nat) (w : Crew) (i : Nat) (r : Sampler) (sl : Slot) (p : Park), r = (s.core core).smp ∧
    r.en = true ∧ r.per ≠ 0 ∧ i = r.sampled ∧ Tab.at? (s.core core).slots i = some sl ∧ sl.crew = some c ∧ s.crew? c = some w ∧
    w.empty = false ∧ s.observes r (s.ctxOf w) = true ∧ w.park = some p ∧ s.cur ≠ some c) ∧
    (∃ (core : Nat), core < 192) :=
  ⟨⟨m28 (bytesLE 8 (9 + 2 ^ 32)), _, 1, bytesLE 8 (9 + 2 ^ 32) ++ List.replicate 8 0#8, [], by decide +kernel, by
    decide +kernel, by decide +kernel, xc_is (by decide +kernel), rfl, by decide +kernel, xc_is (by decide +kernel), by decide +kernel⟩,
   ⟨1, by decide +kernel⟩,
   ⟨m26 (m0) 1 ([]), 1, req0 1 ([]), by decide +kernel⟩,
   ⟨m26 (m0) 2 ([]), 1, 2, req0 2 ([]), me (m26 (m0) 2 ([])), asks_of (by decide +kernel), by decide +kernel⟩,
   ⟨m26 (named m0 1 3 5) 3 ([1]), 1, 2, req0 3 ([1]), me (m26 (named m0 1 3 5) 3 ([1])), (optD (⟨0, 0⟩, e0) (State.nameAt
    (m26 (named m0 1 3 5) 3 ([1])) (me (m26 (named m0 1 3 5) 3 ([1]))) 1)).1, (optD (⟨0, 0⟩, e0) (State.nameAt (m26
    (named m0 1 3 5) 3 ([1])) (me (m26 (named m0 1 3 5) 3 ([1]))) 1)).2, asks_of (by decide +kernel), by decide +kernel,
    by decide +kernel, opt2_is (by decide +kernel)⟩,
   ⟨m26 (named m0 1 3 5) 4 ([1, 2] ++ List.replicate 134 0#8), 1, 2, req0 4 ([1, 2] ++ List.replicate 134 0#8), me (m26
    (named m0 1 3 5) 4 ([1, 2] ++ List.replicate 134 0#8)), (optD (⟨0, 0⟩, e0) (State.nameAt (m26 (named m0 1 3 5) 4 ([1,
    2] ++ List.replicate 134 0#8)) (me (m26 (named m0 1 3 5) 4 ([1, 2] ++ List.replicate 134 0#8))) 1)).1, (optD (⟨0, 0⟩,
    e0) (State.nameAt (m26 (named m0 1 3 5) 4 ([1, 2] ++ List.replicate 134 0#8)) (me (m26 (named m0 1 3 5) 4 ([1, 2] ++
    List.replicate 134 0#8))) 1)).2, 2, 1, asks_of (by decide +kernel), by decide +kernel, by decide +kernel, by
    decide +kernel, by decide +kernel, by decide +kernel, by decide +kernel, by decide +kernel, opt2_is (by
    decide +kernel), by decide +kernel⟩,
   ⟨m26 (m0) 4 ([1, 2] ++ List.replicate 134 0#8), 1, 2, req0 4 ([1, 2] ++ List.replicate 134 0#8), me (m26 (m0) 4 ([1, 2]
    ++ List.replicate 134 0#8)), 2, 1, asks_of (by decide +kernel), by decide +kernel⟩,
   ⟨m26 (m0) 5 ([1]), 1, 2, req0 5 ([1]), me (m26 (m0) 5 ([1])), 1, asks_of (by decide +kernel), by decide +kernel⟩,
   ⟨m26 (named m0 1 3 5) 5 ([1]), 1, 2, req0 5 ([1]), me (m26 (named m0 1 3 5) 5 ([1])), (optD (⟨0, 0⟩, e0) (State.nameAt
    (m26 (named m0 1 3 5) 5 ([1])) (me (m26 (named m0 1 3 5) 5 ([1]))) 1)).1, (optD (⟨0, 0⟩, e0) (State.nameAt (m26
    (named m0 1 3 5) 5 ([1])) (me (m26 (named m0 1 3 5) 5 ([1]))) 1)).2, 1, asks_of (by decide +kernel), by
    decide +kernel, by decide +kernel, by decide +kernel, opt2_is (by decide +kernel), by decide +kernel⟩,
   ⟨m26 (m0) 6 ([1, 2]), 1, 2, req0 6 ([1, 2]), me (m26 (m0) 6 ([1, 2])), 2, 1, asks_of (by decide +kernel), by decide +kernel⟩,
   ⟨m26 (m0) 7 ([1] ++ List.replicate 15 0#8), 1, 2, req0 7 ([1] ++ List.replicate 15 0#8), me (m26 (m0) 7 ([1] ++
    List.replicate 15 0#8)), asks_of (by decide +kernel), by decide +kernel⟩,
   ⟨m26 (m0) 8 ([0x58] ++ List.replicate 15 0#8), 1, 2, req0 8 ([0x58] ++ List.replicate 15 0#8), me (m26 (m0) 8 ([0x58]
    ++ List.replicate 15 0#8)), gg (m26 (m0) 8 ([0x58] ++ List.replicate 15 0#8)), 0x58, asks_of (by decide +kernel), by decide +kernel⟩,
   ⟨m26 (m0) 9 ([]), 1, 2, req0 9 ([]), me (m26 (m0) 9 ([])), asks_of (by decide +kernel), by decide +kernel⟩,
   ⟨m26 (m0) 10 (bytesLE 8 0x200000 ++ [4, 0]), 1, req0 10 (bytesLE 8 0x200000 ++ [4, 0]), List.replicate 4 0#8, 4, by
    decide +kernel, by decide +kernel, by decide +kernel, by decide +kernel, by decide +kernel, by decide +kernel, by
    decide +kernel, ex_is (by decide +kernel)⟩,
   ⟨m27 false, 0, 0, smp0, by decide +kernel⟩,
   ⟨m27 true, 2, 0, me (m27 true), 0, smp0, optD ⟨1, 0, 0, 0, 0, none⟩ (Tab.at? (State.core (m27 true) 0).slots 0), by decide +kernel⟩,
   ⟨m27b, 2, 0, me m27b, 0, smp0, optD ⟨1, 0, 0, 0, 0, none⟩ (Tab.at? (State.core m27b 0).slots 0), .matrix, by
    decide +kernel⟩,
   ⟨0, by decide +kernel⟩⟩

theorem witness_SecurityCommands :
    (∃ (s : State) (slot : BitVec 7), s.fillRefused slot.toNat = true) ∧
    (∃ (s : State) (slot : BitVec 7), s.fillRefused slot.toNat = false) ∧
    (∃ (s : State) (h body : List Byte), s.sec.boot = 3 ∧ s.sec.fwState ≠ 1 ∧ s.readFree s.sec.fwimg 4096 = some h ∧ headerOk h [2, 3] =
    true ∧ s.readFree (s.sec.fwimg + 4096) (imgField h 16 8) = some body) ∧
    (∃ (s : State), s.sec.boot = 3 ∧ s.sec.fwState = 1) ∧
    (∃ (s : State), s.sec.fwState ≠ 1) ∧
    (∃ (s : State), s.sec.fwState = 1) ∧
    (∃ (v : DWord), v[0] = false) ∧
    (∃ (v : DWord), v[0] = true) ∧
    (∃ (v : DWord), v[0] = false) ∧
    (∃ (s : State) (v : DWord), v[0] = true ∧ s.sec.scrub.state = 1) ∧
    (∃ (s : State) (v : DWord) (es : List AsgEntry) (c n : Nat), v[0] = true ∧ s.sec.scrub.state ≠ 1 ∧ c = fld v 63 48 ∧ n
    = fld v 44 32 ∧ 1 ≤ n ∧ n ≤ 4096 ∧ (s.readFree s.sec.asgAddr (16 * n)).isSome = true ∧
    (s.ctx c).prot = true ∧ (es = (List.range n).map (fun i => asgEntry (s.mem.read (s.sec.asgAddr + 16 * i) 16))) ∧
    asgOk es = true ∧ (((es.map AsgEntry.resources).flatten.any fun r => (s.ownerOf r).isSome) = false)) :=
  ⟨⟨m0, 0, by decide +kernel⟩,
   ⟨m0, 5, by decide +kernel⟩,
   ⟨m29, hdr0, Memory.read m29.mem 0x301000 4096, rfl, by decide +kernel, m29_header, by decide +kernel, m29_body⟩,
   ⟨{ m0 with sec := { m0.sec with boot := 3, fwState := 1 } }, by decide +kernel⟩,
   ⟨m0, by decide +kernel⟩,
   ⟨{ m0 with sec := { m0.sec with fwState := 1 } }, by decide +kernel⟩,
   ⟨0, by decide +kernel⟩,
   ⟨1, by decide +kernel⟩,
   ⟨0, by decide +kernel⟩,
   ⟨m7 1 0 0, 1, by decide +kernel⟩,
   ⟨m30, 0x0007000100000001, _, 7, 1, by decide +kernel, by decide +kernel, by decide +kernel, by decide +kernel, by decide +kernel, by decide +kernel, by decide +kernel, by decide +kernel, rfl, by decide +kernel⟩⟩

theorem witness_ArbiterHappenings :
    (∃ (s : State) (v : DWord), s.sec.boot = 3 ∧ v[0] = false) ∧
    (∃ (s : State) (v : DWord) (tab : List Byte), s.sec.boot = 3 ∧ v[0] = true ∧ tab = s.mem.read (fld v 51 11 * 2048) 2048 ∧
    hbmOk (fld v 51 11 * 2048) 2048 = true ∧ s.frameFree (fld v 51 11 * 2048) = true ∧ s.badLines (fld v 51 11 * 2048) 2048 = false ∧ tableOk tab = true) ∧
    (∃ (s : State) (v : DWord) (tab : List Byte), s.sec.boot = 3 ∧ v[0] = true ∧ tab = s.mem.read (fld v 51 11 * 2048) 2048 ∧
    (hbmOk (fld v 51 11 * 2048) 2048 = false ∨ s.frameFree (fld v 51 11 * 2048) = false ∨ s.badLines (fld v 51 11 * 2048) 2048 = true ∨ tableOk tab = false)) ∧
    (∃ (s : State) (v : DWord), (fld v 11 0 < 900 ∨ 2600 < fld v 11 0 ∨ fld v 11 0 = s.arb.cap.toNat)) ∧
    (∃ (s : State) (v : DWord), 900 ≤ fld v 11 0 ∧ fld v 11 0 ≤ 2600 ∧ fld v 11 0 ≠ s.arb.cap.toNat) ∧
    (∃ (s : State) (tab : List Byte), s.arb.table = some tab ∧ s.arb.move = none ∧ (s.found tab).same s.arb.grant = false) ∧
    (∃ (s : State) (d : GrantDue), s.arb.pend = some d) ∧
    (∃ (s : State) (d : GrantDue), s.arb.move = some d) ∧
    (∃ (s : State) (temp : Nat), s.arb.table = none ∧ temp ≤ 255) ∧
    (∃ (s : State) (tab : List Byte) (temp : Nat), s.arb.table = some tab ∧ temp ≤ 255) ∧
    (∃ (k dom : Nat), uvExists k dom = true) :=
  ⟨⟨m31, 0, by decide +kernel⟩,
   ⟨m31, 0x300001, tab0, rfl, by decide +kernel, m31_table, by decide +kernel, by decide +kernel, by decide +kernel, tab0_ok⟩,
   ⟨m31, 0x000FFFFFFFFFF801, Memory.read m31.mem (fld 0x000FFFFFFFFFF801#64 51 11 * 2048) 2048, rfl, by decide +kernel, rfl, .inl
    (by decide +kernel)⟩,
   ⟨m0, 1, .inl (by decide +kernel)⟩,
   ⟨m0, 1000, by decide +kernel⟩,
   ⟨m46, [], by decide +kernel⟩,
   ⟨{ m0 with arb := { m0.arb with pend := some due0 } }, due0, by decide +kernel⟩,
   ⟨{ m0 with arb := { m0.arb with move := some due0 } }, due0, by decide +kernel⟩,
   ⟨m0, 255, by decide +kernel⟩,
   ⟨{ m0 with arb := { m0.arb with table := some [] } }, [], 255, by decide +kernel⟩,
   ⟨4, 3, by decide +kernel⟩⟩

theorem witness_ErrorHappenings :
    (∃ (s : State) (kind : BitVec 8) (inst : BitVec 16) (n : Nat), unitExists kind.toNat inst.toNat = true ∧ n = Tab.getD
    s.rel.window (unitKey kind.toNat inst.toNat) 0 + 1 ∧ (kindDomain kind.toNat = none ∨ n ≠ Config.errThreshold kind +
    1)) ∧
    (∃ (s : State) (kind : BitVec 8) (inst : BitVec 16) (n d : Nat), unitExists kind.toNat inst.toNat = true ∧ n =
    Tab.getD s.rel.window (unitKey kind.toNat inst.toNat) 0 + 1 ∧ kindDomain kind.toNat = some d ∧ n =
    Config.errThreshold kind + 1) ∧
    (∃ (s u : State) (kind : BitVec 8) (inst inst2 : BitVec 16) (addr : DWord) (d : Nat),
    unitExists kind.toNat inst.toNat = true ∧ unitExists kind.toNat inst2.toNat = true ∧
    inst.toNat / 4096 = inst2.toNat / 4096 ∧ kindDomain kind.toNat = some d ∧
    0 < s.unitStep kind.toNat inst.toNat ∧ 0 < s.unitStep kind.toNat inst2.toNat ∧
    (s.countError kind inst addr).crosses kind inst = true ∧
    u = (s.countError kind inst addr).countError kind inst2 addr ∧
    u.crosses kind inst2 = true) ∧
    (∃ (s t : State) (kind : BitVec 8) (inst : BitVec 16) (loc : ErrLoc), (kind = 0x0E ∨ unitExists kind.toNat inst.toNat
    = true) ∧ locFits loc s kind.toNat inst.toNat = true ∧ ((s.modLife kind.toNat inst.toNat fun l =>
    { l with ue := min (l.ue + 1) (2 ^ 64 - 1) }).markError kind.toNat inst.toNat loc = some t)) ∧
    (∃ (s : State) (big : Bool) (ctx va target size first : Nat) (es : List DWord) (e0 : DWord), (s.ctx ctx).promote =
    true ∧ (size = (if big then 0x2000000 else 0x200000)) ∧ va % size = 0 ∧ target % size = 0 ∧ hbmOk target size = true
    ∧ s.walkTo ctx va = .ok first ∧ s.leaves ctx (first - 8 * leafIx va) va (size / 65536) = some (e0 :: es) ∧ (((e0 ::
    es).all fun e => sourceOk e0 e big) = true) ∧ pteAddr e0 / 0x2000000000 = target / 0x2000000000 ∧
    (((List.range (size / 65536)).zip (e0 :: es)).all fun p => s.frameOk ctx (piecePa p.1 p.2)) = true ∧ ((((List.range
    (size / 65536)).map fun i => target + 65536 * i).all fun f => (s.poolOf (hbmDie target)).contains f && s.frameOk ctx
    f) = true) ∧ ((s.xlatInUse ctx fun a => decide (va ≤ a) && decide (a < va + size)) =
    false)) :=
  ⟨⟨m33 (Config.errThreshold 1 + 1), 1, 0, Config.errThreshold 1 + 2, by decide +kernel, rfl, .inr (by simp)⟩,
   ⟨m33 (Config.errThreshold 1), 1, 0, Config.errThreshold 1 + 1, 1, by decide +kernel, rfl, by decide +kernel, rfl⟩,
   ⟨m45, _, 1, 0, 1, 0, 1, by decide +kernel, by decide +kernel, by decide +kernel, by decide +kernel, by decide +kernel, by
    decide +kernel, m45_one, rfl, m45_two⟩,
   ⟨m0, optD m0 (State.markError (State.modLife m0 1 0 fun l => { l with ue := min (l.ue + 1) (2 ^ 64 - 1) }) 1 0 (.slot 0
    0 0)), 1, 0, .slot 0 0 0, .inr (by decide +kernel), by decide +kernel, opt_is (by decide +kernel)⟩,
   ⟨m32, false, 1, 0x200000, 0x800000, 0x200000, wkS (State.walkTo m32 1 0x200000), lv.drop 1, lv.headD 0, by
    decide +kernel, by decide +kernel, by decide +kernel, by decide +kernel, by decide +kernel, wk_is (by
    decide +kernel), optc_is (by decide +kernel), by decide +kernel⟩⟩

theorem witness_HostHappenings :
    (∃ (s : State), s.net.host = true) ∧
    (∃ (s : State) (pa n : Nat), s.net.host = true ∧ ¬((n = 4 ∨ n = 8) ∧ pa % n = 0)) ∧
    (∃ (s : State) (pa : Nat), s.net.host = true ∧ ¬((8 = 4 ∨ 8 = 8) ∧ pa % 8 = 0)) ∧
    (∃ (s : State) (pa n : Nat), s.net.host = true ∧ (n = 4 ∨ n = 8) ∧ pa % n = 0) ∧
    (∃ (s : State) (off size : Nat), s.net.host = true ∧ off < 0x4000000 ∧ barOk off size = false) ∧
    (∃ (s : State) (off size : Nat), s.net.host = true ∧ off < 0x4000000 ∧ barOk off size = true ∧
    barOf (off / 8 * 8) = .none) ∧
    (∃ (s : State), s.net.id.toNat < 1016) ∧
    (∃ (s : State) (l : Nat) (k : Link), k = Tab.getD s.net.links l Link.reset ∧ k.up = true) ∧
    (∃ (s : State) (l : Nat) (k : Link), k = Tab.getD s.net.links l Link.reset ∧ k.up = false ∧ l < 18) ∧
    (∃ (port pair : Nat), port < 4 ∧ 1 ≤ pair ∧ pair ≤ 64) ∧
    (∃ (s : State) (pa : Nat) (bs : List Byte) (key : Nat), hbmOk pa bs.length = true ∧ bs ≠ [] ∧ pa % 65536 + bs.length ≤
    65536 ∧ s.frameKey pa = some key) ∧
    (∃ (s : State) (pa n key : Nat), hbmOk pa n = true ∧ n ≠ 0 ∧ pa % 65536 + n ≤ 65536 ∧ s.frameKey pa = some key) :=
  ⟨⟨m0, by decide +kernel⟩,
   ⟨m0, 0, 2, by decide +kernel⟩,
   ⟨m0, 0x300FFC, by decide +kernel⟩,
   ⟨m0, 0x300FF8, 8, by decide +kernel⟩,
   ⟨m0, 0x3FFFFFC, 8, by decide +kernel⟩,
   ⟨m0, 0x3FFFFF8, 8, by decide +kernel⟩,
   ⟨{ m0 with net := { m0.net with id := 0 } }, by decide +kernel⟩,
   ⟨{ m0 with net := { m0.net with links := [(3, { Link.reset with up := true })] } }, 3, { Link.reset with up := true },
    by decide +kernel⟩,
   ⟨m0, 17, Link.reset, by decide +kernel⟩,
   ⟨3, 64, by decide +kernel⟩,
   ⟨m0, 0x30FFFF, [1], 0, by decide +kernel⟩,
   ⟨m0, 0x300000, 65536, 0, by decide +kernel⟩⟩

theorem witness_PoisonClear :
    (∃ (die line : Nat) (v : DWord) (ok : Bool), line = fld v 51 7 ∧ ok = (v[0] && fld v 6 1 == 0 && fld v 63 52 == 0 &&
    hbmOk (128 * line) 128 && hbmDie (128 * line) == die) ∧ ok = false) ∧
    (∃ (die line : Nat) (v : DWord) (ok : Bool), line = fld v 51 7 ∧ ok = (v[0] && fld v 6 1 == 0 && fld v 63 52 == 0 &&
    hbmOk (128 * line) 128 && hbmDie (128 * line) == die) ∧ ok = true) :=
  ⟨⟨0, _, 0, _, rfl, rfl, by decide +kernel⟩,
   ⟨0, _, 0x300001, _, rfl, rfl, by decide +kernel⟩⟩

theorem witness_LaneFrame :
    ∃ (i : Instr) (opc n : Nat) (f : FnT) (x : Ops) (s s0 s1 : State) (c : Nat) (w : Crew), laneForm i = some (opc, f, x,
    n) ∧ Issues s c w x ∧ s0 = s.opens c w opc x ∧ s0.sourcesOk c f x n = true ∧ s1 = s0.afterSources c f x n ∧ s1.outOk
    c f x f.ty.wide = true :=
  ⟨.iadd ⟨0, false, 0, .n32⟩ o1, 0x20, 2, ⟨0, false, 0, .n32⟩, o1, m1, State.opens m1 2 (me m1) 0x20 o1,
    State.afterSources (State.opens m1 2 (me m1) 0x20 o1) 2 ⟨0, false, 0, .n32⟩ o1 2, 2, me m1, rfl, issues_of (by
    decide +kernel), by decide +kernel⟩

theorem witness_NoOperation :
    ∃ (s : State) (c : Nat) (w : Crew) (x : Ops), Issues s c w x :=
  ⟨m0, 2, me m0, o3 0, issues_of (by decide +kernel)⟩

theorem witness_StoreBytes :
    ∃ (s : State) (c a K : Nat) (y : Crew) (b : Access) (lanes : Mask),
    s.MemOk ∧ s.access? c a = some (y, b) ∧ b.kind = .store ∧ b.spad = true ∧ s.mayPerform c y b lanes = true ∧
    s.syncLanes b lanes = none ∧ s.canaries y b lanes = s ∧
    b.place = some ((lanesOf b.lanes).map fun l => (l.val, ⟨K + at0 b.addr l.val, 0⟩)) ∧ lanes &&& ~~~ b.lanes = 0 ∧
    (∀ l : Fin 32, lanes[l] = true → s.mergesMarked (K + at0 b.addr l.val) b.size = false) :=
  ⟨withAcc m0 a2, 2, 50, winBase, me (withAcc m0 a2), a2, 1, m0_ok, by decide +kernel, by decide +kernel, by decide +kernel,
    by decide +kernel, by decide +kernel, by decide +kernel, by decide +kernel, by decide +kernel,
    fun l h => by rw [one_lane h]; decide +kernel⟩

theorem witness_DecodeEncode_1 : ∃ i : Instr, i.WellFormed ∧ i.parts.isSome = true :=
  ⟨nop0, by decide +kernel⟩

theorem witness_DecodeEncode_2 : ∃ (bs : List Byte) (i : Instr) (rest : List Byte), decode bs = .ok (i, rest) :=
  ⟨List.replicate 8 0#8, nop0, [], dec_is (by decide +kernel)⟩

theorem witness_StepKeepsMemory : ∃ s t : State, s.MemOk ∧ step s = .next t :=
  ⟨n0, nx (step n0), by show Memory.wf _ = true; decide +kernel, nx_is (by decide +kernel)⟩

/-- The crew of a machine about to step, that machine with its agenda empty, the machine after the fetch, and the run. -/
def u0 (n : State) : State := { n with agenda := [] }
def ft (n : State) : State :=
  ioS ((u0 n).readVa ((u0 n).crewAgent (me (u0 n)) 0x200000) .fetch 0x200000 4)

def ran (n : State) (i : Instr) : Host.Outcome State Fault Refusal :=
  exec i { (ft n).issueCanaries (me (u0 n)) with cur := some 2 }

/-- The fixture about to wait for an event, its quadrant served up to slot 0. -/
def n1 : State :=
  (State.reset.placeBytes (encodeBytes ew0)).modCore 0 fun k => { k with last := k.last.set 0 0 }

/-- The fixture before a word of a reserved opcode, and before a NOP in a poisoned line. -/
def n2 : State := State.reset.placeBytes [0, 0x0A, 0, 0, 0, 0, 0, 0]
def n3 : State := { n0 with poison := [0x200000 / 128] }

theorem witness_StepRunsDecoded_1 :
    ∃ (s u t v z : State) (core quad c sl : Nat) (w : Crew) (ps : List Pending) (before after : List Nat) (bs rest : List Byte)
    (i : Instr), u = { s with agenda := ps } ∧ s.agenda = .issue core quad :: ps ∧ core < 192 ∧ quad < 4 ∧
    u.searchOrder core quad = before ++ sl :: after ∧ (∀ j ∈ before, u.crewIn core j = none) ∧ u.crewIn core sl = some c ∧
    Ready u c w ∧ Fetches u w t bs ∧ decode bs = .ok (i, rest) ∧
    exec i { t.issueCanaries w with cur := some c } = .next v ∧ z = { v with cur := none }.noteGrant t c w ∧
    wentOn u z c = true :=
  ⟨n0, u0 n0, ft n0, nx (ran n0 nop0), _, 0, 0, 2, 0, me (u0 n0), [], [], (u0 n0).searchOrder 0 0 |>.drop 1,
    List.replicate 8 0#8, [], nop0, rfl, by decide +kernel, by decide, by decide, by decide +kernel, by simp,
    by decide +kernel, ready_of (by decide +kernel), fetches_of (by decide +kernel), dec_is (by decide +kernel),
    nx_is (by decide +kernel), rfl, by decide +kernel⟩

theorem witness_StepRunsDecoded_2 :
    ∃ (s u t v z : State) (core quad c sl : Nat) (w : Crew) (ps : List Pending) (before after : List Nat) (bs rest : List Byte)
    (i : Instr), u = { s with agenda := ps } ∧ s.agenda = .issue core quad :: ps ∧ core < 192 ∧ quad < 4 ∧
    u.searchOrder core quad = before ++ sl :: after ∧ (∀ j ∈ before, u.crewIn core j = none) ∧ u.crewIn core sl = some c ∧
    Ready u c w ∧ Fetches u w t bs ∧ decode bs = .ok (i, rest) ∧
    exec i { t.issueCanaries w with cur := some c } = .next v ∧ z = { v with cur := none }.noteGrant t c w ∧
    wentOn u z c = false ∧ after = [] :=
  ⟨n1, u0 n1, ft n1, nx (ran n1 ew0), _, 0, 0, 2, 0, me (u0 n1), [], ((u0 n1).searchOrder 0 0).dropLast, [],
    encodeBytes ew0, [], ew0, rfl, by decide +kernel, by decide, by decide, by decide +kernel, by decide +kernel,
    by decide +kernel, ready_of (by decide +kernel), fetches_of (by decide +kernel), dec_is (by decide +kernel),
    nx_is (by decide +kernel), rfl, by decide +kernel, rfl⟩

theorem witness_StepRunsDecoded_3 :
    ∃ (s u : State) (ps : List Pending) (i : Instr), u = { s with agenda := ps } ∧ s.agenda = .event i :: ps ∧
    i.WellFormed ∧ i.parts = none :=
  ⟨{ m0 with agenda := [.event .hoistRound] }, _, [], .hoistRound, rfl, rfl, by decide +kernel⟩

theorem witness_StepRunsDecoded_4 :
    ∃ (s v : State) (q : Nat) (b : Bool), s.agenda = [] ∧ s.turn % 2 = 0 ∧ s.nextQuad 768 (s.turn / 2) = some q ∧
    s.issueQuad (q / 4) (q % 4) = .next (v, b) :=
  ⟨u0 n0, (qnS ((u0 n0).issueQuad 0 0)).1, 0, (qnS ((u0 n0).issueQuad 0 0)).2, by decide +kernel, by decide +kernel,
    by decide +kernel, qn_is (by decide +kernel)⟩

theorem witness_StepRunsDecoded_5 :
    ∃ (s u t z : State) (core quad c sl a : Nat) (w : Crew) (ps : List Pending) (before after : List Nat) (cause : Cause),
    u = { s with agenda := ps } ∧ s.agenda = .issue core quad :: ps ∧ core < 192 ∧ quad < 4 ∧
    u.searchOrder core quad = before ++ sl :: after ∧ (∀ j ∈ before, u.crewIn core j = none) ∧ u.crewIn core sl = some c ∧
    Ready u c w ∧ FetchTraps u w t cause a ∧ w.acc = [] ∧
    z = t.takeTrap c cause a w.arch.act w.arch.pc ⟨w.arch, w.seq⟩ ∧ wentOn u z c = true :=
  ⟨n2, u0 n2, ft n2, _, 0, 0, 2, 0, 0, me (u0 n2), [], [], (u0 n2).searchOrder 0 0 |>.drop 1, cIllop, rfl, by decide +kernel,
    by decide, by decide, by decide +kernel, by simp, by decide +kernel, ready_of (by decide +kernel),
    .noInstr [0, 0x0A, 0, 0, 0, 0, 0, 0] (decE [0, 0x0A, 0, 0, 0, 0, 0, 0]) (fetches_of (by decide +kernel))
      (decE_is (by decide +kernel)), by decide +kernel, rfl, by decide +kernel⟩

theorem witness_StepRunsDecoded_6 :
    ∃ (s u t z : State) (core quad c sl a kind inst : Nat) (w : Crew) (ps : List Pending) (before after : List Nat),
    u = { s with agenda := ps } ∧ s.agenda = .issue core quad :: ps ∧ core < 192 ∧ quad < 4 ∧
    u.searchOrder core quad = before ++ sl :: after ∧ (∀ j ∈ before, u.crewIn core j = none) ∧ u.crewIn core sl = some c ∧
    Ready u c w ∧ FetchKills u w t kind inst a ∧ z = t.killPoison c w.arch.pc.toNat kind inst a ∧ wentOn u z c = true :=
  ⟨n3, u0 n3, ioF ((u0 n3).fetchBytes (me (u0 n3)) 4), _, 0, 0, 2, 0, 0x200000, _, _, me (u0 n3), [], [],
    (u0 n3).searchOrder 0 0 |>.drop 1, rfl, by decide +kernel, by decide, by decide, by decide +kernel, by simp,
    by decide +kernel, ready_of (by decide +kernel), .first (.inr ⟨0x200000, iof_is (by decide +kernel), rfl, rfl⟩), rfl,
    by decide +kernel⟩

end Sys2Proof.Tests
end

/-!
PROOFS of the family 01_machine_state.md: taking a trap (O23, O24), privileged forms (O25), what happens to crews (O43), and
counts, open entries and the faults of names (O17).
-/

namespace Sys2Proof.Machine

open Sys2Proof

/-! ## Taking a trap (R21, R23, R25) -/

/-- The level of a trap is the first one, from `l` on, that can take it (R23). -/
theorem trapLevel_first {x : Crew} {k : Ctx} {n l m : Nat} (hl : l ≤ m) (hm : m < l + n)
    (free : (x.trapSet m).act = false) (vec : vector (k.evec m) ≠ 0#52)
    (taken : ∀ j, l ≤ j → j < m → (x.trapSet j).act = true ∨ vector (k.evec j) = 0#52) :
    trapLevel x k n l = some m := by
  induction n generalizing l with
  | zero => omega
  | succ n ih =>
    unfold trapLevel
    rcases Nat.eq_or_lt_of_le hl with rfl | hlt
    · rw [if_neg (by simp [free, vec])]
    · rw [if_pos (by simpa using taken l (Nat.le_refl l) hlt)]
      exact ih hlt (by omega) fun j hj => taken j (by omega)

/-- No level remains where each is active or has no vector (R23). -/
theorem trapLevel_none {x : Crew} {k : Ctx} {n l : Nat}
    (taken : ∀ j, l ≤ j → j < l + n → (x.trapSet j).act = true ∨ vector (k.evec j) = 0#52) :
    trapLevel x k n l = none := by
  induction n generalizing l with
  | zero => rfl
  | succ n ih =>
    unfold trapLevel
    rw [if_pos (by simpa using taken l (Nat.le_refl l) (by omega))]
    exact ih fun j hj hlt => taken j (by omega) (by omega)

/-- Crew `y` is in the gang, at the level and with the trap registers of crew `w`: what a rollback leaves (R21). -/
structure Crew.SameTraps (w y : Crew) : Prop where
  gang : y.gang = w.gang
  priv : y.priv = w.priv
  sets : ∀ j, y.trapSet j = w.trapSet j

/-- Two crews with the same trap registers take a trap at the same level. -/
theorem Crew.SameTraps.level {w y : Crew} (h : w.SameTraps y) (k : Ctx) (n l : Nat) :
    trapLevel y k n l = trapLevel w k n l := trapLevel_congr w y k (h.sets 0) (h.sets 1) (h.sets 2) n l

/-- A rollback moves the crew to its checkpoint, with accesses outstanding or not, but keeps its trap registers (R21). -/
theorem State.rollback_sameTraps {s : State} {c : Nat} {w : Crew} (now : Snap) (hw : s.crew? c = some w) :
    ∃ y, (s.rollback c now).crew? c = some y ∧ w.SameTraps y := by
  unfold State.rollback
  simp only [hw]
  exact ⟨_, State.crew_setCrew _ _ _, rfl, rfl, fun _ => rfl⟩

/-- A rollback leaves every gang and every context. -/
theorem State.rollback_gangs_ctxs (s : State) (c : Nat) (now : Snap) :
    (s.rollback c now).gangs = s.gangs ∧ (s.rollback c now).ctxs = s.ctxs := by
  unfold State.rollback
  split
  · exact ⟨rfl, rfl⟩
  · dsimp only
    split <;> exact ⟨rfl, rfl⟩

/-- The vectors that a crew finds after its rollback are those before it. -/
theorem State.rollback_ctx {s : State} {c : Nat} {w y : Crew} (now : Snap) (h : w.SameTraps y) :
    (s.rollback c now).ctx ((s.rollback c now).ctxOf y) = s.ctx (s.ctxOf w) := by
  obtain ⟨hg, hc⟩ := s.rollback_gangs_ctxs c now
  unfold State.ctx State.ctxOf State.gang?
  rw [hg, hc, h.gang]

/-- A trap whose level is `l`: the crew as its rollback leaves it enters the handler of that level (R23). -/
theorem State.takeTrap_enters {s : State} {c l : Nat} {w x : Crew} {cause : Cause} {addr : Nat} {lanes : Mask} {efpc : Addr}
    {now : Snap} (hw : s.crew? c = some w) (hx : (s.rollback c now).crew? c = some x) (same : w.SameTraps x)
    (hl : trapLevel w (s.ctx (s.ctxOf w)) (3 - max (causeTarget cause) w.priv.toNat)
      (max (causeTarget cause) w.priv.toNat) = some l) :
    ∃ y h, (s.takeTrap c cause addr lanes efpc now).crew? c = some y ∧
      h = x.enter l cause addr lanes efpc (vector ((s.ctx (s.ctxOf w)).evec l)) ∧
      (∀ j, y.trapSet j = h.trapSet j) ∧ y.arch = h.arch ∧ y.priv = h.priv ∧ y.park = none := by
  refine ⟨{ x.enter l cause addr lanes efpc (vector ((s.ctx (s.ctxOf w)).evec l)) with seq := w.seq + 1 }, _, ?_, rfl,
    fun _ => rfl, rfl, rfl, rfl⟩
  unfold State.takeTrap
  simp only [hw, hx, State.rollback_ctx now same, same.level, same.priv, hl, State.crew_setCrew]

/-- Where no level remains, the gang of the crew is killed (R23, R313). -/
theorem State.takeTrap_kills {s : State} {c : Nat} {w x : Crew} {cause : Cause} {addr : Nat} {lanes : Mask} {efpc : Addr}
    {now : Snap} (hw : s.crew? c = some w) (hx : (s.rollback c now).crew? c = some x) (same : w.SameTraps x)
    (hl : trapLevel w (s.ctx (s.ctxOf w)) (3 - max (causeTarget cause) w.priv.toNat)
      (max (causeTarget cause) w.priv.toNat) = none) :
    s.takeTrap c cause addr lanes efpc now = (s.rollback c now).gangKill w.gang
      { cause := cause, kind := 0, inst := coreInst ((s.rollback c now).coreOf x),
        addr := if cause = cPoison then addr else 0,
        crew := (s.rollback c now).crewId x, pc := efpc.toNat, again := true } := by
  unfold State.takeTrap
  simp only [hw, hx, State.rollback_ctx now same, same.level, same.priv, hl, same.gang]

/-- The trap register sets of the three levels are three registers (R23). -/
theorem Crew.trapSet_setTrapSet_ne (y : Crew) {l j : Nat} (t : TrapSet) (hl : l ≤ 2) (hj : j ≤ 2) (hne : j ≠ l) :
    (y.setTrapSet l t).trapSet j = y.trapSet j := by
  match l, j with
  | 0, 0 => exact absurd rfl hne
  | 0, 1 => rfl
  | 0, _ + 2 => rfl
  | 1, 0 => rfl
  | 1, 1 => exact absurd rfl hne
  | 1, _ + 2 => rfl
  | _ + 2, 0 => rfl
  | _ + 2, 1 => rfl
  | m + 2, n + 2 => omega

/-- Entering a handler changes the trap register set of its level alone (R23). -/
theorem Crew.enter_trapSet_ne (x : Crew) {l j : Nat} (cause : Cause) (addr : Nat) (lanes : Mask) (efpc vec : Addr)
    (hl : l ≤ 2) (hj : j ≤ 2) (hne : j ≠ l) : (x.enter l cause addr lanes efpc vec).trapSet j = x.trapSet j :=
  x.trapSet_setTrapSet_ne _ hl hj hne

/-- Settles O23: the crew that enters its handler is the crew as the rollback leaves it, and without an outstanding access
that is the crew before the trap but for its dead lanes. -/
theorem trapEntry : Obligations.TrapEntry := by
  unfold Obligations.TrapEntry
  intro s c w cause addr l l0 lanes efpc k hw hacc hk hl0 hl
  subst hk hl0
  obtain ⟨x, hx, same⟩ := State.rollback_sameTraps ⟨w.arch, w.seq⟩ hw
  obtain ⟨y, hy, -, -, -, -, -, ns, harch⟩ := State.rollback_crew ⟨w.arch, w.seq⟩ hw hacc
  obtain rfl : x = y := Option.some.inj (hx.symm.trans hy)
  obtain ⟨v, h, hv, rfl, hsets, harchV, hprivV, hpark⟩ :=
    State.takeTrap_enters (addr := addr) (lanes := lanes) (efpc := efpc) hw hx same hl
  obtain ⟨hset, hpc, hlevel, hm7, hscal, hact⟩ :=
    x.enter_regs l cause addr lanes efpc (vector ((s.ctx (s.ctxOf w)).evec l))
  refine ⟨v, hv, ?_⟩
  rw [hsets, hset, harchV, hpc, hprivV, hlevel, hm7, hscal, hact, same.priv, harch]
  exact ⟨rfl, rfl, rfl, rfl, rfl, rfl, rfl, rfl, rfl, rfl, rfl, rfl, hpark⟩

/-- Settles O24: the level of a trap is found before anything of the crew but its checkpoint has moved. -/
theorem trapLevels : Obligations.TrapLevels := by
  unfold Obligations.TrapLevels
  intro s c w z cause addr l0 lanes efpc now k hw hk hl0
  subst hk hl0
  obtain ⟨x, hx, same⟩ := State.rollback_sameTraps now hw
  refine ⟨fun l h0 h2 hact hvec taken => ?_, fun taken hz => ?_⟩
  · have hl := trapLevel_first (n := 3 - max (causeTarget cause) w.priv.toNat) h0 (by omega) hact hvec taken
    obtain ⟨v, h, hv, rfl, hsets, harchV, hprivV, -⟩ :=
      State.takeTrap_enters (addr := addr) (lanes := lanes) (efpc := efpc) hw hx same hl
    obtain ⟨hset, hpc, hlevel, -⟩ := x.enter_regs l cause addr lanes efpc (vector ((s.ctx (s.ctxOf w)).evec l))
    refine ⟨v, hv, ?_⟩
    rw [hsets, hset, harchV, hpc, hprivV, hlevel]
    exact ⟨rfl, rfl, rfl, rfl, same.priv, fun j hj hne =>
      (hsets j).trans ((x.enter_trapSet_ne cause addr lanes efpc _ h2 hj hne).trans (same.sets j))⟩
  · obtain rfl : x = z := Option.some.inj (hx.symm.trans hz)
    exact State.takeTrap_kills hw hx same (trapLevel_none fun j hj hlt => taken j hj (by omega))

/-! ## Instructions that stop with a trap (R21, R23) -/

/-- A switch marker that has nothing to wait for does not hold the instruction back (R91). -/
theorem Issues.goes {s : State} {c : Nat} {w : Crew} {x : Ops} (h : Issues s c w x) :
    (x.head.sw && switchWaits w (s.core (s.coreOf w)).vs) = false := by
  cases hx : x.head.sw with
  | false => rfl
  | true => exact h.sw hx

/-- An instruction that does not fold itself first, and whose effect stops, stops where its effect does (R105, R107). -/
theorem issue_passed_error {s t : State} {c opc : Nat} {w : Crew} {x : Ops} {body : M Unit} {e : Stop}
    (h : Issues s c w x) (hb : body (s.setCrew c (w.passed x)) = .error e t) :
    issue c opc x false false body s = .error e t := by
  unfold issue
  refine (M.bind_ok (crewM_run h.crew)).trans ((M.bind_ok (vsM_run h.crew)).trans ?_)
  simp only [h.goes, Bool.false_and, Bool.false_eq_true, if_false]
  refine (M.bind_ok (modC_run _ h.crew)).trans ((M.bind_ok (modC_setCrew _ _ _ _)).trans ?_)
  exact M.bind_error (f := fun _ => finish c w) hb

/-- A crew whose instruction stops with a trap that names its lanes takes that trap (R23). -/
theorem crewStep_trap {s t : State} {c : Nat} {w : Crew} {x : Ops} {body : Nat → M Unit} {cause : Cause} {addr : Nat}
    {m : Mask} (h : Issues s c w x) (hb : body c s = .error (.trap cause addr (some m)) t) :
    crewStep x.head body s = .next (t.trapped s c w cause addr m) := by
  simp [crewStep, h.cur, h.crew, hb, settleIssue, State.trapped]

/-- A crew below the level traps PROT with its active lanes, once no access is outstanding (R55, R56). -/
theorem needPriv_error {s : State} {c level : Nat} {w : Crew} (hw : s.crew? c = some w) (ha : w.acc = [])
    (h : w.priv.toNat < level) : needPriv c level s = .error (.trap cProt 0 (some w.arch.act)) s := by
  unfold needPriv
  refine (M.bind_ok (crewM_run hw)).trans ?_
  rw [if_pos h]
  unfold raiseAtCheckpoint
  refine (M.bind_ok (crewM_run hw)).trans ?_
  simp [ha, stop]

/-- A form that checks its level once it has begun (R26). -/
theorem issueStep_lowPriv {s : State} {c level opc : Nat} {w : Crew} {x : Ops} {rest : Nat → Unit → M Unit}
    (h : Issues s c w x) (ha : w.acc = []) (hp : w.priv.toNat < level) :
    issueStep opc x true (fun k => needPriv k level >>= rest k) s
      = .next ((s.opens c w opc x).trapped s c w cProt 0 w.arch.act) := by
  refine crewStep_trap h (issue_error h (fun _ => ha) (M.bind_error ?_))
  rw [needPriv_error (s.opens_crew c w opc x) ((w.begun_acc opc x).trans ha) (by rwa [Crew.begun_priv]), Crew.begun_act]

/-- A form that checks its level before it begins (R184, R185, R212). -/
theorem crewStep_lowPriv {s : State} {c level : Nat} {w : Crew} {x : Ops} {rest : Nat → Unit → M Unit}
    (h : Issues s c w x) (ha : w.acc = []) (hp : w.priv.toNat < level) :
    crewStep x.head (fun k => needPriv k level >>= rest k) s = .next (s.trapped s c w cProt 0 w.arch.act) :=
  crewStep_trap h (M.bind_error (needPriv_error h.crew ha hp))

/-- Settles O25: each of the seven forms checks its level before anything else: CSRR before its own fold, CSRW, SCRUB and
CTXFREE once they have begun, PMAP, TLBINV and KZERO before. -/
theorem privilege : Obligations.Privilege := by
  unfold Obligations.Privilege
  intro i x s t c level w h ha hf hp
  unfold privForm at hf
  split at hf
  case h_1 k x =>
    cases hf
    have hlow := needPriv_error (w := w.passed x) (State.crew_setCrew s c _) ha hp
    exact crewStep_trap h (issue_passed_error h (M.bind_error hlow))
  case h_2 k x => cases hf; exact issueStep_lowPriv h ha hp
  case h_3 x => cases hf; exact crewStep_lowPriv h ha hp
  case h_4 f x => cases hf; exact crewStep_lowPriv h ha hp
  case h_5 x => cases hf; exact crewStep_lowPriv h ha hp
  case h_6 x => cases hf; exact issueStep_lowPriv h ha hp
  case h_7 x => cases hf; exact issueStep_lowPriv h ha hp
  case h_8 => cases hf

/-! ## What happens to crews -/

/-- TAKE_TRAP of a cause that a crew can take (R23, R25). -/
theorem execTakeTrap_raised {s : State} {c : Nat} {w : Crew} {cause : BitVec 8} (addr : DWord) (lanes : Mask)
    (hw : s.crew? c = some w) (hc : causeRaised cause = true) :
    execTakeTrap c cause addr lanes s = .next (s.takeTrap c cause addr.toNat lanes w.arch.pc ⟨w.arch, w.seq⟩) := by
  unfold execTakeTrap
  simp only [hw, hc, if_true]

/-- CREW_RETIRE of an empty crew that nothing is outstanding of (R86, R155). -/
theorem execCrewRetire_empty {s : State} {c core sl : Nat} {w : Crew} (hw : s.crew? c = some w) (hh : w.home = .slot core sl)
    (he : w.empty = true) (ha : w.acc = []) (hm : s.hasMatrix core c = false) (hf : w.frame = []) :
    execCrewRetire c s = .next (s.retired c core sl w) := by
  have hpass : (!w.empty || !w.acc.isEmpty || s.hasMatrix core c || !w.frame.isEmpty) = false := by simp [he, ha, hm, hf]
  unfold execCrewRetire
  simp only [hw, hh, hpass, Bool.false_eq_true, if_false]
  rfl

/-- CREW_EVICT where the victim's image can be spilled (R98, R99). -/
theorem execCrewEvict_spilled {s t : State} {c core : Nat} {w : Crew} (hv : s.victim core = some c) (hw : s.crew? c = some w)
    (hm : s.hasMatrix core c = false) (ht : (s.liftCrew c (fun _ => true) (.evicted core)).spillCrew c = .ok t) :
    execCrewEvict core s = .next (t.trySwapOut w.gang) := by
  unfold execCrewEvict
  simp only [hv, hw, hm, ht, Bool.false_eq_true, if_false]

/-- CREW_RESTORE into a free slot, of an image that nobody has altered (R100). -/
theorem execCrewRestore_intact {s t : State} {c sl : Nat} {w : Crew} (hw : s.crew? c = some w)
    (hr : s.restorable (s.coreOf w) c w = true) (hs : sl < 64) (hfree : Tab.at? (s.core (s.coreOf w)).slots sl = none)
    (hi : s.crewIntact w = true) (hl : s.landCrew c (s.coreOf w) sl = some t) :
    execCrewRestore c sl s = .next (t.modCrew c fun z => { z with stamp := [] }) := by
  have hpass : (!(s.restorable (s.coreOf w) c w) || !(decide (sl < 64))
      || (Tab.at? (s.core (s.coreOf w)).slots sl).isSome) = false := by simp [hr, hs, hfree]
  unfold execCrewRestore
  simp only [hw, hpass, hi, hl, Bool.not_true, Bool.false_eq_true, if_false]

/-- AUTOMATIC_RESUME of a ready bin that resumes (R191, R192). -/
theorem execAutomaticResume_done {s t : State} {g bin d : Nat} (ha : s.autoBin g bin = true)
    (hd : s.resumeBin g bin = .done t d) : execAutomaticResume g bin s = .next t := by
  unfold execAutomaticResume
  simp only [ha, hd, Bool.not_true, Bool.false_eq_true, if_false]

/-- RESUMED_CREW_BIND where every name of the frame finds its place (R192). -/
theorem execResumedCrewBind_bound {s t : State} {c : Nat} {w : Crew} {y : Gang} (hw : s.crew? c = some w)
    (hf : w.frame ≠ []) (hr : w.resident = true) (hg : s.gang? w.gang = some y) (hlim : w.frame.length ≤ y.vslim)
    (hwait : w.want = none ∨ s.yieldsSpace (s.coreOf w) c w = false) (hb : bindAll c w.frame s = .ok () t) :
    execResumedCrewBind c s = .next (t.modCrew c fun z => { z with frame := [], park := none, seq := z.seq + 1 }) := by
  have hpass : (w.frame.isEmpty || !w.resident) = false := by simp [hf, hr]
  have hturn : (w.want.isSome && s.yieldsSpace (s.coreOf w) c w) = false := by
    rcases hwait with h | h <;> simp [h]
  unfold execResumedCrewBind
  simp only [hw, hpass, hg, Nat.not_lt.2 hlim, hturn, hb, Bool.false_eq_true, if_false]

/-- STOP_NOTICE to a mailbox whose NACK holds the number of the last notice (R329, R335). -/
theorem execStopNotice_written {s u : State} {c : Nat} {w : Crew} {b : List Byte} {old : Bool} (hw : s.crew? c = some w)
    (hn : w.notice = some old) (hp : w.park = some .debug) (hr : w.resident = true) (hmb : (s.ctx (s.ctxOf w)).mbox ≠ 0)
    (hprot : (s.ctx (s.ctxOf w)).prot = false)
    (hread : s.readSys false (s.ctxOf w) ((s.ctx (s.ctxOf w)).mbox + 0x600) 8 = .ok b)
    (hack : ofBytesLE b = (s.ctx (s.ctxOf w)).mbNtc.toNat)
    (hwrite : s.mbWrite (s.ctxOf w) 0x400 (mbHeader ((s.ctx (s.ctxOf w)).mbNtc + 1).toNat 64 0 0x81 (s.crewId w))
        (stopBody w (if old then 0 else w.setS.code.toNat)) = some u) :
    execStopNotice c s = .next ((u.modCtx (s.ctxOf w) fun k => { k with mbNtc := k.mbNtc + 1 }).modCrew c fun z =>
      { z with notice := none }) := by
  unfold execStopNotice
  simp only [hw, hn, hp, hr, hmb, hprot, hread, hack, hwrite, ne_eq, not_true, Bool.not_true, Bool.or_self, decide_false,
    Bool.false_eq_true, if_false]

/-- Settles O43: each happening whose conditions hold does what its clause says. -/
theorem crewHappenings : Obligations.CrewHappenings := by
  unfold Obligations.CrewHappenings
  intro s t u c d core sl g bin ctx w y cause addr lanes b old
  refine ⟨execTakeTrap_raised addr lanes, execCrewRetire_empty, execCrewEvict_spilled, fun hw hk => ?_,
    execAutomaticResume_done, execResumedCrewBind_bound, fun hw hc => ?_⟩
  · subst hk; exact execCrewRestore_intact hw
  · subst hc; exact execStopNotice_written hw

/-! ## Names that cannot be used (R30, R33) -/

/-- A name that is not bound to an entry is not found. -/
theorem lookup_unbound {s : State} {c n : Nat} {w : Crew} (hw : s.crew? c = some w) (hm : w.marks = [])
    (h : s.named c n = none) : lookup c n s = .error (.trap cNameFault 0 none) s := by
  simp only [State.named, hw] at h
  unfold lookup
  refine (M.bind_ok (useItem_clean _ hw hm)).trans ((M.bind_ok (crewM_run hw)).trans ((M.bind_ok (vsM_run hw)).trans ?_))
  cases hb : Tab.at? w.arch.names n with
  | none => rfl
  | some b =>
    cases he : Tab.at? (s.core (s.coreOf w)).vs b.entry with
    | none => simp only [he]; rfl
    | some e => simp [hb, he] at h

/-- The state checks of a read refuse a leased entry. -/
theorem checkReadable_leased {e : Entry} (s : State) (h : e.st = .leased) :
    checkReadable e s = .error (.trap cLease 0 none) s := by
  unfold checkReadable; rw [h]; rfl

/-- The state checks of a read refuse an entry that is pending or open. -/
theorem checkReadable_pending {e : Entry} (s : State) (h : e.st = .pending ∨ e.st = .opened) :
    checkReadable e s = .error (.trap cPendRead 0 none) s := by
  unfold checkReadable; rcases h with h | h <;> rw [h] <;> rfl

/-- Reading an unbound name (R30). -/
theorem readName_unbound {s : State} {c n : Nat} {w : Crew} (use : Mask) (hw : s.crew? c = some w) (hm : w.marks = [])
    (h : s.named c n = none) : readName c n use s = .error (.trap cNameFault 0 none) s :=
  M.bind_error (lookup_unbound hw hm h)

/-- Reading a name whose entry the state checks refuse (R30). -/
theorem readName_refused {s : State} {c n : Nat} {w : Crew} {b : Binding} {e : Entry} {k : Stop} (use : Mask)
    (hw : s.crew? c = some w) (hm : w.marks = []) (h : s.named c n = some (b, e)) (hk : checkReadable e s = .error k s) :
    readName c n use s = .error k s :=
  (M.bind_ok (lookup_run hw hm h)).trans (M.bind_error hk)

/-- A source whose first name cannot be read stops the instruction (R39, R113). -/
theorem readSrc_error {s : State} {c : Nat} {w : Crew} {h : Head} {code : BitVec 8} {wide : Bool} {k : Stop}
    (hw : s.crew? c = some w) (hm : w.marks = []) (hv : isVec code = true)
    (hk : readName c code.toNat (w.arch.emask h) s = .error k s) : readSrc c h code wide s = .error k s := by
  unfold readSrc
  rw [if_pos hv]
  exact (M.bind_ok (emask_run h hw hm)).trans (M.bind_error hk)

/-- A leased name is not dropped (R33). -/
theorem dropName_leased {s : State} {c n : Nat} {w : Crew} {b : Binding} {e : Entry} (hw : s.crew? c = some w)
    (hm : w.marks = []) (h : s.named c n = some (b, e)) (hl : e.st = .leased) :
    dropName c n s = .error (.trap cLease 0 none) s := by
  unfold dropName
  refine (M.bind_ok (lookup_run hw hm h)).trans ((M.bind_ok (crewM_run hw)).trans ?_)
  simp only [hl]
  rfl

/-! ## Destinations that cannot be bound (R25, R31, R94) -/

/-- A check that fails raises its cause. -/
theorem check_error (k : Cause) (s : State) : check false k s = .error (.trap k 0 none) s := rfl

/-- Every name of a destination is tested for NAMELIVE. -/
theorem checkNames_run (names : Tab Binding) (ns : List Nat) (s : State) :
    (ns.forM fun n => check (Tab.at? names n).isNone cNameLive : M Unit) s
      = if ns.all fun n => (Tab.at? names n).isNone then .ok () s else .error (.trap cNameLive 0 none) s := by
  induction ns with
  | nil => rfl
  | cons n ns ih =>
    show (check (Tab.at? names n).isNone cNameLive >>= fun _ => ns.forM _ : M Unit) s = _
    rw [List.all_cons]
    cases hn : (Tab.at? names n).isNone with
    | true => exact (M.bind_ok (check_run rfl)).trans ih
    | false => exact M.bind_error (check_error _ _)

/-- A bound name among those to bind faults NAMELIVE. -/
theorem allocNames_live {s : State} {c : Nat} {w : Crew} {ns : List Nat} (count : Nat) (st : EState)
    (hw : s.crew? c = some w) (h : s.unbound c ns = false) :
    allocNames c ns count st s = .error (.trap cNameLive 0 none) s := by
  simp only [State.unbound, hw] at h
  unfold allocNames
  refine (M.bind_ok (crewM_run hw)).trans (M.bind_error ?_)
  rw [checkNames_run, h]
  rfl

/-- Names that are all unbound, but more than the crew's need leaves room for, fault VSEXHAUST. -/
theorem allocNames_exhausted {s : State} {c : Nat} {w : Crew} {g : Gang} {ns : List Nat} (count : Nat) (st : EState)
    (hw : s.crew? c = some w) (hg : s.gang? w.gang = some g) (h : s.unbound c ns = true)
    (need : s.needOk c ns.length = false) : allocNames c ns count st s = .error (.trap cVsExhaust 0 none) s := by
  simp only [State.unbound, hw] at h
  simp only [State.needOk, hw, hg] at need
  unfold allocNames
  refine (M.bind_ok (crewM_run hw)).trans ((M.bind_ok (a := ()) (t := s) ?_).trans ?_)
  · rw [checkNames_run, h]; rfl
  refine (M.bind_ok (gangM_run hw hg)).trans ((M.bind_ok (vsM_run hw)).trans (M.bind_error ?_))
  rw [need, check_error]

/-- A vector destination whose names cannot be allocated is not written (R32, R90, R113). -/
theorem storeVec_error {s t : State} {c : Nat} {x : Ops} {pair : Bool} {k : Stop} (old : Option Lanes) (v : Vals) (m : Mask)
    (h0 : x.cnt ≠ 0) (h : allocNames c (dstNames x pair) x.cnt.toNat .bound s = .error k t) :
    storeVec c x pair old v m s = .error k t := by
  have hn : x.cnt.toNat ≠ 0 := fun h => h0 (BitVec.eq_of_toNat_eq h)
  unfold storeVec
  unfold dstNames at h
  rw [if_neg h0] at h ⊢
  cases pair with
  | true =>
    unfold writePair
    simp only [ne_eq, hn, not_false_eq_true, if_true] at h ⊢
    exact M.bind_error h
  | false =>
    simp only [Bool.false_eq_true, if_false] at h ⊢
    cases old with
    | none =>
      show writeName c _ _ _ _ s = _
      unfold writeName; rw [if_pos hn]; exact M.bind_error h
    | some o =>
      show writeMerge c _ _ _ _ o s = _
      unfold writeMerge; rw [if_pos hn]; exact M.bind_error h

/-- A result whose destination cannot be allocated, once the merge source has been read (R56, R90). -/
theorem laneResult_error {s t : State} {c : Nat} {w : Crew} {f : FnT} {x : Ops} {pair : Bool} {k : Stop}
    (op : Nat → Nat → Nat → Nat) (va vb vc : Vals) (hw : s.crew? c = some w) (hm : w.marks = []) (hu : x.head.uni = false)
    (ok : s.mgOk c f x = true) (h0 : x.cnt ≠ 0)
    (h : allocNames c (dstNames x pair) x.cnt.toNat .bound (s.afterMg c f x) = .error k t) :
    laneResult c f x pair op va vb vc s = .error k t := by
  obtain ⟨y, hy, hs⟩ := State.afterMg_crew f x hw
  unfold laneResult
  refine (M.bind_ok (readMerge_run hw hm ok)).trans
    ((M.bind_ok (State.emaskOf_run _ hy ((Crew.sameButNames_marks hs).trans hm))).trans ?_)
  rw [if_neg (by simp [hu])]
  exact storeVec_error _ _ _ h0 h

/-! ## The lane instructions by their sources (R30, R39) -/

/-- The first `n` sources of a lane instruction, of at most three, in the order in which they are read. -/
def laneSources (n c : Nat) (f : FnT) (x : Ops) : M (Vals × Vals × Vals) := do
  let va ← readSrc c x.head x.sa f.ty.wide
  let vb ← if n < 2 then pure noVals else readB c f.ty f.ty.wide x
  let vc ← if n < 3 then pure noVals else readSrc c x.head x.sc f.ty.wide
  pure (va, vb, vc)

/-- A lane instruction: its sources, then its result. -/
def laneBody (n c : Nat) (f : FnT) (x : Ops) (op : Nat → Nat → Nat → Nat) : M Unit := do
  let v ← laneSources n c f x
  laneResult c f x f.ty.wide op v.1 v.2.1 v.2.2

/-! The three shared bodies of the lane instructions are `laneBody`. -/

theorem laneUnary_eq (c : Nat) (f : FnT) (x : Ops) (op : Nat → Nat) :
    laneUnary c f x op = laneBody 1 c f x fun a _ _ => op a := by
  simp [laneUnary, laneBody, laneSources]

theorem laneBinary_eq (c : Nat) (f : FnT) (x : Ops) (op : Nat → Nat → Nat) :
    laneBinary c f x op = laneBody 2 c f x fun a b _ => op a b := by
  simp [laneBinary, laneBody, laneSources]

theorem laneTernary_eq (c : Nat) (f : FnT) (x : Ops) (op : Nat → Nat → Nat → Nat) :
    laneTernary c f x op = laneBody 3 c f x op := by
  simp [laneTernary, laneBody, laneSources]

/-- A constructor with one source runs the shared body for one source. -/
theorem exec_unary {i : Instr} {opc : Nat} {f : FnT} {x : Ops} {op : Nat → Nat} (s : State)
    (h : unaryOf i = some (opc, f, x, op)) : exec i s = issueStep opc x false (fun c => laneUnary c f x op) s := by
  unfold unaryOf at h
  split at h <;> cases h <;> rfl

/-- A constructor with two sources runs the shared body for two. -/
theorem exec_binary {i : Instr} {opc : Nat} {f : FnT} {x : Ops} {op : Nat → Nat → Nat} (s : State)
    (h : binaryOf i = some (opc, f, x, op)) : exec i s = issueStep opc x false (fun c => laneBinary c f x op) s := by
  unfold binaryOf at h
  split at h <;> cases h <;> rfl

/-- A constructor with three sources runs the shared body for three. -/
theorem exec_ternary {i : Instr} {opc : Nat} {f : FnT} {x : Ops} {op : Nat → Nat → Nat → Nat} (s : State)
    (h : ternaryOf i = some (opc, f, x, op)) : exec i s = issueStep opc x false (fun c => laneTernary c f x op) s := by
  unfold ternaryOf at h
  split at h <;> cases h <;> rfl

/-- The meaning of every instruction of `laneForm`. -/
theorem exec_laneForm {i : Instr} {opc n : Nat} {f : FnT} {x : Ops} (s : State) (h : laneForm i = some (opc, f, x, n)) :
    ∃ op, exec i s = issueStep opc x false (fun c => laneBody n c f x op) s := by
  unfold laneForm at h
  split at h
  next hu =>
    cases h
    exact ⟨_, (exec_unary s hu).trans (congrArg (issueStep opc x false · s) (funext fun c => laneUnary_eq c f x _))⟩
  next hb =>
    cases h
    exact ⟨_, (exec_binary s hb).trans (congrArg (issueStep opc x false · s) (funext fun c => laneBinary_eq c f x _))⟩
  next ht =>
    cases h
    exact ⟨_, (exec_ternary s ht).trans (congrArg (issueStep opc x false · s) (funext fun c => laneTernary_eq c f x _))⟩
  next => cases h

/-- Sources that can all be read are read. -/
theorem laneSources_run {s : State} {n c : Nat} {w : Crew} {f : FnT} {x : Ops} (hw : s.crew? c = some w) (hm : w.marks = [])
    (ok : s.sourcesOk c f x n = true) : ∃ v, laneSources n c f x s = .ok v (s.afterSources c f x n) := by
  simp only [State.sourcesOk, Bool.and_eq_true, Bool.or_eq_true, decide_eq_true_eq] at ok
  obtain ⟨⟨oa, ob⟩, oc⟩ := ok
  obtain ⟨y, hy, hs⟩ := State.afterSrc_crew x.sa f.ty.wide hw
  have hmy := (Crew.sameButNames_marks hs).trans hm
  unfold laneSources State.afterSources
  by_cases h2 : n < 2
  · have h3 : n < 3 := by omega
    simp only [h2, h3, if_true]
    exact ⟨_, (M.bind_ok (readSrc_run hw hm oa)).trans rfl⟩
  obtain ⟨z, hz, hs2⟩ := State.afterB_crew f.ty.wide x hy
  have hmz := (Crew.sameButNames_marks hs2).trans hmy
  simp only [h2, if_false]
  by_cases h3 : n < 3
  · simp only [h3, if_true]
    exact ⟨_, (M.bind_ok (readSrc_run hw hm oa)).trans ((M.bind_ok (readB_run hy hmy (ob.resolve_left h2))).trans rfl)⟩
  · simp only [h3, if_false]
    exact ⟨_, (M.bind_ok (readSrc_run hw hm oa)).trans ((M.bind_ok (readB_run hy hmy (ob.resolve_left h2))).trans
      ((M.bind_ok (readSrc_run hz hmz (oc.resolve_left h3))).trans rfl))⟩

/-- The sources read, the crew is as before but for its names. -/
theorem State.afterSources_crew {s : State} {c : Nat} {w : Crew} (f : FnT) (x : Ops) (n : Nat) (hw : s.crew? c = some w) :
    ∃ y, (s.afterSources c f x n).crew? c = some y ∧ w.sameButNames y := by
  obtain ⟨y, hy, h1⟩ := State.afterSrc_crew x.sa f.ty.wide hw
  obtain ⟨z, hz, h2⟩ := State.afterB_crew f.ty.wide x hy
  obtain ⟨u, hu, h3⟩ := State.afterSrc_crew x.sc f.ty.wide hz
  unfold State.afterSources
  dsimp only
  split
  · exact ⟨y, hy, h1⟩
  · split
    · exact ⟨z, hz, Crew.sameButNames_trans h1 h2⟩
    · exact ⟨u, hu, Crew.sameButNames_trans (Crew.sameButNames_trans h1 h2) h3⟩

/-- Reading sources changes nothing of the machine but the crew and entries of value stores. -/
theorem State.near_afterSources (s : State) (c : Nat) (f : FnT) (x : Ops) (n : Nat) : s.Near (s.afterSources c f x n) c := by
  have ha := s.near_afterSrc c x.sa f.ty.wide
  have hb := ha.trans (State.near_afterB _ c f.ty.wide x)
  unfold State.afterSources
  dsimp only
  split
  · exact ha
  · split
    · exact hb
    · exact hb.trans (State.near_afterSrc _ _ _ _)

/-- A source that cannot be read stops a lane instruction that reads it first. -/
theorem laneBody_source_error {s : State} {n c : Nat} {f : FnT} {x : Ops} {k : Stop} (op : Nat → Nat → Nat → Nat)
    (h : readSrc c x.head x.sa f.ty.wide s = .error k s) : laneBody n c f x op s = .error k s :=
  M.bind_error (M.bind_error h)

/-- A destination that cannot be allocated stops a lane instruction once its sources have been read (R56). -/
theorem laneBody_dst_error {s : State} {n c : Nat} {w : Crew} {f : FnT} {x : Ops} {k : Stop} (op : Nat → Nat → Nat → Nat)
    (hw : s.crew? c = some w) (hm : w.marks = []) (hu : x.head.uni = false) (ok : s.sourcesOk c f x n = true)
    (omg : (s.afterSources c f x n).mgOk c f x = true) (h0 : x.cnt ≠ 0)
    (h : allocNames c (dstNames x f.ty.wide) x.cnt.toNat .bound ((s.afterSources c f x n).afterMg c f x)
      = .error k ((s.afterSources c f x n).afterMg c f x)) :
    laneBody n c f x op s = .error k ((s.afterSources c f x n).afterMg c f x) := by
  obtain ⟨v, hv⟩ := laneSources_run hw hm ok
  obtain ⟨y, hy, hs⟩ := State.afterSources_crew f x n hw
  exact (M.bind_ok hv).trans
    (laneResult_error op _ _ _ hy ((Crew.sameButNames_marks hs).trans hm) hu omg h0 h)

/-- The trap of a lane instruction whose body raises a cause, where no lane has died of it. -/
theorem exec_laneForm_trap {i : Instr} {opc n : Nat} {f : FnT} {x : Ops} {s t : State} {c : Nat} {w y : Crew} {cause : Cause}
    (hf : laneForm i = some (opc, f, x, n)) (h : Issues s c w x)
    (hb : ∀ op, laneBody n c f x op (s.opens c w opc x) = .error (.trap cause 0 none) t) (hy : t.crew? c = some y)
    (hd : y.dead = w.dead) :
    exec i s = .next (t.trapped s c w cause 0 ((w.arch.without w.dead).emask x.head)) := by
  obtain ⟨op, hop⟩ := exec_laneForm s hf
  rw [hop, issueStep_trap (ckpt := false) h nofun (hb op) hy, hd]

/-! ## Counts and open entries (R89, R93) -/

/-- dropk(N, K) of a bound name that is not leased, up to all of its counts (R89). -/
theorem bodyDropk_run {s : State} {c n k : Nat} {w : Crew} {b : Binding} {e : Entry} (hw : s.crew? c = some w)
    (hm : w.marks = []) (h : s.named c n = some (b, e)) (hl : e.st ≠ .leased) (h15 : b.count ≠ 15) (hk : k ≤ b.count) :
    bodyDropk c n k s
      = .ok () (if k = b.count then s.dropped c n else s.recount c n { b with count := b.count - k }) := by
  unfold bodyDropk
  refine (M.bind_ok (lookup_run hw hm h)).trans ((M.bind_ok (check_run (by simpa using hl))).trans
    ((M.bind_ok (check_run (by simp [h15, hk]))).trans ?_))
  by_cases hall : k = b.count
  · rw [if_pos hall, if_pos hall]; exact dropName_run hw hm h hl
  · rw [if_neg hall, if_neg hall]; exact setName_run _ hw

/-- keep(N, K) of a bound name that is not leased, up to 14 counts; a count of 15 stays (R89). -/
theorem bodyKeep_run {s : State} {c n k : Nat} {w : Crew} {b : Binding} {e : Entry} (hw : s.crew? c = some w)
    (hm : w.marks = []) (h : s.named c n = some (b, e)) (hl : e.st ≠ .leased) (hk : b.count ≠ 15 → b.count + k ≤ 14) :
    bodyKeep c n k s = .ok () (if b.count = 15 then s else s.recount c n { b with count := b.count + k }) := by
  unfold bodyKeep
  refine (M.bind_ok (lookup_run hw hm h)).trans ((M.bind_ok (check_run (by simpa using hl))).trans ?_)
  by_cases h15 : b.count = 15
  · rw [if_neg (by simp [h15]), if_pos h15]; rfl
  · rw [if_pos h15, if_neg h15]
    exact (M.bind_ok (check_run (by simpa using hk h15))).trans (setName_run _ hw)

/-- OPEN of an unbound name with room for its entry (R93). -/
theorem bodyOpen_run {s : State} {c : Nat} {w : Crew} {x : Ops} (hw : s.crew? c = some w) (hm : w.marks = [])
    (need : s.needOk c 1 = true) (ok : s.canBind c x.dst.toNat = true) :
    bodyOpen c x s = .ok () ((s.bindName c x.dst.toNat x.cnt.toNat .opened).setScalarOf c x.sa
      (BitVec.ofNat 64 (entryPa (s.coreOf w) (s.nextEntry c)))) := by
  have hc := State.bindName_crew x.dst.toNat x.cnt.toNat .opened hw
  unfold bodyOpen
  refine (M.bind_ok (allocNames_one _ _ _ hw hm need ok)).trans ((M.bind_ok (crewM_run hc)).trans
    ((M.bind_ok (getS_run _)).trans ?_))
  rw [(State.near_bindName s c x.dst.toNat x.cnt.toNat .opened).coreOf]
  exact writeScalar_of _ _ hc hm

/-- An instruction whose effect keeps the active lanes ends as `ended` says. -/
theorem issueStep_keepsLanes {s t : State} {c opc : Nat} {w : Crew} {x : Ops} {body : Nat → M Unit} (h : Issues s c w x)
    (hb : body c (s.opens c w opc x) = .ok () t)
    (hy : ∃ y, t.crew? c = some y ∧ y.arch.act = (w.begun opc x).arch.act) :
    issueStep opc x false body s = .next (t.ended c w) := by
  obtain ⟨y, hy, ha⟩ := hy
  exact issueStep_ended h nofun hb hy (h.act_ne opc ha)

/-- DROP of a bound name that is not leased (R33, R89). -/
theorem execDrop_bound {x : Ops} {s : State} {c : Nat} {w : Crew} {b : Binding} {e : Entry} (h : Issues s c w x)
    (hn : (s.opens c w 0x13 x).named c x.sa.toNat = some (b, e)) (hl : e.st ≠ .leased) :
    execDrop x s = .next (((s.opens c w 0x13 x).dropped c x.sa.toNat).ended c w) :=
  have hw := s.opens_crew c w 0x13 x
  issueStep_keepsLanes h (dropName_run hw (h.begun_marks _) hn hl) (State.dropped_some _ hw)

/-- DROPK of at most all the counts of such a name (R89). -/
theorem execDropk_bound {k : BitVec 12} {x : Ops} {s : State} {c : Nat} {w : Crew} {b : Binding} {e : Entry}
    (h : Issues s c w x) (hn : (s.opens c w 0x14 x).named c x.sa.toNat = some (b, e)) (hl : e.st ≠ .leased)
    (h15 : b.count ≠ 15) (hk : k.toNat ≤ b.count) :
    execDropk k x s = .next ((if k.toNat = b.count then (s.opens c w 0x14 x).dropped c x.sa.toNat
      else (s.opens c w 0x14 x).recount c x.sa.toNat { b with count := b.count - k.toNat }).ended c w) := by
  have hw := s.opens_crew c w 0x14 x
  refine issueStep_keepsLanes h (bodyDropk_run hw (h.begun_marks _) hn hl h15 hk) ?_
  split
  · exact State.dropped_some _ hw
  · exact State.recount_some _ _ hw

/-- KEEP of counts for such a name, up to 14 (R89). -/
theorem execKeep_bound {k : BitVec 12} {x : Ops} {s : State} {c : Nat} {w : Crew} {b : Binding} {e : Entry}
    (h : Issues s c w x) (hn : (s.opens c w 0x15 x).named c x.sa.toNat = some (b, e)) (hl : e.st ≠ .leased)
    (hk : b.count ≠ 15 → b.count + k.toNat ≤ 14) :
    execKeep k x s = .next ((if b.count = 15 then s.opens c w 0x15 x
      else (s.opens c w 0x15 x).recount c x.sa.toNat { b with count := b.count + k.toNat }).ended c w) := by
  have hw := s.opens_crew c w 0x15 x
  refine issueStep_keepsLanes h (bodyKeep_run hw (h.begun_marks _) hn hl hk) ?_
  split
  · exact ⟨_, hw, rfl⟩
  · exact State.recount_some _ _ hw

/-- OPEN of a name that can be bound (R93). -/
theorem execOpenName_room {x : Ops} {s : State} {c : Nat} {w : Crew} (h : Issues s c w x)
    (need : (s.opens c w 0x16 x).needOk c 1 = true) (ok : (s.opens c w 0x16 x).canBind c x.dst.toNat = true) :
    execOpenName x s = .next ((((s.opens c w 0x16 x).bindName c x.dst.toNat x.cnt.toNat .opened).setScalarOf c x.sa
      (BitVec.ofNat 64 (entryPa (s.coreOf w) ((s.opens c w 0x16 x).nextEntry c)))).ended c w) := by
  have hw := s.opens_crew c w 0x16 x
  have hcore : (s.opens c w 0x16 x).coreOf (w.begun 0x16 x) = s.coreOf w := s.coreOf_begun w 0x16 x
  have hb := bodyOpen_run hw (h.begun_marks _) need ok
  rw [hcore] at hb
  obtain ⟨y, hy, ha⟩ := State.setScalarOf_some x.sa
    (BitVec.ofNat 64 (entryPa (s.coreOf w) ((s.opens c w 0x16 x).nextEntry c)))
    (State.bindName_crew x.dst.toNat x.cnt.toNat .opened hw)
  exact issueStep_keepsLanes h hb ⟨y, hy, ha⟩

/-- DROP of a name that cannot be given back. -/
theorem execDrop_trap {x : Ops} {s : State} {c : Nat} {w : Crew} {cause : Cause} (h : Issues s c w x)
    (hb : dropName c x.sa.toNat (s.opens c w 0x13 x) = .error (.trap cause 0 none) (s.opens c w 0x13 x)) :
    execDrop x s = .next ((s.opens c w 0x13 x).trapped s c w cause 0 ((w.arch.without w.dead).emask x.head)) :=
  (issueStep_trap (ckpt := false) (body := fun k => dropName k x.sa.toNat) h nofun hb (s.opens_crew c w 0x13 x)).trans
    (by rw [Crew.begun_dead])

/-- A lane instruction whose first source cannot be read (R30). -/
theorem exec_laneForm_source_trap {i : Instr} {opc n : Nat} {f : FnT} {x : Ops} {s : State} {c : Nat} {w : Crew}
    {cause : Cause} (hf : laneForm i = some (opc, f, x, n)) (h : Issues s c w x) (hv : isVec x.sa = true)
    (hr : ∀ use, readName c x.sa.toNat use (s.opens c w opc x) = .error (.trap cause 0 none) (s.opens c w opc x)) :
    exec i s = .next ((s.opens c w opc x).trapped s c w cause 0 ((w.arch.without w.dead).emask x.head)) := by
  have hw := s.opens_crew c w opc x
  exact exec_laneForm_trap hf h (fun op => laneBody_source_error op (readSrc_error hw (h.begun_marks opc) hv (hr _))) hw
    (w.begun_dead opc x)

/-- Once a lane instruction has read its sources and its merge source, its crew is the same but for its names. -/
theorem State.laneSources_crew (s : State) (c : Nat) (w : Crew) (opc : Nat) (f : FnT) (x : Ops) (n : Nat) :
    ∃ z, (((s.opens c w opc x).afterSources c f x n).afterMg c f x).crew? c = some z ∧ (w.begun opc x).sameButNames z := by
  obtain ⟨y, hy, h1⟩ := State.afterSources_crew f x n (s.opens_crew c w opc x)
  obtain ⟨z, hz, h2⟩ := State.afterMg_crew f x hy
  exact ⟨z, hz, Crew.sameButNames_trans h1 h2⟩

/-- A lane instruction whose destination cannot be allocated (R31, R56). -/
theorem exec_laneForm_dst_trap {i : Instr} {opc n : Nat} {f : FnT} {x : Ops} {s s1 : State} {c : Nat} {w z : Crew}
    {cause : Cause} (hf : laneForm i = some (opc, f, x, n)) (h : Issues s c w x) (hu : x.head.uni = false)
    (ok : (s.opens c w opc x).sourcesOk c f x n = true) (omg : ((s.opens c w opc x).afterSources c f x n).mgOk c f x = true)
    (hs1 : s1 = ((s.opens c w opc x).afterSources c f x n).afterMg c f x) (hz : s1.crew? c = some z)
    (same : (w.begun opc x).sameButNames z) (h0 : x.cnt ≠ 0)
    (ha : allocNames c (dstNames x f.ty.wide) x.cnt.toNat .bound s1 = .error (.trap cause 0 none) s1) :
    exec i s = .next (s1.trapped s c w cause 0 ((w.arch.without w.dead).emask x.head)) := by
  subst hs1
  have hdead : z.dead = w.dead := by rw [same]; exact w.begun_dead opc x
  exact exec_laneForm_trap hf h
    (fun op => laneBody_dst_error op (s.opens_crew c w opc x) (h.begun_marks opc) hu ok omg h0 ha) hz hdead

/-- How many names a vector destination binds (R113). -/
theorem dstNames_length {x : Ops} (pair : Bool) (h0 : x.cnt ≠ 0) : (dstNames x pair).length = if pair then 2 else 1 := by
  unfold dstNames
  rw [if_neg h0]
  cases pair <;> rfl

/-- The discard binds no name, so none of its names is bound (R40). -/
theorem State.unbound_discard {s : State} {c : Nat} {w : Crew} {x : Ops} (pair : Bool) (hw : s.crew? c = some w)
    (h0 : x.cnt = 0) : s.unbound c (dstNames x pair) = true := by
  simp [State.unbound, hw, dstNames, h0]

/-- Settles O17: the counts and the open entry by the rules of the model's own operations, and each name fault where its
operation finds it. -/
theorem countsAndOpen : Obligations.CountsAndOpen := by
  unfold Obligations.CountsAndOpen
  refine ⟨?counts, ?opens, ?lanes, ?drop⟩
  case counts =>
    rintro k x s s0 c n w b e h rfl hn hl
    refine ⟨?_, ?_, ?_⟩
    · rintro rfl; exact execDrop_bound h hn hl
    · rintro rfl; exact execDropk_bound h hn hl
    · rintro rfl; exact execKeep_bound h hn hl
  case opens =>
    rintro x s s0 c w h rfl
    exact execOpenName_room h
  case lanes =>
    rintro i opc n f x s s0 s1 c w b e m hf h rfl rfl
    have hw := s.opens_crew c w opc x
    have hm := h.begun_marks opc
    refine ⟨fun hv hn => ?_, fun hv hn he => ?_, fun hv hn he => ?_, fun hg hu ok omg hs1 => ?_⟩
    · exact exec_laneForm_source_trap hf h hv fun use => readName_unbound use hw hm hn
    · exact exec_laneForm_source_trap hf h hv fun use => readName_refused use hw hm hn (checkReadable_leased _ he)
    · exact exec_laneForm_source_trap hf h hv fun use => readName_refused use hw hm hn (checkReadable_pending _ he)
    · obtain ⟨g, hg⟩ := Option.isSome_iff_exists.1 hg
      obtain ⟨z, hz, same⟩ := s.laneSources_crew c w opc f x n
      rw [← hs1] at hz
      have hzg : s1.gang? z.gang = some g := by
        rw [same, hs1, (State.near_afterMg _ c f x).gang, (State.near_afterSources _ c f x n).gang]
        exact (congrArg s.gang? (w.begun_gang opc x)).trans hg
      refine ⟨fun hlive => ?_, fun hfree h0 need => ?_⟩
      · have h0 : x.cnt ≠ 0 := fun h0 => by simp [State.unbound_discard _ hz h0] at hlive
        exact exec_laneForm_dst_trap hf h hu ok omg hs1 hz same h0 (allocNames_live _ _ hz hlive)
      · exact exec_laneForm_dst_trap hf h hu ok omg hs1 hz same h0
          (allocNames_exhausted _ _ hz hzg hfree (by rwa [dstNames_length _ h0]))
  case drop =>
    rintro x s s0 c w b e m h rfl rfl
    have hw := s.opens_crew c w 0x13 x
    have hm := h.begun_marks 0x13
    exact ⟨fun hn => execDrop_trap h (M.bind_error (lookup_unbound hw hm hn)),
      fun hn he => execDrop_trap h (dropName_leased hw hm hn he)⟩

end Sys2Proof.Machine

/-!
PROOFS of the family 02_formats_and_opcode_map.md: decode and encode agree (O56), the words that the spec writes out (O60),
and what a step runs (O59).
-/

namespace Sys2Proof

/-! ## Bytes of an instruction as its two words (R36, R38) -/

/-- The common word that starts a list of bytes (R38). -/
def frontWord (bs : List Byte) : DWord := BitVec.ofNat 64 (ofBytesLE bs)

/-- The bits that follow the common word (R36, R44, R46). -/
def frontExt (bs : List Byte) : DWord := BitVec.ofNat 64 (ofBytesLE bs >>> 64)

/-- The bits after the common word lie within the length that LEN gives (R46). -/
def ExtFits (len : BitVec 2) (e : DWord) : Prop := e.toNat < 2 ^ (8 * (lenBytes len - 8))

theorem ofBytesLE_append (as bs : List Byte) :
    ofBytesLE (as ++ bs) = ofBytesLE as + 2 ^ (8 * as.length) * ofBytesLE bs := by
  induction as with
  | nil => simp [ofBytesLE]
  | cons a as ih =>
    have h : 2 ^ (8 * (as.length + 1)) = 256 * 2 ^ (8 * as.length) := by rw [Nat.mul_succ, Nat.pow_add]; omega
    simp only [List.cons_append, ofBytesLE, List.length_cons, ih, h]
    rw [Nat.mul_add, Nat.mul_assoc, Nat.add_assoc]

theorem lenBytes_cases {len : BitVec 2} (h : len ≠ 3) :
    len = 0 ∧ lenBytes len = 8 ∨ len = 1 ∧ lenBytes len = 12 ∨ len = 2 ∧ lenBytes len = 16 := by
  revert h; revert len; decide

theorem lenBytes_eq_zero {len : BitVec 2} : lenBytes len = 0 ↔ len = 3 := by revert len; decide

/-- The length of an instruction stands in its first byte (R36). -/
theorem frontWord_len (b : Byte) (bs : List Byte) : (frontWord (b :: bs)).extractLsb' 0 2 = b.extractLsb' 0 2 := by
  apply BitVec.eq_of_toNat_eq
  simp only [frontWord, ofBytesLE, BitVec.extractLsb'_toNat, BitVec.toNat_ofNat, Nat.shiftRight_zero]
  omega

/-- The first 8 bytes give the common word, and what follows them the rest. -/
theorem front_of_take_drop {bs : List Byte} (h : 8 ≤ bs.length) :
    BitVec.ofNat 64 (ofBytesLE (bs.take 8)) = frontWord bs ∧ BitVec.ofNat 64 (ofBytesLE (bs.drop 8)) = frontExt bs := by
  have hl : (bs.take 8).length = 8 := by simp [h]
  have split : ofBytesLE bs = ofBytesLE (bs.take 8) + 2 ^ 64 * ofBytesLE (bs.drop 8) := by
    have both := ofBytesLE_append (bs.take 8) (bs.drop 8)
    rwa [List.take_append_drop, hl] at both
  have lt : ofBytesLE (bs.take 8) < 2 ^ 64 := by simpa [hl] using ofBytesLE_lt (bs.take 8)
  constructor
  · apply BitVec.eq_of_toNat_eq
    simp only [frontWord, BitVec.toNat_ofNat]; omega
  · unfold frontExt
    congr 1
    rw [Nat.shiftRight_eq_div_pow]; omega

/-- The bytes that the length in their first byte asks for decode as their two words do, whatever follows (R36, R46). -/
theorem decode_front {front rest : List Byte} (hn : front.length = lenBytes ((frontWord front).extractLsb' 0 2))
    (h3 : (frontWord front).extractLsb' 0 2 ≠ 3) :
    decode (front ++ rest) = (decodeWords (frontWord front) (frontExt front)).map fun i => (i, rest) := by
  have h8 : 8 ≤ front.length := by rcases lenBytes_cases h3 with h | h | h <;> omega
  obtain ⟨hw, he⟩ := front_of_take_drop h8
  cases front with
  | nil => simp at h8
  | cons b bs =>
    rw [frontWord_len] at hn
    simp only [decode, List.cons_append]
    rw [← List.cons_append, ← hn, if_neg (by simp), if_neg (by simp), List.take_append_of_le_length h8,
      List.take_left, List.drop_left, hw, he]
    cases decodeWords (frontWord (b :: bs)) (frontExt (b :: bs)) <;> rfl

/-- What decodes starts with the bytes that the length in the first of them asks for. -/
theorem exists_front_of_decode {bs rest : List Byte} {i : Instr} (h : decode bs = .ok (i, rest)) :
    ∃ front tail, bs = front ++ tail ∧ front.length = lenBytes ((frontWord front).extractLsb' 0 2) ∧
      (frontWord front).extractLsb' 0 2 ≠ 3 := by
  cases bs with
  | nil => cases h
  | cons b bs =>
    simp only [decode] at h
    split at h
    · cases h
    next h0 =>
    split at h
    · cases h
    next hlen =>
    obtain ⟨m, hm⟩ := Nat.exists_eq_succ_of_ne_zero h0
    refine ⟨(b :: bs).take (lenBytes (b.extractLsb' 0 2)), (b :: bs).drop (lenBytes (b.extractLsb' 0 2)),
      (List.take_append_drop _ _).symm, ?_, ?_⟩
    · rw [List.length_take_of_le (by omega), hm, List.take_succ_cons, frontWord_len, hm]
    · rw [hm, List.take_succ_cons, frontWord_len]
      exact fun h3 => h0 (lenBytes_eq_zero.2 h3)

/-! ## The bits after the common word (R44, R46) -/

/-- The bits that the decoder takes after the common word are all of them, where they fit. -/
theorem ExtFits.masked {len : BitVec 2} {e : DWord} (h : ExtFits len e) (h3 : len ≠ 3) :
    e = if len = 0 then 0 else if len = 1 then (e.extractLsb' 0 32).setWidth 64 else e := by
  unfold ExtFits at h
  rcases lenBytes_cases h3 with ⟨rfl, hn⟩ | ⟨rfl, hn⟩ | ⟨rfl, hn⟩ <;> rw [hn] at h
  · apply BitVec.eq_of_toNat_eq; simp at h ⊢; omega
  · apply BitVec.eq_of_toNat_eq; simp at h ⊢; omega
  · rfl

/-- Legal fields have a length, and no bits beyond it (R46, R55). -/
theorem legal_ext {opc : Nat} {fn : Fn} {x : Ops} (h : Format.legal opc fn x = true) :
    x.head.len ≠ 3 ∧ ExtFits x.head.len x.ext := by
  have ok : Format.extOk x = true := by
    unfold Format.legal at h
    exact (Bool.and_eq_true_iff.1 h).1
  simp only [Format.extOk, Bool.and_eq_true, Bool.or_eq_true, bne_iff_ne, beq_iff_eq, decide_eq_true_eq] at ok
  obtain ⟨⟨h0, h1⟩, h3⟩ := ok
  refine ⟨h3, ?_⟩
  unfold ExtFits
  rcases lenBytes_cases h3 with ⟨hl, hn⟩ | ⟨hl, hn⟩ | ⟨hl, hn⟩ <;> rw [hn]
  · rw [h0.resolve_left fun ne => ne hl]
    decide
  · exact h1.resolve_left fun ne => ne hl
  · exact x.ext.isLt

/-! ## The two words as one number -/

theorem toNat_words (e w : DWord) : (e ++ w).toNat = w.toNat + 2 ^ 64 * e.toNat := by
  rw [BitVec.toNat_append, ← Nat.shiftLeft_add_eq_or_of_lt w.isLt, Nat.shiftLeft_eq]
  omega

/-- The bytes of two words, as many as LEN gives, make the number of the words. -/
theorem ofBytesLE_words {len : BitVec 2} {e w : DWord} (h : ExtFits len e) (h3 : len ≠ 3) :
    ofBytesLE (bytesLE (lenBytes len) (e ++ w).toNat) = (e ++ w).toNat := by
  rw [ofBytesLE_bytesLE, toNat_words]
  unfold ExtFits at h
  have hw := w.isLt
  rcases lenBytes_cases h3 with ⟨-, hn⟩ | ⟨-, hn⟩ | ⟨-, hn⟩ <;> rw [hn] at h ⊢ <;> exact Nat.mod_eq_of_lt (by omega)

/-- The number of two words gives them back. -/
theorem words_of_number {bs : List Byte} {e w : DWord} (h : ofBytesLE bs = (e ++ w).toNat) :
    frontWord bs = w ∧ frontExt bs = e := by
  rw [toNat_words] at h
  have hw := w.isLt
  have he := e.isLt
  constructor <;> apply BitVec.eq_of_toNat_eq
  · simp only [frontWord, h, BitVec.toNat_ofNat]; omega
  · simp only [frontExt, h, BitVec.toNat_ofNat, Nat.shiftRight_eq_div_pow]; omega

/-- Bytes of the length that LEN gives are those of their two words, and the second has no bits beyond that length. -/
theorem bytesLE_front {bs : List Byte} {len : BitVec 2} (hn : bs.length = lenBytes len) (h3 : len ≠ 3) :
    ExtFits len (frontExt bs) ∧ bytesLE (lenBytes len) (frontExt bs ++ frontWord bs).toNat = bs := by
  have lt := ofBytesLE_lt bs
  rw [hn] at lt
  have same : (frontExt bs ++ frontWord bs).toNat = ofBytesLE bs := by
    rw [toNat_words]
    simp only [frontExt, frontWord, BitVec.toNat_ofNat, Nat.shiftRight_eq_div_pow]
    rcases lenBytes_cases h3 with ⟨-, h⟩ | ⟨-, h⟩ | ⟨-, h⟩ <;> rw [h] at lt <;> omega
  constructor
  · unfold ExtFits
    simp only [frontExt, BitVec.toNat_ofNat, Nat.shiftRight_eq_div_pow]
    rcases lenBytes_cases h3 with ⟨-, h⟩ | ⟨-, h⟩ | ⟨-, h⟩ <;> rw [h] at lt ⊢ <;> omega
  · rw [same, ← hn, bytesLE_ofBytesLE]

/-! ## Encoding and decoding (R38, R46, R48, R52) -/

theorem wellFormed_of_parts {i : Instr} {opc : Nat} {fn : Fn} {x : Ops} (hp : i.parts = some (opc, fn, x)) :
    i.WellFormed ↔ Format.legal opc fn x = true := by
  simp [Instr.WellFormed, Instr.wellFormed, hp]

theorem encodeBytes_of_parts {i : Instr} {opc : Nat} {fn : Fn} {x : Ops} (hp : i.parts = some (opc, fn, x)) :
    encodeBytes i = bytesLE (lenBytes x.head.len) (x.ext ++ commonWord (BitVec.ofNat 8 opc) fn x).toNat := by
  simp [encodeBytes, encode, hp]

/-- What two words decode to is well formed, and the words are its encoding. -/
theorem decodeWords_ok {w e : DWord} {i : Instr} (fits : ExtFits (w.extractLsb' 0 2) e) (h : decodeWords w e = .ok i) :
    i.WellFormed ∧ encodeBytes i = bytesLE (lenBytes (w.extractLsb' 0 2)) (e ++ w).toNat := by
  unfold decodeWords at h
  dsimp only at h
  split at h
  · cases h
  next h3 =>
  rw [← fits.masked h3] at h
  obtain ⟨fn, hp, hfn, legal⟩ := buildInstr_ok h
  refine ⟨(wellFormed_of_parts hp).2 legal, ?_⟩
  rw [encodeBytes_of_parts hp, commonWord_ofWord w e _ fn (by rw [BitVec.ofNat_toNat, BitVec.setWidth_eq]) hfn]
  rfl

/-- The encoding of a well-formed instruction decodes to it, whatever follows. -/
theorem decode_encodeBytes {i : Instr} (rest : List Byte) (wf : i.WellFormed) (instr : i.parts.isSome = true) :
    decode (encodeBytes i ++ rest) = .ok (i, rest) := by
  obtain ⟨⟨opc, fn, x⟩, hp⟩ := Option.isSome_iff_exists.1 instr
  have legal := (wellFormed_of_parts hp).1 wf
  obtain ⟨h3, fits⟩ := legal_ext legal
  have bytes := encodeBytes_of_parts hp
  obtain ⟨hw, he⟩ := words_of_number (bytes ▸ ofBytesLE_words fits h3)
  have hlen : (frontWord (encodeBytes i)).extractLsb' 0 2 = x.head.len := by
    rw [hw]
    exact (commonWord_fields _ fn x _ rfl).1
  rw [decode_front (by rw [hlen, bytes, bytesLE_length]) (by rwa [hlen]), hw, he,
    decodeWords_parts x.ext hp legal (fits.masked h3) h3]
  rfl

/-- What decodes is well formed, and the bytes are its encoding and those that are left. -/
theorem encodeBytes_of_decode {bs rest : List Byte} {i : Instr} (h : decode bs = .ok (i, rest)) :
    i.WellFormed ∧ encodeBytes i ++ rest = bs := by
  obtain ⟨front, tail, rfl, hn, h3⟩ := exists_front_of_decode h
  rw [decode_front hn h3] at h
  obtain ⟨fits, bytes⟩ := bytesLE_front hn h3
  cases hd : decodeWords (frontWord front) (frontExt front) with
  | error r => rw [hd] at h; cases h
  | ok j =>
    rw [hd] at h
    cases h
    obtain ⟨wf, enc⟩ := decodeWords_ok fits hd
    exact ⟨wf, by rw [enc, bytes]⟩

end Sys2Proof

namespace Sys2Proof.Encoding

/-- Settles O56: `decode_encodeBytes` is its first half, `encodeBytes_of_decode` its second. -/
theorem decodeEncode : Obligations.DecodeEncode :=
  ⟨fun _ rest wf instr => decode_encodeBytes rest wf instr, fun _ _ _ h => encodeBytes_of_decode h⟩

/-- Settles O60: the decoder computes each of the words. -/
theorem decodeWords : Obligations.DecodeWords :=
  ⟨rfl, rfl, rfl, rfl, rfl, rfl, rfl, rfl, rfl, rfl, rfl, rfl, rfl, rfl, rfl, rfl, rfl, rfl⟩

end Sys2Proof.Encoding

namespace Sys2Proof.Machine

open Sys2Proof

/-! ## What a fetch brings (R37, R55, R56, R312) -/

theorem fetchRead_ok {s t : State} {w : Crew} {n : Nat} {bs : List Byte} {f : State → List Byte → Fetched}
    (h : s.fetchBytes w n = .ok t bs) : fetchRead s w w.arch.pc.toNat n f = f t bs := by
  rw [State.fetchBytes] at h
  rw [fetchRead, h]

theorem fetchRead_fails {s t : State} {w : Crew} {n a : Nat} {cause : Cause} {f : State → List Byte → Fetched}
    (h : fetchFails (s.fetchBytes w n) t cause a) : fetchRead s w w.arch.pc.toNat n f = .trap t cause a := by
  obtain ⟨hc, pa, h⟩ := h
  rw [State.fetchBytes] at h
  rw [fetchRead, h]
  exact if_neg hc

theorem fetchRead_dies {s t : State} {w : Crew} {n kind inst a : Nat} {f : State → List Byte → Fetched}
    (h : fetchDies (s.fetchBytes w n) t kind inst a) : fetchRead s w w.arch.pc.toNat n f = .kill t kind inst a := by
  rw [State.fetchBytes] at h
  rw [fetchRead]
  obtain h | ⟨va, h, rfl, rfl⟩ := h <;> rw [h]
  exact if_pos rfl

/-- After the first word the fetch reads the instruction, whose length the word gives. -/
theorem fetchAt_firstWord {s u : State} {w : Crew} {n : Nat} (h : firstWord s w u n) :
    s.fetchAt w = if n = 0 then .trap u cIllop 0 else fetchRead u w w.arch.pc.toNat n (decodeAt w.arch.pc.toNat) := by
  obtain ⟨hd, read, pad, rfl⟩ := h
  unfold State.fetchAt
  rw [fetchRead_ok read]
  simp only [pad, Bool.false_eq_true, if_false]

/-- A fetched instruction stands in bytes after its first word, and does not cross its fetch block. -/
theorem Fetches.fetchAt {s t : State} {w : Crew} {bs : List Byte} (h : Fetches s w t bs) :
    s.fetchAt w = decodeAt w.arch.pc.toNat t bs := by
  obtain ⟨⟨u, hd, read, pad, len, rest⟩, -⟩ := h
  have first : firstWord s w u (lenBytes ((hd.headD 0#8).extractLsb' 0 2)) :=
    ⟨hd, read, by simpa [isPad] using pad, rfl⟩
  rw [fetchAt_firstWord first, if_neg len, fetchRead_ok rest]

theorem Fetches.fetchAt_ok {s t : State} {w : Crew} {bs rest : List Byte} {i : Instr} (h : Fetches s w t bs)
    (dec : decode bs = .ok (i, rest)) : s.fetchAt w = .instr t i := by
  rw [h.fetchAt, decodeAt, if_neg (Nat.not_lt.2 h.fits), dec]

theorem FetchTraps.fetchAt {s t : State} {w : Crew} {cause : Cause} {a : Nat} (h : FetchTraps s w t cause a) :
    s.fetchAt w = .trap t cause a := by
  cases h with
  | first _ _ fails => exact fetchRead_fails fails
  | length word => rw [fetchAt_firstWord word, if_pos rfl]
  | rest u n _ _ word hn fails => rw [fetchAt_firstWord word, if_neg hn, fetchRead_fails fails]
  | crosses u n bs word hn read crossed =>
    rw [fetchAt_firstWord word, if_neg hn, fetchRead_ok read, decodeAt, if_pos crossed]
  | noInstr bs e fetched dec => rw [fetched.fetchAt, decodeAt, if_neg (Nat.not_lt.2 fetched.fits), dec]

theorem FetchKills.fetchAt {s t : State} {w : Crew} {kind inst a : Nat} (h : FetchKills s w t kind inst a) :
    s.fetchAt w = .kill t kind inst a := by
  cases h with
  | first dies => exact fetchRead_dies dies
  | rest u n word hn dies => rw [fetchAt_firstWord word, if_neg hn, fetchRead_dies dies]

/-! ## The issue of a quadrant (R282) -/

/-- A crew that may issue does what its fetch brings, where it stands at no pad word. -/
theorem Ready.tryCrew {s : State} {c : Nat} {w : Crew} (h : Ready s c w) (core : Nat) (pad : ∀ t, s.fetchAt w ≠ .pad t) :
    s.tryCrew core c w = s.atPc c w (s.fetchAt w) := by
  have retry : s.mayRetry core c w = true := by simp [State.mayRetry, h.free]
  unfold State.tryCrew
  simp only [h.full, h.bound, h.runs, h.step, retry, List.isEmpty_nil, Bool.not_true, Bool.or_false, Bool.false_eq_true,
    if_false, if_true]
  unfold State.attempt
  rw [h.crew]
  dsimp only
  split
  · next t fetched => exact absurd fetched (pad t)
  · rfl

/-- The decoded instruction is executed by the crew, and GRANT0 noted (R274). -/
theorem Ready.tryCrew_instr {s t v : State} {c : Nat} {w : Crew} {i : Instr} (h : Ready s c w) (core : Nat)
    (fetched : s.fetchAt w = .instr t i) (run : exec i { t.issueCanaries w with cur := some c } = .next v) :
    s.tryCrew core c w = .next ({ v with cur := none }.noteGrant t c w) := by
  rw [h.tryCrew core (by simp [fetched]), fetched]
  simp [State.atPc, h.brk, State.runInstr, run]

/-- A cause that the fetch brings is taken with the active lanes (R55, R56). -/
theorem Ready.tryCrew_trap {s t : State} {c a : Nat} {w : Crew} {cause : Cause} (h : Ready s c w) (core : Nat)
    (fetched : s.fetchAt w = .trap t cause a) (acc : w.acc = []) :
    s.tryCrew core c w = .next (t.takeTrap c cause a w.arch.act w.arch.pc ⟨w.arch, w.seq⟩) := by
  rw [h.tryCrew core (by simp [fetched]), fetched]
  simp [State.atPc, h.brk, State.preTrap, acc]

/-- A fetch that consumes an uncorrectable error kills the gang (R312). -/
theorem Ready.tryCrew_kill {s t : State} {c kind inst a : Nat} {w : Crew} (h : Ready s c w) (core : Nat)
    (fetched : s.fetchAt w = .kill t kind inst a) :
    s.tryCrew core c w = .next (t.killPoison c w.arch.pc.toNat kind inst a) := by
  rw [h.tryCrew core (by simp [fetched]), fetched]
  simp [State.atPc, h.brk]

/-- The search passes over empty slots. -/
theorem searchSlots_skip {core : Nat} {before sls : List Nat} {s : State} (h : ∀ j ∈ before, s.crewIn core j = none) :
    searchSlots core (before ++ sls) s = searchSlots core sls s := by
  induction before with
  | nil => rfl
  | cons j js ih =>
    obtain ⟨hj, hjs⟩ := List.forall_mem_cons.1 h
    simp only [List.cons_append, searchSlots, hj, Option.bind_none]
    exact ih hjs

/-- The slot of the last crew of a quadrant that issued (R282). -/
def State.noteSlot (s : State) (core sl : Nat) : State :=
  s.modCore core fun k => { k with last := k.last.setIfInBounds (sl / 16) (sl % 16) }

/-- The search ends at a crew that goes on, and goes to the slots behind it otherwise. -/
theorem searchSlots_cons {core sl c : Nat} {sls : List Nat} {s t : State} {w : Crew} (slot : s.crewIn core sl = some c)
    (crew : s.crew? c = some w) (tried : s.tryCrew core c w = .next t) :
    searchSlots core (sl :: sls) s =
      if wentOn s t c then .next (t.noteSlot core sl, true) else searchSlots core sls t := by
  simp [searchSlots, slot, crew, tried, State.noteSlot]

/-- A quadrant issues from the agenda, `u` the machine without that entry, and its search meets crew `c`, which stands as
`w` in slot `sl` and may issue, before any other; `after` are the slots that follow. -/
structure FirstCrew (s u : State) (core quad sl c : Nat) (w : Crew) (after : List Nat) : Prop where
  entry : ∃ ps, s.agenda = .issue core quad :: ps ∧ u = { s with agenda := ps }
  range : core < 192 ∧ quad < 4
  order : ∃ before, u.searchOrder core quad = before ++ sl :: after ∧ ∀ j ∈ before, u.crewIn core j = none
  slot  : u.crewIn core sl = some c
  ready : Ready u c w

section
variable {s u t z : State} {core quad sl c a : Nat} {w : Crew} {after : List Nat}

/-- A step with an issue on the agenda is what the first crew does, after which the waiting DEQs are looked at (R207). -/
theorem FirstCrew.step_tried (h : FirstCrew s u core quad sl c w after) (tried : u.tryCrew core c w = .next z) :
    (wentOn u z c = true → step s = .next (z.noteSlot core sl).faultWaiters) ∧
      (wentOn u z c = false → after = [] → step s = .next z.faultWaiters) := by
  obtain ⟨⟨ps, entry, rfl⟩, range, ⟨before, order, empty⟩, slot, ready⟩ := h
  have search := (searchSlots_skip (sls := sl :: after) empty).trans (searchSlots_cons slot ready.crew tried)
  have next : step s = thenWaiters (({ s with agenda := ps } : State).clock core quad) := by
    unfold step State.proceed
    rw [entry]
    exact congrArg thenWaiters (if_pos range)
  rw [next, State.clock, State.issueQuad, order, search]
  refine ⟨fun on => ?_, fun stays none => ?_⟩
  · rw [if_pos on]; rfl
  · rw [if_neg (by simp [stays]), none]; rfl

/-- The step runs the instruction that the fetched bytes decode to. -/
theorem FirstCrew.step_decoded {v : State} {bs rest : List Byte} {i : Instr} (h : FirstCrew s u core quad sl c w after)
    (fetched : Fetches u w t bs) (dec : decode bs = .ok (i, rest))
    (run : exec i { t.issueCanaries w with cur := some c } = .next v)
    (noted : z = { v with cur := none }.noteGrant t c w) :
    (wentOn u z c = true → step s = .next (z.noteSlot core sl).faultWaiters) ∧
      (wentOn u z c = false → after = [] → step s = .next z.faultWaiters) :=
  h.step_tried (noted ▸ h.ready.tryCrew_instr core (fetched.fetchAt_ok dec) run)

/-- The step takes the cause that the fetch brings (R55, R56). -/
theorem FirstCrew.step_trap {cause : Cause} (h : FirstCrew s u core quad sl c w after)
    (fetched : FetchTraps u w t cause a) (acc : w.acc = [])
    (taken : z = t.takeTrap c cause a w.arch.act w.arch.pc ⟨w.arch, w.seq⟩) (on : wentOn u z c = true) :
    step s = .next (z.noteSlot core sl).faultWaiters :=
  (h.step_tried (taken ▸ h.ready.tryCrew_trap core fetched.fetchAt acc)).1 on

/-- The step kills the gang whose fetch consumes an uncorrectable error (R312). -/
theorem FirstCrew.step_kill {kind inst : Nat} (h : FirstCrew s u core quad sl c w after)
    (fetched : FetchKills u w t kind inst a) (killed : z = t.killPoison c w.arch.pc.toNat kind inst a)
    (on : wentOn u z c = true) : step s = .next (z.noteSlot core sl).faultWaiters :=
  (h.step_tried (killed ▸ h.ready.tryCrew_kill core fetched.fetchAt)).1 on

end

/-! ## Happenings on the agenda, and an empty agenda (R251, R388, log 10) -/

/-- The first entry of the agenda happens where it does not wait for a write of CTXROOT. -/
theorem State.proceed_of_free {s : State} {p : Pending} {ps : List Pending} (h : s.agenda = p :: ps)
    (free : s.agendaHeld p = false) : s.proceed = { s with agenda := ps }.happen p := by
  unfold State.proceed
  rw [h, takeFirst, free]
  rfl

/-- Where every entry of the agenda waits for a write of CTXROOT, the model's own order goes on. -/
theorem State.proceed_of_held {s : State} (held : takeFirst s.agendaHeld s.agenda = none) : s.proceed = s.ownOrder := by
  unfold State.proceed
  rw [held]

/-- A happening on the agenda that does not wait is executed. -/
theorem step_event {s : State} {i : Instr} {ps : List Pending} (h : s.agenda = .event i :: ps)
    (free : s.agendaHeld (.event i) = false) (wf : i.WellFormed) (event : i.parts = none) :
    step s = thenWaiters (exec i ({ s with agenda := ps }.beforeEvent i)) := by
  unfold step
  rw [State.proceed_of_free h free]
  exact congrArg thenWaiters (if_pos (by simp [wf, event]))

/-- With an empty agenda the next quadrant that has crews issues, in its turn. -/
theorem step_quadrant {s v : State} {q : Nat} {b : Bool} (h : s.agenda = []) (turn : s.turn % 2 = 0)
    (next : s.nextQuad 768 (s.turn / 2) = some q) (issue : s.issueQuad (q / 4) (q % 4) = .next (v, b)) :
    step s = .next { v with turn := 2 * ((q + 1) % 768) + 1 }.faultWaiters := by
  have own : s.turnIssue = some (.next { v with turn := 2 * ((q + 1) % 768) + 1 }) := by
    simp [State.turnIssue, next, issue]
  unfold step
  rw [State.proceed_of_held (by rw [h]; rfl), State.ownOrder, if_pos turn, own]
  rfl

/-! ## The happening that waits -/

/-- A write of CTXROOT to context 1 has not taken effect, and a write of PWRCAP, which the host made after it, is the only
entry of the agenda. -/
def heldWrite : State :=
  { State.reset with ctxs := [(1, { Ctx.reset with rootDue := some 0x10000 })], agenda := [.event (.pwrcap 1000)] }

/-- The agenda that an outcome leaves. -/
def agendaAfter (r : Host.Outcome State Fault Refusal) : Option (List Pending) :=
  match r with
  | .next s => some s.agenda
  | _ => none

/-- CTXROOT takes effect in this step; the write of PWRCAP waits, and stands on the agenda still. -/
theorem agendaAfter_step_heldWrite : agendaAfter (step heldWrite) = some [.event (.pwrcap 1000)] := by
  unfold step
  rw [State.proceed_of_held rfl]
  decide +kernel

/-- Executed at once, the write of PWRCAP leaves nothing on the agenda. -/
theorem agendaAfter_exec_heldWrite :
    agendaAfter (thenWaiters (exec (.pwrcap 1000) ({ heldWrite with agenda := [] }.beforeEvent (.pwrcap 1000)))) = some [] := by
  decide +kernel

/-- Refutes O59, in its clause on a happening of the agenda: a write to BAR0 waits there while an earlier write of CTXROOT has
not taken effect (R251, R388), and the step goes on without it, as in `heldWrite`. The clause lacks the hypothesis
`s.agendaHeld (.event i) = false`: with it, it is `step_event`. The other clauses hold: `FirstCrew.step_decoded`,
`FirstCrew.step_trap`, `FirstCrew.step_kill` and `step_quadrant`. -/
theorem not_stepRunsDecoded : ¬ Obligations.StepRunsDecoded := by
  unfold Obligations.StepRunsDecoded
  intro h
  obtain ⟨-, event, -⟩ := h heldWrite { heldWrite with agenda := [] } heldWrite heldWrite heldWrite 0 0 0 0 0 0 0 0
    (Crew.new 0 0 (.slot 0 0) 0 0 0 0 0) [] [] [] [] [] (.pwrcap 1000) 0 false rfl
  have same := congrArg agendaAfter (event rfl rfl rfl)
  rw [agendaAfter_step_heldWrite, agendaAfter_exec_heldWrite] at same
  cases same

end Sys2Proof.Machine

/-!
PROOFS of the family 04_control_and_value_store.md: NOP (O14), moves (O10), branches, calls, loops and reconvergence (O11 to
O13), signatures (O15), the return from a trap (O16), floors (O18), system registers and events (O19 to O21), and software traps
(O22).
-/

namespace Sys2Proof.Machine

open Sys2Proof

/-! ## NOP (R87) -/

/-- NOP is legal with any predicate, a negation only with a mask (R40, R87). -/
theorem nop_wellFormed {neg sw : Bool} {msk : BitVec 3} (h : msk ≠ 0 ∨ neg = false) :
    (Instr.nop ⟨⟨neg, msk, false, sw, 0⟩, 0, 0, 0, 0, 0, 0⟩).WellFormed := by
  revert neg sw msk
  decide

/-- Settles O14: an instruction whose effect is empty reads and writes no operand, so `frame_of_keeps` is its frame. -/
theorem noOperation : Obligations.NoOperation := by
  unfold Obligations.NoOperation
  refine ⟨fun neg sw msk => nop_wellFormed, fun x s c w h => ?_⟩
  have hw := s.opens_crew c w 0x00 x
  exact ⟨_, issueStep_keepsLanes h rfl ⟨_, hw, rfl⟩, rfl, frame_of_keeps (Keeps.start hw)⟩

/-! ## Moves (R88) -/

/-- The end of an instruction that has read its sources and delivers `sv` to a scalar or `v` to a name: the lanes of the
effective mask are found, then the destination is written. -/
def deliverPlain (c : Nat) (x : Ops) (sv : DWord) (v : Vals) : M Unit := do
  let m ← emask c x.head
  if x.head.uni then writeScalar c x.dst sv else storeVec c x false none v m

/-- A delivery to a destination that is in order (R32, R42). -/
theorem deliverPlain_run {s : State} {c : Nat} {w : Crew} {x : Ops} (sv : DWord) (v : Vals) (hw : s.crew? c = some w)
    (hm : w.marks = []) (ok : s.plainOk c x false = true) :
    deliverPlain c x sv v s = .ok () (s.plainOut c x false sv v) :=
  (M.bind_ok (State.emaskOf_run x.head hw hm)).trans (plain_run sv v hw hm ok)

/-- An instruction that has read its sources and ends with a delivery. -/
theorem AfterReads.deliver {s t : State} {c opc : Nat} {w y : Crew} {x : Ops} {sv : DWord} {v : Vals} {body : Nat → M Unit}
    (a : AfterReads s t c w y x) (h : Issues s c w x) (ok : t.plainOk c x false = true)
    (hb : body c (s.opens c w opc x) = deliverPlain c x sv v t) :
    issueStep opc x false body s = .next ((t.plainOut c x false sv v).ended c w) := by
  obtain ⟨z, hz, hact⟩ := State.plainOut_crew x false sv v a.crew
  refine issueStep_ended h nofun (hb.trans (deliverPlain_run sv v a.crew a.clean ok)) hz ?_
  rw [hact, a.act]
  exact h.awake

/-- A source that is in order is read after others (R39). -/
theorem AfterReads.readSrc_run {s t : State} {c : Nat} {w y : Crew} {x : Ops} {code : BitVec 8} (a : AfterReads s t c w y x)
    (ok : t.srcOk c code false = true) :
    readSrc c x.head code false t = .ok (t.srcVals c x.head code false) (t.afterSrc c code false) :=
  Machine.readSrc_run a.crew a.clean ok

/-- Settles O10: each of the three reads its sources in order and ends with a delivery. -/
theorem moves : Obligations.Moves := by
  unfold Obligations.Moves
  rintro x s s0 s1 s2 s3 c w va vb vc r h
  refine ⟨?mov, ?movi, ?sel⟩
  case mov =>
    rintro rfl oa rfl rfl ok
    have a0 := AfterReads.opens h 0x10
    obtain ⟨y, a1⟩ := a0.src x.sa false
    exact a1.deliver h ok (M.bind_ok (a0.readSrc_run oa))
  case movi =>
    rintro rfl ok
    exact (AfterReads.opens h 0x11).deliver h ok rfl
  case sel =>
    rintro rfl oa rfl rfl ob rfl rfl oc rfl rfl ok rfl
    have a0 := AfterReads.opens h 0x12
    obtain ⟨y1, a1⟩ := a0.src x.sa false
    obtain ⟨y2, a2⟩ := a1.src x.sb false
    obtain ⟨y3, a3⟩ := a2.src x.sc false
    exact a3.deliver h ok
      ((M.bind_ok (a0.readSrc_run oa)).trans ((M.bind_ok (a1.readSrc_run ob)).trans (M.bind_ok (a2.readSrc_run oc))))

/-! ## Branches (R83) -/

@[simp] theorem State.opens_setCrew (s : State) (c : Nat) (w : Crew) (opc : Nat) (x : Ops) (y : Crew) :
    (s.opens c w opc x).setCrew c y = s.setCrew c y := State.setCrew_setCrew _ _ _ _

/-- An instruction that is a branch to `p`, once its target is known. -/
theorem issueStep_branch {s s1 : State} {c opc : Nat} {w y : Crew} {x : Ops} {t : Mask} {p : Addr} {body : Nat → M Unit}
    (h : Issues s c w x) (hy : y = w.begun opc x) (ht : t = y.arch.emask x.head) (can : y.canBranch t p = true)
    (room : (s.setCrew c y).branchRoom y t = .ok s1)
    (hb : body c (s.opens c w opc x) = branch c x p (s.opens c w opc x)) :
    issueStep opc x false body s = .next ((s1.setCrew c (y.branched t p)).ended c w) := by
  subst hy ht
  exact issueStep_ended h nofun (hb.trans (branch_run (s.opens_crew c w opc x) (h.begun_marks opc) can room))
    (State.crew_setCrew _ _ _) (Crew.branched_act x.head p (h.act_ne opc rfl))

/-- A scalar is read when an instruction begins. -/
theorem Issues.readScalar_run {s : State} {c : Nat} {w : Crew} {x : Ops} (h : Issues s c w x) (opc : Nat) (code : BitVec 8) :
    readScalar c code (s.opens c w opc x)
      = .ok ((w.begun opc x).arch.scalar (scalarNo code)) (s.opens c w opc x) :=
  Machine.readScalar_run code (s.opens_crew c w opc x) (h.begun_marks opc)

/-- Settles O11: BRA finds its target from its own PC, BRX in its scalar, and both branch. -/
theorem branches : Obligations.Branches := by
  unfold Obligations.Branches
  rintro x s s1 c w y t p h ht can room
  refine ⟨?bra, ?brx⟩
  case bra =>
    rintro hy rfl
    exact issueStep_branch h hy ht can room (M.bind_ok (ownPc_begun s c 0x01 w x))
  case brx =>
    rintro hy rfl
    exact issueStep_branch h hy ht can room (hy ▸ M.bind_ok (h.readScalar_run 0x02 x.sa))

/-! ## Transfers without a split (R85) -/

/-- An instruction whose effect leaves its crew as `z`, empty if no lane of it is active. -/
theorem issueStep_setCrew {s t : State} {c opc : Nat} {w z : Crew} {x : Ops} {ckpt : Bool} {body : Nat → M Unit}
    (h : Issues s c w x) (hk : ckpt = true → w.acc = []) (hb : body c (s.opens c w opc x) = .ok () (t.setCrew c z))
    (ha : z.arch.act = 0 → z.empty = true) : issueStep opc x ckpt body s = .next ((t.setCrew c z).ended c w) :=
  issueStep_live h hk hb (State.crew_setCrew _ _ _) ha

/-- The active lanes stay where an effect does not change them. -/
theorem Issues.lanesStay {s : State} {c : Nat} {w z : Crew} {x : Ops} (h : Issues s c w x) (opc : Nat)
    (e : z.arch.act = (w.begun opc x).arch.act) (h0 : z.arch.act = 0) : z.empty = true :=
  absurd h0 (h.act_ne opc e)

/-- A transfer of a crew that an instruction has already changed. -/
theorem jump_setCrew (s : State) (c : Nat) (y : Crew) {p : Addr} (hp : p.toNat % 4 = 0) :
    jump c p (s.setCrew c y) = .ok () (s.setCrew c (y.jumped p)) :=
  (jump_run (State.crew_setCrew s c y) hp).trans (by rw [State.setCrew_setCrew])

/-- A scalar is written when an instruction begins. -/
theorem Issues.writeScalar_run {s : State} {c : Nat} {w : Crew} {x : Ops} (h : Issues s c w x) (opc : Nat) (code : BitVec 8)
    (v : DWord) :
    writeScalar c code v (s.opens c w opc x) = .ok () (s.setCrew c
      { w.begun opc x with arch := (w.begun opc x).arch.setScalar (scalarNo code) v }) :=
  (Machine.writeScalar_run code v (s.opens_crew c w opc x) (h.begun_marks opc)).trans (by rw [State.opens_setCrew])

/-- CALL of an aligned target (R85). -/
theorem bodyCall_run {s : State} {c : Nat} {w y z : Crew} {x : Ops} (h : Issues s c w x) (hy : y = w.begun 0x05 x)
    (hp : (relTarget w.arch.pc x).toNat % 4 = 0)
    (hz : z = { y with arch := y.arch.setScalar (scalarNo x.dst) (BitVec.ofNat 64 y.arch.pc.toNat) }) :
    bodyCall c x (s.opens c w 0x05 x) = .ok () (s.setCrew c (z.jumped (relTarget w.arch.pc x))) := by
  subst hz hy
  exact (M.bind_ok (ownPc_begun s c 0x05 w x)).trans ((M.bind_ok (crewM_run (s.opens_crew c w 0x05 x))).trans
    ((M.bind_ok (h.writeScalar_run 0x05 x.dst _)).trans (jump_setCrew s c _ hp)))

/-- RET to an aligned target (R85). -/
theorem bodyRet_run {s : State} {c : Nat} {w y : Crew} {x : Ops} (h : Issues s c w x) (hy : y = w.begun 0x06 x)
    (hp : (targetOf (y.arch.scalar (scalarNo x.sa))).toNat % 4 = 0) :
    bodyRet c x (s.opens c w 0x06 x) = .ok () (s.setCrew c (y.jumped (targetOf (y.arch.scalar (scalarNo x.sa))))) := by
  subst hy
  exact (M.bind_ok (h.readScalar_run 0x06 x.sa)).trans (jump_setCrew s c _ hp)

/-- LOOP: the counter goes down, and a transfer follows where it is not 0 (R85). -/
theorem bodyLoop_run {s : State} {c : Nat} {w y z : Crew} {x : Ops} {v : DWord} (h : Issues s c w x)
    (hy : y = w.begun 0x08 x) (hv : v = y.arch.scalar (scalarNo x.dst) - 1)
    (hp : v ≠ 0 → (relTarget w.arch.pc x).toNat % 4 = 0)
    (hz : z = { y with arch := y.arch.setScalar (scalarNo x.dst) v }) :
    bodyLoop c x (s.opens c w 0x08 x) = .ok () (s.setCrew c
      (if v ≠ 0 then z.jumped (relTarget w.arch.pc x) else z.blockEntry z.arch.pc)) := by
  subst hz hv hy
  refine (M.bind_ok (ownPc_begun s c 0x08 w x)).trans ((M.bind_ok (h.readScalar_run 0x08 x.dst)).trans
    ((M.bind_ok (h.writeScalar_run 0x08 x.dst _)).trans ?_))
  by_cases hv : (w.begun 0x08 x).arch.scalar (scalarNo x.dst) - 1 ≠ 0
  · rw [if_pos hv, if_pos hv]
    exact jump_setCrew s c _ (hp hv)
  · rw [if_neg hv, if_neg hv]
    exact (enterNext_run (State.crew_setCrew _ _ _)).trans (by rw [State.setCrew_setCrew])

/-- Settles O12: none of the three changes the active lanes. -/
theorem callsAndLoops : Obligations.CallsAndLoops := by
  unfold Obligations.CallsAndLoops
  rintro x s c w y z v p h
  have linked (opc : Nat) (u : DWord) (hy : y = w.begun opc x)
      (hz : z = { y with arch := y.arch.setScalar (scalarNo x.dst) u }) : z.arch.act = (w.begun opc x).arch.act := by
    rw [hz, Crew.withScalar_act, hy]
  refine ⟨?call, ?ret, ?loop⟩
  case call =>
    rintro hy rfl hp hz
    exact issueStep_setCrew h nofun (bodyCall_run h hy hp hz)
      (h.lanesStay 0x05 ((z.jumped_act _).trans (linked 0x05 _ hy hz)))
  case ret =>
    rintro hy rfl hp
    exact issueStep_setCrew h nofun (bodyRet_run h hy hp) (h.lanesStay 0x06 ((y.jumped_act _).trans (by rw [hy])))
  case loop =>
    rintro hy hv rfl hp hz
    refine issueStep_setCrew h nofun (bodyLoop_run h hy hv hp hz) (h.lanesStay 0x08 ?_)
    split
    · exact (z.jumped_act _).trans (linked 0x08 _ hy hz)
    · exact (z.blockEntry_act _).trans (linked 0x08 _ hy hz)

/-! ## Reconvergence (R82, R84, R86, R101) -/

/-- An instruction whose push finds no room in the spill area kills its gang (R286, R313). -/
theorem issueStep_spill {s t : State} {c opc : Nat} {w : Crew} {x : Ops} {body : Nat → M Unit} (h : Issues s c w x)
    (hb : body c (s.opens c w opc x) = .error .spill t) :
    issueStep opc x false body s = .next (t.gangKill w.gang
      { cause := cMemFault, kind := 0, inst := coreInst (t.coreOf w), addr := 0, crew := t.crewId w,
        pc := w.arch.pc.toNat, again := true }) := by
  have hr := issue_error (ckpt := false) h nofun hb
  simp [issueStep, crewStep, h.cur, h.crew, hr, settleIssue]

/-- DVG where its push cannot make room (R82, R84). -/
theorem bodyDvg_spill {s s1 : State} {c : Nat} {w : Crew} {x : Ops} (room : (w.begun 0x03 x).arch.stack.length < 1024)
    (spill : (s.opens c w 0x03 x).spillPush (w.begun 0x03 x) = .error s1) :
    bodyDvg c x (s.opens c w 0x03 x) = .error .spill s1 :=
  have hw := s.opens_crew c w 0x03 x
  (M.bind_ok (ownPc_begun s c 0x03 w x)).trans ((M.bind_ok (crewM_run hw)).trans
    (M.bind_error (push_spill _ hw room spill)))

/-- DVG where its push makes room (R82, R84). -/
theorem bodyDvg_run {s s1 : State} {c : Nat} {w y : Crew} {x : Ops} (h : Issues s c w x) (hy : y = w.begun 0x03 x)
    (room : y.arch.stack.length < 1024) (spill : (s.setCrew c y).spillPush y = .ok s1) :
    bodyDvg c x (s.opens c w 0x03 x) = .ok () (s1.setCrew c (Crew.blockEntry
      { y with arch := { y.arch with stack := ⟨.join, relTarget w.arch.pc x, y.arch.act⟩ :: y.arch.stack } } y.arch.pc)) := by
  subst hy
  have hw := s.opens_crew c w 0x03 x
  exact (M.bind_ok (ownPc_begun s c 0x03 w x)).trans ((M.bind_ok (crewM_run hw)).trans
    ((M.bind_ok (push_run _ hw (h.begun_marks 0x03) room spill)).trans
      ((enterNext_run (State.crew_setCrew _ _ _)).trans (by rw [State.setCrew_setCrew]))))

/-- Settles O13: each of the four changes its crew alone, DVG once the spill area has taken an entry; CVG and EXIT leave a crew
without a lane empty (R84, R86). -/
theorem reconvergence : Obligations.Reconvergence := by
  unfold Obligations.Reconvergence
  rintro k x s s1 c w y h
  refine ⟨?spill, ?dvg, ?cvg, ?exit, ?ppt⟩
  case spill =>
    rintro rfl room spill
    exact issueStep_spill h (bodyDvg_spill room spill)
  case dvg =>
    rintro hy room spill
    refine issueStep_setCrew h nofun (bodyDvg_run h hy room spill) (h.lanesStay 0x03 ?_)
    rw [Crew.blockEntry_act, hy]
  case cvg =>
    rintro rfl
    refine issueStep_setCrew h nofun ?_ (Crew.popStack_live _ _)
    exact (pop_run (s.opens_crew c w 0x04 x) (h.begun_marks 0x04)).trans (by rw [State.opens_setCrew])
  case exit =>
    rintro rfl
    refine issueStep_setCrew h nofun ?_ (Crew.left_live _ _)
    have hw := s.opens_crew c w 0x07 x
    have hm := h.begun_marks 0x07
    exact (M.bind_ok (emask_run x.head hw hm)).trans ((leaveLanes_run _ hw hm).trans (by rw [State.opens_setCrew]))
  case ppt =>
    rintro rfl
    refine issueStep_setCrew h nofun ?_ (h.lanesStay 0x09 rfl)
    have hw := s.opens_crew c w 0x09 x
    exact (M.bind_ok (crewM_run hw)).trans ((M.bind_ok (getS_run _)).trans
      ((modC_run _ hw).trans (by rw [State.opens_setCrew]; rfl)))

/-! ## Signatures (R105, R106, R322) -/

/-- The state in which an instruction that folds itself takes effect has the crew as `passed`. -/
theorem State.passed_crew (s : State) (c : Nat) (w : Crew) (x : Ops) :
    (s.setCrew c (w.passed x)).crew? c = some (w.passed x) := State.crew_setCrew _ _ _

/-- The own PC of an instruction that folds itself. -/
theorem ownPc_passed (s : State) (c : Nat) (w : Crew) (x : Ops) :
    ownPc c x (s.setCrew c (w.passed x)) = .ok w.arch.pc (s.setCrew c (w.passed x)) := by
  rw [ownPc_run x (s.passed_crew c w x)]
  exact congrArg (fun p => EStateM.Result.ok p _) (BitVec.add_sub_cancel _ _)

/-- An instruction that folds itself, if at all, and leaves its crew as `z` with the same active lanes. -/
theorem passedStep_setCrew {s : State} {c opc : Nat} {w z : Crew} {x : Ops} {body : Nat → M Unit} (h : Issues s c w x)
    (hb : body c (s.setCrew c (w.passed x)) = .ok () (s.setCrew c z)) (ha : z.arch.act = w.arch.act) :
    crewStep x.head (fun k => issue k opc x false false (body k)) s = .next ((s.setCrew c z).ended c w) :=
  issueAs_live (folds := false) h nofun hb (State.crew_setCrew _ _ _) fun h0 => absurd (ha ▸ h0) h.awake

/-- The record of a SIGCHK that finds another signature (R322). -/
def sigMismatch (s : State) (c : Nat) (w : Crew) (x : Ops) : State :=
  (s.setCrew c (w.passed x)).record
    { Rec.of (some (s.ctxOf w)) 0x0D 0 (coreInst (s.coreOf w)) with
      crew := s.crewId w
      pc := w.arch.pc.toNat
      addr := w.arch.sig.toNat }

/-- SIGCHK with another signature (R105, R322). -/
theorem bodySigchk_mismatch {s : State} {c : Nat} {w : Crew} {x : Ops} (off : (w.passed x).anyAct = false)
    (ne : (w.passed x).arch.sig ≠ x.ext.extractLsb' 0 32) :
    bodySigchk c x (s.setCrew c (w.passed x)) = .error (.trap cSigFault 0 (some w.arch.act)) (sigMismatch s c w x) := by
  unfold bodySigchk
  refine (M.bind_ok (crewM_setCrew _ _ _)).trans ?_
  rw [if_pos (by rw [off]; rfl)]
  dsimp only
  rw [if_pos ne]
  exact (M.bind_ok (ownPc_passed s c w x)).trans rfl

/-- SIGCHK with the signature that it expects folds itself (R105). -/
theorem bodySigchk_match {s : State} {c : Nat} {w : Crew} {x : Ops} (off : (w.passed x).anyAct = false)
    (eq : (w.passed x).arch.sig = x.ext.extractLsb' 0 32) :
    bodySigchk c x (s.setCrew c (w.passed x)) = .ok () (s.setCrew c ((w.passed x).foldInstr 0xF3 x.head)) := by
  unfold bodySigchk
  refine (M.bind_ok (crewM_setCrew _ _ _)).trans ?_
  rw [if_pos (by rw [off]; rfl)]
  dsimp only
  rw [if_neg (fun ne => ne eq)]
  exact modC_setCrew _ _ _ _

/-- SIGCHK in a handler has no effect (R106). -/
theorem bodySigchk_handler {s : State} {c : Nat} {w : Crew} {x : Ops} (on : (w.passed x).anyAct = true) :
    bodySigchk c x (s.setCrew c (w.passed x)) = .ok () (s.setCrew c (w.passed x)) := by
  unfold bodySigchk
  refine (M.bind_ok (crewM_setCrew _ _ _)).trans ?_
  rw [if_neg (by rw [on]; decide)]
  rfl

/-- Settles O15: the fault leaves from the state before the SIGCHK; the other cases keep the active lanes. -/
theorem signatureChecks : Obligations.SignatureChecks := by
  unfold Obligations.SignatureChecks
  rintro x s t c w y h rfl
  refine ⟨?mismatch, ?agree, ?handler, ?sigrst⟩
  case mismatch =>
    rintro off ne rfl
    exact crewStep_trap h (issue_passed_error h (bodySigchk_mismatch off ne))
  case agree =>
    intro off eq
    exact passedStep_setCrew h (body := fun k => bodySigchk k x) (bodySigchk_match off eq) (Crew.foldInstr_act _ _ _)
  case handler =>
    intro on
    exact passedStep_setCrew h (body := fun k => bodySigchk k x) (bodySigchk_handler on) rfl
  case sigrst =>
    refine passedStep_setCrew h (body := fun k => bodySigrst k x) (modC_setCrew _ _ _ _) ?_
    split <;> rfl

/-! ## The return from a trap (R110) -/

/-- A write to a mask changes the masks alone (R41). -/
theorem Arch.setMask_masks (a : Arch) (k : Nat) (v : Mask) : ∃ ms, a.setMask k v = { a with masks := ms } := by
  unfold Arch.setMask
  split
  · exact ⟨_, rfl⟩
  · exact ⟨_, rfl⟩

/-- What ERET brings back, and what it leaves of the registers (R110). -/
theorem Crew.leave_regs (y : Crew) :
    y.leave.arch.pc = (y.trapSet y.priv.toNat).epc ∧ y.leave.priv = (y.trapSet y.priv.toNat).prv ∧
      y.leave.arch.mask 7 = (y.trapSet y.priv.toNat).em7 ∧ y.leave.arch.scal = y.arch.scal ∧
      y.leave.arch.act = y.arch.act ∧ y.leave.arch.stack = y.arch.stack ∧ y.leave.arch.names = y.arch.names := by
  have m7 : y.leave.arch.mask 7 = (y.trapSet y.priv.toNat).em7 := by
    rw [Crew.leave_arch]
    exact Arch.setMask_self _ 7 _ (by decide)
  obtain ⟨ms, rest⟩ := Arch.setMask_masks { y.arch with pc := (y.trapSet y.priv.toNat).epc } 7 (y.trapSet y.priv.toNat).em7
  rw [← Crew.leave_arch] at rest
  refine ⟨?_, y.leave_priv, m7, ?_⟩
  · rw [rest]
  · rw [rest]
    exact ⟨rfl, rfl, rfl, rfl⟩

/-- ERET of an active handler to an aligned PC (R37, R110). -/
theorem bodyEret_run {s : State} {c : Nat} {y : Crew} (hy : s.crew? c = some y)
    (act : (y.trapSet y.priv.toNat).act = true) (aligned : (y.trapSet y.priv.toNat).epc.toNat % 4 = 0) :
    bodyEret c s = .ok () (s.setCrew c y.leave) :=
  (M.bind_ok (crewM_run hy)).trans ((M.bind_ok (check_run act)).trans ((M.bind_ok (checkTarget_run aligned)).trans
    (modC_run _ hy)))

/-- Settles O16: the return keeps the active lanes, so the crew goes on. -/
theorem trapReturn : Obligations.TrapReturn := by
  unfold Obligations.TrapReturn
  rintro x s c w y h acc rfl act aligned
  obtain ⟨hpc, hpriv, hm7, hscal, hact, hrest⟩ := (w.begun 0xF1 x).leave_regs
  refine ⟨?_, hpc, hpriv, hm7, hscal, hact, hrest⟩
  refine issueStep_setCrew h (fun _ => acc) ?_ (h.lanesStay 0xF1 hact)
  exact (bodyEret_run (s.opens_crew c w 0xF1 x) act aligned).trans (by rw [State.opens_setCrew])

/-! ## Floors and the cede pool (R95 to R97) -/

/-- The gang of a crew whose instruction begins. -/
theorem State.opens_gangOf {s : State} {c : Nat} {w : Crew} {g : Gang} (opc : Nat) (x : Ops)
    (hg : s.gang? w.gang = some g) : (s.opens c w opc x).gang? (w.begun opc x).gang = some g := by
  rw [Crew.begun_gang]
  exact hg

/-- The value store of a crew whose instruction begins. -/
theorem vsM_opens (s : State) (c opc : Nat) (w : Crew) (x : Ops) :
    vsM c (s.opens c w opc x) = .ok (s.core (s.coreOf w)).vs (s.opens c w opc x) := by
  have hcore : (s.opens c w opc x).coreOf (w.begun opc x) = s.coreOf w := s.coreOf_begun w opc x
  rw [vsM_run (s.opens_crew c w opc x), hcore]
  rfl

/-- The cede pool of a gang moves as `cede` says, and the floor of its crew as `floor` does (R95, R96). -/
theorem moveFloor_run {s : State} {c : Nat} {y : Crew} {g : Gang} (cede floor : Nat → Nat) (hy : s.crew? c = some y)
    (hg : s.gang? y.gang = some g) :
    (do
      modS fun t => t.modGang y.gang fun u => { u with cede := cede u.cede }
      modA c fun a => { a with floor := floor a.floor } : M Unit) s
      = .ok () (s.moveFloor c y.gang (floor y.arch.floor) (cede g.cede)) := by
  have hgang : s.modGang y.gang (fun u => { u with cede := cede u.cede })
      = s.modGang y.gang fun u => { u with cede := cede g.cede } := by
    rw [State.modGang_of s _ g _ hg, State.modGang_of s _ g _ hg]
  refine (M.bind_ok (modS_run _ _)).trans ?_
  rw [hgang]
  unfold State.moveFloor modA
  rw [modC_run _ ((s.modGang_crew _ _ c).trans hy)]
  simp only [hy]

/-- The active lanes stay when a floor moves. -/
theorem State.moveFloor_some {s : State} {c : Nat} {y : Crew} (gk floor cede : Nat) (hy : s.crew? c = some y) :
    ∃ z, (s.moveFloor c gk floor cede).crew? c = some z ∧ z.arch.act = y.arch.act := by
  simp [State.moveFloor, hy]

/-- A crew holds at least the entries that a CEDE counts as fixed (R14, R96). -/
theorem fixed_le_heldOf (vs : Tab Entry) (c : Nat) :
    (vs.filter fun p => p.2.crew == c && (p.2.st == .bound || p.2.st == .opened || p.2.st == .leased)).length
      ≤ heldOf vs c := by
  unfold heldOf
  rw [← List.countP_eq_length_filter, ← List.countP_eq_length_filter]
  exact List.countP_mono_left fun p _ hp => (Bool.and_eq_true _ _ ▸ hp : _ ∧ _).1

/-- CLAIM of `k` that the gang's limit and what is available allow (R95). -/
theorem bodyClaim_run {s : State} {c k : Nat} {y : Crew} {g : Gang} {vs : Tab Entry} {x : Ops} (hy : s.crew? c = some y)
    (hm : y.marks = []) (hg : s.gang? y.gang = some g) (hvs : vsM c s = .ok vs s) (ok : s.countOk c x = true)
    (hk : k = s.countOf c x)
    (room : k ≠ 0 → y.arch.floor + k ≤ g.vslim ∧
      claimDelta y.arch.floor (heldOf vs c) k - (min k g.cede : Nat) ≤ s.avail y) :
    bodyClaim c x s = .ok () (if k = 0 then s
      else s.moveFloor c y.gang (y.arch.floor + k) (g.cede - min k g.cede)) := by
  subst hk
  unfold bodyClaim
  refine (M.bind_ok (readCount_run hy hm ok)).trans ?_
  by_cases h0 : s.countOf c x = 0
  · rw [if_neg (fun ne => ne h0), if_pos h0]
    rfl
  obtain ⟨limit, space⟩ := room h0
  rw [if_pos h0, if_neg h0]
  refine (M.bind_ok (crewM_run hy)).trans ((M.bind_ok (gangM_run hy hg)).trans ((M.bind_ok hvs).trans
    ((M.bind_ok (getS_run s)).trans ((M.bind_ok (check_run (by simpa using limit))).trans ?_))))
  dsimp only
  rw [if_neg (Int.not_lt.2 space)]
  exact moveFloor_run (fun n => n - min (s.countOf c x) g.cede) (fun n => n + s.countOf c x) hy hg

/-- CEDE of `k` that the crew's entries leave free below its floor (R96). -/
theorem bodyCede_run {s : State} {c k : Nat} {y : Crew} {g : Gang} {vs : Tab Entry} {x : Ops} (hy : s.crew? c = some y)
    (hm : y.marks = []) (hg : s.gang? y.gang = some g) (hvs : vsM c s = .ok vs s) (acc : y.acc = [])
    (ok : s.countOk c x = true) (hk : k = s.countOf c x) (fits : heldOf vs c + k ≤ y.arch.floor) :
    bodyCede c x s = .ok () (s.moveFloor c y.gang (y.arch.floor - k) (g.cede + k)) := by
  subst hk
  have fixed := fixed_le_heldOf vs c
  unfold bodyCede
  refine (M.bind_ok (readCount_run hy hm ok)).trans ((M.bind_ok (crewM_run hy)).trans ((M.bind_ok hvs).trans ?_))
  dsimp only
  rw [if_neg (by omega), if_neg (by simpa [acc] using fits)]
  exact moveFloor_run (fun n => n + s.countOf c x) (fun n => n - s.countOf c x) hy hg

/-- POOLQ (R97). -/
theorem bodyPoolq_run {s : State} {c : Nat} {y : Crew} {g : Gang} {vs : Tab Entry} {x : Ops} (hy : s.crew? c = some y)
    (hm : y.marks = []) (hg : s.gang? y.gang = some g) (hvs : vsM c s = .ok vs s) :
    bodyPoolq c x s = .ok () (s.setScalarOf c x.dst (put (heldOf vs c) 48 13 ||| put y.arch.floor 32 13
      ||| put g.cede 16 13 ||| put (s.avail y).toNat 0 13)) :=
  (M.bind_ok (crewM_run hy)).trans ((M.bind_ok (gangM_run hy hg)).trans ((M.bind_ok hvs).trans
    ((M.bind_ok (getS_run s)).trans (writeScalar_of x.dst _ hy hm))))

/-- An instruction at the checkpoint whose effect keeps the active lanes ends as `ended` says. -/
theorem issueStep_ckptKeepsLanes {s t : State} {c opc : Nat} {w : Crew} {x : Ops} {body : Nat → M Unit} (h : Issues s c w x)
    (acc : w.acc = []) (hb : body c (s.opens c w opc x) = .ok () t)
    (hy : ∃ y, t.crew? c = some y ∧ y.arch.act = (w.begun opc x).arch.act) :
    issueStep opc x true body s = .next (t.ended c w) := by
  obtain ⟨y, hy, ha⟩ := hy
  exact issueStep_ended h (fun _ => acc) hb hy (h.act_ne opc ha)

/-- Settles O18: the three read the crew, its gang and its entries as the instruction begins. -/
theorem floors : Obligations.Floors := by
  unfold Obligations.Floors
  rintro x s s0 c k w y g vs h hg rfl hk
  refine ⟨?claim, ?cede, ?poolq⟩
  case claim =>
    rintro rfl rfl acc ok room
    have hw := s.opens_crew c w 0x17 x
    have hb := bodyClaim_run hw (h.begun_marks 0x17) (State.opens_gangOf 0x17 x hg) (vsM_opens s c 0x17 w x) ok hk room
    rw [Crew.begun_gang] at hb
    refine issueStep_ckptKeepsLanes h acc hb ?_
    split
    · exact ⟨_, hw, rfl⟩
    · exact State.moveFloor_some _ _ _ hw
  case cede =>
    rintro rfl rfl acc ok fits
    have hw := s.opens_crew c w 0x18 x
    have hb := bodyCede_run hw (h.begun_marks 0x18) (State.opens_gangOf 0x18 x hg) (vsM_opens s c 0x18 w x)
      ((w.begun_acc 0x18 x).trans acc) ok hk fits
    rw [Crew.begun_gang] at hb
    exact issueStep_keepsLanes h hb (State.moveFloor_some _ _ _ hw)
  case poolq =>
    rintro rfl rfl
    have hw := s.opens_crew c w 0x19 x
    exact issueStep_keepsLanes h
      (bodyPoolq_run hw (h.begun_marks 0x19) (State.opens_gangOf 0x19 x hg) (vsM_opens s c 0x19 w x))
      (State.setScalarOf_some _ _ hw)

/-! ## System registers (R26, R27, R107) -/

/-- What CSRR delivers to a scalar and to the lanes of a name: register 0 is the lane number (R26, R27). -/
def csrrScalar (k : Nat) (m : Mask) (v : DWord) : DWord :=
  if k = 0 then BitVec.ofNat 64 (match lanesOf m with
    | [] => 32
    | l :: _ => l.val) else v

def csrrLanes (k : Nat) (v : DWord) : Vals :=
  if k = 0 then Vector.ofFn fun l => BitVec.ofNat 64 l.val else Vector.replicate 32 v

/-- CSRR of a register that the crew's level may read; it folds itself once it has the value (R107). -/
theorem bodyCsrr_run {s s1 : State} {c k : Nat} {w : Crew} {x : Ops} {g : Gang} (level : csrReadLevel k ≤ w.priv.toNat)
    (clean : w.marks = []) (hg : s.gang? w.gang = some g)
    (hs1 : s1 = s.setCrew c ((w.passed x).foldInstr 0x1A x.head)) (ok : s1.plainOk c x false = true) :
    bodyCsrr c k x (s.setCrew c (w.passed x)) = .ok () (s1.plainOut c x false
      (csrrScalar k (s1.emaskOf c x.head) ((s.setCrew c (w.passed x)).csr (w.passed x) g k))
      (csrrLanes k ((s.setCrew c (w.passed x)).csr (w.passed x) g k))) := by
  have hw := s.passed_crew c w x
  have hw1 : s1.crew? c = some ((w.passed x).foldInstr 0x1A x.head) := hs1 ▸ State.crew_setCrew _ _ _
  have hm1 : ((w.passed x).foldInstr 0x1A x.head).marks = [] := (Crew.foldInstr_marks _ _ _).trans clean
  unfold bodyCsrr
  refine (M.bind_ok (needPriv_run hw level)).trans ((M.bind_ok (crewM_run hw)).trans ((M.bind_ok (gangM_run hw hg)).trans
    ((M.bind_ok (getS_run _)).trans ((M.bind_ok (modC_setCrew _ _ _ _)).trans ?_))))
  rw [← hs1]
  refine (M.bind_ok (State.emaskOf_run x.head hw1 hm1)).trans (Eq.trans ?_ (plain_run _ _ hw1 hm1 ok))
  unfold csrrScalar csrrLanes
  by_cases h0 : k = 0
  · cases lanesOf (s1.emaskOf c x.head) <;> simp only [if_pos h0]
  · simp only [if_neg h0]

/-- Settles O19: the value is the register's before the CSRR's own fold; the delivery is that of a move. -/
theorem readRegister : Obligations.ReadRegister := by
  unfold Obligations.ReadRegister
  rintro k x s s0 s1 c w g v h level hg rfl rfl hs1 ok
  have hb := bodyCsrr_run level h.clean hg hs1 ok
  have hw1 : s1.crew? c = some ((w.passed x).foldInstr 0x1A x.head) := hs1 ▸ State.crew_setCrew _ _ _
  obtain ⟨y, hy, hact⟩ := State.plainOut_crew x false
    (csrrScalar k.toNat (s1.emaskOf c x.head) ((s.setCrew c (w.passed x)).csr (w.passed x) g k.toNat))
    (csrrLanes k.toNat ((s.setCrew c (w.passed x)).csr (w.passed x) g k.toNat)) hw1
  have awake : y.arch.act ≠ 0 := by
    rw [hact, Crew.foldInstr_act]
    exact h.awake
  have run := issueAs_live (opc := 0x1A) (ckpt := false) (folds := false) (body := fun c => bodyCsrr c k.toNat x) h nofun hb
    hy fun h0 => absurd h0 awake
  have hk : (k.toNat = 0) = (k = 0) := propext ⟨fun e => BitVec.eq_of_toNat_eq e, fun e => by rw [e]; rfl⟩
  simp only [csrrScalar, csrrLanes, hk] at run
  exact run

/-- A write of DBGCTL leaves the active lanes (R324). -/
theorem Crew.writeDbgctl_act (y : Crew) (names : Tab EState) (v : DWord) :
    (y.writeDbgctl names v).arch.act = y.arch.act := by
  unfold Crew.writeDbgctl
  dsimp only
  split <;> rfl

/-- A change of the crew that keeps its active lanes. -/
theorem State.modCrew_some {s : State} {c : Nat} {y : Crew} {f : Crew → Crew} (hy : s.crew? c = some y)
    (hf : (f y).arch.act = y.arch.act) : ∃ z, (s.modCrew c f).crew? c = some z ∧ z.arch.act = y.arch.act := by
  rw [State.modCrew_of s c y f hy]
  exact ⟨f y, State.crew_setCrew _ _ _, hf⟩

/-- CSRW of any register leaves the active lanes of its crew (R27). -/
theorem State.csrWrite_some {s : State} {c : Nat} {y : Crew} (u : Crew) (g : Gang) (k : Nat) (v : DWord)
    (hy : s.crew? c = some y) : ∃ z, (s.csrWrite c u g k v).crew? c = some z ∧ z.arch.act = y.arch.act := by
  have same : ∀ t : State, t.crew? c = s.crew? c → ∃ z, t.crew? c = some z ∧ z.arch.act = y.arch.act :=
    fun t ht => ⟨y, ht.trans hy, rfl⟩
  fun_cases State.csrWrite s c u g k v
  case case4 => exact same _ (State.setKeyslot_crew _ _ _ _)
  case case1 | case3 | case10 | case11 | case12 | case13 => exact State.modCrew_some hy rfl
  case case14 => exact State.modCrew_some hy (y.writeDbgctl_act _ _)
  case case15 => exact same _ (State.modGang_crew _ _ _ _)
  all_goals exact same _ rfl

/-- CSRW of a register that the crew's level may write (R107). -/
theorem bodyCsrw_run {s : State} {c k : Nat} {y : Crew} {x : Ops} {g : Gang} (hy : s.crew? c = some y) (hm : y.marks = [])
    (level : csrWriteLevel k ≤ y.priv.toNat) (hg : s.gang? y.gang = some g) :
    bodyCsrw c k x s = .ok () (s.csrWrite c y g k (s.scalarOf c x.sa)) := by
  have scalar : s.scalarOf c x.sa = y.arch.scalar (scalarNo x.sa) := by simp [State.scalarOf, hy]
  rw [scalar]
  exact (M.bind_ok (needPriv_run hy level)).trans ((M.bind_ok (readScalar_run x.sa hy hm)).trans
    ((M.bind_ok (crewM_run hy)).trans (M.bind_ok (gangM_run hy hg))))

/-- Settles O20: a CSRW leaves the active lanes, whatever register it writes. -/
theorem writeRegister : Obligations.WriteRegister := by
  unfold Obligations.WriteRegister
  rintro k x s s0 c w g h level acc hg rfl
  have hw := s.opens_crew c w 0x1B x
  exact issueStep_ckptKeepsLanes h acc
    (bodyCsrw_run hw (h.begun_marks 0x1B) (by rwa [Crew.begun_priv]) (State.opens_gangOf 0x1B x hg))
    (State.csrWrite_some _ g _ _ hw)

/-! ## Events (R108) -/

/-- The context of a crew whose instruction begins. -/
theorem State.ctxOf_begun (s : State) (w : Crew) (opc : Nat) (x : Ops) : s.ctxOf (w.begun opc x) = s.ctxOf w := by
  unfold State.ctxOf
  rw [Crew.begun_gang]

/-- The end of an EVWAIT: the wait is over, the count goes to the scalar (R108). -/
theorem bodyEvwait_run {s : State} {c k : Nat} {w y : Crew} {x : Ops} (h : Issues s c w x)
    (hy : y = { w.begun 0xE4 x with evsnap := none }) :
    bodyEvwait c k x (s.opens c w 0xE4 x) = .ok () ((s.setCrew c y).setScalarOf c x.dst
      (BitVec.ofNat 64 (s.eventCount (s.ctxOf w) k))) := by
  have hw := s.opens_crew c w 0xE4 x
  have count : (s.opens c w 0xE4 x).eventCount ((s.opens c w 0xE4 x).ctxOf (w.begun 0xE4 x)) k
      = s.eventCount (s.ctxOf w) k := congrArg (fun n => s.eventCount n k) (s.ctxOf_begun w 0xE4 x)
  have awoken : modC c (fun z => { z with evsnap := none }) (s.opens c w 0xE4 x) = .ok () (s.setCrew c y) :=
    (modC_run _ hw).trans (by rw [State.opens_setCrew, hy])
  have clean : y.marks = [] := by
    rw [hy]
    exact h.begun_marks 0xE4
  rw [← count]
  exact (M.bind_ok (crewM_run hw)).trans ((M.bind_ok (getS_run _)).trans ((M.bind_ok awoken).trans
    (writeScalar_of x.dst _ (State.crew_setCrew _ _ _) clean)))

/-- EVWAIT once the count exceeds the sample (R108). -/
theorem runEvwait_done {s : State} {c k : Nat} {w y : Crew} {x : Ops} (h : Issues s c w x)
    (more : (evStart w k (s.eventCount (s.ctxOf w) k)).count < s.eventCount (s.ctxOf w) k)
    (hy : y = { w.begun 0xE4 x with evsnap := none }) :
    runEvwait c k x s = .ok () (((s.setCrew c y).setScalarOf c x.dst
      (BitVec.ofNat 64 (s.eventCount (s.ctxOf w) k))).ended c w) := by
  obtain ⟨z, hz, hact⟩ := State.setScalarOf_some x.dst (BitVec.ofNat 64 (s.eventCount (s.ctxOf w) k)) (s.crew_setCrew c y)
  have awake : z.arch.act ≠ 0 := h.act_ne 0xE4 (hact.trans (by rw [hy]))
  have run := issue_run (opc := 0xE4) (ckpt := false) (folds := true) h.crew h.sw nofun (bodyEvwait_run (k := k) h hy) hz
    fun h0 => absurd h0 awake
  have ended : ((s.setCrew c y).setScalarOf c x.dst (BitVec.ofNat 64 (s.eventCount (s.ctxOf w) k))).ended c w
      = ((s.setCrew c y).setScalarOf c x.dst (BitVec.ofNat 64 (s.eventCount (s.ctxOf w) k))).issued c w z := by
    simp only [State.ended, hz]
  unfold runEvwait
  refine (M.bind_ok (crewM_run h.crew)).trans ((M.bind_ok (vsM_run h.crew)).trans ?_)
  rw [if_neg (by rw [h.goes]; decide)]
  refine (M.bind_ok (getS_run s)).trans ?_
  rw [if_pos more, run, ended]

/-- EVWAIT until then: the sample is kept, and the crew waits for the event (R108). -/
theorem runEvwait_waits {s : State} {c k : Nat} {w : Crew} {x : Ops} (h : Issues s c w x)
    (under : ¬ (evStart w k (s.eventCount (s.ctxOf w) k)).count < s.eventCount (s.ctxOf w) k) :
    runEvwait c k x s = .ok () (s.setCrew c
      { w with
        evsnap := some (evStart w k (s.eventCount (s.ctxOf w) k))
        park := some (.event k) }) := by
  unfold runEvwait
  refine (M.bind_ok (crewM_run h.crew)).trans ((M.bind_ok (vsM_run h.crew)).trans ?_)
  rw [if_neg (by rw [h.goes]; decide)]
  refine (M.bind_ok (getS_run s)).trans ?_
  rw [if_neg under]
  exact modC_run _ h.crew

/-- Settles O21: the count against the sample decides. -/
theorem eventWait : Obligations.EventWait := by
  unfold Obligations.EventWait
  rintro k x s c now w y e h rfl rfl hy
  exact ⟨fun more => crewStep_run h.cur h.crew (runEvwait_done h more hy),
    fun under => crewStep_run h.cur h.crew (runEvwait_waits h under)⟩

/-! ## Software traps (R109) -/

/-- A cause that is raised at the checkpoint (R55, R109). -/
theorem raiseAtCheckpoint_error {s : State} {c : Nat} {y : Crew} (cause : Cause) (addr : Nat) (lanes : Option Mask)
    (hy : s.crew? c = some y) (acc : y.acc = []) :
    raiseAtCheckpoint c cause addr lanes s = .error (.trap cause addr lanes) s := by
  unfold raiseAtCheckpoint
  refine (M.bind_ok (crewM_run hy)).trans ?_
  simp [acc, stop]

/-- A software trap with a lane in its effective mask is taken. -/
theorem issueStep_softwareTrap {s : State} {c opc : Nat} {w : Crew} {x : Ops} (cause : Cause) (h : Issues s c w x)
    (ne : (s.opens c w opc x).emaskOf c x.head ≠ 0) (acc : w.acc = []) :
    issueStep opc x false (fun c => bodyTrap c x cause) s
      = .next ((s.opens c w opc x).trapped s c w cause 0 ((s.opens c w opc x).emaskOf c x.head)) := by
  have hw := s.opens_crew c w opc x
  refine crewStep_trap h (issue_error h nofun ((M.bind_ok (State.emaskOf_run x.head hw (h.begun_marks opc))).trans ?_))
  rw [if_pos ne]
  exact raiseAtCheckpoint_error _ _ _ hw ((w.begun_acc opc x).trans acc)

/-- A software trap with an empty effective mask does nothing. -/
theorem issueStep_softwareTrap_empty {s : State} {c opc : Nat} {w : Crew} {x : Ops} (cause : Cause) (h : Issues s c w x)
    (empty : (s.opens c w opc x).emaskOf c x.head = 0) :
    issueStep opc x false (fun c => bodyTrap c x cause) s = .next ((s.opens c w opc x).ended c w) := by
  have hw := s.opens_crew c w opc x
  refine issueStep_keepsLanes h ((M.bind_ok (State.emaskOf_run x.head hw (h.begun_marks opc))).trans ?_) ⟨_, hw, rfl⟩
  rw [if_neg fun ne => ne empty]
  rfl

/-- Settles O22: TRAP and BKPT differ in their cause alone. -/
theorem softwareTraps : Obligations.SoftwareTraps := by
  unfold Obligations.SoftwareTraps
  rintro k x s s0 c w m h rfl
  refine ⟨?trap, ?bkpt⟩
  case trap =>
    rintro rfl
    exact ⟨issueStep_softwareTrap _ h, issueStep_softwareTrap_empty _ h⟩
  case bkpt =>
    rintro rfl
    exact ⟨issueStep_softwareTrap _ h, issueStep_softwareTrap_empty _ h⟩

end Sys2Proof.Machine

/-!
PROOFS of the family 05_arithmetic_and_lanes.md: the lane instructions by their number of sources (O1 to O3) and their frame
(O54), comparisons (O4), carries, addresses and classes (O5), conversions (O6), packed data (O7), moves between lanes (O8) and
what combines the lanes (O9).
-/

namespace Sys2Proof.Machine

open Sys2Proof

/-! ## After the reads of an instruction (R30, R39, R90) -/

/-- A change of the crew's names and of entries is one more read. -/
theorem AfterReads.near {s t u : State} {c : Nat} {w y z : Crew} {x : Ops} (a : AfterReads s t c w y x)
    (hz : u.crew? c = some z) (same : y.sameButNames z) (near : t.Near u c) : AfterReads s u c w z x := by
  obtain ⟨hg, hh, -⟩ := Crew.sameButNames_gang same
  refine ⟨hz, (Crew.sameButNames_marks same).trans a.clean, hg.trans a.gang, hh.trans a.home, ?_, ?_,
    (Crew.sameButNames_act same).trans a.act, fun r => (Crew.sameButNames_scalar same r).trans (a.scal r), ?_⟩
  · rw [same]; exact a.park
  · rw [same]; exact a.pc
  · rw [near.rest]; exact a.gangs

/-- Source B is read after others. -/
theorem AfterReads.srcB {s t : State} {c : Nat} {w y : Crew} {x : Ops} (a : AfterReads s t c w y x) (wide : Bool) :
    ∃ z, AfterReads s (t.afterB c wide x) c w z x := by
  obtain ⟨z, hz, same⟩ := State.afterB_crew wide x a.crew
  exact ⟨z, a.near hz same (t.near_afterB c wide x)⟩

/-- The merge source is read after others. -/
theorem AfterReads.merge {s t : State} {c : Nat} {w y : Crew} {x : Ops} (a : AfterReads s t c w y x) (f : FnT) :
    ∃ z, AfterReads s (t.afterMg c f x) c w z x := by
  obtain ⟨z, hz, same⟩ := State.afterMg_crew f x a.crew
  exact ⟨z, a.near hz same (t.near_afterMg c f x)⟩

/-- A source in order, perhaps a pair, is read after others (R39, R113). -/
theorem AfterReads.source_run {s t : State} {c : Nat} {w y : Crew} {x : Ops} {code : BitVec 8} {wide : Bool}
    (a : AfterReads s t c w y x) (ok : t.srcOk c code wide = true) :
    readSrc c x.head code wide t = .ok (t.srcVals c x.head code wide) (t.afterSrc c code wide) :=
  Machine.readSrc_run a.crew a.clean ok

/-- So is source B (R44). -/
theorem AfterReads.sourceB_run {s t : State} {c : Nat} {w y : Crew} {x : Ops} {ty : Ty} {wide : Bool}
    (a : AfterReads s t c w y x) (ok : t.bOk c wide x = true) :
    readB c ty wide x t = .ok (t.bVals c ty wide x) (t.afterB c wide x) := readB_run a.crew a.clean ok

/-- A source, then the effective mask. -/
theorem AfterReads.sourceMask_run {s t : State} {c : Nat} {w y : Crew} {x : Ops} {code : BitVec 8} {wide : Bool}
    (a : AfterReads s t c w y x) (ok : t.srcOk c code wide = true) (rest : Vals → Mask → M Unit) :
    (readSrc c x.head code wide >>= fun v => emask c x.head >>= rest v) t
      = rest (t.srcVals c x.head code wide) ((t.afterSrc c code wide).emaskOf c x.head) (t.afterSrc c code wide) := by
  obtain ⟨z, b⟩ := a.src code wide
  exact (M.bind_ok (a.source_run ok)).trans (M.bind_ok (b.mask x.head))

/-- An instruction that has read its sources ends where its effect keeps the active lanes. -/
theorem AfterReads.ends {s t u : State} {c opc : Nat} {w y : Crew} {x : Ops} {body : Nat → M Unit}
    (a : AfterReads s t c w y x) (h : Issues s c w x) (hb : body c (s.opens c w opc x) = .ok () u)
    (hz : ∃ z, u.crew? c = some z ∧ z.arch.act = y.arch.act) : issueStep opc x false body s = .next (u.ended c w) := by
  obtain ⟨z, hz, hact⟩ := hz
  refine issueStep_ended h nofun hb hz ?_
  rw [hact, a.act]
  exact h.awake

/-- The reads of a lane instruction's first `n` sources (R30, R39). -/
theorem AfterReads.sources {s : State} {c : Nat} {w : Crew} {x : Ops} (h : Issues s c w x) (opc : Nat) (f : FnT) (n : Nat) :
    ∃ y, AfterReads s ((s.opens c w opc x).afterSources c f x n) c w y x := by
  obtain ⟨y, hy, same⟩ := State.afterSources_crew f x n (s.opens_crew c w opc x)
  exact ⟨y, (AfterReads.opens h opc).near hy same (State.near_afterSources _ c f x n)⟩

/-! ## One, two and three sources (R115 to R117, R121 to R123, R125) -/

/-- Settles O1: the source is read, and its function is delivered. -/
theorem oneSourceLanes : Obligations.OneSourceLanes := by
  unfold Obligations.OneSourceLanes
  rintro i opc f x op s s0 s1 c w hi h rfl oa rfl ok
  obtain ⟨y, a⟩ := (AfterReads.opens h opc).src x.sa f.ty.wide
  rw [exec_unary s hi]
  exact a.ends h (laneUnary_run op (s.opens_crew c w opc x) (h.begun_marks opc) oa ok) (State.out_crew f x _ _ _ a.crew)

/-- Settles O2: the two sources are read in order, and their function is delivered. -/
theorem twoSourceLanes : Obligations.TwoSourceLanes := by
  unfold Obligations.TwoSourceLanes
  rintro i opc f x op s s0 s1 s2 c w va vb hi h rfl oa rfl rfl ob rfl rfl ok
  obtain ⟨y, a1⟩ := (AfterReads.opens h opc).src x.sa f.ty.wide
  obtain ⟨z, a2⟩ := a1.srcB f.ty.wide
  rw [exec_binary s hi]
  exact a2.ends h (laneBinary_run op (s.opens_crew c w opc x) (h.begun_marks opc) oa ob ok)
    (State.out_crew f x _ _ _ a2.crew)

/-- Settles O3: the three sources are read in order, and their function is delivered. -/
theorem threeSourceLanes : Obligations.ThreeSourceLanes := by
  unfold Obligations.ThreeSourceLanes
  rintro i opc f x op s s0 s1 s2 s3 c w va vb vc hi h rfl oa rfl rfl ob rfl rfl oc rfl rfl ok
  obtain ⟨y1, a1⟩ := (AfterReads.opens h opc).src x.sa f.ty.wide
  obtain ⟨y2, a2⟩ := a1.srcB f.ty.wide
  obtain ⟨y3, a3⟩ := a2.src x.sc f.ty.wide
  rw [exec_ternary s hi]
  exact a3.ends h (laneTernary_run op (s.opens_crew c w opc x) (h.begun_marks opc) oa ob oc ok)
    (State.out_crew f x _ _ _ a3.crew)

/-! ## The frame of a lane instruction (R30 to R32) -/

/-- The first `n` sources of an instruction are names that it touches. -/
theorem Keeps.afterSources {s u : State} {c n : Nat} {w : Crew} {f : FnT} {x : Ops} {S : Nat → Bool}
    (k : Keeps s c w (touches f x n) S u) : Keeps s c w (touches f x n) S (u.afterSources c f x n) := by
  have ka := k.afterSrc x.sa f.ty.wide fun _ => touches_sa
  have kb (h2 : ¬ n < 2) := ka.afterB f.ty.wide x fun j h0 hj => by simp [touches, h0, hj, Nat.not_lt.1 h2]
  unfold State.afterSources
  dsimp only
  split
  next => exact ka
  next h2 =>
    split
    next => exact kb h2
    next h3 => exact (kb h2).afterSrc x.sc f.ty.wide fun j hj => by simp [touches, hj, Nat.not_lt.1 h3]

/-- Settles O54: the sources and the destination are the names that the instruction touches, so `frame_of_keeps` is its
frame. -/
theorem laneFrame : Obligations.LaneFrame := by
  unfold Obligations.LaneFrame
  rintro i opc n f x s s0 s1 c w hi h rfl os rfl ok
  have hw := s.opens_crew c w opc x
  obtain ⟨op, hop⟩ := exec_laneForm s hi
  obtain ⟨⟨va, vb, vc⟩, hv⟩ := laneSources_run hw (h.begun_marks opc) os
  obtain ⟨y, a⟩ := AfterReads.sources h opc f n
  refine ⟨_, hop.trans (a.ends h (body := fun c => laneBody n c f x op)
    ((M.bind_ok hv).trans (laneResult_run op va vb vc a.crew a.clean ok)) (State.out_crew f x _ _ _ a.crew)), ?_⟩
  exact frame_of_keeps ((Keeps.start hw).afterSources.outT _ _ ok)

/-! ## Comparisons (R118, R122) -/

/-- A comparison: two sources, then the condition `p` of each lane. -/
def compareBody (c : Nat) (f : FnT) (x : Ops) (wide : Bool) (p : Nat → Nat → Bool) : M Unit := do
  let va ← readSrc c x.head x.sa wide
  let vb ← readB c f.ty wide x
  writeCond c f x fun i => p va[i].toNat vb[i].toNat

/-- Both comparisons are `compareBody`: FCMP compares single operands of FP32. -/
theorem exec_compare (f : FnT) (x : Ops) (s : State) (float : Bool) :
    exec (if float then .fcmp f x else .icmp f x) s = issueStep (if float then 0x46 else 0x2B) x false
      (fun c => compareBody c f x (!float && f.ty.wide) fun a b => if float then Alu.fcmp f a b else Alu.icmp f a b) s := by
  cases float <;> rfl

/-- Settles O4: the sources are read in order, and the condition is delivered. -/
theorem compares : Obligations.Compares := by
  unfold Obligations.Compares
  rintro f x s s0 s1 s2 c w float wide va vb rfl h rfl oa rfl rfl ob rfl rfl ok
  have a0 := AfterReads.opens h (if float then 0x46 else 0x2B)
  obtain ⟨y1, a1⟩ := a0.src x.sa (!float && f.ty.wide)
  obtain ⟨y2, a2⟩ := a1.srcB (!float && f.ty.wide)
  rw [exec_compare]
  exact a2.ends h ((M.bind_ok (a0.source_run oa)).trans ((M.bind_ok (a1.sourceB_run ob)).trans
    (writeCond_run _ a2.crew a2.clean ok))) (State.condOut_crew f x _ a2.crew)

/-! ## Carries, addresses, classes (R119, R120, R124) -/

/-- Three sources of which the first may be a pair, then a value of 64 bits for each lane. -/
def pairBody (c : Nat) (x : Ops) (wide : Bool) (ty : Ty) (op : Nat → Nat → Nat → Nat) : M Unit := do
  let va ← readSrc c x.head x.sa wide
  let vb ← readB c ty false x
  let vc ← readSrc c x.head x.sc false
  let m ← emask c x.head
  let r (i : Fin 32) : DWord := BitVec.ofNat 64 (op va[i].toNat vb[i].toNat vc[i].toNat)
  if x.head.uni then writeScalar c x.dst (r 0) else storeVec c x true none (Vector.ofFn r) m

/-- IADDC and LEA are `pairBody`. -/
theorem exec_pair (f : FnT) (x : Ops) (s : State) (lea : Bool) :
    exec (if lea then .lea f x else .iaddc f x) s = issueStep (if lea then 0x2D else 0x2C) x false
      (fun c => pairBody c x lea (if lea then .n64 else f.ty)
        fun a b d => if lea then Alu.lea (x.head.len == 2) a b d else Alu.iaddc a b d) s := by
  cases lea <;> rfl

/-- The end of a lane instruction: the merge source, then `sv` to a scalar or `r` to the lanes of the effective mask. -/
def deliverOut (c : Nat) (f : FnT) (x : Ops) (pair : Bool) (sv : DWord) (r : Fin 32 → DWord) : M Unit := do
  let old ← readMerge c f x
  let m ← emask c x.head
  if x.head.uni then writeScalar c x.dst sv else storeVec c x pair old (Vector.ofFn r) m

/-- That end, where the merge source and the destination are in order (R42, R90). -/
theorem AfterReads.deliverOut_run {s t : State} {c : Nat} {w y : Crew} {f : FnT} {x : Ops} {pair : Bool} (sv : DWord)
    (r : Fin 32 → DWord) (a : AfterReads s t c w y x) (ok : t.outOk c f x pair = true) :
    deliverOut c f x pair sv r t = .ok () (t.out c f x pair sv r) := by
  simp only [State.outOk, Bool.and_eq_true, Bool.or_eq_true] at ok
  obtain ⟨mg, dst⟩ := ok
  obtain ⟨z, b⟩ := a.merge f
  unfold deliverOut State.out
  refine (M.bind_ok (readMerge_run a.crew a.clean mg)).trans ((M.bind_ok (b.mask x.head)).trans ?_)
  cases hu : x.head.uni with
  | true => exact writeScalar_of _ _ b.crew b.clean
  | false => exact storeVec_run _ _ _ b.crew b.clean (dst.resolve_left (by simp [hu]))

/-- Settles O5: the sources are read in order and the results are delivered. -/
theorem carryAddressClass : Obligations.CarryAddressClass := by
  unfold Obligations.CarryAddressClass
  refine ⟨?pair, ?fclass⟩
  case pair =>
    rintro f x s s0 s1 s2 s3 c w lea va vb vc r h rfl oa rfl rfl ob rfl rfl oc rfl rfl ok rfl
    have a0 := AfterReads.opens h (if lea then 0x2D else 0x2C)
    obtain ⟨y1, a1⟩ := a0.src x.sa lea
    obtain ⟨y2, a2⟩ := a1.srcB false
    obtain ⟨y3, a3⟩ := a2.src x.sc false
    rw [exec_pair]
    exact a3.ends h ((M.bind_ok (a0.source_run oa)).trans ((M.bind_ok (a1.sourceB_run ob)).trans
      ((M.bind_ok (a2.source_run oc)).trans ((M.bind_ok (a3.mask x.head)).trans
        (plain_run _ _ a3.crew a3.clean ok))))) (State.plainOut_crew x true _ _ a3.crew)
  case fclass =>
    rintro f x s s0 s1 c w va h rfl oa rfl rfl ok
    have a0 := AfterReads.opens h 0x4D
    obtain ⟨y, a1⟩ := a0.src x.sa false
    exact a1.ends h (body := fun c => bodyFclass c f x) ((M.bind_ok (a0.source_run oa)).trans (a1.deliverOut_run _ _ ok))
      (State.out_crew f x false _ _ a1.crew)

/-! ## Conversions (R126 to R128) -/

/-- A conversion: the source, the tensor id, the merge source; then `r` gives each lane's value and events. -/
def convertBody (c : Nat) (f : FnT) (x : Ops) (wide pair : Bool) (r : Vals → Mask → Fin 32 → Nat × Num.Events) :
    M Unit := do
  let va ← readSrc c x.head x.sa wide
  let tid ← readTid c x
  let old ← readMerge c f x
  let m ← emask c x.head
  storeVec c x pair old (Vector.ofFn fun i => BitVec.ofNat 64 (r va m i).1) m
  countStat c tid (sumEvents m fun i => (r va m i).2)

/-- CVT and QNT are `convertBody`. -/
theorem exec_convert (f : FnT) (x : Ops) (s : State) (qnt : Bool) :
    exec (if qnt then .qnt f x else .cvt f x) s = issueStep (if qnt then 0x61 else 0x60) x false
      (fun c => convertBody c f x (!qnt && (Ty.ofCode f.sub).wide) (!qnt && f.ty.wide) fun va m l =>
        if qnt then quantLane f va m l else Alu.cvt (Ty.ofCode f.sub) f.ty f.md va[l].toNat) s := by
  cases qnt <;> rfl

/-- A vector destination in order is written after the reads. -/
theorem AfterReads.store_run {s t : State} {c : Nat} {w y : Crew} {x : Ops} {pair : Bool} (old : Option Lanes) (v : Vals)
    (m : Mask) (a : AfterReads s t c w y x) (ok : t.dstOk c x pair = true) :
    storeVec c x pair old v m t = .ok () (t.stored c x pair old v m) := storeVec_run old v m a.crew a.clean ok

/-- Settles O6: the source is read, then the tensor id and the merge source; the value is stored, and its events are noted. -/
theorem conversions : Obligations.Conversions := by
  unfold Obligations.Conversions
  rintro f x s s0 s1 c w qnt wide pair va m r rfl rfl h rfl oa rfl rfl mg ok rfl rfl
  have a0 := AfterReads.opens h (if qnt then 0x61 else 0x60)
  obtain ⟨y1, a1⟩ := a0.src x.sa (!qnt && (Ty.ofCode f.sub).wide)
  obtain ⟨y2, a2⟩ := a1.merge f
  obtain ⟨y3, h3, act3⟩ := State.stored_some x (!qnt && f.ty.wide) _ _ _ a2.crew
  obtain ⟨y4, h4, act4⟩ := State.noted_crew _ _ h3
  rw [exec_convert]
  exact a2.ends h ((M.bind_ok (a0.source_run oa)).trans ((M.bind_ok (readTid_run x a1.crew a1.clean)).trans
    ((M.bind_ok (readMerge_run a1.crew a1.clean mg)).trans ((M.bind_ok (a2.mask x.head)).trans
      ((M.bind_ok (a2.store_run _ _ _ ok)).trans (countStat_run _ _ h3)))))) ⟨y4, h4, act4.trans act3⟩

/-! ## What lanes read of other lanes (R132) -/

/-- DEADSRC is set after reads. -/
theorem AfterReads.deadRead {s t : State} {c : Nat} {w y : Crew} {x : Ops} (a : AfterReads s t c w y x) (p : Bool) :
    ∃ z, AfterReads s (t.deadRead c p) c w z x := by
  have hu : t.deadRead c p = t.setCrew c { y with deadsrc := y.deadsrc || p } := by simp [State.deadRead, a.crew]
  refine ⟨{ y with deadsrc := y.deadsrc || p }, ?_, a.clean, a.gang, a.home, a.park, a.pc, a.act, a.scal, ?_⟩
  · rw [hu]; exact State.crew_setCrew _ _ _
  · rw [hu]; exact a.gangs

/-- The dead lanes of the crew after reads. -/
theorem AfterReads.deadOf {s t : State} {c : Nat} {w y : Crew} {x : Ops} (a : AfterReads s t c w y x) :
    t.deadOf c = y.dead := by
  simp [State.deadOf, a.crew]

/-- The end of an instruction whose lanes read the lanes `src`: DEADSRC is set where a lane of the effective mask reads a dead
one, and the values that depend on the dead lanes are stored. -/
def storeCross (c : Nat) (x : Ops) (pair : Bool) (src : Fin 32 → Fin 32) (old : Option Lanes) (r : Mask → Fin 32 → DWord) :
    M Unit := do
  let m ← emask c x.head
  let y ← crewM c
  setDeadsrc c (isVec x.sa && readsDead y.dead m src)
  storeVec c x pair old (Vector.ofFn (r y.dead)) m

/-- That end, where the destination is in order. -/
theorem AfterReads.storeCross_run {s t u : State} {c : Nat} {w y : Crew} {x : Ops} {pair : Bool} {src : Fin 32 → Fin 32}
    {m dead : Mask} (old : Option Lanes) (r : Mask → Fin 32 → DWord) (a : AfterReads s t c w y x)
    (hm : m = t.emaskOf c x.head) (hd : dead = t.deadOf c)
    (hu : u = t.deadRead c (isVec x.sa && readsDead dead m src)) (ok : u.dstOk c x pair = true) :
    storeCross c x pair src old r t = .ok () (u.stored c x pair old (Vector.ofFn (r dead)) m) := by
  obtain rfl : dead = y.dead := hd.trans a.deadOf
  subst hm hu
  obtain ⟨z, b⟩ := a.deadRead (isVec x.sa && readsDead y.dead (t.emaskOf c x.head) src)
  exact (M.bind_ok (a.mask x.head)).trans ((M.bind_ok (crewM_run a.crew)).trans
    ((M.bind_ok (deadRead_run _ a.crew)).trans (b.store_run _ _ _ ok)))

/-- An instruction that ends so leaves what it stores. -/
theorem AfterReads.endsCross {s t u : State} {c opc : Nat} {w y : Crew} {x : Ops} {pair : Bool} {src : Fin 32 → Fin 32}
    {m dead : Mask} {old : Option Lanes} {r : Mask → Fin 32 → DWord} {body : Nat → M Unit} (a : AfterReads s t c w y x)
    (h : Issues s c w x) (hb : body c (s.opens c w opc x) = storeCross c x pair src old r t)
    (hm : m = t.emaskOf c x.head) (hd : dead = t.deadOf c)
    (hu : u = t.deadRead c (isVec x.sa && readsDead dead m src)) (ok : u.dstOk c x pair = true) :
    issueStep opc x false body s = .next ((u.stored c x pair old (Vector.ofFn (r dead)) m).ended c w) := by
  obtain ⟨z, b⟩ := a.deadRead (isVec x.sa && readsDead dead m src)
  rw [← hu] at b
  exact b.ends h (hb.trans (a.storeCross_run old r hm hd hu ok)) (State.stored_some x pair old _ m b.crew)

/-- An instruction that stores its values once it has read its sources. -/
theorem AfterReads.endsStore {s t : State} {c opc : Nat} {w y : Crew} {x : Ops} {pair : Bool} {old : Option Lanes} {v : Vals}
    {m : Mask} {body : Nat → M Unit} (a : AfterReads s t c w y x) (h : Issues s c w x)
    (hb : body c (s.opens c w opc x) = storeVec c x pair old v m t) (ok : t.dstOk c x pair = true) :
    issueStep opc x false body s = .next ((t.stored c x pair old v m).ended c w) :=
  a.ends h (hb.trans (a.store_run old v m ok)) (State.stored_some x pair old v m a.crew)

/-! ## Packed data (R129, R130) -/

/-- What a lane of DQNT or UNPK takes of the values `va`, with the lanes of `dead` dead. -/
def unpacked (dqnt : Bool) (f : FnT) (x : Ops) (va : Vals) (dead : Mask) (l : Fin 32) : DWord :=
  let v := (if isVec x.sa then crossVal dead va l ((if dqnt then scaleLane f else unpkLane f) l) else va[l]).toNat
  let k := v / 2 ^ (fieldWidth f * (l.val % (32 / fieldWidth f))) % 2 ^ fieldWidth f
  BitVec.ofNat 64 (if dqnt then Num.dequant (Num.narrowOf f.ty) (va[l].toNat % 2 ^ f.ty.width) (v / 256 % 256)
    else if f.ty.isSigned then wrapTo 32 (signedOf (fieldWidth f) k) else k)

/-- The merge source of an instruction that has one where `b` holds. -/
def readMergeIf (b : Bool) (c : Nat) (f : FnT) (x : Ops) : M (Option Lanes) := if b then readMerge c f x else pure none

/-- That merge source is read after others (R90). -/
theorem AfterReads.mergeIf {s t : State} {c : Nat} {w y : Crew} {f : FnT} {x : Ops} {b : Bool} (a : AfterReads s t c w y x)
    (ok : b = true → t.mgOk c f x = true) :
    readMergeIf b c f x t = .ok (if b then t.mgVals c f x else none) (if b then t.afterMg c f x else t) ∧
      ∃ z, AfterReads s (if b then t.afterMg c f x else t) c w z x := by
  cases b with
  | true => exact ⟨readMerge_run a.crew a.clean (ok rfl), a.merge f⟩
  | false => exact ⟨rfl, y, a⟩

/-- DQNT and UNPK: the source with the lanes `lanes` of it, a merge source of DQNT, then the values. -/
def unpackBody (dqnt : Bool) (c : Nat) (f : FnT) (x : Ops) (lanes : Mask → Mask) : M Unit := do
  let va ← readCross c x.head x.sa false lanes
  let old ← readMergeIf dqnt c f x
  storeCross c x false (if dqnt then scaleLane f else unpkLane f) old (unpacked dqnt f x va)

/-- The meaning of both. -/
theorem exec_unpack (f : FnT) (x : Ops) (s : State) (dqnt : Bool) :
    ∃ lanes, exec (if dqnt then .dqnt f x else .unpk f x) s = issueStep (if dqnt then 0x62 else 0x64) x false
      (fun c => unpackBody dqnt c f x lanes) s := by
  cases dqnt with
  | true => exact ⟨fun m => if isVec x.sa then sourcesOf m (scaleLane f) else 0#32, rfl⟩
  | false => exact ⟨fun m => sourcesOf m (unpkLane f), rfl⟩

/-- Settles O7: the sources are read in order; DQNT and UNPK differ in the lane that a lane reads and in what it takes of it. -/
theorem packedData : Obligations.PackedData := by
  unfold Obligations.PackedData
  refine ⟨?unpack, ?pack⟩
  case unpack =>
    rintro f x s s0 s1 s2 s3 c w dqnt va m dead src r rfl h rfl oa rfl rfl mg rfl hm hd hu ok hr
    obtain ⟨lanes, hex⟩ := exec_unpack f x s dqnt
    have a0 := AfterReads.opens h (if dqnt then 0x62 else 0x64)
    obtain ⟨y1, a1⟩ := a0.src x.sa false
    obtain ⟨run, y2, a2⟩ := a1.mergeIf mg
    obtain rfl : r = unpacked dqnt f x ((s.opens c w (if dqnt then 0x62 else 0x64) x).srcVals c x.head x.sa false) dead := hr
    rw [hex]
    exact a2.endsCross h (body := fun c => unpackBody dqnt c f x lanes)
      ((M.bind_ok (readCross_run lanes a0.crew a0.clean oa)).trans (M.bind_ok run)) hm hd hu ok
  case pack =>
    rintro f x s s0 s1 c w va h rfl oa rfl rfl ok
    have a0 := AfterReads.opens h 0x63
    obtain ⟨y, a1⟩ := a0.src x.sa false
    rw [a1.deadOf]
    exact a1.endsStore h ((a0.sourceMask_run oa _).trans (M.bind_ok (crewM_run a1.crew))) ok

/-! ## Moves between lanes (R133, R137) -/

/-- The selector of SHFL is read after its source: a scalar or a name of single values, or an immediate (R133). -/
theorem AfterReads.selector_run {s t : State} {c : Nat} {w y : Crew} {x : Ops} (a : AfterReads s t c w y x)
    (ok : t.bOk c false x = true) {rest : M Unit} :
    (do
      if x.head.len = 0 then
        let _ ← readSrc c x.head x.sb false
      rest : M Unit) t = rest (t.afterB c false x) := by
  unfold State.afterB
  by_cases h0 : x.head.len = 0
  · have oa : t.srcOk c x.sb false = true := by simpa [State.bOk, h0] using ok
    rw [if_pos h0, if_neg (fun ne => ne h0)]
    exact M.bind_ok (a.source_run oa)
  · rw [if_neg h0, if_pos h0]

/-- What a lane takes of the lane `src l`, with the lanes of `dead` dead; a scalar is the same for all (R132). -/
def movedLane (x : Ops) (va : Vals) (src : Fin 32 → Fin 32) (dead : Mask) (l : Fin 32) : DWord :=
  if isVec x.sa then crossVal dead va l (src l) else va[l]

/-- The lane that a lane of SHFL reads (R133). -/
def shflSource (f : FnT) (sel : Vals) (l : Fin 32) : Fin 32 := shflLane f.sub.toNat l (sel[l].toNat % 32)

/-- SHFL of a source and a selector in order ends as `storeCross` does. -/
theorem bodyShfl_run {s t : State} {c : Nat} {w y z : Crew} {f : FnT} {x : Ops} (a0 : AfterReads s t c w y x)
    (oa : t.srcOk c x.sa f.ty.wide = true) (osel : isVec x.sb = true → x.head.len = 0 → t.readable c x.sb.toNat = true)
    (a1 : AfterReads s (t.afterSrc c x.sa f.ty.wide) c w z x) (ob : (t.afterSrc c x.sa f.ty.wide).bOk c false x = true) :
    bodyShfl c f x t = storeCross c x f.ty.wide (shflSource f (t.selector c x)) none
      (movedLane x (t.srcVals c x.head x.sa f.ty.wide) (shflSource f (t.selector c x)))
      ((t.afterSrc c x.sa f.ty.wide).afterB c false x) :=
  (M.bind_ok (peekSelector_run a0.crew osel)).trans ((M.bind_ok (readCross_run _ a0.crew a0.clean oa)).trans
    (a1.selector_run ob))

/-- SHFL gives each lane of the effective mask the value of the lane that its selector names (R132, R133). -/
theorem exec_shfl {f : FnT} {x : Ops} {s s0 s1 s2 s3 : State} {c : Nat} {w : Crew} {va : Vals} {m dead : Mask}
    {src : Fin 32 → Fin 32} (h : Issues s c w x) (hs0 : s0 = s.opens c w 0x70 x) (oa : s0.srcOk c x.sa f.ty.wide = true)
    (hva : va = s0.srcVals c x.head x.sa f.ty.wide) (hsrc : src = shflSource f (s0.selector c x))
    (osel : isVec x.sb = true → x.head.len = 0 → s0.readable c x.sb.toNat = true)
    (hs1 : s1 = s0.afterSrc c x.sa f.ty.wide) (ob : s1.bOk c false x = true) (hs2 : s2 = s1.afterB c false x)
    (hm : m = s2.emaskOf c x.head) (hd : dead = s2.deadOf c)
    (hs3 : s3 = s2.deadRead c (isVec x.sa && readsDead dead m src)) (ok : s3.dstOk c x f.ty.wide = true) :
    exec (.shfl f x) s = .next ((s3.stored c x f.ty.wide none (Vector.ofFn (movedLane x va src dead)) m).ended c w) := by
  subst hs0 hva hsrc hs1 hs2
  have a0 := AfterReads.opens h 0x70
  obtain ⟨y1, a1⟩ := a0.src x.sa f.ty.wide
  obtain ⟨y2, a2⟩ := a1.srcB false
  exact a2.endsCross h (bodyShfl_run a0 oa osel a1 ob) hm hd hs3 ok

/-- The lane that LANE names is read before or after the source (R137). -/
theorem AfterReads.laneOf_eq {s t : State} {c : Nat} {w y : Crew} {x : Ops} (a : AfterReads s t c w y x) :
    laneFin (if x.head.len ≠ 0 then x.ext.toNat else (y.arch.scalar (scalarNo x.sb)).toNat) = t.laneOf c x := by
  simp [State.laneOf, State.scalarOf, a.crew]

/-- LANE.get once its lane number is known to be `k`. -/
def getLane (c : Nat) (f : FnT) (x : Ops) (k : Fin 32) : M Unit := do
  let va ← readCross c x.head x.sa f.ty.wide fun m => if x.head.uni || m != 0 then laneBit k.val else 0#32
  let _ ← laneNo c x
  let m ← emask c x.head
  let y ← crewM c
  let v := if isVec x.sa && y.dead[k] then 0#64 else va[k]
  setDeadsrc c (isVec x.sa && y.dead[k] && (x.head.uni || m != 0))
  if x.head.uni then writeScalar c x.dst (extend f.ty v.toNat)
  else storeVec c x f.ty.wide none (Vector.replicate 32 (narrowTo f.ty v)) m

/-- LANE.get finds its lane number before it reads the source. -/
theorem bodyLaneGet_eq {s t : State} {c : Nat} {w y : Crew} {f : FnT} {x : Ops} (a : AfterReads s t c w y x) :
    bodyLaneGet c f x t = getLane c f x (t.laneOf c x) t := by
  rw [← a.laneOf_eq]
  exact M.bind_ok (crewM_run a.crew)

/-- LANE.get of a source in order: the value of lane `k`, 0 where that lane is dead, is delivered (R132, R137). -/
theorem getLane_run {s t t1 u : State} {c : Nat} {w y y1 : Crew} {f : FnT} {x : Ops} {k : Fin 32} {v : DWord} {p : Bool}
    (a0 : AfterReads s t c w y x) (oa : t.srcOk c x.sa f.ty.wide = true)
    (ht1 : t1 = t.afterSrc c x.sa f.ty.wide) (a1 : AfterReads s t1 c w y1 x)
    (hv : v = if isVec x.sa && y1.dead[k] then 0#64 else (t.srcVals c x.head x.sa f.ty.wide)[k])
    (hp : p = (isVec x.sa && y1.dead[k] && (x.head.uni || t1.emaskOf c x.head != 0))) (hu : u = t1.deadRead c p)
    (ok : u.plainOk c x f.ty.wide = true) :
    getLane c f x k t = .ok () (u.plainOut c x f.ty.wide (extend f.ty v.toNat) (Vector.replicate 32 (narrowTo f.ty v))) := by
  subst ht1 hv hp hu
  obtain ⟨y2, a2⟩ := a1.deadRead (isVec x.sa && y1.dead[k] && (x.head.uni
    || (t.afterSrc c x.sa f.ty.wide).emaskOf c x.head != 0))
  have run := fun sv v => plain_run sv v a2.crew a2.clean ok
  simp only [State.deadRead_emask _ _ a1.crew] at run
  exact (M.bind_ok (readCross_run _ a0.crew a0.clean oa)).trans ((M.bind_ok (laneNo_run x a1.crew a1.clean)).trans
    ((M.bind_ok (a1.mask x.head)).trans ((M.bind_ok (crewM_run a1.crew)).trans
      ((M.bind_ok (deadRead_run _ a1.crew)).trans (run _ _)))))

/-- LANE.get delivers the value of one lane, cut to the type, to a scalar or to the lanes of the effective mask; a dead lane
gives 0 (R32, R132, R137). -/
theorem exec_laneGet {f : FnT} {x : Ops} {s s0 s1 s2 : State} {c : Nat} {w : Crew} {va : Vals} {v : DWord} {m dead : Mask}
    {t : Fin 32} (h : Issues s c w x) (hs0 : s0 = s.opens c w 0x75 x) (ht : t = s0.laneOf c x) (get : f.sub = 0)
    (oa : s0.srcOk c x.sa f.ty.wide = true) (hva : va = s0.srcVals c x.head x.sa f.ty.wide)
    (hs1 : s1 = s0.afterSrc c x.sa f.ty.wide) (hm : m = s1.emaskOf c x.head) (hd : dead = s1.deadOf c)
    (hs2 : s2 = s1.deadRead c (isVec x.sa && dead[t] && (x.head.uni || m != 0))) (ok : s2.plainOk c x f.ty.wide = true)
    (hv : v = if isVec x.sa && dead[t] then 0#64 else va[t]) :
    exec (.lane f x) s = .next ((s2.plainOut c x f.ty.wide (extend f.ty v.toNat)
      (Vector.replicate 32 (narrowTo f.ty v))).ended c w) := by
  subst hs0 hva hm
  have a0 := AfterReads.opens h 0x75
  obtain ⟨y1, a1⟩ := a0.src x.sa f.ty.wide
  rw [← hs1] at a1
  obtain rfl : dead = y1.dead := hd.trans a1.deadOf
  obtain ⟨y2, a2⟩ := a1.deadRead (isVec x.sa && y1.dead[t] && (x.head.uni || s1.emaskOf c x.head != 0))
  rw [← hs2] at a2
  refine a2.ends h ?_ (State.plainOut_crew x _ _ _ a2.crew)
  exact (congrFun (if_pos get) _).trans ((bodyLaneGet_eq a0).trans (ht ▸ getLane_run a0 oa hs1 a1 hv rfl hs2 ok))

/-- A scalar is read after others. -/
theorem AfterReads.scalar_run {s t : State} {c : Nat} {w y : Crew} {x : Ops} (code : BitVec 8) (a : AfterReads s t c w y x) :
    readScalar c code t = .ok (t.scalarOf c code) t := by
  rw [readScalar_run code a.crew a.clean]
  simp [State.scalarOf, a.crew]

/-- LANE.put replaces one lane of c by the scalar a; each value is cut to the type (R32, R137). -/
theorem exec_lanePut {f : FnT} {x : Ops} {s s0 s1 : State} {c : Nat} {w : Crew} {vc : Vals} {t : Fin 32}
    (h : Issues s c w x) (hs0 : s0 = s.opens c w 0x75 x) (ht : t = s0.laneOf c x) (put : f.sub ≠ 0)
    (oc : s0.srcOk c x.sc f.ty.wide = true) (hvc : vc = s0.srcVals c x.head x.sc f.ty.wide)
    (hs1 : s1 = s0.afterSrc c x.sc f.ty.wide) (ok : s1.dstOk c x f.ty.wide = true) :
    exec (.lane f x) s = .next ((s1.stored c x f.ty.wide none (Vector.ofFn fun (l : Fin 32) =>
      narrowTo f.ty (if l = t then s0.scalarOf c x.sa else vc[l])) (s1.emaskOf c x.head)).ended c w) := by
  subst hs0 ht hvc hs1
  have a0 := AfterReads.opens h 0x75
  obtain ⟨y, a1⟩ := a0.src x.sc f.ty.wide
  refine a1.endsStore h ((congrFun (if_neg put) _).trans ?_) ok
  exact (M.bind_ok (a0.scalar_run x.sa)).trans ((M.bind_ok (laneNo_run x a0.crew a0.clean)).trans (a0.sourceMask_run oc _))

/-! ## LANE of a narrow type

A LANE.get of type n8 whose source, scalar s1, holds 0x100: bits 7:0 of it are 0. -/

/-- The fields of that LANE.get. -/
def narrowGet : FnT := ⟨0, false, 0, .n8⟩

/-- Its operands: v16, bound with count 1, from scalar s1; the lane number is scalar s2. -/
def narrowGetOps : Ops := ⟨⟨false, 0, false, false, 0⟩, 16, 1, 0xC1, 0xC2, 0, 0⟩

/-- It is a legal instruction (R111, R137). -/
theorem narrowGet_wellFormed : (Instr.lane narrowGet narrowGetOps).WellFormed := by decide

/-- A crew at level 2, all of its lanes active, with 0x100 in scalar s1. -/
def narrowCrew : Crew :=
  let y := Crew.new 1 0 (.slot 0 0) 0x200000 0xFFFFFFFF 0 0 2
  { y with arch := y.arch.setScalar 1 0x100 }

/-- The machine in which that crew issues. -/
def narrowState : State := { State.reset.withFetchWord 64 0 with cur := some 2 }.setCrew 2 narrowCrew

theorem narrowState_issues : Issues narrowState 2 narrowCrew narrowGetOps :=
  ⟨rfl, State.crew_setCrew _ _ _, rfl, by decide, rfl, nofun⟩

/-- Lane 0 of name v16 in the state that an outcome leaves. -/
def lane0OfV16 (r : Host.Outcome State Fault Refusal) : Option Word :=
  match r with
  | .next s => some (s.nameLanes 2 16)[0]
  | _ => none

/-- The instruction stores the low 8 bits of the scalar. -/
theorem lane0OfV16_exec : lane0OfV16 (exec (.lane narrowGet narrowGetOps) narrowState) = some 0 := by
  decide +kernel

/-- Refutes O8, in its clauses on LANE: they store the value of the lane whole, where the machine cuts it to the type's width, as
R32 and R60 have it. In `narrowState` the clause on LANE.get gives lane 0 of v16 the value 0x100, and the machine gives it 0.
With `narrowTo f.ty` around the stored values the two clauses are `exec_laneGet` and `exec_lanePut`; the clause on SHFL is
`exec_shfl`. -/
theorem not_laneMoves : ¬ Obligations.LaneMoves := by
  unfold Obligations.LaneMoves
  rintro ⟨-, lane⟩
  obtain ⟨get, -⟩ := lane narrowGet narrowGetOps narrowState _ _ _ 2 narrowCrew _ noVals _ _ _ _ narrowState_issues rfl rfl
  have claimed := get rfl (by decide +kernel) rfl rfl rfl rfl rfl (by decide +kernel) rfl
  have same : lane0OfV16 (exec (.lane narrowGet narrowGetOps) narrowState) = some 0x100 :=
    (congrArg lane0OfV16 claimed).trans (by decide +kernel)
  rw [lane0OfV16_exec] at same
  exact absurd same (by decide)

/-! ## Combined lanes (R134 to R136) -/

/-- Settles O9: each of the four reads its source and the effective mask, then delivers what the participants give. -/
theorem acrossLanes : Obligations.AcrossLanes := by
  unfold Obligations.AcrossLanes
  rintro f x s s0 s1 c w opc va m h rfl oa rfl rfl rfl
  have a0 := AfterReads.opens h opc
  obtain ⟨y, a1⟩ := a0.src x.sa f.ty.wide
  refine ⟨?vote, ?lred, ?lscan, ?same⟩
  case vote =>
    rintro rfl ok
    exact a1.ends h ((a0.sourceMask_run oa _).trans (storeOne_run _ a1.crew a1.clean ok)) (State.oneOut_crew x _ a1.crew)
  case lred =>
    rintro rfl ok
    exact a1.ends h ((a0.sourceMask_run oa _).trans (plain_run _ _ a1.crew a1.clean ok)) (State.plainOut_crew x _ _ _ a1.crew)
  case lscan =>
    rintro rfl ok
    exact a1.endsStore h (a0.sourceMask_run oa _) ok
  case same =>
    rintro rfl ok
    exact a1.endsStore h (a0.sourceMask_run oa _) ok

end Sys2Proof.Machine

/-!
PROOFS of the family 06_matrix_and_select.md: tiles (O26), the matrix queue (O27), scales (O28), tile elements (O29), counters
(O30), and what the matrix array, the engines and the other units complete (O45).
-/

namespace Sys2Proof.Machine

open Sys2Proof

/-! ## The checks of a matrix instruction (R145, R149, R155) -/

/-- A handle that is in order names its tile, which nothing leases and no instruction of the crew still uses. -/
theorem State.tileOk_iff {s : State} {c h t : Nat} {w : Crew} (hw : s.crew? c = some w) :
    s.tileOk c h t = true ↔ Tab.at? w.arch.tiles h = some t ∧
      (s.cmds.any fun p => p.2.crew == c && p.2.tile == some t) = false ∧ s.tileBusy (s.coreOf w) c t = false := by
  simp only [State.tileOk, hw, Bool.and_eq_true, beq_iff_eq, Bool.not_eq_true', and_assoc]

theorem tileM_run {s : State} {c h t : Nat} {w : Crew} (hw : s.crew? c = some w) (ok : s.tileOk c h t = true) :
    tileM c h s = .ok t s := by
  obtain ⟨bound, unleased, -⟩ := (State.tileOk_iff hw).1 ok
  unfold tileM
  refine (M.bind_ok (crewM_run hw)).trans ((M.bind_ok (getS_run s)).trans ?_)
  simp only [bound, unleased, Bool.false_eq_true, if_false]
  rfl

theorem tileWait_run {s : State} {c h t : Nat} {w : Crew} (hw : s.crew? c = some w) (ok : s.tileOk c h t = true) :
    tileWait c t s = .ok () s := by
  obtain ⟨-, -, idle⟩ := (State.tileOk_iff hw).1 ok
  unfold tileWait
  refine (M.bind_ok (crewM_run hw)).trans ((M.bind_ok (getS_run s)).trans ?_)
  simp only [idle, Bool.false_eq_true, if_false]
  rfl

theorem spadWait_run {s : State} {c : Nat} {w : Crew} {rs : List (Nat × Nat)} {writes : Bool} (hw : s.crew? c = some w)
    (free : s.spadFree c rs writes = true) : spadWait c rs writes s = .ok () s := by
  simp only [State.spadFree, hw, Bool.not_eq_true'] at free
  unfold spadWait
  refine (M.bind_ok (crewM_run hw)).trans ((M.bind_ok (getS_run s)).trans ?_)
  simp only [free, Bool.false_eq_true, if_false]
  rfl

theorem enqueueM_run {s : State} {c : Nat} {w : Crew} (pc : Addr) (t : Nat) (m : Mask) (k : MatKind)
    (hw : s.crew? c = some w) (free : s.queueFree c = true) : enqueueM c pc t m k s = .ok () (s.queued c pc t m k) := by
  simp only [State.queueFree, hw, decide_eq_true_eq] at free
  unfold enqueueM State.queued
  refine (M.bind_ok (crewM_run hw)).trans ((M.bind_ok (getS_run s)).trans ?_)
  simp only [Nat.not_le.2 free, hw, if_false]
  rfl

/-- An instruction handed to the array leaves every crew. -/
theorem State.queued_crew (s : State) (c : Nat) (pc : Addr) (t : Nat) (m : Mask) (k : MatKind) (d : Nat) :
    (s.queued c pc t m k).crew? d = s.crew? d := by
  unfold State.queued
  split <;> rfl

section
variable {s t : State} {c : Nat} {w y : Crew} {x : Ops}

/-- A scratchpad offset is read after others (R145). -/
theorem AfterReads.offset_run (a : AfterReads s t c w y x) (code : BitVec 8) :
    offsetM c code t = .ok (t.offsetOf c code) t := M.bind_ok (a.scalar_run code)

/-- The core of the crew after its reads. -/
theorem AfterReads.core (a : AfterReads s t c w y x) : t.coreOf y = s.coreOf w :=
  (State.coreOf_gangs a.gangs y).trans (s.coreOf_congr a.home a.gang)

/-- An instruction that has read its sources, perhaps at the checkpoint, ends where its effect keeps the active lanes. -/
theorem AfterReads.endsLive {u : State} {opc : Nat} {ckpt : Bool} {body : Nat → M Unit} (a : AfterReads s t c w y x)
    (h : Issues s c w x) (hk : ckpt = true → w.acc = []) (hb : body c (s.opens c w opc x) = .ok () u)
    (hz : ∃ z, u.crew? c = some z ∧ z.arch.act = y.arch.act) : issueStep opc x ckpt body s = .next (u.ended c w) := by
  obtain ⟨z, hz, hact⟩ := hz
  refine issueStep_ended h hk hb hz ?_
  rw [hact, a.act]
  exact h.awake

/-- An instruction that ends as it is handed to the array (R149). -/
theorem AfterReads.endsQueued {opc tile : Nat} {ckpt : Bool} {m : Mask} {k : MatKind} {body : Nat → M Unit}
    (a : AfterReads s t c w y x) (h : Issues s c w x) (hk : ckpt = true → w.acc = [])
    (hb : body c (s.opens c w opc x) = .ok () (t.queued c w.arch.pc tile m k)) :
    issueStep opc x ckpt body s = .next ((t.queued c w.arch.pc tile m k).ended c w) :=
  a.endsLive h hk hb ⟨y, (t.queued_crew c _ _ _ _ c).trans a.crew, rfl⟩

/-! ## Instructions handed to the array (R146 to R150, R152, R153) -/

/-- Nothing that the crew has in the array holds back an instruction on this tile and these scratchpad bytes (R155). -/
theorem AfterReads.waits_run {h tile : Nat} {rs : List (Nat × Nat)} {writes : Bool} (a : AfterReads s t c w y x)
    (ok : t.tileOk c h tile = true) (free : t.spadFree c rs writes = true) (rest : Unit → M Unit) :
    (tileWait c tile >>= fun _ => spadWait c rs writes >>= rest) t = rest () t :=
  (M.bind_ok (tileWait_run a.crew ok)).trans (M.bind_ok (spadWait_run a.crew free))

/-- AZERO (R146). -/
theorem AfterReads.bodyAzero_run {tile : Nat} (a : AfterReads s t c w y x) (ok : t.tileOk c (x.dst.toNat % 8) tile = true)
    (room : t.queueFree c = true) :
    bodyAzero c x t = .ok () (t.queued c w.arch.pc tile (t.emaskOf c x.head) .azero) :=
  (M.bind_ok (a.own t a.crew)).trans ((M.bind_ok (a.mask x.head)).trans ((M.bind_ok (tileM_run a.crew ok)).trans
    ((M.bind_ok (tileWait_run a.crew ok)).trans (enqueueM_run _ _ _ _ a.crew room))))

/-- ALD, AST and SELK: tile handle `h`, the scalar of the region, its size and alignment, and whether it is written (R150,
R153). -/
def tileRegionBody (h : Nat) (code : BitVec 8) (n align : Nat) (writes : Bool) (kind : Nat → MatKind) (c : Nat) (x : Ops) :
    M Unit := do
  let pc ← ownPc c x
  let o ← offsetM c code
  let m ← emask c x.head
  let t ← tileM c h
  regionM c o n align
  tileWait c t
  spadWait c [(o, n)] writes
  enqueueM c pc t m (kind o)

theorem bodyAld_eq (c : Nat) (x : Ops) : bodyAld c x = tileRegionBody (x.dst.toNat % 8) x.sa 32768 256 false .ald c x := rfl

theorem bodyAst_eq (c : Nat) (x : Ops) : bodyAst c x = tileRegionBody (x.sa.toNat % 8) x.sb 32768 256 true .ast c x := rfl

theorem bodySelk_eq (c k : Nat) (x : Ops) :
    bodySelk c k x = tileRegionBody (x.sa.toNat % 8) x.sb (768 * k) 64 true (.selk · k) c x := rfl

/-- All three, once the tile and the region pass their checks. -/
theorem AfterReads.tileRegionBody_run {h tile n align : Nat} {code : BitVec 8} {writes : Bool} (kind : Nat → MatKind)
    (a : AfterReads s t c w y x) (ok : t.tileOk c h tile = true) (region : t.regionOk c (t.offsetOf c code) n align = true)
    (free : t.spadFree c [(t.offsetOf c code, n)] writes = true) (room : t.queueFree c = true) :
    tileRegionBody h code n align writes kind c x t
      = .ok () (t.queued c w.arch.pc tile (t.emaskOf c x.head) (kind (t.offsetOf c code))) :=
  (M.bind_ok (a.own t a.crew)).trans ((M.bind_ok (a.offset_run code)).trans ((M.bind_ok (a.mask x.head)).trans
    ((M.bind_ok (tileM_run a.crew ok)).trans ((M.bind_ok (regionM_ok a.crew region)).trans
      ((a.waits_run ok free _).trans (enqueueM_run _ _ _ _ a.crew room))))))

/-- What the checks of an MMA ask: the regions of A, of the block scales where there are any, and of the band scales in order,
and B's bytes aligned and within a slice of the B-stack (R145, R147). -/
theorem State.mmaOk_iff {a b : Nat} {fb : DWord} :
    t.mmaOk c a b fb = true ↔ t.regionOk c a (64 * stepBytes (fld fb 1 0)) 256 = true ∧
      (blockCount fb ≠ 0 → t.regionOk c (64 * fld fb 18 6) (64 * blockCount fb) 1 = true ∧
        t.regionOk c (64 * fld fb 31 19) (128 * blockCount fb) 1 = true) ∧
      t.regionOk c (64 * fld fb 44 32) 6 1 = true ∧ b % 64 = 0 ∧ b + stepBytes (fld fb 1 0) ≤ 32768 := by
  simp only [State.mmaOk, Bool.and_eq_true, Bool.or_eq_true, beq_iff_eq, decide_eq_true_eq, and_assoc,
    Decidable.or_iff_not_imp_left, ne_eq]

/-- The regions of the block scales are checked where there are block scales (R147). -/
theorem AfterReads.scales_run {a b : Nat} {fb : DWord} (r : AfterReads s t c w y x) (ok : t.mmaOk c a b fb = true)
    (rest : Unit → M Unit) :
    (if blockCount fb ≠ 0 then
        regionM c (64 * fld fb 18 6) (64 * blockCount fb) 1 >>= fun _ =>
          regionM c (64 * fld fb 31 19) (128 * blockCount fb) 1 >>= rest
      else rest () : M Unit) t = rest () t := by
  obtain ⟨-, scales, -⟩ := State.mmaOk_iff.1 ok
  by_cases h0 : blockCount fb ≠ 0
  · obtain ⟨left, right⟩ := scales h0
    rw [if_pos h0]
    exact (M.bind_ok (regionM_ok r.crew left)).trans (M.bind_ok (regionM_ok r.crew right))
  · rw [if_neg h0]

/-- MMA, whose empty mask leaves it complete (R147, R148). -/
theorem AfterReads.bodyMma_run {tile : Nat} (a : AfterReads s t c w y x) (ok : t.tileOk c (x.dst.toNat % 8) tile = true)
    (regions : t.mmaOk c (t.offsetOf c x.sa) (t.offsetOf c x.sb) x.ext = true)
    (free : t.spadFree c (MatKind.mma (t.offsetOf c x.sa) (t.offsetOf c x.sb) x.ext).reads false = true)
    (room : t.queueFree c = true) :
    bodyMma c x t = .ok () (if t.emaskOf c x.head = 0 then t
      else t.queued c w.arch.pc tile (t.emaskOf c x.head) (.mma (t.offsetOf c x.sa) (t.offsetOf c x.sb) x.ext)) := by
  obtain ⟨rows, -, band, aligned, within⟩ := State.mmaOk_iff.1 regions
  unfold bodyMma
  refine (M.bind_ok (a.own t a.crew)).trans ((M.bind_ok (a.offset_run x.sa)).trans ((M.bind_ok (a.offset_run x.sb)).trans
    ((M.bind_ok (a.mask x.head)).trans ((M.bind_ok (tileM_run a.crew ok)).trans
      ((M.bind_ok (regionM_ok a.crew rows)).trans ?_)))))
  refine (a.scales_run regions _).trans ((M.bind_ok (regionM_ok a.crew band)).trans ?_)
  dsimp only
  rw [if_neg (by simp [aligned]), if_neg (Nat.not_lt.2 within)]
  refine (a.waits_run ok free _).trans ?_
  by_cases h0 : t.emaskOf c x.head = 0
  · rw [if_neg (fun ne => ne h0), if_pos h0]
    rfl
  · rw [if_pos h0, if_neg h0]
    exact enqueueM_run _ _ _ _ a.crew room

end

/-- Settles O27: each of the five reads its scalars and its mask, passes its checks, and is handed to the array. -/
theorem matrixQueue : Obligations.MatrixQueue := by
  unfold Obligations.MatrixQueue
  rintro k x s s0 c t a b w m h rfl rfl rfl room
  refine ⟨?azero, ?mma, ?ald, ?ast, ?selk⟩
  case azero =>
    rintro rfl ok
    have r := AfterReads.opens h 0x82
    exact r.endsQueued h nofun (r.bodyAzero_run ok room)
  case mma =>
    rintro rfl acc ok regions free
    have r := AfterReads.opens h 0x83
    refine r.endsLive h (fun _ => acc) (r.bodyMma_run ok regions free room) ⟨_, ?_, rfl⟩
    split
    · exact r.crew
    · exact (State.queued_crew _ c _ _ _ _ c).trans r.crew
  case ald =>
    rintro rfl ok region free
    have r := AfterReads.opens h 0x84
    exact r.endsQueued h nofun ((congrFun (bodyAld_eq c x) _).trans (r.tileRegionBody_run .ald ok region free room))
  case ast =>
    rintro rfl ok region free
    have r := AfterReads.opens h 0x85
    exact r.endsQueued h nofun ((congrFun (bodyAst_eq c x) _).trans (r.tileRegionBody_run .ast ok region free room))
  case selk =>
    rintro rfl ok region free
    have r := AfterReads.opens h 0x90
    exact r.endsQueued h nofun ((congrFun (bodySelk_eq c k.toNat x) _).trans
      (r.tileRegionBody_run (.selk · k.toNat) ok region free room))

/-- Settles O28: the two sources are read, then ASCL is handed to the array with their values. -/
theorem scaleTile : Obligations.ScaleTile := by
  unfold Obligations.ScaleTile
  rintro x s s0 s1 s2 c t w va vb h acc rfl oa rfl rfl ob rfl rfl ok room
  have a0 := AfterReads.opens h 0x88
  obtain ⟨y1, a1⟩ := a0.src x.sa false
  obtain ⟨y2, a2⟩ := a1.src x.sb false
  refine a2.endsQueued h (fun _ => acc) ?_
  exact (M.bind_ok (a0.own _ a0.crew)).trans ((M.bind_ok (a0.source_run oa)).trans ((M.bind_ok (a1.source_run ob)).trans
    ((M.bind_ok (a2.mask x.head)).trans ((M.bind_ok (tileM_run a2.crew ok)).trans
      ((M.bind_ok (tileWait_run a2.crew ok)).trans (enqueueM_run _ _ _ _ a2.crew room))))))

/-! ## Claiming and freeing tiles (R142, R143) -/

/-- ACLAIM under a free handle, with a tile available and a free one of the core (R142). -/
theorem bodyAclaim_run {s : State} {c t : Nat} {y : Crew} {x : Ops} (hy : s.crew? c = some y)
    (unbound : Tab.at? y.arch.tiles (x.dst.toNat % 8) = none) (avail : 0 < s.tavail y)
    (first : Tab.firstFree (s.core (s.coreOf y)).tiles 8 0 = some t) :
    bodyAclaim c x s = .ok () (s.claimedTile c (x.dst.toNat % 8) t) := by
  unfold bodyAclaim State.claimedTile
  refine (M.bind_ok (crewM_run hy)).trans ((M.bind_ok (check_run (by simp [unbound]))).trans
    ((M.bind_ok (getS_run s)).trans ?_))
  simp only [Int.not_le.2 avail, first, hy, if_false]
  exact (M.bind_ok (modS_run _ s)).trans (modC_run _ hy)

/-- AFREE of a handle in order (R143). -/
theorem bodyAfree_run {s : State} {c t : Nat} {y : Crew} {x : Ops} (hy : s.crew? c = some y)
    (ok : s.tileOk c (x.dst.toNat % 8) t = true) : bodyAfree c x s = .ok () (s.freedTile c (x.dst.toNat % 8) t) := by
  unfold bodyAfree State.freedTile
  refine (M.bind_ok (tileM_run hy ok)).trans ((M.bind_ok (tileWait_run hy ok)).trans ((M.bind_ok (crewM_run hy)).trans
    ((M.bind_ok (getS_run s)).trans ((M.bind_ok (modC_run _ hy)).trans ?_))))
  simp only [hy, modS_run]

theorem Crew.begun_tiles (w : Crew) (opc : Nat) (x : Ops) : (w.begun opc x).arch.tiles = w.arch.tiles := by
  show ({ w with park := none }.foldInstr opc x.head).arch.tiles = _
  unfold Crew.foldInstr; split <;> rfl

/-- Settles O26: neither of the two changes the active lanes. -/
theorem tiles : Obligations.Tiles := by
  unfold Obligations.Tiles
  rintro x s s0 c h t w hi rfl
  refine ⟨?aclaim, ?afree⟩
  case aclaim =>
    rintro rfl unbound avail first
    have a := AfterReads.opens hi 0x80
    refine a.ends hi (bodyAclaim_run a.crew ?_ avail ?_) ?_
    · rw [Crew.begun_tiles]; exact unbound
    · rw [a.core]; exact first
    · simp [State.claimedTile, a.crew]
  case afree =>
    rintro rfl ok
    have a := AfterReads.opens hi 0x81
    refine a.ends hi (bodyAfree_run a.crew ok) ?_
    simp [State.freedTile, a.crew]

/-! ## Tile elements and counters (R151, R154) -/

/-- Elements without a mark are used (R305). -/
theorem useElems_run {s : State} {pas : List Nat} (core : Nat) (h : s.unmarked pas = true) :
    useElems core pas s = .ok () s := by
  have clean : (pas.find? fun p => s.marked p 4) = none := by simpa [State.unmarked] using h
  unfold useElems
  refine (M.bind_ok (getS_run s)).trans ?_
  rw [clean]
  rfl

/-- On-chip writes leave every crew. -/
theorem State.foldl_writeChip_crew {α : Type} (pa : α → Nat) (bs : α → List Byte) (ls : List α) (s : State) (c : Nat) :
    (ls.foldl (fun u l => u.writeChip (pa l) (bs l)) s).crew? c = s.crew? c := by
  induction ls generalizing s with
  | nil => rfl
  | cons l ls ih => exact (ih _).trans rfl

/-- The elements from which lane `l` of ARD takes its value: one, or two neighbours for a packed type (R151). -/
def ardElems (f : FnT) (pa : Nat → Nat → Nat) (l : Fin 32) : List Nat :=
  if f.ty == .bf16x2 || f.ty == .f16x2 then [pa l.val 0, pa l.val 1] else [pa l.val 0]

/-- ARD of a tile in order ends as a store of the values of its elements (R151). -/
theorem AfterReads.bodyArd_run {s s0 : State} {c tile : Nat} {w y : Crew} {f : FnT} {x : Ops} {v : DWord}
    {pa : Nat → Nat → Nat} (a : AfterReads s s0 c w y x) (hv : v = s0.scalarOf c x.sb)
    (ok : s0.tileOk c (x.sa.toNat % 8) tile = true)
    (hpa : pa = fun l k => elemPa (s.coreOf w) tile (selRow v l) (selCol f.ty v + k))
    (unmarked : s0.unmarked ((lanesOf (s0.emaskOf c x.head)).map (ardElems f pa)).flatten = true) :
    bodyArd c f x s0 = storeVec c x false none (Vector.ofFn fun i => BitVec.ofNat 64
      (ardValue f (s0.word (pa i.val 0)) (if f.ty == .bf16x2 || f.ty == .f16x2 then s0.word (pa i.val 1) else 0)))
      (s0.emaskOf c x.head) s0 := by
  subst hv hpa
  rw [← a.core] at unmarked ⊢
  exact (M.bind_ok (a.scalar_run x.sb)).trans ((M.bind_ok (a.mask x.head)).trans ((M.bind_ok (tileM_run a.crew ok)).trans
    ((M.bind_ok (tileWait_run a.crew ok)).trans ((M.bind_ok (crewM_run a.crew)).trans ((M.bind_ok (getS_run s0)).trans
      (M.bind_ok (useElems_run _ unmarked)))))))

/-- A scalar stays while sources are read. -/
theorem AfterReads.scalarOf {s t : State} {c : Nat} {w y : Crew} {x : Ops} (a : AfterReads s t c w y x) (code : BitVec 8) :
    t.scalarOf c code = w.arch.scalar (scalarNo code) := by
  simp [State.scalarOf, a.crew, a.scal]

/-- The tile after AWR: the elements of each lane of `m` written, in lane order (R151). -/
def State.awrTile (s : State) (core tile : Nat) (f : FnT) (v : DWord) (va : Vals) (m : Mask) : State :=
  (lanesOf m).foldl (fun u l => u.writeChip (elemPa core tile (selRow v l.val) (selCol f.ty v))
    (((awrValues f.ty va[l].toNat).map (bytesLE 4)).flatten)) s

/-- AWR of a tile and a source in order (R151). -/
theorem AfterReads.bodyAwr_run {s s0 s1 : State} {c tile : Nat} {w y y1 : Crew} {f : FnT} {x : Ops}
    (a0 : AfterReads s s0 c w y x) (oa : s0.srcOk c x.sa false = true) (hs1 : s1 = s0.afterSrc c x.sa false)
    (a1 : AfterReads s s1 c w y1 x) (ok : s1.tileOk c (x.dst.toNat % 8) tile = true) :
    bodyAwr c f x s0 = .ok () (s1.awrTile (s.coreOf w) tile f (s0.scalarOf c x.sb) (s0.srcVals c x.head x.sa false)
      (s1.emaskOf c x.head)) := by
  subst hs1
  rw [← a1.core, a0.scalarOf, ← a1.scalarOf]
  exact (M.bind_ok (a0.source_run oa)).trans ((M.bind_ok (a1.scalar_run x.sb)).trans ((M.bind_ok (a1.mask x.head)).trans
    ((M.bind_ok (tileM_run a1.crew ok)).trans ((M.bind_ok (tileWait_run a1.crew ok)).trans
      (M.bind_ok (crewM_run a1.crew))))))

/-- Settles O29: ARD ends as a store of the values of its elements; AWR writes the tile and leaves its crew. -/
theorem tileElements : Obligations.TileElements := by
  unfold Obligations.TileElements
  rintro f x s s0 s1 c t core w m va v pa h rfl hv
  refine ⟨?ard, ?awr⟩
  case ard =>
    rintro rfl rfl ok hpa unmarked dst
    have a := AfterReads.opens h 0x86
    exact a.endsStore h (a.bodyArd_run hv ok hpa unmarked) dst
  case awr =>
    rintro rfl oa rfl hs1 rfl ok
    subst hv
    have a0 := AfterReads.opens h 0x87
    obtain ⟨y, a1⟩ := a0.src x.sa false
    rw [← hs1] at a1
    exact a1.ends h (a0.bodyAwr_run oa hs1 a1 ok) ⟨y, (State.foldl_writeChip_crew _ _ _ _ c).trans a1.crew, rfl⟩

/-- A crew that has nothing in the array has no instruction there of any kind `p` (R156). -/
theorem State.any_own_of_idle {s : State} {core c : Nat} (idle : s.hasMatrix core c = false) (p : MatOp → Bool) :
    ((s.core core).mats.any fun m => m.crew == c && p m) = false := by
  simp only [State.hasMatrix, List.any_eq_false, beq_iff_eq] at idle
  simp only [List.any_eq_false, Bool.and_eq_true, beq_iff_eq, not_and]
  exact fun m hm own => absurd own (idle m hm)

/-- ASTAT of a crew that has nothing in the array (R154). -/
theorem bodyAstat_run {s : State} {c k : Nat} {y : Crew} {x : Ops} {g : Gang} (hy : s.crew? c = some y) (hm : y.marks = [])
    (hg : s.gang? y.gang = some g) (idle : s.hasMatrix (s.coreOf y) c = false) :
    bodyAstat c k x s = .ok () (s.setScalarOf c x.dst (BitVec.ofNat 64
      (if k / 256 = 0 then (Tab.getD g.stats (k % 256) ⟨0, 0, 0⟩).sat
        else if k / 256 = 1 then (Tab.getD g.stats (k % 256) ⟨0, 0, 0⟩).flush
        else (Tab.getD g.stats (k % 256) ⟨0, 0, 0⟩).nan))) := by
  unfold bodyAstat
  refine (M.bind_ok (crewM_run hy)).trans ((M.bind_ok (gangM_run hy hg)).trans ((M.bind_ok (getS_run s)).trans ?_))
  rw [if_neg (Bool.eq_false_iff.1 (State.any_own_of_idle idle _))]
  exact writeScalar_of x.dst _ hy hm

/-- Settles O30: ASTAT reads the counters of the gang and writes its scalar. -/
theorem tileCounters : Obligations.TileCounters := by
  unfold Obligations.TileCounters
  rintro k x s s0 c w g d h rfl hg idle rfl
  have a := AfterReads.opens h 0x89
  refine a.ends h (bodyAstat_run a.crew a.clean (a.gang? hg) ?_) (State.setScalarOf_some _ _ a.crew)
  rw [a.core]
  exact idle

/-! ## What the array, the engines and the units complete -/

/-- An MMA adds its statistics to the counters of its gang; no other instruction of the array counts (R78, R148). -/
def State.countArray (u : State) (o : MatOp) (d : Stat) : State :=
  match o.kind with
  | .mma _ _ _ => u.modGang o.gang fun x => x.count o.kind.tid d
  | _ => u

/-- MATRIX_INSTRUCTION_COMPLETE of an instruction of a live gang that nothing holds up (R149). -/
theorem execMatrixInstructionComplete_done {s t u : State} {core : Nat} {o : MatOp} {rest : List MatOp} {g : Gang} {d : Stat}
    (head : (s.core core).mats = o :: rest) (ht : t = s.modCore core fun x => { x with mats := rest })
    (hg : t.gang? o.gang = some g) (alive : g.alive = true) (free : s.matrixHeld core (spadPa core g.spad) o = false)
    (run : ((matTouched o).foldl (fun x j => x.canaryHit (some g.ctx) j (coreInst core) 0 none) t).matRun core
      (spadPa core g.spad) o = .ok (u, d)) :
    execMatrixInstructionComplete core s = .next ((u.countArray o d).trySwapOut o.gang) := by
  subst ht
  unfold execMatrixInstructionComplete
  simp only [head, hg]
  unfold Gang.alive at alive
  split at alive
  · cases alive
  · simp only [free, run, Bool.false_eq_true, if_false]
    rfl

/-- ENGINE_COMMAND_COMPLETE of a command that takes effect (R196). -/
theorem execEngineCommandComplete_ends {s : State} {k : Nat} {m : Cmd} (hm : Tab.at? s.cmds k = some m)
    (waits : m.isOver = false) :
    execEngineCommandComplete k s = s.endIo k m (s.runRest m m.what) fun t v => t.finishCmd k m none v := by
  unfold execEngineCommandComplete
  simp only [hm, waits, Bool.false_eq_true, if_false]

/-- ENGINE_RECORD_COMPLETE where the program has reached a record that passes its checks (R203). -/
theorem execEngineRecordComplete_ends {s t : State} {k addr count next : Nat} {mask : Mask} {m : Cmd} {p : EngPlan}
    (hm : Tab.at? s.cmds k = some m) (waits : m.isOver = false) (program : m.what = .fork addr count next mask)
    (reached : s.reached m = .plan t p) :
    execEngineRecordComplete k s
      = s.endIo k m (t.runRest { m with tile := p.tile } p.what) fun u _ => u.nextRecord k m := by
  unfold execEngineRecordComplete
  simp only [hm, waits, program, reached, Bool.false_eq_true, if_false]

/-- COLLECTIVE_MATCH of members that are all here comes to what `collect` says (R202). -/
theorem execCollectiveMatch_collects {s t u : State} {ks : List Nat} {q : Member} {ms : List Member}
    {rem : List (Nat × List Byte)} {fails : Bool} (meet : s.meet ks = some (t, q :: ms, []))
    (here : t.allHere (q :: ms) = true)
    (tags : ((q :: ms).all fun x => x.group.tag == q.group.tag && !t.collBefore x) = true)
    (collected : t.collect q (q :: ms) rem fails writeOutputs = some u) :
    execCollectiveMatch ks rem fails s = .next u := by
  unfold execCollectiveMatch State.ranksMeet
  simp only [meet, here, tags, collected, Bool.and_self, if_true]

/-- A rank that cannot be reached fails every member (R202, R397; log 48). -/
theorem State.collect_cutOff {t : State} {q : Member} {ms : List Member} {rem : List (Nat × List Byte)} {fails : Bool}
    {out : List (List Byte) → List Member → State → Option State} (cut : t.cutOff ms = true) :
    t.collect q ms rem fails out = some (t.failAll ms ⟨cPoison, 0, none⟩) := by
  unfold State.collect
  rw [if_pos cut]

/-- Members that do not agree fail together (R202; log 11). -/
theorem State.collect_disagree {t : State} {q : Member} {ms : List Member} {rem : List (Nat × List Byte)} {fails : Bool}
    {out : List (List Byte) → List Member → State → Option State} (cut : t.cutOff ms = false)
    (wrong : fails = true ∨ (ms.all fun x => x.group.ok && agree q x) = false) :
    t.collect q ms rem fails out = some (t.someCause.2.failAll ms ⟨t.someCause.1, 0, none⟩) := by
  have fail : (fails || !(ms.all fun x => x.group.ok && agree q x)) = true := by
    rcases wrong with h | h <;> simp [h]
  unfold State.collect
  rw [if_neg (by simp [cut]), if_pos fail]

/-- Members that agree read their contributions, and their results go to `out` (R202). -/
theorem State.collect_agree {t u : State} {q : Member} {ms : List Member} {rem loc : List (Nat × List Byte)}
    {ins : List (List Byte)} {out : List (List Byte) → List Member → State → Option State} (cut : t.cutOff ms = false)
    (right : (ms.all fun x => x.group.ok && agree q x) = true)
    (sizes : (rem.all fun r => !t.ownRank (q.group.ranks.getD r.1 0)
      && r.2.length == (q.coll.input (ms.map fun x => x.coll.root) q.group.nrank r.1).2) = true)
    (reads : readInputs (ms.map fun x => x.coll.root) ms t = some (.ok (u, loc)))
    (order : byRank q.group.nrank (loc ++ rem) = some ins) :
    t.collect q ms rem false out = out ins ms u := by
  unfold State.collect
  rw [if_neg (by simp [cut]), if_neg (by simp [right])]
  dsimp only
  rw [if_pos sizes, reads]
  simp only [Option.bind_some, order]

/-- PMAP_COMPLETE of a crew that waits for its mapping, with a bit set above the three that R184 defines. -/
theorem execPmapComplete_reserved {s : State} {c va attr : Nat} {w : Crew} (hw : s.crew? c = some w)
    (park : w.park = some (.pmap va attr)) (waits : w.waitEvt = none) (reserved : 8 ≤ attr) :
    execPmapComplete c s = .next (s.answer c (pmapWord 3 0)) := by
  unfold execPmapComplete
  simp only [hw, park, waits, reserved, if_true]

/-- What PMAP answers after its walk: the machine, and the result word (R184). -/
def State.mapAnswer (s : State) : MapRes → Option (State × DWord)
  | .mapped t f => some (t, pmapWord 0 f)
  | .present f => some (s, pmapWord 1 f)
  | .empty => some (s, pmapWord 2 0)
  | _ => none

/-- PMAP_COMPLETE once the walk has an answer (R184). -/
theorem execPmapComplete_walk {s t : State} {c va attr : Nat} {w : Crew} {v : DWord} (hw : s.crew? c = some w)
    (park : w.park = some (.pmap va attr)) (waits : w.waitEvt = none) (legal : attr < 8)
    (walk : s.mapAnswer (s.mapPage (s.ctxOf w) (dieOf (s.coreOf w)) va attr) = some (t, v)) :
    execPmapComplete c s = .next (t.answer c v) := by
  unfold execPmapComplete
  simp only [hw, park, waits, Nat.not_le.2 legal, if_false]
  generalize s.mapPage (s.ctxOf w) (dieOf (s.coreOf w)) va attr = r at walk ⊢
  cases r with
  | mapped u f => cases walk; rfl
  | present f => cases walk; rfl
  | empty => cases walk; rfl
  | malformed => cases walk
  | poison pa => cases walk

/-- TLBINV_COMPLETE once no access uses a translation that it removes (R185). -/
theorem execTlbinvComplete_unused {s : State} {c : Nat} {w : Crew} {page : Option Nat} (hw : s.crew? c = some w)
    (park : w.park = some (.tlbinv page)) (waits : w.waitEvt = none)
    (unused : s.xlatInUse (s.ctxOf w) (s.purged (s.ctxOf w) page) = false) :
    execTlbinvComplete c s = .next ((s.purgeTlb (purges (s.ctxOf w) page)).answer c 0) := by
  unfold execTlbinvComplete
  simp only [hw, park, waits, unused, Bool.false_eq_true, if_false]

/-- The security block once slot `slot` is zeroised: it is no more among those to zeroise, and a KEYCMD that waits for it is
over (R212, R360). -/
def State.slotZeroed (t : State) (slot : BitVec 7) : State :=
  { t with
    sec := { t.sec with
      zeroing := t.sec.zeroing.filter (· != slot.toNat)
      kcStat := if t.sec.kcStat = 1 ∧ t.sec.kcZero = slot then 0 else t.sec.kcStat } }

/-- KZERO_COMPLETE of a slot that is to be zeroised (R212). -/
theorem execKzeroComplete_pending {s u : State} {slot : BitVec 7} (pending : s.sec.zeroing.contains slot.toNat = true)
    (hu : u = ((s.zeroSlot slot.toNat).tidySlot slot.toNat).slotZeroed slot) :
    execKzeroComplete slot s = .next { u with
      crews := Tab.mapV u.crews fun _ x => if x.park = some (.kzero slot.toNat) then { x with waitEvt := some 0 } else x } := by
  subst hu
  unfold execKzeroComplete
  rw [if_neg (by simp only [pending, Bool.not_true, Bool.false_eq_true, not_false_eq_true])]
  rfl

section
variable {s : State} {i b n e : Nat}

/-- SCRUB_PIECE_COMPLETE where the piece fails: the scrub stops, and the record names the range (R213; log 58). -/
theorem execScrubPieceComplete_fails (runs : s.sec.scrub.state = 1)
    (place : scrubPlace s.sec.scrub.list 0 s.sec.scrub.prog.toNat = some (i, b, n, e)) :
    execScrubPieceComplete true s
      = .next ({ s with sec := { s.sec with scrub := { s.sec.scrub with state := 2, idx := BitVec.ofNat 12 i } } }.record
          { Rec.of none 0x0B (pieceUnit (b + e)).1 (pieceUnit (b + e)).2 with addr := b }) := by
  unfold execScrubPieceComplete
  simp only [runs, place, ne_eq, not_true, if_false, if_true]

/-- SCRUB_PIECE_COMPLETE where the piece is zero: PROG and IDX move on, and the scrub ends with its last piece (R213, R363). -/
theorem execScrubPieceComplete_zero {t : State} {a : Nat} (runs : s.sec.scrub.state = 1)
    (place : scrubPlace s.sec.scrub.list 0 s.sec.scrub.prog.toNat = some (i, b, n, e))
    (ha : a = s.sec.scrub.prog.toNat + 64) (ht : t = s.zeroPiece b (b + e)) :
    execScrubPieceComplete false s = .next ({ t with
      sec := { t.sec with
        scrub := { s.sec.scrub with
          prog := BitVec.ofNat 64 a
          idx := BitVec.ofNat 12 ((scrubPlace s.sec.scrub.list 0 a).elim i Prod.fst)
          state := if a = s.sec.scrub.total.toNat then 0 else 1 } } }.freeReleasing) := by
  subst ha ht
  unfold execScrubPieceComplete
  simp only [runs, place, ne_eq, not_true, Bool.false_eq_true, if_false]
  cases scrubPlace s.sec.scrub.list 0 (s.sec.scrub.prog.toNat + 64) <;> rfl

end

/-- Settles O45: each happening whose conditions hold completes what was begun. -/
theorem engineHappenings : Obligations.EngineHappenings := by
  unfold Obligations.EngineHappenings
  intro s t u z core k c va attr o rest g d m v p w page slot ms q ks fails loc rem ins i b n e a f r mk cause
  refine ⟨?array, ?command, ?failure, ?record, ?collective, ?cutOff, ?pmap, ?tlbinv, ?kzero, ?scrub⟩
  case array => exact execMatrixInstructionComplete_done
  case command =>
    intro hm waits run
    exact (execEngineCommandComplete_ends hm waits).trans (by rw [run]; rfl)
  case failure =>
    intro hm waits run
    exact (execEngineCommandComplete_ends hm waits).trans (by rw [run]; rfl)
  case record =>
    intro hm waits program reached run
    exact (execEngineRecordComplete_ends hm waits program reached).trans (by rw [run]; rfl)
  case collective =>
    intro meet here tags cut
    refine ⟨fun wrong => execCollectiveMatch_collects meet here tags (State.collect_disagree cut wrong), ?_⟩
    rintro rfl right sizes reads order writes
    exact execCollectiveMatch_collects meet here tags ((State.collect_agree cut right sizes reads order).trans writes)
  case cutOff =>
    intro meet here tags cut
    exact execCollectiveMatch_collects meet here tags (State.collect_cutOff cut)
  case pmap =>
    intro hw park waits
    have answered {t : State} {v : DWord} := execPmapComplete_walk (t := t) (v := v) hw park waits
    exact ⟨execPmapComplete_reserved hw park waits, fun legal walk => answered legal (by rw [walk]; rfl),
      fun legal walk => answered legal (by rw [walk]; rfl), fun legal walk => answered legal (by rw [walk]; rfl)⟩
  case tlbinv => exact execTlbinvComplete_unused
  case kzero =>
    rintro pending rfl hu
    exact execKzeroComplete_pending pending hu
  case scrub =>
    intro runs place
    refine ⟨?_, execScrubPieceComplete_zero runs place⟩
    rintro rfl
    exact execScrubPieceComplete_fails runs place

end Sys2Proof.Machine

/-!
PROOFS of the family 07_memory_atomics_sync.md: memory instructions at issue (O31, O32), what becomes of their accesses (O42,
O55), prefetch, translation and fences (O33), and barriers (O34).
-/

namespace Sys2Proof.Machine

open Sys2Proof

/-! ## The reads of a memory instruction (R160, R343) -/

/-- A memory instruction that has read its sources traces nothing while the recorder of its core is off (R343). -/
theorem AfterReads.traceLanes_run {s t : State} {c : Nat} {w y : Crew} {x : Ops} (a : AfterReads s t c w y x)
    (near : s.Near t c) (off : (s.core (s.coreOf w)).trc.en = false) (q : MemForm) (f : FnM) (pc : Addr)
    (base : Fin 32 → DWord) : traceLanes c q x f pc base t = .ok () t := by
  refine (M.bind_ok (a.mask x.head)).trans (traceM_off _ _ _ _ _ a.crew ?_)
  rw [a.core, near.cores]
  exact off

/-- A memory instruction that makes an access is its form's step. -/
theorem exec_access {i : Instr} {q : MemForm} {f : FnM} {x : Ops} (s : State) (h : accessOf i = some (q, f, x)) :
    exec i s = memStep q f x s := by
  unfold accessOf at h
  split at h <;> cases h <;> rfl

/-- What the reads of a memory instruction keep besides: the machine outside the crew and the value stores, and of the crew
the level and the exemption from watchpoints. -/
structure MemReads (s t : State) (c : Nat) (w y : Crew) (x : Ops) : Prop where
  reads  : AfterReads s t c w y x
  near   : s.Near t c
  priv   : y.priv = w.priv
  exempt : y.exempt = w.exempt

theorem Crew.begun_exempt (w : Crew) (opc : Nat) (x : Ops) : (w.begun opc x).exempt = w.exempt := by
  show ({ w with park := none }.foldInstr opc x.head).exempt = _
  unfold Crew.foldInstr; split <;> rfl

theorem MemReads.opens {s : State} {c : Nat} {w : Crew} {x : Ops} (h : Issues s c w x) (opc : Nat) :
    MemReads s (s.opens c w opc x) c w (w.begun opc x) x :=
  ⟨AfterReads.opens h opc, s.near_opens c w opc x, w.begun_priv opc x, w.begun_exempt opc x⟩

section
variable {s t : State} {c : Nat} {w y : Crew} {x : Ops}

/-- HOLD is set. -/
theorem MemReads.holding (a : MemReads s t c w y x) (p : Bool) : MemReads s (t.holding c p) c w { y with hold := p } x :=
  ⟨⟨State.holding_crew p a.reads.crew, a.reads.clean, a.reads.gang, a.reads.home, a.reads.park, a.reads.pc, a.reads.act,
    a.reads.scal, by rw [(t.near_holding c p).rest]; exact a.reads.gangs⟩, a.near.trans (t.near_holding c p), a.priv, a.exempt⟩

/-- A source is read. -/
theorem MemReads.src (a : MemReads s t c w y x) (code : BitVec 8) (wide : Bool) :
    ∃ z, MemReads s (t.afterSrc c code wide) c w z x := by
  obtain ⟨z, hz, same⟩ := State.afterSrc_crew code wide a.reads.crew
  have near := t.near_afterSrc c code wide
  refine ⟨z, a.reads.near hz same near, a.near.trans near, (Crew.sameButNames_gang same).2.2.trans a.priv, ?_⟩
  rw [same]
  exact a.exempt

/-- A source that only some of the forms have is read, or nothing is. -/
theorem MemReads.srcIf {p : Prop} [Decidable p] {code : BitVec 8} {wide : Bool} (a : MemReads s t c w y x)
    (ok : p → t.srcOk c code wide = true) :
    (∃ z, MemReads s (if p then t.afterSrc c code wide else t) c w z x) ∧
      (if p then readSrc c x.head code wide else pure noVals : M Vals) t
        = .ok (if p then t.srcVals c x.head code wide else noVals) (if p then t.afterSrc c code wide else t) := by
  by_cases hp : p
  · simp only [if_pos hp]
    exact ⟨a.src code wide, a.reads.source_run (ok hp)⟩
  · simp only [if_neg hp]
    exact ⟨⟨y, a⟩, rfl⟩

end

theorem hold_run {s : State} {c : Nat} {y : Crew} (p : Bool) (hy : s.crew? c = some y) :
    modC c (fun z => { z with hold := p }) s = .ok () (s.holding c p) := by
  rw [modC_run _ hy, State.holding]
  simp only [hy]

/-- A part of a memory instruction that does not fault is not traced by itself (R343). -/
theorem traced_ok {α : Type} {act : M α} {s t : State} {v : α} (tr : M Unit) (h : act s = .ok v t) :
    traced tr act s = .ok v t := by
  unfold traced
  rw [h]

/-- The address of each lane of an access (R160). -/
def laneAddrs (q : MemForm) (x : Ops) (base : Vals) (m : Mask) : Tab Nat := perLane m fun l => memAddr q.glob base[l] x

/-- The lanes of an access: one for a scalar form (R165). -/
def accessLanes (x : Ops) (em : Mask) : Mask := if x.head.uni then 1#32 else em

/-- The names that an access binds. -/
def accessNames (q : MemForm) (f : FnM) (x : Ops) : List Nat :=
  if q.dst && !x.head.uni then dstNames x f.ty.wide else []

/-- A memory instruction once its sources are read, for the lanes `m` (R161 to R165). -/
def memRest (c : Nat) (k : Snap) (q : MemForm) (x : Ops) (f : FnM) (pc : Addr) (base vb vc : Vals) (m : Mask) : M Unit := do
  checkDst c (accessNames q f x)
  memChecks c q x f m (laneAddrs q x base m)
  let a ← accessM c k q x f pc m (laneAddrs q x base m) vb vc
  let es ← memNames c (accessNames q f x) x.cnt.toNat (if m = 0 then .bound else .pending)
  if m ≠ 0 then
    tagAll c a.id 0 es
    modS fun t => { t with nextId := t.nextId + 1 }
    modC c fun z => { z with acc := z.acc ++ [a],
                             park := if q.dst && x.head.uni then some (.scalar a.id) else z.park }

/-- The machine as a memory instruction that holds its sources finds it. -/
structure MemSources (q : MemForm) (f : FnM) (x : Ops) (s : State) (c : Nat) (w : Crew) (s1 s2 s3 s4 : State) : Prop where
  begins  : s1 = (s.opens c w q.opc x).holding c ((s.opens c w q.opc x).emaskOf c x.head != 0)
  baseOk  : s1.srcOk c x.sa q.glob = true
  base    : s2 = s1.afterSrc c x.sa q.glob
  dataOk  : q.kind ≠ .load → s2.srcOk c x.sb f.ty.wide = true
  data    : s3 = if q.kind = .load then s2 else s2.afterSrc c x.sb f.ty.wide
  otherOk : q.kind = .rmw 7 → s3.srcOk c x.sc f.ty.wide = true
  other   : s4 = if q.kind = .rmw 7 then s3.afterSrc c x.sc f.ty.wide else s3

/-- The value of a store or of an atomic, and the new value of a CAS. -/
def memDataVals (q : MemForm) (f : FnM) (x : Ops) (c : Nat) (s2 : State) : Vals :=
  if q.kind = .load then noVals else s2.srcVals c x.head x.sb f.ty.wide

def memOtherVals (q : MemForm) (f : FnM) (x : Ops) (c : Nat) (s3 : State) : Vals :=
  if q.kind = .rmw 7 then s3.srcVals c x.head x.sc f.ty.wide else noVals

/-- Base, data and compare value are read, and nothing is traced (R160, R343). -/
theorem MemSources.memBody_run {q : MemForm} {f : FnM} {x : Ops} {s s1 s2 s3 s4 : State} {c : Nat} {w : Crew}
    (m : MemSources q f x s c w s1 s2 s3 s4) (h : Issues s c w x) (off : (s.core (s.coreOf w)).trc.en = false) (k : Snap) :
    ∃ y, MemReads s s4 c w y x ∧ memBody c k q x f (s.opens c w q.opc x)
      = memRest c k q x f w.arch.pc (s1.srcVals c x.head x.sa q.glob) (memDataVals q f x c s2) (memOtherVals q f x c s3)
          (accessLanes x (s4.emaskOf c x.head)) s4 := by
  obtain ⟨begins, baseOk, base, dataOk, data, otherOk, other⟩ := m
  have a0 := MemReads.opens h q.opc
  have a1 := a0.holding ((s.opens c w q.opc x).emaskOf c x.head != 0)
  have hold := hold_run ((s.opens c w q.opc x).emaskOf c x.head != 0) a0.reads.crew
  rw [← begins] at a1 hold
  obtain ⟨y2, a2⟩ := a1.src x.sa q.glob
  rw [← base] at a2
  obtain ⟨⟨y3, a3⟩, readB⟩ := a2.srcIf (p := ¬ q.kind = .load) dataOk
  simp only [ite_not] at a3 readB
  rw [← data] at a3 readB
  obtain ⟨⟨y4, a4⟩, readC⟩ := a3.srcIf otherOk
  rw [← other] at a4 readC
  refine ⟨y4, a4, ?_⟩
  unfold memBody
  refine (M.bind_ok (a0.reads.own _ a0.reads.crew)).trans ((M.bind_ok (a0.reads.mask x.head)).trans ((M.bind_ok hold).trans
    ((M.bind_ok (traced_ok _ (a1.reads.source_run baseOk))).trans ?_)))
  rw [← base]
  exact (M.bind_ok (traced_ok _ readB)).trans ((M.bind_ok (traced_ok _ readC)).trans
    ((M.bind_ok (a4.reads.traceLanes_run a4.near off q f _ _)).trans (M.bind_ok (a4.reads.mask x.head))))

/-! ## The access (R160 to R165, R177, R249, R250) -/

theorem accessNames_list (q : MemForm) (f : FnM) (x : Ops) : NameList (accessNames q f x) := by
  unfold accessNames
  split
  · exact dstNames_list x f.ty.wide
  · exact .inl rfl

/-- The access that crew `w` of gang `g` on a core issues, before it has its miss slots. -/
def newAccess (id core : Nat) (g : Gang) (w : Crew) (q : MemForm) (x : Ops) (f : FnM) (m : Mask) (addr : Tab Nat)
    (vb vc : Vals) : Access :=
  { id := id, snap := ⟨w.arch, w.seq⟩, pc := w.arch.pc, opc := q.opc, kind := q.kind, ty := f.ty, size := Ty.size f.ty,
    ord := f.ord, scope := f.scope, spad := !q.glob, priv := w.priv, lanes := m, addr := addr,
    datB := perLane m fun l => vb[l].toNat, datC := perLane m fun l => vc[l].toNat,
    place := if q.glob then none
      else some ((lanesOf m).map fun l => (l.val, ⟨spadPa core (g.spad + at0 addr l.val), 0⟩)),
    done := 0, value := [], bad := 0, dest := destOf x q.dst f.ty.wide, slots := [], exempt := w.exempt }

section
variable {s t u : State} {c : Nat} {w y : Crew} {x : Ops} {q : MemForm} {f : FnM} {g : Gang} {m bad : Mask} {addr : Tab Nat}
  {base vb vc : Vals} {a0 a : Access}

/-- An access whose lines the L1 serves or find free miss slots (R249, R250). -/
theorem MemReads.accessM_run (r : MemReads s t c w y x) (hg : s.gang? w.gang = some g)
    (ha0 : a0 = newAccess t.nextId (s.coreOf w) g w q x f m addr vb vc)
    (ha : a = { a0 with slots := if q.glob then t.missLines y a0 else [] })
    (room : t.slotStall (s.coreOf w) a.slots = none) :
    accessM c ⟨w.arch, w.seq⟩ q x f w.arch.pc m addr vb vc t = .ok a t := by
  subst ha ha0
  unfold accessM
  refine (M.bind_ok (crewM_run r.reads.crew)).trans ((M.bind_ok (gangM_run r.reads.crew (r.reads.gang? hg))).trans
    ((M.bind_ok (getS_run t)).trans ?_))
  simp only [r.reads.core, r.priv, r.exempt]
  unfold newAccess at room ⊢
  simp only [room]
  rfl

/-- The destination is bound; where a lane is active, the access becomes unperformed (R18, R163). -/
theorem MemReads.memRest_run (r : MemReads s t c w y x) (hg : s.gang? w.gang = some g)
    (ok : t.accessOk c q f m (laneAddrs q x base m) = true)
    (bind : t.canBindAll c (accessNames q f x) x.cnt.toNat (if m = 0 then .bound else .pending) = true)
    (hu : u = t.bindNames c (accessNames q f x) x.cnt.toNat (if m = 0 then .bound else .pending))
    (ha0 : a0 = newAccess t.nextId (s.coreOf w) g w q x f m (laneAddrs q x base m) vb vc)
    (ha : a = { a0 with slots := if q.glob then t.missLines y a0 else [] })
    (room : t.slotStall (s.coreOf w) a.slots = none) :
    memRest c ⟨w.arch, w.seq⟩ q x f w.arch.pc base vb vc m t
      = .ok () (if m = 0 then u
        else (u.tagNames c t.nextId (accessNames q f x)).withAccess c a (q.dst && x.head.uni)) := by
  have hy := r.reads.crew
  have hid : a.id = t.nextId := by rw [ha, ha0]; rfl
  obtain ⟨es, names, tags⟩ := allocTag_run hy r.reads.clean (accessNames_list q f x) bind
  obtain ⟨z, hz, -⟩ := State.bindNames_crew (accessNames q f x) x.cnt.toNat (if m = 0 then .bound else .pending) hy
  rw [← hu] at names tags hz
  unfold memRest
  refine (M.bind_ok (checkDst_run hy (State.unbound_all hy (accessNames_list q f x) bind))).trans
    ((M.bind_ok (memChecks_run hy ok)).trans ((M.bind_ok (r.accessM_run hg ha0 ha room)).trans
      ((M.bind_ok names).trans ?_)))
  by_cases empty : m = 0
  · rw [if_neg (fun ne => ne empty), if_pos empty]
    rfl
  · rw [if_pos empty, if_neg empty, ← hid]
    exact (M.bind_ok (tags a.id)).trans (withAccess_run a _ ((u.tagNames_crew c a.id _).trans hz))

theorem State.withAccess_crew (a : Access) (p : Bool) (hy : s.crew? c = some y) :
    ∃ z, (s.withAccess c a p).crew? c = some z ∧ z.arch.act = y.arch.act := by
  unfold State.withAccess
  simp only [hy]
  exact ⟨_, State.crew_setCrew _ _ _, rfl⟩

/-- The lanes of the crew stay active as it issues an access. -/
theorem MemReads.access_crew {id count : Nat} {ns : List Nat} {st : EState} (r : MemReads s t c w y x) (a : Access) (p : Bool)
    (hu : u = t.bindNames c ns count st) :
    ∃ z, (if m = 0 then u else (u.tagNames c id ns).withAccess c a p).crew? c = some z ∧ z.arch.act = w.arch.act := by
  obtain ⟨v, hv, same⟩ := State.bindNames_crew ns count st r.reads.crew
  rw [← hu] at hv
  have act : v.arch.act = w.arch.act := (Crew.sameButNames_act same).trans r.reads.act
  split
  · exact ⟨v, hv, act⟩
  · obtain ⟨z, hz, kept⟩ := State.withAccess_crew a p ((u.tagNames_crew c id ns).trans hv)
    exact ⟨z, hz, kept.trans act⟩

/-- The lowest lane that has the fault gives the address, and all that have it the lanes, but for a scalar form (R161). -/
theorem faultLanes_error {uni : Bool} (cause : Cause) {p : Fin 32 → Bool} {l : Fin 32}
    {ls : List (Fin 32)} (s : State) (hbad : bad = lanesWith m p) (lowest : lanesOf bad = l :: ls) :
    faultLanes uni m addr cause p s = .error (.trap cause (at0 addr l.val) (if uni then none else some bad)) s := by
  subst hbad
  unfold faultLanes
  simp only [lowest]
  rfl

/-- A misaligned lane stops a memory instruction before its other checks (R161). -/
theorem MemReads.memRest_misaligned {l : Fin 32} {ls : List (Fin 32)} (k : Snap) (pc : Addr) (r : MemReads s t c w y x)
    (hg : (s.gang? w.gang).isSome = true) (unbound : t.unbound c (accessNames q f x) = true)
    (hbad : bad = lanesWith m fun j => at0 (laneAddrs q x base m) j.val % Ty.size f.ty != 0) (lowest : lanesOf bad = l :: ls) :
    memRest c k q x f pc base vb vc m t
      = .error (.trap cAlign (at0 (laneAddrs q x base m) l.val) (if x.head.uni then none else some bad)) t := by
  have hy := r.reads.crew
  obtain ⟨g, hg⟩ := Option.isSome_iff_exists.1 hg
  simp only [State.unbound, hy, List.all_eq_true] at unbound
  refine (M.bind_ok (checkDst_run hy unbound)).trans (M.bind_error ?_)
  exact (M.bind_ok (crewM_run hy)).trans ((M.bind_ok (gangM_run hy (r.reads.gang? hg))).trans ((M.bind_ok (getS_run t)).trans
    (M.bind_error (faultLanes_error cAlign t hbad lowest))))

end

/-- Settles O31: the sources are read, then the access is formed and becomes unperformed. -/
theorem memoryAccesses : Obligations.MemoryAccesses := by
  unfold Obligations.MemoryAccesses
  rintro i q f x s s0 s1 s2 s3 s4 s5 c w g em m y base vb vc addr ns a a0 hi h bound idle hg off rfl hs1 oa rfl hs2 ob rfl
    hs3 oc rfl hs4 rfl rfl rfl rfl ok hy bind hs5 ha0 ha room
  obtain ⟨z, r, body⟩ := MemSources.memBody_run ⟨hs1, oa, hs2, ob, hs3, oc, hs4⟩ h off ⟨w.arch, w.seq⟩
  obtain rfl : z = y := Option.some.inj (r.reads.crew.symm.trans hy)
  obtain ⟨v, hv, act⟩ := r.access_crew (id := s4.nextId) (m := accessLanes x (s4.emaskOf c x.head)) a (q.dst && x.head.uni) hs5
  rw [exec_access s hi]
  exact memStep_run h bound idle (body.trans (r.memRest_run hg ok bind hs5 ha0 ha room)) hv
    fun h0 => absurd h0 (act ▸ h.awake)

/-! ## Misaligned accesses (R21, R23, R161) -/

/-- A memory instruction that stops with a fault of some of its lanes, or for a scalar form with one of its effective mask, takes
its trap where it stopped (R21, R23). -/
theorem memStep_trap {q : MemForm} {f : FnM} {x : Ops} {s t : State} {c addr : Nat} {w : Crew} {cause : Cause} {bad : Mask}
    (h : Issues s c w x) (bound : accessBound q f = true → w.acc = []) (idle : f.ord = 2 ∨ f.ord = 3 → s.matrixIdle c = true)
    (stops : memBody c ⟨w.arch, w.seq⟩ q x f (s.opens c w q.opc x)
      = .error (.trap cause addr (if x.head.uni then none else some bad)) t) (ht : (t.crew? c).isSome = true) :
    memStep q f x s
      = .next (t.trapped s c w cause addr (if x.head.uni then (w.arch.without (t.deadOf c)).emask x.head else bad)) := by
  obtain ⟨y, hy⟩ := Option.isSome_iff_exists.1 ht
  have run : memIssue q x f c s = .error (.trap cause addr (if x.head.uni then none else some bad)) t := by
    unfold memIssue
    refine (M.bind_ok (crewM_run h.crew)).trans ((M.bind_ok (matrixFence_run h.crew fun rel => idle (by simpa using rel))).trans ?_)
    refine issue_error h (fun ckpt => bound ?_) stops
    unfold accessBound
    cases hk : q.kind with
    | load => simpa [hk] using ckpt
    | store => simpa [hk] using ckpt
    | rmw op => simp
  unfold memStep crewStep
  simp only [h.cur, h.crew, run]
  cases x.head.uni with
  | true => simp [settleIssue, hy, State.trapped, State.deadOf]
  | false => simp [settleIssue, State.trapped]

/-- Settles O32: the check of alignment comes before the others, once the sources are read and the destination is unbound. -/
theorem misaligned : Obligations.Misaligned := by
  unfold Obligations.Misaligned
  rintro i q f x s s0 s1 s2 s3 s4 c w m bad base addr l ls hi h bound idle hg off rfl hs1 oa rfl hs2 ob hs3 oc hs4 rfl rfl
    unbound hbad lowest
  obtain ⟨y, r, body⟩ := MemSources.memBody_run ⟨hs1, oa, hs2, ob, hs3, oc, hs4⟩ h off ⟨w.arch, w.seq⟩
  rw [exec_access s hi]
  exact memStep_trap h bound idle (body.trans (r.memRest_misaligned _ _ hg unbound hbad lowest))
    (Option.isSome_iff_exists.2 ⟨y, r.reads.crew⟩)

/-! ## Accesses after their issue (R161, R163, R164, R177, R245, R246, R392) -/

/-- No lane of a list of translated lanes has another outcome. -/
theorem find?_translated (ps : List (Nat × Place)) {p : Nat × Xlat → Bool} (h : ∀ l pl, p (l, .ok pl) = false) :
    (ps.map fun q => (q.1, Xlat.ok q.2)).find? p = none := by
  rw [List.find?_eq_none]
  intro r hr
  obtain ⟨q, -, rfl⟩ := List.mem_map.1 hr
  simp [h]

theorem firstFault_translated (ps : List (Nat × Place)) : firstFault (ps.map fun q => (q.1, Xlat.ok q.2)) = none := by
  unfold firstFault
  rw [find?_translated ps fun _ _ => rfl]

/-- TRANSLATION_WALK_COMPLETE where every lane is translated and none reaches a leased range (R161). -/
theorem execTranslationWalkComplete_done {s : State} {c a : Nat} {y : Crew} {b : Access} {q : List (Nat × Xlat) × State}
    {ps : List (Nat × Place)} (ha : s.access? c a = some (y, b)) (fresh : b.place = none)
    (hq : q = xlatLanes y b (lanesOf b.lanes) (s.walkCanaries y b)) (all : q.1 = ps.map fun p => (p.1, Xlat.ok p.2))
    (unleased : lanesWith b.lanes (s.ownLease c y b) = 0) :
    execTranslationWalkComplete c a s = .next (q.2.modCrew c fun z => z.setAccess { b with place := some ps }) := by
  have none_leased : lanesOf (lanesWith b.lanes (s.ownLease c y b)) = [] := by rw [unleased]; decide
  have none_poisoned := find?_translated ps (p := fun r => r.2 == .poison) fun _ _ => rfl
  have whole : ps.filterMap (fun p => some (p.1, p.2)) = ps := List.filterMap_some
  unfold execTranslationWalkComplete
  simp only [ha, fresh, Option.isSome_none, Bool.false_eq_true, if_false, ← hq, all, none_poisoned, firstFault_translated]
  split
  · next l _ leased => exact absurd (leased.symm.trans none_leased) (List.cons_ne_nil _ _)
  · simp only [List.filterMap_map, Function.comp_def, whole]

/-- Its crew is the one that an access is found with. -/
theorem State.access?_crew {s : State} {c a : Nat} {y : Crew} {b : Access} (h : s.access? c a = some (y, b)) :
    s.crew? c = some y := by
  unfold State.access? at h
  split at h
  · cases h
  · next x hx =>
    obtain ⟨d, -, hd⟩ := Option.map_eq_some_iff.1 h
    cases hd
    exact hx

/-- Lanes of an access that have been performed: the acquire takes effect where the access is over (R247). -/
theorem afterPerform_ok {s : State} {c : Nat} {y : Crew} {b : Access} (t : State) (hy : s.crew? c = some y) :
    afterPerform s c b (.ok t) = .next (t.performed (s.coreOf y) b c) := by
  unfold afterPerform State.performed
  simp only [hy]
  cases t.access? c b.id with
  | none => exact (apply_ite Host.Outcome.next _ _ _).symm
  | some p => exact (apply_ite Host.Outcome.next _ _ _).symm

/-- MEMORY_ACCESS_PERFORMED on lanes that no window serves and that meet no poisoned sync line (R163, R164, R177). -/
theorem execMemoryAccessPerformed_done {s t : State} {c a : Nat} {y : Crew} {b : Access} {lanes : Mask}
    (ha : s.access? c a = some (y, b)) (may : s.mayPerform c y b lanes = true) (whole : b.together lanes = true)
    (direct : ((lanesOf lanes).all fun l => !b.windowLane l.val) = true) (clean : s.syncLanes b lanes = none)
    (run : performLanes (laneIn (s.coreOf y) (s.accessReader y b)) c (lanesOf lanes) b
      ((s.canaries y b lanes).linkRecords (s.accessWho y b) (s.lostLines b lanes)) = .ok t) :
    execMemoryAccessPerformed c a lanes s = .next (t.performed (s.coreOf y) b c) := by
  unfold execMemoryAccessPerformed
  simp only [ha, may, whole, direct, clean, Bool.and_self, Bool.not_true, Bool.false_eq_true, if_false]
  exact (congrArg (afterPerform s c b) run).trans (afterPerform_ok t (State.access?_crew ha))

/-- Lanes performed through a window whose checks they all pass (R245, R246). -/
theorem State.throughWindow_done {s t : State} {c : Nat} {y : Crew} {b : Access} {all m : Mask} {ls : List (Fin 32)}
    {one : State → Access → Nat → Place → LaneRes} (hy : s.crew? c = some y) (may : s.mayPerform c y b m = true)
    (within : m &&& ~~~ all = 0) (clean : firstFault (s.recheck y b (lanesOf all)) = none)
    (run : performLanes one c ls b (s.canaries y b m) = .ok t) :
    s.throughWindow y c b all m ls one = .next (t.performed (s.coreOf y) b c) := by
  unfold State.throughWindow
  simp only [may, within, clean, run, beq_self_eq_true, Bool.and_self, Bool.not_true, Bool.false_eq_true, if_false]
  exact afterPerform_ok t hy

/-- The window lanes that WINDOW_READ performs name no value-store entry. -/
theorem windowLanes_false (b : Access) :
    windowLanes b false = lanesWith (b.lanes &&& ~~~ b.done) fun l => b.windowLane l.val && !b.entryLane l.val := by
  unfold windowLanes
  congr 1
  funext l
  cases b.entryLane l.val <;> rfl

/-- The window lanes that WINDOW_WRITE performs are those in value-store entries. -/
theorem windowLanes_true (b : Access) :
    windowLanes b true = lanesWith (b.lanes &&& ~~~ b.done) fun l => b.entryLane l.val := by
  unfold windowLanes Access.entryLane
  congr 1
  funext l
  simp only [beq_true, ← Bool.and_assoc, Bool.and_self]

/-- REQUEST_TIMEOUT of an access with lanes outside (R392). -/
theorem execRequestTimeout_done {s t : State} {c a : Nat} {y : Crew} {b : Access} {m : Mask}
    (ha : s.access? c a = some (y, b)) (hm : m = b.lanesIn Region.outside) (some_lane : m ≠ 0)
    (may : s.mayPerform c y b m = true)
    (run : performLanes lostLane c (lanesOf m) b (s.linkRecords (s.accessWho y b) (b.newLines m fun _ => true)) = .ok t) :
    execRequestTimeout c a s = .next (t.performed (s.coreOf y) b c) := by
  subst hm
  unfold execRequestTimeout State.loseLanes
  simp only [ha, may, some_lane, run, Bool.not_true, Bool.or_false, decide_false, Bool.false_eq_true, if_false]
  exact afterPerform_ok t (State.access?_crew ha)

/-- WINDOW_READ of lanes that pass their checks (R245, R246). -/
theorem execWindowRead_done {s t : State} {c a : Nat} {y : Crew} {b : Access} {lanes m : Mask}
    (ha : s.access? c a = some (y, b)) (hm : m = windowLanes b false) (within : lanes &&& ~~~ m = 0)
    (may : s.mayPerform c y b lanes = true) (clean : firstFault (s.recheck y b (lanesOf m)) = none)
    (run : performLanes (windowOne y) c (lanesOf lanes) b (s.canaries y b lanes) = .ok t) :
    execWindowRead c (a, lanes) s = .next (t.performed (s.coreOf y) b c) := by
  rw [windowLanes_false] at hm
  unfold execWindowRead
  simp only [ha, ← hm]
  exact State.throughWindow_done (State.access?_crew ha) may within clean run

/-- WINDOW_WRITE of lanes that pass their checks, those whose words are filled already first (R17, R246). -/
theorem execWindowWrite_done {s t : State} {c a : Nat} {y : Crew} {b : Access} {lanes m : Mask}
    (ha : s.access? c a = some (y, b)) (hm : m = windowLanes b true) (within : lanes &&& ~~~ m = 0)
    (may : s.mayPerform c y b lanes = true) (clean : firstFault (s.recheck y b (lanesOf m)) = none)
    (run : performLanes (entryOne y) c ((lanesOf lanes).filter (fun l => s.filledLane b l.val)
      ++ (lanesOf lanes).filter fun l => !s.filledLane b l.val) b (s.canaries y b lanes) = .ok t) :
    execWindowWrite c (a, lanes) s = .next (t.performed (s.coreOf y) b c) := by
  rw [windowLanes_true] at hm
  unfold execWindowWrite
  simp only [ha, ← hm]
  exact State.throughWindow_done (State.access?_crew ha) may within clean run

/-- Settles O42: each happening of an access whose conditions hold does what its clause says. -/
theorem accessHappenings : Obligations.AccessHappenings := by
  unfold Obligations.AccessHappenings
  intro s t c a y b lanes m q ps d
  refine ⟨execTranslationWalkComplete_done, execMemoryAccessPerformed_done, execWindowRead_done, execWindowWrite_done,
    execRequestTimeout_done, ?arrival⟩
  case arrival =>
    rintro hd rfl
    show execLoadDataArrival a s = _
    unfold execLoadDataArrival
    simp only [hd]
    cases d.dest with
    | none => rfl
    | scalar r => rfl
    | name n pair => rfl

/-! ## The bytes of a store (R163, R164) -/

/-- The lanes of a scratchpad access reach no link (R392). -/
theorem State.lostLines_spad (s : State) {b : Access} (spad : b.spad = true) (lanes : Mask) : s.lostLines b lanes = [] := by
  have none_lost (m : Mask) (ps : List (Nat × Place)) :
      ps.filter (fun q => m.getLsbD q.1 && (!b.spad && !(s.answers q.2.pa b.size))) = [] := by
    simp [spad]
  unfold State.lostLines Access.newLines
  simp only [none_lost]
  rfl

/-- What an acquire does to the L1 leaves memory (R247). -/
theorem State.performed_mem (s : State) (core : Nat) (b : Access) (c : Nat) : (s.performed core b c).mem = s.mem := by
  unfold State.performed State.acquireL1
  split
  · split <;> rfl
  · rfl

/-- A lane of a mask within another is one of the other's. -/
theorem getElem_of_subset {m n : Mask} (h : m &&& ~~~ n = 0) {l : Fin 32} (hl : m[l] = true) : n[l] = true := by
  have none := congrArg (fun v : Mask => v[l]) h
  simp at none
  exact none hl

/-- Settles O55: the lanes of an STS are performed one after the other, and each byte keeps the value of its highest lane. -/
theorem storeBytes : Obligations.StoreBytes := by
  unfold Obligations.StoreBytes
  intro s c a K y b lanes ok ha store spad may clean quiet places within unmarked
  obtain ⟨t, run, kept, low, high⟩ := performLanes_store (s.coreOf y) c K (s.accessReader y b) b store spad places
    (lanesOf lanes) b s rfl ok (fun l hl => getElem_of_subset within (mem_lanesOf.1 hl)) (fun l hl => unmarked l (mem_lanesOf.1 hl))
  have whole : b.together lanes = true := by unfold Access.together; rw [store]
  have direct : ((lanesOf lanes).all fun l => !b.windowLane l.val) = true := by simp [Access.windowLane, spad]
  refine ⟨t.performed (s.coreOf y) b c, execMemoryAccessPerformed_done ha may whole direct clean ?_, ?_, fun n => ?_,
    fun p hp => ?_⟩
  · rw [quiet, State.lostLines_spad s spad]
    exact run
  · unfold State.MemOk
    rw [State.performed_mem]
    exact kept
  · rw [State.performed_mem, high]
    cases topLane b n with
    | none => rfl
    | some l => simp only [mem_lanesOf]
  · rw [State.performed_mem]
    exact low p hp

/-! ## PREF, PMAP, TLBINV, FENCE (R156, R166, R176, R184, R185) -/

/-- PREF whose base can be read: its lines are requested (R166). -/
theorem AfterReads.prefBody_run {s s0 s1 : State} {c : Nat} {w y0 y1 : Crew} {f : FnM} {x : Ops}
    (a0 : AfterReads s s0 c w y0 x) (near0 : s.Near s0 c) (off : (s.core (s.coreOf w)).trc.en = false)
    (can : s0.canRead y0 x.sa true = true) (ok : s0.srcOk c x.sa true = true) (hs1 : s1 = s0.afterSrc c x.sa true)
    (a1 : AfterReads s s1 c w y1 x) :
    prefBody c f x s0 = .ok () (s1.prefetchAll c y1 (f.sub == 0) f.ty
      (perLane (s1.emaskOf c x.head) fun l => memAddr true (s0.srcVals c x.head x.sa true)[l] x)) := by
  have near1 : s.Near s1 c := hs1 ▸ near0.trans (s0.near_afterSrc c x.sa true)
  unfold prefBody
  refine (M.bind_ok (a0.own s0 a0.crew)).trans ((M.bind_ok (getS_run s0)).trans ((M.bind_ok (crewM_run a0.crew)).trans ?_))
  rw [if_pos can]
  refine (M.bind_ok (a0.source_run ok)).trans ?_
  rw [← hs1]
  exact (M.bind_ok (a1.traceLanes_run near1 off _ f _ _)).trans ((M.bind_ok (a1.mask x.head)).trans
    ((M.bind_ok (crewM_run a1.crew)).trans (modS_run _ s1)))

/-- PREF whose base cannot be read does nothing (R166, log 46). -/
theorem AfterReads.prefBody_idle {s s0 : State} {c : Nat} {w y0 : Crew} {f : FnM} {x : Ops} (a0 : AfterReads s s0 c w y0 x)
    (near0 : s.Near s0 c) (off : (s.core (s.coreOf w)).trc.en = false) (can : s0.canRead y0 x.sa true = false) :
    prefBody c f x s0 = .ok () s0 := by
  unfold prefBody
  refine (M.bind_ok (a0.own s0 a0.crew)).trans ((M.bind_ok (getS_run s0)).trans ((M.bind_ok (crewM_run a0.crew)).trans ?_))
  rw [can, if_neg Bool.false_ne_true]
  exact (M.bind_ok (getS_run s0)).trans (a0.traceLanes_run near0 off _ f _ _)

/-- PMAP takes its address and its attributes, and waits for the device (R184). -/
theorem runPmap_start {s : State} {c : Nat} {w : Crew} {x : Ops} (h : Issues s c w x) (level : 1 ≤ w.priv.toNat)
    (first : w.waitEvt = none) :
    runPmap c x s = .ok () (s.setCrew c { w with
      park := some (.pmap ((w.arch.scalar (scalarNo x.sa)).toNat % 2 ^ 52) (w.arch.scalar (scalarNo x.sb)).toNat) }) :=
  (M.bind_ok (needPriv_run h.crew level)).trans (twoPhase_start h nofun first
    ((M.bind_ok (readScalar_run x.sa h.crew h.clean)).trans (M.bind_ok (readScalar_run x.sb h.crew h.clean))) h.crew)

/-- PMAP ends with the result word that the device has delivered (R184). -/
theorem runPmap_done {s : State} {c : Nat} {w : Crew} {x : Ops} {v : DWord} (h : Issues s c w x) (level : 1 ≤ w.priv.toNat)
    (answered : w.waitEvt = some v) :
    runPmap c x s = .ok () ((((s.opens c w 0xA5 x).delivered c).setScalarOf c x.dst v).ended c w) := by
  have hd := State.delivered_crew (s.opens_crew c w 0xA5 x)
  obtain ⟨y, hy, act⟩ := State.setScalarOf_some x.dst v hd
  exact (M.bind_ok (needPriv_run h.crew level)).trans (twoPhase_done h nofun answered
    (writeScalar_of x.dst v hd (h.begun_marks 0xA5)) hy fun h0 => absurd h0 (h.act_ne 0xA5 act))

/-- TLBINV takes its page, or all of them, and waits for the device (R185). -/
theorem runTlbinv_start {s : State} {c : Nat} {w : Crew} {f : FnM} {x : Ops} (h : Issues s c w x) (level : 1 ≤ w.priv.toNat)
    (acc : w.acc = []) (first : w.waitEvt = none) :
    runTlbinv c f x s = .ok () (s.setCrew c { w with
      park := some (.tlbinv (if f.sub = 0 then some ((w.arch.scalar (scalarNo x.sa)).toNat % 2 ^ 52) else none)) }) := by
  refine (M.bind_ok (needPriv_run h.crew level)).trans (twoPhase_start h (fun _ => acc) first ?_ h.crew)
  by_cases page : f.sub = 0
  · rw [if_pos page, if_pos page]
    exact M.bind_ok (readScalar_run x.sa h.crew h.clean)
  · rw [if_neg page, if_neg page]
    rfl

/-- TLBINV ends once the device has done its part (R185). -/
theorem runTlbinv_done {s : State} {c : Nat} {w : Crew} {f : FnM} {x : Ops} {v : DWord} (h : Issues s c w x)
    (level : 1 ≤ w.priv.toNat) (acc : w.acc = []) (answered : w.waitEvt = some v) :
    runTlbinv c f x s = .ok () (((s.opens c w 0xA6 x).delivered c).ended c w) :=
  (M.bind_ok (needPriv_run h.crew level)).trans (twoPhase_done h (fun _ => acc) answered rfl
    (State.delivered_crew (s.opens_crew c w 0xA6 x)) fun h0 => absurd h0 (h.act_ne 0xA6 rfl))

/-- An instruction that needs the checkpoint, once its effect has run with its lanes still active. -/
theorem Issues.issue_ended {s t : State} {c opc : Nat} {w y : Crew} {x : Ops} {body : M Unit} (h : Issues s c w x)
    (acc : w.acc = []) (run : body (s.opens c w opc x) = .ok () t) (ht : t.crew? c = some y)
    (act : y.arch.act = (w.begun opc x).arch.act) : issue c opc x true true body s = .ok () (t.ended c w) := by
  rw [issue_run h.crew h.sw (fun _ => acc) run ht fun h0 => absurd h0 (h.act_ne opc act)]
  simp only [State.ended, ht]

/-- FENCE, an acquire where its order is one (R176). -/
theorem runFence_run {s : State} {c : Nat} {w : Crew} {f : FnM} {x : Ops} (h : Issues s c w x) (acc : w.acc = [])
    (idle : s.matrixIdle c = true) :
    runFence c f x s = .ok () ((if f.ord = 1 ∨ f.ord = 3 then (s.opens c w 0xB4 x).acquired c f.scope.toNat
      else s.opens c w 0xB4 x).ended c w) := by
  have hc := s.opens_crew c w 0xB4 x
  refine (M.bind_ok (matrixFence_run h.crew fun _ => idle)).trans ?_
  by_cases acquire : f.ord = 1 ∨ f.ord = 3
  · rw [if_pos (by simpa using acquire), if_pos acquire]
    exact h.issue_ended acc (acquireM_run f.scope.toNat hc) ((State.acquired_crew _ c _).trans hc) rfl
  · rw [if_neg (by simpa using acquire), if_neg acquire]
    exact h.issue_ended acc rfl hc rfl

/-- Settles O33: PREF issues in one step with or without its requests, PMAP and TLBINV in two, FENCE with its acquire. -/
theorem memoryControl : Obligations.MemoryControl := by
  unfold Obligations.MemoryControl
  intro f x s s0 s1 c w y m base v h
  refine ⟨?pref, ?unread, fun level first => ?_, ?mapped, fun level acc first => ?_, ?invalidated, ?fence⟩
  case pref =>
    rintro rfl off can ok rfl rfl rfl hy
    have a0 := AfterReads.opens h 0xA4
    obtain ⟨z, a1⟩ := a0.src x.sa true
    obtain rfl : z = y := Option.some.inj (a1.crew.symm.trans hy)
    exact a0.ends h (a0.prefBody_run (s.near_opens c w 0xA4 x) off can ok rfl a1)
      ⟨z, (State.prefetchAll_crew _ c z _ _ _ c).trans hy, a1.act.trans a0.act.symm⟩
  case unread =>
    rintro rfl off can
    have a0 := AfterReads.opens h 0xA4
    exact a0.ends h (a0.prefBody_idle (s.near_opens c w 0xA4 x) off can) ⟨_, a0.crew, rfl⟩
  case mapped =>
    rintro level answered rfl
    exact crewStep_run h.cur h.crew (runPmap_done h level answered)
  case invalidated =>
    rintro level acc answered rfl
    exact crewStep_run h.cur h.crew (runTlbinv_done h level acc answered)
  case fence =>
    rintro acc idle rfl
    exact crewStep_run h.cur h.crew (runFence_run h acc idle)
  · exact crewStep_run h.cur h.crew (runPmap_start h level first)
  · exact crewStep_run h.cur h.crew (runTlbinv_start h level acc first)

/-! ## Barriers (R179 to R182) -/

/-- The return of BAR or BARW ends the instruction (R180 to R182). -/
theorem barReturn_issue {s : State} {c l n opc : Nat} {w : Crew} {x : Ops} (h : Issues s c w x) (acc : w.acc = []) :
    issue c opc x true true (barReturn c l n x) s = .ok () (((s.opens c w opc x).barDone c l n x).ended c w) := by
  have hc := s.opens_crew c w opc x
  obtain ⟨y, hy, act⟩ := State.barDone_some (l := l) (n := n) (x := x) hc
  exact h.issue_ended acc (barReturn_run hc (h.begun_marks opc)) hy act

/-- An arrival leaves its crew able to issue: it has noted the phase, and nothing else of it has moved (R180). -/
theorem State.arriveAt_issues {s u : State} {c l n : Nat} {w v : Crew} {x : Ops} (h : Issues s c w x)
    (arrives : s.arriveAt c l n = some u)
    (hv : v = { w with barSeen := Tab.put w.barSeen (barKey l n) (s.phase l n w.gang) }) : Issues u c v x := by
  subst hv
  obtain ⟨core, cores, cur⟩ := State.arriveAt_core w arrives
  refine ⟨cur.trans h.cur, State.arriveAt_crew h.crew arrives, h.clean, h.awake, h.full, fun marked => ?_⟩
  have same : u.core (s.coreOf w) = s.core (s.coreOf w) := by unfold State.core; rw [cores]
  show switchWaits w (u.core (u.coreOf w)).vs = false
  rw [core, same]
  exact h.sw marked

/-- BAR once the crew has arrived as `v`: it parks in the open phase, and ends where its arrival completed it (R180). -/
theorem runBar_run {s u : State} {c : Nat} {w v : Crew} {f : FnM} {x : Ops} (h : Issues s c w x) (acc : w.acc = [])
    (first : w.park ≠ some (.barrier (barLevel f) (barNo f) true)) (idle : s.matrixIdle c = true)
    (barrier : s.barExists c (barLevel f) = true) (fresh : s.inPhase c (barLevel f) (barNo f) = false)
    (arrives : s.arriveAt c (barLevel f) (barNo f) = some u)
    (hv : v = { w with barSeen := Tab.put w.barSeen (barKey (barLevel f) (barNo f)) (s.phase (barLevel f) (barNo f) w.gang) }) :
    runBar c f x s = .ok () (if u.inPhase c (barLevel f) (barNo f)
      then u.setCrew c { v with park := some (.barrier (barLevel f) (barNo f) true) }
      else ((u.opens c v 0xB5 x).barDone c (barLevel f) (barNo f) x).ended c v) := by
  have hi := State.arriveAt_issues h arrives hv
  unfold runBar
  refine (M.bind_ok (crewM_run h.crew)).trans ?_
  dsimp only
  rw [if_pos first]
  refine (M.bind_ok (barReady_run h acc idle)).trans ((M.bind_ok (checkBarrier_run h.crew barrier)).trans
    ((M.bind_ok (arriveOrPark_run h.crew fresh arrives)).trans ((M.bind_ok (crewM_run hi.crew)).trans
      ((M.bind_ok (getS_run u)).trans ?_))))
  rw [State.inPhase_of hi.crew]
  by_cases waits : u.waits_ v (barLevel f) (barNo f) = true
  · rw [if_pos waits, if_pos waits]
    exact modC_run _ hi.crew
  · rw [if_neg waits, if_neg waits]
    exact barReturn_issue hi (by rw [hv]; exact acc)

/-- BAR of a crew that is parked in a phase that is complete now (R180). -/
theorem runBar_parked {s : State} {c : Nat} {w : Crew} {f : FnM} {x : Ops} (h : Issues s c w x) (acc : w.acc = [])
    (parked : w.park = some (.barrier (barLevel f) (barNo f) true))
    (complete : s.inPhase c (barLevel f) (barNo f) = false) :
    runBar c f x s = .ok () (((s.opens c w 0xB5 x).barDone c (barLevel f) (barNo f) x).ended c w) := by
  rw [State.inPhase_of h.crew] at complete
  unfold runBar
  refine (M.bind_ok (crewM_run h.crew)).trans ?_
  dsimp only
  rw [if_neg (fun ne => ne parked)]
  refine (M.bind_ok (crewM_run h.crew)).trans ((M.bind_ok (getS_run s)).trans ?_)
  rw [complete, if_neg Bool.false_ne_true]
  exact barReturn_issue h acc

/-- BARA: the arrival, and no wait for its phase (R181). -/
theorem runBara_run {s u : State} {c : Nat} {w v : Crew} {f : FnM} {x : Ops} (h : Issues s c w x) (acc : w.acc = [])
    (idle : s.matrixIdle c = true) (barrier : s.barExists c (barLevel f) = true)
    (fresh : s.inPhase c (barLevel f) (barNo f) = false)
    (arrives : (s.opens c w 0xB6 x).arriveAt c (barLevel f) (barNo f) = some u)
    (hu : u.crew? c = some v) (act : v.arch.act = (w.begun 0xB6 x).arch.act) :
    runBara c f x s = .ok () (u.ended c w) := by
  have hc := s.opens_crew c w 0xB6 x
  have run : (checkBarrier c (barLevel f) >>= fun _ => arriveOrPark c (barLevel f) (barNo f)) (s.opens c w 0xB6 x) = .ok () u :=
    (M.bind_ok (checkBarrier_run hc (State.opens_barExists h 0xB6 barrier))).trans
      (arriveOrPark_run hc (State.opens_inPhase h 0xB6 fresh) arrives)
  unfold runBara
  refine (M.bind_ok (matrixFence_run h.crew fun _ => idle)).trans ?_
  exact h.issue_ended acc run hu act

/-- BARW where the phase of the crew's last arrival is complete (R182). -/
theorem bodyBarw_run {s : State} {c : Nat} {w : Crew} {f : FnM} {x : Ops} (h : Issues s c w x)
    (barrier : s.barExists c (barLevel f) = true) (complete : s.inPhase c (barLevel f) (barNo f) = false) :
    bodyBarw c f x (s.opens c w 0xB7 x) = .ok () ((s.opens c w 0xB7 x).barDone c (barLevel f) (barNo f) x) := by
  have hc := s.opens_crew c w 0xB7 x
  have done := State.opens_inPhase h 0xB7 complete
  rw [State.inPhase_of hc] at done
  unfold bodyBarw
  refine (M.bind_ok (checkBarrier_run hc (State.opens_barExists h 0xB7 barrier))).trans
    ((M.bind_ok (crewM_run hc)).trans ((M.bind_ok (getS_run _)).trans ?_))
  rw [done, if_neg Bool.false_ne_true]
  exact barReturn_run hc (h.begun_marks 0xB7)

/-- Settles O34: BAR issues from the state that its arrival leaves; BARA ends with the arrival; BARW has only the return. -/
theorem barriers : Obligations.Barriers := by
  unfold Obligations.Barriers
  rintro f x s s0 u c l n w v h acc rfl rfl
  refine ⟨?bar, ?parked, ?bara, ?barw⟩
  case bar =>
    intro first idle barrier fresh arrives hv _
    exact crewStep_run h.cur h.crew (runBar_run h acc first idle barrier fresh arrives hv)
  case parked =>
    intro parked complete
    exact crewStep_run h.cur h.crew (runBar_parked h acc parked complete)
  case bara =>
    rintro rfl idle barrier fresh arrives rfl hu
    exact crewStep_run h.cur h.crew (runBara_run h acc idle barrier fresh arrives hu rfl)
  case barw =>
    rintro rfl barrier complete
    obtain ⟨y, hy, act⟩ := State.barDone_some (l := barLevel f) (n := barNo f) (x := x) (s.opens_crew c w 0xB7 x)
    exact issueStep_ended h (fun _ => acc) (bodyBarw_run h barrier complete) hy (h.act_ne 0xB7 act)

end Sys2Proof.Machine

/-!
PROOFS of the family 11_memory_hierarchy.md: every step keeps memory in its canonical form (O57), and contexts stop, are saved
and come back (O47).
-/

namespace Sys2Proof.Machine

open Sys2Proof

/-! ## Memory in its canonical form (R243) -/

theorem OutKept.ite {p : Prop} [Decidable p] {a b : Host.Outcome State Fault Refusal} (ha : OutKept a) (hb : OutKept b) :
    OutKept (if p then a else b) := by
  split
  · exact ha
  · exact hb

/-- Each kind of entry has its own operation, whose memory law is known; one that cannot happen is passed over. -/
theorem State.happen_kept {s : State} (p : Pending) (hks : s.MemOk) : OutKept (s.happen p) := by
  cases p with
  | issue core quad => exact .ite (State.clock_kept core quad hks) (State.passOver_kept hks)
  | event i => exact .ite (exec_kept i (State.beforeEvent_kept i hks)) (State.passOver_kept hks)
  | memWrite pa bytes => exact State.outsideWrite_kept pa bytes hks
  | tlbDrop core i => exact .next (State.loseTlb_kept core i hks)
  | lineDrop core line => exact .next (State.modCore_kept core _ hks)
  | poolRefill die frames => exact State.refillPool_kept die frames hks
  | outLine line bad => exact State.markOut_kept line bad hks
  | barRead off size => exact State.hostBar_kept off size hks
  | queuePair port pair p => exact State.makePair_kept port pair p hks
  | cmdPart k i => exact State.cmdPart_kept k i hks
  | collMeet ks remote => exact State.collMeet_kept ks remote hks
  | matRead core word => exact State.matReads_kept core word hks
  | matWrite core word => exact State.matWrites_kept core word hks

/-- The model's own order takes one of the two turns, or leaves the machine as it is. -/
theorem State.ownOrder_cases (s : State) :
    s.turnIssue = some s.ownOrder ∨ s.turnAuto = some s.ownOrder ∨ s.ownOrder = .next s := by
  unfold State.ownOrder
  by_cases crews : s.turn % 2 = 0
  · simp only [if_pos crews]
    cases hi : s.turnIssue with
    | some r => exact .inl rfl
    | none => cases ha : s.turnAuto with
      | some r => exact .inr (.inl rfl)
      | none => exact .inr (.inr rfl)
  · simp only [if_neg crews]
    cases ha : s.turnAuto with
    | some r => exact .inr (.inl rfl)
    | none => cases hi : s.turnIssue with
      | some r => exact .inl rfl
      | none => exact .inr (.inr rfl)

theorem State.ownOrder_kept {s : State} (hks : s.MemOk) : OutKept s.ownOrder := by
  obtain issue | auto | idle := s.ownOrder_cases
  · exact State.turnIssue_kept hks issue
  · exact State.turnAuto_kept hks auto
  · exact idle ▸ .next hks

theorem State.proceed_kept {s : State} (hks : s.MemOk) : OutKept s.proceed := by
  unfold State.proceed
  split
  case h_1 p ps _ => exact State.happen_kept (s := { s with agenda := ps }) p hks
  case h_2 => exact State.ownOrder_kept hks

/-- Settles O57: whatever a step proceeds to keeps memory canonical, and so do the faults of the DEQs that wait after it. -/
theorem stepKeepsMemory : Obligations.StepKeepsMemory := by
  unfold Obligations.StepKeepsMemory
  exact fun s t hks next => thenWaiters_kept s.proceed (State.proceed_kept hks) t next

/-! ## Contexts (R251, R283 to R291, R390) -/

/-- What a request to stop does to a context that runs, but for the change of its STATE (R283). -/
def State.askStop (s : State) (c : Nat) (d : BitVec 32) : State :=
  (s.modCtx c fun k => { k with deadline := d }).modCtx c fun k => { k with req := true }

/-- REQ of CTXPRE is set (R283, R284). -/
theorem execCtxpreReqSet_eq {s : State} {c : Nat} (d : BitVec 32) (hc : c < 65536) :
    execCtxpreReqSet c d s = .next (
      if (s.ctx c).pre ≠ 0 then s.modCtx c fun k => { k with deadline := d }
      else if d = 0 then (s.askStop c d).setPre c 2
      else ((s.askStop c d).setPre c 1).drained c) := by
  unfold execCtxpreReqSet
  rw [if_neg (by omega)]
  dsimp only
  split
  · rfl
  · split <;> rfl

/-- REQ of CTXPRE is cleared (R283). -/
theorem execCtxpreReqClear_eq {s t : State} {c : Nat} (hc : c < 65536) (ht : t = s.modCtx c fun k => { k with req := false }) :
    execCtxpreReqClear c s = .next (
      if (s.ctx c).pre = 0 then t
      else if (s.ctx c).pre = 1 then t.setPre c 0
      else if (s.ctx c).restore.isSome then t
      else { t with nextId := t.nextId + 1 }.modCtx c fun k => { k with restore := some t.nextId }) := by
  subst ht
  unfold execCtxpreReqClear
  rw [if_neg (by omega)]
  dsimp only
  repeat' split
  all_goals rfl

/-- A context whose matrix instructions and commands are complete is stopped and saved (R285 to R287). -/
theorem execHardStop_ready {s : State} {c : Nat} (stopping : (s.ctx c).pre = 2) (ready : s.stopReady c = true) :
    execHardStop c s = .next (((s.stopped c).setPre c 3).evaluate 2 false) :=
  if_neg (by simp [stopping, ready])

/-- A restore whose turn it is, whose gangs all come back and whose log can be read (R288 to R290). -/
theorem execContextRestore_lands {s t u z : State} {c n : Nat} (asked : (s.ctx c).restore = some n)
    (saved : (s.ctx c).pre = 3) (oldest : s.olderRestore n (s.restoreCores c) = false)
    (reloaded : reloadAll c (s.restoreCores c) s = some t) (landed : landGangs (s.savedGangs c) t = some u)
    (replayed : u.replayLog c = .ok z) : execContextRestore c s = .next (z.resumeCtx c) := by
  unfold execContextRestore
  simp [asked, saved, oldest, reloaded, landed, replayed]

/-- A write of CTXROOT: no change, a change that waits for the accesses under way, or one that takes effect (R251). -/
theorem execCtxroot_eq {s : State} {c : Nat} (v : DWord) (hc : c < 65536) :
    execCtxroot c v s = .next (
      if fld v 51 16 * 65536 = (s.ctx c).root ∧ v[0] = (s.ctx c).promote then s.modCtx c fun k => { k with rootDue := none }
      else if s.xlatInUse c fun _ => true then s.modCtx c fun k => { k with rootDue := some v }
      else (s.modCtx c fun k =>
        { k with root := fld v 51 16 * 65536, promote := v[0], rootDue := none }).purgeTlb (purges c none)) := by
  unfold execCtxroot
  dsimp only
  rw [if_neg (by omega)]
  repeat' split
  all_goals rfl

/-- Settles O47: each happening of a context by its equation, in the case that the clause names. -/
theorem contextHappenings : Obligations.ContextHappenings := by
  unfold Obligations.ContextHappenings
  intro s t u z c n v d hc
  have request := execCtxpreReqSet_eq (s := s) d hc
  refine ⟨fun running now => ?now, fun running later => ?drain, fun away => ?away, fun ht => ?clear, fun draining => ?expiry,
    fun stopping ready => execHardStop_ready stopping ready,
    fun asked saved oldest reloaded landed replayed =>
      execContextRestore_lands asked saved oldest reloaded landed replayed,
    execCtxroot_eq v hc, if_neg (by omega)⟩
  case now => exact request.trans (by rw [if_neg (by simp [running]), if_pos now]; rfl)
  case drain => exact request.trans (by rw [if_neg (by simp [running]), if_neg later]; rfl)
  case away => exact request.trans (by rw [if_pos away])
  case clear =>
    have withdrawal := execCtxpreReqClear_eq hc ht
    refine ⟨fun running => withdrawal.trans (by rw [if_pos running]),
      fun draining => withdrawal.trans (by rw [if_neg (by simp [draining]), if_pos draining]),
      fun stopped idle => withdrawal.trans ?_⟩
    have not0 : (s.ctx c).pre ≠ 0 := fun e => by simp [e] at stopped
    have not1 : (s.ctx c).pre ≠ 1 := fun e => by simp [e] at stopped
    rw [if_neg not0, if_neg not1, if_neg (by simp [idle])]
  case expiry => exact if_pos draining

end Sys2Proof.Machine

/-!
PROOFS of the family 12_scheduling_and_preemption.md: packets start or halt their queue, the hoist core's rounds, WAITs, the
doorbell and the halt bit (O46).
-/

namespace Sys2Proof.Machine

open Sys2Proof

/-! ## A packet at the head of its queue (R265 to R267) -/

/-- The entry that a SIGNAL (`opc` 2) or a WAIT (`opc` 3) of the bytes `bs` has among the open packets of its queue (R265). -/
def Queue.accessPacket (w : Queue) (opc : Nat) (bs : List Byte) : Packet :=
  { unit := w.head.toNat, opc := opc, addr := recField bs 8 63 0, val := recField bs 16 63 0, grid := none, halt := false }

/-- A head packet that can start does so where it is of the type that is tried. -/
theorem packetStep_ready {s : State} {q opc : Nat} {bs : List Byte} (head : s.headOf q = .ready opc bs) :
    packetStep q opc s = .next (s.startPacket q opc bs) := by
  unfold packetStep
  rw [head]
  exact if_pos rfl

/-- A head packet that is turned away halts its queue where it is of the type that is tried (R267; log 32). -/
theorem packetStep_halt {s : State} {q opc code va : Nat} {o : Option Nat} (head : s.headOf q = .halt code o va)
    (type : o = some opc) : packetStep q opc s = .next (s.haltQueue q code va) := by
  unfold packetStep
  rw [head]
  exact if_pos type

/-! ## The write of a SIGNAL (R265, R267, R269; log 62) -/

/-- A packet that starts leaves its queue in its context. -/
@[simp] theorem State.started_queue_ctx (s : State) (q units : Nat) (p : Option Packet) :
    ((s.started q units p).queue q).ctx = (s.queue q).ctx := by
  unfold State.started State.modQueue
  rw [State.queue_setQueue]

/-- A SIGNAL whose write is performed is complete, and leaves the open packets. -/
theorem State.performSignal_written {s t : State} {q : Nat} {p : Packet}
    (written : s.writeSys false (s.queue q).ctx p.addr (bytesLE 8 p.val) = .ok t) :
    s.performSignal q p = t.modQueue q fun w => { w with open_ := w.open_.filter fun r => r.unit != p.unit } := by
  unfold State.performSignal
  rw [written]

/-- A SIGNAL whose write fails halts its queue. -/
theorem State.performSignal_failed {s : State} {q : Nat} {p : Packet} {e : Cause}
    (failed : s.writeSys false (s.queue q).ctx p.addr (bytesLE 8 p.val) = .error e) :
    s.performSignal q p = s.haltAt q p.unit .write p.addr := by
  unfold State.performSignal
  rw [failed]

/-- PACKET_SIGNAL of a head packet that can start: the packet is open before its write is tried. -/
theorem execPacketSignal_starts {s : State} {q : Nat} {bs : List Byte} (head : s.headOf q = .ready 2 bs) :
    execPacketSignal q s = .next
      ((s.started q 1 (some ((s.queue q).accessPacket 2 bs))).performSignal q ((s.queue q).accessPacket 2 bs)) :=
  packetStep_ready head

/-! ## Rounds and WAITs (R265, R267 to R269) -/

/-- The queues of a round whose head packets are turned away halt (R267, R268). -/
def haltHeads (hs : List (Nat × HeadRes)) (s : State) : State :=
  hs.foldl (fun x h => match h.2 with
    | .halt code _ va => x.haltQueue h.1 code va
    | _ => x) s

/-- HOIST_ROUND once the part has booted: the packets that are turned away halt their queues, then the others start, one type
after the other (R268, R353). -/
theorem execHoistRound_booted {s : State} {hs : List (Nat × HeadRes)} (booted : s.sec.boot = 3)
    (heads : hs = (roundQueues s.round).map fun k => (k, s.headOf k)) :
    execHoistRound s = .next
      ([3, 2, 4, 0, 1].foldl (fun x j => startType j hs x) (haltHeads hs { s with round := s.round + 1 })) := by
  subst heads
  exact if_neg (not_not_intro booted)

section
variable {s : State} {q u : Nat} {p : Packet}

/-- WAIT_PACKET_COMPLETE of a WAIT whose word has reached its value (R265). -/
theorem execWaitPacketComplete_reached {bs : List Byte} (polls : s.waitAt q u = some p)
    (read : s.readSys false (s.queue q).ctx p.addr 8 = .ok bs) (reached : p.val ≤ ofBytesLE bs) :
    execWaitPacketComplete q u s = .next (s.modQueue q fun w =>
      { w with open_ := w.open_.filter fun r => r.unit != u }) := by
  unfold execWaitPacketComplete
  simp only [polls, read]
  exact if_neg (Nat.not_lt.2 reached)

/-- WAIT_POLL_FAILURE of a WAIT whose word cannot be read (R267). -/
theorem execWaitPollFailure_halts {e : Cause} (polls : s.waitAt q u = some p)
    (failed : s.readSys false (s.queue q).ctx p.addr 8 = .error e) :
    execWaitPollFailure q u s = .next (s.haltAt q u .read p.addr) := by
  unfold execWaitPollFailure
  simp only [polls, failed]

end

/-! ## The doorbell and the halt bit (R263, R267, R391) -/

/-- A queue after a write of 1 to its halt bit: it halts at its head, unless it has halted before (R267). -/
def Queue.halted (w : Queue) : Queue :=
  if w.halt then w else { w with halt := true, index := w.head.toNat % 2 ^ 32, code := 0 }

/-- A queue after a write of 0 to its halt bit: no packet of it is failed any more (R267). -/
def Queue.resumed (w : Queue) : Queue :=
  { w with halt := false, open_ := w.open_.map fun r => { r with halt := false } }

section
variable {s : State} {q : Nat}

/-- QTAIL of a queue that exists. -/
theorem execQtail_rings (v : DWord) (hq : q < 1024) :
    execQtail q v s = .next (s.setQueue q { s.queue q with tail := v }) :=
  if_pos hq

/-- QSTAT_HALT of 1, to a queue that exists. -/
theorem execQstatHalt_set (hq : q < 1024) : execQstatHalt q true s = .next (s.setQueue q (s.queue q).halted) :=
  if_neg (Nat.not_le.2 hq)

/-- QSTAT_HALT of 0, to a queue that exists: the SIGNALs among its open packets are performed again. -/
theorem execQstatHalt_clear (hq : q < 1024) :
    execQstatHalt q false s = .next (((s.queue q).open_.filter fun r => r.opc == 2).foldl
      (fun t r => t.performSignal q r) (s.setQueue q (s.queue q).resumed)) :=
  if_neg (Nat.not_le.2 hq)

/-- QSTAT_HALT of 0, to a queue without open SIGNALs. -/
theorem execQstatHalt_clear_quiet (hq : q < 1024) (quiet : ((s.queue q).open_.any fun r => r.opc == 2) = false) :
    execQstatHalt q false s = .next (s.setQueue q (s.queue q).resumed) := by
  have noSignal : ((s.queue q).open_.filter fun r => r.opc == 2) = [] :=
    List.filter_eq_nil_iff.2 (by simpa using quiet)
  rw [execQstatHalt_clear hq, noSignal]
  rfl

/-- QSTAT_HALT of 0, to a queue whose one open packet is a SIGNAL. -/
theorem execQstatHalt_clear_signal {p : Packet} (hq : q < 1024) (only : (s.queue q).open_ = [p]) (signal : p.opc = 2) :
    execQstatHalt q false s = .next ((s.setQueue q (s.queue q).resumed).performSignal q p) := by
  have one : ((s.queue q).open_.filter fun r => r.opc == 2) = [p] := by simp [only, signal]
  rw [execQstatHalt_clear hq, one]
  rfl

end

/-- Settles O46: head packets by `packetStep`, a SIGNAL's write by `performSignal`, and each other happening by its equation. -/
theorem queueHappenings : Obligations.QueueHappenings := by
  unfold Obligations.QueueHappenings
  intro s t q u opc code va bs v p o e hs
  refine ⟨?ready, fun head => ?halts, execHoistRound_booted, execWaitPacketComplete_reached,
    execWaitPollFailure_halts, execQtail_rings v, ?haltBit⟩
  case ready =>
    intro head
    refine ⟨?nop, ?launch, ?signal, ?wait, ?event⟩
    case signal =>
      rintro rfl rfl
      have starts := execPacketSignal_starts head
      have sameCtx := s.started_queue_ctx q 1 (some ((s.queue q).accessPacket 2 bs))
      exact ⟨fun written => starts.trans (congrArg _ (State.performSignal_written (by rw [sameCtx]; exact written))),
        fun failed => starts.trans (congrArg _ (State.performSignal_failed (by rw [sameCtx]; exact failed)))⟩
    all_goals
      rintro rfl
      exact packetStep_ready head
  case halts =>
    exact ⟨packetStep_halt head, packetStep_halt head, packetStep_halt head, packetStep_halt head, packetStep_halt head⟩
  case haltBit =>
    intro hq
    have halts := execQstatHalt_set (s := s) hq
    refine ⟨fun runs => halts.trans ?_, fun halted => halts.trans ?_, execQstatHalt_clear_quiet hq, ?_⟩
    · rw [Queue.halted, if_neg (by simp [runs])]
    · rw [Queue.halted, if_pos halted]
    · rintro only signal rfl
      refine (execQstatHalt_clear_signal hq only signal).trans ?_
      rw [Queue.resumed, only]
      rfl

end Sys2Proof.Machine

/-!
PROOFS of the family 15_reliability.md: errors, their rates and the promotion of ranges (O51), and POISONCLR (O53).
-/

namespace Sys2Proof

/-! ## Bytes of a cleared range (R243) -/

/-- A byte of a cleared range is blank, and every other byte is as before. -/
theorem Memory.get_clear (m : Memory) (lo n a : Nat) :
    (m.clear lo n).get a = if lo ≤ a ∧ a < lo + n then Memory.blank else m.get a := by
  induction m with
  | nil => exact (ite_self _).symm
  | cons c m ih =>
    obtain ⟨i, b⟩ := c
    unfold Memory.clear at ih ⊢
    by_cases cleared : lo ≤ i ∧ i < lo + n
    · rw [List.filter_cons_of_neg (by simp [cleared]), ih]
      by_cases same : i = a
      · rw [← same, if_pos cleared, if_pos cleared]
      · rw [Memory.get, if_neg same]
    · rw [List.filter_cons_of_pos (by simp [← Bool.decide_and, cleared]), Memory.get, Memory.get, ih]
      by_cases same : i = a
      · rw [if_pos same, if_pos same, ← same, if_neg cleared]
      · rw [if_neg same, if_neg same]

/-- A cleared line is zero, and every other byte is as before. -/
theorem Memory.get_clearLine (m : Memory) (line a : Nat) :
    (m.clear (128 * line) 128).get a = if a / 128 = line then 0#8 else m.get a := by
  have inLine : (128 * line ≤ a ∧ a < 128 * line + 128) ↔ a / 128 = line := by omega
  rw [Memory.get_clear]
  simp only [inLine, Memory.blank]

end Sys2Proof

namespace Sys2Proof.Machine

open Sys2Proof

/-! ## What counting an error leaves (R307, R319, R320) -/

/-- An error record leaves the rate window and the undervolt steps (R307). -/
theorem State.record_rates (s : State) (r : Rec) :
    (s.record r).rel.window = s.rel.window ∧ (s.record r).rel.uv = s.rel.uv := by
  unfold State.record
  dsimp only
  cases s.rel.open_ <;> cases r.ctx <;> exact ⟨rfl, rfl⟩

/-- A change of a lifetime record leaves the rate window and the undervolt steps (R319). -/
theorem State.modLife_rates (s : State) (kind inst : Nat) (f : Life → Life) :
    (s.modLife kind inst f).rel.window = s.rel.window ∧ (s.modLife kind inst f).rel.uv = s.rel.uv := by
  unfold State.modLife
  split <;> exact ⟨rfl, rfl⟩

/-- A counted error adds one to its unit's count in the rate window and leaves the undervolt steps (R320). -/
theorem State.countError_rates (s : State) (kind : BitVec 8) (inst : BitVec 16) (addr : DWord) :
    (s.countError kind inst addr).rel.window = Tab.put s.rel.window (unitKey kind.toNat inst.toNat)
        (Tab.getD s.rel.window (unitKey kind.toNat inst.toNat) 0 + 1) ∧
      (s.countError kind inst addr).rel.uv = s.rel.uv := by
  unfold State.countError
  dsimp only
  split <;> simp [State.record_rates, State.modLife_rates]

/-- The undervolt step of a unit is read from the table of undervolt steps alone (R390). -/
theorem State.unitStep_congr {s t : State} (same : t.rel.uv = s.rel.uv) (kind inst : Nat) :
    t.unitStep kind inst = s.unitStep kind inst := by
  unfold State.unitStep State.uvStep
  rw [same]

@[simp] theorem State.countError_unitStep (s : State) (kind : BitVec 8) (inst : BitVec 16) (addr : DWord) (k i : Nat) :
    (s.countError kind inst addr).unitStep k i = s.unitStep k i :=
  State.unitStep_congr (s.countError_rates kind inst addr).2 k i

/-- The counted error is the crossing where it is the first above the threshold (R320; log 38). -/
theorem State.countError_crosses (s : State) (kind : BitVec 8) (inst : BitVec 16) (addr : DWord) :
    (s.countError kind inst addr).crosses kind inst = true ↔
      Tab.getD s.rel.window (unitKey kind.toNat inst.toNat) 0 + 1 = Config.errThreshold kind + 1 := by
  unfold State.crosses
  rw [(s.countError_rates kind inst addr).1, Tab.getD_put_self, beq_iff_eq]

/-! ## Units that cross their threshold (R319 to R321) -/

section
variable {s : State} {told : List (Nat × Nat)} {kind inst step d : Nat}

theorem State.crossed_noDomain (noDomain : kindDomain kind = none) : s.crossed told kind inst step = (s, told) := by
  unfold State.crossed
  rw [noDomain]

/-- The first of its domain at this moment that crosses revokes the step, if the domain ran at one. -/
theorem State.crossed_revokes (domain : kindDomain kind = some d) (low : 0 < step)
    (first : told.contains (inst / 4096, d) = false) :
    s.crossed told kind inst step = (s.revoke kind inst d, (inst / 4096, d) :: told) := by
  unfold State.crossed
  simp only [domain, low, first, if_true, Bool.false_eq_true, if_false]

/-- A later one of its domain finds the step revoked. -/
theorem State.crossed_revoked (domain : kindDomain kind = some d) (low : 0 < step)
    (later : told.contains (inst / 4096, d) = true) : s.crossed told kind inst step = (s.revokeToo kind inst d, told) := by
  unfold State.crossed
  simp only [domain, low, later, if_true]

/-- One that crosses at step 0 lowers the ceiling. -/
theorem State.crossed_lowers (domain : kindDomain kind = some d) (high : ¬ 0 < step) :
    s.crossed told kind inst step = (s.lowerCeiling kind inst d, told) := by
  unfold State.crossed
  simp only [domain, high, if_false]

end

/-! ## Corrected errors of one moment (R305, R309, R319 to R321) -/

section
variable {s : State} {kind : BitVec 8} {inst inst2 : BitVec 16} {addr : DWord} {d : Nat}

/-- An error alone is counted, and if that is the crossing it acts at the step of the moment. -/
theorem State.correct_one : s.correct [(kind, inst, addr)] = if (s.countError kind inst addr).crosses kind inst
    then ((s.countError kind inst addr).crossed [] kind.toNat inst.toNat (s.unitStep kind.toNat inst.toNat)).1
    else s.countError kind inst addr := by
  unfold State.correct
  simp only [State.countAll, State.countError_unitStep]
  split <;> rfl

/-- A unit of no domain, or a count that is not the first above the threshold: nothing but the count. -/
theorem State.correct_counts (quiet : kindDomain kind.toNat = none ∨
    Tab.getD s.rel.window (unitKey kind.toNat inst.toNat) 0 + 1 ≠ Config.errThreshold kind + 1) :
    s.correct [(kind, inst, addr)] = s.countError kind inst addr := by
  rw [State.correct_one]
  obtain noDomain | under := quiet
  · rw [State.crossed_noDomain noDomain, ite_self]
  · exact if_neg fun crosses => under (s.countError_crosses kind inst addr |>.1 crosses)

/-- The crossing revokes the step, or lowers the ceiling of a domain at step 0. -/
theorem State.correct_crosses (domain : kindDomain kind.toNat = some d)
    (crossing : Tab.getD s.rel.window (unitKey kind.toNat inst.toNat) 0 + 1 = Config.errThreshold kind + 1) :
    s.correct [(kind, inst, addr)] = if 0 < s.unitStep kind.toNat inst.toNat
      then (s.countError kind inst addr).revoke kind.toNat inst.toNat d
      else (s.countError kind inst addr).lowerCeiling kind.toNat inst.toNat d := by
  rw [State.correct_one, if_pos (s.countError_crosses kind inst addr |>.2 crossing)]
  split
  case isTrue low => rw [State.crossed_revokes domain low rfl]
  case isFalse high => rw [State.crossed_lowers domain high]

/-- Two units of one domain cross at one moment: both are counted before the step is revoked, which is once (R319,
R320). -/
theorem State.correct_two (die : inst.toNat / 4096 = inst2.toNat / 4096) (domain : kindDomain kind.toNat = some d)
    (low : 0 < s.unitStep kind.toNat inst.toNat) (low2 : 0 < s.unitStep kind.toNat inst2.toNat)
    (crosses : (s.countError kind inst addr).crosses kind inst = true)
    (crosses2 : ((s.countError kind inst addr).countError kind inst2 addr).crosses kind inst2 = true) :
    s.correct [(kind, inst, addr), (kind, inst2, addr)] =
      (((s.countError kind inst addr).countError kind inst2 addr).revoke kind.toNat inst.toNat d).revokeToo kind.toNat
        inst2.toNat d := by
  have told : [(inst.toNat / 4096, d)].contains (inst2.toNat / 4096, d) = true := by simp [die]
  unfold State.correct
  simp only [State.countAll, State.countError_unitStep, crosses, crosses2, if_true, State.crossAll,
    State.crossed_revokes domain low List.contains_nil, State.crossed_revoked domain low2 told]

/-- An error of a unit that exists. -/
theorem execCorrectedError_one (unit : unitExists kind.toNat inst.toNat = true) :
    execCorrectedError kind inst (addr, []) s = .next (s.correct [(kind, inst, addr)]) :=
  if_pos (by simp [unit])

/-- Errors of two units that exist. -/
theorem execCorrectedError_two (unit : unitExists kind.toNat inst.toNat = true)
    (unit2 : unitExists kind.toNat inst2.toNat = true) :
    execCorrectedError kind inst (addr, [(kind, inst2, addr)]) s =
      .next (s.correct [(kind, inst, addr), (kind, inst2, addr)]) :=
  if_pos (by simp [unit, unit2])

end

/-! ## Uncorrectable errors (R305, R403) -/

/-- An error whose place belongs to its unit, which exists, leaves its mark. -/
theorem execUncorrectableError_marks {s t : State} {kind : BitVec 8} {inst : BitVec 16} {loc : ErrLoc}
    (unit : kind = 0x0E ∨ unitExists kind.toNat inst.toNat = true) (fits : locFits loc s kind.toNat inst.toNat = true)
    (marks : (s.modLife kind.toNat inst.toNat fun l => { l with ue := min (l.ue + 1) (2 ^ 64 - 1) }).markError kind.toNat
      inst.toNat loc = some t) :
    execUncorrectableError kind inst loc s = .next t := by
  have reports : (kind.toNat == 0x0E || unitExists kind.toNat inst.toNat) = true := by
    obtain rfl | exists_ := unit
    · rfl
    · rw [exists_, Bool.or_true]
  unfold execUncorrectableError
  simp only [reports, fits, Bool.and_self, Bool.not_true, Bool.false_eq_true, if_false, marks]

/-! ## Promotion (R259 to R261) -/

/-- Bytes of the page that a range becomes (R259). -/
def promotedSize (big : Bool) : Nat := if big then 0x2000000 else 0x200000

/-- The range at `va` may become the page at `target`: it and the page are aligned, its entries, `e0` the first, which
stand from `first` on, may be promoted, the context may use the frames of both, and no access uses a translation of it
(R259, R260). -/
structure Promotable (s : State) (ctx va : Nat) (big : Bool) (target first : Nat) (e0 : DWord) (es : List DWord) : Prop where
  on      : (s.ctx ctx).promote = true
  aligned : va % promotedSize big = 0
  page    : target % promotedSize big = 0
  hbm     : hbmOk target (promotedSize big) = true
  walk    : s.walkTo ctx va = .ok first
  entries : s.leaves ctx (first - 8 * leafIx va) va (promotedSize big / 65536) = some (e0 :: es)
  sources : ((e0 :: es).all fun e => sourceOk e0 e big) = true
  stack   : pteAddr e0 / 0x2000000000 = target / 0x2000000000
  old     : (((List.range (promotedSize big / 65536)).zip (e0 :: es)).all fun p => s.frameOk ctx (piecePa p.1 p.2)) = true
  new     : (((List.range (promotedSize big / 65536)).map fun i => target + 65536 * i).all fun f =>
    (s.poolOf (hbmDie target)).contains f && s.frameOk ctx f) = true
  unused  : (s.xlatInUse ctx fun a => decide (va ≤ a) && decide (a < va + promotedSize big)) = false

/-- The TLBs lose their entries of the range; where no agent interfered, it becomes one page. -/
theorem execPromoteRange_promotes {s t : State} {ctx va target first : Nat} {big : Bool} {e0 : DWord} {es : List DWord}
    (may : Promotable s ctx va big target first e0 es) (interfered : Bool)
    (purged : t = s.purgeTlb fun e => e.ctx == ctx && decide (e.va < va + promotedSize big) && decide (va < e.va + e.size)) :
    execPromoteRange ctx va big target interfered s = .next (if interfered then t
      else t.promoted ctx va big target (first - 8 * leafIx va) e0 es) := by
  obtain ⟨on, aligned, page, hbm, walk, entries, sources, stack, old, new, unused⟩ := may
  unfold promotedSize at *
  unfold execPromoteRange
  simp only [on, aligned, page, hbm, walk, entries]
  simp only [sources, stack, old, new, unused, purged, beq_self_eq_true, Bool.and_self, Bool.not_true, Bool.or_self,
    ne_eq, not_true, decide_false, Bool.false_eq_true, if_false]
  cases interfered <;> rfl

/-- Settles O51: a corrected error by `State.correct`, alone or with another, an uncorrectable one by its mark, and a
promotion by `execPromoteRange_promotes`; the other happenings are equations. -/
theorem errorHappenings : Obligations.ErrorHappenings := by
  unfold Obligations.ErrorHappenings
  intro s t u big interfered kind inst inst2 addr loc n d ctx va target size first es e0
  refine ⟨?one, ?two, execUncorrectableError_marks, rfl, rfl, rfl, ?promotion⟩
  case one =>
    rintro unit rfl rfl rfl
    have counted := execCorrectedError_one (s := s) (addr := addr) unit
    exact ⟨fun quiet => counted.trans (congrArg _ (State.correct_counts quiet)),
      fun domain crossing => counted.trans (congrArg _ (State.correct_crosses domain crossing))⟩
  case two =>
    rintro unit unit2 die domain low low2 crosses rfl crosses2
    exact (execCorrectedError_two unit unit2).trans
      (congrArg _ (State.correct_two die domain low low2 crosses crosses2))
  case promotion =>
    rintro on rfl aligned page hbm walk entries sources stack old new unused purged
    exact execPromoteRange_promotes ⟨on, aligned, page, hbm, walk, entries, sources, stack, old, new, unused⟩ interfered
      purged

/-! ## POISONCLR (R315) -/

/-- The line is zero and none of its marks is left. -/
def State.zeroLine (s : State) (line : Nat) : State :=
  { s with
    mem := s.mem.clear (128 * line) 128
    poison := s.poison.filter (· != line)
    sliceBad := Tab.del s.sliceBad line
    syncBad := s.syncBad.filter (· != line) }

/-- A context that trapped POISON on the line forgets it and has event 3 (R108, R315). -/
def State.tellCtx (s : State) (line c : Nat) : State :=
  (s.modCtx c fun k => { k with poison := k.poison.filter (· != line) }).raise c 3

/-- The record of a cleared line (R308, R315). -/
def clearRecord (line : Nat) : Rec := { Rec.of none 0x0C 0x09 (stackInst (128 * line)) with addr := 128 * line }

/-- The record of a cleared line is written, and the contexts that trapped POISON on it are told (R315). -/
def State.tellCleared (s : State) (line : Nat) : State :=
  (Tab.keysWhere s.ctxs fun _ k => k.poison.contains line).foldl (fun t c => t.tellCtx line c)
    (s.record (clearRecord line))

/-- A record that names no context leaves the contexts, and which poison the L2 slices held (R307, R402). -/
theorem State.record_noCtx (s : State) {r : Rec} (noCtx : r.ctx = none) :
    (s.record r).ctxs = s.ctxs ∧ (s.record r).sliceBad = s.sliceBad := by
  unfold State.record
  dsimp only
  generalize s.recBytes r = b
  rw [noCtx]
  cases s.rel.open_ <;> exact ⟨rfl, rfl⟩

/-- Telling a context leaves which poison the L2 slices held. -/
theorem State.tellCtx_sliceBad (s : State) (line c : Nat) : (s.tellCtx line c).sliceBad = s.sliceBad := rfl

/-- The record and the events of a clear leave which poison the L2 slices held. -/
theorem State.tellCleared_sliceBad (s : State) (line : Nat) : (s.tellCleared line).sliceBad = s.sliceBad := by
  unfold State.tellCleared
  have recorded := (s.record_noCtx (r := clearRecord line) rfl).2
  exact List.foldlRecOn (motive := fun t : State => t.sliceBad = s.sliceBad) _ _ recorded
    fun t kept c _ => (t.tellCtx_sliceBad line c).trans kept

/-- A clear zeroes the line and removes its marks before anything else. -/
theorem State.clearLine_eq (s : State) (line : Nat) : s.clearLine line = (s.zeroLine line).tellCleared line := by
  unfold State.tellCleared
  rw [← ((s.zeroLine line).record_noCtx (r := clearRecord line) rfl).1]
  rfl

/-- The form of a POISONCLR that die `die` takes (R315). -/
def poisonclrForm (die : Nat) (v : DWord) : Bool :=
  v[0] && fld v 6 1 == 0 && fld v 63 52 == 0 && hbmOk (128 * fld v 51 7) 128 && hbmDie (128 * fld v 51 7) == die

/-- A POISONCLR of the form that its die takes. -/
theorem execPoisonclr_clears {die : Nat} {v : DWord} (form : poisonclrForm die v = true) (s : State) :
    execPoisonclr die v s = .next ((s.zeroLine (fld v 51 7)).tellCleared (fld v 51 7)) := by
  unfold poisonclrForm at form
  unfold execPoisonclr
  simp only [Nat.mul_comm _ 128, form, if_true, Nat.mul_div_cancel_left _ (show 0 < 128 by decide), State.clearLine_eq]

/-- One of any other form is ignored. -/
theorem execPoisonclr_ignored {die : Nat} {v : DWord} (form : poisonclrForm die v = false) (s : State) :
    execPoisonclr die v s = .next s := by
  unfold poisonclrForm at form
  unfold execPoisonclr
  simp only [Nat.mul_comm _ 128, form, Bool.false_eq_true, if_false]

/-- What POISONCLR does (R315). -/
theorem exec_poisonclr (die : Nat) (v : DWord) (s : State) :
    (poisonclrForm die v = false → exec (.poisonclr die v) s = .next s) ∧
    (poisonclrForm die v = true →
      exec (.poisonclr die v) s = .next ((s.zeroLine (fld v 51 7)).tellCleared (fld v 51 7)) ∧
      ∀ a, (s.zeroLine (fld v 51 7)).mem.get a = if a / 128 = fld v 51 7 then 0#8 else s.mem.get a) :=
  ⟨fun other => execPoisonclr_ignored other s,
    fun form => ⟨execPoisonclr_clears form s, Memory.get_clearLine s.mem (fld v 51 7)⟩⟩

/-! ## POISONCLR of a line whose bad data an L2 slice held (R315, R402) -/

/-- After reset, an uncorrectable error in the L2 slice of INST 0, on the line 0x6000. -/
def slicePoisoned : State :=
  (State.reset.modLife 7 0 fun l => { l with ue := min (l.ue + 1) (2 ^ 64 - 1) }).poisonLine 0x6000 (some 0)
    { Rec.of none 0x05 7 0 with addr := 0x300000 }

/-- One happening leads to that state from reset. -/
theorem exec_slicePoisoned : exec (.uncorrectableError 7 0 (.line 0x300000)) State.reset = .next slicePoisoned :=
  execUncorrectableError_marks (kind := 7) (inst := 0) (loc := .line 0x300000) (.inr (by decide)) (by decide) rfl

/-- The state names the slice, with the line. -/
theorem slicePoisoned_sliceBad : slicePoisoned.sliceBad = [(0x6000, 0)] := rfl

/-- Refutes O53, in its clause on a line that is cleared: the state `s1` from which it has the record and the events keeps
the slice that held the line's bad data (`sliceBad`, R402), and the machine removes that mark with the others. In
`slicePoisoned` a POISONCLR of the line 0x6000 leaves no such entry, where the clause keeps it. With
`sliceBad := Tab.del s.sliceBad line` in `s1`, which is `State.zeroLine`, the statement is `exec_poisonclr`. -/
theorem not_poisonClear : ¬ Obligations.PoisonClear := by
  unfold Obligations.PoisonClear
  intro h
  have form : poisonclrForm 0 0x300001 = true := by decide
  obtain ⟨-, clears⟩ := h slicePoisoned _ 0 (fld 0x300001#64 51 7) 0x300001 _ rfl rfl
  obtain ⟨claimed, -⟩ := clears form rfl
  obtain ⟨-, cleared⟩ := exec_poisonclr 0 0x300001 slicePoisoned
  have same := (cleared form).1.symm.trans claimed
  injection same with same
  have marks : Tab.del slicePoisoned.sliceBad (fld 0x300001#64 51 7) = slicePoisoned.sliceBad :=
    ((State.tellCleared_sliceBad _ _).symm.trans (congrArg State.sliceBad same)).trans (State.tellCleared_sliceBad _ _)
  rw [slicePoisoned_sliceBad] at marks
  exact absurd marks (by decide)

end Sys2Proof.Machine

/-!
PROOFS of the family 16_debug_trace_profiling.md: the debug mailbox and the stall sampler (O48).
-/

namespace Sys2Proof.Machine

open Sys2Proof

/-! ## The mailbox takes up a request (R330 to R332, R347) -/

/-- The request that a header `h` announces with a body `b` (R331). -/
def MbReq.ofHeader (h b : List Byte) : MbReq :=
  { op := recField h 0 7 0, seq := recField h 0 63 32, crew := recField h 8 13 0,
    zeros := recField h 0 15 8 == 0 && recField h 8 63 14 == 0, body := b }

/-- DBGBELL where the request is the next one and its operation is in the table (R332, R333). -/
theorem execDbgbell_takesUp {s t : State} {ctx : Nat} {h b : List Byte} (hctx : ctx < 65536) (on : (s.ctx ctx).mbox ≠ 0)
    (plain : (s.ctx ctx).prot = false) (header : s.readSys false ctx (s.ctx ctx).mbox 16 = .ok h)
    (ht : t = s.passSys ctx .read (s.ctx ctx).mbox 512) (next : recField h 0 63 32 = ((s.ctx ctx).mbSeq + 1).toNat)
    (body : t.readSys false ctx ((s.ctx ctx).mbox + 16) (min (recField h 0 31 16) 496) = .ok b)
    (low : 1 ≤ recField h 0 7 0) (high : recField h 0 7 0 ≤ 10) :
    execDbgbell ctx s = .next (t.modCtx ctx fun k => { k with mbReq := some (MbReq.ofHeader h b) }) := by
  subst ht
  unfold execDbgbell
  rw [if_neg (by omega)]
  dsimp only
  rw [if_neg (by simp [on, plain])]
  simp only [header]
  rw [if_neg (not_not_intro next)]
  simp only [body]
  exact if_neg (by omega)

/-- DBGMBOX of 0 turns the mailbox off; any other value moves it and restarts its counts. -/
theorem execDbgmbox_sets {s : State} {ctx : Nat} (v : DWord) (hctx : ctx < 65536) :
    execDbgmbox ctx v s = .next (s.modCtx ctx fun k =>
      if fld v 51 12 = 0 then { k with mbox := 0, mbReq := none }
      else { k with mbox := fld v 51 12 * 4096, mbReq := none, mbSeq := 0, mbNtc := 0 }) := by
  have zero : fld v 51 12 * 4096 = 0 ↔ fld v 51 12 = 0 := by omega
  unfold execDbgmbox
  rw [if_neg (by omega)]
  simp only [zero]

/-! ## Replies (R333) -/

/-- PING is answered whatever the crew. -/
theorem execPing_replies {s : State} {ctx : Nat} {q : MbReq} (req : s.request ctx = some q) (op : q.op = 1)
    (zeros : q.zeros = true) (body : q.body = []) : execPing ctx s = .next (s.mbReply ctx q s stOk []) := by
  unfold execPing
  simp [req, op, zeros, body]

/-- A request about a debug-halted crew, with a body of the table's length and in range, is answered with the effect of its
operation. -/
theorem serve_replies {s : State} {ctx op c len : Nat} {q : MbReq} {w : Crew} {good : List Byte → Bool}
    {f : Nat → Crew → List Byte → State × Nat × List Byte} (asks : Asks s ctx q op c w) (length : q.body.length = len)
    (ok : good q.body = true) :
    serve ctx op len good s f = .next (s.mbReply ctx q (f c w q.body).1 (f c w q.body).2.1 (f c w q.body).2.2) := by
  obtain ⟨req, hop, zeros, crew, state⟩ := asks
  unfold serve
  simp [req, hop, zeros, length, ok, crew, state]

/-- The request does not wait for a notice where the crew's notice is written (R332; log 35). -/
theorem State.awaitsNotice_false {s : State} {ctx op c : Nat} {q : MbReq} {w : Crew} (asks : Asks s ctx q op c w)
    (told : w.notice = none) : s.awaitsNotice ctx = false := by
  unfold State.awaitsNotice
  simp [asks.req, asks.crew, asks.state, told]

/-- RDMEM of a range that can be read. -/
theorem execRdmem_replies {s : State} {ctx n : Nat} {q : MbReq} {b : List Byte} (req : s.request ctx = some q)
    (op : q.op = 10) (zeros : q.zeros = true) (length : q.body.length = 10)
    (hn : n = ofBytesLE ((q.body.drop 8).take 2)) (low : 1 ≤ n) (high : n ≤ 496)
    (read : s.readRange ctx (ofBytesLE (q.body.take 8)) n = .ok b) :
    execRdmem ctx s = .next (s.mbReply ctx q (s.passSys ctx .read (ofBytesLE (q.body.take 8)) n) stOk b) := by
  subst hn
  have inRange : (!q.zeros || decide (q.body.length ≠ 10) || decide (ofBytesLE ((q.body.drop 8).take 2) < 1)
      || decide (496 < ofBytesLE ((q.body.drop 8).take 2))) = false := by
    simp [zeros, length]
    omega
  unfold execRdmem
  simp only [req]
  rw [if_neg (not_not_intro op), if_neg (by simpa using inRange)]
  simp only [read]

/-! ## The names of a halted crew (R336) -/

section
variable {s : State} {c n : Nat} {w : Crew} {bd : Binding} {e : Entry}

/-- A name that the debugger sees bound is bound, its entry perhaps in another state than at the halt (R329). -/
theorem State.named_of_nameAt (hw : s.crew? c = some w) (seen : s.nameAt w n = some (bd, e)) :
    ∃ p, s.named c n = some p := by
  revert seen
  unfold State.nameAt State.named
  simp only [hw]
  cases Tab.at? w.arch.names n with
  | none => simp
  | some b =>
    cases found : Tab.at? (s.core (s.coreOf w)).vs b.entry with
    | none => simp [found]
    | some e0 => simp [found]

/-- A crew that keeps its names, home and gang keeps what its names stand for. -/
theorem State.named_setCrew {y : Crew} (hw : s.crew? c = some w) (names : y.arch.names = w.arch.names)
    (home : y.home = w.home) (gang : y.gang = w.gang) : (s.setCrew c y).named c n = s.named c n := by
  unfold State.named
  simp only [State.crew_setCrew, hw, names, State.coreOf_setCrew, State.core_setCrew, s.coreOf_congr home gang]

/-- WRNAME of a bound name replaces its lanes and its count. -/
theorem wrName_bound {b : List Byte} (seen : s.nameAt w (byteAt b 0) = some (bd, e)) (bound : e.st = .bound) :
    wrName s c w b = ((s.modCore (s.coreOf w) fun u =>
      { u with vs := Tab.put u.vs bd.entry { e with lanes := bodyLanes b 8, bad := 0 } }).modCrew c fun y =>
      { y with arch := { y.arch with names := Tab.put y.arch.names (byteAt b 0) { bd with count := byteAt b 1 } } },
      stOk, []) := by
  unfold wrName
  simp only [seen, bound]

/-- `write` of all lanes to an unbound name that can be bound (R31, R32). -/
theorem writeName_binds {count : Nat} (v : Lanes) (m : Mask) (hw : s.crew? c = some w) (clean : w.marks = [])
    (counted : count ≠ 0) (need : s.needOk c 1 = true) (room : s.canBind c n = true) :
    writeName c n count v m s = .ok () ((s.bindName c n count .bound).fillName c n (selLanes m v zeroLanes)) := by
  unfold writeName
  rw [if_pos counted]
  refine (M.bind_ok (allocNames_one count .bound n hw clean need room)).trans ?_
  have fills := putLanes_run (selLanes m v zeroLanes) (State.bindName_crew n count .bound hw) (Tab.at?_put_self _ n _)
  simp [M.bind_run, fills]

/-- WRNAME of an unbound name binds it anew. -/
theorem wrName_unbound {b : List Byte} (hw : s.crew? c = some w) (unseen : s.nameAt w (byteAt b 0) = none)
    (clean : w.marks = []) (counted : 1 ≤ byteAt b 1) (need : s.needOk c 1 = true)
    (room : s.canBind c (byteAt b 0) = true) :
    wrName s c w b =
      (s.rebound c (byteAt b 0) (byteAt b 1) (selLanes 0xFFFFFFFF (bodyLanes b 8) zeroLanes), stOk, []) := by
  have binds := writeName_binds (bodyLanes b 8) 0xFFFFFFFF hw clean (Nat.ne_of_gt counted) need room
  unfold wrName
  simp only [unseen, binds]
  rfl

/-- A crew without the mark on a name and without what is kept of the name's state at the halt (R329, R403). -/
def Crew.forgetName (y : Crew) (n : Nat) : Crew := { y.heal (.name n) with atHalt := Tab.del y.atHalt n }

/-- DROPNAME of a name that is not leased, then or now, drops it. -/
theorem dropNameReq_drops (hw : s.crew? c = some w) (seen : s.nameAt w n = some (bd, e)) (free : e.st ≠ .leased)
    (stays : ∀ p, s.named c n = some p → p.2.st ≠ .leased) :
    dropNameReq s c w n = (((s.modCrew c fun y => y.forgetName n).dropped c n).bumpSeq c, stOk, []) := by
  obtain ⟨p, hp⟩ := State.named_of_nameAt hw seen
  have forgets := s.modCrew_of c w (fun y => y.forgetName n) hw
  have usable : useItem c (.name n) (s.setCrew c (w.forgetName n)) = .ok () _ :=
    useItem_healed (w := { w with atHalt := Tab.del w.atHalt n }) _ (State.crew_setCrew s c (w.forgetName n))
  have same : (s.setCrew c (w.forgetName n)).named c n = s.named c n := State.named_setCrew hw rfl rfl rfl
  have drops : dropName c n (s.modCrew c fun y => y.forgetName n)
      = .ok () ((s.modCrew c fun y => y.forgetName n).dropped c n) := by
    rw [forgets]
    exact dropName_of (State.crew_setCrew s c (w.forgetName n)) usable (same.trans hp) (stays p hp)
  simp only [Crew.forgetName] at drops
  simp only [dropNameReq, Crew.forgetName, seen, if_neg free, drops]

end

/-! ## Requests about a halted crew (R333, R335, R336) -/

section
variable {s : State} {ctx c n k : Nat} {q : MbReq} {w : Crew} {bd : Binding} {e : Entry}

/-- RDSTATE (R335). -/
theorem execRdstate_replies (asks : Asks s ctx q 2 c w) (body : q.body = []) :
    execRdstate ctx s = .next (s.mbReply ctx q s stOk (stopBody w w.setS.code.toNat)) :=
  serve_replies asks (by simp [body]) rfl

/-- RDNAME of a bound, pending, open or leased name. -/
theorem execRdname_replies (asks : Asks s ctx q 3 c w) (length : q.body.length = 1) (code : byteAt q.body 0 < 0xC0)
    (seen : s.nameAt w (byteAt q.body 0) = some (bd, e)) :
    execRdname ctx s = .next (s.mbReply ctx q s stOk
      (bytesLE 4 (rdEntry e).1 ++ bytesLE 4 bd.count ++ laneBytes (rdEntry e).2)) := by
  unfold execRdname
  rw [serve_replies asks length (by simpa using code), seen]

/-- WRNAME of a name and a count in range has the effect `wrName`. -/
theorem execWrname_replies (asks : Asks s ctx q 4 c w) (length : q.body.length = 136) (code : byteAt q.body 0 < 0xC0)
    (low : 1 ≤ byteAt q.body 1) (high : byteAt q.body 1 ≤ 15) (zeros : zeroBytes q.body 2 6 = true) :
    execWrname ctx s = .next (s.mbReply ctx q (wrName s c w q.body).1 (wrName s c w q.body).2.1
      (wrName s c w q.body).2.2) := by
  unfold execWrname
  rw [serve_replies asks length (by simp [code, low, high, zeros])]

/-- DROPNAME of a name in range has the effect `dropNameReq`. -/
theorem execDropname_replies (asks : Asks s ctx q 5 c w) (length : q.body.length = 1) (hn : n = byteAt q.body 0)
    (code : n < 0xC0) :
    execDropname ctx s = .next (s.mbReply ctx q (dropNameReq s c w n).1 (dropNameReq s c w n).2.1
      (dropNameReq s c w n).2.2) := by
  subst hn
  unfold execDropname
  rw [serve_replies asks length (by simpa using code)]

/-- RDSCAL of scalars 0 to 62. -/
theorem execRdscal_replies (asks : Asks s ctx q 6 c w) (length : q.body.length = 2) (hn : n = byteAt q.body 0)
    (hk : k = byteAt q.body 1) (low : 1 ≤ k) (high : k ≤ 32) (within : n + k ≤ 63) :
    execRdscal ctx s = .next (s.mbReply ctx q s stOk
      ((List.range k).map fun j => bytesLE 8 (w.arch.scalar (n + j)).toNat).flatten) := by
  subst hn hk
  unfold execRdscal
  rw [serve_replies asks length (by simp [low, high, within])]

/-- WRSCAL of a scalar 0 to 62. -/
theorem execWrscal_replies (asks : Asks s ctx q 7 c w) (length : q.body.length = 16) (index : byteAt q.body 0 ≤ 62)
    (zeros : zeroBytes q.body 1 7 = true) :
    execWrscal ctx s = .next (s.mbReply ctx q (s.modCrew c fun y =>
      { y.heal (.scalar (byteAt q.body 0)) with
        arch := y.arch.setScalar (byteAt q.body 0) (BitVec.ofNat 64 (ofBytesLE ((q.body.drop 8).take 8))) }) stOk []) := by
  unfold execWrscal
  rw [serve_replies asks length (by simp [index, zeros])]

/-- WRCSR of a register that a debugger writes. -/
theorem execWrcsr_replies {g : Gang} {v : DWord} (asks : Asks s ctx q 8 c w) (length : q.body.length = 16)
    (hn : n = ofBytesLE (q.body.take 2)) (writable : mbCsr n = true) (zeros : zeroBytes q.body 2 6 = true)
    (gang : s.gang? w.gang = some g) (hv : v = BitVec.ofNat 64 (ofBytesLE ((q.body.drop 8).take 8))) :
    execWrcsr ctx s = .next (s.mbReply ctx q
      (s.csrWrite c w g n (if n = 0x058 then v &&& ~~~ 0x10000#64 else v)) stOk []) := by
  subst hn hv
  unfold execWrcsr
  rw [serve_replies asks length (by simp [writable, zeros])]
  simp only [gang]

/-- CONT of a crew whose notice is written. -/
theorem execCont_replies (asks : Asks s ctx q 9 c w) (body : q.body = []) (told : w.notice = none) :
    execCont ctx s = .next (s.mbReply ctx q (s.modCrew c fun y =>
      { y with halt := false, park := none, atHalt := [] }) stOk []) := by
  unfold execCont
  rw [if_neg (by simp [State.awaitsNotice_false asks told]), serve_replies asks (by simp [body]) rfl]

end

/-! ## The stall sampler (R337 to R342) -/

section
variable {s : State} {core c i : Nat} {w : Crew} {r : Sampler} {sl : Slot}

/-- The REASON of a crew that waits, in a clock that does not find its wait over. -/
theorem State.reason_waits {p : Park} (waits : w.park = some p) (still : s.cur ≠ some c) :
    s.reason c w = parkReason p := by
  unfold State.reason
  simp only [waits]
  exact if_neg still

/-- The REASON of a crew that waits for nothing, or whose wait the clock of the sample finds over (log 34). -/
theorem State.reason_goes (goes : w.park = none ∨ s.cur = some c) :
    s.reason c w = if s.triable w then readyReason (Config.freePick s.tick) else 15 := by
  unfold State.reason
  dsimp only
  split
  case h_1 p waits => exact if_pos (goes.resolve_left (by simp [waits]))
  case h_2 => rfl

/-- A sample of a slot that does not exist adds to EMPTY (R340). -/
theorem execSample_empty (hr : r = (s.core core).smp) (on : r.en = true) (per : r.per ≠ 0) (hi : i = r.sampled)
    (vacant : Tab.at? (s.core core).slots i = none) :
    execSample core s = .next ({ s with cur := none }.modCore core fun u =>
      { u with smp := { r with n := r.n + 1, empty := r.empty + 1 } }) := by
  subst hr hi
  have nobody : s.sampledCrew core = none := by
    unfold State.sampledCrew
    rw [vacant]
    rfl
  unfold execSample
  dsimp only
  rw [if_neg (by simpa [on] using per)]
  simp only [nobody]

/-- A sample of a crew that is observed puts its record into the ring (R341, R342). -/
theorem execSample_records {out : Memory × Sampler} (hr : r = (s.core core).smp) (on : r.en = true) (per : r.per ≠ 0)
    (hi : i = r.sampled) (slot : Tab.at? (s.core core).slots i = some sl) (crew : sl.crew = some c)
    (hw : s.crew? c = some w) (full : w.empty = false) (observed : s.observes r (s.ctxOf w) = true)
    (hout : out = ringPut s.mem { r with n := r.n + 1 }
      (sampleBytes s w i (s.reason c w) ((r.n + 1) * r.per.toNat % 2 ^ 64))) :
    execSample core s = .next ({ s with tick := s.tick + 1, mem := out.1, cur := none }.modCore core fun u =>
      { u with smp := out.2 }) := by
  subst hr hi hout
  have found : s.sampledCrew core = some (c, w) := by
    unfold State.sampledCrew
    simp [slot, crew, hw]
  unfold execSample
  dsimp only
  rw [if_neg (by simpa [on] using per)]
  simp only [found]
  rw [if_neg (by simp [full, observed])]

end

/-- Settles O48: each operation and happening by its equation; WRNAME and DROPNAME by what the name stands for, a sample by the
REASON of its crew. -/
theorem debugHappenings : Obligations.DebugHappenings := by
  unfold Obligations.DebugHappenings
  intro s t ctx c core q w g h b v bd e k n i r sl out
  refine ⟨execDbgbell_takesUp, execDbgmbox_sets v, execPing_replies, execRdstate_replies, execRdname_replies, ?wrbound,
    ?wrunbound, ?dropname, execRdscal_replies, execWrscal_replies, execWrcsr_replies, execCont_replies, execRdmem_replies,
    execSample_empty, ?record, fun hcore => if_neg (Nat.not_le.2 hcore)⟩
  case wrbound =>
    rintro asks length rfl rfl code low high zeros seen bound
    refine (execWrname_replies asks length code low high zeros).trans ?_
    rw [wrName_bound seen bound]
  case wrunbound =>
    rintro asks length rfl rfl code low high zeros unseen clean need room
    refine (execWrname_replies asks length code low high zeros).trans ?_
    rw [wrName_unbound asks.state unseen clean low need room]
  case dropname =>
    intro asks length hn code
    have replies := execDropname_replies asks length hn code
    refine ⟨fun unseen => replies.trans ?_, fun seen free stays => replies.trans ?_⟩
    · rw [dropNameReq, unseen]
    · rw [dropNameReq_drops asks.state seen free stays]
      rfl
  case record =>
    intro hr on per hi slot crew hw full observed waits goes
    have reason : k = s.reason c w := by
      by_cases go : w.park = none ∨ s.cur = some c
      · exact (goes go).trans (State.reason_goes go).symm
      · obtain ⟨parked, still⟩ := not_or.1 go
        obtain ⟨p, hp⟩ := Option.ne_none_iff_exists'.1 parked
        exact (waits p hp still).trans (State.reason_waits hp still).symm
    subst reason
    exact execSample_records hr on per hi slot crew hw full observed

end Sys2Proof.Machine

/-!
PROOFS of the family 18_security_boot_firmware.md: the values at reset (O58), and the commands of the security block (O49).
-/

namespace Sys2Proof.Machine

open Sys2Proof

/-! ## Values at reset (R263, R306, R355, R373, R376, R383, R384, R390, R395) -/

/-- No queue is listed at reset, so each has its reset value. -/
@[simp] theorem State.reset_queue (q : Nat) : State.reset.queue q = Queue.reset := rfl

/-- No context is listed at reset, so each has its reset value. -/
@[simp] theorem State.reset_ctx (c : Nat) : State.reset.ctx c = Ctx.reset := rfl

/-- Settles O58: nothing is listed, and each register has the value that its part has at reset. -/
theorem resetState : Obligations.ResetState := by
  unfold Obligations.ResetState
  refine ⟨rfl, rfl, rfl, State.reset_queue, State.reset_ctx, ?queue, ?ctx, ?arbiter, ?errors, ?links⟩
  all_goals decide

/-! ## Fields of a register -/

/-- The bits of a register from `lo` on, as the model reads them and as a part of its word. -/
theorem ofNat_fld (v : DWord) {hi lo w : Nat} (width : hi + 1 - lo = w) :
    BitVec.ofNat w (fld v hi lo) = v.extractLsb' lo w := by
  subst width
  apply BitVec.eq_of_toNat_eq
  simp [fld]

/-! ## Key commands (R359, R360) -/

section
variable {s : State} {slot : BitVec 7}

theorem execGen_refused (refused : s.fillRefused slot.toNat = true) : execGen slot s = .next (s.keyStatus slot 2) :=
  if_pos refused

/-- GEN fills its slot with a random key. -/
theorem execGen_fills (fillable : s.fillRefused slot.toNat = false) :
    execGen slot s = .next (({ s with tick := s.tick + 1 }.fillSlot slot.toNat
      (bytesLE 64 (Config.freeKey s.tick).toNat) true).keyStatus slot 0) :=
  if_neg (by simp [fillable])

theorem execLoad_refused (refused : s.fillRefused slot.toNat = true) :
    execLoad slot s = .next (s.keyStatus slot 2) :=
  if_pos (by simp [refused])

/-- LOAD fills its slot with the bytes of KEYDATA, which are then cleared. -/
theorem execLoad_fills {t : State} (fillable : s.fillRefused slot.toNat = false)
    (unheld : (s.ctxs.any fun p => p.2.prot && p.2.keyslot == slot) = false)
    (filled : t = (s.fillSlot slot.toNat s.sec.keyData false).keyStatus slot 0) :
    execLoad slot s = .next { t with sec := { t.sec with keyData := List.replicate 64 0#8 } } := by
  subst filled
  exact if_neg (by simp only [fillable, unheld, Bool.or_false, Bool.false_eq_true, not_false_eq_true])

/-- ZERO is done at once, or is busy until KZERO_COMPLETE. -/
theorem execZero_eq : execZero slot s = .next (if s.zeroDone slot.toNat then (s.markZeroised slot.toNat).keyStatus slot 0
    else (s.beginZero slot.toNat).keyStatus slot 1) :=
  (apply_ite _ _ _ _).symm

end

/-! ## The firmware hand-over (R354, R357) -/

/-- What STAGE makes of the result of the verification: the CODE of the test that fails, or an image that is staged. -/
def State.stageResult (s : State) : Except Nat Accepted → State
  | .error e => s.fwResult (BitVec.ofNat 8 e)
  | .ok d => { s with
    sec := { s.sec with
      fwErr := 0
      hstage := BitVec.ofNat 2 d.stage
      smeas := measure d.digest
      staged := d.ver
      fwState := 1 } }

section
variable {s : State}

/-- STAGE of an image that can be read, with a header that is well formed, verifies it. -/
theorem execStage_verifies {h body : List Byte} (booted : s.sec.boot = 3) (unstaged : s.sec.fwState ≠ 1)
    (header : s.readFree s.sec.fwimg 4096 = some h) (formed : headerOk h [2, 3] = true)
    (rest : s.readFree (s.sec.fwimg + 4096) (imgField h 16 8) = some body) :
    execStage s = .next (s.stageResult (verifyImage h body [2, 3] s.sec.rootdig s.sec.minsvn)) := by
  unfold execStage
  dsimp only
  rw [if_neg (not_not_intro booted), if_neg unstaged]
  simp only [header, formed, rest, Bool.not_true, Bool.false_eq_true, if_false]
  cases verifyImage h body [2, 3] s.sec.rootdig s.sec.minsvn <;> rfl

/-- STAGE is refused where an image is staged. -/
theorem execStage_refused (booted : s.sec.boot = 3) (staged : s.sec.fwState = 1) :
    execStage s = .next (s.fwResult 8) := by
  unfold execStage
  dsimp only
  rw [if_neg (not_not_intro booted), if_pos staged]

theorem execCommit_refused (unstaged : s.sec.fwState ≠ 1) : execCommit s = .next (s.fwResult 8) :=
  if_pos unstaged

theorem execAbort_refused (unstaged : s.sec.fwState ≠ 1) : execAbort s = .next (s.fwResult 8) :=
  if_pos unstaged

/-- The staged image takes charge: its measurement and its version are those of its stage. -/
def Sec.takeCharge (k : Sec) : Sec :=
  { k with
    meas := k.meas.setIfInBounds k.hstage.toNat k.smeas
    run2 := if k.hstage = 2 then k.staged else k.run2
    run3 := if k.hstage = 3 then k.staged else k.run3 }

theorem execCommit_takesCharge (staged : s.sec.fwState = 1) :
    execCommit s = .next { s with sec := s.sec.takeCharge.unstage 2 } :=
  if_neg (not_not_intro staged)

theorem execAbort_unstages (staged : s.sec.fwState = 1) : execAbort s = .next { s with sec := s.sec.unstage 0 } :=
  if_neg (not_not_intro staged)

end

/-! ## Attestation and the version fuse (R354, R358, R362, R363) -/

section
variable {s : State} {v : DWord}

/-- ATTCTL without GO stores ADDR alone. -/
theorem execAttctlGo_stores (go : v[0] = false) :
    execAttctlGo v s = .next { s with sec := { s.sec with attAddr := fld v 51 12 * 4096 } } :=
  if_pos (by simp [go])

/-- A report can be written at an address: the device has it, and its frame is FREE. -/
def State.reportable (s : State) (a : Nat) : Bool := hbmOk a 2048 && (s.ownerOf (.frame (a / 65536))).isNone

theorem State.not_reportable (s : State) (a : Nat) :
    (!s.reportable a) = (!hbmOk a 2048 || (s.ownerOf (.frame (a / 65536))).isSome) := by
  rw [State.reportable, Bool.not_and, Option.not_isNone]

/-- The report is written where it can be, and then DONE is set. -/
def State.attest (t : State) (a : Nat) : State :=
  if t.reportable a then
    { t.writeKey 0 a t.report with
      tick := (t.writeKey 0 a t.report).tick + 1
      sec := { (t.writeKey 0 a t.report).sec with attDone := true } }
  else t

theorem execAttctlGo_attests (go : v[0] = true) :
    execAttctlGo v s = .next ({ s with
      sec := { s.sec with
        attAddr := fld v 51 12 * 4096
        attDone := false } }.attest (fld v 51 12 * 4096)) := by
  unfold execAttctlGo State.attest
  dsimp only
  rw [if_neg (by simp [go]), ← State.not_reportable]
  change _ = Host.Outcome.next (if s.reportable (fld v 51 12 * 4096) then _ else _)
  cases s.reportable (fld v 51 12 * 4096) <;> rfl

/-- Either no signature of a digest verifies under the identity key, or the one that the security block makes does. -/
theorem State.signature_sound (s : State) (d : List Byte) :
    (∀ g, Falcon.verify identityKey g d = false) ∨ Falcon.verify identityKey (s.signature d) d = true := by
  by_cases signed : ∃ g, Falcon.verify identityKey g d = true
  · obtain ⟨g, verifies⟩ := signed
    exact .inr (s.signature_verifies verifies)
  · exact .inl (by simpa using signed)

end

/-! ## Assignment lists (R361, R365) -/

/-- CTX of CTXASG. -/
theorem ctxasg_ctx (v : DWord) : BitVec.ofNat 16 (fld v 63 48) = v.extractLsb' 48 16 := ofNat_fld v rfl

/-- COUNT of CTXASG. -/
theorem ctxasg_count (v : DWord) : BitVec.ofNat 13 (fld v 44 32) = v.extractLsb' 32 13 := ofNat_fld v rfl

/-- CTXASG holds the context and the number of entries that were written. -/
def State.asgAsked (s : State) (v : DWord) : State :=
  { s with
    sec := { s.sec with
      asgCtx := v.extractLsb' 48 16
      asgCount := v.extractLsb' 32 13 } }

/-- The command ends with a result. -/
def State.asgResult (s : State) (r : BitVec 2) : State := { s with sec := { s.sec with asgRes := r } }

/-- Resources become those of a context. -/
def State.assign (s : State) (c : Nat) (rs : List Res) : State :=
  { s with sec := { s.sec with owned := s.sec.owned ++ rs.map fun r => ⟨r, some c⟩ } }

section
variable {s : State} {v : DWord}

theorem execCtxasgGo_stores (go : v[0] = false) : execCtxasgGo v s = .next (s.asgAsked v) := by
  unfold execCtxasgGo State.asgAsked
  dsimp only
  rw [if_pos (by simp [go]), ctxasg_ctx, ctxasg_count]

/-- A list is refused while a scrub runs. -/
theorem execCtxasgGo_scrubbing (go : v[0] = true) (scrubbing : s.sec.scrub.state = 1) :
    execCtxasgGo v s = .next ((s.asgAsked v).asgResult 3) := by
  unfold execCtxasgGo State.asgAsked State.asgResult
  dsimp only
  rw [if_neg (by simp [go]), if_pos scrubbing, ctxasg_ctx, ctxasg_count]

/-- A list that can be read and is well formed, of FREE resources for a protected context, is assigned whole. -/
theorem execCtxasgGo_assigns {es : List AsgEntry} {c n : Nat} (go : v[0] = true) (quiet : s.sec.scrub.state ≠ 1)
    (hc : c = fld v 63 48) (hn : n = fld v 44 32) (low : 1 ≤ n) (high : n ≤ 4096)
    (readable : (s.readFree s.sec.asgAddr (16 * n)).isSome = true) (prot : (s.ctx c).prot = true)
    (hes : es = (List.range n).map fun i => asgEntry (s.mem.read (s.sec.asgAddr + 16 * i) 16)) (formed : asgOk es = true)
    (free : ((es.map AsgEntry.resources).flatten.any fun r => (s.ownerOf r).isSome) = false) :
    execCtxasgGo v s = .next (((s.asgAsked v).assign c (es.map AsgEntry.resources).flatten).asgResult 0) := by
  subst hc hn hes
  obtain ⟨bs, read⟩ := Option.isSome_iff_exists.1 readable
  have listed : ¬ (fld v 44 32 < 1 ∨ 4096 < fld v 44 32 ∨
      ((s.readFree s.sec.asgAddr (16 * fld v 44 32)).isNone || !(s.ctx (fld v 63 48)).prot) = true) := by
    simp [read, prot]
    omega
  unfold execCtxasgGo
  dsimp only
  rw [if_neg (by simp [go]), if_neg quiet, if_neg listed]
  simp only [formed, free, ctxasg_ctx, ctxasg_count, Bool.not_true, Bool.false_eq_true, if_false]
  rfl

end

/-- Settles O49: each command by its equation. -/
theorem securityCommands : Obligations.SecurityCommands := by
  unfold Obligations.SecurityCommands
  intro s t slot v h body es c n
  refine ⟨fun refused => ⟨execGen_refused refused, execLoad_refused refused⟩,
    fun fillable => ⟨execGen_fills fillable, execLoad_fills fillable⟩, execZero_eq, ?stage, execStage_refused,
    fun unstaged => ⟨execCommit_refused unstaged, execAbort_refused unstaged⟩,
    fun staged => ⟨execCommit_takesCharge staged, execAbort_unstages staged⟩, execAttctlGo_stores, ?attest, rfl,
    execCtxasgGo_stores, execCtxasgGo_scrubbing, execCtxasgGo_assigns⟩
  case stage =>
    intro booted unstaged header formed rest
    refine (execStage_verifies booted unstaged header formed rest).trans ?_
    cases verifyImage h body [2, 3] s.sec.rootdig s.sec.minsvn <;> rfl
  case attest =>
    rintro go rfl
    exact ⟨execAttctlGo_attests go, State.signature_sound _ _⟩

end Sys2Proof.Machine

/-!
PROOFS of the family 20_clock_ratio_arbiter.md: the power table, the power cap, temperatures, grants and undervolt steps (O50).
-/

namespace Sys2Proof.Machine

open Sys2Proof

/-! ## The power table (R376, R377) -/

/-- The arbiter takes the table at an address: the device has the address, its frame is FREE, no line of it is poisoned
(log 27), and the table is well formed. -/
def State.tableTaken (s : State) (a : Nat) : Bool :=
  hbmOk a 2048 && s.frameFree a && !s.badLines a 2048 && tableOk (s.mem.read a 2048)

section
variable {s : State} {v : DWord} {temp : Nat}

/-- ARBTAB without LOAD stores ADDR alone. -/
theorem execArbtabLoad_stores (booted : s.sec.boot = 3) (load : v[0] = false) :
    execArbtabLoad (v, temp) s = .next { s with arb := { s.arb with tabAddr := fld v 51 11 * 2048 } } := by
  unfold execArbtabLoad
  dsimp only
  rw [if_neg (not_not_intro booted), if_pos (by simp [load])]

/-- LOAD of a table that is taken copies it, reads the sensors and evaluates. -/
theorem execArbtabLoad_takes (booted : s.sec.boot = 3) (load : v[0] = true)
    (taken : s.tableTaken (fld v 51 11 * 2048) = true) :
    execArbtabLoad (v, temp) s = .next ({ s with
      arb := { s.arb with
        tabAddr := fld v 51 11 * 2048
        table := some (s.mem.read (fld v 51 11 * 2048) 2048)
        tabErr := false
        temp := BitVec.ofNat 8 (min temp 255)
        band := riseBand (s.mem.read (fld v 51 11 * 2048) 2048) (min temp 255) } }.evaluate 7 true) := by
  unfold execArbtabLoad
  dsimp only
  rw [if_neg (not_not_intro booted), if_neg (by simp [load])]
  exact if_pos taken

/-- LOAD of any other table leaves the one in force and sets ERR. -/
theorem execArbtabLoad_refuses (booted : s.sec.boot = 3) (load : v[0] = true)
    (refused : s.tableTaken (fld v 51 11 * 2048) = false) :
    execArbtabLoad (v, temp) s = .next { s with
      arb := { s.arb with
        tabAddr := fld v 51 11 * 2048
        tabErr := true } } := by
  unfold execArbtabLoad
  dsimp only
  rw [if_neg (not_not_intro booted), if_neg (by simp [load])]
  exact if_neg (by simpa [State.tableTaken] using refused)

end

/-! ## The power cap (R383) -/

section
variable {s : State} {v : DWord}

/-- A cap out of range, or the cap in force, is ignored. -/
theorem execPwrcap_ignored (same : fld v 11 0 < 900 ∨ 2600 < fld v 11 0 ∨ fld v 11 0 = s.arb.cap.toNat) :
    execPwrcap v s = .next s :=
  if_pos same

/-- Any other cap raises event 2 and evaluates, at once where it is lower. -/
theorem execPwrcap_changes (low : 900 ≤ fld v 11 0) (high : fld v 11 0 ≤ 2600)
    (changed : fld v 11 0 ≠ s.arb.cap.toNat) :
    execPwrcap v s = .next (({ s with arb := { s.arb with cap := BitVec.ofNat 12 (fld v 11 0) } }.raiseAll 2).evaluate 3
      (decide (fld v 11 0 < s.arb.cap.toNat))) :=
  if_neg (by omega)

end

/-! ## Grants (R379 to R382, R398) -/

section
variable {s : State} {d : GrantDue}

/-- A grant change that does not wait for a placement starts to move, with cause 4 at the thermal limit. -/
theorem State.evaluate_moves {tab : List Byte} {k : Nat} (table : s.arb.table = some tab) (still : s.arb.move = none)
    (change : (s.found tab).same s.arb.grant = false) :
    s.evaluate k true = { s with
      arb := { s.arb with
        pend := none
        move := some { grant := s.found tab, cause := BitVec.ofNat 4 (if s.arb.hot then 4 else k) } } } := by
  unfold State.evaluate
  simp only [table, still, change, Option.isSome_none, Bool.false_eq_true, if_false, if_true]

/-- A pending grant that no placement takes starts to move. -/
theorem execGrantDeferTimeout_moves (pending : s.arb.pend = some d) :
    execGrantDeferTimeout s = .next { s with arb := { s.arb with pend := none, move := some d } } := by
  unfold execGrantDeferTimeout
  rw [pending]

/-- A grant that has moved takes effect, and the causes gathered meanwhile are evaluated. -/
theorem execGrantMoveComplete_applies (moving : s.arb.move = some d) :
    execGrantMoveComplete s = .next ({ s with arb := { s.arb with move := none } }.applyGrant d).gathered := by
  unfold execGrantMoveComplete
  rw [moving]

end

/-! ## Temperatures (R377, R384, R398) -/

section
variable {s : State} {temp : Nat}

/-- Before the first table a reading is stored alone. -/
theorem execTemperatureSample_stores (untabled : s.arb.table = none) (inRange : temp ≤ 255) :
    execTemperatureSample temp s = .next { s with arb := { s.arb with temp := BitVec.ofNat 8 temp } } := by
  unfold execTemperatureSample
  simp only [untabled, Nat.min_eq_left inRange]

/-- With a table, a reading moves the band, and evaluates where the band or the thermal limit changes. -/
theorem execTemperatureSample_evaluates {t : State} {tab : List Byte} (table : s.arb.table = some tab)
    (inRange : temp ≤ 255)
    (read : t = { s with
      arb := { s.arb with
        temp := BitVec.ofNat 8 temp
        band := nextBand tab s.arb.band temp } }) :
    execTemperatureSample temp s = .next (if t.arb.band = s.arb.band ∧ s.arb.hot = t.arb.hot then t
      else t.evaluate 4 (decide (s.arb.band < t.arb.band) || (t.arb.hot && !s.arb.hot))) := by
  subst read
  unfold execTemperatureSample
  simp only [table, Nat.min_eq_left inRange]
  exact (apply_ite _ _ _ _).symm

end

/-! ## Undervolt steps (R320, R390) -/

section
variable {s : State} {die dom : Nat}

/-- STEP of a voltage domain that exists is written, unless it is revoked (log 39). -/
theorem execUvstepStep_writes (n : BitVec 3) (exists_ : uvExists die dom = true) :
    execUvstepStep die dom n s = .next (if (s.uv die dom).rev then s
      else (s.setUv die dom { s.uv die dom with step := n }).afterStep s) := by
  unfold execUvstepStep
  dsimp only
  rw [if_neg (by simp [exists_])]
  exact (apply_ite _ _ _ _).symm

/-- REV of a voltage domain that exists re-enables its step. -/
theorem execUvstepRev_enables (exists_ : uvExists die dom = true) :
    execUvstepRev die dom s = .next ((s.setUv die dom { s.uv die dom with rev := false }).afterStep s) :=
  if_neg (by simp [exists_])

end

/-- Settles O50: a load by whether the arbiter takes its table, and each other happening by its equation. -/
theorem arbiterHappenings : Obligations.ArbiterHappenings := by
  unfold Obligations.ArbiterHappenings
  intro s t v tab d k dom temp n m
  refine ⟨execArbtabLoad_stores, ?load, execPwrcap_ignored, execPwrcap_changes, State.evaluate_moves,
    execGrantDeferTimeout_moves, execGrantMoveComplete_applies, execTemperatureSample_stores,
    execTemperatureSample_evaluates, ?step⟩
  case load =>
    rintro booted load rfl
    refine ⟨fun hbm free clean formed => execArbtabLoad_takes booted load ?_,
      fun fails => execArbtabLoad_refuses booted load ?_⟩
    · simp [State.tableTaken, hbm, free, clean, formed]
    · obtain hbm | frame | bad | malformed := fails <;> simp [State.tableTaken, *]
  case step =>
    rintro exists_ rfl
    exact ⟨execUvstepStep_writes n exists_, execUvstepRev_enables exists_⟩

end Sys2Proof.Machine

/-!
PROOFS of the family 21_host_peers_package.md: requests from outside the device, links, storage, registers and a reset (O52).
-/

namespace Sys2Proof.Machine

open Sys2Proof

/-! ## Requests of the host (R387, R391, R392) -/

/-- What an atomic of the host does to the `n` bytes at `pa` (R171, R387). -/
def State.hostAtom (s : State) (pa n : Nat) (op : HostAtom) : State :=
  let t := s.outerCanary pa 0x0B (instOf 4 0) (some 1)
  let ty : Ty := if n = 4 then .n32 else .n64
  match op with
  | .fetchAdd b => t.outerAtom 0 pa 0 ty b.toNat 0
  | .swap b => t.outerAtom 0 pa 6 ty b.toNat 0
  | .cas b d => t.outerAtom 0 pa 7 ty b.toNat d.toNat

section
variable {s : State}

/-- A request over the link is performed where the host may reach its bytes, and aborted elsewhere. -/
theorem State.hostReq_up (pa n : Nat) (f : State) (up : s.net.host = true) :
    s.hostReq pa n f = .next (if s.outerOk pa n then f else s.answerReq .abort) := by
  unfold State.hostReq
  rw [if_neg (by simp [up])]
  exact (apply_ite _ _ _ _).symm

/-- The sizes that an atomic of the host may have, and its alignment (R387). -/
theorem hostAtomic_malformed_iff (pa n : Nat) :
    (!(n == 4 || n == 8) || pa % n ≠ 0) = true ↔ ¬ ((n = 4 ∨ n = 8) ∧ pa % n = 0) := by
  rw [Decidable.not_and_iff_not_or_not, Bool.or_eq_true, decide_eq_true_eq, Bool.not_eq_true', ← Bool.not_eq_true,
    Bool.or_eq_true, beq_iff_eq, beq_iff_eq]

/-- An atomic of another size, or misaligned, is answered Unsupported Request (log 74). -/
theorem execHostAtomic_unsupported {pa n : Nat} (op : HostAtom) (up : s.net.host = true)
    (malformed : ¬ ((n = 4 ∨ n = 8) ∧ pa % n = 0)) :
    execHostAtomic pa n op s = .next (s.answerReq .unsupported) := by
  unfold execHostAtomic
  rw [if_pos ((hostAtomic_malformed_iff pa n).2 malformed), if_pos up]

/-- Any other atomic is a request of the host. -/
theorem execHostAtomic_performs {pa n : Nat} (op : HostAtom) (up : s.net.host = true) (size : n = 4 ∨ n = 8)
    (aligned : pa % n = 0) :
    execHostAtomic pa n op s = .next (if s.outerOk pa n then s.hostAtom pa n op else s.answerReq .abort) := by
  unfold execHostAtomic
  rw [if_neg (fun h => (hostAtomic_malformed_iff pa n).1 h ⟨size, aligned⟩)]
  refine (State.hostReq_up pa n _ up).trans ?_
  cases op <;> rfl

/-- The host link goes down. -/
theorem execHostLinkDown_drops (up : s.net.host = true) :
    execHostLinkDown s = .next { s with net := { s.net with host := false } } :=
  if_pos up

end

/-! ## Registers (R306, R357, R388) -/

section
variable {s : State} {off size : Nat} {v : DWord}

/-- A write within BAR0 over the link. -/
theorem execRegisterWrite_within (v : DWord) (up : s.net.host = true) (within : off < 0x4000000) :
    execRegisterWrite off size v s = if !barOk off size then .next (s.answerReq .unsupported)
      else writeBar (barOf (off / 8 * 8)) (regWrite s off size v) s :=
  if_neg (by simp [up, within])

theorem execRegisterWrite_unsupported (up : s.net.host = true) (within : off < 0x4000000)
    (malformed : barOk off size = false) :
    execRegisterWrite off size v s = .next (s.answerReq .unsupported) := by
  rw [execRegisterWrite_within v up within, if_pos (by simp [malformed])]

/-- A write where no register stands is ignored. -/
theorem execRegisterWrite_unlisted (up : s.net.host = true) (within : off < 0x4000000) (formed : barOk off size = true)
    (unlisted : barOf (off / 8 * 8) = .none) :
    execRegisterWrite off size v s = .next s := by
  rw [execRegisterWrite_within v up within, if_neg (by simp [formed]), unlisted]
  rfl

/-- A write of 8 bytes to register `i` of the device block. -/
theorem execRegisterWrite_device {i : Nat} (v : DWord) (up : s.net.host = true) (listed : i < 32) :
    execRegisterWrite (8 * i) 8 v s = writeDeviceReg i ⟨v, true, true⟩ s := by
  have formed : barOk (8 * i) 8 = true := by simp [barOk]
  have place : barOf (8 * i / 8 * 8) = .device (8 * i) := by
    rw [Nat.mul_div_cancel_left i (by decide), Nat.mul_comm, barOf, if_pos (by omega)]
  rw [execRegisterWrite_within v up (by omega), if_neg (by simp [formed]), place]
  unfold writeBar writeDevice
  dsimp only
  rw [if_pos (by omega), Nat.mul_div_cancel_left i (by decide)]
  rfl

end

/-! ## Requests of peers (R395, R396) -/

/-- What a request of a peer over link `l` does (R396). -/
def State.peerDoes (s : State) (l pa : Nat) : PeerReq → State
  | .read n => (s.outerCanary pa 0x0D (instOf 4 l) (some 3)).outerRead s.peerKey pa n
  | .write bs => (s.outerCanary pa 0x0D (instOf 4 l) none).outerWrite s.peerKey pa bs
  | .atom op ty b => (s.outerCanary pa 0x0D (instOf 4 l) (some 3)).outerAtom s.peerKey pa op.toNat ty b.toNat 0
  | .cas ty cmp new => (s.outerCanary pa 0x0D (instOf 4 l) (some 3)).outerAtom s.peerKey pa 7 ty cmp.toNat new.toNat

/-- A device that has a fabric number performs a request of a peer where peers may reach its bytes, and aborts it
elsewhere. -/
theorem execPeerRequest_numbered {s : State} (l pa : Nat) (req : PeerReq) (numbered : s.net.id.toNat < 1016) :
    execPeerRequest l pa req s = .next (if s.outerOk pa (peerBytes req) then s.peerDoes l pa req
      else s.answerReq .abort) := by
  unfold execPeerRequest
  rw [if_neg (Nat.not_le.2 numbered)]
  cases s.outerOk pa (peerBytes req)
  case false => rfl
  case true => cases req <;> rfl

/-! ## Links (R395, R397) -/

/-- One request outstanding on a link that goes down meets R392 (log 40). -/
def State.loseRequest (t : State) (q : Nat × Nat × Mask) : State :=
  match t.access? q.1 q.2.1 with
  | some (x, a) => match t.loseLanes q.1 x a q.2.2 with
    | .next u => u
    | _ => t
  | none => t

/-- The requests outstanding on link `l`: those of crews, and those of the engine commands `lost` (log 40). -/
def State.loseLink (s : State) (l : Nat) (lost : List Nat) : State :=
  (s.outstandingOn l).foldl State.loseRequest (lost.foldl (fun t k => t.loseCmd l k) s)

section
variable {s : State} {l : Nat} {k : Link}

theorem execLinkDown_drops {lost : List Nat} (hk : k = Tab.getD s.net.links l Link.reset) (up : k.up = true) :
    execLinkDown (l, lost) s = .next { s.loseLink l lost with
      net := { (s.loseLink l lost).net with
        links := Tab.put (s.loseLink l lost).net.links l
          { k with up := false, downs := if k.downs = 255 then 255 else k.downs + 1 } } } := by
  subst hk
  exact if_neg (by simp [up])

theorem execLinkTrained_usable (peer : BitVec 16) (hk : k = Tab.getD s.net.links l Link.reset) (down : k.up = false)
    (listed : l < 18) :
    execLinkTrained l peer s = .next { s with
      net := { s.net with links := Tab.put s.net.links l { k with peer := peer, up := true } } } := by
  subst hk
  exact if_neg (by simp [down, listed])

end

/-! ## Storage (R393, R394) -/

section
variable {s : State} {port pair pa key : Nat}

theorem execStorageDoorbell_rings (v : DWord) (hport : port < 4) (low : 1 ≤ pair) (high : pair ≤ 64) :
    execStorageDoorbell port pair v s = .next { s with
      store := { s.store with
        pairs := Tab.put s.store.pairs (128 * port + pair)
          { s.pair port pair with sq := v.extractLsb' 48 16, cq := v.extractLsb' 32 16 } } } :=
  if_neg (by omega)

/-- A transfer within one frame is not aborted for its place (log 71). -/
theorem storageDma_within {n : Nat} (hbm : hbmOk pa n = true) (nonempty : n ≠ 0) (within : pa % 65536 + n ≤ 65536) :
    ¬ (!hbmOk pa n || decide (n = 0) || decide (65536 < pa % 65536 + n)) = true := by
  simp [hbm, nonempty, within]

theorem execStorageDma_writes {bs : List Byte} (hbm : hbmOk pa bs.length = true) (nonempty : bs ≠ [])
    (within : pa % 65536 + bs.length ≤ 65536) (slot : s.frameKey pa = some key) :
    execStorageDma port pa (.write bs) s =
      .next ((s.outerCanary pa 0x0C (instOf 4 port) none).outerWrite key pa bs) := by
  unfold execStorageDma
  dsimp only
  rw [if_neg (storageDma_within hbm (by simpa using nonempty) within), slot]

theorem execStorageDma_reads {n : Nat} (hbm : hbmOk pa n = true) (nonempty : n ≠ 0) (within : pa % 65536 + n ≤ 65536)
    (slot : s.frameKey pa = some key) :
    execStorageDma port pa (.read n) s =
      .next ((s.outerCanary pa 0x0C (instOf 4 port) (some 2)).outerRead key pa n) := by
  unfold execStorageDma
  dsimp only
  rw [if_neg (storageDma_within hbm nonempty within), slot]

end

/-- Settles O52: requests by `State.hostReq_up` and `execPeerRequest_numbered`, writes by the register that they reach, and
each other happening by its equation. -/
theorem hostHappenings : Obligations.HostHappenings := by
  unfold Obligations.HostHappenings
  intro s t pa n l port pair off size bs op peer v k d e key lost ports ctxs n4 ty a b
  refine ⟨fun up => ?host, fun numbered => ?peers, fun hk => ⟨?down, execLinkTrained_usable peer hk⟩, ?doorbell,
    execStorageDma_writes, execStorageDma_reads, ?reset⟩
  case host =>
    refine ⟨State.hostReq_up pa n _ up, State.hostReq_up pa bs.length _ up, execHostAtomic_unsupported op up,
      fun size aligned => (execHostAtomic_performs op up size aligned).trans ?atomic, execHostLinkDown_drops up,
      execRegisterWrite_unsupported up, execRegisterWrite_unlisted up, ?errbase, ?fwimg⟩
    case atomic => cases op <;> rfl
    case errbase => exact execRegisterWrite_device (i := 15) v up (by decide)
    case fwimg => exact execRegisterWrite_device (i := 2) v up (by decide)
  case peers =>
    exact ⟨execPeerRequest_numbered l pa _ numbered, execPeerRequest_numbered l pa _ numbered,
      execPeerRequest_numbered l pa _ numbered, execPeerRequest_numbered l pa _ numbered⟩
  case down =>
    rintro up rfl rfl
    exact execLinkDown_drops hk up
  case doorbell =>
    rintro hport low high rfl
    exact execStorageDoorbell_rings v hport low high
  case reset =>
    rintro rfl
    rfl

end Sys2Proof.Machine

/-!
PROOFS of the family 08_bins_engines_launch_system.md: suspension and bins (O35, O36), engine commands (O37), timelines (O38), work queues and child grids (O39, O40) and steward instructions (O41); and of 12_scheduling_and_preemption.md: gangs and grids (O44).
-/

namespace Sys2Proof.Machine

open Sys2Proof

/-! ## WAKE, BINQ, RESUME (R191 to R193) -/

/-- The bin that an instruction names is found when it begins. -/
theorem AfterReads.bin_run {s t : State} {c n : Nat} {w y : Crew} {x : Ops} {g : Gang} {b : Bin}
    (a : AfterReads s t c w y x) (hg : s.gang? w.gang = some g) (hb : Tab.at? g.bins n = some b) :
    binM c n t = .ok b t := binM_run a.crew (a.gang? hg) hb

/-- The effect of WAKE (R191). -/
theorem bodyWake_run {s : State} {c : Nat} {y : Crew} {x : Ops} {b : Bin} (hy : s.crew? c = some y)
    (found : binM c (x.sa.toNat % 32) s = .ok b s) :
    bodyWake c x s = .ok () (if b.occ = 0 then s else s.withBin y.gang (x.sa.toNat % 32) { b with ready := true }) := by
  refine (M.bind_ok found).trans ?_
  by_cases empty : b.occ = 0
  · rw [if_neg (not_not_intro empty), if_pos empty]; rfl
  · rw [if_pos empty, if_neg empty, setBin_run _ hy]

section
variable {x : Ops} {s : State} {c : Nat} {w : Crew} {g : Gang} {b : Bin}

/-- WAKE (R191). -/
theorem exec_wake (h : Issues s c w x) (hg : s.gang? w.gang = some g) (hb : Tab.at? g.bins (x.sa.toNat % 32) = some b)
    (acc : w.acc = []) :
    exec (.wake x) s = .next ((if b.occ = 0 then s.opens c w 0xC1 x
      else (s.opens c w 0xC1 x).withBin w.gang (x.sa.toNat % 32) { b with ready := true }).ended c w) := by
  have a := AfterReads.opens h 0xC1
  refine a.endsLive h (fun _ => acc) ((bodyWake_run a.crew (a.bin_run hg hb)).trans (by rw [a.gang])) ⟨_, ?_, rfl⟩
  split
  · exact a.crew
  · exact (State.modGang_crew _ _ _ c).trans a.crew

/-- BINQ (R193). -/
theorem exec_binq (k : BitVec 12) (h : Issues s c w x) (hg : s.gang? w.gang = some g)
    (hb : Tab.at? g.bins (x.sa.toNat % 32) = some b) :
    exec (.binq k x) s = .next (((s.opens c w 0xC3 x).setScalarOf c x.dst (b.header k.toNat)).ended c w) := by
  have a := AfterReads.opens h 0xC3
  exact issueStep_scalar x.dst _ h nofun a.crew (M.bind_ok (a.bin_run hg hb)) a.clean a.act

/-- RESUME of an empty bin (R192). -/
theorem exec_resume_empty (h : Issues s c w x) (hg : s.gang? w.gang = some g)
    (hb : Tab.at? g.bins (x.sa.toNat % 32) = some b) (acc : w.acc = []) (empty : b.occ = 0) :
    exec (.resume x) s = .next (((s.opens c w 0xC2 x).setScalarOf c x.dst 0).ended c w) := by
  have a := AfterReads.opens h 0xC2
  refine issueStep_scalar x.dst 0 h (fun _ => acc) a.crew ?_ a.clean a.act
  exact (M.bind_ok (crewM_run a.crew)).trans ((M.bind_ok (a.bin_run hg hb)).trans (congrFun (if_pos empty) _))

/-- RESUME of a bin with frames, where no matrix instruction of the crew still uses the bin's frame tile (R155, R192). -/
theorem exec_resume {t : State} {d : Nat} {z : Crew} (h : Issues s c w x) (hg : s.gang? w.gang = some g)
    (hb : Tab.at? g.bins (x.sa.toNat % 32) = some b) (acc : w.acc = []) (occupied : b.occ ≠ 0)
    (free : s.matrixBlocks (s.coreOf w) c b.toff (128 * b.width) true = false)
    (done : (s.opens c w 0xC2 x).resumeBin w.gang (x.sa.toNat % 32) = .done t d) (hz : t.crew? d = some z)
    (live : t.live c = true) :
    exec (.resume x) s = .next ((t.setScalarOf c x.dst (BitVec.ofNat 64 (t.crewId z))).ended c w) := by
  have a := AfterReads.opens h 0xC2
  have free' : (s.opens c w 0xC2 x).matrixBlocks ((s.opens c w 0xC2 x).coreOf (w.begun 0xC2 x)) c b.toff (128 * b.width)
      true = false := by rw [a.core]; exact free
  obtain ⟨y, hy, awake, clean⟩ := State.live_some live
  obtain ⟨v, hv, act⟩ := State.setScalarOf_some x.dst (BitVec.ofNat 64 (t.crewId z)) hy
  refine issueStep_ended h (fun _ => acc) ?_ hv (act ▸ awake)
  refine (M.bind_ok (crewM_run a.crew)).trans ((M.bind_ok (a.bin_run hg hb)).trans ?_)
  dsimp only
  rw [if_neg occupied]
  refine (M.bind_ok (getS_run _)).trans ?_
  rw [free', a.gang, done]
  refine (M.bind_ok (setS_run t _)).trans ?_
  simp only [hz]
  exact writeScalar_of x.dst _ hy clean

end

/-! ## RESUME while the array still reads the frame tile (R155, R156)

A crew hands an ALD of its whole tile to the array, then resumes a bin whose frames lie in the bytes that the ALD reads. -/

/-- A bin of one column without names, with one frame. -/
def sleeperBin : Bin :=
  { auto := false, ready := false, ovcnt := 0, occ := 1, toff := 0, width := 1, thresh := 4, spc := 0x200000,
    fdp := 0x200040, ovp := 0, rcnt := 0 }

/-- RESUME of bin 3 to scalar s5. -/
def sleeperOps : Ops := ⟨⟨false, 0, true, false, 0⟩, 0xC5, 0, 3, 0, 0, 0⟩

/-- It is a legal instruction (R192). -/
theorem sleeperOps_wellFormed : (Instr.resume sleeperOps).WellFormed := by decide

/-- A gang with the bin and 32 KiB of scratchpad. -/
def sleeperGang (g : Gang) : Gang := { g with spLen := 0x8000, bins := [(3, sleeperBin)] }

/-- The ALD, not complete yet. -/
def pendingAld : MatOp :=
  { crew := 2, gang := 1, seq := 0, pc := 0x200000, tile := 0, lanes := 0xFFFFFFFF, kind := .ald 0, early := [], did := [] }

/-- The crew that resumes, at level 2, all of its lanes active. -/
def sleeperCrew : Crew := Crew.new 1 0 (.slot 0 0) 0x200000 0xFFFFFFFF 0 0 2

/-- The machine in which it resumes; the descriptor of the bin stands at 0x200040. -/
def sleeperState : State :=
  let s := ((State.reset.withFetchWord 64 0).modGang 1 sleeperGang).modCore 0 fun k => { k with mats := [pendingAld] }
  { s with cur := some 2, mem := s.mem.write 0x200040 [0#8, 1#8, 0#8, 0#8] }.setCrew 2 sleeperCrew

theorem sleeperState_issues : Issues sleeperState 2 sleeperCrew sleeperOps :=
  ⟨rfl, State.crew_setCrew _ _ _, rfl, by decide, rfl, nofun⟩

/-- What the crew that issued waits for after an outcome. -/
def parkAfter (r : Host.Outcome State Fault Refusal) : Option Park :=
  match r with
  | .next s => (s.crew? 2).bind Crew.park
  | _ => none

/-- The machine parks the crew until the array is done. -/
theorem parkAfter_exec : parkAfter (exec (.resume sleeperOps) sleeperState) = some .matrix := by decide +kernel

/-- The machine with the crew that the resume makes, and the key of that crew. -/
def sleeperResumed : State × Nat :=
  match (sleeperState.opens 2 sleeperCrew 0xC2 sleeperOps).resumeBin 1 3 with
  | .done t d => (t, d)
  | _ => (sleeperState, 2)

/-- That crew. -/
def wokenCrew : Crew := (sleeperResumed.1.crew? sleeperResumed.2).getD sleeperCrew

theorem sleeperState_resumes :
    (sleeperState.opens 2 sleeperCrew 0xC2 sleeperOps).resumeBin 1 3 = .done sleeperResumed.1 sleeperResumed.2 ∧
      sleeperResumed.1.crew? sleeperResumed.2 = some wokenCrew ∧ sleeperResumed.1.live 2 = true := by decide +kernel

/-- Were the resume made at once, the crew would wait for nothing. -/
theorem parkAfter_resumed :
    parkAfter (.next ((sleeperResumed.1.setScalarOf 2 0xC5 (BitVec.ofNat 64 (sleeperResumed.1.crewId wokenCrew))).ended 2
      sleeperCrew)) = none := by decide +kernel

/-- Refutes O36, in its clause on RESUME of a bin with frames: it lacks the hypothesis that no matrix instruction of the crew
still has to read or write the bin's frame tile (R155), and the machine then parks the crew, as in `sleeperState`. With that
hypothesis the clause is `exec_resume`; the other clauses are `exec_wake`, `exec_binq` and `exec_resume_empty`. -/
theorem not_binOperations : ¬ Obligations.BinOperations := by
  unfold Obligations.BinOperations
  intro h
  obtain ⟨done, woken, live⟩ := sleeperState_resumes
  obtain ⟨-, -, -, resume⟩ := h 0 sleeperOps sleeperState _ sleeperResumed.1 2 3 sleeperResumed.2 sleeperCrew wokenCrew
    (sleeperGang (Gang.new 0 fixGrid 0 0 0)) sleeperBin sleeperState_issues rfl (by decide +kernel) rfl
  have claimed := congrArg parkAfter (resume rfl rfl (by decide) done woken live)
  rw [parkAfter_exec] at claimed
  cases claimed.trans parkAfter_resumed

/-! ## SUSP (R104, R189, R190) -/

/-- A readable name has an entry that is neither leased nor pending nor open, and no slot of it is bad (R30, R310). -/
theorem State.readable_named {s : State} {c n : Nat} (h : s.readable c n = true) :
    ∃ b e, s.named c n = some (b, e) ∧ e.st ≠ .leased ∧ e.st ≠ .pending ∧ e.st ≠ .opened ∧ e.bad = 0#32 := by
  unfold State.readable at h
  split at h
  · next b e hn =>
    simp only [Bool.and_eq_true, EState.bne_self_iff, beq_iff_eq] at h
    obtain ⟨⟨⟨leased, pending⟩, opened⟩, bad⟩ := h
    exact ⟨b, e, hn, leased, pending, opened, bad⟩
  · cases h

/-- The names of the crew are those of a descriptor, each readable (R190). -/
theorem State.frameFits_iff {s : State} {c : Nat} {y : Crew} {cs : List FrameCol} (hy : s.crew? c = some y) :
    s.frameFits c cs = true ↔
      ((y.arch.names.map Prod.fst).all (cs.map FrameCol.name).contains
        && cs.all fun f => (y.arch.names.map Prod.fst).contains f.name) = true ∧ ∀ f ∈ cs, s.readable c f.name = true := by
  simp only [State.frameFits, hy, Bool.and_eq_true, List.all_eq_true]

/-- SUSP of the lanes `m` once its names are read: the lanes find room in the bin, are written there, and leave (R190). -/
def suspendLanes (c n : Nat) (b : Bin) (cs : List FrameCol) (pc : Addr) (fd : Nat) (m : Mask) : M Unit :=
  if m = 0 then enterNext c
  else do
    let room := (32 - maskCount b.occ) + (if b.ovp ≠ 0 then 32 - b.ovcnt else 0)
    if room < maskCount m then park (.bin n (maskCount m))
    let isOver := maskCount m - (32 - maskCount b.occ)
    if 0 < isOver then
      let s ← getS
      let y ← crewM c
      let _ ← liftIo (writable (s.crewAgent y pc) (16 * isOver + 2) s (b.ovp + 4 * b.width * b.ovcnt) (4 * b.width * isOver))
        (.bin n 0) none
    let b' ← suspLanes c n cs (lanesOf m) b
    setBin c n { b' with spc := pc + 12, fdp := BitVec.ofNat 52 fd }.update
    leaveLanes c m

section
variable {s s1 : State} {c n : Nat} {y : Crew} {g : Gang} {b : Bin} {cs : List FrameCol}

theorem suspendLanes_run {core : Nat} {vs : Tab Entry} {pc fd : Addr} {m : Mask} (hy : s.crew? c = some y)
    (clean : y.marks = []) (hg : s.gang? y.gang = some g) (hc : s.coreOf y = core) (hv : (s.core core).vs = vs)
    (room : maskCount b.occ + maskCount m ≤ 32) {r : State × Bin}
    (hr : r = State.framed core g vs y.arch.names cs (lanesOf m) s b) :
    suspendLanes c n b cs pc fd.toNat m s = .ok () (if m = 0 then s.setCrew c (y.blockEntry y.arch.pc)
      else (r.1.withBin y.gang n ({ r.2 with spc := pc + 12, fdp := fd } : Bin).update).setCrew c (y.left m)) := by
  subst hr
  unfold suspendLanes
  by_cases none : m = 0
  · rw [if_pos none, if_pos none]
    exact enterNext_run hy
  · rw [if_neg none, if_neg none]
    obtain ⟨run, crews⟩ := suspLanes_run (n := n) cs (lanesOf m) s b hy hg hc hv room
    have hr : (State.framed core g vs y.arch.names cs (lanesOf m) s b).1.crew? c = some y := by
      unfold State.crew? at hy ⊢; rw [crews]; exact hy
    dsimp only
    rw [if_neg (by omega), if_neg (by omega)]
    refine (M.bind_ok run).trans ((M.bind_ok (setBin_run _ hr)).trans ?_)
    rw [BitVec.ofNat_toNat, BitVec.setWidth_eq]
    exact leaveLanes_run m ((State.modGang_crew _ _ _ c).trans hr) clean

/-- SUSP up to its lanes: the descriptor fits the bin and the crew, and reading the names kills no lane (R190). -/
theorem bodySusp_checked {x : Ops} {pc fd : Addr} (hy : s.crew? c = some y) (own : ownPc c x s = .ok pc s)
    (found : binM c (x.sa.toNat % 32) s = .ok b s) (hfd : fd = pc + BitVec.ofInt 52 (signedOf 32 x.ext.toNat))
    (read : s.readFrame (s.crewAgent y pc) fd.toNat = .ok s1 (some (b.width, cs))) (hy1 : s1.crew? c = some y)
    (clean : y.marks = []) (point : b.occ = 0 ∧ b.ovcnt = 0 ∨ b.spc = pc + 12) (fits : s1.frameFits c cs = true) :
    bodySusp c x s = suspendLanes c (x.sa.toNat % 32) b cs pc fd.toNat (s1.emaskOf c x.head) s1 := by
  subst hfd
  obtain ⟨names, readable⟩ := (State.frameFits_iff hy1).1 fits
  have same : ((b.occ != 0 || b.ovcnt != 0) && b.spc != pc + 12) = false := by
    obtain ⟨empty, none⟩ | same := point
    · simp [empty, none]
    · simp [same]
  unfold bodySusp
  refine (M.bind_ok own).trans ((M.bind_ok (crewM_run hy)).trans ((M.bind_ok found).trans ((M.bind_ok (getS_run s)).trans
    ((M.bind_ok (liftIo_ok read)).trans ?_))))
  dsimp only
  refine (M.bind_ok (check_run (by simp))).trans ?_
  rw [same, if_neg Bool.false_ne_true]
  refine (M.bind_ok (check_run names)).trans ?_
  refine (M.bind_ok (forIn_ok cs s1 _ fun f hf => ?_)).trans ?_
  · obtain ⟨bd, e, hn, leased, pending, opened, -⟩ := State.readable_named (readable f hf)
    exact (M.bind_ok (lookup_run hy1 clean hn)).trans (M.bind_ok (checkReadable_run leased pending opened))
  refine (M.bind_ok (State.emaskOf_run x.head hy1 clean)).trans ?_
  refine (M.bind_ok (forIn_ok cs s1 _ fun f hf => ?_)).trans ?_
  · obtain ⟨bd, e, hn, -, -, -, bad⟩ := State.readable_named (readable f hf)
    exact (M.bind_ok (lookup_run hy1 clean hn)).trans (M.bind_ok (consume_run hy1 bad))
  exact M.bind_ok (State.emaskOf_run x.head hy1 clean)

end

theorem Crew.begun_names (w : Crew) (opc : Nat) (x : Ops) : (w.begun opc x).arch.names = w.arch.names := by
  show ({ w with park := none }.foldInstr opc x.head).arch.names = _
  unfold Crew.foldInstr; split <;> rfl

/-- An instruction that needs the checkpoint and leaves its crew as `z`, empty if no lane of it is active. -/
theorem Issues.issue_setCrew {s t : State} {c opc : Nat} {w z : Crew} {x : Ops} {body : M Unit} (h : Issues s c w x)
    (acc : w.acc = []) (run : body (s.opens c w opc x) = .ok () (t.setCrew c z)) (lanes : z.arch.act = 0 → z.empty = true) :
    issue c opc x true true body s = .ok () ((t.setCrew c z).ended c w) := by
  rw [issue_run h.crew h.sw (fun _ => acc) run (State.crew_setCrew _ _ _) lanes, State.setCrew_ended]
  unfold State.issued
  rw [State.setCrew_setCrew]

/-- Settles O35: the checks leave the machine as the read of the descriptor did, then the lanes go. -/
theorem suspend : Obligations.Suspend := by
  unfold Obligations.Suspend
  rintro x s s0 s1 c n w y g b b1 cs m fd r h acc idle rfl rfl rfl hg hb hfd read hy1 hg1 core point fits rfl room hr rfl
  have a := AfterReads.opens h 0xC0
  have gang := Crew.begun_gang w 0xC0 x
  have run := (bodySusp_checked a.crew (a.own _ a.crew) (a.bin_run hg hb) hfd read hy1 a.clean point fits).trans
    (suspendLanes_run (r := r) hy1 a.clean (by rw [gang]; exact hg1) core rfl room (by rw [Crew.begun_names]; exact hr))
  rw [gang] at run
  refine crewStep_run h.cur h.crew ((M.bind_ok (matrixFence_run h.crew fun _ => idle)).trans ?_)
  by_cases none : s1.emaskOf c x.head = 0
  · rw [if_pos none] at run ⊢
    exact h.issue_setCrew acc run (h.lanesStay 0xC0 (Crew.blockEntry_act _ _))
  · rw [if_neg none] at run ⊢
    exact h.issue_setCrew acc run (Crew.left_live _ _)

/-! ## A crew that carries the number of its command while it reads (R323) -/

/-- Where two values satisfy a predicate alike, it picks the same keys of a table that stores the one or the other. -/
theorem Tab.keysWhere_put {α : Type} (t : Tab α) (k : Nat) (v w : α) (p : Nat → α → Bool) (alike : p k v = p k w) :
    Tab.keysWhere (Tab.put t k v) p = Tab.keysWhere (Tab.put t k w) p := by
  have pick : ∀ (i : Nat) (u : α) (r : Tab α), Tab.keysWhere ((i, u) :: r) p
      = if p i u then i :: Tab.keysWhere r p else Tab.keysWhere r p := by
    intro i u r
    unfold Tab.keysWhere
    rw [List.filter_cons]
    split <;> rfl
  induction t with
  | nil => unfold Tab.put; rw [pick, pick, alike]
  | cons q t ih =>
    obtain ⟨i, u⟩ := q
    unfold Tab.put
    split
    · rw [pick k, pick k, alike]
    · split
      · rw [pick, pick, alike]
      · rw [pick, pick, ih]

/-- A crew that carries `m` as the number of its last command. -/
def Crew.carrying (w : Crew) (m : EngMark) : Crew := { w with eng := m :: w.eng }

theorem Crew.carrying_arch (w : Crew) (m : EngMark) : (w.carrying m).arch = w.arch := rfl

/-- Crew `c` carries `m` as the number of its last command. -/
def State.numbered (s : State) (c : Nat) (m : EngMark) : State := s.modCrew c fun w => w.carrying m

theorem State.modCore_setCrew (s : State) (k c : Nat) (f : Core → Core) (w : Crew) :
    (s.modCore k f).setCrew c w = (s.setCrew c w).modCore k f := rfl

section
variable {s : State} {c : Nat} {y : Crew}

theorem State.numbered_of (m : EngMark) (hy : s.crew? c = some y) :
    s.numbered c m = s.setCrew c (y.carrying m) := by
  unfold State.numbered State.modCrew
  rw [hy]

theorem State.numbered_crew (m : EngMark) (hy : s.crew? c = some y) :
    (s.numbered c m).crew? c = some (y.carrying m) := by
  rw [State.numbered_of m hy, State.crew_setCrew]

theorem State.numbered_absent (m : EngMark) (gone : s.crew? c = none) : s.numbered c m = s := by
  unfold State.numbered State.modCrew
  rw [gone]

/-- What the number leaves unchanged: all but the crew. -/
theorem State.numbered_rest (s : State) (c : Nat) (m : EngMark) :
    s.numbered c m = { s with crews := (s.numbered c m).crews } := by
  unfold State.numbered State.modCrew
  split <;> rfl

theorem State.numbered_coreOf (s : State) (c : Nat) (m : EngMark) (w : Crew) : (s.numbered c m).coreOf w = s.coreOf w := by
  rw [State.numbered_rest]; rfl

theorem State.numbered_core (s : State) (c : Nat) (m : EngMark) (k : Nat) : (s.numbered c m).core k = s.core k := by
  rw [State.numbered_rest]; rfl

theorem State.numbered_named (s : State) (c : Nat) (m : EngMark) (n : Nat) : (s.numbered c m).named c n = s.named c n := by
  cases hy : s.crew? c with
  | none => rw [State.numbered_absent m hy]
  | some y =>
    unfold State.named
    rw [State.numbered_crew m hy, hy]
    simp only [State.numbered_coreOf, State.numbered_core]
    rfl

/-- A read consumes the same count, whether or not the crew carries the number. -/
theorem State.numbered_took (s : State) (c : Nat) (m : EngMark) (n : Nat) :
    (s.numbered c m).took c n = (s.took c n).numbered c m := by
  cases hy : s.crew? c with
  | none => unfold State.took; rw [State.numbered_absent m hy, hy]; exact (State.numbered_absent m hy).symm
  | some y =>
    rw [State.numbered_of m hy]
    unfold State.took
    simp only [State.crew_setCrew, hy, Crew.carrying_arch]
    cases hb : Tab.at? y.arch.names n with
    | none => exact (State.numbered_of m hy).symm
    | some b =>
      simp only
      split
      · exact (State.numbered_of m hy).symm
      · split
        · rw [State.numbered_of m ((State.crew_modCore _ _ _ _).trans (State.crew_setCrew _ _ _)), State.modCore_setCrew,
            State.setCrew_setCrew, State.setCrew_setCrew]
          rfl
        · rw [State.numbered_of m (State.crew_setCrew _ _ _), State.setCrew_setCrew, State.setCrew_setCrew]
          rfl

theorem State.numbered_readable (s : State) (c : Nat) (m : EngMark) (n : Nat) :
    (s.numbered c m).readable c n = s.readable c n := by unfold State.readable; rw [State.numbered_named]

theorem State.numbered_nameLanes (s : State) (c : Nat) (m : EngMark) (n : Nat) :
    (s.numbered c m).nameLanes c n = s.nameLanes c n := by unfold State.nameLanes; rw [State.numbered_named]

theorem State.numbered_scalarOf (s : State) (c : Nat) (m : EngMark) (code : BitVec 8) :
    (s.numbered c m).scalarOf c code = s.scalarOf c code := by
  cases hy : s.crew? c with
  | none => rw [State.numbered_absent m hy]
  | some y => unfold State.scalarOf; rw [State.numbered_crew m hy, hy]; rfl

theorem State.numbered_emaskOf (s : State) (c : Nat) (m : EngMark) (h : Head) :
    (s.numbered c m).emaskOf c h = s.emaskOf c h := by
  cases hy : s.crew? c with
  | none => rw [State.numbered_absent m hy]
  | some y => unfold State.emaskOf; rw [State.numbered_crew m hy, hy]; rfl

theorem State.numbered_srcOk (s : State) (c : Nat) (m : EngMark) (code : BitVec 8) (wide : Bool) :
    (s.numbered c m).srcOk c code wide = s.srcOk c code wide := by
  unfold State.srcOk
  rw [State.numbered_took, State.numbered_readable, State.numbered_readable]

theorem State.numbered_srcVals (s : State) (c : Nat) (m : EngMark) (h : Head) (code : BitVec 8) (wide : Bool) :
    (s.numbered c m).srcVals c h code wide = s.srcVals c h code wide := by
  unfold State.srcVals
  rw [State.numbered_took, State.numbered_nameLanes, State.numbered_nameLanes, State.numbered_scalarOf]

theorem State.numbered_afterSrc (s : State) (c : Nat) (m : EngMark) (code : BitVec 8) (wide : Bool) :
    (s.numbered c m).afterSrc c code wide = (s.afterSrc c code wide).numbered c m := by
  unfold State.afterSrc
  split
  · split
    · rw [State.numbered_took, State.numbered_took]
    · rw [State.numbered_took]
  · rfl

theorem State.numbered_regionOk (s : State) (c : Nat) (m : EngMark) (off n align : Nat) :
    (s.numbered c m).regionOk c off n align = s.regionOk c off n align := by
  cases hy : s.crew? c with
  | none => rw [State.numbered_absent m hy]
  | some y =>
    unfold State.regionOk
    rw [State.numbered_of m hy, State.crew_setCrew, hy]
    rfl

theorem State.numbered_needOk (s : State) (c : Nat) (m : EngMark) (k : Nat) :
    (s.numbered c m).needOk c k = s.needOk c k := by
  cases hy : s.crew? c with
  | none => rw [State.numbered_absent m hy]
  | some y =>
    unfold State.needOk
    rw [State.numbered_of m hy, State.crew_setCrew, hy]
    rfl

theorem State.numbered_bindName (s : State) (c : Nat) (m : EngMark) (n count : Nat) (st : EState) :
    (s.numbered c m).bindName c n count st = (s.bindName c n count st).numbered c m := by
  cases hy : s.crew? c with
  | none => unfold State.bindName; rw [State.numbered_absent m hy, hy]; exact (State.numbered_absent m hy).symm
  | some y =>
    have entry : s.nextEntry c = (freeEntry (s.core (s.coreOf y)).vs).getD 0 := by unfold State.nextEntry; rw [hy]
    rw [State.numbered_of m hy, State.numbered_of m (State.bindName_crew n count st hy)]
    unfold State.bindName
    simp only [State.crew_setCrew, hy]
    rw [State.modCore_setCrew, State.modCore_setCrew, State.modCore_setCrew, State.setCrew_setCrew, State.setCrew_setCrew,
      entry]
    rfl

theorem State.numbered_tagName (s : State) (c : Nat) (m : EngMark) (n tag : Nat) :
    (s.numbered c m).tagName c n tag = (s.tagName c n tag).numbered c m := by
  cases hy : s.crew? c with
  | none => unfold State.tagName; rw [State.numbered_absent m hy, hy]; exact (State.numbered_absent m hy).symm
  | some y =>
    rw [State.numbered_of m hy, State.numbered_of m ((State.tagName_crew s c n tag).trans hy)]
    unfold State.tagName
    simp only [State.crew_setCrew, hy, Crew.carrying_arch]
    cases hb : Tab.at? y.arch.names n with
    | none => rfl
    | some b => rfl

theorem State.modGang_setCrew (s : State) (g c : Nat) (f : Gang → Gang) (w : Crew) :
    (s.modGang g f).setCrew c w = (s.setCrew c w).modGang g f := by
  unfold State.modGang
  rw [show (s.setCrew c w).gang? g = s.gang? g from rfl]
  split <;> rfl

/-- The number that a command takes replaces the one that its crew carried. -/
theorem State.numbered_commanded {g : Gang} {e k : Nat} {pc : Addr} {x : Ops} {p : EngPlan} (hy : s.crew? c = some y)
    (hg : s.gang? y.gang = some g) :
    (s.numbered c { pc := pc, kind := e, n := k }).commanded c e pc x p = s.commanded c e pc x p := by
  have hg' : (s.numbered c { pc := pc, kind := e, n := k }).gang? y.gang = some g := by rw [State.numbered_rest]; exact hg
  have again : (y.carrying { pc := pc, kind := e, n := k }).noted pc e ((g.timeline e).issued + 1)
      = y.noted pc e ((g.timeline e).issued + 1) := Crew.noted_again y pc e k _
  rw [commanded_of (State.numbered_crew _ hy) hg', commanded_of hy hg, again, State.numbered_of _ hy]
  rw [State.modGang_setCrew, State.modGang_setCrew]
  congr 2
  exact State.setCrew_setCrew { s with nextId := s.nextId + 1, cmds := Tab.put s.cmds s.nextId (cmdOf s y g c e pc p) } c
    (y.carrying { pc := pc, kind := e, n := k }) _

/-! ### What is available to a crew that carries a number (R94) -/

/-- Every crew stays as it was, but for the number. -/
theorem State.numbered_at (s : State) (c : Nat) (m : EngMark) (d : Nat) :
    (s.numbered c m).crew? d = s.crew? d ∨
      ∃ w : Crew, (s.numbered c m).crew? d = some (w.carrying m) ∧ s.crew? d = some w := by
  cases hy : s.crew? c with
  | none => exact .inl (by rw [State.numbered_absent m hy])
  | some y =>
    by_cases same : c = d
    · subst same; exact .inr ⟨y, State.numbered_crew m hy, hy⟩
    · exact .inl (by rw [State.numbered_of m hy, State.crew_setCrew_ne s c d _ same])

theorem State.numbered_reserve (s : State) (c : Nat) (m : EngMark) (core d : Nat) :
    (s.numbered c m).reserve core d = s.reserve core d := by
  unfold State.reserve
  rw [State.numbered_core]
  obtain same | ⟨w, now, was⟩ := s.numbered_at c m d
  · rw [same]
  · rw [now, was]; rfl

theorem State.numbered_linger (s : State) (c : Nat) (m : EngMark) (core : Nat) (p : Entry → Bool) :
    (s.numbered c m).linger core p = s.linger core p := by
  have gone : ∀ d, ((s.numbered c m).crew? d).isNone = (s.crew? d).isNone := by
    intro d
    obtain same | ⟨w, now, was⟩ := s.numbered_at c m d
    · rw [same]
    · rw [now, was]; rfl
  unfold State.linger
  simp only [gone, State.numbered_core]

theorem State.numbered_cedes (s : State) (c : Nat) (m : EngMark) (core : Nat) :
    (s.numbered c m).cedes core = s.cedes core := by rw [State.numbered_rest]; rfl

/-- The crew table has been written at `c`, so that a further write there keeps its order. -/
def State.Seated (s : State) (c : Nat) : Prop := ∃ (t : Tab Crew) (w : Crew), s.crews = Tab.put t c w

theorem State.setCrew_seated (s : State) (c : Nat) (w : Crew) : (s.setCrew c w).Seated c := ⟨s.crews, w, rfl⟩

theorem State.Seated.took (h : s.Seated c) (n : Nat) : (s.took c n).Seated c := by
  unfold State.took
  split
  · exact h
  · split
    · exact h
    · split
      · exact h
      · split
        · exact State.setCrew_seated s c _
        · exact State.setCrew_seated s c _

theorem State.Seated.afterSrc (h : s.Seated c) (code : BitVec 8) (wide : Bool) : (s.afterSrc c code wide).Seated c := by
  unfold State.afterSrc
  split
  · split
    · exact (h.took _).took _
    · exact h.took _
  · exact h

/-- A predicate that does not see the number picks the same crews. -/
theorem State.Seated.numbered_keys (h : s.Seated c) (m : EngMark) (p : Nat → Crew → Bool)
    (blind : ∀ w : Crew, p c (w.carrying m) = p c w) :
    Tab.keysWhere (s.numbered c m).crews p = Tab.keysWhere s.crews p := by
  obtain ⟨t, w, hw⟩ := h
  have found : s.crew? c = some w := by unfold State.crew?; rw [hw]; exact Tab.at?_put_self t c w
  have written : (s.numbered c m).crews = Tab.put t c (w.carrying m) := by
    rw [State.numbered_of m found]
    exact (congrArg (Tab.put · c (w.carrying m)) hw).trans (Tab.put_put t c w _)
  rw [written, hw]
  exact Tab.keysWhere_put t c _ _ p (blind w)

theorem State.Seated.numbered_residents (h : s.Seated c) (m : EngMark) (core : Nat) :
    (s.numbered c m).residents core = s.residents core := h.numbered_keys m _ fun _ => rfl

theorem State.Seated.numbered_freePool (h : s.Seated c) (m : EngMark) (core : Nat) :
    (s.numbered c m).freePool core = s.freePool core := by
  unfold State.freePool
  simp only [h.numbered_residents, State.numbered_reserve, State.numbered_cedes, State.numbered_linger]

theorem State.Seated.numbered_gangTotal (h : s.Seated c) (m : EngMark) (core g : Nat) :
    (s.numbered c m).gangTotal core g = s.gangTotal core g := by
  have gangs : ∀ k, (s.numbered c m).gang? k = s.gang? k := fun k => by rw [State.numbered_rest]; rfl
  unfold State.gangTotal
  rw [h.numbered_residents, State.numbered_linger, gangs]
  simp only [State.numbered_reserve]
  congr 4
  refine List.filter_congr fun d _ => ?_
  obtain same | ⟨w, now, was⟩ := s.numbered_at c m d
  · rw [same]
  · rw [now, was]; rfl

theorem State.Seated.numbered_avail (h : s.Seated c) (m : EngMark) (w : Crew) :
    (s.numbered c m).avail (w.carrying m) = s.avail w := by
  have core : (s.numbered c m).coreOf (w.carrying m) = s.coreOf w := State.numbered_coreOf s c m _
  have gang : (s.numbered c m).gang? (w.carrying m).gang = s.gang? w.gang := by rw [State.numbered_rest]; rfl
  unfold State.avail
  simp only [core, gang, h.numbered_freePool, h.numbered_gangTotal]
  rfl

/-- A name can be bound, whether or not the crew carries the number. -/
theorem State.Seated.numbered_canBind (h : s.Seated c) (m : EngMark) (n : Nat) :
    (s.numbered c m).canBind c n = s.canBind c n := by
  cases hy : s.crew? c with
  | none => rw [State.numbered_absent m hy]
  | some y =>
    have core : (s.numbered c m).coreOf (y.carrying m) = s.coreOf y := State.numbered_coreOf s c m _
    unfold State.canBind
    rw [State.numbered_crew m hy, hy]
    simp only [h.numbered_avail, State.numbered_core, core]
    rfl

end

/-! ## ECPY, EGATH, ESCAT, ECOLL, FORK (R196 to R203) -/

section
variable {s t : State} {c e opc : Nat} {w y : Crew} {x : Ops} {g : Gang} {p : EngPlan} {body : Nat → M Unit}

/-- An engine instruction whose body ends with a command of all lanes. -/
theorem AfterReads.endsCommand (a : AfterReads s t c w y x) (h : Issues s c w x) (acc : w.acc = [])
    (idle : s.matrixIdle c = true) (hg : s.gang? w.gang = some g)
    (run : body c (s.opens c w opc x) = issueCmd c e x p [] 0xFFFFFFFF t) :
    engStep opc x body s = .next ((t.commanded c e w.arch.pc x p).ended c w) := by
  obtain ⟨z, hz, act, -⟩ := commanded_crew (e := e) (pc := w.arch.pc) (x := x) (p := p) a.crew (a.gang? hg)
  have command := run.trans (issueCmd_run a.crew a.clean (a.gang? hg) (a.own t a.crew))
  rw [if_neg (by decide)] at command
  refine crewStep_run h.cur h.crew ((M.bind_ok (matrixFence_run h.crew fun _ => idle)).trans ?_)
  exact ownIssue h acc command hz (by rw [act, a.act]; exact h.awake)

/-- ECPY (R198). -/
theorem AfterReads.bodyEcpy_run {f : FnE} (a : AfterReads s t c w y x) (hg : s.gang? w.gang = some g)
    (plan : t.ecpyPlan g c f.ty x.ext (w.arch.scalar (scalarNo x.sa)).toNat (w.arch.scalar (scalarNo x.sb)).toNat
      (w.arch.scalar (scalarNo x.sc)).toNat = .ok p) : bodyEcpy f x c t = issueCmd c 0 x p [] 0xFFFFFFFF t := by
  unfold bodyEcpy
  exact (M.bind_ok (a.reg x.sa)).trans ((M.bind_ok (a.reg x.sb)).trans ((M.bind_ok (a.reg x.sc)).trans
    ((M.bind_ok (gangM_run a.crew (a.gang? hg))).trans ((M.bind_ok (getS_run t)).trans (M.bind_ok (checked_ok t plan))))))

/-- ECOLL (R202). -/
theorem AfterReads.bodyEcoll_run {f : FnE} (a : AfterReads s t c w y x)
    (plan : ecollPlan f.sub.toNat f.op.toNat f.ty x.ext (w.arch.scalar (scalarNo x.sa)).toNat
      (w.arch.scalar (scalarNo x.sb)).toNat (w.arch.scalar (scalarNo x.sc)).toNat = .ok p) :
    bodyEcoll f x c t = issueCmd c 2 x p [] 0xFFFFFFFF t := by
  unfold bodyEcoll
  exact (M.bind_ok (a.reg x.sa)).trans ((M.bind_ok (a.reg x.sb)).trans ((M.bind_ok (a.reg x.sc)).trans
    (M.bind_ok (checked_ok t plan))))

/-- FORK (R203). -/
theorem AfterReads.bodyFork_run {f : FnE} {r n : DWord} (a : AfterReads s t c w y x)
    (hr : r = w.arch.scalar (scalarNo x.sa)) (hn : n = w.arch.scalar (scalarNo x.sb)) (least : 1 ≤ n.toNat)
    (few : n.toNat ≤ 65536) (aligned : r.toNat % 64 = 0) (inside : r.toNat < 2 ^ 52) :
    bodyFork f x c t = issueCmd c f.sub.toNat x
      { what := .fork r.toNat n.toNat 0 w.arch.act, tile := none, range := [] } [] 0xFFFFFFFF t := by
  unfold bodyFork
  refine (M.bind_ok (a.reg x.sa)).trans ((M.bind_ok (a.reg x.sb)).trans ?_)
  rw [← hr, ← hn, if_neg (not_not_intro aligned), if_neg (Nat.not_le.2 inside), ← a.act]
  exact (M.bind_ok (check_run (decide_eq_true ⟨least, few⟩))).trans ((M.bind_ok (M.pure_run _ t)).trans
    ((M.bind_ok (M.pure_run _ t)).trans (M.bind_ok (crewM_run a.crew))))

end

/-! ### A command of the gather engine, complete at once where no lane takes part (R197) -/

/-- The gather engine's command of the lanes `m`. -/
def State.gathers (s : State) (c : Nat) (pc : Addr) (x : Ops) (p : EngPlan) (m : Mask) : State :=
  if m = 0 then (s.commanded c 1 pc x p).completed s.nextId else s.commanded c 1 pc x p

section
variable {s t : State} {c opc : Nat} {w y : Crew} {x : Ops} {g : Gang} {p : EngPlan} {m : Mask}

theorem AfterReads.numbered (a : AfterReads s t c w y x) (k : EngMark) :
    AfterReads s (t.numbered c k) c w (y.carrying k) x :=
  ⟨State.numbered_crew k a.crew, a.clean, a.gang, a.home, a.park, a.pc, a.act, a.scal,
    by rw [State.numbered_rest]; exact a.gangs⟩

theorem AfterReads.gathers_run (a : AfterReads s t c w y x) (hg : s.gang? w.gang = some g) :
    issueCmd c 1 x p [] m t = .ok () (t.gathers c w.arch.pc x p m) :=
  issueCmd_run a.crew a.clean (a.gang? hg) (a.own t a.crew)

/-- A crew that carries the number of the command issues the same one. -/
theorem AfterReads.numbered_gathers {pc : Addr} {n : Nat} (a : AfterReads s t c w y x) (hg : s.gang? w.gang = some g) :
    (t.numbered c { pc := pc, kind := 1, n := n }).gathers c pc x p m = t.gathers c pc x p m := by
  have next : (t.numbered c { pc := pc, kind := 1, n := n }).nextId = t.nextId := by rw [State.numbered_rest]
  unfold State.gathers
  rw [State.numbered_commanded a.crew (a.gang? hg), next]

/-- The number that the gather engine's next command of the gang takes. -/
def gatherMark (w : Crew) (g : Gang) : EngMark := { pc := w.arch.pc, kind := 1, n := (g.timeline 1).issued + 1 }

/-- An instruction of the gather engine, whose body runs alike with and without the number of its command. -/
theorem Issues.gathers_ends {u r : State} {body : Nat → M Unit} (h : Issues s c w x) (acc : w.acc = [])
    (idle : s.matrixIdle c = true) (hg : s.gang? w.gang = some g) (first : body c (s.opens c w opc x) = .ok () u)
    (again : body c ((s.opens c w opc x).numbered c (gatherMark w g)) = .ok () r) (live : r.live c = true) :
    engStep opc x (fun d => withSeq d 1 (body d)) s = .next (r.ended c w) := by
  have a := AfterReads.opens h opc
  rw [State.numbered_of _ a.crew, gatherMark, ← Crew.begun_ipc w opc x] at again
  exact engStep_run h acc idle (withSeq_run first a.crew (a.gang? hg) again) live

end

/-! ### Rows (R201) -/

/-- The addresses of the lanes of a gather (R201). -/
def gatherAddrs (x : Ops) (b : DWord) (m : Mask) (idx : Vals) : Tab Nat :=
  perLane m fun l => gatherAddr (fld x.ext 51 0) (b.toNat % 2 ^ 32) idx[l].toNat

/-- The row form, of EGATH and of ESCAT. -/
def gatherRow (what : Tab Nat → Nat → Nat → CmdKind) (x : Ops) (c : Nat) : M Unit := do
  let b ← readScalar c x.sb
  let v ← readScalar c x.sc
  let r ← checked (rowForm b.toNat v.toNat)
  let idx ← readSrc c x.head x.sa false
  let m ← emask c x.head
  gatherCheck m (gatherAddrs x b m idx) 4
  regionM c r.2 (32 * r.1) 1
  issueCmd c 1 x { what := what (gatherAddrs x b m idx) r.1 r.2, tile := none, range := [(r.2, 32 * r.1)] } [] m

theorem bodyEgath_rows {x : Ops} (f : FnE) (c : Nat) (rows : fld x.ext 63 52 / 256 = 0) :
    bodyEgath f x c = gatherRow .egathRow x c :=
  congrArg (readScalar c x.sb >>= ·) (funext fun _ => if_neg (not_not_intro rows))

theorem bodyEscat_rows {x : Ops} (f : FnE) (c : Nat) (rows : isVec x.sc = false) :
    bodyEscat f x c = gatherRow .escatRow x c :=
  congrArg (readScalar c x.sb >>= ·) (funext fun _ => if_neg (by rw [rows]; exact Bool.false_ne_true))

/-- The row form passes its checks: `b` and `v` are its scalars, `m` its lanes, `addr` their addresses. -/
structure RowsPass (s : State) (c : Nat) (x : Ops) (b v : DWord) (rows off : Nat) (m : Mask) (addr : Tab Nat) : Prop where
  form : rowForm b.toNat v.toNat = .ok (rows, off)
  source : s.srcOk c x.sa false = true
  lanes : m = (s.afterSrc c x.sa false).emaskOf c x.head
  places : addr = gatherAddrs x b m (s.srcVals c x.head x.sa false)
  fits : addrFault m addr 4 = none
  region : (s.afterSrc c x.sa false).regionOk c off (32 * rows) 1 = true

theorem RowsPass.numbered {s : State} {c : Nat} {x : Ops} {b v : DWord} {rows off : Nat} {m : Mask} {addr : Tab Nat}
    (h : RowsPass s c x b v rows off m addr) (k : EngMark) : RowsPass (s.numbered c k) c x b v rows off m addr where
  form := h.form
  source := by rw [State.numbered_srcOk]; exact h.source
  lanes := by rw [State.numbered_afterSrc, State.numbered_emaskOf]; exact h.lanes
  places := by rw [State.numbered_srcVals]; exact h.places
  fits := h.fits
  region := by rw [State.numbered_afterSrc, State.numbered_regionOk]; exact h.region

section
variable {s t : State} {c opc : Nat} {w y : Crew} {x : Ops} {g : Gang} {m : Mask} {b v : DWord} {addr : Tab Nat}
variable {rows off : Nat} {what : Tab Nat → Nat → Nat → CmdKind}

/-- The row form issues its command. -/
theorem AfterReads.gatherRow_run (a : AfterReads s t c w y x) (hg : s.gang? w.gang = some g)
    (hb : b = w.arch.scalar (scalarNo x.sb)) (hv : v = w.arch.scalar (scalarNo x.sc))
    (pass : RowsPass t c x b v rows off m addr) :
    gatherRow what x c t = .ok () ((t.afterSrc c x.sa false).gathers c w.arch.pc x
      { what := what addr rows off, tile := none, range := [(off, 32 * rows)] } m) := by
  obtain ⟨form, source, lanes, places, fits, region⟩ := pass
  obtain ⟨z, read⟩ := a.src x.sa false
  unfold gatherRow
  refine (M.bind_ok (a.reg x.sb)).trans ((M.bind_ok (a.reg x.sc)).trans ?_)
  rw [← hb, ← hv]
  refine (M.bind_ok (checked_ok t form)).trans ((M.bind_ok (a.source_run source)).trans
    ((M.bind_ok (read.mask x.head)).trans ?_))
  rw [← lanes, ← places]
  exact (M.bind_ok (gatherCheck_ok _ fits)).trans ((M.bind_ok (regionM_ok read.crew region)).trans (read.gathers_run hg))

/-- EGATH or ESCAT of rows. -/
theorem Issues.gatherRow_ends {r : State} {body : Nat → M Unit} (h : Issues s c w x) (acc : w.acc = [])
    (idle : s.matrixIdle c = true) (hg : s.gang? w.gang = some g) (hb : b = w.arch.scalar (scalarNo x.sb))
    (hv : v = w.arch.scalar (scalarNo x.sc)) (form : body c = gatherRow what x c)
    (pass : RowsPass (s.opens c w opc x) c x b v rows off m addr)
    (hr : r = ((s.opens c w opc x).afterSrc c x.sa false).gathers c w.arch.pc x
      { what := what addr rows off, tile := none, range := [(off, 32 * rows)] } m) (live : r.live c = true) :
    engStep opc x (fun d => withSeq d 1 (body d)) s = .next (r.ended c w) := by
  have a := AfterReads.opens h opc
  obtain ⟨z, read⟩ := a.src x.sa false
  have again := (a.numbered (gatherMark w g)).gatherRow_run (what := what) hg hb hv (pass.numbered (gatherMark w g))
  rw [State.numbered_afterSrc, gatherMark, read.numbered_gathers hg, ← hr, ← gatherMark] at again
  exact h.gathers_ends acc idle hg ((congrFun form _).trans (a.gatherRow_run hg hb hv pass))
    ((congrFun form _).trans again) live

end

/-! ### Names (R201) -/

theorem State.canBindAll_one (s : State) (c n count : Nat) (st : EState) :
    s.canBindAll c [n] count st = (s.needOk c 1 && s.canBind c n) := rfl

/-- EGATH to a name passes its checks: `b` is its stride, `n` its name with count `cnt`. -/
structure NamePass (s : State) (c : Nat) (f : FnE) (x : Ops) (b : DWord) (n cnt : Nat) (m : Mask) (addr : Tab Nat) : Prop where
  count : cnt = fld x.ext 63 52 / 256
  counted : cnt ≠ 0
  name : n = fld x.ext 59 52
  small : b.toNat < 2 ^ 32
  source : s.srcOk c x.sa false = true
  lanes : m = (s.afterSrc c x.sa false).emaskOf c x.head
  places : addr = gatherAddrs x b m (s.srcVals c x.head x.sa false)
  fits : addrFault m addr (Ty.size f.ty) = none
  room : (s.afterSrc c x.sa false).canBindAll c [n] cnt .leased = true

theorem NamePass.numbered {s : State} {c : Nat} {f : FnE} {x : Ops} {b : DWord} {n cnt : Nat} {m : Mask} {addr : Tab Nat}
    (h : NamePass s c f x b n cnt m addr) (seated : s.Seated c) (k : EngMark) :
    NamePass (s.numbered c k) c f x b n cnt m addr where
  count := h.count
  counted := h.counted
  name := h.name
  small := h.small
  source := by rw [State.numbered_srcOk]; exact h.source
  lanes := by rw [State.numbered_afterSrc, State.numbered_emaskOf]; exact h.lanes
  places := by rw [State.numbered_srcVals]; exact h.places
  fits := h.fits
  room := by
    have room := h.room
    rw [State.canBindAll_one] at room ⊢
    rw [State.numbered_afterSrc, State.numbered_needOk, (seated.afterSrc _ _).numbered_canBind]
    exact room

/-- The leased name of a gather, waiting for the command. -/
def State.leasedName (s : State) (c n cnt : Nat) : State := (s.bindName c n cnt .leased).tagName c n s.nextId

theorem State.near_tagName (s : State) (c n tag : Nat) : s.Near (s.tagName c n tag) c := by
  unfold State.tagName
  split
  · exact State.Near.refl s c
  · split
    · exact State.Near.refl s c
    · exact State.near_modCore s c _ _ fun k => by split <;> rfl

theorem State.near_leasedName (s : State) (c n cnt : Nat) : s.Near (s.leasedName c n cnt) c :=
  (s.near_bindName c n cnt .leased).trans (State.near_tagName _ c n _)

theorem State.leasedName_nextId (s : State) (c n cnt : Nat) : (s.leasedName c n cnt).nextId = s.nextId := by
  rw [(s.near_leasedName c n cnt).rest]

section
variable {s t : State} {c opc : Nat} {w y : Crew} {x : Ops} {g : Gang} {m : Mask} {b : DWord} {addr : Tab Nat}
variable {n cnt : Nat} {f : FnE}

theorem AfterReads.leasedName (a : AfterReads s t c w y x) (n cnt : Nat) :
    ∃ z, AfterReads s (t.leasedName c n cnt) c w z x := by
  obtain ⟨z, hz, same⟩ := State.bindName_some n cnt .leased a.crew
  exact ⟨z, a.near ((State.tagName_crew _ c n _).trans hz) same (t.near_leasedName c n cnt)⟩

/-- The new entry of a leased name waits for the command that is issued. -/
theorem AfterReads.issueCmd_leased {p : EngPlan} (a : AfterReads s t c w y x) (hg : s.gang? w.gang = some g) :
    issueCmd c 1 x p [t.nextEntry c] m (t.bindName c n cnt .leased)
      = .ok () ((t.leasedName c n cnt).gathers c w.arch.pc x p m) := by
  obtain ⟨z, leased⟩ := a.leasedName n cnt
  have bound := State.bindName_crew n cnt .leased a.crew
  have next : (t.bindName c n cnt .leased).nextId = t.nextId := by rw [(t.near_bindName c n cnt .leased).rest]
  have after := a.near bound (Crew.sameButNames_set y _) (t.near_bindName c n cnt .leased)
  have tagged := tagName_eq (tag := t.nextId) bound (Tab.at?_put_self y.arch.names n ⟨t.nextEntry c, cnt⟩)
  rw [issueCmd_tag bound (after.gang? hg) after.own, next, ← tagged]
  exact leased.gathers_run hg

/-- EGATH to a name leases it and issues its command. -/
theorem AfterReads.bodyEgath_name_run (a : AfterReads s t c w y x) (hg : s.gang? w.gang = some g)
    (hb : b = w.arch.scalar (scalarNo x.sb)) (pass : NamePass t c f x b n cnt m addr) :
    bodyEgath f x c t = .ok () (((t.afterSrc c x.sa false).leasedName c n cnt).gathers c w.arch.pc x
      { what := .egathName f.ty addr n cnt, tile := none, range := [] } m) := by
  obtain ⟨count, counted, name, small, source, lanes, places, fits, room⟩ := pass
  obtain ⟨z, read⟩ := a.src x.sa false
  have unbound := State.unbound_all read.crew (.inr (.inl ⟨n, rfl⟩)) room
  rw [State.canBindAll_one, Bool.and_eq_true] at room
  unfold bodyEgath
  refine (M.bind_ok (a.reg x.sb)).trans ?_
  simp only [← count, ← name, if_pos counted, ← hb]
  refine (M.bind_ok (check_run (decide_eq_true small))).trans ((M.bind_ok (a.source_run source)).trans
    ((M.bind_ok (read.mask x.head)).trans ((M.bind_ok (checkDst_run read.crew unbound)).trans ?_)))
  rw [← lanes, ← gatherAddrs, ← places]
  exact (M.bind_ok (gatherCheck_ok _ fits)).trans
    ((M.bind_ok (allocNames_one cnt .leased n read.crew read.clean room.1 room.2)).trans (read.issueCmd_leased hg))

/-- A name is leased alike by a crew that carries a number. -/
theorem State.numbered_leasedName (s : State) (c : Nat) (k : EngMark) (n cnt : Nat) :
    (s.numbered c k).leasedName c n cnt = (s.leasedName c n cnt).numbered c k := by
  have next : (s.numbered c k).nextId = s.nextId := by rw [State.numbered_rest]
  unfold State.leasedName
  rw [State.numbered_bindName, State.numbered_tagName, next]

/-- EGATH to a name. -/
theorem Issues.egath_name_ends {r : State} (h : Issues s c w x) (acc : w.acc = []) (idle : s.matrixIdle c = true)
    (hg : s.gang? w.gang = some g) (hb : b = w.arch.scalar (scalarNo x.sb))
    (pass : NamePass (s.opens c w 0xD1 x) c f x b n cnt m addr)
    (hr : r = (((s.opens c w 0xD1 x).afterSrc c x.sa false).leasedName c n cnt).gathers c w.arch.pc x
      { what := .egathName f.ty addr n cnt, tile := none, range := [] } m) (live : r.live c = true) :
    exec (.egath f x) s = .next (r.ended c w) := by
  have a := AfterReads.opens h 0xD1
  obtain ⟨z, read⟩ := a.src x.sa false
  obtain ⟨z', leased⟩ := read.leasedName n cnt
  have pass' := pass.numbered (State.setCrew_seated s c _) (gatherMark w g)
  have again := (a.numbered (gatherMark w g)).bodyEgath_name_run hg hb pass'
  rw [State.numbered_afterSrc, State.numbered_leasedName, gatherMark, leased.numbered_gathers hg, ← hr, ← gatherMark] at again
  exact h.gathers_ends acc idle hg (a.bodyEgath_name_run hg hb pass) again live

end

/-- ESCAT of a name passes its checks: `data` are the values that it stores. -/
structure ScatterPass (s : State) (c : Nat) (f : FnE) (x : Ops) (b : DWord) (m : Mask) (addr : Tab Nat) (data : Vals) : Prop where
  named : isVec x.sc = true
  small : b.toNat < 2 ^ 32
  source : s.srcOk c x.sa false = true
  stored : (s.afterSrc c x.sa false).srcOk c x.sc false = true
  values : data = (s.afterSrc c x.sa false).srcVals c x.head x.sc false
  lanes : m = ((s.afterSrc c x.sa false).afterSrc c x.sc false).emaskOf c x.head
  places : addr = gatherAddrs x b m (s.srcVals c x.head x.sa false)
  fits : addrFault m addr (Ty.size f.ty) = none

theorem ScatterPass.numbered {s : State} {c : Nat} {f : FnE} {x : Ops} {b : DWord} {m : Mask} {addr : Tab Nat} {data : Vals}
    (h : ScatterPass s c f x b m addr data) (k : EngMark) : ScatterPass (s.numbered c k) c f x b m addr data where
  named := h.named
  small := h.small
  source := by rw [State.numbered_srcOk]; exact h.source
  stored := by rw [State.numbered_afterSrc, State.numbered_srcOk]; exact h.stored
  values := by rw [State.numbered_afterSrc, State.numbered_srcVals]; exact h.values
  lanes := by rw [State.numbered_afterSrc, State.numbered_afterSrc, State.numbered_emaskOf]; exact h.lanes
  places := by rw [State.numbered_srcVals]; exact h.places
  fits := h.fits

section
variable {s t : State} {c opc : Nat} {w y : Crew} {x : Ops} {g : Gang} {m : Mask} {b : DWord} {addr : Tab Nat}
variable {data : Vals} {f : FnE}

/-- ESCAT of a name issues its command. -/
theorem AfterReads.bodyEscat_name_run (a : AfterReads s t c w y x) (hg : s.gang? w.gang = some g)
    (hb : b = w.arch.scalar (scalarNo x.sb)) (pass : ScatterPass t c f x b m addr data) :
    bodyEscat f x c t = .ok () (((t.afterSrc c x.sa false).afterSrc c x.sc false).gathers c w.arch.pc x
      { what := .escatName f.ty addr (lowHalf data), tile := none, range := [] } m) := by
  obtain ⟨named, small, source, stored, values, lanes, places, fits⟩ := pass
  obtain ⟨z, read⟩ := a.src x.sa false
  obtain ⟨z', both⟩ := read.src x.sc false
  unfold bodyEscat
  refine (M.bind_ok (a.reg x.sb)).trans ?_
  simp only [if_pos named, ← hb]
  refine (M.bind_ok (check_run (decide_eq_true small))).trans ((M.bind_ok (a.source_run source)).trans
    ((M.bind_ok (read.source_run stored)).trans ((M.bind_ok (both.mask x.head)).trans ?_)))
  rw [← lanes, ← values, ← gatherAddrs, ← places]
  exact (M.bind_ok (gatherCheck_ok _ fits)).trans (both.gathers_run hg)

/-- ESCAT of a name. -/
theorem Issues.escat_name_ends {r : State} (h : Issues s c w x) (acc : w.acc = []) (idle : s.matrixIdle c = true)
    (hg : s.gang? w.gang = some g) (hb : b = w.arch.scalar (scalarNo x.sb))
    (pass : ScatterPass (s.opens c w 0xD2 x) c f x b m addr data)
    (hr : r = (((s.opens c w 0xD2 x).afterSrc c x.sa false).afterSrc c x.sc false).gathers c w.arch.pc x
      { what := .escatName f.ty addr (lowHalf data), tile := none, range := [] } m) (live : r.live c = true) :
    exec (.escat f x) s = .next (r.ended c w) := by
  have a := AfterReads.opens h 0xD2
  obtain ⟨z, read⟩ := a.src x.sa false
  obtain ⟨z', both⟩ := read.src x.sc false
  have again := (a.numbered (gatherMark w g)).bodyEscat_name_run hg hb (pass.numbered (gatherMark w g))
  rw [State.numbered_afterSrc, State.numbered_afterSrc, gatherMark, both.numbered_gathers hg, ← hr, ← gatherMark] at again
  exact h.gathers_ends acc idle hg (a.bodyEscat_name_run hg hb pass) again live

end

/-- Settles O37: each command passes its checks; a gather's body runs alike with the number that its command takes. -/
theorem engineCommands : Obligations.EngineCommands := by
  unfold Obligations.EngineCommands
  intro f x s s0 s1 s2 u r c va rows off n cnt w g a b v idx data m addr p h acc idle hg ha hb hv hva hcnt hn haddr
  refine ⟨?ecpy, ?egath, ?escat, ?ecoll, ?fork⟩
  case ecpy =>
    rintro rfl plan
    rw [ha, hb, hv] at plan
    have i := AfterReads.opens h 0xD0
    exact i.endsCommand h acc idle hg (i.bodyEcpy_run hg plan)
  case ecoll =>
    rintro rfl plan
    rw [ha, hb, hv] at plan
    have i := AfterReads.opens h 0xD3
    exact i.endsCommand h acc idle hg (i.bodyEcoll_run plan)
  case fork =>
    rintro rfl least few aligned inside
    have i := AfterReads.opens h 0xD4
    exact i.endsCommand h acc idle hg (i.bodyFork_run ha hb least few aligned inside)
  case egath =>
    rintro rfl source rfl rfl lanes
    subst hva
    refine ⟨fun counted small fits room => ?_, fun none form fits region => ?_⟩
    · rintro rfl rfl hr live
      rw [← State.leasedName, ← State.leasedName_nextId _ c n cnt] at hr
      exact h.egath_name_ends acc idle hg hb ⟨hcnt, counted, hn, small, source, lanes, haddr, fits, room⟩ hr live
    · rintro rfl hr live
      exact h.gatherRow_ends acc idle hg hb hv (bodyEgath_rows f c (hcnt.symm.trans none))
        ⟨form, source, lanes, haddr, fits, region⟩ hr live
  case escat =>
    rintro rfl source rfl rfl
    subst hva
    refine ⟨fun named stored values hs2 lanes small fits => ?_, fun fields lanes form fits region => ?_⟩
    · subst hs2
      rintro rfl hr live
      exact h.escat_name_ends acc idle hg hb ⟨named, small, source, stored, values, lanes, haddr, fits⟩ hr live
    · rintro rfl hr live
      exact h.gatherRow_ends acc idle hg hb hv (bodyEscat_rows f c fields) ⟨form, source, lanes, haddr, fits, region⟩ hr live

/-! ## Timelines (R204) -/

/-- Crew `c` issues an instruction whose effect is an acquire. -/
theorem AfterReads.endsAcquired {s t : State} {c opc scope : Nat} {w y : Crew} {x : Ops} {ckpt : Bool} {body : Nat → M Unit}
    (a : AfterReads s t c w y x) (h : Issues s c w x) (hk : ckpt = true → w.acc = [])
    (hb : body c (s.opens c w opc x) = .ok () (t.acquired c scope)) :
    issueStep opc x ckpt body s = .next ((t.acquired c scope).ended c w) :=
  a.endsLive h hk hb ⟨y, (t.acquired_crew c scope).trans a.crew, rfl⟩

/-- TLQ reads its timeline (R204). -/
theorem bodyTlq_run {s : State} {c : Nat} {y : Crew} {f : FnE} {x : Ops} {g : Gang} {t : Timeline} (hy : s.crew? c = some y)
    (hg : s.gang? y.gang = some g) (ht : t = g.timeline f.sub.toNat) :
    bodyTlq c f x s = writeScalar c x.dst
      (put (b2n (t.fails.any fun u => decide (u.n ≤ t.done))) 63 1 ||| put t.done 0 63) s :=
  ht ▸ M.bind_ok (gangM_run hy hg)

/-- Settles O38: TLWAIT and RDV read their numbers and acquire at once; TLQ only reads. -/
theorem timelines : Obligations.Timelines := by
  unfold Obligations.Timelines
  intro f x s s0 c w g t h
  refine ⟨?tlwait, ?rdv, ?tlq⟩
  case tlwait =>
    rintro rfl met
    have a := AfterReads.opens h 0xD6
    exact a.endsAcquired h nofun ((M.bind_ok (a.reg x.sa)).trans (awaitM_run a.crew met))
  case rdv =>
    rintro rfl acc sub met
    have a := AfterReads.opens h 0xD5
    exact a.endsAcquired h (fun _ => acc) ((M.bind_ok (check_run (by simp [sub]))).trans ((M.bind_ok (a.reg x.sa)).trans
      ((M.bind_ok (a.reg x.sb)).trans ((M.bind_ok (a.reg x.sc)).trans (awaitM_run a.crew met)))))
  case tlq =>
    rintro rfl hg ht
    have a := AfterReads.opens h 0xD7
    exact issueStep_scalar x.dst _ h nofun a.crew (bodyTlq_run a.crew (a.gang? hg) ht) a.clean a.act

/-! ## DEQ and ENQ (R207, R208) -/

/-- Nothing keeps an instruction waiting that needs the checkpoint, where the crew has no access outstanding (R19, R91). -/
theorem Issues.unparked {s : State} {c : Nat} {w : Crew} {x : Ops} (h : Issues s c w x) (acc : w.acc = []) :
    ((x.head.sw && switchWaits w (s.core (s.coreOf w)).vs) = false) ∧ (!w.acc.isEmpty) = false :=
  ⟨h.goes, by rw [acc]; rfl⟩

section
variable {x : Ops} {s t u : State} {c : Nat} {w z : Crew} {h : Header} {a v : DWord}

/-- DEQ whose item has been delivered while it waited (R208). -/
theorem runDeq_delivered (i : Issues s c w x) (acc : w.acc = []) (item : w.waitEvt = some v) :
    runDeq c x s = .ok () (((((s.opens c w 0xE0 x).delivered c).acquired c 3).setScalarOf c x.dst v).ended c w) := by
  unfold runDeq
  refine (M.bind_ok (crewM_run i.crew)).trans ?_
  simp only [item]
  exact takeEvent i acc item fun _ _ hw hm => endDeq_run x v hw hm

/-- DEQ whose turn comes as it joins the line of its header (R208). -/
theorem runDeq_atOnce (i : Issues s c w x) (acc : w.acc = []) (first : w.waitEvt = none)
    (ha : a = w.arch.scalar (scalarNo x.sa)) (head : s.queueHead w a.toNat = .ok t h)
    (hu : u = serveLine ((joinLine ⟨c, a.toNat, h.place.pa, h.place.key, w.arch.emask x.head⟩ t).waits.length + 1) h.place.pa
      (joinLine ⟨c, a.toNat, h.place.pa, h.place.key, w.arch.emask x.head⟩ t)) (served : Issues u c z x) (acc' : z.acc = [])
    (item : z.waitEvt = some v) :
    runDeq c x s = .ok () (((((u.opens c z 0xE0 x).delivered c).acquired c 3).setScalarOf c x.dst v).ended c z) := by
  subst hu
  obtain ⟨goes, none⟩ := i.unparked acc
  unfold runDeq
  refine (M.bind_ok (crewM_run i.crew)).trans ?_
  simp only [first]
  refine (M.bind_ok (vsM_run i.crew)).trans ?_
  simp only [goes, none, Bool.false_eq_true, if_false]
  refine (M.bind_ok (readScalar_run x.sa i.crew i.clean)).trans ((M.bind_ok (getS_run s)).trans
    ((M.bind_ok (emask_run x.head i.crew i.clean)).trans ?_))
  rw [← ha]
  refine (M.bind_ok (liftQueue_ok s head)).trans ((M.bind_ok (modS_run _ t)).trans ((M.bind_ok (modS_run _ _)).trans
    ((M.bind_ok (crewM_run served.crew)).trans ?_)))
  simp only [item]
  exact takeEvent served acc' item fun _ _ hw hm => endDeq_run x v hw hm

/-- ENQ that adds its item, or finds the queue full (R208). -/
theorem bodyEnq_run {s1 s2 : State} {y : Crew} {b : DWord} {added : Bool} (hy : s.crew? c = some y) (clean : y.marks = [])
    (ha : a = y.arch.scalar (scalarNo x.sa)) (hb : b = y.arch.scalar (scalarNo x.sb))
    (head : s.queueHead y a.toNat = .ok s1 h) (adds : s1.addItem y a.toNat b = .ok s2 (some added))
    (hu : u = if added then serveLine (s2.waits.length + 1) h.place.pa s2 else s2) :
    bodyEnq c x s = writeScalar c x.dst (if added then 0 else 1) u := by
  subst hu
  unfold bodyEnq
  refine (M.bind_ok (readScalar_run x.sa hy clean)).trans ((M.bind_ok (readScalar_run x.sb hy clean)).trans
    ((M.bind_ok (crewM_run hy)).trans ((M.bind_ok (getS_run s)).trans ?_)))
  rw [← ha, ← hb]
  refine (M.bind_ok (liftQueue_ok s head)).trans ((M.bind_ok (getS_run s1)).trans ((M.bind_ok (liftQueue_ok s1 adds)).trans ?_))
  cases added with
  | true => exact M.bind_ok (modS_run _ s2)
  | false => rfl

end

/-- An instruction that needs the checkpoint and ends with a scalar, of a crew that is live then. -/
theorem Issues.issue_scalar {s t : State} {c opc : Nat} {w : Crew} {x : Ops} {body : M Unit} (code : BitVec 8) (v : DWord)
    (h : Issues s c w x) (acc : w.acc = []) (run : body (s.opens c w opc x) = writeScalar c code v t)
    (live : t.live c = true) : issue c opc x true true body s = .ok () ((t.setScalarOf c code v).ended c w) := by
  obtain ⟨y, hy, awake, clean⟩ := State.live_some live
  obtain ⟨z, hz, act⟩ := State.setScalarOf_some code v hy
  exact ownIssue h acc (run.trans (writeScalar_of code v hy clean)) hz (act ▸ awake)

/-- Settles O39: DEQ takes what was delivered, before or after it joins the line; ENQ ends with its answer. -/
theorem workQueues : Obligations.WorkQueues := by
  unfold Obligations.WorkQueues
  rintro x s s0 s1 s2 t u c w y z h a v added i acc ha
  refine ⟨?delivered, ?atOnce, ?enq⟩
  case delivered =>
    rintro item rfl
    exact crewStep_run i.cur i.crew (runDeq_delivered i acc item)
  case atOnce =>
    rintro first head rfl hu served acc' item rfl
    exact crewStep_run i.cur i.crew (runDeq_atOnce i acc first ha head hu served acc' item)
  case enq =>
    rintro idle rfl rfl head adds hu live
    have r := AfterReads.opens i 0xE1
    refine crewStep_run i.cur i.crew ((M.bind_ok (matrixFence_run i.crew fun _ => idle)).trans ?_)
    exact i.issue_scalar x.dst _ acc (bodyEnq_run r.crew r.clean (by rw [Crew.begun_scalar]; exact ha)
      (Crew.begun_scalar w 0xE1 x _).symm head adds hu) live

/-! ## LAUNCH (R209, R280) -/

section
variable {x : Ops} {t : State} {c i : Nat} {g : Gang} {l : Grid} {r tab : List Byte}

/-- A record in order, and a free slot of the pending pool: the child is placed (R209, R280). -/
theorem endLaunch_places (slot : t.freePoolSlot = some i) (ok : t.checkRecord g.ctx l.priv.toNat r = some tab) :
    endLaunch c x g l r t = writeScalar c x.dst
      (put (Tab.getD t.pool i PoolSlot.reset).gen.toNat 12 32 ||| put i 0 12)
      (t.childPlaced g.grid i (t.newGrid g.ctx r tab l.priv (some g.grid) (some i) none 0)) := by
  unfold endLaunch
  refine (M.bind_ok (getS_run t)).trans ?_
  simp only [slot, ok]
  exact (M.bind_ok (getS_run t)).trans (M.bind_ok (setS_run _ t))

/-- A full pool or a record that is not in order: a STATUS that is not 0 (R209; log 54). -/
theorem endLaunch_refuses (bad : t.freePoolSlot = none ∨ t.checkRecord g.ctx l.priv.toNat r = none) :
    endLaunch c x g l r t = writeScalar c x.dst (put (launchStatus t.freePoolSlot.isNone
      (t.checkRecord g.ctx l.priv.toNat r).isNone (Config.freePick t.tick)) 62 2) { t with tick := t.tick + 1 } := by
  unfold endLaunch
  refine (M.bind_ok (getS_run t)).trans ?_
  cases slot : t.freePoolSlot with
  | none => exact (M.bind_ok (getS_run t)).trans (M.bind_ok (modS_run _ t))
  | some i =>
    obtain full | rejected := bad
    · rw [slot] at full; cases full
    · rw [rejected]
      exact (M.bind_ok (getS_run t)).trans (M.bind_ok (modS_run _ t))

end

/-- LAUNCH once its record is read (R209). -/
theorem execLaunch_read {x : Ops} {s t u : State} {c : Nat} {w y : Crew} {g : Gang} {l : Grid} {a v : DWord} {r : List Byte}
    (h : Issues s c w x) (acc : w.acc = []) (idle : s.matrixIdle c = true) (hg : s.gang? w.gang = some g)
    (hy : y = w.begun 0xE2 x) (ha : a = w.arch.scalar (scalarNo x.sa)) (aligned : a.toNat % 64 = 0) (low : a.toNat < 2 ^ 52)
    (read : (s.opens c w 0xE2 x).readVa ((s.opens c w 0xE2 x).crewAgent y w.arch.pc) .read a.toNat 256 = .ok t r)
    (grid : t.grid? g.grid = some l) (ends : endLaunch c x g l r t = writeScalar c x.dst v u) (live : u.live c = true) :
    execLaunch x s = .next ((u.setScalarOf c x.dst v).ended c w) := by
  subst hy
  have b := AfterReads.opens h 0xE2
  obtain ⟨z, hz, awake, clean⟩ := State.live_some live
  obtain ⟨q, hq, act⟩ := State.setScalarOf_some x.dst v hz
  refine crewStep_run h.cur h.crew ((M.bind_ok (matrixFence_run h.crew fun _ => idle)).trans ?_)
  refine ownIssue h acc (launch_reads b.crew b.clean (b.gang? hg) (by rw [Crew.begun_scalar]; exact ha) aligned low
    (by rw [Crew.begun_ipc]; exact read) grid (ends.trans (writeScalar_of x.dst v hz clean))) hq (act ▸ awake)

/-! ## LJOIN (R210) -/

section
variable {x : Ops} {s : State} {c : Nat} {w : Crew} {g : Gang} {p : PoolSlot} {v : DWord}

/-- LJOIN whose child has completed while it waited (R210). -/
theorem runLjoin_delivered (h : Issues s c w x) (acc : w.acc = []) (result : w.waitEvt = some v) :
    runLjoin c x s = .ok () (((((s.opens c w 0xE3 x).delivered c).acquired c 3).setScalarOf c x.dst v).ended c w) := by
  unfold runLjoin
  refine (M.bind_ok (crewM_run h.crew)).trans ?_
  simp only [result]
  exact takeEvent h acc result fun _ _ hw hm => endJoin_run x v hw hm

/-- LJOIN that issues anew looks for its child (R210). -/
theorem runLjoin_first (h : Issues s c w x) (acc : w.acc = []) (first : w.waitEvt = none) :
    runLjoin c x s = joinChild c x w.gang s := by
  obtain ⟨goes, none⟩ := h.unparked acc
  unfold runLjoin
  refine (M.bind_ok (crewM_run h.crew)).trans ?_
  simp only [first]
  refine (M.bind_ok (vsM_run h.crew)).trans ?_
  simp only [goes, none, Bool.false_eq_true, if_false]

/-- The end of an LJOIN that need not wait. -/
theorem joined_issue (h : Issues s c w x) (acc : w.acc = []) (v : DWord) :
    issue c 0xE3 x true true (endJoin c x v) s
      = .ok () ((((s.opens c w 0xE3 x).acquired c 3).setScalarOf c x.dst v).ended c w) := by
  have a := AfterReads.opens h 0xE3
  obtain ⟨z, hz, act⟩ := State.setScalarOf_some x.dst v ((State.acquired_crew _ c 3).trans a.crew)
  exact h.issue_ended acc (endJoin_run x v a.crew a.clean) hz act

/-- LJOIN of handle `a` once its slot has been looked up (R210). -/
def joinSlot (c : Nat) (x : Ops) (gk : Nat) (a : DWord) : Option PoolSlot → M Unit
  | none => issue c 0xE3 x true true (endJoin c x (joinWord 2 0))
  | some p =>
    if p.done then do
      modS fun t => t.freePoolAt (fld a 11 0)
      issue c 0xE3 x true true (endJoin c x (joinWord p.status p.cause.toNat))
    else do
      modS fun t => { t with pool := Tab.put t.pool (fld a 11 0) { p with joined := true } }
      modC c fun z => { z with park := some (.join (fld a 43 0)) }
      modS fun t => t.trySwapOut gk

theorem joinChild_eq (gk : Nat) (h : Issues s c w x) (hg : s.gang? w.gang = some g) :
    joinChild c x gk s = joinSlot c x gk (w.arch.scalar (scalarNo x.sa))
      (s.childSlot g.grid (w.arch.scalar (scalarNo x.sa))) s := by
  unfold joinChild
  refine (M.bind_ok (readScalar_run x.sa h.crew h.clean)).trans ((M.bind_ok (gangM_run h.crew hg)).trans
    ((M.bind_ok (getS_run s)).trans ?_))
  cases s.childSlot g.grid (w.arch.scalar (scalarNo x.sa)) <;> rfl

/-- LJOIN of a handle that names no child (R210). -/
theorem joinSlot_none (gk : Nat) (a : DWord) (h : Issues s c w x) (acc : w.acc = []) :
    joinSlot c x gk a none s
      = .ok () ((((s.opens c w 0xE3 x).acquired c 3).setScalarOf c x.dst (joinWord 2 0)).ended c w) :=
  joined_issue h acc _

/-- LJOIN of a child that has completed: its slot is free again (R210, R280). -/
theorem joinSlot_done (gk : Nat) (a : DWord) (h : Issues s c w x) (acc : w.acc = []) (done : p.done = true) :
    joinSlot c x gk a (some p) s = .ok () (((((s.freePoolAt (fld a 11 0)).opens c w 0xE3 x).acquired c 3).setScalarOf c
      x.dst (joinWord p.status p.cause.toNat)).ended c w) := by
  have freed : Issues (s.freePoolAt (fld a 11 0)) c w x := ⟨h.cur, h.crew, h.clean, h.awake, h.full, h.sw⟩
  exact (congrFun (if_pos done) s).trans ((M.bind_ok (modS_run _ s)).trans (joined_issue freed acc _))

/-- The first join claims the child (R210). -/
def State.claimSlot (s : State) (i : Nat) (p : PoolSlot) : State :=
  { s with pool := Tab.put s.pool i { p with joined := true } }

/-- LJOIN of a child that runs claims it and waits; its gang may swap out (R210). -/
theorem joinSlot_waits (gk : Nat) (a : DWord) (h : Issues s c w x) (runs : p.done = false) :
    joinSlot c x gk a (some p) s = .ok ()
      (((s.claimSlot (fld a 11 0) p).setCrew c { w with park := some (.join (fld a 43 0)) }).trySwapOut gk) := by
  have crew : (s.claimSlot (fld a 11 0) p).crew? c = some w := h.crew
  exact (congrFun (if_neg (by simp [runs])) s).trans ((M.bind_ok (modS_run _ s)).trans
    ((M.bind_ok (modC_run _ crew)).trans (modS_run _ _)))

end

/-- Settles O40: LAUNCH by what its record and the pool say, LJOIN by what it finds of its child. -/
theorem childGrids : Obligations.ChildGrids := by
  unfold Obligations.ChildGrids
  intro x s s0 t u c i w y g l a v r tab p h acc hg ha
  refine ⟨?launch, ?delivered, ?none, ?done, ?waits⟩
  case launch =>
    rintro rfl hy idle aligned low read grid live
    refine ⟨?places, ?refuses⟩
    case places =>
      rintro slot ok rfl live'
      exact execLaunch_read h acc idle hg hy ha aligned low read grid (endLaunch_places slot ok) live'
    case refuses =>
      rintro bad rfl
      exact execLaunch_read h acc idle hg hy ha aligned low read grid (endLaunch_refuses bad) live
  case delivered =>
    rintro result rfl
    exact crewStep_run h.cur h.crew (runLjoin_delivered h acc result)
  all_goals
    intro first slot
    have run := (runLjoin_first h acc first).trans (joinChild_eq w.gang h hg)
    rw [← ha, slot] at run
  case none =>
    rintro rfl
    exact crewStep_run h.cur h.crew (run.trans (joinSlot_none w.gang a h acc))
  case done =>
    rintro done rfl
    exact crewStep_run h.cur h.crew (run.trans (joinSlot_done w.gang a h acc done))
  case waits =>
    rintro runs rfl
    exact crewStep_run h.cur h.crew (run.trans (joinSlot_waits w.gang a h runs))

/-! ## KZERO (R212, R360) -/

section
variable {x : Ops} {s : State} {c k : Nat} {w : Crew}

theorem State.markZeroised_crew (s : State) (k c : Nat) : (s.markZeroised k).crew? c = s.crew? c := by
  unfold State.markZeroised
  split <;> rfl

/-- KZERO of a slot whose zeroisation changes no key completes at once (R360, R367; log 56). -/
theorem runKzero_atOnce (h : Issues s c w x) (acc : w.acc = []) (level : 2 ≤ w.priv.toNat)
    (hk : k = (w.arch.scalar (scalarNo x.sa)).toNat % 128) (first : w.waitEvt = none) (done : s.zeroDone k = true) :
    runKzero c x s = .ok () (((s.opens c w 0xF5 x).markZeroised k).ended c w) := by
  have a := AfterReads.opens h 0xF5
  unfold runKzero
  refine (M.bind_ok (needPriv_run h.crew level)).trans ((M.bind_ok (crewM_run h.crew)).trans
    ((M.bind_ok (getS_run s)).trans ?_))
  rw [← hk, if_pos (by simp [first, done])]
  exact h.issue_ended acc ((M.bind_ok (a.reg x.sa)).trans (modS_run _ _)) ((State.markZeroised_crew _ k c).trans a.crew) rfl

/-- The start of a zeroisation (R212). -/
theorem kzeroStart_run (h : Issues s c w x) (hk : k = (w.arch.scalar (scalarNo x.sa)).toNat % 128) :
    (do
      let v ← readScalar c x.sa
      modS fun t => t.beginZero (v.toNat % 128)
      pure (.kzero (v.toNat % 128)) : M Park) s = .ok (.kzero k) (s.beginZero k) := by
  refine (M.bind_ok (readScalar_run x.sa h.crew h.clean)).trans ?_
  rw [← hk]
  exact M.bind_ok (modS_run _ s)

/-- KZERO of another slot begins a zeroisation and waits for its end (R212). -/
theorem runKzero_begins (h : Issues s c w x) (acc : w.acc = []) (level : 2 ≤ w.priv.toNat)
    (hk : k = (w.arch.scalar (scalarNo x.sa)).toNat % 128) (first : w.waitEvt = none) (keys : s.zeroDone k = false) :
    runKzero c x s = .ok () ((s.beginZero k).setCrew c { w with park := some (.kzero k) }) := by
  unfold runKzero
  refine (M.bind_ok (needPriv_run h.crew level)).trans ((M.bind_ok (crewM_run h.crew)).trans
    ((M.bind_ok (getS_run s)).trans ?_))
  rw [← hk, if_neg (by simp [keys])]
  exact twoPhase_start h (fun _ => acc) first (kzeroStart_run h hk) h.crew

/-- KZERO whose zeroisation has ended (R212). -/
theorem runKzero_ended {v : DWord} (h : Issues s c w x) (acc : w.acc = []) (level : 2 ≤ w.priv.toNat)
    (ended : w.waitEvt = some v) : runKzero c x s = .ok () (((s.opens c w 0xF5 x).delivered c).ended c w) := by
  unfold runKzero
  refine (M.bind_ok (needPriv_run h.crew level)).trans ((M.bind_ok (crewM_run h.crew)).trans
    ((M.bind_ok (getS_run s)).trans ?_))
  rw [if_neg (by simp [ended])]
  exact twoPhase_done h (fun _ => acc) ended rfl (State.delivered_crew (s.opens_crew c w 0xF5 x))
    fun h0 => absurd h0 (h.act_ne 0xF5 rfl)

end

/-! ## SCRUB (R213) -/

/-- What SCRUB answers, and the machine as it answers (R213). -/
def State.scrubAnswer (s : State) (a n : Nat) : DWord × State :=
  if s.sec.scrub.state = 1 then (1, s)
  else match s.rangeList a n with
    | none => (2, s)
    | some l => (0, s.startScrub l)

section
variable {s : State} {a n : Nat}

theorem State.scrubAnswer_running (runs : s.sec.scrub.state = 1) : s.scrubAnswer a n = (1, s) := if_pos runs

theorem State.scrubAnswer_malformed (idle : s.sec.scrub.state ≠ 1) (bad : s.rangeList a n = none) :
    s.scrubAnswer a n = (2, s) := by rw [State.scrubAnswer, if_neg idle, bad]

theorem State.scrubAnswer_starts {l : List (Nat × Nat)} (idle : s.sec.scrub.state ≠ 1) (list : s.rangeList a n = some l) :
    s.scrubAnswer a n = (0, s.startScrub l) := by rw [State.scrubAnswer, if_neg idle, list]

end

/-- An answer leaves the crews. -/
theorem State.scrubAnswer_crew (s : State) (a n c : Nat) : (s.scrubAnswer a n).2.crew? c = s.crew? c := by
  unfold State.scrubAnswer
  split
  · rfl
  · split <;> rfl

section
variable {x : Ops} {s t : State} {c n : Nat} {w y : Crew}

theorem AfterReads.bodyScrub_run (a : AfterReads s t c w y x) (level : 2 ≤ y.priv.toNat) {r : DWord × State}
    (hr : r = t.scrubAnswer (w.arch.scalar (scalarNo x.sa)).toNat (w.arch.scalar (scalarNo x.sb)).toNat) :
    bodyScrub c x t = writeScalar c x.dst r.1 r.2 := by
  subst hr
  unfold bodyScrub State.scrubAnswer
  refine (M.bind_ok (needPriv_run a.crew level)).trans ((M.bind_ok (a.reg x.sa)).trans ((M.bind_ok (a.reg x.sb)).trans
    ((M.bind_ok (getS_run t)).trans ?_)))
  by_cases runs : t.sec.scrub.state = 1
  · rw [if_pos runs, if_pos runs]
  · rw [if_neg runs, if_neg runs]
    cases t.rangeList (w.arch.scalar (scalarNo x.sa)).toNat (w.arch.scalar (scalarNo x.sb)).toNat with
    | none => rfl
    | some l => exact M.bind_ok (modS_run _ t)

/-- SCRUB writes its answer. -/
theorem execScrub_answers (h : Issues s c w x) (acc : w.acc = []) (level : 2 ≤ w.priv.toNat) {r : DWord × State}
    (hr : r = (s.opens c w 0xF6 x).scrubAnswer (w.arch.scalar (scalarNo x.sa)).toNat
      (w.arch.scalar (scalarNo x.sb)).toNat) :
    execScrub x s = .next ((r.2.setScalarOf c x.dst r.1).ended c w) := by
  have a := AfterReads.opens h 0xF6
  exact issueStep_scalar x.dst r.1 h (fun _ => acc) (by rw [hr]; exact (State.scrubAnswer_crew _ _ _ c).trans a.crew)
    (a.bodyScrub_run (by rwa [Crew.begun_priv]) hr) a.clean a.act

/-! ## CTXFREE (R214, R363) -/

/-- A context can be released but for its scrub (R214). -/
def State.awaitsScrub (s : State) (n : Nat) : Prop := (s.ctx n).prot = true ∧ s.ctxBusy n = false ∧ (s.ctx n).zeroised = true

/-- What CTXFREE answers where no scrub has failed, and the machine as it answers (R214, R370). -/
def State.freeAnswer (s : State) (c n : Nat) : DWord × State :=
  if !(s.ctx n).prot then (4, s)
  else if s.ctxBusy n then (3, s)
  else if !(s.ctx n).zeroised then (2, s)
  else if s.sec.scrub.prog.toNat < s.sec.scrub.total.toNat then (1, s)
  else (0, (s.freeCtx n).acquired c 4)

section
variable {s : State} {c n : Nat}

theorem State.freeAnswer_unprotected (prot : (s.ctx n).prot = false) : s.freeAnswer c n = (4, s) := by
  simp [State.freeAnswer, prot]

theorem State.freeAnswer_busy (prot : (s.ctx n).prot = true) (busy : s.ctxBusy n = true) : s.freeAnswer c n = (3, s) := by
  simp [State.freeAnswer, prot, busy]

theorem State.freeAnswer_keys (prot : (s.ctx n).prot = true) (idle : s.ctxBusy n = false)
    (keys : (s.ctx n).zeroised = false) : s.freeAnswer c n = (2, s) := by simp [State.freeAnswer, prot, idle, keys]

theorem State.freeAnswer_counting (waits : s.awaitsScrub n)
    (counts : s.sec.scrub.prog.toNat < s.sec.scrub.total.toNat) : s.freeAnswer c n = (1, s) := by
  obtain ⟨prot, idle, zero⟩ := waits
  simp [State.freeAnswer, prot, idle, zero, counts]

theorem State.freeAnswer_released (waits : s.awaitsScrub n)
    (whole : s.sec.scrub.total.toNat ≤ s.sec.scrub.prog.toNat) :
    s.freeAnswer c n = (0, (s.freeCtx n).acquired c 4) := by
  obtain ⟨prot, idle, zero⟩ := waits
  simp [State.freeAnswer, prot, idle, zero, Nat.not_lt.2 whole]

end

theorem State.freeCtx_crew (s : State) (n c : Nat) : (s.freeCtx n).crew? c = s.crew? c := State.setKeyslot_crew _ _ _ c

theorem State.freeAnswer_crew (s : State) (c n : Nat) : (s.freeAnswer c n).2.crew? c = s.crew? c := by
  unfold State.freeAnswer
  split
  · rfl
  · split
    · rfl
    · split
      · rfl
      · split
        · rfl
        · exact (State.acquired_crew _ c 4).trans (s.freeCtx_crew n c)

theorem AfterReads.bodyCtxfree_run (a : AfterReads s t c w y x) (level : 2 ≤ y.priv.toNat)
    (hn : n = (w.arch.scalar (scalarNo x.sa)).toNat % 65536) (fine : t.awaitsScrub n → t.sec.scrub.state ≠ 2)
    {r : DWord × State} (hr : r = t.freeAnswer c n) : bodyCtxfree c x t = writeScalar c x.dst r.1 r.2 := by
  subst hr
  unfold bodyCtxfree State.freeAnswer
  refine (M.bind_ok (needPriv_run a.crew level)).trans ((M.bind_ok (a.reg x.sa)).trans ((M.bind_ok (getS_run t)).trans ?_))
  rw [← hn]
  cases prot : (t.ctx n).prot with
  | false => rfl
  | true =>
    cases busy : t.ctxBusy n with
    | true => rfl
    | false =>
      cases zero : (t.ctx n).zeroised with
      | false => rfl
      | true =>
        simp only [Bool.not_true, Bool.false_eq_true, if_false, fine ⟨prot, busy, zero⟩]
        by_cases counts : t.sec.scrub.prog.toNat < t.sec.scrub.total.toNat
        · simp only [counts, if_true]
        · simp only [counts, if_false]
          exact (M.bind_ok (modS_run _ t)).trans (M.bind_ok (acquireM_run 4 ((t.freeCtx_crew n c).trans a.crew)))

/-- CTXFREE writes its answer where no scrub has failed. -/
theorem execCtxfree_answers (h : Issues s c w x) (acc : w.acc = []) (level : 2 ≤ w.priv.toNat)
    (hn : n = (w.arch.scalar (scalarNo x.sa)).toNat % 65536)
    (fine : (s.opens c w 0xF7 x).awaitsScrub n → s.sec.scrub.state ≠ 2) {r : DWord × State}
    (hr : r = (s.opens c w 0xF7 x).freeAnswer c n) :
    execCtxfree x s = .next ((r.2.setScalarOf c x.dst r.1).ended c w) := by
  have a := AfterReads.opens h 0xF7
  exact issueStep_scalar x.dst r.1 h (fun _ => acc) (by rw [hr]; exact (State.freeAnswer_crew _ c n).trans a.crew)
    (a.bodyCtxfree_run (by rwa [Crew.begun_priv]) hn fine hr) a.clean a.act

/-- CTXFREE after a failed scrub names the range in which it stopped (R214). -/
theorem AfterReads.bodyCtxfree_scrubErr (a : AfterReads s t c w y x) (level : 2 ≤ y.priv.toNat)
    (hn : n = (w.arch.scalar (scalarNo x.sa)).toNat % 65536) (waits : t.awaitsScrub n) (failed : t.sec.scrub.state = 2) :
    bodyCtxfree c x t = .error (.trap cScrubErr
      ((t.sec.scrub.list.drop t.sec.scrub.idx.toNat).head?.elim 0 Prod.fst) none) t := by
  obtain ⟨prot, busy, zero⟩ := waits
  unfold bodyCtxfree
  refine (M.bind_ok (needPriv_run a.crew level)).trans ((M.bind_ok (a.reg x.sa)).trans ((M.bind_ok (getS_run t)).trans ?_))
  rw [← hn]
  simp only [prot, busy, zero, failed, Bool.not_true, Bool.false_eq_true, if_false, if_true]
  cases t.sec.scrub.list.drop t.sec.scrub.idx.toNat <;> rfl

theorem execCtxfree_scrubErr (h : Issues s c w x) (acc : w.acc = []) (level : 2 ≤ w.priv.toNat)
    (hn : n = (w.arch.scalar (scalarNo x.sa)).toNat % 65536) (waits : (s.opens c w 0xF7 x).awaitsScrub n)
    (failed : s.sec.scrub.state = 2) :
    execCtxfree x s = .next ((s.opens c w 0xF7 x).trapped s c w cScrubErr
      ((s.sec.scrub.list.drop s.sec.scrub.idx.toNat).head?.elim 0 Prod.fst) ((w.arch.without w.dead).emask x.head)) := by
  have a := AfterReads.opens h 0xF7
  have stops := a.bodyCtxfree_scrubErr (by rwa [Crew.begun_priv]) hn waits failed
  have trap := issueStep_trap (opc := 0xF7) (ckpt := true) (body := fun k => bodyCtxfree k x) h (fun _ => acc) stops a.crew
  rw [Crew.begun_dead] at trap
  exact trap

end

/-- Settles O41: each clause is one way of KZERO, one answer of SCRUB or CTXFREE, or CTXFREE's trap. -/
theorem stewardInstructions : Obligations.StewardInstructions := by
  unfold Obligations.StewardInstructions
  intro x s s0 c k n w a l v h acc priv ha hk hn
  subst a
  have level : 2 ≤ w.priv.toNat := by rw [priv]; decide
  refine ⟨?kzero, ?scrub, ?ctxfree⟩
  case kzero =>
    rintro rfl
    exact ⟨fun first done => crewStep_run h.cur h.crew (runKzero_atOnce h acc level hk first done),
      fun first keys => crewStep_run h.cur h.crew (runKzero_begins h acc level hk first keys),
      fun ended => crewStep_run h.cur h.crew (runKzero_ended h acc level ended)⟩
  case scrub =>
    rintro rfl
    exact ⟨fun runs => execScrub_answers h acc level (State.scrubAnswer_running (s := s.opens c w 0xF6 x) runs).symm,
      fun idle bad => execScrub_answers h acc level (State.scrubAnswer_malformed (s := s.opens c w 0xF6 x) idle bad).symm,
      fun idle list => execScrub_answers h acc level (State.scrubAnswer_starts (s := s.opens c w 0xF6 x) idle list).symm⟩
  case ctxfree =>
    rintro rfl
    refine ⟨fun free => ?_, fun prot busy => ?_, fun prot idle keys => ?_,
      fun prot idle zero => ⟨execCtxfree_scrubErr h acc level hn ⟨prot, idle, zero⟩, fun fine counts => ?_,
        fun fine whole => ?_⟩⟩
    · exact execCtxfree_answers h acc level hn (fun ⟨prot, _⟩ => absurd (free.symm.trans prot) Bool.false_ne_true)
        (State.freeAnswer_unprotected (s := s.opens c w 0xF7 x) free).symm
    · exact execCtxfree_answers h acc level hn (fun ⟨_, idle, _⟩ => absurd (idle.symm.trans busy) Bool.false_ne_true)
        (State.freeAnswer_busy (s := s.opens c w 0xF7 x) prot busy).symm
    · exact execCtxfree_answers h acc level hn (fun ⟨_, _, zero⟩ => absurd (keys.symm.trans zero) Bool.false_ne_true)
        (State.freeAnswer_keys (s := s.opens c w 0xF7 x) prot idle keys).symm
    · exact execCtxfree_answers h acc level hn (fun _ => fine) (State.freeAnswer_counting (s := s.opens c w 0xF7 x) ⟨prot, idle, zero⟩ counts).symm
    · exact execCtxfree_answers h acc level hn (fun _ => fine) (State.freeAnswer_released (s := s.opens c w 0xF7 x) ⟨prot, idle, zero⟩ whole).symm

/-! ## Gangs retire, are killed and swapped in (R195, R288, R313) -/

section
variable {s t u : State} {g n : Nat} {y : Gang}

/-- GANG_RETIRE of a gang that has nothing left (R195). -/
theorem execGangRetire_retires (hg : s.gang? g = some y) (core : y.home = .core) (crews : s.crewsOf g = [])
    (bins : y.resumable = false) (cmds : (s.cmds.any fun p => p.2.gang == g && !p.2.isOver) = false)
    (ht : t = s.modGrid y.grid fun k => k.noteRetired y) :
    execGangRetire g s = .next ({ t with gangs := Tab.del t.gangs g }.drained y.ctx) := by
  subst ht
  have stays : (y.home != .core || !(s.crewsOf g).isEmpty || y.resumable
      || s.cmds.any fun p => p.2.gang == g && !p.2.isOver) = false := by simp [core, crews, bins, cmds]
  unfold execGangRetire
  simp only [hg, stays, Bool.false_eq_true, if_false]

/-- GANG_KILL of a gang that lives (R313). -/
theorem execGangKill_kills (cause : BitVec 8) (addr : DWord) (hg : s.gang? g = some y) (alive : y.alive = true) :
    execGangKill g cause addr s = .next (s.gangKill g (plainWhy y.core cause addr.toNat)) := by
  unfold execGangKill
  simp only [hg, alive, if_true]
  rfl

/-- A swapped-out gang may come back before every other restore (R288). -/
structure ReadyBack (s : State) (g n : Nat) (y : Gang) : Prop where
  gang : s.gang? g = some y
  home : y.home = .swapped
  back : y.back = some n
  pre : (s.ctx y.ctx).pre.toNat < 2
  first : s.olderRestore n [y.core] = false

theorem ReadyBack.passes (h : ReadyBack s g n y) :
    (y.home != .swapped || decide (2 ≤ (s.ctx y.ctx).pre.toNat) || s.olderRestore n [y.core]) = false := by
  simp [h.home, h.first, h.pre]

/-- GANG_SWAP_IN of a gang that finds its core (R210, R288 to R290). -/
theorem ReadyBack.execGangSwapIn_lands (h : ReadyBack s g n y)
    (alone : s.owesBstack y.ctx y.core = true → s.gangsOn y.core = []) (room : (s.gangRoom g).isSome = true)
    (lands : (if s.owesBstack y.ctx y.core then s.loadBstack y.ctx y.core (· == .swapped) else s).landGang g = some t)
    (replays : t.replayLog y.ctx = .ok u) : execGangSwapIn g s = .next ((u.tryBarriers g).noteRun y.ctx) := by
  have fits : (s.owesBstack y.ctx y.core && !(s.gangsOn y.core).isEmpty || (s.gangRoom g).isNone) = false := by
    cases owes : s.owesBstack y.ctx y.core with
    | false => simpa using room
    | true => simpa [alone owes] using room
  unfold execGangSwapIn
  simp only [h.gang, h.back, h.passes, fits, lands, replays, Bool.false_eq_true, if_false]

/-- GANG_SWAP_IN of a gang that finds no place holds the free slots (R288). -/
theorem ReadyBack.execGangSwapIn_waits (h : ReadyBack s g n y) (none : s.gangRoom g = none) :
    execGangSwapIn g s = .next (s.holdSlots g) := by
  unfold execGangSwapIn
  simp only [h.gang, h.back, h.passes, none, Option.isNone_none, Bool.or_true, Bool.false_eq_true, if_false, if_true]

end

/-! ## Gangs are placed (R275 to R281, R314) -/

section
variable {s t : State} {l : Nat} {z : Grid}

/-- GANG_PLACE of the next gangs of a launch (R275 to R281). -/
theorem execGangPlace_places {cores : List Nat} (hl : s.grid? l = some z) (some_ : z.nextUnit ≠ [])
    (length : z.nextUnit.length = cores.length) (groups : z.groupsOk (z.nextUnit.zip cores) = true)
    (may : s.mayPlace l z = true) (places : placeAll l z (z.nextUnit.zip cores) s.grantAtPlacement = some t) :
    execGangPlace l cores s = .next (t.placed l (z.next + z.nextUnit.length)) := by
  have passes : (z.nextUnit.isEmpty || z.nextUnit.length != cores.length || !(z.groupsOk (z.nextUnit.zip cores))
      || !(s.mayPlace l z)) = false := by simp [some_, length, groups, may]
  unfold execGangPlace
  simp only [hl, passes, places, Bool.false_eq_true, if_false]

/-- GANG_RELAUNCH of a killed gang that is due (R279, R314). -/
theorem execGangRelaunch_places {gid core : Nat} {h : Grid} (hl : s.grid? l = some z) (due : z.due.contains gid = true)
    (booted : s.sec.boot = 3) (runs : (s.ctx z.ctx).pre = 0) (alive : s.killRuns l gid = false)
    (place : s.relaunchCore l z gid core = true) (hh : h = { z with due := z.due.erase gid, again := z.again + 1 })
    (places : placeAll l h [(gid, core)] (s.setGrid l h).grantAtPlacement = some t) :
    execGangRelaunch l gid core s = .next (t.placed l z.next) := by
  subst hh
  have passes : (!(z.due.contains gid) || s.sec.boot != 3 || (s.ctx z.ctx).pre != 0 || s.killRuns l gid
      || !(s.relaunchCore l z gid core)) = false := by simp only [due, booted, runs, alive, place]; rfl
  unfold execGangRelaunch
  simp only [hl, passes, places, Bool.false_eq_true, if_false]

end

/-! ## Launches are admitted, grids end (R272 to R281) -/

section
variable {s : State} {l : Nat} {slots : List (Nat × Nat)} {z : Grid}

/-- The headframe of a booted device may look at launch `l`, and give it `slots` (R272, R275). -/
structure MayAdmit (s : State) (l : Nat) (slots : List (Nat × Nat)) (z : Grid) : Prop where
  grid : s.grid? l = some z
  boot : s.sec.boot = 3
  table : s.arb.table.isSome = true
  slots : s.mayReserve l z slots = true

theorem MayAdmit.passes (h : MayAdmit s l slots z) :
    ¬ (s.sec.boot ≠ 3 ∨ s.arb.table.isNone = true ∨ (!(s.mayReserve l z slots)) = true) := by
  simp [h.boot, Option.isSome_iff_ne_none.1 h.table, h.slots]

/-- LAUNCH_ADMIT of an admitted launch with gangs to place takes more slots (R276). -/
theorem MayAdmit.execLaunchAdmit_more (h : MayAdmit s l slots z) (admitted : z.admitted = true)
    (more : z.next < recGangs z.record ∨ z.due ≠ []) : execLaunchAdmit (l, slots) s = .next (s.bindSlots z slots) := by
  have more' : z.next < recGangs z.record ∨ (!z.due.isEmpty) = true := by simpa using more
  unfold execLaunchAdmit
  simp only [h.grid, if_neg h.passes, admitted, if_pos more', if_true]

/-- LAUNCH_ADMIT of the first launch that the headframe can settle, its dependencies met (R272, R275). -/
theorem MayAdmit.execLaunchAdmit_admits (h : MayAdmit s l slots z) (fresh : z.admitted = false) (settled : s.settled z = true)
    (pool : s.poolBefore l z = false) (first : (s.grids.any fun p => s.settled p.2 && goesBefore p.1 p.2 l z) = false)
    (met : s.deps z = .met) : execLaunchAdmit (l, slots) s =
      .next (((s.setGrid l { z with state := .admitted }).bindSlots z slots).evaluate 1 false) := by
  unfold execLaunchAdmit
  simp only [h.grid, if_neg h.passes, fresh, settled, pool, first, met, Bool.not_true, Bool.false_eq_true, or_self, if_false]

/-- LAUNCH_ADMIT of the first launch that the headframe can settle, a dependency having failed (R274). -/
theorem MayAdmit.execLaunchAdmit_rejects {c : Cause} {a : Nat} (h : MayAdmit s l slots z) (fresh : z.admitted = false)
    (settled : s.settled z = true) (pool : s.poolBefore l z = false)
    (first : (s.grids.any fun p => s.settled p.2 && goesBefore p.1 p.2 l z) = false) (bad : s.deps z = .bad c a) :
    execLaunchAdmit (l, slots) s =
      .next (((s.noteSys z.ctx .read a 8).writeCompl z 3 c.toNat true).dropGrid l z 1 c.toNat) := by
  unfold execLaunchAdmit
  simp only [h.grid, if_neg h.passes, fresh, settled, pool, first, bad, Bool.not_true, Bool.false_eq_true, or_self, if_false]

end

/-- GRID_END (R274, R279). -/
theorem execGridEnd_ends {s : State} {l : Nat} {z : Grid} (hl : s.grid? l = some z) (done : s.gridOver l z = true) :
    execGridEnd l s = .next (((((s.writeStats z).writeCompl z z.status z.cause.toNat false).dropGrid l z
      (if z.status = 0 then 0 else 1) z.cause.toNat).evaluate 2 false)) := by
  unfold execGridEnd
  simp only [hl, done, Bool.not_true, Bool.false_eq_true, if_false]

/-- Settles O44: each happening whose conditions hold does what its clause says. -/
theorem gangHappenings : Obligations.GangHappenings := by
  unfold Obligations.GangHappenings
  intro s t u g l gid core a n slots y z h cause addr cores
  refine ⟨execGangRetire_retires, execGangKill_kills cause addr, fun hg home back pre first => ?swapIn,
    execGangPlace_places, execGangRelaunch_places, fun hl booted table may => ?admission, execGridEnd_ends⟩
  case swapIn =>
    have ready : ReadyBack s g n y := ⟨hg, home, back, pre, first⟩
    exact ⟨ready.execGangSwapIn_lands, ready.execGangSwapIn_waits⟩
  case admission =>
    have ready : MayAdmit s l slots z := ⟨hl, booted, table, may⟩
    exact ⟨ready.execLaunchAdmit_more, fun fresh settled pool first =>
      ⟨ready.execLaunchAdmit_admits fresh settled pool first, ready.execLaunchAdmit_rejects fresh settled pool first⟩⟩

end Sys2Proof.Machine
